-- ==== Sys2Proof/Word.lean ====
section
/-!
DEFINITION. The words the manual speaks of and the plainest arithmetic on them: byte, halfword, word and doubleword
(R3), bit fields `[hi:lo]` (R2), and the little-endian bytes of a value (R3).
-/
namespace Sys2Proof

/-- A byte (R3). -/
abbrev Byte := BitVec 8
/-- A half: 16 bits (R3); also one lane mask (R11) and one 16-bit unit of code (R169). -/
abbrev Half := BitVec 16
/-- A word: 32 bits (R3); also one lane of a vector register (R11). -/
abbrev Word := BitVec 32
/-- A doubleword: 64 bits (R3); also one x register (R11). -/
abbrev Dword := BitVec 64

/-- The `width` bits of the number `w` that begin at bit `lo` (R2's `[lo + width - 1 : lo]`). -/
def bits (w lo width : Nat) : Nat := w / 2 ^ lo % 2 ^ width

/-- Bit `i` of the number `w`. -/
def bitAt (w i : Nat) : Bool := w / 2 ^ i % 2 == 1

/-- The low `n` bytes of the number `v`, lowest address first (R3). -/
def bytesOfNat : Nat → Nat → List Byte
  | 0, _ => []
  | n + 1, v => BitVec.ofNat 8 v :: bytesOfNat n (v / 256)

/-- The number whose bytes, lowest address first, are the list's (R3). -/
def natOfBytes : List Byte → Nat
  | [] => 0
  | b :: bs => b.toNat + 256 * natOfBytes bs

/-- The number the low `width` bits of `v` spell as two's complement (R6's `sign_extend`). -/
def signedOfNat (width v : Nat) : Int :=
  let u := v % 2 ^ width
  if u < 2 ^ (width - 1) then (u : Int) else (u : Int) - (2 ^ width : Nat)

/-- The mask of the low `n` bits. -/
def onesBelow (n : Nat) : Nat := 2 ^ n - 1

end Sys2Proof
end

