-- ==== Sys2Proof/Syntax.lean ====
section
/-!
DEFINITION. The instructions of Zheano and the steps of the machine that no word encodes: one constructor of `Instr` for
each row of the opcode table, with the operands its format gives it (R174 to R197), already turned into names.
-/
namespace Sys2Proof

/-- x0 to x63 (R11, R175). -/
abbrev XReg := Fin 64
/-- v0 to v31 (R11, R175). -/
abbrev VReg := Fin 32
/-- k0 to k7 (R11, R175). -/
abbrev KReg := Fin 8
/-- acc0 to acc3 (R11, R175). -/
abbrev AccReg := Fin 4
/-- h0 to h15 (R11, R175); also a slot of the weight buffer (R190). -/
abbrev Ring := Fin 16
/-- The registers x16 to x31 that the engine layout can name, as x16 + n (R192). -/
abbrev EngReg := Fin 16
/-- The bindable registers x60 to x63, as x60 + n (R14, R191). -/
abbrev Port := Fin 4

/-- The size of a scalar access (R3, R180). -/
inductive Size where
  | b | h | w | d
  deriving DecidableEq, Repr

/-- The address space of a memory instruction (R9, R180). -/
inductive Space where
  | global | sp | cw | ds | lw
  deriving DecidableEq, Repr

/-- The scope of a strong access (R75). -/
inductive Scope where
  | core | clu | die | mod | sys
  deriving DecidableEq, Repr

/-- The two sizes of an atomic (R181). -/
inductive OpSize where
  | w | d
  deriving DecidableEq, Repr

/-- The operation of AMO and RED (R181). -/
inductive AmoOp where
  | swap | add | and | or | xor | min | max | minu | maxu | fadd
  deriving DecidableEq, Repr

/-- The tag of a Brine update (R101). -/
inductive BrineTag where
  | addW | addD | minW | maxW | minuW | maxuW | minD | maxD | minuD | maxuD | and | or | xor
  | faddS | faddHf2 | fminS | fmaxS
  deriving DecidableEq, Repr

/-- The element size of a VOP (R184): one, two or four elements a lane. -/
inductive ElemSize where
  | w | h | b
  deriving DecidableEq, Repr

/-- The type of a VFOP (R185): one FP32 or two FP16 values a lane. -/
inductive FType where
  | s | hf
  deriving DecidableEq, Repr

/-- The formats of a conversion (R189). -/
inductive CvtFmt where
  | fp32 | fp16 | bf16 | f8a | f8b | int32 | int8 | dp8
  deriving DecidableEq, Repr

/-- The tile formats of MMA and MWB (R190). -/
inductive MatFmt where
  | fp16 | bf16 | f8a | f8b | int8 | dp8g16 | dp8g32 | dp8g64
  deriving DecidableEq, Repr

/-- The tile formats MST stores (R190): the 32-bit elements as held, FP16 or BF16. -/
inductive MstFmt where
  | held | fp16 | bf16
  deriving DecidableEq, Repr

/-- The local side of an engine copy (R192). -/
inductive LocalSide where
  | none | sp | cw | ds
  deriving DecidableEq, Repr

/-- The registration mode of PH.REG and PH.DROP (R195). -/
inductive RegMode where
  | sig | wait | sigwait
  deriving DecidableEq, Repr

/-- The kind of a BAR (R195). -/
inductive BarKind where
  | row | col | mesh | ss
  deriving DecidableEq, Repr

/-- The level of CANCEL and CTRRD (R196). -/
inductive Level where
  | launch | graph | phase | job
  deriving DecidableEq, Repr

/-- The orderings of an engine command or a message (R192, R194): `.acq`, `.rel` and their one scope. -/
structure MemOrder where
  scope : Scope
  acq : Bool
  rel : Bool
  deriving DecidableEq, Repr

/-- What a step that no word encodes is about; each such step's meaning says how it reads it. -/
structure Subject where
  /-- A core, die, bridge, cluster, net, launch, operation or cache. -/
  place : Nat
  /-- A context, slot, stage, port, queue or other number at the place. -/
  index : Nat
  /-- An address, or a register's number. -/
  addr : Dword
  /-- A value written or carried. -/
  value : Dword
  /-- Which way a change goes. -/
  flag : Bool
  deriving DecidableEq, Repr

/-- One constructor for each row of the opcode table.
The arguments stand in the order: destination, sources, immediates and modifiers.
The steps that no word encodes have no fields, as in the table; the place at which one happens is its `Subject`, which
stands in the state. -/
inductive Instr where
  -- major OP (R178, R223, R224)
  | add (rd rs1 rs2 : XReg)
  | sub (rd rs1 rs2 : XReg)
  | and (rd rs1 rs2 : XReg)
  | or (rd rs1 rs2 : XReg)
  | xor (rd rs1 rs2 : XReg)
  | andn (rd rs1 rs2 : XReg)
  | sll (rd rs1 rs2 : XReg)
  | srl (rd rs1 rs2 : XReg)
  | sra (rd rs1 rs2 : XReg)
  | slt (rd rs1 rs2 : XReg)
  | sltu (rd rs1 rs2 : XReg)
  | min (rd rs1 rs2 : XReg)
  | max (rd rs1 rs2 : XReg)
  | minu (rd rs1 rs2 : XReg)
  | maxu (rd rs1 rs2 : XReg)
  | sel (rd rs1 rs2 : XReg)
  | clz (rd rs1 : XReg)
  | ctz (rd rs1 : XReg)
  | popc (rd rs1 : XReg)
  -- major OPI (R177, R226)
  | addi (rd rs1 : XReg) (imm : BitVec 12)
  | andi (rd rs1 : XReg) (imm : BitVec 9)
  | ori (rd rs1 : XReg) (imm : BitVec 9)
  | xori (rd rs1 : XReg) (imm : BitVec 9)
  | slti (rd rs1 : XReg) (imm : BitVec 9)
  | sltiu (rd rs1 : XReg) (imm : BitVec 9)
  | slli (rd rs1 : XReg) (shamt : Fin 64)
  | srli (rd rs1 : XReg) (shamt : Fin 64)
  | srai (rd rs1 : XReg) (shamt : Fin 64)
  -- majors LUI and ADDPC (R177, R227)
  | lui (rd : XReg) (imm : BitVec 19)
  | addpc (rd : XReg) (imm : BitVec 19)
  -- major MULDIV (R178, R229): `w` selects the 32-bit form
  | mul (rd rs1 rs2 : XReg) (w : Bool)
  | mulh (rd rs1 rs2 : XReg)
  | mulhu (rd rs1 rs2 : XReg)
  | div (rd rs1 rs2 : XReg) (w : Bool)
  | divu (rd rs1 rs2 : XReg) (w : Bool)
  | rem (rd rs1 rs2 : XReg) (w : Bool)
  | remu (rd rs1 rs2 : XReg) (w : Bool)
  -- control majors (R179, R231 to R242): offsets count halfwords
  | beq (rs1 rs2 : XReg) (off : BitVec 10)
  | bne (rs1 rs2 : XReg) (off : BitVec 10)
  | blt (rs1 rs2 : XReg) (off : BitVec 10)
  | bge (rs1 rs2 : XReg) (off : BitVec 10)
  | bltu (rs1 rs2 : XReg) (off : BitVec 10)
  | bgeu (rs1 rs2 : XReg) (off : BitVec 10)
  | jal (rd : XReg) (imm : BitVec 19)
  | jalr (rd rs1 : XReg) (imm : BitVec 13)
  | loop (rc : XReg) (off : BitVec 13)
  | loopr (rc : XReg) (off : BitVec 13)
  | rep (rc : XReg) (n : BitVec 6)
  -- majors LOAD and STORE (R180, R243 to R252)
  | ld (rd base : XReg) (size : Size) (z : Bool) (space : Space) (off : BitVec 6)
  | ldSt (rd base : XReg) (size : Size) (z : Bool) (space : Space) (scope : Scope)
  | st (rv base : XReg) (size : Size) (space : Space) (off : BitVec 6)
  | stSt (rv base : XReg) (size : Size) (space : Space) (scope : Scope)
  | pref (base : XReg) (space : Space) (off : BitVec 6)
  -- majors AMO, RED and BUPD (R181, R311, R317)
  | amo (op : AmoOp) (size : OpSize) (rd rs1 : XReg) (scope : Scope) (acq rel : Bool)
  | casW (rd rs1 rs2 : XReg) (scope : Scope) (acq rel : Bool)
  | casD (rd rs1 rs2 : XReg) (scope : Scope) (acq rel : Bool)
  | red (op : AmoOp) (size : OpSize) (rs1 rs2 : XReg) (scope : Scope) (rel : Bool)
  | bupd (tag : BrineTag) (rs1 rs2 : XReg) (scope : Scope) (rel : Bool)
  -- major FENCE (R182, R315, R316)
  | fenceAcq (scope : Scope)
  | fenceRel (scope : Scope)
  | fenceFull (scope : Scope)
  | fenceSp
  | ifence
  -- majors SYS and PRIV (R183, R330 to R339)
  | csrrw (rd rs1 : XReg) (csr : BitVec 11)
  | csrrs (rd rs1 : XReg) (csr : BitVec 11)
  | csrrc (rd rs1 : XReg) (csr : BitVec 11)
  | trap (rs1 : XReg)
  | eret
  | wfe
  | dictLoad (rs1 : XReg)
  | xlinv (rs1 rs2 : XReg)
  | bist (rd rs1 : XReg)
  -- the 16-bit forms (R170, R171)
  | compactLane (op : Fin 16) (vd vs2 : VReg)
  | dictionaryReference (index : Fin 1024) (override : KReg)
  -- major VOP (R184, R253 to R258)
  | vadd (size : ElemSize) (vd vs1 vs2 : VReg) (k : KReg)
  | vsub (size : ElemSize) (vd vs1 vs2 : VReg) (k : KReg)
  | vmul (size : ElemSize) (vd vs1 vs2 : VReg) (k : KReg)
  | vmulh (size : ElemSize) (vd vs1 vs2 : VReg) (k : KReg)
  | vand (vd vs1 vs2 : VReg) (k : KReg)
  | vor (vd vs1 vs2 : VReg) (k : KReg)
  | vxor (vd vs1 vs2 : VReg) (k : KReg)
  | vshl (size : ElemSize) (vd vs1 vs2 : VReg) (k : KReg)
  | vshr (size : ElemSize) (vd vs1 vs2 : VReg) (k : KReg)
  | vshra (size : ElemSize) (vd vs1 vs2 : VReg) (k : KReg)
  | vmin (size : ElemSize) (vd vs1 vs2 : VReg) (k : KReg)
  | vmax (size : ElemSize) (vd vs1 vs2 : VReg) (k : KReg)
  | vminu (size : ElemSize) (vd vs1 vs2 : VReg) (k : KReg)
  | vmaxu (size : ElemSize) (vd vs1 vs2 : VReg) (k : KReg)
  | vmov (vd vs2 : VReg) (k : KReg)
  | vsel (vd vs1 vs2 : VReg) (k : KReg)
  | vcmpEq (size : ElemSize) (kd : KReg) (vs1 vs2 : VReg) (k : KReg)
  | vcmpNe (size : ElemSize) (kd : KReg) (vs1 vs2 : VReg) (k : KReg)
  | vcmpLt (size : ElemSize) (kd : KReg) (vs1 vs2 : VReg) (k : KReg)
  | vcmpGe (size : ElemSize) (kd : KReg) (vs1 vs2 : VReg) (k : KReg)
  | vcmpLtu (size : ElemSize) (kd : KReg) (vs1 vs2 : VReg) (k : KReg)
  | vcmpGeu (size : ElemSize) (kd : KReg) (vs1 vs2 : VReg) (k : KReg)
  -- majors VFOP and VFMA (R185, R259 to R263)
  | vfadd (ty : FType) (vd vs1 vs2 : VReg) (k : KReg)
  | vfsub (ty : FType) (vd vs1 vs2 : VReg) (k : KReg)
  | vfmul (ty : FType) (vd vs1 vs2 : VReg) (k : KReg)
  | vfdiv (ty : FType) (vd vs1 vs2 : VReg) (k : KReg)
  | vfsqrt (ty : FType) (vd vs1 : VReg) (k : KReg)
  | vfmin (ty : FType) (vd vs1 vs2 : VReg) (k : KReg)
  | vfmax (ty : FType) (vd vs1 vs2 : VReg) (k : KReg)
  | vfabs (ty : FType) (vd vs1 : VReg) (k : KReg)
  | vfneg (ty : FType) (vd vs1 : VReg) (k : KReg)
  | vfcmpEq (kd : KReg) (vs1 vs2 : VReg) (k : KReg)
  | vfcmpLt (kd : KReg) (vs1 vs2 : VReg) (k : KReg)
  | vfcmpLe (kd : KReg) (vs1 vs2 : VReg) (k : KReg)
  | vfcmpUn (kd : KReg) (vs1 vs2 : VReg) (k : KReg)
  | vfma (vd vs1 vs2 vs3 : VReg) (k : KReg)
  | vfms (vd vs1 vs2 vs3 : VReg) (k : KReg)
  | vfnma (vd vs1 vs2 vs3 : VReg) (k : KReg)
  -- major VPERM (R186, R264 to R267)
  | vmovx (vd : VReg) (xs : XReg)
  | vext (xd : XReg) (vs1 : VReg) (lane : Fin 16)
  | vshuf (vd vs1 vs2 : VReg) (k : KReg)
  | vslideUp (vd vs1 : VReg) (n : Fin 16) (k : KReg)
  | vslideDn (vd vs1 : VReg) (n : Fin 16) (k : KReg)
  | vredAdd (vd vs1 : VReg) (k : KReg)
  | vredMin (vd vs1 : VReg) (k : KReg)
  | vredMax (vd vs1 : VReg) (k : KReg)
  | vredMinu (vd vs1 : VReg) (k : KReg)
  | vredMaxu (vd vs1 : VReg) (k : KReg)
  | vredAnd (vd vs1 : VReg) (k : KReg)
  | vredOr (vd vs1 : VReg) (k : KReg)
  | vredXor (vd vs1 : VReg) (k : KReg)
  | vfredAdd (vd vs1 : VReg) (k : KReg)
  | vfredMin (vd vs1 : VReg) (k : KReg)
  | vfredMax (vd vs1 : VReg) (k : KReg)
  -- major VMEM (R187, R268 to R273)
  | vld (vd : VReg) (base : XReg) (space : Space) (off : BitVec 7)
  | vst (vd : VReg) (base : XReg) (space : Space) (off : BitVec 7)
  | vldt (vd : VReg) (base : XReg) (off : BitVec 7)
  | vstt (vd : VReg) (base : XReg) (off : BitVec 7)
  | vldl (vd : VReg) (base : XReg) (off : BitVec 7)
  | vstl (vd : VReg) (base : XReg) (off : BitVec 7)
  | vgath (vd : VReg) (base : XReg) (vi : VReg) (space : Space)
  | vscat (vd : VReg) (base : XReg) (vi : VReg) (space : Space)
  -- major KOP (R188, R274)
  | kand (kd ks1 ks2 : KReg)
  | kor (kd ks1 ks2 : KReg)
  | kxor (kd ks1 ks2 : KReg)
  | knot (kd ks1 : KReg)
  | kmovKK (kd ks1 : KReg)
  | kmovKX (kd : KReg) (xs1 : XReg)
  | kmovXK (xd : XReg) (ks1 : KReg)
  | kpopc (xd : XReg) (ks1 : KReg)
  -- major CVT (R189, R275 to R278); `src` and `dst` are its FROM and TO
  | vcvt (src dst : CvtFmt) (vd vs1 : VReg) (k : KReg)
  | vclass (src : CvtFmt) (vd vs1 : VReg) (k : KReg)
  -- major MATRIX (R190, R279 to R290)
  | mma (fmt : MatFmt) (adv wb : Bool) (acc : AccReg) (ringA ringB : Ring) (mask : XReg)
  | mmaSp (fmt : MatFmt) (adv wb : Bool) (acc : AccReg) (ringA ringB : Ring) (mask : XReg)
  | mwb (fmt : MatFmt) (adv : Bool) (ringA slot : Ring)
  | mzero (acc : AccReg)
  | mst (fmt : MstFmt) (adv : Bool) (acc : AccReg) (ring : Ring) (mask : XReg)
  | mlda (adv : Bool) (acc : AccReg) (ring : Ring)
  | mmov (dst src : AccReg)
  -- major RING (R191, R291 to R294)
  | rinit (h : Ring) (rs1 : XReg)
  | cbwait (h : Ring) (rs1 : XReg) (n : BitVec 6)
  | cbroom (h : Ring) (rs1 : XReg) (n : BitVec 6)
  | cbadv (h : Ring) (rs1 : XReg) (n : BitVec 6)
  | cbpub (h : Ring) (rs1 : XReg) (n : BitVec 6)
  | bindRd (p : Port) (h : Ring) (esize : Size) (z : Bool)
  | bindWr (p : Port) (h : Ring) (esize : Size)
  | unbind (p : Port)
  -- majors COPY and COLL (R192, R295 to R305)
  | copy (dst src cnt ph : EngReg) (ord : MemOrder) (side : LocalSide)
  | copyIn (dst src cnt ph : EngReg) (ord : MemOrder) (side : LocalSide)
  | copy2 (dst src cnt ph : EngReg) (ord : MemOrder) (side : LocalSide)
  | gath (dst src cnt ph : EngReg) (ord : MemOrder) (side : LocalSide)
  | collAllred (dst src cnt ph : EngReg) (ord : MemOrder)
  | collRed (dst src cnt ph : EngReg) (ord : MemOrder)
  | collBcast (dst src cnt ph : EngReg) (ord : MemOrder)
  | collAllgath (dst src cnt ph : EngReg) (ord : MemOrder)
  | collRedscat (dst src cnt ph : EngReg) (ord : MemOrder)
  -- major MSG (R194, R306, R307, R328)
  | depo (rs1 rs2 : XReg) (scope : Scope) (rel : Bool)
  | slcall (rd rs1 rs2 : XReg) (ord : MemOrder)
  | slpush (rd rs1 rs2 : XReg) (ord : MemOrder)
  -- majors PHASER and BAR (R195, R157 to R160, R322, R324)
  | phInit (rd rs1 rs2 : XReg)
  | phReg (rd rs1 : XReg) (mode : RegMode)
  | phDrop (rd rs1 : XReg) (mode : RegMode)
  | phArr (rd rs1 : XReg)
  | phWait (rd rs1 rs2 : XReg) (st : Bool)
  | phTest (rd rs1 rs2 : XReg)
  | phExp (rs1 rs2 : XReg)
  | phStat (rd rs1 : XReg)
  | bar (kind : BarKind) (rd : XReg)
  -- major UNIT (R196, R326, R139, R144, R149, R152 to R155)
  | spawn (rd rs1 : XReg)
  | start (rd rs1 rs2 : XReg)
  | susp (rs1 : XReg)
  | done (rs1 : XReg)
  | joindec (rs1 : XReg)
  | yield
  | cancel (rs1 : XReg) (level : Level) (hard : Bool)
  | ctrrd (rd rs1 : XReg) (level : Level)
  -- majors NET, BRINE and AXR (R196, R197, R318 to R321, R329)
  | netOpen (rd rs1 rs2 : XReg)
  | netKeep (rd rs1 : XReg)
  | netDrop (rd rs1 rs2 : XReg)
  | netStat (rd rs1 : XReg)
  | bharv (rs1 : XReg)
  | bquery (rd rs1 : XReg)
  | axrBegin (id : Fin 64) (stop : BitVec 12)
  | axrEnd (id : Fin 64)
  | axrCfg (rd : XReg) (id : Fin 64) (rs1 : XReg)
  | axrInval (id : Fin 64)
  | axrStat (rd : XReg) (id : Fin 64)
  -- the pipe's steps (R20 to R36)
  | footInsertion
  | garner
  | sidingCompletion
  | rejoin
  | perchEntry
  | seal
  | panWrite
  | depositArrival
  | answerArrival
  | loadDataReturn
  -- the memory system's steps
  | weakStoreAccept
  | release
  | cacheEviction
  | homeRequest
  | dramRequestAging
  | boothMessage
  | writeCheck
  | shadowProbe
  | niTranslation
  | migRewalk
  -- rings, Brine and nets
  | portStagingTransfer
  | ringWatcherSatisfied
  | cbwaitSuspendTimeout
  | ringCopyPublish
  | brineGrantRequest
  | bupdApply
  | holderRecall
  | harvestMerge
  | brineDiscardComplete
  | netDropHomeArrival
  | netDropComplete
  | netOpenRecord
  -- the fitting engine
  | fillPacket
  | sampleArrival
  | batchValidationEnd
  | trainingStepEnd
  -- launches, queues, phasers, barriers
  | launchTickStart
  | launchComplete
  | treeReport
  | enqueue
  | autoPop
  | steal
  | phaserReservation
  | phaserWithdrawal
  | phaserArrival
  | engineCompletion
  | barrierArrival
  | barrierTimeout
  | superstepStop
  | collArrival
  | collTimeout
  | sluiceCallStart
  | wfeWake
  -- commands, pre-emption, translation, bring-up, fleet
  | launchqSubmit
  | launchqPreempt
  | launchqResume
  | launchqRebase
  | launchqUnknown
  | preemptArrival
  | quiesce
  | fltresWrite
  | migctlGo
  | migrationComplete
  | lendbanksWrite
  | netpslotsWrite
  | netpbaseWrite
  | mgmtownClaim
  | mgmtownOwner
  | hostLinkDown
  | dierel
  | coldReset
  | measurementExtend
  | attestationReport
  | linkEnWrite
  | linkStateChange
  | flitReceive
  | flitNak
  | laneRetrain
  | cxlLinkChange
  | vmargWrite
  | railSettled
  | dramRefreshModeChange
  | clusterHotChange
  | throttleChange
  | registerWrite
  | upHalf
  | downHalf
  | lazyReleaseReclaim
  | lentBankReclaimDone
  | dramRefresh
  | wfeSpuriousCompletion
  deriving DecidableEq, Repr

end Sys2Proof
end

