-- ==== Sys2Proof/Config.lean ====
section
/-!
DEFINITION. What the manual leaves open and no rule fixes: the free values.
Each is a constant with no body, applied to a plain counter of State or to the operands it depends on, so that nothing
can be proved of the value it gives (assumption log, entry 5). What an implementation fixes by a number the model names
stands with the definition that uses it.
-/
namespace Sys2Proof.Config

/-- Nanoseconds that pass in one step, by the step's number (R339 gives MTIME no rate in instructions). -/
opaque elapsed : Nat → Nat
/-- The 32 bits of a self-test's signature, by the number of the free value (R336, R394: the result of a test of the silicon). -/
opaque bistSignature : Nat → BitVec 32
/-- A doubleword whose value the manual leaves open, by the number of the free value. -/
opaque freeDword : Nat → BitVec 64
/-- The core and die fields of COREID on a ringmaster or sluice core, which R7 does not give: its low 14 bits. -/
opaque otherCoreId : Nat → BitVec 64
/-- Which of an overlapping copy's two values a destination byte receives (R299): the copied one, or the old one. -/
opaque copiedByte : Nat → Bool
/-- SHAKE256 of a list of bytes, its first 256 bits: a standard outside the manual (R381, R383). -/
opaque shake256 : List (BitVec 8) → BitVec 256
/-- Whether an SLH-DSA-SHAKE-256s signature verifies: public key, message, signature (R381). -/
opaque slhDsaVerify : List (BitVec 8) → List (BitVec 8) → List (BitVec 8) → Bool
/-- The attestation service's signature of a report under the device identity key (R383). -/
opaque slhDsaSign : List (BitVec 8) → List (BitVec 8)
/-- The fused minimum version of a stage-one image (R381). -/
opaque minVersion : Nat
/-- The fused hash of the boot key (R381). -/
opaque keyHash : BitVec 256
/-- The address at which a bridge's boot SRAM is executed: the manual gives it none (R381). -/
opaque bootBase : Nat → BitVec 64
/-- The mesh link by which a core's request reaches an L2 slice of its die: core, and slice (R88). -/
opaque meshPort : Nat → Nat → Nat
/-- The set of a cache in which a frame lies, by the cache and the frame's number (R57, R60). -/
opaque cacheSet : Nat → Nat → Nat
/-- The bank and the row of a DRAM channel that hold an address of a die (R72). -/
opaque dramBank : Nat → Nat
opaque dramRow : Nat → Nat
/-- CRC-32 of a list of bytes: the manual names no polynomial (R397). -/
opaque crc32 : List (BitVec 8) → BitVec 32
/-- The CRC-64 of a flit's first 248 bytes: the manual names no polynomial (R389). -/
opaque crc64 : List (BitVec 8) → BitVec 64

end Sys2Proof.Config
end

