-- ==== Sys2Proof/WellFormed.lean ====
section
/-!
DEFINITION. Which instructions are well formed: the limits the encodings put on the operands beyond what their types say
(R175 to R197), and, for the steps no word encodes, the numbers of the places that exist (R1, R7).
-/
namespace Sys2Proof

/-- The rows of R50 that VCVT converts (R189). -/
def cvtPair : CvtFmt → CvtFmt → Bool
  | .fp16, .fp32 | .bf16, .fp32 | .f8a, .fp32 | .f8b, .fp32 | .int8, .fp32 | .dp8, .fp32 => true
  | .fp32, .fp16 | .fp32, .bf16 | .fp32, .f8a | .fp32, .f8b | .fp32, .dp8 => true
  | .fp32, .int32 | .fp32, .int8 | .int32, .fp32 | .int32, .int8 => true
  | .fp16, .bf16 | .bf16, .fp16 => true
  | _, _ => false

/-- The tile formats of MMA.SP (R190). -/
def MatFmt.isDp8 : MatFmt → Bool
  | .dp8g16 | .dp8g32 | .dp8g64 => true
  | _ => false

/-- A clause length REP can hold (R237). -/
def repLength (n : BitVec 6) : Bool := 1 ≤ n.toNat && n.toNat ≤ 32

/-- Orderings whose scope is zero when there is none (R192). -/
def MemOrder.wf (o : MemOrder) : Bool := o.acq || o.rel || o.scope == .core

/-- The operands an encoding admits; a step that no word encodes has none. -/
def Instr.wf : Instr → Bool
  | .loop rc _ | .loopr rc _ => rc != 0
  | .rep rc n => rc != 0 && repLength n
  | .ld _ _ size z _ _ | .ldSt _ _ size z _ _ => !(size == .d && z)
  | .amo op size .. => !(op == .fadd && size == .d)
  | .red op size .. => op != .swap && !(op == .fadd && size == .d)
  | .vcvt src dst .. => cvtPair src dst
  | .vclass src .. => src == .fp32 || src == .fp16 || src == .bf16 || src == .f8a || src == .f8b
  | .mmaSp fmt .. => fmt.isDp8
  | .cbwait _ rs1 n | .cbroom _ rs1 n | .cbadv _ rs1 n | .cbpub _ rs1 n => rs1 == 0 || n == 0
  | .copyIn _ _ _ _ ord side => ord.wf && side != .none
  | .copy _ _ _ _ ord _ | .copy2 _ _ _ _ ord _ | .gath _ _ _ _ ord _ => ord.wf
  | .collAllred _ _ _ _ ord | .collRed _ _ _ _ ord | .collBcast _ _ _ _ ord | .collAllgath _ _ _ _ ord
  | .collRedscat _ _ _ _ ord => ord.wf
  | .depo _ _ scope rel => rel || scope == .core
  | .slcall _ _ _ ord | .slpush _ _ _ ord => ord.wf
  | .axrBegin _ stop => 2 ≤ stop.toNat
  | .compactLane op vd vs2 => !(op == 0 && vd == 0 && vs2 == 0)
  | _ => true

end Sys2Proof
end

