-- ==== Sys2Proof/Decode.lean ====
section
/-!
DEFINITION. Decoding and encoding (R169 to R197): a total function from bytes to an instruction or a named rejection,
and the encoder written from the same tables.
Every rejection is a pattern of R198 that traps with cause 0x01.
-/
namespace Sys2Proof

/-- Why a pattern is not an instruction (R198). -/
inductive DecodeError where
  /-- The halfword 0x0000 (R169). -/
  | zeroHalfword
  /-- A dictionary reference with bit 15 set (R171). -/
  | dictionaryBit15
  /-- Major 0x00 or 0x23 to 0x3F (R176). -/
  | reservedMajor
  /-- A sub-field value that its table does not list (R175). -/
  | reservedValue
  /-- A non-zero must-be-zero field (R175). -/
  | nonZeroField
  /-- A register field outside the limits of its major's table (R198). -/
  | badRegister
  /-- A scope field of 5 to 7 (R75). -/
  | badScope
  /-- Fewer bytes than the first halfword asks for. -/
  | truncated
  deriving DecidableEq, Repr

/-- A decoded instruction, or why there is none. -/
abbrev Decoded := Except DecodeError Instr

/-! ## The codes of the sub-fields -/

/-- R180's SIZE. -/
def Size.code : Size → Nat
  | .b => 0 | .h => 1 | .w => 2 | .d => 3

def Size.ofCode : Nat → Size
  | 0 => .b | 1 => .h | 2 => .w | _ => .d

/-- R180's SPACE. -/
def Space.code : Space → Nat
  | .global => 0 | .sp => 1 | .cw => 2 | .ds => 3 | .lw => 4

def Space.ofCode : Nat → Option Space
  | 0 => some .global | 1 => some .sp | 2 => some .cw | 3 => some .ds | 4 => some .lw | _ => none

/-- R75's scope code. -/
def Scope.code : Scope → Nat
  | .core => 0 | .clu => 1 | .die => 2 | .mod => 3 | .sys => 4

def Scope.ofCode : Nat → Option Scope
  | 0 => some .core | 1 => some .clu | 2 => some .die | 3 => some .mod | 4 => some .sys | _ => none

def OpSize.code : OpSize → Nat
  | .w => 0 | .d => 1

/-- R181's operation codes. -/
def AmoOp.code : AmoOp → Nat
  | .swap => 0 | .add => 1 | .and => 2 | .or => 3 | .xor => 4 | .min => 5 | .max => 6 | .minu => 7 | .maxu => 8
  | .fadd => 9

def AmoOp.ofCode : Nat → Option AmoOp
  | 0 => some .swap | 1 => some .add | 2 => some .and | 3 => some .or | 4 => some .xor | 5 => some .min
  | 6 => some .max | 7 => some .minu | 8 => some .maxu | 9 => some .fadd | _ => none

/-- R101's tag codes. -/
def BrineTag.code : BrineTag → Nat
  | .addW => 0 | .addD => 1 | .minW => 2 | .maxW => 3 | .minuW => 4 | .maxuW => 5 | .minD => 6 | .maxD => 7
  | .minuD => 8 | .maxuD => 9 | .and => 10 | .or => 11 | .xor => 12 | .faddS => 13 | .faddHf2 => 14 | .fminS => 15
  | .fmaxS => 16

def BrineTag.ofCode : Nat → Option BrineTag
  | 0 => some .addW | 1 => some .addD | 2 => some .minW | 3 => some .maxW | 4 => some .minuW | 5 => some .maxuW
  | 6 => some .minD | 7 => some .maxD | 8 => some .minuD | 9 => some .maxuD | 10 => some .and | 11 => some .or
  | 12 => some .xor | 13 => some .faddS | 14 => some .faddHf2 | 15 => some .fminS | 16 => some .fmaxS | _ => none

/-- R184's SIZE. -/
def ElemSize.code : ElemSize → Nat
  | .w => 0 | .h => 1 | .b => 2

def ElemSize.ofCode : Nat → Option ElemSize
  | 0 => some .w | 1 => some .h | 2 => some .b | _ => none

/-- R185's TYPE. -/
def FType.code : FType → Nat
  | .s => 0 | .hf => 1

def FType.ofCode : Nat → Option FType
  | 0 => some .s | 1 => some .hf | _ => none

/-- R189's format codes. -/
def CvtFmt.code : CvtFmt → Nat
  | .fp32 => 0 | .fp16 => 1 | .bf16 => 2 | .f8a => 3 | .f8b => 4 | .int32 => 5 | .int8 => 6 | .dp8 => 7

def CvtFmt.ofCode : Nat → CvtFmt
  | 0 => .fp32 | 1 => .fp16 | 2 => .bf16 | 3 => .f8a | 4 => .f8b | 5 => .int32 | 6 => .int8 | _ => .dp8

/-- R190's FMT of MMA and MWB. -/
def MatFmt.code : MatFmt → Nat
  | .fp16 => 0 | .bf16 => 1 | .f8a => 2 | .f8b => 3 | .int8 => 4 | .dp8g16 => 5 | .dp8g32 => 6 | .dp8g64 => 7

def MatFmt.ofCode : Nat → MatFmt
  | 0 => .fp16 | 1 => .bf16 | 2 => .f8a | 3 => .f8b | 4 => .int8 | 5 => .dp8g16 | 6 => .dp8g32 | _ => .dp8g64

/-- R190's FMT of MST. -/
def MstFmt.code : MstFmt → Nat
  | .held => 0 | .fp16 => 1 | .bf16 => 2

def MstFmt.ofCode : Nat → Option MstFmt
  | 0 => some .held | 1 => some .fp16 | 2 => some .bf16 | _ => none

/-- R192's LOCAL. -/
def LocalSide.code : LocalSide → Nat
  | .none => 0 | .sp => 1 | .cw => 2 | .ds => 3

def LocalSide.ofCode : Nat → LocalSide
  | 0 => .none | 1 => .sp | 2 => .cw | _ => .ds

/-- R195's MODE. -/
def RegMode.code : RegMode → Nat
  | .sig => 0 | .wait => 1 | .sigwait => 2

def RegMode.ofCode : Nat → Option RegMode
  | 0 => some .sig | 1 => some .wait | 2 => some .sigwait | _ => none

/-- R195's KIND. -/
def BarKind.code : BarKind → Nat
  | .row => 0 | .col => 1 | .mesh => 2 | .ss => 3

def BarKind.ofCode : Nat → BarKind
  | 0 => .row | 1 => .col | 2 => .mesh | _ => .ss

/-- R196's LEVEL. -/
def Level.code : Level → Nat
  | .launch => 0 | .graph => 1 | .phase => 2 | .job => 3

def Level.ofCode : Nat → Level
  | 0 => .launch | 1 => .graph | 2 => .phase | _ => .job

/-! ## Fields of a word -/

/-- The six-bit register field that begins at `lo`. -/
def xAt (w lo : Nat) : XReg := Fin.ofNat 64 (w / 2 ^ lo)
/-- The five-bit register field that begins at `lo`. -/
def vAt (w lo : Nat) : VReg := Fin.ofNat 32 (w / 2 ^ lo)
/-- The three-bit register field that begins at `lo`. -/
def kAt (w lo : Nat) : KReg := Fin.ofNat 8 (w / 2 ^ lo)
/-- The two-bit accumulator field that begins at `lo`. -/
def accAt (w lo : Nat) : AccReg := Fin.ofNat 4 (w / 2 ^ lo)
/-- The four-bit field that begins at `lo`: a ring, a weight-buffer slot, an engine register or a lane. -/
def nibAt (w lo : Nat) : Fin 16 := Fin.ofNat 16 (w / 2 ^ lo)
/-- The immediate of `width` bits that begins at `lo`. -/
def immAt (w lo width : Nat) : BitVec width := BitVec.ofNat width (w / 2 ^ lo)

/-- Goes on only where the `width` bits from `lo` are zero (R175). -/
def zero (w lo width : Nat) (k : Decoded) : Decoded :=
  if bits w lo width = 0 then k else .error .nonZeroField

/-- Goes on with a sub-field's value, where its table lists it (R175). -/
def listed {α : Type} (v : Option α) (k : α → Decoded) : Decoded :=
  match v with
  | some a => k a
  | none => .error .reservedValue

/-- Goes on with the scope in `[27:25]`-like bits from `lo` (R198). -/
def scopeAt (w lo : Nat) (k : Scope → Decoded) : Decoded :=
  match Scope.ofCode (bits w lo 3) with
  | some s => k s
  | none => .error .badScope

/-- Goes on where a condition on a sub-field holds. -/
def allow (c : Bool) (e : DecodeError) (k : Decoded) : Decoded :=
  if c then k else .error e

/-! ## The majors (R176) -/

/-- Major OPI (R177). -/
def decodeOpi (w : Nat) : Decoded :=
  let rd := xAt w 7
  let rs1 := xAt w 13
  if bits w 19 1 = 0 then .ok (.addi rd rs1 (immAt w 20 12)) else
  match bits w 20 3 with
  | 0 => .ok (.andi rd rs1 (immAt w 23 9))
  | 1 => .ok (.ori rd rs1 (immAt w 23 9))
  | 2 => .ok (.xori rd rs1 (immAt w 23 9))
  | 3 => .ok (.slti rd rs1 (immAt w 23 9))
  | 4 => .ok (.sltiu rd rs1 (immAt w 23 9))
  | 5 => zero w 29 3 (.ok (.slli rd rs1 (xAt w 23)))
  | 6 => zero w 29 3 (.ok (.srli rd rs1 (xAt w 23)))
  | _ => zero w 29 3 (.ok (.srai rd rs1 (xAt w 23)))

/-- Major OP (R178). -/
def decodeOp (w : Nat) : Decoded :=
  let rd := xAt w 7
  let rs1 := xAt w 13
  let rs2 := xAt w 19
  match bits w 25 7 with
  | 0x00 => .ok (.add rd rs1 rs2)
  | 0x01 => .ok (.sub rd rs1 rs2)
  | 0x02 => .ok (.and rd rs1 rs2)
  | 0x03 => .ok (.or rd rs1 rs2)
  | 0x04 => .ok (.xor rd rs1 rs2)
  | 0x05 => .ok (.andn rd rs1 rs2)
  | 0x06 => .ok (.sll rd rs1 rs2)
  | 0x07 => .ok (.srl rd rs1 rs2)
  | 0x08 => .ok (.sra rd rs1 rs2)
  | 0x09 => .ok (.slt rd rs1 rs2)
  | 0x0A => .ok (.sltu rd rs1 rs2)
  | 0x0B => .ok (.min rd rs1 rs2)
  | 0x0C => .ok (.max rd rs1 rs2)
  | 0x0D => .ok (.minu rd rs1 rs2)
  | 0x0E => .ok (.maxu rd rs1 rs2)
  | 0x0F => .ok (.sel rd rs1 rs2)
  | 0x10 => zero w 19 6 (.ok (.clz rd rs1))
  | 0x11 => zero w 19 6 (.ok (.ctz rd rs1))
  | 0x12 => zero w 19 6 (.ok (.popc rd rs1))
  | _ => .error .reservedValue

/-- Major MULDIV (R178). -/
def decodeMuldiv (w : Nat) : Decoded :=
  let rd := xAt w 7
  let rs1 := xAt w 13
  let rs2 := xAt w 19
  let wide := bitAt w 28
  zero w 29 3 <|
    match bits w 25 3 with
    | 0 => .ok (.mul rd rs1 rs2 wide)
    | 1 => allow (!wide) .reservedValue (.ok (.mulh rd rs1 rs2))
    | 2 => allow (!wide) .reservedValue (.ok (.mulhu rd rs1 rs2))
    | 3 => .ok (.div rd rs1 rs2 wide)
    | 4 => .ok (.divu rd rs1 rs2 wide)
    | 5 => .ok (.rem rd rs1 rs2 wide)
    | 6 => .ok (.remu rd rs1 rs2 wide)
    | _ => .error .reservedValue

/-- Major BRANCH (R179). -/
def decodeBranch (w : Nat) : Decoded :=
  let rs1 := xAt w 7
  let rs2 := xAt w 13
  let off := immAt w 22 10
  match bits w 19 3 with
  | 0 => .ok (.beq rs1 rs2 off)
  | 1 => .ok (.bne rs1 rs2 off)
  | 4 => .ok (.blt rs1 rs2 off)
  | 5 => .ok (.bge rs1 rs2 off)
  | 6 => .ok (.bltu rs1 rs2 off)
  | 7 => .ok (.bgeu rs1 rs2 off)
  | _ => .error .reservedValue

/-- Major LOOP (R179, R234, R237). -/
def decodeLoop (w : Nat) : Decoded :=
  let rc := xAt w 7
  match bits w 13 6 with
  | 0 => allow (rc != 0) .badRegister (.ok (.loop rc (immAt w 19 13)))
  | 1 => allow (rc != 0) .badRegister (.ok (.loopr rc (immAt w 19 13)))
  | 2 =>
    zero w 25 7 <| allow (repLength (immAt w 19 6)) .reservedValue <|
      allow (rc != 0) .badRegister (.ok (.rep rc (immAt w 19 6)))
  | _ => .error .reservedValue

/-- Major LOAD (R180, R243, R251). -/
def decodeLoad (w : Nat) : Decoded :=
  let rd := xAt w 7
  let base := xAt w 13
  let size := Size.ofCode (bits w 19 2)
  let z := bitAt w 21
  listed (Space.ofCode (bits w 22 3)) fun space =>
    if bits w 25 1 = 0 then
      if size == .d && z then
        zero w 7 6 (.ok (.pref base space (immAt w 26 6)))
      else .ok (.ld rd base size z space (immAt w 26 6))
    else
      zero w 29 3 <| scopeAt w 26 fun scope =>
        allow (!(size == .d && z)) .reservedValue (.ok (.ldSt rd base size z space scope))

/-- Major STORE (R180, R247). -/
def decodeStore (w : Nat) : Decoded :=
  let rv := xAt w 7
  let base := xAt w 13
  let size := Size.ofCode (bits w 19 2)
  zero w 21 1 <| listed (Space.ofCode (bits w 22 3)) fun space =>
    if bits w 25 1 = 0 then .ok (.st rv base size space (immAt w 26 6))
    else zero w 29 3 <| scopeAt w 26 fun scope => .ok (.stSt rv base size space scope)

/-- Major AMO (R181). -/
def decodeAmo (w : Nat) : Decoded :=
  let rd := xAt w 7
  let rs1 := xAt w 13
  let acq := bitAt w 28
  let rel := bitAt w 29
  scopeAt w 25 fun scope =>
    match bits w 30 2 with
    | 0 =>
      zero w 24 1 <| listed (AmoOp.ofCode (bits w 19 4)) fun op =>
        if bits w 23 1 = 0 then .ok (.amo op .w rd rs1 scope acq rel)
        else allow (op != .fadd) .reservedValue (.ok (.amo op .d rd rs1 scope acq rel))
    | 1 => .ok (.casW rd rs1 (xAt w 19) scope acq rel)
    | 2 => .ok (.casD rd rs1 (xAt w 19) scope acq rel)
    | _ => .error .reservedValue

/-- Major RED and BUPD (R181, R317). -/
def decodeRed (w : Nat) : Decoded :=
  let rs1 := xAt w 13
  let rs2 := xAt w 19
  let rel := bitAt w 29
  scopeAt w 25 fun scope => zero w 28 1 <| zero w 12 1 <|
    match bits w 30 2 with
    | 0 =>
      listed (AmoOp.ofCode (bits w 7 4)) fun op =>
        allow (op != .swap) .reservedValue <|
          if bits w 11 1 = 0 then .ok (.red op .w rs1 rs2 scope rel)
          else allow (op != .fadd) .reservedValue (.ok (.red op .d rs1 rs2 scope rel))
    | 1 => listed (BrineTag.ofCode (bits w 7 5)) fun tag => .ok (.bupd tag rs1 rs2 scope rel)
    | _ => .error .reservedValue

/-- Major FENCE (R182). -/
def decodeFence (w : Nat) : Decoded :=
  zero w 7 18 <|
    match bits w 30 2 with
    | 0 =>
      scopeAt w 25 fun scope =>
        match bits w 28 2 with
        | 1 => .ok (.fenceAcq scope)
        | 2 => .ok (.fenceRel scope)
        | 3 => .ok (.fenceFull scope)
        | _ => .error .reservedValue
    | 1 => zero w 25 5 (.ok .fenceSp)
    | 2 => zero w 25 5 (.ok .ifence)
    | _ => .error .reservedValue

/-- Major SYS (R183). -/
def decodeSys (w : Nat) : Decoded :=
  let rd := xAt w 7
  let rs1 := xAt w 13
  match bits w 30 2 with
  | 0 => .ok (.csrrw rd rs1 (immAt w 19 11))
  | 1 => .ok (.csrrs rd rs1 (immAt w 19 11))
  | 2 => .ok (.csrrc rd rs1 (immAt w 19 11))
  | _ =>
    match bits w 19 11 with
    | 0 => zero w 7 6 (.ok (.trap rs1))
    | 1 => zero w 7 12 (.ok .eret)
    | 2 => zero w 7 12 (.ok .wfe)
    | 3 => zero w 7 6 (.ok (.dictLoad rs1))
    | _ => .error .reservedValue

/-- Major PRIV (R183). -/
def decodePriv (w : Nat) : Decoded :=
  match bits w 25 7 with
  | 0 => zero w 7 6 (.ok (.xlinv (xAt w 13) (xAt w 19)))
  | 1 => zero w 19 6 (.ok (.bist (xAt w 7) (xAt w 13)))
  | _ => .error .reservedValue

/-- Major VOP (R184). -/
def decodeVop (w : Nat) : Decoded :=
  let vd := vAt w 7
  let vs1 := vAt w 12
  let vs2 := vAt w 17
  let k := kAt w 22
  let kd := kAt w 7
  listed (ElemSize.ofCode (bits w 30 2)) fun size =>
    match bits w 25 5 with
    | 0 => .ok (.vadd size vd vs1 vs2 k)
    | 1 => .ok (.vsub size vd vs1 vs2 k)
    | 2 => .ok (.vmul size vd vs1 vs2 k)
    | 3 => .ok (.vmulh size vd vs1 vs2 k)
    | 4 => allow (size == .w) .reservedValue (.ok (.vand vd vs1 vs2 k))
    | 5 => allow (size == .w) .reservedValue (.ok (.vor vd vs1 vs2 k))
    | 6 => allow (size == .w) .reservedValue (.ok (.vxor vd vs1 vs2 k))
    | 7 => .ok (.vshl size vd vs1 vs2 k)
    | 8 => .ok (.vshr size vd vs1 vs2 k)
    | 9 => .ok (.vshra size vd vs1 vs2 k)
    | 10 => .ok (.vmin size vd vs1 vs2 k)
    | 11 => .ok (.vmax size vd vs1 vs2 k)
    | 12 => .ok (.vminu size vd vs1 vs2 k)
    | 13 => .ok (.vmaxu size vd vs1 vs2 k)
    | 14 => allow (size == .w) .reservedValue (zero w 12 5 (.ok (.vmov vd vs2 k)))
    | 15 => allow (size == .w) .reservedValue (.ok (.vsel vd vs1 vs2 k))
    | 16 => zero w 10 2 (.ok (.vcmpEq size kd vs1 vs2 k))
    | 17 => zero w 10 2 (.ok (.vcmpNe size kd vs1 vs2 k))
    | 18 => zero w 10 2 (.ok (.vcmpLt size kd vs1 vs2 k))
    | 19 => zero w 10 2 (.ok (.vcmpGe size kd vs1 vs2 k))
    | 20 => zero w 10 2 (.ok (.vcmpLtu size kd vs1 vs2 k))
    | 21 => zero w 10 2 (.ok (.vcmpGeu size kd vs1 vs2 k))
    | _ => .error .reservedValue

/-- Major VFOP (R185). -/
def decodeVfop (w : Nat) : Decoded :=
  let vd := vAt w 7
  let vs1 := vAt w 12
  let vs2 := vAt w 17
  let k := kAt w 22
  let kd := kAt w 7
  listed (FType.ofCode (bits w 30 2)) fun ty =>
    match bits w 25 5 with
    | 0 => .ok (.vfadd ty vd vs1 vs2 k)
    | 1 => .ok (.vfsub ty vd vs1 vs2 k)
    | 2 => .ok (.vfmul ty vd vs1 vs2 k)
    | 3 => .ok (.vfdiv ty vd vs1 vs2 k)
    | 4 => zero w 17 5 (.ok (.vfsqrt ty vd vs1 k))
    | 5 => .ok (.vfmin ty vd vs1 vs2 k)
    | 6 => .ok (.vfmax ty vd vs1 vs2 k)
    | 7 => zero w 17 5 (.ok (.vfabs ty vd vs1 k))
    | 8 => zero w 17 5 (.ok (.vfneg ty vd vs1 k))
    | 9 => allow (ty == .s) .reservedValue (zero w 10 2 (.ok (.vfcmpEq kd vs1 vs2 k)))
    | 10 => allow (ty == .s) .reservedValue (zero w 10 2 (.ok (.vfcmpLt kd vs1 vs2 k)))
    | 11 => allow (ty == .s) .reservedValue (zero w 10 2 (.ok (.vfcmpLe kd vs1 vs2 k)))
    | 12 => allow (ty == .s) .reservedValue (zero w 10 2 (.ok (.vfcmpUn kd vs1 vs2 k)))
    | _ => .error .reservedValue

/-- Major VFMA (R185). -/
def decodeVfma (w : Nat) : Decoded :=
  let vd := vAt w 7
  let vs1 := vAt w 12
  let vs2 := vAt w 17
  let vs3 := vAt w 22
  let k := kAt w 27
  match bits w 30 2 with
  | 0 => .ok (.vfma vd vs1 vs2 vs3 k)
  | 1 => .ok (.vfms vd vs1 vs2 vs3 k)
  | 2 => .ok (.vfnma vd vs1 vs2 vs3 k)
  | _ => .error .reservedValue

/-- Major VMEM (R187). -/
def decodeVmem (w : Nat) : Decoded :=
  let vd := vAt w 7
  let base := xAt w 13
  let off := immAt w 25 7
  zero w 12 1 <| listed (Space.ofCode (bits w 22 3)) fun space =>
    match bits w 19 3 with
    | 0 => .ok (.vld vd base space off)
    | 1 => .ok (.vst vd base space off)
    | 2 => allow (space == .global) .reservedValue (.ok (.vldt vd base off))
    | 3 => allow (space == .global) .reservedValue (.ok (.vstt vd base off))
    | 4 => allow (space == .global) .reservedValue (.ok (.vldl vd base off))
    | 5 => allow (space == .global) .reservedValue (.ok (.vstl vd base off))
    | 6 => zero w 30 2 (.ok (.vgath vd base (vAt w 25) space))
    | _ => zero w 30 2 (.ok (.vscat vd base (vAt w 25) space))

/-- Major VPERM (R186). -/
def decodeVperm (w : Nat) : Decoded :=
  let vd := vAt w 7
  let vs1 := vAt w 12
  let vs2 := vAt w 17
  let k := kAt w 22
  zero w 30 2 <|
    match bits w 25 5 with
    | 0 => zero w 23 2 (zero w 17 5 (.ok (.vmovx vd (Fin.ofNat 64 (bits w 22 1 * 32 + bits w 12 5)))))
    | 1 =>
      zero w 23 2 (zero w 21 1 (.ok (.vext (Fin.ofNat 64 (bits w 22 1 * 32 + bits w 7 5)) vs1 (nibAt w 17))))
    | 2 => .ok (.vshuf vd vs1 vs2 k)
    | 3 => zero w 21 1 (.ok (.vslideUp vd vs1 (nibAt w 17) k))
    | 4 => zero w 21 1 (.ok (.vslideDn vd vs1 (nibAt w 17) k))
    | 5 => zero w 17 5 (.ok (.vredAdd vd vs1 k))
    | 6 => zero w 17 5 (.ok (.vredMin vd vs1 k))
    | 7 => zero w 17 5 (.ok (.vredMax vd vs1 k))
    | 8 => zero w 17 5 (.ok (.vredMinu vd vs1 k))
    | 9 => zero w 17 5 (.ok (.vredMaxu vd vs1 k))
    | 10 => zero w 17 5 (.ok (.vredAnd vd vs1 k))
    | 11 => zero w 17 5 (.ok (.vredOr vd vs1 k))
    | 12 => zero w 17 5 (.ok (.vredXor vd vs1 k))
    | 13 => zero w 17 5 (.ok (.vfredAdd vd vs1 k))
    | 14 => zero w 17 5 (.ok (.vfredMin vd vs1 k))
    | 15 => zero w 17 5 (.ok (.vfredMax vd vs1 k))
    | _ => .error .reservedValue

/-- A six-bit field that must name a k register (R188). -/
def kField (w lo : Nat) (f : KReg → Decoded) : Decoded :=
  allow (bits w lo 6 < 8) .badRegister (f (kAt w lo))

/-- Major KOP (R188). -/
def decodeKop (w : Nat) : Decoded :=
  match bits w 25 7 with
  | 0 => kField w 7 fun kd => kField w 13 fun k1 => kField w 19 fun k2 => .ok (.kand kd k1 k2)
  | 1 => kField w 7 fun kd => kField w 13 fun k1 => kField w 19 fun k2 => .ok (.kor kd k1 k2)
  | 2 => kField w 7 fun kd => kField w 13 fun k1 => kField w 19 fun k2 => .ok (.kxor kd k1 k2)
  | 3 => zero w 19 6 <| kField w 7 fun kd => kField w 13 fun k1 => .ok (.knot kd k1)
  | 4 => zero w 19 6 <| kField w 7 fun kd => kField w 13 fun k1 => .ok (.kmovKK kd k1)
  | 5 => zero w 19 6 <| kField w 7 fun kd => .ok (.kmovKX kd (xAt w 13))
  | 6 => zero w 19 6 <| kField w 13 fun k1 => .ok (.kmovXK (xAt w 7) k1)
  | 7 => zero w 19 6 <| kField w 13 fun k1 => .ok (.kpopc (xAt w 7) k1)
  | _ => .error .reservedValue

/-- Major CVT (R189). -/
def decodeCvt (w : Nat) : Decoded :=
  let src := CvtFmt.ofCode (bits w 25 3)
  let dst := CvtFmt.ofCode (bits w 28 3)
  let vd := vAt w 7
  let vs1 := vAt w 12
  let k := kAt w 22
  zero w 17 5 <|
    if bits w 31 1 = 0 then allow (cvtPair src dst) .reservedValue (.ok (.vcvt src dst vd vs1 k))
    else zero w 28 3 <|
      allow (src == .fp32 || src == .fp16 || src == .bf16 || src == .f8a || src == .f8b) .reservedValue
        (.ok (.vclass src vd vs1 k))

/-- Major MATRIX (R190). -/
def decodeMatrix (w : Nat) : Decoded :=
  let acc := accAt w 7
  let ringA := nibAt w 9
  let ringB := nibAt w 13
  let mask := xAt w 17
  let fmt := MatFmt.ofCode (bits w 26 3)
  let adv := bitAt w 29
  let wb := bitAt w 30
  zero w 31 1 <|
    match bits w 23 3 with
    | 0 => .ok (.mma fmt adv wb acc ringA ringB mask)
    | 1 => allow fmt.isDp8 .reservedValue (.ok (.mmaSp fmt adv wb acc ringA ringB mask))
    | 2 => zero w 7 2 (zero w 17 6 (zero w 30 1 (.ok (.mwb fmt adv ringA ringB))))
    | 3 => zero w 9 14 (zero w 26 5 (.ok (.mzero acc)))
    | 4 =>
      zero w 13 4 <| zero w 30 1 <| listed (MstFmt.ofCode (bits w 26 3)) fun f => .ok (.mst f adv acc ringA mask)
    | 5 => zero w 13 10 (zero w 26 3 (zero w 30 1 (.ok (.mlda adv acc ringA))))
    | 6 => zero w 11 12 (zero w 26 5 (.ok (.mmov acc (accAt w 9))))
    | _ => .error .reservedValue

/-- The register-or-immediate count of the counter instructions of RING (R191). -/
def ringCount (w : Nat) (f : Ring → XReg → BitVec 6 → Instr) : Decoded :=
  zero w 7 6 <| allow (xAt w 13 == 0 || immAt w 26 6 == 0#6) .nonZeroField
    (.ok (f (nibAt w 22) (xAt w 13) (immAt w 26 6)))

/-- Major RING (R191). -/
def decodeRing (w : Nat) : Decoded :=
  match bits w 19 3 with
  | 0 => zero w 7 6 (zero w 26 6 (.ok (.rinit (nibAt w 22) (xAt w 13))))
  | 1 => ringCount w .cbwait
  | 2 => ringCount w .cbroom
  | 3 => ringCount w .cbadv
  | 4 => ringCount w .cbpub
  | 5 =>
    zero w 30 2 <| zero w 13 6 <| allow (60 ≤ bits w 7 6) .badRegister <|
      if bits w 28 1 = 0 then
        .ok (.bindRd (Fin.ofNat 4 (w / 2 ^ 7)) (nibAt w 22) (Size.ofCode (bits w 26 2)) (bitAt w 29))
      else zero w 29 1 (.ok (.bindWr (Fin.ofNat 4 (w / 2 ^ 7)) (nibAt w 22) (Size.ofCode (bits w 26 2))))
  | 6 => zero w 13 6 <| zero w 22 10 <| allow (60 ≤ bits w 7 6) .badRegister (.ok (.unbind (Fin.ofNat 4 (w / 2 ^ 7))))
  | _ => .error .reservedValue

/-- Orderings with a scope that must be zero where there is none (R192, R194). -/
def orderAt (w : Nat) (scopeLo acqBit relBit : Nat) (k : MemOrder → Decoded) : Decoded :=
  scopeAt w scopeLo fun scope =>
    let o : MemOrder := { scope := scope, acq := bitAt w acqBit, rel := bitAt w relBit }
    allow o.wf .nonZeroField (k o)

/-- Major COPY (R192). -/
def decodeCopy (w : Nat) : Decoded :=
  let dst := nibAt w 7
  let src := nibAt w 11
  let cnt := nibAt w 15
  let ph := nibAt w 19
  let side := LocalSide.ofCode (bits w 28 2)
  orderAt w 23 26 27 fun ord =>
    match bits w 30 2 with
    | 0 => .ok (.copy dst src cnt ph ord side)
    | 1 => allow (side != .none) .reservedValue (.ok (.copyIn dst src cnt ph ord side))
    | 2 => .ok (.copy2 dst src cnt ph ord side)
    | _ => .ok (.gath dst src cnt ph ord side)

/-- Major COLL (R192). -/
def decodeColl (w : Nat) : Decoded :=
  let dst := nibAt w 7
  let src := nibAt w 11
  let cnt := nibAt w 15
  let ph := nibAt w 19
  orderAt w 23 26 27 fun ord =>
    match bits w 28 4 with
    | 0 => .ok (.collAllred dst src cnt ph ord)
    | 1 => .ok (.collRed dst src cnt ph ord)
    | 2 => .ok (.collBcast dst src cnt ph ord)
    | 3 => .ok (.collAllgath dst src cnt ph ord)
    | 4 => .ok (.collRedscat dst src cnt ph ord)
    | _ => .error .reservedValue

/-- Major MSG (R194, R328). -/
def decodeMsg (w : Nat) : Decoded :=
  let rd := xAt w 7
  let rs1 := xAt w 13
  let rs2 := xAt w 19
  match bits w 30 2 with
  | 0 =>
    zero w 7 6 <| zero w 28 1 <| scopeAt w 25 fun scope =>
      allow (bitAt w 29 || scope == .core) .nonZeroField (.ok (.depo rs1 rs2 scope (bitAt w 29)))
  | 1 => orderAt w 25 28 29 fun ord => .ok (.slcall rd rs1 rs2 ord)
  | 2 => orderAt w 25 28 29 fun ord => .ok (.slpush rd rs1 rs2 ord)
  | _ => .error .reservedValue

/-- Major PHASER (R195). -/
def decodePhaser (w : Nat) : Decoded :=
  let rd := xAt w 7
  let rs1 := xAt w 13
  let rs2 := xAt w 19
  match bits w 25 4 with
  | 0 => zero w 29 3 (.ok (.phInit rd rs1 rs2))
  | 1 =>
    zero w 19 6 <| zero w 31 1 <| listed (RegMode.ofCode (bits w 29 2)) fun mode => .ok (.phReg rd rs1 mode)
  | 2 =>
    zero w 19 6 <| zero w 31 1 <| listed (RegMode.ofCode (bits w 29 2)) fun mode => .ok (.phDrop rd rs1 mode)
  | 3 => zero w 19 6 (zero w 29 3 (.ok (.phArr rd rs1)))
  | 4 => zero w 29 2 (.ok (.phWait rd rs1 rs2 (bitAt w 31)))
  | 5 => zero w 29 3 (.ok (.phTest rd rs1 rs2))
  | 6 => zero w 7 6 (zero w 29 3 (.ok (.phExp rs1 rs2)))
  | 7 => zero w 19 6 (zero w 29 3 (.ok (.phStat rd rs1)))
  | _ => .error .reservedValue

/-- Major BAR (R195). -/
def decodeBar (w : Nat) : Decoded :=
  zero w 13 6 (zero w 21 11 (.ok (.bar (BarKind.ofCode (bits w 19 2)) (xAt w 7))))

/-- Major UNIT (R196). -/
def decodeUnit (w : Nat) : Decoded :=
  let rd := xAt w 7
  let rs1 := xAt w 13
  let rs2 := xAt w 19
  match bits w 25 4 with
  | 0 => zero w 19 6 (zero w 29 3 (.ok (.spawn rd rs1)))
  | 1 => zero w 29 3 (.ok (.start rd rs1 rs2))
  | 2 => zero w 7 6 (zero w 19 6 (zero w 29 3 (.ok (.susp rs1))))
  | 3 => zero w 7 6 (zero w 19 6 (zero w 29 3 (.ok (.done rs1))))
  | 4 => zero w 7 6 (zero w 19 6 (zero w 29 3 (.ok (.joindec rs1))))
  | 5 => zero w 7 18 (zero w 29 3 (.ok .yield))
  | 6 => zero w 7 6 (zero w 19 6 (.ok (.cancel rs1 (Level.ofCode (bits w 29 2)) (bitAt w 31))))
  | 7 => zero w 19 6 (zero w 31 1 (.ok (.ctrrd rd rs1 (Level.ofCode (bits w 29 2)))))
  | _ => .error .reservedValue

/-- Major NET (R196, R319). -/
def decodeNet (w : Nat) : Decoded :=
  let rd := xAt w 7
  let rs1 := xAt w 13
  match bits w 25 7 with
  | 0 => .ok (.netOpen rd rs1 (xAt w 19))
  | 1 => zero w 19 6 (.ok (.netKeep rd rs1))
  | 2 => .ok (.netDrop rd rs1 (xAt w 19))
  | 3 => zero w 19 6 (.ok (.netStat rd rs1))
  | _ => .error .reservedValue

/-- Major BRINE (R196, R318). -/
def decodeBrine (w : Nat) : Decoded :=
  match bits w 25 7 with
  | 0 => zero w 7 6 (zero w 19 6 (.ok (.bharv (xAt w 13))))
  | 1 => zero w 19 6 (.ok (.bquery (xAt w 7) (xAt w 13)))
  | _ => .error .reservedValue

/-- Major AXR (R197, R329). -/
def decodeAxr (w : Nat) : Decoded :=
  let id : Fin 64 := xAt w 22
  zero w 28 4 <|
    match bits w 19 3 with
    | 0 => allow (2 ≤ bits w 7 12) .reservedValue (.ok (.axrBegin id (immAt w 7 12)))
    | 1 => zero w 7 12 (.ok (.axrEnd id))
    | 2 => .ok (.axrCfg (xAt w 7) id (xAt w 13))
    | 3 => zero w 7 12 (.ok (.axrInval id))
    | 4 => zero w 13 6 (.ok (.axrStat (xAt w 7) id))
    | _ => .error .reservedValue

/-- A 32-bit instruction by its major opcode (R174, R176). -/
def decodeWord (w : Nat) : Decoded :=
  match bits w 1 6 with
  | 0x01 => decodeOpi w
  | 0x02 => decodeOp w
  | 0x03 => decodeMuldiv w
  | 0x04 => .ok (.lui (xAt w 7) (immAt w 13 19))
  | 0x05 => .ok (.addpc (xAt w 7) (immAt w 13 19))
  | 0x06 => decodeBranch w
  | 0x07 => .ok (.jal (xAt w 7) (immAt w 13 19))
  | 0x08 => .ok (.jalr (xAt w 7) (xAt w 13) (immAt w 19 13))
  | 0x09 => decodeLoop w
  | 0x0A => decodeLoad w
  | 0x0B => decodeStore w
  | 0x0C => decodeAmo w
  | 0x0D => decodeRed w
  | 0x0E => decodeFence w
  | 0x0F => decodeSys w
  | 0x10 => decodeVop w
  | 0x11 => decodeVfop w
  | 0x12 => decodeVfma w
  | 0x13 => decodeVmem w
  | 0x14 => decodeVperm w
  | 0x15 => decodeKop w
  | 0x16 => decodeCvt w
  | 0x17 => decodeMatrix w
  | 0x18 => decodeRing w
  | 0x19 => decodeCopy w
  | 0x1A => decodeColl w
  | 0x1B => decodePhaser w
  | 0x1C => decodeBar w
  | 0x1D => decodeUnit w
  | 0x1E => decodeMsg w
  | 0x1F => decodeNet w
  | 0x20 => decodeAxr w
  | 0x21 => decodeBrine w
  | 0x22 => decodePriv w
  | _ => .error .reservedMajor

/-- A 16-bit instruction (R169 to R171). -/
def decodeHalf (h : Nat) : Decoded :=
  if h = 0 then .error .zeroHalfword
  else if bits h 0 2 = 0 then .ok (.compactLane (nibAt h 2) (vAt h 6) (vAt h 11))
  else if bits h 15 1 = 0 then .ok (.dictionaryReference (Fin.ofNat 1024 (h / 2 ^ 2)) (kAt h 12))
  else .error .dictionaryBit15

/-- Whether a first halfword begins a 32-bit instruction (R169). -/
def isLong (h : Nat) : Bool := bitAt h 0

/-- The instruction at the head of a list of bytes, and the bytes after it (R169; little-endian by R3). -/
def decode : List Byte → Except DecodeError (Instr × List Byte)
  | b0 :: b1 :: rest =>
    if isLong b0.toNat then
      match rest with
      | b2 :: b3 :: rest' => (decodeWord (natOfBytes [b0, b1, b2, b3])).map (·, rest')
      | _ => .error .truncated
    else (decodeHalf (natOfBytes [b0, b1])).map (·, rest)
  | _ => .error .truncated

/-- The instruction whose table bits are the `nbits` bits of `w`, every bit above them zero. -/
def decodeTableWord (nbits w : Nat) : Option Instr :=
  match decode (bytesOfNat 4 (w % 2 ^ nbits)) with
  | .ok (i, _) => some i
  | .error _ => none

/-! ## The encoder -/

/-- A word from its major opcode and its fields, each given by its lowest bit and its value (R174). -/
def word (major : Nat) : List (Nat × Nat) → Nat
  | [] => 2 * major + 1
  | (lo, v) :: fs => v * 2 ^ lo + word major fs

/-- Format R (R174). -/
def wordR (major funct7 rd rs1 rs2 : Nat) : Nat := word major [(7, rd), (13, rs1), (19, rs2), (25, funct7)]
/-- Format V (R174). -/
def wordV (major funct7 vd vs1 vs2 k : Nat) : Nat := word major [(7, vd), (12, vs1), (17, vs2), (22, k), (25, funct7)]
/-- Format A (R174). -/
def wordA (major funct2 rd rs1 rs2 : Nat) (scope : Scope) (acq rel : Bool) : Nat :=
  word major [(7, rd), (13, rs1), (19, rs2), (25, scope.code), (28, acq.toNat), (29, rel.toNat), (30, funct2)]
/-- The engine layout (R192); `op` stands at bit 28. -/
def wordE (major op : Nat) (dst src cnt ph : EngReg) (o : MemOrder) : Nat :=
  word major [(7, dst.val), (11, src.val), (15, cnt.val), (19, ph.val), (23, o.scope.code), (26, o.acq.toNat),
    (27, o.rel.toNat), (28, op)]
/-- Format M (R174), funct9 divided by R190. -/
def wordM (op fmt : Nat) (adv wb : Bool) (acc ringA ringB mask : Nat) : Nat :=
  word 0x17 [(7, acc), (9, ringA), (13, ringB), (17, mask), (23, op), (26, fmt), (29, adv.toNat), (30, wb.toNat)]

/-- The 32-bit word of an instruction that has one. -/
def encodeWord : Instr → Option Nat
  | .add rd a b => some (wordR 0x02 0x00 rd a b)
  | .sub rd a b => some (wordR 0x02 0x01 rd a b)
  | .and rd a b => some (wordR 0x02 0x02 rd a b)
  | .or rd a b => some (wordR 0x02 0x03 rd a b)
  | .xor rd a b => some (wordR 0x02 0x04 rd a b)
  | .andn rd a b => some (wordR 0x02 0x05 rd a b)
  | .sll rd a b => some (wordR 0x02 0x06 rd a b)
  | .srl rd a b => some (wordR 0x02 0x07 rd a b)
  | .sra rd a b => some (wordR 0x02 0x08 rd a b)
  | .slt rd a b => some (wordR 0x02 0x09 rd a b)
  | .sltu rd a b => some (wordR 0x02 0x0A rd a b)
  | .min rd a b => some (wordR 0x02 0x0B rd a b)
  | .max rd a b => some (wordR 0x02 0x0C rd a b)
  | .minu rd a b => some (wordR 0x02 0x0D rd a b)
  | .maxu rd a b => some (wordR 0x02 0x0E rd a b)
  | .sel rd a b => some (wordR 0x02 0x0F rd a b)
  | .clz rd a => some (wordR 0x02 0x10 rd a 0)
  | .ctz rd a => some (wordR 0x02 0x11 rd a 0)
  | .popc rd a => some (wordR 0x02 0x12 rd a 0)
  | .addi rd a i => some (word 0x01 [(7, rd), (13, a), (20, i.toNat)])
  | .andi rd a i => some (word 0x01 [(7, rd), (13, a), (19, 1), (20, 0), (23, i.toNat)])
  | .ori rd a i => some (word 0x01 [(7, rd), (13, a), (19, 1), (20, 1), (23, i.toNat)])
  | .xori rd a i => some (word 0x01 [(7, rd), (13, a), (19, 1), (20, 2), (23, i.toNat)])
  | .slti rd a i => some (word 0x01 [(7, rd), (13, a), (19, 1), (20, 3), (23, i.toNat)])
  | .sltiu rd a i => some (word 0x01 [(7, rd), (13, a), (19, 1), (20, 4), (23, i.toNat)])
  | .slli rd a n => some (word 0x01 [(7, rd), (13, a), (19, 1), (20, 5), (23, n.val)])
  | .srli rd a n => some (word 0x01 [(7, rd), (13, a), (19, 1), (20, 6), (23, n.val)])
  | .srai rd a n => some (word 0x01 [(7, rd), (13, a), (19, 1), (20, 7), (23, n.val)])
  | .lui rd i => some (word 0x04 [(7, rd), (13, i.toNat)])
  | .addpc rd i => some (word 0x05 [(7, rd), (13, i.toNat)])
  | .mul rd a b w => some (wordR 0x03 (0 + 8 * w.toNat) rd a b)
  | .mulh rd a b => some (wordR 0x03 1 rd a b)
  | .mulhu rd a b => some (wordR 0x03 2 rd a b)
  | .div rd a b w => some (wordR 0x03 (3 + 8 * w.toNat) rd a b)
  | .divu rd a b w => some (wordR 0x03 (4 + 8 * w.toNat) rd a b)
  | .rem rd a b w => some (wordR 0x03 (5 + 8 * w.toNat) rd a b)
  | .remu rd a b w => some (wordR 0x03 (6 + 8 * w.toNat) rd a b)
  | .beq a b o => some (word 0x06 [(7, a), (13, b), (19, 0), (22, o.toNat)])
  | .bne a b o => some (word 0x06 [(7, a), (13, b), (19, 1), (22, o.toNat)])
  | .blt a b o => some (word 0x06 [(7, a), (13, b), (19, 4), (22, o.toNat)])
  | .bge a b o => some (word 0x06 [(7, a), (13, b), (19, 5), (22, o.toNat)])
  | .bltu a b o => some (word 0x06 [(7, a), (13, b), (19, 6), (22, o.toNat)])
  | .bgeu a b o => some (word 0x06 [(7, a), (13, b), (19, 7), (22, o.toNat)])
  | .jal rd i => some (word 0x07 [(7, rd), (13, i.toNat)])
  | .jalr rd a i => some (word 0x08 [(7, rd), (13, a), (19, i.toNat)])
  | .loop rc o => some (word 0x09 [(7, rc), (13, 0), (19, o.toNat)])
  | .loopr rc o => some (word 0x09 [(7, rc), (13, 1), (19, o.toNat)])
  | .rep rc n => some (word 0x09 [(7, rc), (13, 2), (19, n.toNat)])
  | .ld rd b sz z spc o =>
    some (word 0x0A [(7, rd), (13, b), (19, sz.code), (21, z.toNat), (22, spc.code), (26, o.toNat)])
  | .ldSt rd b sz z spc sc =>
    some (word 0x0A [(7, rd), (13, b), (19, sz.code), (21, z.toNat), (22, spc.code), (25, 1), (26, sc.code)])
  | .st rv b sz spc o => some (word 0x0B [(7, rv), (13, b), (19, sz.code), (22, spc.code), (26, o.toNat)])
  | .stSt rv b sz spc sc =>
    some (word 0x0B [(7, rv), (13, b), (19, sz.code), (22, spc.code), (25, 1), (26, sc.code)])
  | .pref b spc o => some (word 0x0A [(13, b), (19, 3), (21, 1), (22, spc.code), (26, o.toNat)])
  | .amo op sz rd a sc acq rel => some (wordA 0x0C 0 rd a (op.code + 16 * sz.code) sc acq rel)
  | .casW rd a b sc acq rel => some (wordA 0x0C 1 rd a b sc acq rel)
  | .casD rd a b sc acq rel => some (wordA 0x0C 2 rd a b sc acq rel)
  | .red op sz a b sc rel => some (wordA 0x0D 0 (op.code + 16 * sz.code) a b sc false rel)
  | .bupd tag a b sc rel => some (wordA 0x0D 1 tag.code a b sc false rel)
  | .fenceAcq sc => some (wordA 0x0E 0 0 0 0 sc true false)
  | .fenceRel sc => some (wordA 0x0E 0 0 0 0 sc false true)
  | .fenceFull sc => some (wordA 0x0E 0 0 0 0 sc true true)
  | .fenceSp => some (wordA 0x0E 1 0 0 0 .core false false)
  | .ifence => some (wordA 0x0E 2 0 0 0 .core false false)
  | .csrrw rd a n => some (word 0x0F [(7, rd), (13, a), (19, n.toNat), (30, 0)])
  | .csrrs rd a n => some (word 0x0F [(7, rd), (13, a), (19, n.toNat), (30, 1)])
  | .csrrc rd a n => some (word 0x0F [(7, rd), (13, a), (19, n.toNat), (30, 2)])
  | .trap a => some (word 0x0F [(13, a), (19, 0), (30, 3)])
  | .eret => some (word 0x0F [(19, 1), (30, 3)])
  | .wfe => some (word 0x0F [(19, 2), (30, 3)])
  | .dictLoad a => some (word 0x0F [(13, a), (19, 3), (30, 3)])
  | .xlinv a b => some (wordR 0x22 0 0 a b)
  | .bist rd a => some (wordR 0x22 1 rd a 0)
  | .vadd sz vd a b k => some (wordV 0x10 (0 + 32 * sz.code) vd a b k)
  | .vsub sz vd a b k => some (wordV 0x10 (1 + 32 * sz.code) vd a b k)
  | .vmul sz vd a b k => some (wordV 0x10 (2 + 32 * sz.code) vd a b k)
  | .vmulh sz vd a b k => some (wordV 0x10 (3 + 32 * sz.code) vd a b k)
  | .vand vd a b k => some (wordV 0x10 4 vd a b k)
  | .vor vd a b k => some (wordV 0x10 5 vd a b k)
  | .vxor vd a b k => some (wordV 0x10 6 vd a b k)
  | .vshl sz vd a b k => some (wordV 0x10 (7 + 32 * sz.code) vd a b k)
  | .vshr sz vd a b k => some (wordV 0x10 (8 + 32 * sz.code) vd a b k)
  | .vshra sz vd a b k => some (wordV 0x10 (9 + 32 * sz.code) vd a b k)
  | .vmin sz vd a b k => some (wordV 0x10 (10 + 32 * sz.code) vd a b k)
  | .vmax sz vd a b k => some (wordV 0x10 (11 + 32 * sz.code) vd a b k)
  | .vminu sz vd a b k => some (wordV 0x10 (12 + 32 * sz.code) vd a b k)
  | .vmaxu sz vd a b k => some (wordV 0x10 (13 + 32 * sz.code) vd a b k)
  | .vmov vd b k => some (wordV 0x10 14 vd 0 b k)
  | .vsel vd a b k => some (wordV 0x10 15 vd a b k)
  | .vcmpEq sz kd a b k => some (wordV 0x10 (16 + 32 * sz.code) kd a b k)
  | .vcmpNe sz kd a b k => some (wordV 0x10 (17 + 32 * sz.code) kd a b k)
  | .vcmpLt sz kd a b k => some (wordV 0x10 (18 + 32 * sz.code) kd a b k)
  | .vcmpGe sz kd a b k => some (wordV 0x10 (19 + 32 * sz.code) kd a b k)
  | .vcmpLtu sz kd a b k => some (wordV 0x10 (20 + 32 * sz.code) kd a b k)
  | .vcmpGeu sz kd a b k => some (wordV 0x10 (21 + 32 * sz.code) kd a b k)
  | .vfadd ty vd a b k => some (wordV 0x11 (0 + 32 * ty.code) vd a b k)
  | .vfsub ty vd a b k => some (wordV 0x11 (1 + 32 * ty.code) vd a b k)
  | .vfmul ty vd a b k => some (wordV 0x11 (2 + 32 * ty.code) vd a b k)
  | .vfdiv ty vd a b k => some (wordV 0x11 (3 + 32 * ty.code) vd a b k)
  | .vfsqrt ty vd a k => some (wordV 0x11 (4 + 32 * ty.code) vd a 0 k)
  | .vfmin ty vd a b k => some (wordV 0x11 (5 + 32 * ty.code) vd a b k)
  | .vfmax ty vd a b k => some (wordV 0x11 (6 + 32 * ty.code) vd a b k)
  | .vfabs ty vd a k => some (wordV 0x11 (7 + 32 * ty.code) vd a 0 k)
  | .vfneg ty vd a k => some (wordV 0x11 (8 + 32 * ty.code) vd a 0 k)
  | .vfcmpEq kd a b k => some (wordV 0x11 9 kd a b k)
  | .vfcmpLt kd a b k => some (wordV 0x11 10 kd a b k)
  | .vfcmpLe kd a b k => some (wordV 0x11 11 kd a b k)
  | .vfcmpUn kd a b k => some (wordV 0x11 12 kd a b k)
  | .vfma vd a b c k => some (word 0x12 [(7, vd), (12, a), (17, b), (22, c), (27, k), (30, 0)])
  | .vfms vd a b c k => some (word 0x12 [(7, vd), (12, a), (17, b), (22, c), (27, k), (30, 1)])
  | .vfnma vd a b c k => some (word 0x12 [(7, vd), (12, a), (17, b), (22, c), (27, k), (30, 2)])
  | .vmovx vd xs => some (word 0x14 [(7, vd), (12, xs.val % 32), (22, xs.val / 32), (25, 0)])
  | .vext xd a n => some (word 0x14 [(7, xd.val % 32), (12, a), (17, n.val), (22, xd.val / 32), (25, 1)])
  | .vshuf vd a b k => some (wordV 0x14 2 vd a b k)
  | .vslideUp vd a n k => some (wordV 0x14 3 vd a n k)
  | .vslideDn vd a n k => some (wordV 0x14 4 vd a n k)
  | .vredAdd vd a k => some (wordV 0x14 5 vd a 0 k)
  | .vredMin vd a k => some (wordV 0x14 6 vd a 0 k)
  | .vredMax vd a k => some (wordV 0x14 7 vd a 0 k)
  | .vredMinu vd a k => some (wordV 0x14 8 vd a 0 k)
  | .vredMaxu vd a k => some (wordV 0x14 9 vd a 0 k)
  | .vredAnd vd a k => some (wordV 0x14 10 vd a 0 k)
  | .vredOr vd a k => some (wordV 0x14 11 vd a 0 k)
  | .vredXor vd a k => some (wordV 0x14 12 vd a 0 k)
  | .vfredAdd vd a k => some (wordV 0x14 13 vd a 0 k)
  | .vfredMin vd a k => some (wordV 0x14 14 vd a 0 k)
  | .vfredMax vd a k => some (wordV 0x14 15 vd a 0 k)
  | .vld vd b spc o => some (word 0x13 [(7, vd), (13, b), (19, 0), (22, spc.code), (25, o.toNat)])
  | .vst vd b spc o => some (word 0x13 [(7, vd), (13, b), (19, 1), (22, spc.code), (25, o.toNat)])
  | .vldt vd b o => some (word 0x13 [(7, vd), (13, b), (19, 2), (25, o.toNat)])
  | .vstt vd b o => some (word 0x13 [(7, vd), (13, b), (19, 3), (25, o.toNat)])
  | .vldl vd b o => some (word 0x13 [(7, vd), (13, b), (19, 4), (25, o.toNat)])
  | .vstl vd b o => some (word 0x13 [(7, vd), (13, b), (19, 5), (25, o.toNat)])
  | .vgath vd b vi spc => some (word 0x13 [(7, vd), (13, b), (19, 6), (22, spc.code), (25, vi)])
  | .vscat vd b vi spc => some (word 0x13 [(7, vd), (13, b), (19, 7), (22, spc.code), (25, vi)])
  | .kand kd a b => some (wordR 0x15 0 kd a b)
  | .kor kd a b => some (wordR 0x15 1 kd a b)
  | .kxor kd a b => some (wordR 0x15 2 kd a b)
  | .knot kd a => some (wordR 0x15 3 kd a 0)
  | .kmovKK kd a => some (wordR 0x15 4 kd a 0)
  | .kmovKX kd a => some (wordR 0x15 5 kd a 0)
  | .kmovXK xd a => some (wordR 0x15 6 xd a 0)
  | .kpopc xd a => some (wordR 0x15 7 xd a 0)
  | .vcvt src dst vd a k => some (wordV 0x16 (src.code + 8 * dst.code) vd a 0 k)
  | .vclass src vd a k => some (wordV 0x16 (src.code + 64) vd a 0 k)
  | .mma fmt adv wb acc ra rb m => some (wordM 0 fmt.code adv wb acc ra rb m)
  | .mmaSp fmt adv wb acc ra rb m => some (wordM 1 fmt.code adv wb acc ra rb m)
  | .mwb fmt adv ra slot => some (wordM 2 fmt.code adv false 0 ra slot 0)
  | .mzero acc => some (wordM 3 0 false false acc 0 0 0)
  | .mst fmt adv acc ra m => some (wordM 4 fmt.code adv false acc ra 0 m)
  | .mlda adv acc ra => some (wordM 5 0 adv false acc ra 0 0)
  | .mmov dst src => some (wordM 6 0 false false dst src 0 0)
  | .rinit h a => some (word 0x18 [(13, a), (19, 0), (22, h)])
  | .cbwait h a n => some (word 0x18 [(13, a), (19, 1), (22, h), (26, n.toNat)])
  | .cbroom h a n => some (word 0x18 [(13, a), (19, 2), (22, h), (26, n.toNat)])
  | .cbadv h a n => some (word 0x18 [(13, a), (19, 3), (22, h), (26, n.toNat)])
  | .cbpub h a n => some (word 0x18 [(13, a), (19, 4), (22, h), (26, n.toNat)])
  | .bindRd p h e z => some (word 0x18 [(7, 60 + p.val), (19, 5), (22, h), (26, e.code), (29, z.toNat)])
  | .bindWr p h e => some (word 0x18 [(7, 60 + p.val), (19, 5), (22, h), (26, e.code), (28, 1)])
  | .unbind p => some (word 0x18 [(7, 60 + p.val), (19, 6)])
  | .copy d s c p o l => some (wordE 0x19 l.code d s c p o)
  | .copyIn d s c p o l => some (wordE 0x19 (l.code + 4) d s c p o)
  | .copy2 d s c p o l => some (wordE 0x19 (l.code + 8) d s c p o)
  | .gath d s c p o l => some (wordE 0x19 (l.code + 12) d s c p o)
  | .collAllred d s c p o => some (wordE 0x1A 0 d s c p o)
  | .collRed d s c p o => some (wordE 0x1A 1 d s c p o)
  | .collBcast d s c p o => some (wordE 0x1A 2 d s c p o)
  | .collAllgath d s c p o => some (wordE 0x1A 3 d s c p o)
  | .collRedscat d s c p o => some (wordE 0x1A 4 d s c p o)
  | .depo a b sc rel => some (wordA 0x1E 0 0 a b sc false rel)
  | .slcall rd a b o => some (wordA 0x1E 1 rd a b o.scope o.acq o.rel)
  | .slpush rd a b o => some (wordA 0x1E 2 rd a b o.scope o.acq o.rel)
  | .phInit rd a b => some (wordR 0x1B 0 rd a b)
  | .phReg rd a m => some (wordR 0x1B (1 + 16 * m.code) rd a 0)
  | .phDrop rd a m => some (wordR 0x1B (2 + 16 * m.code) rd a 0)
  | .phArr rd a => some (wordR 0x1B 3 rd a 0)
  | .phWait rd a b st => some (wordR 0x1B (4 + 64 * st.toNat) rd a b)
  | .phTest rd a b => some (wordR 0x1B 5 rd a b)
  | .phExp a b => some (wordR 0x1B 6 0 a b)
  | .phStat rd a => some (wordR 0x1B 7 rd a 0)
  | .bar kind rd => some (word 0x1C [(7, rd), (19, kind.code)])
  | .spawn rd a => some (wordR 0x1D 0 rd a 0)
  | .start rd a b => some (wordR 0x1D 1 rd a b)
  | .susp a => some (wordR 0x1D 2 0 a 0)
  | .done a => some (wordR 0x1D 3 0 a 0)
  | .joindec a => some (wordR 0x1D 4 0 a 0)
  | .yield => some (wordR 0x1D 5 0 0 0)
  | .cancel a l hard => some (wordR 0x1D (6 + 16 * l.code + 64 * hard.toNat) 0 a 0)
  | .ctrrd rd a l => some (wordR 0x1D (7 + 16 * l.code) rd a 0)
  | .netOpen rd a b => some (wordR 0x1F 0 rd a b)
  | .netKeep rd a => some (wordR 0x1F 1 rd a 0)
  | .netDrop rd a b => some (wordR 0x1F 2 rd a b)
  | .netStat rd a => some (wordR 0x1F 3 rd a 0)
  | .bharv a => some (wordR 0x21 0 0 a 0)
  | .bquery rd a => some (wordR 0x21 1 rd a 0)
  | .axrBegin id stop => some (word 0x20 [(7, stop.toNat), (19, 0), (22, id)])
  | .axrEnd id => some (word 0x20 [(19, 1), (22, id)])
  | .axrCfg rd id a => some (word 0x20 [(7, rd), (13, a), (19, 2), (22, id)])
  | .axrInval id => some (word 0x20 [(19, 3), (22, id)])
  | .axrStat rd id => some (word 0x20 [(7, rd), (19, 4), (22, id)])
  | _ => none

/-- The bytes of an instruction, lowest address first; none for a step that no word encodes. -/
def encode : Instr → Option (List Byte)
  | .compactLane op vd vs2 => some (bytesOfNat 2 (op.val * 2 ^ 2 + vd.val * 2 ^ 6 + vs2.val * 2 ^ 11))
  | .dictionaryReference index ov => some (bytesOfNat 2 (2 + index.val * 2 ^ 2 + ov.val * 2 ^ 12))
  | i => (encodeWord i).map (bytesOfNat 4)

end Sys2Proof
end

