-- ==== Sys2Proof/Machine/Tab.lean ====
section
/-!
DEFINITION. Tables: a list of (key, entry) pairs, keys rising, read with a default. Every sparse part of the state is
one: cores, contexts, dies, and the bytes of memory. `set` writes a table of bytes in the one canonical form in which no
listed entry equals the default.
-/
namespace Sys2Proof.Machine

/-- A table by key. -/
abbrev Tab (α : Type) := List (Nat × α)

/-- The entry at a key, or the default where none is listed. -/
def Tab.get {α : Type} (d : α) (t : Tab α) (k : Nat) : α :=
  match t with
  | [] => d
  | (j, a) :: r => if j = k then a else Tab.get d r k

/-- The table with the entry at a key put, keys kept rising. -/
def Tab.put {α : Type} (t : Tab α) (k : Nat) (a : α) : Tab α :=
  match t with
  | [] => [(k, a)]
  | (j, b) :: r => if k < j then (k, a) :: (j, b) :: r else if k = j then (k, a) :: r else (j, b) :: Tab.put r k a

/-- The table without the entry at a key. -/
def Tab.erase {α : Type} (t : Tab α) (k : Nat) : Tab α :=
  match t with
  | [] => []
  | (j, b) :: r => if k = j then r else (j, b) :: Tab.erase r k

/-- The entry at a key, if one is listed. -/
def Tab.find {α : Type} (t : Tab α) (k : Nat) : Option α :=
  match t with
  | [] => none
  | (j, a) :: r => if j = k then some a else Tab.find r k

/-- The table written in canonical form: writing the default removes the entry. -/
def Tab.set {α : Type} [DecidableEq α] (d : α) (t : Tab α) (k : Nat) (a : α) : Tab α :=
  if a = d then t.erase k else t.put k a

/-- Keys strictly rising, all above a bound. -/
def Tab.sortedAbove {α : Type} : Nat → Tab α → Bool
  | _, [] => true
  | n, (j, _) :: r => decide (n ≤ j) && Tab.sortedAbove (j + 1) r

/-- The canonical form: keys strictly rising and no entry equal to the default. -/
def Tab.wf {α : Type} [DecidableEq α] (d : α) (t : Tab α) : Bool :=
  Tab.sortedAbove 0 t && t.all fun e => !decide (e.2 = d)

end Sys2Proof.Machine
end

