-- ==== Sys2Proof/Machine/State.lean ====
section
/-!
DEFINITION. The state of the machine: every piece of state the manual gives the module, as plain data (INVENTORY.md lists
each with its rule and reset value), and the state right after cold reset.
Numbers of places: arithmetic core c of die d is core 256d + c; ringmaster core r is 16384 + r; the sluice core of channel
c of die d is 16448 + 16d + c; the booth core of bridge b is 17472 + b (R1). Context n of core c has key 16c + n.
-/
namespace Sys2Proof.Machine

/-- Why the machine stops. -/
inductive Fault where
  /-- `cur` names no core or context of the module: raised by `step` alone, never by an instruction.
  Safe: the hardware has no such state (assumption log, entry 4). -/
  | noSuchContext
  deriving DecidableEq, Repr

/-- Why an instruction has no meaning in this model. -/
inductive Refusal where
  /-- The instruction is not modelled yet: raised only by its arm of `exec`. Safe: the run stops. -/
  | notModelled (mnemonic : String)
  deriving DecidableEq, Repr

/-! ## A context -/

/-- Sixteen lanes of 32 bits (R11). -/
abbrev VVal := Vector Word 16
/-- A 16 x 16 accumulator of 32-bit elements, by rows (R11). -/
abbrev AccVal := Vector (Vector Word 16) 16

/-- A ring handle (R292). -/
structure Handle where
  /-- RINIT has initialised it since the launch or unit started. -/
  ready : Bool
  /-- The header's scratchpad offset. -/
  off : Nat
  /-- Slot 0's scratchpad offset. -/
  base : Nat
  /-- S: bytes of a slot. -/
  slot : Nat
  /-- N: the slot count. -/
  n : Nat
  /-- The reservation count. -/
  pres : BitVec 16
  deriving DecidableEq, Repr

def Handle.unset : Handle := { ready := false, off := 0, base := 0, slot := 0, n := 0, pres := 0#16 }

/-- A bound port's direction (R191). -/
inductive PortDir where
  | read | write
  deriving DecidableEq, Repr

/-- One of x60 to x63 while BIND attaches a ring to it (R64, R65). -/
structure PortSt where
  bound : Bool
  dir : PortDir
  ring : Ring
  /-- Element bytes. -/
  esize : Nat
  /-- Zero extension on a read port. -/
  z : Bool
  /-- The place of the next element in its slot, in bytes. -/
  pos : Nat
  /-- The staging buffer: at most 32 bytes, oldest first. -/
  staged : List Byte
  deriving DecidableEq, Repr

def PortSt.unbound : PortSt :=
  { bound := false, dir := .read, ring := 0, esize := 1, z := false, pos := 0, staged := [] }

/-- One instruction of a captured clause (R238). -/
structure ClauseItem where
  pc : Dword
  /-- The halfword or word as fetched, zero-extended. -/
  raw : Nat
  long : Bool
  deriving DecidableEq, Repr

/-- The states of a repetition buffer (R240). CAPTURING lasts from the insertion of a REP until it has executed. -/
inductive RepState where
  | idle | capturing | reissuing | held
  deriving DecidableEq, Repr

/-- The repetition buffer (R238 to R242). -/
structure RepBuf where
  st : RepState
  /-- REP's own address. -/
  pc : Dword
  items : List ClauseItem
  /-- E: the address after the clause. -/
  after : Dword
  iter : Nat
  stag : Nat
  deriving DecidableEq, Repr

def RepBuf.empty : RepBuf := { st := .idle, pc := 0#64, items := [], after := 0#64, iter := 0, stag := 0 }

/-- What a sample of the fitting engine keeps of its BEGIN (R130, R133). -/
structure Pending where
  id : Nat
  /-- The generation of the slot the BEGIN queried: an INVAL or a re-initialisation makes a new one. -/
  gen : Nat
  inputs : List Word
  /-- The surrogate's outputs, kept for a comparison run in FITTED. -/
  yhat : Option (List Word)
  deriving DecidableEq, Repr

/-- What R66 to R69 settle of a request as it arrives at an L2 slice: the grain it is for, the ways it may fill, whether its line
enters as the one least recently used, whether the L2 keeps the line, and the counter of R67 that it counts in. -/
structure Admission where
  key : Nat
  /-- The grain's place in the die's DRAM, and its size. -/
  off : Nat
  size : Nat
  ways : List Nat
  last : Bool
  keep : Bool
  counter : Option Nat
  deriving DecidableEq, Repr

/-- What a context waits for (R152, R154, R309, R333). -/
inductive Wait where
  /-- PH.WAIT of a slot of a core for a phase; `st` merges the latched word (R160). -/
  | phaser (core slot : Nat) (phase : Word) (st : Bool)
  /-- BAR: the core's arrival at an instance of its launch (R161, R346). -/
  | barrier (launch : Nat) (kind : BarKind) (count : Nat)
  /-- NET.OPEN behind a DROPPING net (R112). -/
  | netOpen (base : Dword) (len : Dword)
  /-- An access held at a home NI under MIG (R376) or behind a DROP (R119). -/
  | home (die : Nat) (gva : Dword)
  /-- An access to a page that is not present, held there with its fault record written (R374). -/
  | absent (die : Nat) (gva : Dword)
  /-- An access held at the time horizon (R87); a load's or an atomic's with the lease it asks for. -/
  | horizon (die : Nat) (gva : Dword) (lease : Option Nat)
  /-- A request that waits at an L2 slice (R72, R88), by the port it came in at. -/
  | slice (die slice port : Nat) (adm : Admission)
  /-- A message that waits in a queue of a bridge's booth core (R93). -/
  | booth (bridge queue : Nat) (gva : Dword)
  /-- A not-present answer withheld while no park entry or no room in the fault queue is free (R374). -/
  | park (die : Nat) (gva : Dword)
  /-- WFE (R333). -/
  | event
  /-- An answer already on its way (R154). -/
  | answer
  /-- An answer from another module about the phaser of a handle (R156). -/
  | remote (handle : Dword)
  deriving DecidableEq, Repr

/-- What a context is doing. -/
inductive Status where
  /-- Runs no code: a helper without a unit, or a core outside every launch (R148, R153). -/
  | idle
  | running
  /-- Sealed and waiting; an answer goes to `rd`, or to no register. -/
  | waiting (w : Wait) (rd : Option XReg)
  /-- Halted by a fatal trap (R352). -/
  | fatal
  deriving DecidableEq, Repr

/-- One context (R8, R11). -/
structure Ctx where
  pc : Dword
  /-- The address of the next instruction in sequence (R220), set by the fetch: the model's own field. -/
  npc : Dword
  /-- The instruction as R200 lays it out, set by the fetch: the model's own field. -/
  ir : Dword
  /-- Where the running instruction stands: its address, and the repetition buffer before it; set by the fetch, the model's
  own fields, for a wait that pre-emption withdraws (R357). -/
  issuedPc : Dword
  issuedRep : RepBuf
  x : Vector Dword 64
  v : Vector VVal 32
  k : Vector Half 8
  acc : Vector AccVal 4
  handles : Vector Handle 16
  ports : Vector PortSt 4
  rep : RepBuf
  fcsr : Dword
  ctxcfg : Dword
  wofs : Dword
  pts : Nat
  lease : Dword
  bartmo : Dword
  unitid : Dword
  launchid : Dword
  merrlog : Dword
  merrcnt : Dword
  trapcause : Dword
  trappc : Dword
  trapval : Dword
  trapvec : Dword
  /-- The active region (R128). -/
  region : Option Nat
  /-- The pending sample (R130). -/
  pending : Option Pending
  /-- Fill packets still to write their registers (R129): register, and value. -/
  fills : List (XReg × Dword)
  /-- The event latch (R333). -/
  latch : Bool
  /-- The record of the running unit (R143, R361). -/
  record : Option Dword
  /-- The RPTS the unit started with (R354). -/
  rpts : Nat
  /-- The PTS held at the seal of the last IFENCE, at which its fetches read (R316). -/
  fetchPts : Nat
  /-- An answer that has come since a pre-emption reached the core, and its destination: it is saved with the context (R357, R361). -/
  answer : Option (XReg × Dword)
  status : Status
  deriving DecidableEq, Repr

/-- A vector register of zeros. -/
def VVal.zero : VVal := Vector.replicate 16 0#32
/-- An accumulator of zeros. -/
def AccVal.zero : AccVal := Vector.replicate 16 (Vector.replicate 16 0#32)

/-- A context at reset (assumption log, entry 1, for the values the manual does not give). -/
def Ctx.reset : Ctx where
  pc := 0#64
  npc := 0#64
  ir := 0#64
  issuedPc := 0#64
  issuedRep := RepBuf.empty
  x := Vector.replicate 64 0#64
  v := Vector.replicate 32 VVal.zero
  k := Vector.replicate 8 0xFFFF#16
  acc := Vector.replicate 4 AccVal.zero
  handles := Vector.replicate 16 Handle.unset
  ports := Vector.replicate 4 PortSt.unbound
  rep := RepBuf.empty
  fcsr := 0#64
  ctxcfg := 0#64
  wofs := 0#64
  pts := 0
  lease := 32#64
  bartmo := 0#64
  unitid := 0#64
  launchid := 0#64
  merrlog := 0#64
  merrcnt := 0#64
  trapcause := 0#64
  trappc := 0#64
  trapval := 0#64
  trapvec := 0#64
  region := none
  pending := none
  fills := []
  latch := false
  record := none
  rpts := 0
  fetchPts := 0
  answer := none
  status := .idle

/-! ## A core -/

/-- A context waiting on a phaser, in the pipe or suspended (R152, R159). -/
structure Waiter where
  core : Nat
  ctx : Nat
  phase : Word
  rd : Option XReg
  st : Bool
  /-- The record of a suspended unit; none for a wait in the pipe. -/
  record : Option Dword
  deriving DecidableEq, Repr

/-- A phaser slot (R156, R157). -/
structure Phaser where
  scope : Scope
  phase : Word
  sigs : Nat
  arrived : Nat
  pend : Nat
  /-- The accumulating word, DONE and COUNT aside. -/
  accum : Dword
  latched : Dword
  /-- Arrivals and completions of the current phase (R159). -/
  count : Nat
  /-- The phase has had an arrival or a PH.EXP, or carries one (R157). -/
  touched : Bool
  /-- Registration changes held for the flip: signed changes of SIGS, and of the entries each core reserves (R157). -/
  held : Int
  heldWaits : Tab Int
  /-- The largest PTS among the completions and arrivals of the phase (R95). -/
  pts : Nat
  /-- The largest PTS of each phase that has flipped (R95), the last flip's first. -/
  flipPts : List Nat
  waiters : List Waiter
  deriving DecidableEq, Repr

def Phaser.reset : Phaser :=
  { scope := .core, phase := 0#32, sigs := 0, arrived := 0, pend := 0, accum := 0#64, latched := 0#64, count := 0,
    touched := false, held := 0, heldWaits := [], pts := 0, flipPts := [], waiters := [] }

/-- A deposit at a core's mailbox port (R36, R328). -/
structure Deposit where
  ctx : Nat
  reg : Fin 4
  value : Dword
  /-- The issuer's PTS, when the deposit is a release. -/
  pts : Option Nat
  /-- The job of the core that sent it, 0 where it runs in none (R357). -/
  job : Nat
  deriving DecidableEq, Repr

/-- A ring wait of a suspended unit (R152). -/
structure Watcher where
  /-- The header's scratchpad offset. -/
  off : Nat
  /-- Slots waited for. -/
  n : Nat
  record : Dword
  pts : Nat
  deriving DecidableEq, Repr

/-- A call of a sluice core (R306). -/
structure SluiceCall where
  block : Dword
  entry : Dword
  arg0 : Dword
  arg1 : Dword
  ph : Dword
  caller : Dword
  unit : Dword
  rel : Bool
  scope : Scope
  pts : Nat
  secure : Bool
  /-- A write or a harvest of its program found a net pool exhausted (R115). -/
  ne : Bool
  deriving DecidableEq, Repr

/-- How an instruction leaves its path. -/
inductive Exc where
  /-- It is sealed as trapping (R351): the cause, and the trap value. -/
  | trap (cause : Nat) (value : Dword)
  /-- It traps at the instruction after it, with what it wrote kept (R313). -/
  | trapAfter (cause : Nat) (value : Dword)
  /-- A home NI answered not present (R374): the address in the page, the trap value of a control context (R353), the
  home (64 + bridge for a bridge), and whether the access fetches or writes. -/
  | notPresent (gva value : Dword) (home : Nat) (fetch write : Bool)
  /-- Its condition is not met and it waits in the pipe, with no effect (R26, R64, R293): it is tried again. -/
  | retry
  /-- It is held away from the core until `w` ends, with no effect, and is then tried again (R376, R119, R374). -/
  | hold (w : Wait)
  /-- A packet of the pipe has made the checks that come before its seal, and its effect is still to come (R28). -/
  | checked
  deriving DecidableEq, Repr

/-- Bytes that a packet stores, by a space's address or, where the space is none, by a flattened one; a byte that an atomic will
compute is none. -/
structure Span where
  space : Option Space
  ea : Dword
  bytes : List (Option Byte)
  deriving DecidableEq, Repr

/-- How much of an instruction a run in the pipe does (R26, R28). -/
inductive Stage where
  /-- All of it, ahead of its seal. -/
  | ahead
  /-- What comes before its seal. -/
  | checks
  /-- What follows its seal. -/
  | effect
  deriving DecidableEq, Repr

/-- What a packet has reserved before its seal, and gives back when it is killed: an addition to PEND (R158), an entry of a sluice
core's call queue (R306), or a net (R321). -/
inductive Claim where
  | phaser (core slot n : Nat)
  | call (core : Nat)
  | net (h : Nat)
  deriving DecidableEq, Repr

/-- One change that a packet makes of its core's own state when it is sealed (R35): a change, and no value of what it changes, so that
what others have done in between stands. -/
inductive CoreWrite where
  /-- Bytes of a memory of the core, by flattened address, and which of them are marked uncorrectable. -/
  | bytes (a : Nat) (data : List Byte) (bad : List Bool)
  /-- CCNT, and PCNT, of the ring of a handle, whose header lies at `off`, move on by `n` slots (R62, R63). -/
  | consumed (h : Ring) (off n : Nat)
  | published (h : Ring) (off n : Nat)
  /-- PRES of a handle moves on (R292). -/
  | reserved (h : Ring) (n : Nat)
  /-- The recorded format of a weight slot (R287). -/
  | format (slot : Nat) (f : MatFmt)
  /-- Words of the dictionary from a number on (R172, R334). -/
  | words (first : Nat) (ws : List Word)
  deriving DecidableEq, Repr

/-- A run of a packet's instruction. The model's own. -/
structure PacketRun where
  stage : Stage
  /-- The changes that its context's older packets have still to commit. -/
  pending : List CoreWrite
  /-- Its own changes, in order. -/
  writes : List CoreWrite
  /-- The bytes of its context's older stores that are not yet performed, the youngest last (R28), by `byteKey`; one whose value an
  atomic has still to give is none. -/
  older : List (Nat × Option Byte)
  /-- The protection entries as the packet entered its siding (R378). -/
  window : Option (List (Dword × Dword))
  /-- The physical registers whose youngest older writer has not given its value (R128). -/
  awaited : List Nat
  /-- The bytes that it loads (R77). -/
  loads : List Span
  /-- What it stores, what it has reserved, and what it has read before its seal for its effect (R295, R331). -/
  spans : List Span
  claim : Option Claim
  read : List Byte
  /-- How it has left its path. -/
  raised : Option Exc
  deriving DecidableEq, Repr

/-- A packet's source (R23): a physical register, the writer it awaits, and its value. -/
structure Source where
  /-- 0 to 63 an x register, 64 to 95 a v register, 96 to 103 a k register. -/
  reg : Nat
  await : Option Nat
  value : Nat
  /-- The value is an element claimed of the read port that the register is bound as (R64). -/
  claim : Bool
  deriving DecidableEq, Repr

/-- What a packet does when it is sealed (R35): the private copy that a matrix packet has computed of its context's accumulators and
error log, and the changes of the core's own state. -/
structure Commit where
  acc : Vector AccVal 4
  merrlog : Dword
  merrcnt : Dword
  writes : List CoreWrite
  deriving DecidableEq, Repr

/-- What a sealed AXR.BEGIN does to its context (R128, R130). -/
structure Begun where
  region : Option Nat
  pending : Option Pending
  /-- The fill packets of a surrogate's answer, until fetch has been redirected. -/
  fills : List (XReg × Dword)
  deriving DecidableEq, Repr

/-- An instruction packet (R19 to R26). -/
structure Packet where
  ctx : Nat
  seq : Nat
  pc : Dword
  npc : Dword
  ir : Dword
  instr : Instr
  /-- Its fetch has not faulted. -/
  fetched : Bool
  srcs : List Source
  /-- The physical register it writes through the pan. -/
  dest : Option Nat
  /-- The address fetch went on at, and the one the packet names once it has executed. -/
  predicted : Dword
  target : Dword
  result : Option Nat
  injected : Bool
  /-- The FCSR flags its seal raises (R35, R49). -/
  flags : Dword
  executed : Bool
  complete : Bool
  /-- It was complete at the start of the cycle (R29). -/
  ready : Bool
  /-- How it leaves its path at its seal. -/
  fault : Option Exc
  /-- It is held away from the core, and executes again when that ends. -/
  away : Bool
  /-- What its sealed effect stores (R28). -/
  spans : List Span
  claim : Option Claim
  /-- What it has read before its seal for its effect (R295, R331). -/
  read : List Byte
  /-- The protection entries, base and limit, as the packet entered the S5 siding (R378). -/
  window : Option (List (Dword × Dword))
  commit : Option Commit
  begun : Option Begun
  /-- The write port it appends to, and the element (R64). -/
  port : Option Port
  element : List Byte
  /-- Its iteration and index in a repetition clause (R239, R240). -/
  clause : Option (Nat × Nat)
  /-- The global request slots it holds (R70). -/
  slots : Nat
  deriving DecidableEq, Repr

/-- A packet in a siding, its home stage, and whether its work is done (R26). -/
structure SidingEntry where
  stage : Nat
  packet : Packet
  /-- It is in service; a packet of S5 that is not is in the entry queue (R17). -/
  started : Bool
  /-- It is one of the accesses of local spaces in service (R17). -/
  near : Bool
  done : Bool
  deriving DecidableEq, Repr

/-- A result packet in the down lane (R20, R25). -/
structure ResultPkt where
  ctx : Nat
  seq : Nat
  reg : Nat
  value : Nat
  deriving DecidableEq, Repr

/-- An entry of the settling pan (R31, R36). -/
structure PanEntry where
  ctx : Nat
  seq : Nat
  reg : Nat
  value : Option Nat
  /-- It was filled at the start of the cycle (R31). -/
  ready : Bool
  /-- A deposit, which a kill never removes. -/
  external : Bool
  pts : Option Nat
  /-- A word merged into FCSR when the entry is written (R160). -/
  word : Option Dword
  deriving DecidableEq, Repr

/-- A pipe's own view of a context (R19, R22, R24, R31). Sequence numbers count on; a packet carries one modulo 64. -/
structure PipeCtx where
  /-- Where the foot fetches; the context's PC where there is none. -/
  fetch : Option Dword
  nextSeq : Nat
  /-- Packets sealed or removed so far: a number below it is sealed. -/
  sealed : Nat
  /-- The watermark on the seal line, and the one the foot knows. -/
  line : Nat
  known : Nat
  /-- The packet that holds the foot. -/
  held : Option Nat
  /-- The sealed packet whose answer is awaited (R154). -/
  awaiting : Option Nat
  /-- The next clause instruction that the foot inserts, by its iteration and index (R240). -/
  clause : Option (Nat × Nat)
  /-- The fill packets still to be inserted (R129). -/
  fills : List (XReg × Dword)
  /-- Its fetch waits away from the core (R376). -/
  fetching : Bool
  deriving DecidableEq, Repr

def PipeCtx.reset : PipeCtx :=
  { fetch := none, nextSeq := 0, sealed := 0, line := 0, known := 0, held := none, awaiting := none, clause := none, fills := [],
    fetching := false }

/-- The counterflow pipe of a core (R16 to R36). -/
structure Pipe where
  up : Tab Packet
  down : Tab ResultPkt
  siding : List SidingEntry
  perch : List Packet
  pan : List PanEntry
  ctxs : Tab PipeCtx
  lastIn : Nat
  lastSealed : Nat
  /-- Whether a cycle is even (R400's throttle). -/
  even : Bool
  /-- The up half of the cycle has been made and its down half has not (R20). -/
  upMade : Bool
  /-- The foot has inserted a packet in this up half (R22), and the crown has sealed in this cycle (R29). -/
  inserted : Bool
  crowned : Bool
  /-- A deposit has been accepted in this cycle (R36), and the pan has written (R31). -/
  accepted : Bool
  panned : Bool
  /-- Request slots of removed loads whose data has not returned (R33). -/
  lost : Nat
  deriving DecidableEq, Repr

/-- The pipe at reset. The manual does not say after which context the foot and the crown start their turns: the model starts both
after context 0 (DESIGN CHOICE: assumption log, entry 16). -/
def Pipe.empty : Pipe :=
  { up := [], down := [], siding := [], perch := [], pan := [], ctxs := [], lastIn := 0, lastSealed := 0, even := true,
    upMade := false, inserted := false, crowned := false, accepted := false, panned := false, lost := 0 }

/-- What a sealed packet has sent out of the core and is not yet performed (R28): a weak store or another effect, with its context as
it was sealed. -/
structure Outbound where
  packet : Packet
  view : Ctx
  /-- It is on its way to its home, which performs it (R88, R93). -/
  sent : Bool
  deriving DecidableEq, Repr

/-- One core (R16), of any kind. -/
structure CoreSt where
  workcfg : Dword
  diesel : Dword
  dict : Tab Word
  /-- Recorded formats of the weight buffer's slots (R287). -/
  wfmt : Tab MatFmt
  phasers : Tab Phaser
  /-- Suspension entries in use and reserved (R152, R157), by the phaser they are for (`phaserWait`), or `otherWait`. -/
  suspUsed : Tab Nat
  suspReserved : Tab Nat
  watchers : List Watcher
  /-- How many BARs of each kind the core has made (R346), by KIND's code. -/
  bars : Tab Nat
  mailbox : List Deposit
  calls : List SluiceCall
  /-- Entries of its call queue reserved by calls not yet sealed (R306). -/
  callsKept : Nat
  running : Option SluiceCall
  /-- The running launch's world (R387). -/
  secure : Bool
  throttled : Bool
  /-- A stop of R402 holds the helpers until the control context's ERET. -/
  stopped : Bool
  /-- A pre-emption has stopped fetch, until the core's contexts are saved (R356). -/
  preempted : Bool
  pipe : Pipe
  outbound : List Outbound
  deriving DecidableEq, Repr

def CoreSt.reset : CoreSt where
  workcfg := 0#64
  diesel := 0#64
  dict := []
  wfmt := []
  phasers := []
  suspUsed := []
  suspReserved := []
  watchers := []
  bars := []
  mailbox := []
  calls := []
  callsKept := 0
  running := none
  secure := false
  throttled := false
  stopped := false
  preempted := false
  pipe := Pipe.empty
  outbound := []

/-! ## The memory system -/

/-- One copy of a grain below its home (R57, R60, R84, R89, R249). Masks are numbers, bit i for byte, slot or cluster i. -/
structure Copy where
  size : Nat
  data : List Byte
  wts : Nat
  rts : Nat
  dirty : Nat
  dirtier : Nat
  maxPts : Nat
  /-- The recorded write grant (R249). -/
  grant : Bool
  /-- Bytes marked uncorrectable. -/
  bad : Nat
  /-- The class of its page (R68). -/
  cls : Nat
  deriving DecidableEq, Repr

/-- A frame of a cluster cache or an L2 slice, or a line of an L1 (R57, R60), by a number within its cache. -/
structure Frame where
  id : Nat
  way : Nat
  /-- The size of its grains, and its valid sectors of 32 bytes, as a mask (R57, R60). -/
  size : Nat
  valid : Nat
  /-- Another frame has its way, and its eviction is due. -/
  leaving : Bool
  deriving DecidableEq, Repr

/-- A holder's partial (R103). -/
structure Partial where
  data : List Byte
  maxPts : Nat
  /-- It returns with uncorrectable data (R106). -/
  bad : Bool
  deriving DecidableEq, Repr

/-- The state of a grain that is not ordinary (R104). -/
inductive BrineState where
  | brine | harvesting | discarding
  deriving DecidableEq, Repr

/-- An entry of a Brine directory with the partials of its holders (R99, R100, R103). -/
structure BrineEntry where
  tag : BrineTag
  state : BrineState
  size : Nat
  maxPts : Nat
  /-- Partials at their holders, by holder index. -/
  holders : Tab Partial
  /-- Partials returned to the home, by holder index. -/
  returned : Tab Partial
  /-- The physical address of the grain, as flattened memory has it. -/
  phys : Nat
  deriving DecidableEq, Repr

/-- A leaf held by a TLB or a lent bank (R371): the page's first offset, its size and the entry. -/
structure TlbEntry where
  base : Nat
  size : Nat
  pte : Dword
  /-- The flattened address of the entry it was read from. -/
  entry : Nat
  deriving DecidableEq, Repr

/-- A parked unit (R374): the address it asked for, its record, and the RPTS it goes back with. -/
structure Park where
  gva : Dword
  record : Dword
  rpts : Nat
  deriving DecidableEq, Repr

/-- A step that is due, and what it is about. -/
structure Due where
  step : Instr
  subject : Subject
  deriving DecidableEq, Repr

/-- Who made an access that waits away from its core. -/
inductive Asker where
  /-- A context, which takes its instruction again. -/
  | ctx (core n : Nat)
  /-- An engine operation. -/
  | op (n : Nat)
  /-- A step of the machine. -/
  | step (d : Due)
  /-- A sealed packet by its core, context and number, and the packets whose REDs have merged into it (R92). -/
  | packet (core ctx seq : Nat) (also : List (Nat × Nat × Nat))
  /-- A load in the S5 siding, by its context and number. -/
  | load (core ctx seq : Nat)
  /-- The fetch of a context's next packet. -/
  | fetch (core n : Nat)
  deriving DecidableEq, Repr

/-- An access held at a home NI (R374, R376, R119), or at the time horizon (R87). -/
structure Hold where
  gva : Dword
  who : Asker
  /-- It is held at the time horizon. -/
  horizon : Bool
  /-- Its page is not present and its fault record is written: it waits for the page's release (R374, R375). -/
  absent : Bool
  /-- The lease it asks for, where it reads. -/
  lease : Option Nat
  deriving DecidableEq, Repr

/-- A request waiting at an L2 slice (R88). -/
structure HomeReq where
  port : Nat
  who : Asker
  adm : Admission
  /-- The slice's cycle in which it arrived, and whether it has lost a competition since (R88). -/
  cycle : Nat
  lost : Bool
  /-- What its asker has been admitted with elsewhere: a grain that is done with is not waited for again. -/
  got : List Admission
  deriving DecidableEq, Repr

/-- A request waiting for a DRAM channel (R72). -/
structure DramReq where
  req : HomeReq
  /-- It has waited 256 cycles. -/
  aged : Bool
  deriving DecidableEq, Repr

/-- An entry of a work queue (R145, R147). -/
structure QEntry where
  record : Dword
  rpts : Nat
  stamp : Nat
  /-- The hint of the record's AFF field (R146). -/
  hint : Nat
  /-- The record's level IDs (R143), by which CANCEL finds it. -/
  launch : Nat
  graph : Nat
  phase : Nat
  job : Nat
  deriving DecidableEq, Repr

/-- A Cremor Link port's states (R388). -/
inductive LinkState where
  | down | train | up2 | up1
  deriving DecidableEq, Repr

/-- A Cremor Link port (R388, R389). -/
structure LinkPort where
  en : Bool
  state : LinkState
  lane1 : Bool
  peer : Nat
  /-- The sequence number of the next flit sent, and of the next one accepted. -/
  txSeq : Nat
  rxSeq : Nat
  /-- Sequence numbers in the replay buffer, and those still to be replayed. -/
  replay : List Nat
  resend : List Nat
  /-- Consecutive failed replays. -/
  failed : Nat
  /-- A bad flit has been met and its successors are discarded. -/
  discarding : Bool
  /-- The sequence number that the last NAK returned has named. -/
  nak : Option Nat
  deriving DecidableEq, Repr

def LinkPort.reset : LinkPort :=
  { en := false, state := .down, lane1 := false, peer := 0, txSeq := 0, rxSeq := 0, replay := [], resend := [],
    failed := 0, discarding := false, nak := none }

/-- A job saved from a die (R356 to R362): its image, and what the layouts of R360 and R361 give no place of its cores and
contexts (assumption log, entry 28). -/
structure SavedJob where
  job : Nat
  image : Dword
  cores : Tab CoreSt
  ctxs : Tab Ctx
  deriving DecidableEq, Repr

/-- One die. -/
structure DieSt where
  /-- Per-die steward registers by number, as last written and masked (R4, R5, R338). -/
  csr : Tab Dword
  /-- The fused defect map's doublewords that differ from a map with no defect (R397). -/
  fuse : Tab Dword
  /-- DMIDX of each master (R397). -/
  dmidx : Tab Dword
  tlb : List TlbEntry
  /-- Entries in the lent banks, each with its bank. -/
  lent : List (Nat × TlbEntry)
  /-- Banks whose reclaim is not done (R373). -/
  reclaiming : List Nat
  parks : List Park
  holds : List Hold
  /-- FIFOs by 4 x segment + priority (R145), pop counts by segment. -/
  fifos : Tab (List QEntry)
  /-- Entries beyond a FIFO's room on chip, in order, with their number in the spill area; none waits at the segment (R145). -/
  spill : Tab (List (Option Nat × QEntry))
  pops : Tab Nat
  /-- Priority pointers by slice, and waiting requests (R88). -/
  pointers : Tab Nat
  reqs : Tab (List HomeReq)
  /-- Cycles in which a slice has taken a request (R88). -/
  cycles : Tab Nat
  /-- Requests that wait for the DRAM, by channel, and the rows open in its banks, each by the last address read there (R72). -/
  dram : Tab (List DramReq)
  rows : Tab (List Nat)
  /-- Counters of R67, by 8 x slice + range. -/
  rangeCount : Tab Nat
  /-- Refresh modes due at the next refresh, by channel (R400). -/
  refreshDue : Tab Bool
  links : Tab LinkPort
  /-- Replay-log entries written (R403). -/
  logged : Nat
  /-- Jobs saved from the die and not yet resumed. -/
  saved : List SavedJob
  /-- The LAUNCHQ command in progress (R385), as written. -/
  command : Option Dword
  /-- Its defect map's MAGIC or CRC is wrong, and its cores stay in reset (R397). -/
  failed : Bool
  deriving DecidableEq, Repr

def DieSt.reset : DieSt where
  csr := []
  fuse := []
  dmidx := []
  tlb := []
  lent := []
  reclaiming := []
  parks := []
  holds := []
  fifos := []
  spill := []
  pops := []
  pointers := []
  reqs := []
  cycles := []
  dram := []
  rows := []
  rangeCount := []
  refreshDue := []
  links := []
  logged := 0
  saved := []
  command := none
  failed := false

/-! ## The module -/

/-- A message at a booth core (R93). -/
structure BoothMsg where
  gva : Dword
  who : Asker
  /-- What its asker has been admitted with elsewhere. -/
  got : List Admission
  deriving DecidableEq, Repr

/-- One bridge. -/
structure BridgeSt where
  /-- Bridge registers by number (R380). -/
  csr : Tab Dword
  queues : Tab (List BoothMsg)
  /-- The booth core's wts and rts by grain, and its floor (R93). -/
  grains : Tab (Nat × Nat)
  floor : Nat
  tlb : List TlbEntry
  holds : List Hold
  measurement : BitVec 256
  halted : Bool
  /-- The report the attestation service last signed, and its signature (R383). -/
  report : List Byte
  signature : List Byte
  deriving DecidableEq, Repr

def BridgeSt.reset : BridgeSt where
  csr := []
  queues := []
  grains := []
  floor := 0
  tlb := []
  holds := []
  measurement := 0#256
  halted := false
  report := []
  signature := []

/-- A net's states (R121). -/
inductive NetState where
  | opened | broken | dropping
  deriving DecidableEq, Repr

/-- A safety net (R111, R112, R121). -/
structure Net where
  state : NetState
  base : Dword
  len : Nat
  parent : Nat
  depth : Nat
  /-- Dies whose pool refused a shadow. -/
  brokenAt : List Nat
  /-- When it was opened, among the nets: the youngest has the largest (R112). -/
  age : Nat
  /-- The context, by its key, whose KEEP or DROP has claimed it and is not yet performed (R321, R348). -/
  claimed : Option Nat
  /-- Homes that have recorded the net (R121, R122). -/
  recorded : List Nat
  /-- The net whose DROP closes this one: itself, or an ancestor; 0 while it is open. -/
  dropOf : Nat
  /-- Homes that have still to report the drop (R119). -/
  homes : List Nat
  /-- The phaser a DROP signals (R120), with the issuer's unit and PTS, and the issuer by its context's key. -/
  phaser : Option Dword
  unit : Dword
  issuer : Nat
  pts : Nat
  deriving DecidableEq, Repr

/-- A shadow in a net pool (R113, R118): its slot, whose bytes lie in the die's DRAM (R116). -/
structure Shadow where
  die : Nat
  /-- The line's key: its GVA without the module field. -/
  line : Nat
  net : Nat
  slot : Nat
  /-- Released, and holding its slot until it is reclaimed. -/
  lazy : Bool
  deriving DecidableEq, Repr

/-- The states of a region slot (R133). -/
inductive FitState where
  | observe | fitted | pinned
  deriving DecidableEq, Repr

/-- A sample (R130). -/
structure Sample where
  gen : Nat
  inputs : List Word
  outputs : List Word
  deriving DecidableEq, Repr

/-- Values an END has sent and the engine has not yet taken (R130). -/
structure Sent where
  core : Nat
  ctx : Nat
  id : Nat
  launch : Nat
  gen : Nat
  inputs : List Word
  outputs : List Word
  yhat : Option (List Word)
  deriving DecidableEq, Repr

/-- A region slot of a fitting engine (R124 to R133). -/
structure FitSlot where
  launch : Nat
  id : Nat
  state : FitState
  gen : Nat
  /-- The descriptor's 48 bytes. -/
  desc : List Byte
  master : List Word
  working : List Half
  passes : Nat
  fallbacks : Nat
  inv : Nat
  drops : Nat
  batches : Nat
  answers : Nat
  compared : Nat
  samples : List Sample
  /-- The batch being validated and trained, if the engine is busy with this slot. -/
  batch : Option (List Sample)
  /-- Its validation has ended. -/
  validated : Bool
  deriving DecidableEq, Repr

/-- A completion counter (R139). -/
structure Counter where
  count : Nat
  can : Bool
  late : Bool
  juf : Bool
  held : Bool
  /-- Complete, and passed on to the level above. -/
  complete : Bool
  die0 : Nat
  job : Nat
  /-- The ID of the level above. -/
  above : Nat
  /-- The next UNITID of a launch (R144). -/
  nextUnit : Nat
  deriving DecidableEq, Repr

/-- A launch (R140 to R142). -/
structure Launch where
  desc : Dword
  entry : Dword
  args : Dword
  row0 : Nat
  col0 : Nat
  rows : Nat
  cols : Nat
  die0 : Nat
  dies : Nat
  regtab : Dword
  stack : Dword
  stksz : Nat
  ap : Bool
  help : Nat
  tick : Nat
  succ : Dword
  job : Nat
  graph : Nat
  phase : Nat
  preds : Nat
  started : Bool
  /-- Superstep count (R161). -/
  sstep : Nat
  /-- Combined words reported by the nodes of the completion tree, by core (R163). -/
  reports : Tab Dword
  deriving DecidableEq, Repr

/-- A member's arrival at a barrier instance (R161). -/
structure Arrival where
  core : Nat
  mtime : Nat
  pts : Nat
  /-- The cycles after which the arrival times out, 0 without limit (R162, R345). -/
  timeout : Nat
  /-- The member's own time limit has been reached first (R345). -/
  expired : Bool
  /-- The contexts that share the arrival: context, destination, record of a suspended unit. -/
  waiters : List (Nat × Option XReg × Option Dword)
  deriving DecidableEq, Repr

/-- A barrier instance (R161, R162, R346). -/
structure BarrierInst where
  launch : Nat
  kind : BarKind
  /-- The row, column or die counted: 16 x die + index for rows and columns. -/
  place : Nat
  /-- Which instance of its kind and place. -/
  number : Nat
  arrivals : List Arrival
  poisoned : Bool
  complete : Bool
  /-- The instance was held for a stop (R402). -/
  stopping : Bool
  deriving DecidableEq, Repr

/-- What an engine operation does (R299 to R305). -/
inductive EngKind where
  | copy | copyIn | copy2 | gath | coll (op : Nat) | slcall
  deriving DecidableEq, Repr

/-- An engine operation in flight (R94, R295). -/
structure EngOp where
  kind : EngKind
  core : Nat
  ctx : Nat
  unit : Dword
  launch : Nat
  job : Nat
  dst : Dword
  src : Dword
  /-- The byte count, or the descriptor's bytes. -/
  count : Nat
  desc : List Byte
  side : LocalSide
  ord : MemOrder
  ph : Dword
  pts : Nat
  lease : Nat
  secure : Bool
  /-- The ring slot a ring copy fills: header offset, reserved count, slot address. -/
  ring : Option (Nat × BitVec 16 × Nat)
  /-- A ring copy has published its slot. -/
  published : Bool
  /-- The completion word so far. -/
  word : Dword
  /-- The bytes are moved. -/
  moved : Bool
  /-- A collective member that has joined its instance. -/
  joined : Bool
  /-- Cycles a collective member waits, 0 without limit (R303). -/
  timeout : Nat
  deriving DecidableEq, Repr

/-- A collective instance (R303). -/
structure CollInst where
  job : Nat
  group : Nat
  number : Nat
  /-- Operations that have arrived and are not complete. -/
  members : List Nat
  /-- Who has arrived: launch, unit, and the core where the unit is 0 (assumption log, entry 15). -/
  who : List (Nat × Nat × Nat)
  /-- The members disagree (R303). -/
  failed : Bool
  poisoned : Bool
  complete : Bool
  deriving DecidableEq, Repr

/-- What moves next, where something other than the order of the model's own round robin decides it. -/
inductive Turn where
  /-- A step of the machine that no instruction makes due: a timer, a link, the heat, the outside world. -/
  | due (d : Due)
  /-- The context that runs next. -/
  | run (core ctx : Nat)
  /-- A byte of memory goes bad (R106, R298). -/
  | damage (addr : Nat)
  /-- The partial of a grain at a holder goes bad (R106). -/
  | spoil (key holder : Nat)
  /-- Two REDs on their way to a home merge in a mesh router (R92): the home, the slice or queue, and their places there. -/
  | merge (home queue first second : Nat)
  /-- An access that waited goes on; one that has been taken at its slice or booth core does not wait there again. -/
  | retry (who : Asker) (pass : List Admission)
  deriving DecidableEq, Repr

/-- The module. -/
structure State where
  /-- The running context: core and number. The model's own field. -/
  cur : Nat × Nat
  /-- Steps that instructions have made due, oldest first. The model's own field. -/
  agenda : List Due
  /-- What the step being taken is about, where no word encodes it. The model's own field. -/
  subject : Subject
  /-- What the outside lets happen next. The model's own field. -/
  turns : List Turn
  /-- Numbers the free values taken. The model's own field. -/
  free : Nat
  /-- Contexts by 16 x core + context. -/
  ctxs : Tab Ctx
  cores : Tab CoreSt
  dies : Tab DieSt
  bridges : Tab BridgeSt
  /-- Every byte of memory, by flattened address, in canonical form. -/
  mem : List Host.Cell
  /-- Bytes of memory marked uncorrectable, by flattened address. -/
  marks : List Nat
  /-- wts and rts at the homes, by 32-byte sector of flattened memory (R84). -/
  times : Tab (Nat × Nat)
  /-- Copies below the homes, by place and grain (R57, R58). -/
  copies : Tab Copy
  /-- The frames of every cache, in an L2 slice the one most recently used first (R57, R58, R60). -/
  frames : Tab (List Frame)
  /-- What the request has been admitted with whose turn at its home it is. The model's own field. -/
  pass : List Admission
  /-- The run of a packet's instruction that is being made, none outside the pipe and between steps. The model's own field. -/
  run : Option PacketRun
  brine : Tab BrineEntry
  nets : Tab Net
  shadows : List Shadow
  fit : Tab FitSlot
  /-- Values of ENDs on their way to their engines (R130). -/
  sent : List Sent
  counters : Tab Counter
  launches : Tab Launch
  barriers : List BarrierInst
  ops : Tab EngOp
  nextOp : Nat
  colls : List CollInst
  mtime : Nat
  epoch : Nat
  /-- FEATURE (R392). -/
  feature : Dword
  /-- MGMTOWN.OWNER (R386). -/
  owner : Nat
  /-- Claims of MGMTOWN that have come in one cycle and are not yet resolved (R386). -/
  claims : List Nat
  /-- DIEREL has been written (R382). -/
  released : Bool
  deriving DecidableEq, Repr

/-- The subject of a step that is about nothing in particular. -/
def Subject.nothing : Subject := { place := 0, index := 0, addr := 0#64, value := 0#64, flag := false }

/-- The machine right after cold reset: nothing has run, every core is held, and COLD_RESET is due (R381). -/
def State.reset : State where
  cur := (0, 0)
  agenda := [{ step := .coldReset, subject := Subject.nothing }]
  subject := Subject.nothing
  turns := []
  free := 0
  ctxs := []
  cores := []
  dies := []
  bridges := []
  mem := []
  marks := []
  times := []
  copies := []
  frames := []
  pass := []
  run := none
  brine := []
  nets := []
  shadows := []
  fit := []
  sent := []
  counters := []
  launches := []
  barriers := []
  ops := []
  nextOp := 0
  colls := []
  mtime := 0
  epoch := 0
  feature := 0x7F#64
  owner := 0
  claims := []
  released := false

/-- The outcome of a step of this machine. -/
abbrev Out := Host.Outcome State Fault Refusal

end Sys2Proof.Machine
end

