-- ==== Sys2Proof/Machine/Ops.lean ====
section
/-!
DEFINITION. The named operations over registers and memory, and what every meaning shares: places in the module, the
register files, the bytes of memory, the effects an instruction may have before and at its seal, taking a trap (R351),
a fatal trap (R352), a unit abort (R354), and returning from a handler (R332).
-/
namespace Sys2Proof.Machine

/-! ## Places (R1, R7) -/

/-- The key of context `n` of core `c`. -/
def ctxKey (c n : Nat) : Nat := 16 * c + n

def isArith (c : Nat) : Bool := c < 16384
def isRingmaster (c : Nat) : Bool := 16384 ≤ c && c < 16448
def isSluice (c : Nat) : Bool := 16448 ≤ c && c < 17472
/-- The sluice core of channel `ch` of die `d`. -/
def sluiceCore (d ch : Nat) : Nat := 16448 + 16 * d + ch

/-- The die of an arithmetic or sluice core; the die of a bridge's other cores has no meaning. -/
def dieOf (c : Nat) : Nat := if isSluice c then (c - 16448) / 16 else c / 256
/-- The core ID of an arithmetic core (R7). -/
def coreId (c : Nat) : Nat := c % 256
def rowOf (c : Nat) : Nat := coreId c / 16
def colOf (c : Nat) : Nat := coreId c % 16
/-- The cluster of an arithmetic core, numbered over the module: 16 x die + cluster ID (R7). -/
def clusterOf (c : Nat) : Nat := 16 * dieOf c + (rowOf c / 4 * 4 + colOf c / 4)
/-- The cluster slot (R7). -/
def slotOf (c : Nat) : Nat := rowOf c % 4 * 4 + colOf c % 4
/-- The core at a slot of a cluster (R7). -/
def coreAtSlot (cluster slot : Nat) : Nat :=
  let cl := cluster % 16
  256 * (cluster / 16) + (cl / 4 * 4 + slot / 4) * 16 + (cl % 4 * 4 + slot % 4)
/-- The bridge of a ringmaster core, and of a die (R384). -/
def bridgeOf (c : Nat) : Nat := (c - 16384) / 16

/-! ## Parts of the state -/

def State.ctxAt (s : State) (k : Nat) : Ctx := s.ctxs.get Ctx.reset k
def State.setCtxAt (s : State) (k : Nat) (c : Ctx) : State := { s with ctxs := s.ctxs.put k c }
/-- The running context's key. -/
def State.myKey (s : State) : Nat := ctxKey s.cur.1 s.cur.2
/-- The running context. -/
def State.me (s : State) : Ctx := s.ctxAt s.myKey
def State.setMe (s : State) (c : Ctx) : State := s.setCtxAt s.myKey c
def State.core (s : State) (n : Nat) : CoreSt := s.cores.get CoreSt.reset n
def State.setCore (s : State) (n : Nat) (c : CoreSt) : State := { s with cores := s.cores.put n c }
def State.die (s : State) (d : Nat) : DieSt := s.dies.get DieSt.reset d
def State.setDie (s : State) (d : Nat) (x : DieSt) : State := { s with dies := s.dies.put d x }
def State.bridge (s : State) (b : Nat) : BridgeSt := s.bridges.get BridgeSt.reset b
def State.setBridge (s : State) (b : Nat) (x : BridgeSt) : State := { s with bridges := s.bridges.put b x }
/-- Adds a step to those due, behind the others. -/
def State.dueAt (s : State) (i : Instr) (subject : Subject) : State :=
  { s with agenda := s.agenda ++ [{ step := i, subject := subject }] }
/-- Adds a step about a number at a place. -/
def State.due (s : State) (i : Instr) (place : Nat) (index : Nat := 0) : State :=
  s.dueAt i { Subject.nothing with place := place, index := index }

/-! ## Steward registers (R4, R5, R338) -/

/-- The reset values of the per-die registers that are not zero (R377, R399). -/
def dieCsrReset (n : Nat) : Dword :=
  if n = 0x1DB then 12#64 else if n = 0x298 then 0x695F#64 else 0#64

def DieSt.reg (d : DieSt) (n : Nat) : Dword := d.csr.get (dieCsrReset n) n
def DieSt.setReg (d : DieSt) (n : Nat) (v : Dword) : DieSt := { d with csr := d.csr.put n v }
def State.dieReg (s : State) (d n : Nat) : Dword := (s.die d).reg n
def State.setDieReg (s : State) (d n : Nat) (v : Dword) : State := s.setDie d ((s.die d).setReg n v)
/-- A bridge register; RMWORLD (0x205) resets to all ones (R387). -/
def BridgeSt.reg (b : BridgeSt) (n : Nat) : Dword := b.csr.get (if n = 0x205 then (-1 : Dword) else 0#64) n
def State.bridgeReg (s : State) (b n : Nat) : Dword := (s.bridge b).reg n
def State.setBridgeReg (s : State) (b n : Nat) (v : Dword) : State :=
  let x := s.bridge b
  s.setBridge b { x with csr := x.csr.put n v }

/-- MODID of the module: bridge 0's copy (R388). -/
def State.modId (s : State) : Nat := (s.bridgeReg 0 0x206).toNat % 256

/-- Sets bits of OSEVT and wakes the ringmaster core that TGT names (R384). -/
def State.osEvent (s : State) (b : Nat) (bitsSet : Dword) : State :=
  let v := s.bridgeReg b 0x202
  (s.setBridgeReg b 0x202 (v ||| bitsSet)).due .wfeWake (16384 + bits v.toNat 24 6)

/-- Sets a bit of DIEEVT, which OSEVT.DIE of the die's bridge then shows (R384). -/
def State.dieEvent (s : State) (d bit : Nat) : State :=
  let s := s.setDieReg d 0x249 (s.dieReg d 0x249 ||| BitVec.ofNat 64 (2 ^ bit))
  s.osEvent (d / 16) (BitVec.ofNat 64 (2 ^ (d % 16)))

/-- The number of the next free value, and the state that has taken it. -/
def State.takeFree (s : State) : Nat × State := (s.free, { s with free := s.free + 1 })

/-! ## The bytes of memory -/

/-- What an unlisted byte reads as (assumption log, entry 3). -/
def unlisted : Byte := 0#8

/-- The bonded DRAM of a die, flattened (R9, R56). -/
def dramBase (d : Nat) : Nat := d * 2 ^ 36
/-- A core's scratchpad. -/
def spBase (c : Nat) : Nat := 2 ^ 44 + c * 2 ^ 18
/-- Lane `i`'s slice in a core. -/
def laneBase (c i : Nat) : Nat := 2 ^ 45 + c * 2 ^ 16 + i * 2 ^ 12
/-- A die's scratchpad. -/
def dsBase (d : Nat) : Nat := 2 ^ 46 + d * 2 ^ 25
/-- A slot of a core's weight buffer. -/
def wbBase (c slot : Nat) : Nat := 2 ^ 47 + c * 2 ^ 16 + slot * 2 ^ 12
/-- The CXL device behind window `n` of a bridge. -/
def cxlBase (b n : Nat) : Nat := 2 ^ 48 + (b * 4 + n) * 2 ^ 43
/-- A bridge's flash, and its boot SRAM (R381). -/
def flashBase (b : Nat) : Nat := 2 ^ 52 + b * 2 ^ 40
def sramBase (b : Nat) : Nat := 2 ^ 53 + b * 2 ^ 22
/-- The grain mark of a grain at a flattened address (R106). -/
def grainMark (a : Nat) : Nat := 2 ^ 60 + a

/-- The memory's canonical form. -/
def Memory.wf (m : List Host.Cell) : Bool := Tab.wf unlisted m

def State.byte (s : State) (a : Nat) : Byte := Tab.get unlisted s.mem a
def State.setByte (s : State) (a : Nat) (b : Byte) : State := { s with mem := Tab.set unlisted s.mem a b }

/-- The `n` bytes from an address, lowest first. -/
def State.bytes (s : State) (a : Nat) : Nat → List Byte
  | 0 => []
  | n + 1 => s.byte a :: State.bytes s (a + 1) n

/-- The bytes of a list stored from an address on. -/
def State.setBytes (s : State) (a : Nat) : List Byte → State
  | [] => s
  | b :: bs => State.setBytes (s.setByte a b) (a + 1) bs

/-- The little-endian number of the `n` bytes from an address (R3). -/
def State.num (s : State) (a n : Nat) : Nat := natOfBytes (s.bytes a n)

/-- Whether a byte's own mark is set. -/
def State.marked (s : State) (a : Nat) : Bool := s.marks.contains a

/-- Clears the marks of the bytes from `a` to `a + n - 1`. -/
def State.unmark (s : State) (a n : Nat) : State :=
  { s with marks := s.marks.filter fun m => !(decide (a ≤ m) && decide (m < a + n)) }

/-- Marks one byte. -/
def State.mark (s : State) (a : Nat) : State := if s.marked a then s else { s with marks := a :: s.marks }

/-- A store to a local memory: the bytes, their old marks gone. -/
def State.store (s : State) (a : Nat) (bs : List Byte) : State := (s.unmark a bs.length).setBytes a bs

/-- Memory from `a` to `a + n - 1` zeroed, its marks gone. -/
def State.zeroRange (s : State) (a n : Nat) : State :=
  { s with mem := s.mem.filter fun e => !(a ≤ e.1 && e.1 < a + n) }.unmark a n

/-! ## The register files (R11 to R14) -/

/-- The physical register a name reaches under a window offset (R13). -/
def rotate (wofs : Dword) (r : XReg) : XReg :=
  if 32 ≤ r.val ∧ r.val ≤ 47 then Fin.ofNat 64 (32 + (r.val - 32 + 16 - wofs.toNat % 16) % 16) else r

/-- An x register by its name (R12, R13); ports are read by `readX`. -/
def Ctx.getX (c : Ctx) (r : XReg) : Dword := if r = 0 then 0#64 else c.x[(rotate c.wofs r).val]
def Ctx.setX (c : Ctx) (r : XReg) (v : Dword) : Ctx :=
  if r = 0 then c else { c with x := c.x.set (rotate c.wofs r).val v }
def Ctx.getV (c : Ctx) (r : VReg) : VVal := c.v[r.val]
def Ctx.setV (c : Ctx) (r : VReg) (v : VVal) : Ctx := { c with v := c.v.set r.val v }
/-- A k register; k0 reads all ones (R12). -/
def Ctx.getK (c : Ctx) (r : KReg) : Half := if r = 0 then 0xFFFF#16 else c.k[r.val]
def Ctx.setK (c : Ctx) (r : KReg) (v : Half) : Ctx := if r = 0 then c else { c with k := c.k.set r.val v }
def Ctx.getAcc (c : Ctx) (r : AccReg) : AccVal := c.acc[r.val]
def Ctx.setAcc (c : Ctx) (r : AccReg) (v : AccVal) : Ctx := { c with acc := c.acc.set r.val v }
def Ctx.handle (c : Ctx) (h : Ring) : Handle := c.handles[h.val]
def Ctx.setHandle (c : Ctx) (h : Ring) (v : Handle) : Ctx := { c with handles := c.handles.set h.val v }
def Ctx.port (c : Ctx) (p : Port) : PortSt := c.ports[p.val]
def Ctx.setPort (c : Ctx) (p : Port) (v : PortSt) : Ctx := { c with ports := c.ports.set p.val v }
/-- Whether the context has a bound port. -/
def Ctx.anyPort (c : Ctx) : Bool := c.ports.toList.any (·.bound)
/-- INH: the context is in a handler (R350). -/
def Ctx.inHandler (c : Ctx) : Bool := bitAt c.trapcause.toNat 8

/-! ## Effects -/

/-- What an instruction does to the machine, up to how it leaves its path. -/
abbrev Mach := EStateM Exc State

/-- The running context. -/
def me : Mach Ctx := do return (← get).me
/-- Changes the running context. -/
def modifyMe (f : Ctx → Ctx) : Mach Unit := modify fun s => s.setMe (f s.me)
/-- Seals as trapping. -/
def trap {α : Type} (cause : Nat) (value : Dword) : Mach α := throw (.trap cause value)
/-- Traps unless a check holds. -/
def check (ok : Bool) (cause : Nat) (value : Dword) : Mach Unit := if ok then pure () else trap cause value
/-- The running context's core. -/
def myCore : Mach Nat := do return (← get).cur.1

/-! ## The pipe: what it holds of a context (R16, R31, R33) -/

/-- A register file's entry by the number of a physical register: an x, a v or a k register. -/
def Ctx.regNat (c : Ctx) (r : Nat) : Nat :=
  if r < 64 then ((c.x[r]?).getD 0#64).toNat
  else if r < 96 then ((c.v[r - 64]?).getD VVal.zero).toList.foldr (fun w n => w.toNat + 2 ^ 32 * n) 0
  else ((c.k[r - 96]?).getD 0#16).toNat

/-- Writes a register file's entry by its physical number; x0 and k0 are never written. -/
def Ctx.setRegNat (c : Ctx) (r v : Nat) : Ctx :=
  if r = 0 || r = 96 then c
  else if r < 64 then { c with x := c.x.setIfInBounds r (BitVec.ofNat 64 v) }
  else if r < 96 then { c with v := c.v.setIfInBounds (r - 64) (Vector.ofFn fun i : Fin 16 => BitVec.ofNat 32 (v / 2 ^ (32 * i.val))) }
  else { c with k := c.k.setIfInBounds (r - 96) (BitVec.ofNat 16 v) }

def Pipe.ctxOf (p : Pipe) (n : Nat) : PipeCtx := p.ctxs.get PipeCtx.reset n
def Pipe.setCtx (p : Pipe) (n : Nat) (x : PipeCtx) : Pipe := { p with ctxs := p.ctxs.put n x }
def State.pipe (s : State) (core : Nat) : Pipe := (s.core core).pipe
def State.setPipe (s : State) (core : Nat) (p : Pipe) : State := s.setCore core { s.core core with pipe := p }

/-- Every packet in a pipe. -/
def Pipe.packets (p : Pipe) : List Packet := p.up.map Prod.snd ++ p.siding.map SidingEntry.packet ++ p.perch

/-- What has left a core's context and is not yet performed, oldest first. -/
def State.outboundOf (s : State) (core n : Nat) : List Outbound := (s.core core).outbound.filter fun o => o.packet.ctx == n

/-- Whether anything of a context is in its core's pipe, or has left it and is not yet performed. -/
def State.inFlight (s : State) (k : Nat) : Bool :=
  let p := s.pipe (k / 16)
  let x := p.ctxOf (k % 16)
  x.nextSeq != x.sealed || x.awaiting.isSome || !x.fills.isEmpty || !(s.outboundOf (k / 16) (k % 16)).isEmpty ||
    p.pan.any fun e => e.ctx == k % 16

/-- The pipe without what a condition on a sequence number names of a context, deposits apart. -/
def Pipe.remove (p : Pipe) (n : Nat) (gone : Nat → Bool) : Pipe :=
  { p with
    up := p.up.filter fun e => !(e.2.ctx == n && gone e.2.seq),
    down := p.down.filter fun e => !(e.2.ctx == n && gone e.2.seq),
    siding := p.siding.filter fun e => !(e.packet.ctx == n && gone e.packet.seq),
    perch := p.perch.filter fun e => !(e.ctx == n && gone e.seq),
    pan := p.pan.filter fun e => !(e.ctx == n && !e.external && gone e.seq) }

/-- A kill (R33): every packet of a context from a sequence number on, with its results and pan entries; the foot goes on at an
address, or at the context's PC. A deposit stands after the packets that are left (R36). -/
def Pipe.kill (p : Pipe) (n first : Nat) (fetch : Option Dword) : Pipe :=
  let lost := (p.packets.filter fun q => q.ctx == n && decide (first ≤ q.seq) && !q.executed).foldl (fun t q => t + q.slots) 0
  let p := p.remove n fun q => first ≤ q
  let x := p.ctxOf n
  let pan := p.pan.map fun (e : PanEntry) => if e.ctx = n && e.external then { e with seq := min e.seq first } else e
  let q : Pipe := { p with lost := p.lost + lost, pan := pan }
  q.setCtx n { x with
    nextSeq := first, fetch := fetch, held := x.held.filter fun h => h < first, clause := none, fills := [], fetching := false }

/-- A killed packet gives back what it has reserved. -/
def State.withdrawClaim (s : State) (q : Packet) : State :=
  match q.claim with
  | none => s
  | some (.phaser core slot n) =>
    s.dueAt .phaserWithdrawal { Subject.nothing with place := core, index := slot, value := BitVec.ofNat 64 n }
  | some (.call core) => s.setCore core { s.core core with callsKept := (s.core core).callsKept - 1 }
  | some (.net h) =>
    match s.nets.find h with
    | none => s
    | some x => { s with nets := s.nets.put h { x with claimed := none } }

def isRep : Instr → Bool
  | .rep .. => true
  | _ => false

/-- A kill in a core (R33), with what the killed packets have reserved; a REP among them discards the repetition buffer (R240). -/
def State.killFrom (s : State) (core n first : Nat) (fetch : Option Dword) : State :=
  let p := s.pipe core
  let gone := p.packets.filter fun q => q.ctx == n && decide (first ≤ q.seq)
  let s := gone.foldl State.withdrawClaim (s.setPipe core (p.kill n first fetch))
  if gone.any fun q => isRep q.instr then
    let k := ctxKey core n
    s.setCtxAt k { s.ctxAt k with rep := RepBuf.empty }
  else s

/-- The value of a pan entry, filled or still in the down lane. -/
def Pipe.entryValue (p : Pipe) (e : PanEntry) : Option Nat :=
  e.value.orElse fun _ => ((p.down.map Prod.snd).find? fun r => r.ctx == e.ctx && r.seq == e.seq && !e.external).map (·.value)

/-- A latched word merged into FCSR (R160). -/
def Ctx.mergeWord (c : Ctx) (word : Dword) : Ctx :=
  { c with fcsr := c.fcsr ||| BitVec.ofNat 64 (bits word.toNat 2 7 * 256) }

/-- A context with some pan entries written, in order. -/
def Ctx.takePan (c : Ctx) (p : Pipe) (es : List PanEntry) : Ctx :=
  es.foldl (fun (c : Ctx) e =>
    match p.entryValue e with
    | some v =>
      let c := { c.setRegNat e.reg v with pts := max c.pts (e.pts.getD 0) }
      match e.word with
      | some w => c.mergeWord w
      | none => c
    | none => c) c

/-- The pan writes what it holds of a context, in order, with the results still in the down lane (R31, R34). It stops at an entry whose
answer has not come (R154). -/
def State.drainPan (s : State) (k : Nat) : State :=
  let p := s.pipe (k / 16)
  let mine := p.pan.filter fun e => e.ctx == k % 16
  let now := mine.takeWhile fun e => (p.entryValue e).isSome
  let rest := mine.drop now.length
  match now with
  | [] => s
  | _ =>
    let c := (s.ctxAt k).takePan p now
    let x := p.ctxOf (k % 16)
    let written := now.any fun e => !e.external && x.held == some e.seq
    let p : Pipe := { p with
      pan := p.pan.filter (fun e => e.ctx != k % 16) ++ rest,
      down := p.down.filter fun e => e.2.ctx != k % 16 }
    let s := (s.setCtxAt k c).setPipe (k / 16) (p.setCtx (k % 16) { x with held := if written then none else x.held })
    -- a deposit is an event of its context (R333)
    if now.any fun e => e.external then s.due .wfeWake (k / 16) (k % 16) else s

/-- A context that runs its unit no longer keeps nothing in its pipe: the pan writes what it holds, and an answer still awaited is
discarded; a deposit that stood behind it is written. -/
def State.clearPipe (s : State) (k : Nat) : State :=
  let s := s.drainPan k
  let p := s.pipe (k / 16)
  let x := p.ctxOf (k % 16)
  if x.held.isNone && x.awaiting.isNone && x.fills.isEmpty && !x.fetching && !(p.pan.any fun e => e.ctx == k % 16) then s
  else
    let p : Pipe := { p with pan := p.pan.filter fun e => e.ctx != k % 16 || e.external }
    (s.setPipe (k / 16) (p.setCtx (k % 16) { x with held := none, awaiting := none, fills := [], fetching := false })).drainPan k

/-- Kills every unsealed packet of a context (R33), and lets the pan write the sealed ones' results. -/
def State.killPackets (s : State) (k : Nat) : State :=
  if s.inFlight k then
    (s.killFrom (k / 16) (k % 16) ((s.pipe (k / 16)).ctxOf (k % 16)).sealed none).drainPan k
  else s

/-- An answer enters the pan entry that its instruction took (R154), or is discarded where it took none; the pan writes it, and the foot
is then free. -/
def State.fillAnswer (s : State) (core n seq : Nat) (v : Dword) (word : Option Dword) : State :=
  let p := s.pipe core
  let x := { p.ctxOf n with awaiting := none }
  if p.pan.any fun e => e.ctx == n && e.seq == seq && !e.external then
    let pan := p.pan.map fun (e : PanEntry) =>
      if e.ctx = n && e.seq = seq && !e.external then { e with value := some v.toNat, word := word } else e
    let q : Pipe := { p with pan := pan }
    (s.setPipe core (q.setCtx n x)).due .panWrite core
  else
    let s := s.setPipe core (p.setCtx n { x with held := if x.held = some seq then none else x.held })
    match word with
    | none => s
    | some w => let k := ctxKey core n; s.setCtxAt k ((s.ctxAt k).mergeWord w)

/-- An answer to a context that a pre-emption has reached is held until the context is saved, in its record (R154, R357, R361); what it
merges into FCSR is merged. -/
def State.holdAnswer (s : State) (k : Nat) (rd : Option XReg) (v : Dword) (word : Option Dword) : State :=
  let c := match word with
    | none => s.ctxAt k
    | some w => (s.ctxAt k).mergeWord w
  s.setCtxAt k { c with answer := (rd.filter fun r => r != 0).map fun r => (r, v) }

/-! ## Runs of packets (R28) -/

/-- Whether the running instruction is a packet's, sealed, whose effect is performed now: its checks have been made. -/
def sealedNow : Mach Bool := do return (← get).run.any fun r => r.stage == .effect

/-- A check that comes before the seal. -/
def beforeSeal (m : Mach Unit) : Mach Unit := do if !(← sealedNow) then m

/-- The end of what an instruction does before its seal; `spans` is what its effect stores. A packet of the pipe goes no further until it
is sealed. -/
def leaveWith (spans : List Span) : Mach Unit := do
  match (← get).run with
  | some r =>
    if r.stage == .checks then
      modify fun s => { s with run := some { r with spans := spans } }
      throw .checked
  | none => pure ()

/-- The same where no bytes are stored. -/
def leave : Mach Unit := leaveWith []

/-- What a packet has reserved before its seal. -/
def keepClaim (c : Claim) : Mach Unit :=
  modify fun s => { s with run := s.run.map fun r => { r with claim := some c } }

/-- What the running packet has reserved before its seal. -/
def claimed : Mach (Option Claim) := do return (← get).run.bind (·.claim)

/-- What a command reads before its seal (R295): its effect has it from there. -/
def readAhead (m : Mach (List Byte)) : Mach (List Byte) := do
  if ← sealedNow then return ((← get).run.map (·.read)).getD []
  else
    let bs ← m
    modify fun s => { s with run := s.run.map fun r => { r with read := bs } }
    return bs

/-! ## Completion counters (R139) and cancelling (R155) -/

/-- The key of a level's counter. -/
def counterKey (l : Level) (id : Nat) : Nat := l.code * 2 ^ 32 + id

def Counter.fresh (die0 job above : Nat) : Counter :=
  { count := 0, can := false, late := false, juf := false, held := false, complete := false, die0 := die0, job := job,
    above := above, nextUnit := 1 }

def State.counter (s : State) (l : Level) (id : Nat) : Option Counter := s.counters.find (counterKey l id)
def State.setCounter (s : State) (l : Level) (id : Nat) (c : Counter) : State :=
  { s with counters := s.counters.put (counterKey l id) c }

/-- One item of a launch ends: its counter falls by one, and at zero its completion is due (R139). -/
def State.endItem (s : State) (launch : Nat) : State :=
  match s.counter .launch launch with
  | none => s
  | some c =>
    let n := c.count - 1
    let s := s.setCounter .launch launch { c with count := n }
    if n = 0 && 0 < c.count then s.due .launchComplete launch else s

/-- Whether a launch lies in a level's ID. -/
def Launch.inLevel (id : Nat) (x : Launch) (l : Level) (lid : Nat) : Bool :=
  match l with
  | .launch => id == lid
  | .graph => x.graph == lid
  | .phase => x.phase == lid
  | .job => x.job == lid

/-- The launches of a level. -/
def State.launchesOf (s : State) (l : Level) (lid : Nat) : List Nat :=
  (s.launches.filter fun e => e.2.inLevel e.1 l lid).map Prod.fst

/-- Sets CAN in a counter. -/
def State.setCan (s : State) (l : Level) (id : Nat) : State :=
  match s.counter l id with
  | none => s
  | some c => s.setCounter l id { c with can := true }

/-- Whether a launch has been cancelled, by itself or by a level above (R155). -/
def State.cancelled (s : State) (launch : Nat) : Bool :=
  match s.counter .launch launch with
  | none => false
  | some c => c.can

/-- A context without its unit: idle, and nothing of the unit kept beside its registers. -/
def Ctx.toIdle (c : Ctx) : Ctx :=
  { c with
    status := .idle, record := none, rep := RepBuf.empty, region := none, pending := none, fills := [],
    ports := Vector.replicate 4 PortSt.unbound }

/-! ## The FIFOs of the work queues and their spill area (R145) -/

/-- Entries of a FIFO on chip (R145). -/
def fifoEntries : Nat := 1024

/-- The bytes of an entry in the spill area: the record's address and RPTS (assumption log, entry 13). -/
def spillEntry : Nat := 16

/-- The address of an entry of a die's spill area, which QSPBASE gives. -/
def State.spillAddr (s : State) (d i : Nat) : Nat := dramBase d + (s.dieReg d 0x1B0).toNat + spillEntry * i

/-- An entry at the tail of a FIFO: on chip, or behind the entries that are beyond it (R145). -/
def DieSt.enter (d : DieSt) (key : Nat) (e : QEntry) : DieSt :=
  if (d.spill.get [] key).isEmpty && (d.fifos.get [] key).length < fifoEntries then
    { d with fifos := d.fifos.put key (d.fifos.get [] key ++ [e]) }
  else { d with spill := d.spill.put key (d.spill.get [] key ++ [(none, e)]) }

/-- The first entry of a die's spill area that is free, where QSPSIZE leaves one. -/
def State.spillFree (s : State) (d : Nat) : Option Nat :=
  let used := (s.die d).spill.flatMap fun f => f.2.filterMap Prod.fst
  ((List.range (used.length + 1)).find? fun i => !used.contains i).bind fun i =>
    if spillEntry * (i + 1) ≤ (s.dieReg d 0x1B1).toNat then some i else none

/-- The oldest spilled entry of a FIFO returns to the chip where it has room; it is read back from the spill area. -/
def State.fifoReturn (s : State) (d key : Nat) : State :=
  let x := s.die d
  match x.spill.get [] key with
  | [] => s
  | (i, e) :: r =>
    if (x.fifos.get [] key).length < fifoEntries then
      let e := match i with
        | none => e
        | some i => { e with record := BitVec.ofNat 64 (s.num (s.spillAddr d i) 8), rpts := s.num (s.spillAddr d i + 8) 8 }
      s.setDie d { x with spill := x.spill.put key r, fifos := x.fifos.put key (x.fifos.get [] key ++ [e]) }
    else s

/-- An entry that waits at its segment spills where the spill area has room (R145): the `n`th beyond the chip. -/
def State.fifoSpill (s : State) (d key n : Nat) : State :=
  let x := s.die d
  let list := x.spill.get [] key
  match list[n]?, s.spillFree d with
  | some (none, e), some i =>
    let s := s.store (s.spillAddr d i) (bytesOfNat 8 e.record.toNat ++ bytesOfNat 8 e.rpts)
    s.setDie d { x with spill := x.spill.put key (list.set n (some i, e)) }
  | _, _ => s

/-- A FIFO of a die after a change: spilled entries return as far as the chip has room, and those that wait spill as far as the spill
area has. -/
def State.fifoSettle (s : State) (d key : Nat) : State :=
  let n := ((s.die d).spill.get [] key).length
  if n = 0 then s
  else
    let s := (List.range n).foldl (fun s _ => s.fifoReturn d key) s
    (List.range n).foldl (fun s i => s.fifoSpill d key i) s

/-- All FIFOs of a die after a change of what its spill area holds, or of its size. -/
def State.settleFifos (s : State) (d : Nat) : State := (s.die d).spill.foldl (fun s f => s.fifoSettle d f.1) s

/-- Whether an entry of a die waits for room in its spill area. -/
def DieSt.spillFull (d : DieSt) : Bool := d.spill.any fun f => f.2.any fun e => e.1.isNone

/-- Discards the queued records of the launches in `ids`, each counted as ended (R155). -/
def State.discardQueued (s : State) (ids : List Nat) : State :=
  s.dies.foldl (fun s e =>
    let d := s.die e.1
    let all := (d.fifos.flatMap fun f => f.2) ++ d.spill.flatMap fun f => f.2.map Prod.snd
    let gone := all.filter fun q => ids.contains q.launch
    let d' := { d with
      fifos := d.fifos.map fun f => (f.1, f.2.filter fun q => !ids.contains q.launch)
      spill := d.spill.map fun f => (f.1, f.2.filter fun q => !ids.contains q.2.launch) }
    let s := (s.setDie e.1 d').settleFifos e.1
    gone.foldl (fun s q => s.endItem q.launch) s) s

/-- Sealed packets whose effect ends or suspends a unit: they leave with it when it is killed, so that it ends once (R155, R327). -/
def endsUnit : Instr → Bool
  | .done .. | .susp .. | .yield | .phWait .. => true
  | _ => false

/-- Kills the running units of the launches in `ids`, each counted as ended (R155); their helpers are idle, and look for entries
(R148). A helper that a fatal trap has halted stays so (R352). -/
def State.killUnits (s : State) (ids : List Nat) : State :=
  s.ctxs.foldl (fun s e =>
    let c := s.ctxAt e.1
    if c.record.isSome && ids.contains c.launchid.toNat && c.status != .idle && c.status != .fatal then
      let s := (s.killPackets e.1).clearPipe e.1
      let core := e.1 / 16
      let x := s.core core
      let s := s.setCore core { x with outbound := x.outbound.filter fun o => !(o.packet.ctx == e.1 % 16 && endsUnit o.packet.instr) }
      ((s.setCtxAt e.1 (s.ctxAt e.1).toIdle).endItem c.launchid.toNat).due .autoPop (dieOf core) (clusterOf core % 16)
    else s) s

/-- CANCEL of a level's ID (R155): the level and every level below it are marked, queued records are discarded, pending
launches never start, and with `hard` running units are killed. Contexts of the level see an event (R333). -/
def State.cancel (s : State) (l : Level) (lid : Nat) (hard : Bool) : State :=
  let ids := s.launchesOf l lid
  let s := s.setCan l lid
  let s := ids.foldl (fun s id =>
    match s.launches.find id with
    | none => s
    | some x =>
      let s := s.setCan .launch id
      let s := if l == .phase || l == .job then s.setCan .graph x.graph else s
      let s := if l == .job then s.setCan .phase x.phase else s
      if x.started then s
      else match s.counter .launch id with
        | none => s
        | some c => (s.setCounter .launch id { c with count := 0 }).due .launchComplete id) s
  let s := s.discardQueued ids
  let s := if hard then s.killUnits ids else s
  s.ctxs.foldl (fun s e =>
    let c := s.ctxAt e.1
    if ids.contains c.launchid.toNat && c.status != .idle then s.due .wfeWake (e.1 / 16) (e.1 % 16) else s) s

/-! ## Engine operations in flight -/

/-- Enters an operation and makes its completion due; the operation's number. -/
def State.addOp (s : State) (o : EngOp) : Nat × State :=
  (s.nextOp, { s with ops := s.ops.put s.nextOp o, nextOp := s.nextOp + 1 })

/-- The completion of a sluice call: one arrival at its phaser, with the word given (R306). -/
def State.endCall (s : State) (core : Nat) (word : Dword) : State :=
  match (s.core core).running with
  | none => s
  | some call =>
    let word := if call.ne then word ||| 0x802#64 else word
    let op : EngOp := {
      kind := .slcall, core := core, ctx := 0, unit := call.unit, launch := 0, job := 0, dst := 0#64, src := 0#64,
      count := 0, desc := [], side := .none, ord := { scope := call.scope, acq := false, rel := call.rel }, ph := call.ph,
      pts := max call.pts (s.ctxAt (ctxKey core 0)).pts, lease := 32, secure := call.secure, ring := none,
      published := true, word := word, moved := true, joined := false, timeout := 0 }
    let (n, s) := s.addOp op
    let s := s.setCore core { s.core core with running := none }
    let c := s.ctxAt (ctxKey core 0)
    ((s.setCtxAt (ctxKey core 0) { c with status := .idle }).due .engineCompletion n).due .sluiceCallStart core

/-! ## Taking a trap and returning (R350 to R352, R332, R240) -/

/-- What a trap does to the repetition buffer: a trapping clause instruction holds it (R240). -/
def RepBuf.onTrap (r : RepBuf) : RepBuf := if r.st = .reissuing then { r with st := .held } else r

/-- The trap registers R351 writes: CODE and INH, TRAPPC and TRAPVAL. A trap clears the active region (R135). -/
def Ctx.recordTrap (c : Ctx) (cause : Nat) (pc value : Dword) : Ctx :=
  { c with
    trapcause := BitVec.ofNat 64 (256 + cause % 256), trappc := pc, trapval := value, region := none,
    pending := none, rep := c.rep.onTrap }

/-- Taking a trap in context `k` (R351): into the handler, or, in a handler already or with TRAPVEC zero, the fatal trap
of R352, which cancels the launch of a core of a die and ends the unit that it halts. A program of a sluice core that traps ends
(R306). -/
def State.takeTrap (s : State) (k cause : Nat) (pc value : Dword) : State :=
  let c := s.ctxAt k
  if isSluice (k / 16) then
    let c' := c.recordTrap cause pc value
    let err : Nat := 2 + (if 3 ≤ cause ∧ cause ≤ 6 then 2 ^ 10 else 0) + (if cause = 0x0E then 2 ^ 8 else 0) + 5 * 2 ^ 12
    (s.setCtxAt k c').endCall (k / 16) (BitVec.ofNat 64 err)
  else if c.inHandler || c.trapvec == 0#64 then
    let s := s.setCtxAt k { c.recordTrap cause pc value with status := Status.fatal }
    if isArith (k / 16) then
      let s := (s.dieEvent (dieOf (k / 16)) 1).cancel .launch c.launchid.toNat true
      if c.record.isSome then s.endItem c.launchid.toNat else s
    else s
  else s.setCtxAt k { c.recordTrap cause pc value with pc := c.trapvec, npc := c.trapvec, status := .running }

/-- The reset of INH and the return address of ERET (R332), with what it does to a held clause (R240). -/
def Ctx.eret (c : Ctx) : Ctx :=
  let target := c.trappc &&& ~~~1#64
  let rep := match c.rep.st with
    | .held =>
      if (c.rep.items[c.rep.stag]?).any fun i => i.pc == target then { c.rep with st := .reissuing } else RepBuf.empty
    | _ => c.rep
  { c with trapcause := c.trapcause &&& 0xFF#64, npc := target, rep := rep }

/-! ## Not present: fault records, parking and unit aborts (R374, R354) -/

/-- Records the fault queue holds, and whether it is full (R375). -/
def State.faultQueueFull (s : State) (d : Nat) : Bool :=
  let log2n := bits (s.dieReg d 0x1D4).toNat 0 5
  ((s.dieReg d 0x1D5).toNat + 2 ^ 32 - (s.dieReg d 0x1D6).toNat) % 2 ^ 32 == 2 ^ log2n

/-- Writes a fault record, advances HEAD and reports it (R374, R375, R384). -/
def State.faultRecord (s : State) (d : Nat) (gva : Dword) (type : Nat) (fetch write : Bool) (core die ctx : Nat)
    (record : Dword) : State :=
  let base := bits (s.dieReg d 0x1D4).toNat 12 36 * 4096
  let log2n := bits (s.dieReg d 0x1D4).toNat 0 5
  let head := (s.dieReg d 0x1D5).toNat
  let at_ := dramBase d + base + 32 * (head % 2 ^ log2n)
  let word := type + fetch.toNat * 4 + write.toNat * 8 + core * 16 + die * 2 ^ 12 + ctx * 2 ^ 18
  let s := s.store at_ (bytesOfNat 8 gva.toNat ++ bytesOfNat 8 word ++ bytesOfNat 8 record.toNat ++ bytesOfNat 8 0)
  let s := s.setDieReg d 0x1D5 (BitVec.ofNat 64 ((head + 1) % 2 ^ 32))
  s.dieEvent d 0

/-- Park entries of an NI (R374). -/
def parkEntries : Nat := 1024

/-- An access joins the hold queue of a home: a die, or 64 + bridge (R376). The queue holds 4,096: an access behind that many is one that
the NI does not accept yet, and that waits with its requester for its turn behind them. -/
def State.addHold (s : State) (place : Nat) (h : Hold) : State :=
  if place < 64 then s.setDie place { s.die place with holds := (s.die place).holds ++ [h] }
  else s.setBridge (place - 64) { s.bridge (place - 64) with holds := (s.bridge (place - 64)).holds ++ [h] }

/-- An access that waits joins those that wait where it does (R72, R88, R93, R376, R87). -/
def State.addWait (s : State) (w : Wait) (who : Asker) : State :=
  match w with
  | .home place gva => s.addHold place { gva := gva, who := who, horizon := false, absent := false, lease := none }
  | .absent place gva => s.addHold place { gva := gva, who := who, horizon := false, absent := true, lease := none }
  | .horizon place gva lease => s.addHold place { gva := gva, who := who, horizon := true, absent := false, lease := lease }
  | .slice d slice port adm =>
    let x := s.die d
    let count := match adm.counter with
      | none => x.rangeCount
      | some c => x.rangeCount.put c (x.rangeCount.get 0 c + 1)
    (s.setDie d { x with
      reqs := x.reqs.put slice (x.reqs.get [] slice ++
        [{ port := port, who := who, adm := adm, cycle := x.cycles.get 0 slice, lost := false, got := s.pass }]),
      rangeCount := count }).due .homeRequest d slice
  | .booth b q gva =>
    let x := s.bridge b
    (s.setBridge b { x with queues := x.queues.put q (x.queues.get [] q ++ [{ gva := gva, who := who, got := s.pass }]) }).due
      .boothMessage b q
  | _ => s

/-- The accesses held at a home, and the home with others. -/
def State.holdsAt (s : State) (place : Nat) : List Hold :=
  if place < 64 then (s.die place).holds else (s.bridge (place - 64)).holds
def State.setHolds (s : State) (place : Nat) (hs : List Hold) : State :=
  if place < 64 then s.setDie place { s.die place with holds := hs }
  else s.setBridge (place - 64) { s.bridge (place - 64) with holds := hs }

/-- The answers that a home has withheld are asked for again (R374). -/
def State.unwithhold (s : State) (place : Nat) : State :=
  s.ctxs.foldl (fun s e =>
    let c := s.ctxAt e.1
    match c.status with
    | .waiting (.park p _) _ => if p = place then s.setCtxAt e.1 { c with status := .running } else s
    | _ => s) s

/-- What waits at a home is tried again: held accesses in their order of arrival, before anything else, and answers that were withheld; what
is held at the time horizon waits for the rebase (R87), and what waits for a page that is absent for its release (R375). -/
def State.rewalk (s : State) (place : Nat) : State :=
  let holds := s.holdsAt place
  let s := s.setHolds place (holds.filter fun h => h.horizon || h.absent)
  let s := s.unwithhold place
  let again := (holds.filter fun h => !h.horizon && !h.absent).map fun (h : Hold) => Turn.retry h.who []
  let s : State := { s with turns := again ++ s.turns }
  let s := s.dies.foldl (fun s e => if e.2.command.isSome then s.due .quiesce e.1 else s) s
  s.nets.foldl (fun s e =>
    if e.2.state == .dropping && e.2.dropOf == e.1 && e.2.homes.isEmpty then s.due .netDropComplete e.1 else s) s

/-- Whether a home withholds a not-present answer to a context (R374): while its fault queue is full, or, to a unit of a helper, while no
park entry is free. -/
def State.answerWithheld (s : State) (k home : Nat) : Bool :=
  s.faultQueueFull home ||
    (!isSluice (k / 16) && (s.ctxAt k).record.isSome && parkEntries ≤ (s.die home).parks.length)

/-- A context that has lost its unit to an abort (R354): idle, its handles uninitialised. -/
def Ctx.aborted (c : Ctx) : Ctx := { c.toIdle with handles := Vector.replicate 16 Handle.unset }

/-- The DIE that a fault record names for a core (R374); for a ringmaster core, which stands on none, the first die of its bridge (DESIGN
CHOICE: assumption log, entry 42). -/
def faultDie (core : Nat) : Nat := if isRingmaster core then 16 * bridgeOf core else dieOf core

/-- What follows a not-present answer to a core's access (R374): a helper's unit is aborted and its record parked; a sluice
core's access is held; any other context traps with cause 0x05. While no park entry or no room in the fault queue is free, the answer is withheld. -/
def State.notPresent (s : State) (k : Nat) (gva value : Dword) (home : Nat) (fetch write : Bool) : State :=
  let c := s.ctxAt k
  let core := k / 16
  if s.answerWithheld k home then s.setCtxAt k { c with status := .waiting (.park home gva) none }
  else if isSluice core then
    let s := s.faultRecord home gva 1 fetch write 0 (dieOf core) 15 0#64
    (s.addWait (.absent home gva) (.ctx core (k % 16))).setCtxAt k
      { c with status := .waiting (.absent home gva) none }
  else match c.record with
    | some record =>
      let s := s.faultRecord home gva 0 fetch write (coreId core) (dieOf core) (k % 16) record
      let d := s.die home
      let s := s.setDie home { d with parks := d.parks ++ [{ gva := gva, record := record, rpts := c.rpts }] }
      let s := s.dueAt .niTranslation { Subject.nothing with place := home, addr := record, value := gva, flag := true }
      (s.setCtxAt k c.aborted).due .autoPop (dieOf core) (clusterOf core % 16)
    | none =>
      let s := s.faultRecord home gva 2 fetch write (coreId core) (faultDie core) (k % 16) 0#64
      s.takeTrap k 0x05 c.pc value

/-! ## The replay log (R403, R404) -/

/-- Appends an entry to a die's replay log (R403, R404): its first word's fields, and its address. -/
def State.logEntry (s : State) (d type arg who sstep : Nat) (addr : Dword) : State :=
  let ctl := (s.dieReg d 0x2B1).toNat
  if !bitAt ctl 5 then s
  else if 2 ^ bits ctl 0 5 ≤ (s.die d).logged then
    if bitAt ctl 6 then s
    else s.setDieReg d 0x2B1 (BitVec.ofNat 64 (ctl % 2 ^ 32 + 2 ^ 6 + sstep % 2 ^ 32 * 2 ^ 32))
  else
    let a := dramBase d + bits (s.dieReg d 0x2B0).toNat 12 36 * 4096 + 16 * (s.die d).logged
    let word := type + arg % 256 * 4 + who % 2 ^ 22 * 2 ^ 10 + sstep % 2 ^ 32 * 2 ^ 32
    let s := s.store a (bytesOfNat 8 word ++ bytesOfNat 8 addr.toNat)
    s.setDie d { s.die d with logged := (s.die d).logged + 1 }

/-- COREID of a core (R7): core ID, die and module number, bits [63:22] zero. The core ID of a ringmaster or sluice core, and the die of
a ringmaster core, which R7 does not give, are free values. -/
def State.coreIdWord (s : State) (core : Nat) : Nat :=
  (if isArith core then core
    else if isSluice core then (Config.otherCoreId core).toNat % 2 ^ 8 + dieOf core * 2 ^ 8
    else (Config.otherCoreId core).toNat % 2 ^ 14) + s.modId * 2 ^ 14

/-- The superstep count of a launch. -/
def State.sstepOf (s : State) (launch : Nat) : Nat := ((s.launches.find launch).map (·.sstep)).getD 0

/-! ## How a meaning ends -/

/-- Moves a repetition buffer past the instruction just sealed; the next address (R239, R240). -/
def Ctx.repNext (c : Ctx) : Ctx :=
  if c.rep.st = .reissuing then
    if c.rep.stag + 1 < c.rep.items.length then
      let stag := c.rep.stag + 1
      { c with rep := { c.rep with stag := stag }, pc := ((c.rep.items[stag]?).map (·.pc)).getD c.npc }
    else if 1 < c.rep.iter then
      { c with rep := { c.rep with stag := 0, iter := c.rep.iter - 1 }, pc := ((c.rep.items[0]?).map (·.pc)).getD c.npc }
    else { c with rep := RepBuf.empty, pc := c.rep.after }
  else { c with pc := c.npc }

/-! ## Link ports (R388, R389) -/

/-- A port of a die (R388). -/
def State.link (s : State) (d p : Nat) : LinkPort := (s.die d).links.get LinkPort.reset p
def State.setLink (s : State) (d p : Nat) (x : LinkPort) : State :=
  s.setDie d { s.die d with links := (s.die d).links.put p x }

/-- Flits that a sender keeps for replay (R389). -/
def replayFlits : Nat := 64

/-- A port sends a flit: it takes the next sequence number, and the replay buffer keeps it. -/
def LinkPort.send (x : LinkPort) : LinkPort :=
  { x with replay := (x.replay ++ [x.txSeq]).drop (x.replay.length + 1 - replayFlits), txSeq := x.txSeq + 1 }

/-- Whether a port is up and leads directly to a module. -/
def LinkPort.leadsTo (x : LinkPort) (module : Nat) : Bool := x.peer == module && (x.state == .up2 || x.state == .up1)

/-- The ports of this module that lead directly to another one, by die and number. -/
def State.portsTo (s : State) (module : Nat) : List (Nat × Nat) :=
  ((List.range 64).flatMap fun d => [(d, 0), (d, 1)]).filter fun e => (s.link e.1 e.2).leadsTo module

/-- A message to another module leaves in a flit, by the first port that leads there (DESIGN CHOICE: assumption log, entry 32). -/
def State.sendAway (s : State) (module : Nat) : State :=
  match s.portsTo module with
  | [] => s
  | (d, p) :: _ => s.setLink d p (s.link d p).send

end Sys2Proof.Machine
end

