-- ==== Sys2Proof/Machine/Translate.lean ====
section
/-!
DEFINITION. Global addresses and their translation at the home NI (R366 to R373): routing, page-table entries, the walk,
the TLB and its lent banks, and the checks of R370.
-/
namespace Sys2Proof.Machine

/-- Where a global address leads (R366): a core die's partition or a bridge's, and the offset in it. -/
structure Loc where
  bridge : Bool
  home : Nat
  off : Nat
  deriving DecidableEq, Repr

/-- The number that names the address whatever its module field: the same for two spellings of one address. -/
def Loc.key (l : Loc) : Nat := ((if l.bridge then 64 else 0) + l.home) * 2 ^ 48 + l.off

/-- R366's routing. A module other than this one is outside the domain of one module that the model holds
(assumption log, entry 9), and is refused. -/
def route (s : State) (gva : Dword) : Option Loc :=
  let w := gva.toNat
  let m := bits w 56 8
  let kf := bits w 54 2
  let home := bits w 48 6
  let here := if 2 ≤ kf then m == 0xFF && s.modId == 255 else m == 0xFF || m == s.modId
  let bridge := kf % 2 == 1
  if here && (!bridge || home < 4) then some { bridge := bridge, home := home, off := bits w 0 48 } else none

/-- Fields of a page-table entry (R367). -/
def pteV (e : Nat) : Bool := bitAt e 0
def pteR (e : Nat) : Bool := bitAt e 1
def pteW (e : Nat) : Bool := bitAt e 2
def pteX (e : Nat) : Bool := bitAt e 3
def pteS (e : Nat) : Bool := bitAt e 4
def pteMig (e : Nat) : Bool := bitAt e 5
def pteBr (e : Nat) : Bool := bitAt e 6
def pteGrain (e : Nat) : Nat := bits e 9 2
def ptePpn (e : Nat) : Nat := bits e 12 40
def pteFmt (e : Nat) : Nat := bits e 52 4
def pteGeo (e : Nat) : Nat := bits e 56 2

/-- Consecutive ones from bit 0 upward, at most `fuel` of them (R368). -/
def trailingOnes : Nat → Nat → Nat
  | 0, _ => 0
  | fuel + 1, w => if w % 2 = 1 then 1 + trailingOnes fuel (w / 2) else 0

/-- A leaf's page: its size and base, before the limits of R368 are checked. -/
def leafPage (e : Nat) : Nat × Nat :=
  if bitAt e 11 then
    let t := trailingOnes 40 (ptePpn e)
    (2 ^ (13 + t), ptePpn e / 2 ^ (t + 1) * 2 ^ (t + 1) * 4096)
  else (4096, ptePpn e * 4096)

/-- The span of an entry at a level (R368). -/
def levelSpan (level : Nat) : Nat := 2 ^ (39 - 9 * level)

/-- Whether an entry with V set is malformed at its level (R368); `limit` is the end of the home's memory. -/
def malformed (limit level e : Nat) : Bool :=
  if 0 < bits e 60 4 then true
  else if pteR e || pteW e || pteX e then
    let page := leafPage e
    level == 0 || 2 ^ 32 < page.1 || page.1 < levelSpan level || 512 * levelSpan level < page.1 ||
      limit < page.2 + page.1
  else
    0 < bits e 1 11 || 0 < bits e 52 8 || level == 3 || limit < ptePpn e * 4096 + 4096

/-- What a walk finds. -/
inductive WalkResult where
  | leaf (entry : Nat) (pte : Nat)
  | notPresent
  | malformed
  deriving DecidableEq, Repr

/-- Where a bridge physical offset lies: the first enabled window that holds it (R390); none in a variant without CXL
(R393). -/
def bpaWindow (s : State) (b bpa : Nat) : Option Nat :=
  (List.range 4).find? fun n =>
    let w := (s.bridgeReg b (0x208 + n)).toNat
    bitAt s.feature.toNat 5 && bitAt w 0 && bits w 12 13 * 2 ^ 30 ≤ bpa && bpa < (bits w 12 13 + bits w 25 13) * 2 ^ 30

/-- The flattened address of a physical offset of a home; none where a bridge has no window there (R391). -/
def physAddr (s : State) (l : Loc) (off : Nat) : Option Nat :=
  if l.bridge then
    (bpaWindow s l.home off).map fun n =>
      cxlBase l.home n + (off - bits (s.bridgeReg l.home (0x208 + n)).toNat 12 13 * 2 ^ 30)
  else some (dramBase l.home + off)

/-- The end of a home's memory: 24 GiB of DRAM, or 8 TiB of bridge physical offsets (R367, R390). -/
def homeLimit (l : Loc) : Nat := if l.bridge then 2 ^ 43 else 24 * 2 ^ 30

/-- The walk of R369 from a table's physical offset; the first number is the levels still to read. -/
def walkFrom (s : State) (l : Loc) : Nat → Nat → WalkResult
  | 0, _ => .malformed
  | left + 1, table =>
    let level := 3 - left
    match physAddr s l (table + 8 * bits l.off (39 - 9 * level) 9) with
    | none => .malformed
    | some a =>
      let e := s.num a 8
      if !pteV e then .notPresent
      else if malformed (homeLimit l) level e then .malformed
      else if pteR e || pteW e || pteX e then .leaf a e
      else walkFrom s l left (ptePpn e * 4096)

/-- The walk from the home's root: PTROOT of a die, CXLROOT of a bridge (R373, R390). -/
def walk (s : State) (l : Loc) : WalkResult :=
  let root := if l.bridge then s.bridgeReg l.home 0x20C else s.dieReg l.home 0x1D0
  walkFrom s l 4 (bits root.toNat 12 36 * 4096)

/-- What an access needs of its page (R367, R313, R318). -/
inductive Need where
  | read | write | exec | readWrite | either
  /-- A typed access, which the page's format may refuse (R370). -/
  | typedRead | typedWrite
  /-- A push, a probe or a harvest: translated, its permission settled when the write was granted (R372). -/
  | settled
  /-- The restore of a DROP, for which a migration of the page waits (R123). -/
  | restore
  deriving DecidableEq, Repr

def Need.granted : Need → Nat → Bool
  | .read, e | .typedRead, e => pteR e
  | .write, e | .typedWrite, e => pteW e
  | .exec, e => pteX e
  | .readWrite, e => pteR e && pteW e
  | .either, e => pteR e || pteW e
  | .settled, _ | .restore, _ => true

def Need.writes : Need → Bool
  | .write | .readWrite | .typedWrite => true
  | _ => false

def Need.typed : Need → Bool
  | .typedRead | .typedWrite => true
  | _ => false

/-- What the home NI answers (R370). -/
inductive NiAnswer where
  /-- The leaf, and the flattened address of the byte. -/
  | ok (pte : Nat) (phys : Nat)
  /-- Cause 0x06. -/
  | refused
  | notPresent
  /-- Held under MIG. -/
  | mig
  /-- A bridge window that is down: uncorrectable data (R391). -/
  | uncorrectable
  deriving DecidableEq, Repr

/-- The TLB entries of a home's NI. -/
def State.tlbOf (s : State) (l : Loc) : List TlbEntry := if l.bridge then (s.bridge l.home).tlb else (s.die l.home).tlb
def State.setTlb (s : State) (l : Loc) (t : List TlbEntry) : State :=
  if l.bridge then s.setBridge l.home { s.bridge l.home with tlb := t } else s.setDie l.home { s.die l.home with tlb := t }

def TlbEntry.covers (e : TlbEntry) (off : Nat) : Bool := e.base ≤ off && off < e.base + e.size

/-- Leaf translations an NI holds, and entries a lent bank holds (R371). -/
def tlbSize : Nat := 16384
def bankSize : Nat := 65536

/-- Banks lent to the TLB and able to be: not disabled by the defect map, not being reclaimed (R373, R397). -/
def DieSt.lentBanks (d : DieSt) : List Nat :=
  (List.range 32).filter fun b =>
    bitAt (d.reg 0x1D1).toNat b && !bitAt (d.fuse.get 0#64 13).toNat b && !d.reclaiming.contains b

/-- The first lent bank that has room for an entry (which bank takes one the manual leaves open: assumption log, entry 30). -/
def DieSt.roomBank (d : DieSt) : Option Nat :=
  d.lentBanks.find? fun b => (d.lent.filter fun e => e.1 == b).length < bankSize

/-- Adds an entry to the TLB; one that no longer fits moves to a lent bank, where one has room (R371). -/
def State.tlbAdd (s : State) (l : Loc) (e : TlbEntry) : State :=
  let t := s.tlbOf l ++ [e]
  if t.length ≤ tlbSize then s.setTlb l t
  else match t with
    | [] => s
    | old :: rest =>
      let s := s.setTlb l rest
      if l.bridge then s
      else
        let d := s.die l.home
        match d.roomBank with
        | some b => s.setDie l.home { d with lent := d.lent ++ [(b, old)] }
        | none => s

/-- Removes the entries of an NI and of its lent banks that a condition names. -/
def State.tlbDrop (s : State) (l : Loc) (p : TlbEntry → Bool) : State :=
  let s := s.setTlb l ((s.tlbOf l).filter fun e => !p e)
  if l.bridge then s
  else let d := s.die l.home; s.setDie l.home { d with lent := d.lent.filter fun e => !p e.2 }

/-- Looks an offset up in the TLB and then in the lent banks, which give an entry back to the TLB (R369, R371). -/
def State.tlbFind (s : State) (l : Loc) : Option TlbEntry × State :=
  match (s.tlbOf l).find? (·.covers l.off) with
  | some e => (some e, s)
  | none =>
    if l.bridge then (none, s)
    else
      let d := s.die l.home
      match d.lent.find? (·.2.covers l.off) with
      | none => (none, s)
      | some e =>
        let s := s.setDie l.home { d with lent := d.lent.filter (· != e) }
        (some e.2, s.tlbAdd l e.2)

/-- Sets A, and D for a write, in the entry and in its cached copy: what the cached copy has set is not set again, should software have
cleared it since (R370). -/
def State.setAccessed (s : State) (l : Loc) (e : TlbEntry) (write : Bool) : State :=
  let want : Dword := if write then 0x180#64 else 0x80#64
  if e.pte &&& want == want then s
  else
    let now := BitVec.ofNat 64 (s.num e.entry 8) ||| (want &&& ~~~e.pte)
    let s := s.setBytes e.entry (bytesOfNat 8 now.toNat)
    s.setTlb l ((s.tlbOf l).map fun x => if x == e then { x with pte := x.pte ||| want } else x)

/-- A walk's leaf as the TLB keeps it. -/
def tlbEntry (l : Loc) (a e : Nat) : TlbEntry :=
  let page := leafPage e
  { base := l.off / page.1 * page.1, size := page.1, pte := BitVec.ofNat 64 e, entry := a }

/-- Whether a page's format refuses a typed access: a reserved FMT, or a bad GEO of a format that the module has (R42, R270, R370); one
that it has not traps with its own cause before (R273). -/
def State.badFormat (s : State) (pte : Nat) : Bool :=
  let fmt := pteFmt pte
  let has := bitAt s.feature.toNat 3 && (fmt == 7 || bitAt s.feature.toNat 4)
  8 < fmt || (7 ≤ fmt && pteGeo pte != 1 && has)

/-- The checks of R370 against a leaf, after permissions have been settled. -/
def niFinish (s : State) (l : Loc) (need : Need) (e : TlbEntry) : NiAnswer × State :=
  let pte := e.pte.toNat
  if pteGrain pte = 3 || (need.typed && s.badFormat pte) then (.refused, s)
  else if pteMig pte && !(need == .restore && !l.bridge && bitAt (s.dieReg l.home 0x1DB).toNat 6) then (.mig, s)
  else
    let off := (leafPage pte).2 + l.off % e.size
    match physAddr s l off with
    | none => (.refused, s)
    | some a =>
      if l.bridge && !bitAt (s.bridgeReg l.home (0x208 + ((bpaWindow s l.home off).getD 0))).toNat 1 then
        (.uncorrectable, s)
      else (.ok pte a, s.setAccessed l e need.writes)

/-- The home NI's answer to an access (R369, R370, R372). A permission fault found through a cached entry is reported only
after a fresh walk has confirmed it. -/
def niAccess (s : State) (l : Loc) (secure : Bool) (need : Need) : NiAnswer × State :=
  let fresh (s : State) : NiAnswer × State :=
    match walk s l with
    | .notPresent => (.notPresent, s.tlbDrop l (·.covers l.off))
    | .malformed => (.refused, s.tlbDrop l (·.covers l.off))
    | .leaf a e =>
      let t := tlbEntry l a e
      let s := (s.tlbDrop l (·.covers l.off)).tlbAdd l t
      if pteS e && !secure then (.refused, s)
      else if !need.granted e then (.refused, s)
      else niFinish s l need t
  match s.tlbFind l with
  | (none, s) => fresh s
  | (some t, s) =>
    if pteS t.pte.toNat && !secure then (.refused, s)
    else if !need.granted t.pte.toNat then fresh s
    else niFinish s l need t

/-- The leaf of an address by a walk alone, where there is one (R375, R377). -/
def leafOf (s : State) (l : Loc) : Option TlbEntry :=
  match walk s l with
  | .leaf a e => some (tlbEntry l a e)
  | _ => none

/-- The world of a core's requests (R387): a sluice call carries its caller's world. -/
def State.secure (s : State) (core : Nat) : Bool :=
  if isRingmaster core then bitAt (s.bridgeReg 0 0x205).toNat (core - 16384)
  else if isSluice core then ((s.core core).running.map (·.secure)).getD false
  else (s.core core).secure

end Sys2Proof.Machine
end

