-- ==== Sys2Proof/Machine/Caches.lean ====
section
/-!
DEFINITION. The caches as they are built (R57, R58, R60, R397): frames, sets and ways, the copies that lie in them, what leaves when
one is full, and the residency ranges and classes by which the L2 admits a line (R66 to R69).
A cache's number is its place, and an L2 slice's follows the places; the set a frame lies in is the implementation's.
-/
namespace Sys2Proof.Machine

/-! ## Places of copies -/

def l1Place (core : Nat) : Nat := core
def ccPlace (cluster : Nat) : Nat := 32768 + cluster
def guestPlace (die : Nat) : Nat := 65536 + die
/-- The L1 instruction cache of a core. -/
def l1iPlace (core : Nat) : Nat := 131072 + core
def isL1Place (p : Nat) : Bool := p < 32768

def copyKey (place base : Nat) : Nat := place * 2 ^ 64 + base

/-- The number of an L2 slice among the caches. -/
def sliceCache (d slice : Nat) : Nat := 262144 + 16 * d + slice

/-- The L2 slice of an address (R58): the XOR of four fields of a physical offset, or of a guest line's GVA. -/
def sliceOf (a : Nat) : Nat := bits a 9 4 ^^^ bits a 13 4 ^^^ bits a 17 4 ^^^ bits a 21 4

/-- Frames of guest lines have numbers of their own in a slice. -/
def guestFrame (key : Nat) : Nat := 2 ^ 60 + key / 512

/-- The cache in which a place keeps a key, and the frame there: a 128-byte line of an L1, a 512-byte frame of any other. The L1
instruction cache has the L1 data cache's organisation (assumption log, entry 42). -/
def frameOf (p key : Nat) : Nat × Nat :=
  if isL1Place p || l1iPlace 0 ≤ p then (p, key / 128)
  else if p < guestPlace 0 then (p, key / 512)
  else (sliceCache (p - guestPlace 0) (sliceOf key), guestFrame key)

/-! ## Ways (R57, R60, R397, R398) -/

/-- A doubleword of a die's fused map but for its CRC: what it holds where the map has no defect, unless a fuse differs. -/
def State.fuseBody (s : State) (d i : Nat) : Dword :=
  (s.die d).fuse.get (if i = 0 then BitVec.ofNat 64 (0xDF64 + 2 ^ 16 + d * 2 ^ 24) else 0#64) i

/-- The ways of a cluster cache or an L2 slice that its die's map leaves, from way 15 downward; `first` is the doubleword at which
the map's halfwords for the cluster caches or the slices begin. -/
def State.waysLeft (s : State) (d first i : Nat) : List Nat :=
  let off := bits (s.fuseBody d (first + i / 4)).toNat (16 * (i % 4)) 16
  (List.range 16).reverse.filter fun w => !bitAt off w

/-- The ways of an L2 slice. -/
def State.sliceWays (s : State) (d slice : Nat) : List Nat := s.waysLeft d 9 slice

/-- L2 ways of a die that its map leaves to every slice (R398). -/
def State.l2Ways (s : State) (d : Nat) : Nat :=
  (List.range 16).foldl (fun m i => min m (s.sliceWays d i).length) 16

/-- Sets of a cache of 32 KiB in 128-byte lines, 2 MiB in 512-byte frames, or 4 MiB in 512-byte frames (R1, R57, R60). -/
def cacheSets (cache : Nat) : Nat :=
  if isL1Place cache || (l1iPlace 0 ≤ cache && cache < sliceCache 0 0) then 32 else if cache < sliceCache 0 0 then 256 else 512

/-- Ways of an L1, or of any other cache. -/
def cacheWays (cache : Nat) : Nat := if cacheSets cache = 32 then 8 else 16

/-- Bytes of a cache's line or frame (R57, R60). -/
def frameBytes (cache : Nat) : Nat := if cacheSets cache = 32 then 128 else 512

/-- The sectors of a frame that a grain of `size` bytes at a place in memory takes, as a mask. -/
def sectorMask (frame at_ size : Nat) : Nat := (2 ^ (size / 32) - 1) * 2 ^ (at_ % frame / 32)

/-- The frames of a cache that hold a way, the one most recently used first. -/
def State.placed (s : State) (cache : Nat) : List Frame := (s.frames.get [] cache).filter fun f => !f.leaving

/-- Those of them that lie in the set of a frame. -/
def State.setOf (s : State) (cache id : Nat) : List Frame :=
  (s.placed cache).filter fun f => Config.cacheSet cache f.id % cacheSets cache == Config.cacheSet cache id % cacheSets cache

/-- The first of some ways that none of some frames holds. -/
def freeWay (ways : List Nat) (fs : List Frame) : Option Nat := ways.find? fun w => !fs.any fun f => f.way == w

/-- A free way for a frame: one that no frame of the cache holds is free in every set, and else one of its own set. -/
def State.wayFor (s : State) (cache id : Nat) (ways : List Nat) : Option Nat :=
  match freeWay ways (s.placed cache) with
  | some w => some w
  | none => freeWay ways (s.setOf cache id)

/-! ## Residency (R66 to R69) -/

/-- Ways granted to range `n` (R67). -/
def State.granted (s : State) (d n : Nat) : Nat :=
  let enabled := fun i =>
    bitAt (s.dieReg d (0x188 + i)).toNat 0 &&
      bits (s.dieReg d (0x180 + i)).toNat 12 36 ≤ bits (s.dieReg d (0x188 + i)).toNat 12 36
  let asked := fun i => if enabled i then bits (s.dieReg d (0x190 + i)).toNat 0 4 else 0
  if asked n = 0 then 0
  else min (asked n) ((List.range n).foldl (fun left i => left - min (asked i) left) (s.l2Ways d - 1))

/-- Ways granted to the ranges below `n`. -/
def State.grantedBelow (s : State) (d n : Nat) : Nat := (List.range n).foldl (fun t i => t + s.granted d i) 0

/-- The ways of a slice that a range has, from way 15 downward in the order of the ranges. -/
def State.rangeWays (s : State) (d slice n : Nat) : List Nat :=
  ((s.sliceWays d slice).drop (s.grantedBelow d n)).take (s.granted d n)

/-- The ways of a slice that no range has. -/
def State.openWays (s : State) (d slice : Nat) : List Nat := (s.sliceWays d slice).drop (s.grantedBelow d 8)

/-- The lowest enabled range that holds the page of an offset (R67). -/
def State.rangeOf (s : State) (d off : Nat) : Option Nat :=
  let page := off / 4096
  (List.range 8).find? fun n =>
    let base := bits (s.dieReg d (0x180 + n)).toNat 12 36
    let lim := (s.dieReg d (0x188 + n)).toNat
    bitAt lim 0 && base ≤ bits lim 12 36 && base ≤ page && page ≤ bits lim 12 36

/-- What a request for a line of a die's own DRAM is admitted with (R67, R68): it fills a range's ways where it is retained, and
otherwise the ways no range has, as its page's class says. -/
def State.admittance (s : State) (d key off size cls : Nat) : Admission :=
  let slice := sliceOf off
  let range := s.rangeOf d off
  let counter := range.map (8 * slice + ·)
  let retained := range.any fun n =>
    0 < s.granted d n && (s.die d).rangeCount.get 0 (8 * slice + n) % 2 ^ bits (s.dieReg d (0x190 + n)).toNat 4 4 == 0
  if retained then
    { key := key, off := off, size := size, ways := s.rangeWays d slice (range.getD 0), last := false, keep := true, counter := counter }
  else { key := key, off := off, size := size, ways := s.openWays d slice, last := cls == 1, keep := cls != 2, counter := counter }

/-- The access counts in its range, in its slice (R67). -/
def State.countAccess (s : State) (d : Nat) (adm : Admission) : State :=
  match adm.counter with
  | none => s
  | some c => let x := s.die d; s.setDie d { x with rangeCount := x.rangeCount.put c (x.rangeCount.get 0 c + 1) }

/-! ## Frames -/

/-- Whether a cache has a frame. -/
def State.hasFrame (s : State) (cache id : Nat) : Bool := (s.frames.get [] cache).any fun f => f.id == id

/-- Whether a slice has a grain of its die's DRAM: the grain's frame with its sectors valid (R60). -/
def State.holdsGrain (s : State) (d off size : Nat) : Bool :=
  let m := sectorMask 512 off size
  (s.frames.get [] (sliceCache d (sliceOf off))).any fun f => f.id == off / 512 && f.valid &&& m == m

/-- Sectors of a frame become valid, in grains of a size, or invalid. -/
def State.setSectors (s : State) (cache id size mask : Nat) (on : Bool) : State :=
  { s with frames := s.frames.put cache ((s.frames.get [] cache).map fun (f : Frame) =>
      if f.id = id then { f with size := size, valid := if on then f.valid ||| mask else f.valid - (f.valid &&& mask) } else f) }

/-- A frame is used: in an L2 slice it is then the one most recently used. -/
def State.touch (s : State) (cache id : Nat) : State :=
  let fs := s.frames.get [] cache
  match fs.find? fun f => f.id == id with
  | none => s
  | some f =>
    if sliceCache 0 0 ≤ cache then { s with frames := s.frames.put cache (f :: fs.filter fun g => g.id != id) } else s

/-- The copies of a frame dropped, clean as an L1's are. -/
def State.dropFrame (s : State) (cache id : Nat) : State :=
  { s with
    copies := s.copies.filter fun e => frameOf (e.1 / 2 ^ 64) (e.1 % 2 ^ 64) != (cache, id),
    frames := s.frames.put cache ((s.frames.get [] cache).filter fun f => f.id != id) }

/-- A frame's way goes to another: an L1's line is dropped, and so is a line of the die's own DRAM, whose bytes the model keeps at
the home; any other frame is evicted by the step that this makes due, and holds its grains until then. -/
def State.vacate (s : State) (cache : Nat) (f : Frame) : State :=
  let fs := s.frames.get [] cache
  if cacheSets cache = 32 then s.dropFrame cache f.id
  else if sliceCache 0 0 ≤ cache && f.id < guestFrame 0 then
    { s with frames := s.frames.put cache (fs.filter fun g => g.id != f.id) }
  else
    let place := if sliceCache 0 0 ≤ cache then guestPlace ((cache - sliceCache 0 0) / 16) else cache
    { s with frames := s.frames.put cache (fs.map fun (g : Frame) => if g.id = f.id then { g with leaving := true } else g) }.dueAt
      .cacheEviction { Subject.nothing with place := place, addr := BitVec.ofNat 64 (f.id % guestFrame 0 * 512) }

/-- A frame enters a cache in a way it has been given. -/
def State.enterFrame (s : State) (cache : Nat) (f : Frame) (last : Bool) : State :=
  let fs := s.frames.get [] cache
  { s with frames := s.frames.put cache (if last then fs ++ [f] else f :: fs) }

/-- The frame that gives its way to another (R67): in an L2 slice the one least recently used, elsewhere any, a free value. -/
def State.victim (s : State) (cache : Nat) (set : List Frame) : Option Frame × State :=
  if sliceCache 0 0 ≤ cache then (set.getLast?, s)
  else
    let (i, s) := s.takeFree
    (set[(Config.freeDword i).toNat % set.length]?, s)

/-- A frame in a way, with nothing valid in it yet. -/
def Frame.fresh (id way : Nat) : Frame := { id := id, way := way, size := 32, valid := 0, leaving := false }

/-- A frame is brought into a cache that does not have it, in one of some ways of its set: a free one, or the victim's. -/
def State.bring (s : State) (cache id : Nat) (ways : List Nat) (last : Bool) : State :=
  if s.hasFrame cache id then s
  else match s.wayFor cache id ways with
    | some w => s.enterFrame cache (Frame.fresh id w) last
    | none =>
      match s.victim cache ((s.setOf cache id).filter fun f => ways.contains f.way) with
      | (none, s) => s
      | (some v, s) => (s.vacate cache v).enterFrame cache (Frame.fresh id v.way) last

/-- The frame of a copy is brought into its cache (R57, R58, R60). A guest line of class 2 is not kept: it leaves at once (R68). -/
def State.bringFor (s : State) (p key cls : Nat) : State :=
  let (cache, id) := frameOf p key
  if cacheSets cache = 32 then s.bring cache id (List.range 8) false
  else if p < guestPlace 0 then s.bring cache id (s.waysLeft ((p - ccPlace 0) / 16) 5 ((p - ccPlace 0) % 16)) false
  else
    let d := p - guestPlace 0
    if cls = 2 then
      if s.hasFrame cache id then s
      else (s.enterFrame cache (Frame.fresh id 16) true).vacate cache (Frame.fresh id 16)
    else s.bring cache id (s.openWays d (sliceOf key)) (cls == 1)

/-- The frame of a grain of a die's own DRAM is brought into its slice, where the L2 keeps the line, and is then the one most recently
used (R60, R67); a streaming line enters as the one least recently used (R68). The miss fills the grain and no more. -/
def State.bringHome (s : State) (d : Nat) (adm : Admission) : State :=
  let cache := sliceCache d (sliceOf adm.off)
  let id := adm.off / 512
  if s.holdsGrain d adm.off adm.size then s.touch cache id
  else if adm.keep then
    let had := s.hasFrame cache id
    let s := (s.bring cache id adm.ways adm.last).setSectors cache id adm.size (sectorMask 512 adm.off adm.size) true
    if had then s.touch cache id else s
  else s

/-! ## Copies -/

/-- The copy of a place that holds a byte, with its grain's base. A place holds a byte in one grain size. -/
def State.findCopy (s : State) (p key : Nat) : Option (Nat × Copy) :=
  [32, 128, 512].findSome? fun z =>
    match s.copies.find (copyKey p (key / z * z)) with
    | some c => if c.size == z then some (key / z * z, c) else none
    | none => none

/-- A copy put in a place, its frame brought in where the place does not have it (R57, R60). -/
def State.putCopy (s : State) (p base : Nat) (c : Copy) : State :=
  let (cache, id) := frameOf p base
  ({ s with copies := s.copies.put (copyKey p base) c }.bringFor p base c.cls).setSectors cache id c.size
    (sectorMask (frameBytes cache) base c.size) true

/-- Whether a copy lies in a frame of a cache. -/
def State.frameUsed (s : State) (cache id : Nat) : Bool :=
  s.copies.any fun e => frameOf (e.1 / 2 ^ 64) (e.1 % 2 ^ 64) == (cache, id)

/-- A frame in which nothing lies any more leaves its way. -/
def State.freeFrame (s : State) (cache id : Nat) : State :=
  if s.frameUsed cache id then s
  else { s with frames := s.frames.put cache ((s.frames.get [] cache).filter fun f => f.id != id) }

def State.dropCopy (s : State) (p base : Nat) : State :=
  let (cache, id) := frameOf p base
  match s.copies.find (copyKey p base) with
  | none => s
  | some c =>
    ({ s with copies := s.copies.erase (copyKey p base) }.setSectors cache id c.size
      (sectorMask (frameBytes cache) base c.size) false).freeFrame cache id

/-- A frame that cannot leave stays, and its cache chooses another victim for the way it had given up (R107). -/
def State.keepFrame (s : State) (p key : Nat) : State :=
  let (cache, id) := frameOf p key
  let fs := s.frames.get [] cache
  match fs.find? fun f => f.id == id && f.leaving with
  | none => s
  | some f =>
    let cls := match s.copies.find? fun e => e.1 / 2 ^ 64 == p && frameOf p (e.1 % 2 ^ 64) == (cache, id) with
      | some e => e.2.cls
      | none => 0
    ({ s with frames := s.frames.put cache (fs.filter fun f => f.id != id) }.bringFor p key cls).setSectors cache id f.size f.valid true

/-- Copies dropped by their places, with their frames. -/
def State.dropPlaces (s : State) (p : Nat → Bool) : State :=
  { s with
    copies := s.copies.filter fun e => !p (e.1 / 2 ^ 64),
    frames := s.frames.map fun e =>
      if sliceCache 0 0 ≤ e.1 then
        (e.1, e.2.filter fun f => !(guestFrame 0 ≤ f.id && p (guestPlace ((e.1 - sliceCache 0 0) / 16))))
      else if p e.1 then (e.1, []) else e }

end Sys2Proof.Machine
end

