-- ==== Sys2Proof/Machine/Float.lean ====
section
/-!
DEFINITION. Number formats and arithmetic (R37 to R47, R50): the formats' bits, the exact values they stand for, and the
one rounding of an exact real into a format. Everything is computed on whole numbers, exactly, and narrowed once.
-/
namespace Sys2Proof.Machine

/-- The floating formats of R37. -/
inductive FFmt where
  | fp32 | fp16 | bf16 | f8a | f8b
  deriving DecidableEq, Repr

/-- Bits of the exponent field (R37). -/
def FFmt.expBits : FFmt → Nat
  | .fp32 => 8 | .fp16 => 5 | .bf16 => 8 | .f8a => 5 | .f8b => 4

/-- Bits of the mantissa field (R37). -/
def FFmt.manBits : FFmt → Nat
  | .fp32 => 23 | .fp16 => 10 | .bf16 => 7 | .f8a => 2 | .f8b => 3

/-- The bias (R37). -/
def FFmt.bias : FFmt → Int
  | .fp32 => 127 | .fp16 => 15 | .bf16 => 127 | .f8a => 15 | .f8b => 7

/-- The width in bits (R37). -/
def FFmt.width (f : FFmt) : Nat := 1 + f.expBits + f.manBits

/-- The exponent of the last place of the subnormals: 1 - bias - manBits (R37). -/
def FFmt.qMin (f : FFmt) : Int := 1 - f.bias - (f.manBits : Int)

/-- The sign bit's weight. -/
def FFmt.signBit (f : FFmt) : Nat := 2 ^ (f.width - 1)

/-- The largest finite value's encoding (R38). -/
def FFmt.maxFinite : FFmt → Nat
  | .fp32 => 0x7F7FFFFF | .fp16 => 0x7BFF | .bf16 => 0x7F7F | .f8a => 0x7B | .f8b => 0x7E

/-- The encoding of +infinity; F8B has none and saturates (R38, R45). -/
def FFmt.infinity : FFmt → Nat
  | .fp32 => 0x7F800000 | .fp16 => 0x7C00 | .bf16 => 0x7F80 | .f8a => 0x7C | .f8b => 0x7E

/-- The canonical NaN (R38). -/
def FFmt.canonicalNaN : FFmt → Nat
  | .fp32 => 0x7FC00000 | .fp16 => 0x7E00 | .bf16 => 0x7FC0 | .f8a => 0x7E | .f8b => 0x7F

/-- Whether a format has infinities (R38). -/
def FFmt.hasInfinity : FFmt → Bool
  | .f8b => false
  | _ => true

/-- Whether FZN, and not FZ, governs a format's flushing (R46). -/
def FFmt.narrow : FFmt → Bool
  | .fp32 => false
  | _ => true

/-- The value an encoding stands for: a NaN, an infinity, or (-1)^neg x m x 2^e. -/
inductive FVal where
  | nan (signalling : Bool)
  | inf (neg : Bool)
  | fin (neg : Bool) (m : Nat) (e : Int)
  deriving DecidableEq, Repr

/-- The rounding modes (R45). -/
inductive Rm where
  | rne | rtz | rdn | rup | rmm
  deriving DecidableEq, Repr

/-- FCSR.RM's codes; 5 to 7 name no mode (R45). -/
def Rm.ofCode : Nat → Option Rm
  | 0 => some .rne | 1 => some .rtz | 2 => some .rdn | 3 => some .rup | 4 => some .rmm | _ => none

/-! ## The sticky flags, in the order of FCSR[14:8] (R48) -/

/-- A set of flags: bit i is FCSR[8 + i]. -/
abbrev FFlags := BitVec 7

def FFlags.nx : FFlags := 1#7
def FFlags.uf : FFlags := 2#7
def FFlags.of : FFlags := 4#7
def FFlags.dz : FFlags := 8#7
def FFlags.nv : FFlags := 16#7
def FFlags.sp : FFlags := 32#7
def FFlags.ec : FFlags := 64#7

/-- `f` where the condition holds, no flag otherwise. -/
def flagIf (c : Bool) (f : FFlags) : FFlags := if c then f else 0#7

/-! ## Decoding -/

/-- Whether an encoding is a NaN (R38). -/
def FFmt.isNaN (f : FFmt) (w : Nat) : Bool :=
  let mag := w % f.signBit
  if f.hasInfinity then decide (f.infinity < mag) else mag == f.canonicalNaN

/-- Whether a NaN encoding is signalling: the top mantissa bit clear, in FP32, FP16 and BF16 (R38). -/
def FFmt.isSignalling (f : FFmt) (w : Nat) : Bool :=
  match f with
  | .fp32 | .fp16 | .bf16 => f.isNaN w && !bitAt w (f.manBits - 1)
  | _ => false

/-- Whether an encoding is a subnormal (R37). -/
def FFmt.isSubnormal (f : FFmt) (w : Nat) : Bool :=
  let mag := w % f.signBit
  0 < mag && mag < 2 ^ f.manBits

/-- The value of an encoding (R37, R38); with `flush`, a subnormal reads as zero of its sign (R46). -/
def FFmt.value (f : FFmt) (flush : Bool) (w : Nat) : FVal :=
  let neg := bitAt w (f.width - 1)
  let mag := w % f.signBit
  if f.isNaN w then .nan (f.isSignalling w)
  else if f.hasInfinity && mag == f.infinity then .inf neg
  else
    let ex := mag / 2 ^ f.manBits
    let man := mag % 2 ^ f.manBits
    if ex == 0 then (if flush then .fin neg 0 0 else .fin neg man f.qMin)
    else .fin neg (2 ^ f.manBits + man) (f.qMin + ((ex - 1 : Nat) : Int))

/-! ## Rounding (R45, R46) -/

/-- Whether a magnitude with the given remainder goes up by one in the last place: `rem` of `2 ^ sh`, `odd` the last
place kept. -/
def roundsUp (mode : Rm) (neg odd : Bool) (rem sh : Nat) : Bool :=
  match mode with
  | .rne => decide (2 ^ sh < 2 * rem) || (decide (2 * rem = 2 ^ sh) && odd)
  | .rtz => false
  | .rdn => neg && rem != 0
  | .rup => !neg && rem != 0
  | .rmm => rem != 0 && decide (2 ^ sh ≤ 2 * rem)

/-- The magnitude m x 2^e rounded to a whole number of units 2^q, and whether that was inexact. -/
def roundAt (mode : Rm) (neg : Bool) (m : Nat) (e q : Int) : Nat × Bool :=
  if q ≤ e then (m * 2 ^ (e - q).toNat, false)
  else
    let sh := (q - e).toNat
    let n := m / 2 ^ sh
    let rem := m % 2 ^ sh
    (if roundsUp mode neg (n % 2 == 1) rem sh then n + 1 else n, rem != 0)

/-- What an overflow writes: the magnitude's encoding (R45). -/
def FFmt.overflowTo (f : FFmt) (mode : Rm) (neg : Bool) : Nat :=
  if !f.hasInfinity then f.maxFinite
  else match mode with
    | .rne | .rmm => f.infinity
    | .rtz => f.maxFinite
    | .rdn => if neg then f.infinity else f.maxFinite
    | .rup => if neg then f.maxFinite else f.infinity

/-- The sign applied to a magnitude's encoding. -/
def FFmt.signed (f : FFmt) (neg : Bool) (mag : Nat) : Nat := if neg then f.signBit + mag else mag

/-- The magnitude m x 2^e, m not zero, rounded once into the format: its encoding and the flags (R45, R46). -/
def FFmt.roundMag (f : FFmt) (mode : Rm) (flush neg : Bool) (m : Nat) (e : Int) : Nat × FFlags :=
  let top : Int := (m.log2 : Int) + e
  let q := top - (f.manBits : Int)
  let r := roundAt mode neg m e q
  let unbounded : Int := (q - f.qMin) * ((2 ^ f.manBits : Nat) : Int) + (r.1 : Int)
  if (f.maxFinite : Int) < unbounded then
    (f.signed neg (f.overflowTo mode neg), FFlags.of ||| FFlags.nx)
  else
    let tiny := decide (unbounded < ((2 ^ f.manBits : Nat) : Int))
    if tiny && flush then (f.signed neg 0, FFlags.uf ||| FFlags.nx)
    else
      let q' := max q f.qMin
      let r' := roundAt mode neg m e q'
      let mag : Int := (q' - f.qMin) * ((2 ^ f.manBits : Nat) : Int) + (r'.1 : Int)
      (f.signed neg mag.toNat, flagIf r'.2 FFlags.nx ||| flagIf (tiny && r'.2) FFlags.uf)

/-- A value rounded once into a format: the encoding and the flags (R45 to R47). -/
def FFmt.round (f : FFmt) (mode : Rm) (flush : Bool) (v : FVal) : Nat × FFlags :=
  match v with
  | .nan signalling => (f.canonicalNaN, flagIf signalling FFlags.nv)
  | .inf neg =>
    if f.hasInfinity then (f.signed neg f.infinity, 0#7)
    else (f.signed neg f.maxFinite, FFlags.of ||| FFlags.nx)
  | .fin neg 0 _ => (f.signed neg 0, 0#7)
  | .fin neg m e => f.roundMag mode flush neg m e

/-! ## Exact arithmetic on values -/

/-- The signed whole number of units 2^q in a finite value, q at most its exponent. -/
def FVal.unitsAt (q : Int) : FVal → Int
  | .fin neg m e => let u := (m : Int) * ((2 ^ (e - q).toNat : Nat) : Int); if neg then -u else u
  | _ => 0

/-- The smallest exponent among finite terms. -/
def minExp : List FVal → Int
  | [] => 0
  | [.fin _ _ e] => e
  | .fin _ _ e :: ts => min e (minExp ts)
  | _ :: ts => minExp ts

def FVal.isNan : FVal → Bool
  | .nan _ => true
  | _ => false

def FVal.isSignalling : FVal → Bool
  | .nan s => s
  | _ => false

def FVal.isInf (neg : Bool) : FVal → Bool
  | .inf n => n == neg
  | _ => false

def FVal.neg? : FVal → Bool
  | .fin n _ _ => n
  | .inf n => n
  | .nan _ => false

def FVal.isZero : FVal → Bool
  | .fin _ m _ => m == 0
  | _ => false

/-- The value with its sign turned; a NaN stays as it is. -/
def FVal.negate : FVal → FVal
  | .fin n m e => .fin (!n) m e
  | .inf n => .inf (!n)
  | .nan s => .nan s

/-- The exact sum of terms, exceptional values decided first (R55; R45 for the sign of an exact zero sum).
A result that is an invalid operation is a NaN that raises NV (R47). -/
def sumExact (mode : Rm) (terms : List FVal) : FVal :=
  if terms.any FVal.isNan then .nan (terms.any FVal.isSignalling)
  else
    let pos := terms.any (FVal.isInf false)
    let neg := terms.any (FVal.isInf true)
    if pos && neg then .nan true
    else if pos then .inf false
    else if neg then .inf true
    else
      let q := minExp terms
      let total : Int := terms.foldl (fun acc t => acc + t.unitsAt q) 0
      if total = 0 then
        if terms.all FVal.neg? then .fin true 0 0
        else if terms.all (fun t => !t.neg?) then .fin false 0 0
        else .fin (mode == .rdn) 0 0
      else .fin (total < 0) total.natAbs q

/-- The exact product; zero times infinity is invalid (R47). -/
def mulExact (a b : FVal) : FVal :=
  match a, b with
  | .nan s, .nan t => .nan (s || t)
  | .nan s, _ => .nan s
  | _, .nan t => .nan t
  | .inf n, .inf k => .inf (n != k)
  | .inf n, .fin k m _ => if m = 0 then .nan true else .inf (n != k)
  | .fin k m _, .inf n => if m = 0 then .nan true else .inf (n != k)
  | .fin n m e, .fin k l f => .fin (n != k) (m * l) (e + f)

/-- The quotient of two non-zero finite magnitudes, to more places than any format keeps, its last place odd where places
were cut off, so that one rounding of it is the rounding of the exact quotient. -/
def divMag (m : Nat) (e : Int) (l : Nat) (f : Int) : Nat × Int :=
  let k := 66 + l.log2
  let q := m * 2 ^ k / l
  let rem := m * 2 ^ k % l
  (2 * q + (if rem = 0 then 0 else 1), e - f - (k : Int) - 1)

/-- The whole square root of `m`, bit by bit from bit `b` down. -/
def isqrtFrom : Nat → Nat → Nat → Nat
  | 0, m, r => if (r + 1) * (r + 1) ≤ m then r + 1 else r
  | b + 1, m, r => if (r + 2 ^ (b + 1)) * (r + 2 ^ (b + 1)) ≤ m then isqrtFrom b m (r + 2 ^ (b + 1)) else isqrtFrom b m r

/-- The square root of a non-zero magnitude, its last place odd where places were cut off. -/
def sqrtMag (m : Nat) (e : Int) : Nat × Int :=
  let odd := e % 2 ≠ 0
  let m1 := if odd then 2 * m else m
  let e1 := if odd then e - 1 else e
  let m2 := m1 * 2 ^ 80
  let r := isqrtFrom 60 m2 0
  (2 * r + (if r * r = m2 then 0 else 1), e1 / 2 - 40 - 1)

/-- A value compared with another, neither a NaN: less, equal or greater. -/
def compareVal (a b : FVal) : Ordering :=
  let key : FVal → Int × Bool := fun v => match v with
    | .inf true => (-1, true)
    | .inf false => (1, true)
    | _ => (0, false)
  match key a, key b with
  | (x, true), (y, true) => compare x y
  | (x, true), (_, false) => if x < 0 then .lt else .gt
  | (_, false), (y, true) => if y < 0 then .gt else .lt
  | (_, false), (_, false) =>
    let q := minExp [a, b]
    compare (a.unitsAt q) (b.unitsAt q)

/-! ## Integers -/

/-- A value rounded to an integer of `width` bits, two's complement; a NaN gives 0, both with NV (R45, R47, R50). -/
def roundToInt (mode : Rm) (width : Nat) (v : FVal) : Nat × FFlags :=
  let hi : Int := 2 ^ (width - 1) - 1
  let lo : Int := -(2 ^ (width - 1))
  let enc : Int → Nat := fun i => (i % (2 ^ width : Nat)).toNat
  match v with
  | .nan _ => (0, FFlags.nv)
  | .inf neg => (enc (if neg then lo else hi), FFlags.nv)
  | .fin neg m e =>
    let r := roundAt mode neg m e 0
    let i : Int := if neg then -(r.1 : Int) else (r.1 : Int)
    if hi < i then (enc hi, FFlags.nv)
    else if i < lo then (enc lo, FFlags.nv)
    else (enc i, flagIf r.2 FFlags.nx)

/-- The exact value of an integer. -/
def FVal.ofInt (i : Int) : FVal := .fin (decide (i < 0)) i.natAbs 0

/-- A finite value scaled by 2^k. -/
def FVal.scale (k : Int) : FVal → FVal
  | .fin n m e => .fin n m (e + k)
  | v => v

/-! ## DP8 (R39, R40) -/

/-- One term of a DP8 byte in units of 2^-6: (-1)^s x 2^-c, absent when c is 7. -/
def dp8Term (s : Bool) (c : Nat) : Option Int :=
  if c = 7 then none else some (if s then -((2 ^ (6 - c) : Nat) : Int) else ((2 ^ (6 - c) : Nat) : Int))

/-- The unscaled value of a DP8 byte (R39), in units of 2^-6. -/
def dp8Value (b : Nat) : FVal :=
  let s1 := bitAt b 7
  match dp8Term s1 (bits b 4 3), dp8Term (bitAt b 3) (bits b 0 3) with
  | none, none => .fin s1 0 (-6)
  | some t, none => .fin (decide (t < 0)) t.natAbs (-6)
  | none, some t => .fin (decide (t < 0)) t.natAbs (-6)
  | some t, some u => .fin (decide (t + u < 0)) (t + u).natAbs (-6)

/-- A DP8 element under its block's scale byte (R39). -/
def dp8Scaled (scale b : Nat) : FVal :=
  if scale = 0xFF then .nan false else (dp8Value b).scale ((scale : Int) - 127)

/-- The members of the DP8 set, magnitudes in units of 2^-6, rising. -/
def dp8Members : List Nat :=
  (List.range 129).filter fun n =>
    n == 0 ||
    (List.range 7).any fun i =>
      n == 2 ^ i || (List.range 7).any fun j => n == 2 ^ i + 2 ^ j || n + 2 ^ j == 2 ^ i

/-- The canonical encoding of the member `n` x 2^-6 with the given sign (R40). -/
def dp8Encode (neg : Bool) (n : Nat) : Nat :=
  let s := if neg then 0x80 else 0
  let s2 := if neg then 0x08 else 0
  let t2 := if neg then 0 else 0x08
  if n = 0 then s + 0x77
  else match (List.range 7).find? fun c => n == 2 ^ (6 - c) with
    | some c => s + c * 16 + 7
    | none =>
      let pairs := (List.range 7).flatMap fun c1 => ((List.range 7).filter (c1 ≤ ·)).map fun c2 => (c1, c2)
      match pairs.find? fun p => n == 2 ^ (6 - p.1) + 2 ^ (6 - p.2) with
      | some p => s + p.1 * 16 + s2 + p.2
      | none =>
        match pairs.find? fun p => n + 2 ^ (6 - p.2) == 2 ^ (6 - p.1) with
        | some p => s + p.1 * 16 + t2 + p.2
        | none => s + 0x77

/-- A finite value, already divided by its block scale, rounded into DP8 (R40): the byte and the flags.
An infinity saturates as an overflow (R44). -/
def dp8Round (mode : Rm) (v : FVal) : Nat × FFlags :=
  match v with
  | .nan _ => (0x77, 0#7)
  | .inf neg => (dp8Encode neg 128, FFlags.of ||| FFlags.nx)
  | .fin neg m e =>
    -- magnitudes compared in units of 2^q, q at most -6 and at most e
    let q := min e (-6)
    let v' := m * 2 ^ (e - q).toNat
    let unit := 2 ^ (-6 - q).toNat
    if 128 * unit < v' then (dp8Encode neg 128, FFlags.of ||| FFlags.nx)
    else
      let lo := (dp8Members.filter fun n => decide (n * unit ≤ v')).foldl max 0
      let hi := (dp8Members.filter fun n => decide (v' ≤ n * unit)).foldl min 128
      if lo * unit = v' then (dp8Encode neg lo, 0#7)
      else
        let dl := v' - lo * unit
        let dh := hi * unit - v'
        let pick := match mode with
          | .rtz => lo
          | .rdn => if neg then hi else lo
          | .rup => if neg then lo else hi
          | .rne => if dl ≤ dh then lo else hi
          | .rmm => if dl < dh then lo else hi
        (dp8Encode neg pick, FFlags.nx)

/-! ## Block scales (R44) -/

/-- The largest exponent R44 gives a scaled format. -/
inductive ScaledFmt where
  | f8a | f8b | int8 | dp8
  deriving DecidableEq, Repr

def ScaledFmt.emax : ScaledFmt → Int
  | .f8a => 15 | .f8b => 8 | .int8 => 6 | .dp8 => 0

/-- floor(log2) of a non-zero finite magnitude. -/
def FVal.log2 : FVal → Int
  | .fin _ m e => (m.log2 : Int) + e
  | _ => 0

/-- The larger of two finite magnitudes' floor(log2), none for zeros and non-finite values. -/
def maxLog2 (vs : List FVal) : Option Int :=
  vs.foldl (fun acc v => match v with
    | .fin _ 0 _ => acc
    | .fin .. => match acc with
      | none => some v.log2
      | some a => some (max a v.log2)
    | _ => acc) none

/-- The scale byte R44 chooses for a block. -/
def chooseScale (f : ScaledFmt) (vs : List FVal) : Nat :=
  if vs.any FVal.isNan then 0xFF
  else match maxLog2 vs with
    | none => 127
    | some l => (min (max (l - f.emax + 127) 0) 254).toNat

/-- One element rounded into a scaled format, its value already divided by the scale (R44, R45). -/
def ScaledFmt.round (f : ScaledFmt) (mode : Rm) (fzn : Bool) (v : FVal) : Nat × FFlags :=
  match f with
  | .f8a => FFmt.f8a.round mode fzn v
  | .f8b => FFmt.f8b.round mode fzn v
  | .int8 => roundToInt mode 8 v
  | .dp8 => dp8Round mode v

/-- The byte every element of a NaN block is written as (R44). -/
def ScaledFmt.zeroByte : ScaledFmt → Nat
  | .dp8 => 0x77
  | _ => 0

/-- A typed store's block: the scale byte, the element bytes in order, and the flags (R44). -/
def encodeBlock (f : ScaledFmt) (mode : Rm) (fzn : Bool) (vs : List FVal) : Nat × List Nat × FFlags :=
  let e := chooseScale f vs
  if e = 0xFF then
    (0xFF, vs.map fun _ => f.zeroByte, flagIf (vs.any FVal.isSignalling) FFlags.nv)
  else
    let rs := vs.map fun v => f.round mode fzn (v.scale (127 - (e : Int)))
    (e, rs.map Prod.fst, rs.foldl (fun acc r => acc ||| r.2) 0#7)

end Sys2Proof.Machine
end

