-- ==== Sys2Proof/Machine/Reduce.lean ====
section
/-!
DEFINITION. The combining operations that memory itself performs: AMO and RED (R181, R311), the Brine tags (R101, R102),
and the merge tree (R105). Values are numbers below 2^(8n).
-/
namespace Sys2Proof.Machine

/-- A binary operation on floating encodings under R102: to nearest even, nothing flushed, no flag. -/
def faddRne (f : FFmt) (a b : Nat) : Nat :=
  (f.round .rne false (sumExact .rne [f.value false a, f.value false b])).1

/-- The order of R102 on encodings that are no NaN: -0 below +0. -/
def fltOrdered (f : FFmt) (a b : Nat) : Bool :=
  match compareVal (f.value false a) (f.value false b) with
  | .lt => true
  | .gt => false
  | .eq => bitAt a (f.width - 1) && !bitAt b (f.width - 1)

/-- Minimum or maximum of two encodings under R102: a NaN operand gives the canonical NaN. -/
def fpick (f : FFmt) (largest : Bool) (a b : Nat) : Nat :=
  if f.isNaN a || f.isNaN b then f.canonicalNaN
  else if fltOrdered f a b then (if largest then b else a)
  else (if largest then a else b)

/-- The signed minimum or maximum of two `w`-bit numbers. -/
def spick (w : Nat) (largest : Bool) (a b : Nat) : Nat :=
  if signedOfNat w a < signedOfNat w b then (if largest then b else a) else (if largest then a else b)

/-- Bytes of a list from place `off` on replaced by those of another. -/
def overwrite (data : List Byte) (off : Nat) (bs : List Byte) : List Byte :=
  data.take off ++ bs ++ data.drop (off + bs.length)

/-- The number in `n` bytes of a list at place `off`. -/
def numAt (data : List Byte) (off n : Nat) : Nat := natOfBytes ((data.drop off).take n)

/-- One round of the pairwise tree of R105: an odd last entry passes up unchanged. -/
def pairUp {α : Type} (op : α → α → α) : List α → List α
  | a :: b :: r => op a b :: pairUp op r
  | [a] => [a]
  | [] => []

/-- The pairwise tree of R105 over a list; none where it is empty. `rounds` bounds its depth. -/
def treeOf {α : Type} (op : α → α → α) : Nat → List α → Option α
  | _, [] => none
  | _, [a] => some a
  | 0, a :: _ => some a
  | rounds + 1, l => treeOf op rounds (pairUp op l)

end Sys2Proof.Machine

namespace Sys2Proof
open Sys2Proof.Machine

/-- The operation of AMO or RED on `w`-bit numbers (R311). -/
def AmoOp.apply (op : AmoOp) (w old operand : Nat) : Nat :=
  match op with
  | .swap => operand
  | .add => (old + operand) % 2 ^ w
  | .and => old &&& operand
  | .or => old ||| operand
  | .xor => old ^^^ operand
  | .min => spick w false old operand
  | .max => spick w true old operand
  | .minu => Nat.min old operand
  | .maxu => Nat.max old operand
  | .fadd => faddRne .fp32 old operand

/-- Whether two REDs of an operation merge in a mesh router (R92). -/
def AmoOp.merges : AmoOp → Bool
  | .swap | .fadd => false
  | _ => true

def OpSize.bytes : OpSize → Nat
  | .w => 4
  | .d => 8

def Size.bytes : Size → Nat
  | .b => 1
  | .h => 2
  | .w => 4
  | .d => 8

/-- The element size of a Brine tag, in bytes (R101). -/
def BrineTag.bytes : BrineTag → Nat
  | .addD | .minD | .maxD | .minuD | .maxuD | .and | .or | .xor => 8
  | _ => 4

/-- The identity a partial's elements start with (R101). -/
def BrineTag.identity : BrineTag → Nat
  | .addW | .addD | .maxuW | .maxuD | .or | .xor => 0
  | .minW => 0x7FFFFFFF
  | .maxW => 0x80000000
  | .minuW => 0xFFFFFFFF
  | .minD => 0x7FFFFFFFFFFFFFFF
  | .maxD => 0x8000000000000000
  | .minuD | .and => 0xFFFFFFFFFFFFFFFF
  | .faddS => 0x80000000
  | .faddHf2 => 0x80008000
  | .fminS => 0x7F800000
  | .fmaxS => 0xFF800000

/-- One combining step of a tag (R101, R102). -/
def BrineTag.apply (t : BrineTag) (a b : Nat) : Nat :=
  match t with
  | .addW => (a + b) % 2 ^ 32
  | .addD => (a + b) % 2 ^ 64
  | .minW => spick 32 false a b
  | .maxW => spick 32 true a b
  | .minuW | .minuD => Nat.min a b
  | .maxuW | .maxuD => Nat.max a b
  | .minD => spick 64 false a b
  | .maxD => spick 64 true a b
  | .and => a &&& b
  | .or => a ||| b
  | .xor => a ^^^ b
  | .faddS => faddRne .fp32 a b
  | .faddHf2 => faddRne .fp16 (a % 2 ^ 16) (b % 2 ^ 16) + 2 ^ 16 * faddRne .fp16 (a / 2 ^ 16) (b / 2 ^ 16)
  | .fminS => fpick .fp32 false a b
  | .fmaxS => fpick .fp32 true a b

/-- Two byte lists combined element by element, `fuel` elements at most. -/
def BrineTag.combineFrom (t : BrineTag) : Nat → List Byte → List Byte → List Byte
  | 0, _, _ => []
  | fuel + 1, a, b =>
    bytesOfNat t.bytes (t.apply (natOfBytes (a.take t.bytes)) (natOfBytes (b.take t.bytes))) ++
      BrineTag.combineFrom t fuel (a.drop t.bytes) (b.drop t.bytes)

/-- Two grains combined element by element. -/
def BrineTag.combine (t : BrineTag) (a b : List Byte) : List Byte := t.combineFrom (a.length / t.bytes) a b

/-- The identity partial of a grain of `size` bytes (R101). -/
def BrineTag.identityData (t : BrineTag) (size : Nat) : List Byte :=
  (List.replicate (size / t.bytes) (bytesOfNat t.bytes t.identity)).flatten

end Sys2Proof
end

