-- ==== Sys2Proof/Machine/Coherence.lean ====
section
/-!
DEFINITION. Global and `.lw` memory (R56 to R60, R74 to R93, R412): the copies of a grain below its home, the times of the
logical leases, weak and strong accesses, atomics, pushes and releases; and what the home does before an access:
shadows (R113), harvests (R104 to R107), the holds of a drop (R119) and of the time horizon (R87).
An access that finds its home free is performed when its instruction is; one that must wait there holds its instruction, which is
then taken again (assumption log, entry 6).
-/
namespace Sys2Proof.Machine

/-! ## Who accesses, and what -/

/-- A requester: the levels it reaches memory through, and how it is named in dirtier masks (R89, R94). -/
structure Agent where
  /-- The core whose L1 it uses, if it uses one. -/
  l1 : Option Nat
  /-- The cluster cache it uses, numbered over the module. -/
  cc : Option Nat
  /-- Its die; none on a bridge. -/
  die : Option Nat
  /-- Its bit in a cluster cache's dirtier masks, and in a guest copy's. -/
  ccBit : Nat
  dieBit : Nat
  lease : Nat
  secure : Bool
  /-- The port at which it reaches the slices of its die, where that is no mesh link, and the core whose link it is otherwise (R88). -/
  port : Option Nat := none
  mesh : Nat := 0
  deriving DecidableEq, Repr

/-- The agent a core's context is. Ringmaster cores have no data caches (assumption log, entry 10). -/
def State.coreAgent (s : State) (k : Nat) : Agent :=
  let c := k / 16
  let lease := (s.ctxAt k).lease.toNat
  let secure := s.secure c
  if isArith c then
    { l1 := some c, cc := some (clusterOf c), die := some (dieOf c), ccBit := slotOf c, dieBit := clusterOf c % 16,
      lease := lease, secure := secure, mesh := c }
  else if isSluice c then
    { l1 := none, cc := none, die := some (dieOf c), ccBit := 16, dieBit := 16, lease := lease, secure := secure, port := some 6 }
  else { l1 := none, cc := none, die := none, ccBit := 16, dieBit := 16, lease := lease, secure := secure }

/-- The agent an engine operation is (R94): at its cluster, or, for a collective, at its die. -/
def EngOp.agent (o : EngOp) : Agent :=
  match o.kind with
  | .coll _ | .slcall =>
    { l1 := none, cc := none, die := some (dieOf o.core), ccBit := 16, dieBit := 16, lease := o.lease, secure := o.secure,
      port := some (if o.kind == .slcall then 6 else 5) }
  | _ =>
    { l1 := none, cc := some (clusterOf o.core), die := some (dieOf o.core), ccBit := 16, dieBit := clusterOf o.core % 16,
      lease := o.lease, secure := o.secure, port := some 6 }

/-- One piece of an access, within a 32-byte sector. -/
structure Site where
  /-- The first byte, whatever its spelling; the key of copies. -/
  key : Nat
  gva : Dword
  /-- The trap value of the access it belongs to (R353). -/
  val : Dword
  /-- The die whose local window is accessed; none for a global access. -/
  lw : Option Nat
  loc : Loc
  deriving DecidableEq, Repr

/-- A global piece; none where the address routes nowhere (R366). -/
def globalSite (s : State) (gva val : Dword) : Option Site :=
  (route s gva).map fun l => { key := l.key, gva := gva, val := val, lw := none, loc := l }

/-- A piece of a die's local window. -/
def lwSite (d : Nat) (off val : Dword) : Site :=
  { key := 2 ^ 60 + d * 2 ^ 48 + off.toNat, gva := off, val := val, lw := some d,
    loc := { bridge := false, home := d, off := off.toNat } }

/-- An access of `n` bytes from byte `a`, cut at 32-byte boundaries: offsets and lengths. -/
def piecesFrom : Nat → Nat → Nat → Nat → List (Nat × Nat)
  | 0, _, _, _ => []
  | fuel + 1, a, off, n =>
    if n = 0 then []
    else
      let len := min n (32 - (a + off) % 32)
      (off, len) :: piecesFrom fuel a (off + len) (n - len)

def pieces (a n : Nat) : List (Nat × Nat) := piecesFrom (n / 32 + 2) a 0 n

/-! ## Levels -/

/-- The levels between an agent and a home, nearest first (R56). -/
def Agent.levels (a : Agent) (t : Site) : List Nat :=
  let guest := match a.die with
    | some d => if t.lw.isNone && (t.loc.bridge || t.loc.home != d) then [guestPlace d] else []
    | none => []
  (a.l1.map l1Place).toList ++ (a.cc.map ccPlace).toList ++ guest

/-- How many levels lie below the point of coherence of a scope (R75). -/
def Agent.poc (a : Agent) (t : Site) (scope : Scope) : Nat :=
  let all := (a.levels t).length
  let l1 := a.l1.toList.length
  match scope with
  | .core | .clu => if a.cc.isSome then l1 else all - (if all = l1 then 0 else 1)
  | .die => if l1 + a.cc.toList.length < all then all - 1 else all
  | .mod | .sys => all

/-- Bits `off` to `off + n - 1`. -/
def maskOf (off n : Nat) : Nat := onesBelow n * 2 ^ off
/-- The bits of `m` outside a mask. -/
def clearMask (m mask : Nat) : Nat := m - (m &&& mask)

/-- Bytes of `old` where the mask is set, of `new` elsewhere. -/
def keepMasked : List Byte → List Byte → Nat → List Byte
  | o :: os, n :: ns, m => (if m % 2 = 1 then o else n) :: keepMasked os ns (m / 2)
  | _, ns, _ => ns

/-- A copy that takes another's bytes and times, its own dirty bytes kept (R85, R89), and with them the time they may have been given
here (R86). -/
def Copy.takeFrom (c u : Copy) : Copy :=
  { c with
    data := keepMasked c.data u.data c.dirty,
    wts := if c.dirty = 0 then u.wts else max c.wts u.wts, rts := if c.dirty = 0 then u.rts else max c.rts u.rts,
    bad := (c.bad &&& c.dirty) + clearMask u.bad c.dirty }

/-- What a copy below keeps when it is renewed by an upper copy: only the lease where nothing was written (R85). -/
def Copy.renewFrom (c u : Copy) : Copy := if c.wts = u.wts then { c with rts := max c.rts u.rts } else c.takeFrom u

/-- The `z` bytes from `at_` of what a copy of the grain at `base` has, a copy of another grain size. -/
def Copy.piece (c : Copy) (base at_ z : Nat) : Copy :=
  let cut := fun (m : Nat) => if base ≤ at_ then bits m (at_ - base) z else m * 2 ^ (base - at_) % 2 ^ z
  let data := if base ≤ at_ then c.data.drop (at_ - base) else List.replicate (base - at_) 0#8 ++ c.data
  { c with
    size := z, data := data.take z ++ List.replicate (z - (data.take z).length) 0#8, dirty := cut c.dirty, bad := cut c.bad }

/-- The bases of the grains of `z` bytes that a grain of another size meets. -/
def grainsOf (base size z : Nat) : List Nat :=
  if size ≤ z then [base / z * z] else (List.range (size / z)).map fun i => base + z * i

/-- A grain as a place comes to hold it in a size in which it did not: the dirty bytes that the place has of it in other sizes
are kept, and those copies leave (R59, R85). -/
def State.regrain (s : State) (p base : Nat) (u : Copy) : Copy × State :=
  let old := s.copies.filter fun e =>
    let k := e.1 % 2 ^ 64
    e.1 / 2 ^ 64 == p && e.2.size != u.size && k < base + u.size && base < k + e.2.size
  old.foldl (fun r e =>
    let k := e.1 % 2 ^ 64
    let mine := e.2.piece k base u.size
    let c : Copy := { r.1 with
      data := keepMasked mine.data r.1.data mine.dirty, bad := clearMask r.1.bad mine.dirty + (mine.bad &&& mine.dirty),
      dirty := r.1.dirty ||| mine.dirty, dirtier := if mine.dirty = 0 then r.1.dirtier else r.1.dirtier ||| mine.dirtier,
      maxPts := if mine.dirty = 0 then r.1.maxPts else max r.1.maxPts mine.maxPts }
    let rest := (grainsOf k e.2.size u.size).filterMap fun b =>
      let q := e.2.piece k b u.size
      if b = base || q.dirty = 0 then none else some (b, q)
    (c, rest.foldl (fun s q => s.putCopy p q.1 q.2) (r.2.dropCopy p k))) (u, s)

/-- What an L1 holds of a grain: a 512-byte grain by the sectors read, anything else whole (R57). -/
def Copy.forL1 (u : Copy) (base key : Nat) : Nat × Copy :=
  if u.size = 512 then
    let off := key / 32 * 32 - base
    (key / 32 * 32,
      { u with
        size := 32, data := (u.data.drop off).take 32, dirty := 0, dirtier := 0, maxPts := 0, grant := false,
        bad := bits u.bad off 32 })
  else (base, { u with dirty := 0, dirtier := 0, maxPts := 0, grant := false })

/-- A fresh copy of what an upper level serves, as a place holds it. -/
def Copy.forPlace (u : Copy) (p base key : Nat) : Nat × Copy :=
  if isL1Place p then u.forL1 base key
  else (base, { u with dirty := 0, dirtier := 0, maxPts := 0, grant := false })

/-! ## The home -/

/-- A grain at its home. -/
structure Home where
  /-- The flattened address of its first byte. -/
  base : Nat
  /-- The key of its first byte. -/
  key : Nat
  size : Nat
  pte : Nat
  site : Site
  deriving DecidableEq, Repr

/-- A home's number among hold queues and fault records: a die, or 64 + bridge. -/
def Loc.place (l : Loc) : Nat := if l.bridge then 64 + l.home else l.home

/-- Holds an access at its home. -/
def holdAt {α : Type} (t : Site) : Mach α := throw (.hold (.home t.loc.place t.gva))

/-- An access to a page that is absent, with no unit that it could abort, is held at its home: its fault record is written once, as soon
as the queue has room (R374). `die` and `ctx` name the requester in it. -/
def holdAbsent {α : Type} (gva : Dword) (home : Nat) (fetch write : Bool) (core die ctx : Nat) : Mach α := do
  if (← get).faultQueueFull home then throw (.hold (.home home gva))
  modify fun s => s.faultRecord home gva 1 fetch write core die ctx 0#64
  throw (.hold (.absent home gva))

/-- The grain of a piece at its home, translated and checked (R59, R369, R370, R374, R376, R391). -/
def homeOf (a : Agent) (t : Site) (need : Need) (fetch : Bool := false) : Mach Home := do
  match t.lw with
  | some d =>
    let off := t.loc.off / 128 * 128
    return { base := dramBase d + off, key := t.key / 128 * 128, size := 128, pte := 0, site := t }
  | none =>
    let secure := a.secure || need == .settled
    let (ans, s) := niAccess (← get) t.loc secure need
    set s
    match ans with
    | .ok pte phys =>
      let z := 32 * 4 ^ pteGrain pte
      return { base := phys / z * z, key := t.key / z * z, size := z, pte := pte, site := t }
    | .refused => trap 0x06 t.val
    | .notPresent =>
      throw (.notPresent t.gva t.val (if t.loc.bridge then 16 * t.loc.home else t.loc.home) fetch need.writes)
    | .mig => holdAt t
    | .uncorrectable => trap 0x0E t.val

/-- Grains a booth core keeps times of (R93). -/
def boothGrains : Nat := 65536

/-- The class of a page (R68). -/
def pteClass (e : Nat) : Nat := bits e 58 2

/-- The times of a grain at its home (R84): the largest of its sectors'; at a booth core its entry's, or the floor's. -/
def State.homeTimes (s : State) (h : Home) : Nat × Nat :=
  if h.site.loc.bridge then
    let b := s.bridge h.site.loc.home
    b.grains.get (b.floor, b.floor) h.base
  else
    (List.range (h.size / 32)).foldl (fun acc i =>
      let t := s.times.get (0, 0) (h.base / 32 + i)
      (max acc.1 t.1, max acc.2 t.2)) (0, 0)

/-- Sets the times of a grain at its home. -/
def State.setHomeTimes (s : State) (h : Home) (wts rts : Nat) : State :=
  if h.site.loc.bridge then
    let b := s.bridge h.site.loc.home
    s.setBridge h.site.loc.home { b with grains := b.grains.put h.base (wts, rts) }
  else
    (List.range (h.size / 32)).foldl (fun s i => { s with times := s.times.put (h.base / 32 + i) (wts, rts) }) s

/-- A grain enters a booth core's table at the floor (R93). A table that is full evicts an entry first and raises the floor to its
rts: which entry the manual leaves open, and the model evicts that of the lowest key (DESIGN CHOICE: assumption log, entry 42). -/
def State.boothEnter (s : State) (home key : Nat) : State :=
  let b := s.bridge home
  if (b.grains.find key).isSome then s
  else
    let b := if b.grains.length < boothGrains then b
      else match b.grains with
        | [] => b
        | (_, t) :: r => { b with grains := r, floor := max b.floor t.2 }
    s.setBridge home { b with grains := b.grains.put key (b.floor, b.floor) }

/-- The time horizon (R87). -/
def horizon : Nat := 2 ^ 47

/-- Whether a rebase of logical time is in progress (R365, R385): no hold of R87 blocks it. -/
def State.rebasing (s : State) : Bool := (s.die 0).command.any fun v => bits v.toNat 0 6 == 3

/-- The notice and the hold of R87 at a point of coherence that would set a time; `place` is a die, or 64 + bridge. -/
def timesCheck (place : Nat) (gva : Dword) (time : Nat) (lease : Option Nat) : Mach Unit := do
  if (← get).rebasing then pure ()
  else if 2 ^ 48 ≤ time then throw (.hold (.horizon place gva lease))
  else if horizon ≤ time then modify fun s => s.dieEvent (if 64 ≤ place then 16 * (place - 64) else place) 3
  else pure ()

/-- The die of a cluster cache or of a die's guest copies. -/
def dieOfPlace (p : Nat) : Nat := if p < guestPlace 0 then (p - ccPlace 0) / 16 else p - guestPlace 0

/-- Sets times at a home, with the notice and the hold of R87. -/
def setTimesChecked (h : Home) (wts rts : Nat) (lease : Option Nat := none) : Mach Unit := do
  timesCheck h.site.loc.place h.site.gva (max wts rts) lease
  modify fun s => s.setHomeTimes h wts rts

/-! ## Nets at the home (R113 to R119) -/

/-- Whether a net is open, in the sense of guarding and of parents (R112). -/
def Net.isOpen (n : Net) : Bool := n.state != .dropping

/-- The key of a net's base: nets are of kind 0 on this module (R110). -/
def Net.baseKey (n : Net) : Nat := n.base.toNat % 2 ^ 54

/-- Whether a net's range holds the byte of a key. -/
def Net.holds (n : Net) (key : Nat) : Bool := n.baseKey ≤ key && key < n.baseKey + n.len

/-- The net that guards a line: the youngest open one whose range holds it and that the line's home has recorded (R112, R122). -/
def State.guardOf (s : State) (key : Nat) : Option (Nat × Net) :=
  s.nets.foldl (fun acc e =>
    if e.2.isOpen && e.2.holds key && e.2.recorded.contains (key / 2 ^ 48) then
      match acc with
      | some g => if g.2.depth < e.2.depth then some e else acc
      | none => some e
    else acc) none

/-- Slots of a die's pool in use, lazily released ones with them. -/
def State.slotsUsed (s : State) (d : Nat) : Nat := (s.shadows.filter fun x => x.die == d).length

/-- Reclaims the lazily released slots of a die (R116, R118). -/
def State.reclaim (s : State) (d : Nat) : State :=
  { s with shadows := s.shadows.filter fun x => !(x.die == d && x.lazy) }

/-- Marks a net broken at a die (R114, R121). -/
def State.breakNet (s : State) (n d : Nat) : State :=
  match s.nets.find n with
  | none => s
  | some x =>
    { s with nets := s.nets.put n { x with state := .broken, brokenAt := if x.brokenAt.contains d then x.brokenAt else d :: x.brokenAt } }

/-- The bad bits of `n` bytes of flattened memory in grains of `z` bytes: their own marks and their grains' (R106). -/
def State.badBits (s : State) (z a n : Nat) : Nat :=
  if s.marks.isEmpty then 0
  else (List.range n).foldl (fun acc i =>
    if s.marked (a + i) || s.marked (grainMark ((a + i) / z * z)) then acc + 2 ^ i else acc) 0

/-- The address of a slot of a die's net pool, and of its index entry behind all the slots (R116). -/
def State.slotAddr (s : State) (d slot : Nat) : Nat := dramBase d + (s.dieReg d 0x1A0).toNat + 128 * slot
def State.indexAddr (s : State) (d slot : Nat) : Nat :=
  dramBase d + (s.dieReg d 0x1A0).toNat + 128 * (s.dieReg d 0x1A1).toNat + 16 * slot

/-- A shadow's bytes, as its slot holds them, with their bad bits. -/
def State.shadowData (s : State) (w : Shadow) : List Byte × Nat :=
  let a := s.slotAddr w.die w.slot
  (s.bytes a 128, (List.range 128).foldl (fun acc i => if s.marked (a + i) then acc + 2 ^ i else acc) 0)

/-- The index entry of a shadow's slot: the line, and the net (assumption log, entry 43). -/
def State.writeIndex (s : State) (w : Shadow) : State :=
  s.store (s.indexAddr w.die w.slot) (bytesOfNat 8 w.line ++ bytesOfNat 8 w.net)

/-- A shadow written into its slot, bad bytes marked there. -/
def State.writeShadow (s : State) (w : Shadow) (data : List Byte) (bad : Nat) : State :=
  let a := s.slotAddr w.die w.slot
  let s := s.store a data
  ((List.range 128).foldl (fun s i => if bitAt bad i then s.mark (a + i) else s) s).writeIndex w

/-- The lowest slot of a die's pool that is not in use. -/
def State.freeSlot (s : State) (d : Nat) : Nat :=
  let used := (s.shadows.filter fun w => w.die == d).map Shadow.slot
  ((List.range (used.length + 1)).find? fun i => !used.contains i).getD 0

/-- A shadow probe, or the check before a home's write, of one net line (R113, R114): whether the write may go on. The
line's key and flattened address are given, and its grains' size. -/
def State.probe (s : State) (d line phys z : Nat) : Bool × State :=
  match s.guardOf line with
  | none => (true, s)
  | some (n, x) =>
    if s.shadows.any fun w => w.line == line && w.net == n && !w.lazy then (true, s)
    else if x.brokenAt.contains d then (false, s)
    else
      let slots := (s.dieReg d 0x1A1).toNat
      let s := if s.slotsUsed d < slots then s else s.reclaim d
      if s.slotsUsed d < slots then
        let w : Shadow := { die := d, line := line, net := n, slot := s.freeSlot d, lazy := false }
        (true, { s with shadows := s.shadows ++ [w] }.writeShadow w (s.bytes phys 128) (s.badBits z phys 128))
      else (false, s.breakNet n d)

/-- Probes every net line of the bytes `off` to `off + n - 1` of a grain at its home; nets cover only kind-0 global
addresses, never `.lw` (R110). -/
def probeLines (h : Home) (off n : Nat) : Mach Bool := do
  if h.site.lw.isSome || h.site.loc.bridge then return true
  else
    let first := (h.key + off) / 128
    let last := (h.key + off + n - 1) / 128
    let mut ok := true
    for i in List.range (last + 1 - first) do
      let line := (first + i) * 128
      -- a grain smaller than a line lies in it; the line's own address follows from the grain's
      let phys := h.base + line - h.key
      let (r, s) := (← get).probe h.site.loc.home line phys h.size
      set s
      ok := ok && r
    return ok

/-- Probes the net lines of a grain in which a mask has bytes (R113). -/
def probeMasked (h : Home) (mask : Nat) : Mach Bool := do
  let mut ok := true
  for i in List.range (h.size / 128 + 1) do
    if bits mask (128 * i) 128 != 0 then
      let r ← probeLines h (128 * i) 1
      ok := ok && r
  return ok

/-- Whether a drop holds an access to these bytes (R119): a write to the range of a DROPPING net, or any access to a line
it restores. -/
def State.dropHolds (s : State) (key n : Nat) (write : Bool) : Bool :=
  s.nets.any fun e =>
    e.2.state == .dropping &&
      ((write && (e.2.holds key || e.2.holds (key + n - 1))) ||
        s.shadows.any fun w => w.net == e.1 && !w.lazy && w.line ≤ key + n - 1 && key < w.line + 128)

/-! ## Brine at the home (R104 to R107) -/

/-- The partials of an entry in ascending holder index, returned or still held. -/
def BrineEntry.partials (e : BrineEntry) : Tab Partial := e.returned.foldl (fun t p => t.put p.1 p.2) e.holders

/-- The place of a holder (R99), by its index: a cluster cache of the home die, or the L2 of another die. -/
def holderPlace (home idx : Nat) : Nat := if idx < 16 then ccPlace (16 * home + idx) else guestPlace (idx - 16)

/-- A partial's frame, once the partial has left its holder. -/
def State.leaveHolder (s : State) (key idx : Nat) : State :=
  let (cache, id) := frameOf (holderPlace (key / 2 ^ 48) idx) key
  if s.brine.any fun e => e.2.holders.any fun p => frameOf (holderPlace (e.1 / 2 ^ 48) p.1) e.1 == (cache, id) then s
  else s.freeFrame cache id

/-- The drops that wait at a home for a harvest of theirs to end (R104) go on. -/
def State.dropsAgain (s : State) (d : Nat) : State :=
  s.nets.foldl (fun s e => if e.2.homes.contains d then s.due .netDropHomeArrival d e.1 else s) s

/-- The merge of R105 at the home: the partials in ascending holder index, a bad one left out and the grain marked
(R106), written with the times of R86. The manual does not say whether the maxpts of a partial left out counts among the largest
returned: the model counts it (DESIGN CHOICE: assumption log, entry 42). -/
def mergeBrine (h : Home) (e : BrineEntry) : Mach Unit := do
  let ps := e.partials.map Prod.snd
  let good := (ps.filter fun p => !p.bad).map Partial.data
  let maxPts := ps.foldl (fun m p => max m p.maxPts) 0
  if h.site.loc.bridge then modify fun s => s.boothEnter h.site.loc.home h.base
  let s ← get
  let home := s.bytes h.base h.size
  let merged := match treeOf e.tag.combine 8 good with
    | none => home
    | some d => e.tag.combine home d
  let wts := max maxPts ((s.homeTimes h).2 + 1)
  setTimesChecked h wts wts
  modify fun s =>
    let s := s.setBytes h.base merged
    let s := if ps.any Partial.bad then s.mark (grainMark h.base) else s
    let s := { s with brine := s.brine.erase h.key }
    let s := e.holders.foldl (fun s p => s.leaveHolder h.key p.1) s
    if h.site.loc.bridge then s
    else
      (s.logEntry h.site.loc.home 1 ps.length (s.coreIdWord s.cur.1) (s.sstepOf s.me.launchid.toNat) h.site.gva).dropsAgain
        h.site.loc.home

/-- Whether a DROP that has still to reach a home will discard the partials of a byte's grain there (R104, R107). -/
def State.dropComes (s : State) (key : Nat) : Bool :=
  s.nets.any fun e => e.2.state == .dropping && e.2.holds key && e.2.homes.contains (key / 2 ^ 48)

/-- Harvests a grain, if it is in Brine state (R104, R107). The value says whether it may be accessed: a merged write that
needs a shadow the pool cannot give is not begun. -/
def harvest (h : Home) : Mach Bool := do
  if h.site.lw.isSome then return true
  else match (← get).brine.find h.key with
    | none => return true
    | some e =>
      if e.state == .discarding || (e.state == .brine && (← get).dropComes h.key) then holdAt h.site
      else if ← probeLines h 0 h.size then
        mergeBrine h e
        return true
      else return false

/-- The queue of a booth core that a message goes to (R93): the XOR of the eight groups of four bits of GVA [43:12]. -/
def boothQueue (gva : Dword) : Nat :=
  (List.range 8).foldl (fun q i => q ^^^ bits gva.toNat (12 + 4 * i) 4) 0

/-- The port of a slice at which an agent's request comes in (R88). -/
def Agent.portAt (a : Agent) (home slice : Nat) : Nat :=
  if a.die != some home then 4 else a.port.getD (Config.meshPort a.mesh slice % 4)

/-- An access takes its turn at its home (R72, R88, R93): while others wait at the slice or in the queue of the booth core, or for the
DRAM it needs, it waits behind them, unless it has had its turn there. What it is admitted with. -/
def contend (a : Agent) (h : Home) : Mach Admission := do
  let s ← get
  let l := h.site.loc
  if l.bridge then
    let q := boothQueue h.site.gva
    let adm : Admission := { key := h.site.key, off := 0, size := 0, ways := [], last := false, keep := false, counter := none }
    if !(s.pass.any fun p => p.key == adm.key) && !((s.bridge l.home).queues.get [] q).isEmpty then
      throw (.hold (.booth l.home q h.site.gva))
    return adm
  else
    let off := h.base - dramBase l.home
    let slice := sliceOf off
    match s.pass.find? fun p => p.key == h.key with
    | some adm => return { adm with counter := none }
    | none =>
      let now := s.admittance l.home h.key off h.size (pteClass h.pte)
      let x := s.die l.home
      if !(x.reqs.get [] slice).isEmpty || (!(x.dram.get [] slice).isEmpty && !s.holdsGrain l.home off h.size) then
        throw (.hold (.slice l.home slice (a.portAt l.home slice) now))
      return now

/-- The row of an address is the open one of its bank (R72). -/
def State.openRow (s : State) (d channel a : Nat) : State :=
  let x := s.die d
  let others := (x.rows.get [] channel).filter fun b => Config.dramBank b != Config.dramBank a
  s.setDie d { x with rows := x.rows.put channel (a :: others) }

/-- The L2 of a home takes an access to a grain of its DRAM (R60, R67, R72): a grain that it does not have is read from the DRAM, and
kept as the access was admitted. -/
def State.reachLine (s : State) (h : Home) (adm : Admission) : State :=
  let d := h.site.loc.home
  let off := h.base - dramBase d
  let s := s.countAccess d adm
  let s := if s.holdsGrain d off h.size then s else s.openRow d (sliceOf off) off
  s.bringHome d { adm with off := off, size := h.size }

/-- What comes before any access at a home: the hold of a drop, the turn among the requests there, the harvest, and the L2. A refused
harvest traps with cause 0x07 (R107). -/
def arrive (a : Agent) (h : Home) (off n : Nat) (write : Bool) : Mach Unit := do
  if h.site.lw.isNone && (← get).dropHolds (h.key + off) n write then holdAt h.site
  let adm ← contend a h
  if !(← harvest h) then trap 0x07 h.site.val
  modify fun s => if h.site.loc.bridge then s.boothEnter h.site.loc.home h.base else s.reachLine h adm

/-- The home itself as the requester of a harvest (R88). -/
def harvestAgent (home : Nat) : Agent :=
  { l1 := none, cc := none, die := some home, ccBit := 16, dieBit := 16, lease := 32, secure := true, port := some 7 }

/-- A harvest that no access at the home brings with it, in its turn there. -/
def harvestOf (h : Home) : Mach Bool := do
  if h.site.lw.isNone && ((← get).brine.find h.key).isSome then
    let adm ← contend (harvestAgent h.site.loc.home) h
    if ← harvest h then
      modify fun s => if h.site.loc.bridge then s else s.reachLine h adm
      return true
    else return false
  else return true

/-- A grain as its home serves it. With a lease, R84's times are set for a reader at `pts`. -/
def homeServe (h : Home) (pts : Nat) (lease : Option Nat) : Mach Copy := do
  let (wts, rts) := (← get).homeTimes h
  let rts' ← match lease with
    | none => pure rts
    | some len => do
      let r := max rts (max pts wts + len)
      setTimesChecked h wts r (some len)
      pure r
  let s ← get
  return { size := h.size, data := s.bytes h.base h.size, wts := wts, rts := rts', dirty := 0, dirtier := 0, maxPts := 0,
           grant := false, bad := s.badBits h.size h.base h.size, cls := pteClass h.pte }

/-- The bytes of a home's grain written, without times: a store to the whole grain clears its mark (R106). -/
def State.homeStore (s : State) (h : Home) (off : Nat) (bs : List Byte) : State :=
  let s := s.store (h.base + off) bs
  if bs.length = h.size then s.unmark (grainMark h.base) 1 else s

/-- A write performed at a home that it has reached, with the times of R86; the new wts. The shadows it needs are made first
(R113); where the pool cannot give one, nothing is written and the access traps with cause 0x07. -/
def homePut (h : Home) (off : Nat) (bs : List Byte) (pts : Nat) : Mach Nat := do
  if !(← probeLines h off bs.length) then trap 0x07 h.site.val
  let (_, rts) := (← get).homeTimes h
  let wts := max pts (rts + 1)
  setTimesChecked h wts wts
  modify fun s => s.homeStore h off bs
  return wts

/-- A write that arrives at a home and is performed there. -/
def homeWrite (a : Agent) (h : Home) (off : Nat) (bs : List Byte) (pts : Nat) : Mach Nat := do
  arrive a h off bs.length true
  homePut h off bs pts

/-- Bytes of a home's grain whose mask bits are set, overwritten by those of `data`. -/
def State.homeMasked (s : State) (h : Home) (data : List Byte) (mask : Nat) : State :=
  let s := (List.range h.size).foldl (fun s i => if bitAt mask i then s.unmark (h.base + i) 1 else s) s
  let s := s.setBytes h.base (keepMasked data (s.bytes h.base h.size) mask)
  if mask = onesBelow h.size then s.unmark (grainMark h.base) 1 else s

/-! ## Reading -/

/-- Whether a copy serves without going further up: to the reader itself it hits (R85), to a level below it must grant a
whole lease (R84); a fill for a write needs none. -/
def Copy.serves (c : Copy) (pts : Nat) (lease : Option Nat) (top : Bool) : Bool :=
  match lease with
  | none => true
  | some len => if top then decide (pts ≤ c.rts) else decide (max pts c.wts + len ≤ c.rts)

/-- Whether no copy of the levels serves, so that the home is asked and translates (R372). -/
def State.asksHome (s : State) (key pts : Nat) (lease : Option Nat) : List Nat → Bool → Bool
  | [], _ => true
  | p :: up, top =>
    match s.findCopy p key with
    | none => s.asksHome key pts lease up false
    | some (_, c) => !c.serves pts lease top && s.asksHome key pts lease up false

/-- What the levels serve of a grain, nearest first: R84 and R85. `top` says that the nearest of them serves the reader
itself; a level below it is renewed or filled by what it serves. -/
def serve (a : Agent) (t : Site) (need : Need) (pts : Nat) (lease : Option Nat) : List Nat → Bool → Mach (Nat × Copy)
  | [], _ => do
    let h ← homeOf a t need
    arrive a h 0 h.size false
    return (h.key, ← homeServe h pts lease)
  | p :: up, top => do
    let found := (← get).findCopy p t.key
    let valid := match found with
      | none => false
      | some (_, c) => c.serves pts lease top
    match found, valid with
    | some r, true =>
      modify fun s => s.touch (frameOf p r.1).1 (frameOf p r.1).2
      return r
    | some (base, c), false =>
      -- bytes written here have a time of their own, which the lease starts from
      let (ub, u) ← serve a t need (if c.dirty = 0 then pts else max pts c.wts) lease up false
      let (vb, v) := u.forPlace p (t.key / u.size * u.size) t.key
      if v.size = c.size then
        let c := c.renewFrom v
        modify fun s => (s.putCopy p base c).touch (frameOf p base).1 (frameOf p base).2
        return (base, c)
      else
        let (c, s) := (← get).regrain p (if isL1Place p then vb else ub) v
        set (s.putCopy p (if isL1Place p then vb else ub) c)
        return (if isL1Place p then vb else ub, c)
    | none, _ =>
      let (ub, u) ← serve a t need pts lease up false
      let (base, c) := u.forPlace p ub t.key
      modify fun s => s.putCopy p base c
      return (base, c)

/-- `n` bytes of a copy from a key on, with their bad bits. -/
def Copy.slice (c : Copy) (base key n : Nat) : List Byte × Nat :=
  ((c.data.drop (key - base)).take n, bits c.bad (key - base) n)

/-- The copy that a place below a level has of a byte takes what that level now holds (R84's "the copy below keeps these", R86): the
bytes but its own dirty ones, and both times. -/
def State.refreshAt (s : State) (p key ub : Nat) (u : Copy) : State :=
  match s.findCopy p key with
  | none => s
  | some (base, c) =>
    let (_, v) := u.forPlace p ub key
    if v.size = c.size then s.putCopy p base (c.takeFrom v) else s

/-- The copies of an agent below a level take what it now serves of a byte. -/
def refreshBelow (places : List Nat) (key : Nat) (ub : Nat) (u : Copy) : Mach Unit :=
  modify fun s => places.foldl (fun s p => s.refreshAt p key ub u) s

/-- The copies of an agent below a level at which a grain has been written take its bytes and times (R86): an L1 may hold the grain by
its sectors. -/
def refreshGrain (places : List Nat) (ub : Nat) (u : Copy) : Mach Unit :=
  modify fun s => places.foldl (fun s p =>
    (if isL1Place p then (List.range (u.size / 32)).map fun i => ub + 32 * i else [ub]).foldl (fun s key => s.refreshAt p key ub u) s) s

/-- What a push brings up: the bytes, their mask, the largest PTS among their writers and the mask's bad bits. -/
structure Pushed where
  data : List Byte
  mask : Nat
  maxPts : Nat
  bad : Nat
  deriving DecidableEq, Repr

/-- Bytes pushed into a copy of the level above, with the times of R86 (R89). -/
def Copy.takePush (c : Copy) (p : Pushed) (bit : Nat) : Copy :=
  let wts := max p.maxPts (c.rts + 1)
  { c with
    data := keepMasked p.data c.data p.mask, wts := wts, rts := wts, dirty := c.dirty ||| p.mask,
    dirtier := c.dirtier ||| 2 ^ bit, maxPts := max c.maxPts p.maxPts, bad := clearMask c.bad p.mask + (p.bad &&& p.mask) }

/-- Bytes pushed into the grain of a guest copy or of the home in which they lie, from a copy of the grain at `base`: the grain's base, and
the grain as the level then has it. -/
def pushGrain (a : Agent) (t : Site) (base : Nat) (c : Copy) (up : List Nat) : Mach (Nat × Copy) := do
  match up with
  | g :: _ =>
    let (ub, u) ← serve a t .settled 0 none [g] true
    let q := c.piece base ub u.size
    let u := u.takePush { data := q.data, mask := q.dirty, maxPts := c.maxPts, bad := q.bad } a.dieBit
    timesCheck (dieOfPlace g) t.gva u.wts none
    modify fun s => s.putCopy g ub u
    return (ub, u)
  | [] =>
    let h ← homeOf a t .settled
    arrive a h 0 h.size true
    let q := c.piece base h.key h.size
    if !(← probeMasked h q.dirty) then holdAt t
    let (_, rts) := (← get).homeTimes h
    let wts := max c.maxPts (rts + 1)
    setTimesChecked h wts wts
    modify fun s => s.homeMasked h q.data q.dirty
    return (h.key, ← homeServe h 0 none)

/-- A site some bytes further on. -/
def Site.shift (t : Site) (n : Nat) : Site :=
  { t with key := t.key + n, gva := t.gva + BitVec.ofNat 64 n, loc := { t.loc with off := t.loc.off + n } }

/-- A push of the dirty bytes of a copy to the next level (R89): a guest copy of the die, or the home; in its grains there, should their
size be another. The copy and the copies of the pushing agent below it take the new times (R86). A push that does not reach its
level, because the home holds or refuses it, waits there with what pushes it (R79, R107, R376). The new wts. -/
def pushCopy (a : Agent) (t : Site) (p base : Nat) (c : Copy) (up : List Nat) : Mach Nat := do
  let t := { t with key := base, gva := t.gva - BitVec.ofNat 64 (t.key - base),
                    loc := { t.loc with off := t.loc.off - (t.key - base) } }
  let below := (a.levels t).takeWhile (· != p)
  tryCatch (do
    let (ub, u) ← pushGrain a t base c up
    let c' : Copy := { c with dirty := 0, dirtier := 0, maxPts := 0 }
    if u.size = c.size then
      modify fun s => s.putCopy p base (c'.takeFrom u)
      refreshGrain below base u
      return u.wts
    else
      let mut top := u.wts
      for b in (grainsOf base c.size u.size).drop 1 do
        let (_, v) ← pushGrain a (t.shift (b - base)) base c up
        top := max top v.wts
      modify fun s => s.dropCopy p base
      refreshGrain below ub u
      return top)
    fun e => match e with
      | .notPresent gva _ home fetch write => holdAbsent gva home fetch write 0 (a.die.getD home) 15
      | .trap .. => holdAt t
      | e => throw e

/-- The levels above a place, for a site. -/
def levelsAbove (p : Nat) : List Nat → List Nat
  | [] => []
  | q :: r => if q = p then r else levelsAbove p r

/-- The site of a copy's first byte, rebuilt from its key: the address by the module-free spelling 0xFF. -/
def siteOfKey (key : Nat) : Site :=
  if 2 ^ 60 ≤ key then
    let d := (key - 2 ^ 60) / 2 ^ 48
    lwSite d (BitVec.ofNat 64 (key % 2 ^ 48)) (BitVec.ofNat 64 (key % 2 ^ 48))
  else
    let home := key / 2 ^ 48
    let bridge := 64 ≤ home
    let gva := BitVec.ofNat 64 (0xFF * 2 ^ 56 + (if bridge then 2 ^ 54 + (home - 64) * 2 ^ 48 else home * 2 ^ 48) + key % 2 ^ 48)
    { key := key, gva := gva, val := gva, lw := none,
      loc := { bridge := bridge, home := if bridge then home - 64 else home, off := key % 2 ^ 48 } }

/-- Pushes every grain at a place in which a dirtier bit is set (R79, R89); `note` takes each new wts. -/
def pushAll (a : Agent) (p bit : Nat) (note : Nat → Mach Unit) : Mach Unit := do
  let mine := (← get).copies.filter fun e => e.1 / 2 ^ 64 == p && 0 < e.2.dirty && bitAt e.2.dirtier bit
  for e in mine do
    let t := siteOfKey (e.1 % 2 ^ 64)
    note (← pushCopy a t p (e.1 % 2 ^ 64) e.2 (levelsAbove p (a.levels t)))

/-- A release at a scope (R79): the grains the agent dirtied are pushed up to its level. `note` takes the wts of each push, to which
the releaser's PTS rises (R86); a push that must wait holds the release. -/
def release (a : Agent) (scope : Scope) (note : Nat → Mach Unit) : Mach Unit := do
  match scope with
  | .core | .clu => pure ()
  | _ =>
    match a.cc with
    | some k => pushAll a (ccPlace k) a.ccBit note
    | none => pure ()
    match scope, a.die with
    | .die, _ => pure ()
    | _, some d => pushAll a (guestPlace d) a.dieBit note
    | _, none => pure ()

/-- Pushes, before an access at `poc`, the copies below it in which the agent has dirty bytes of the grain (R412). -/
def pushOwn (a : Agent) (t : Site) (poc : Nat) : Mach Unit := do
  for p in (a.levels t).take poc do
    match (← get).findCopy p t.key with
    | none => pure ()
    | some (base, c) =>
      let bit := if p < 65536 then a.ccBit else a.dieBit
      if 0 < c.dirty && bitAt c.dirtier bit then
        let _ ← pushCopy a t p base c (levelsAbove p (a.levels t))

/-- A weak load of one piece (R84, R85): its bytes, their bad bits, and the PTS it gives. -/
def weakLoad (a : Agent) (t : Site) (need : Need) (n pts : Nat) : Mach (List Byte × Nat × Nat) := do
  let (base, c) ← serve a t need pts (some a.lease) (a.levels t) true
  let (data, bad) := c.slice base t.key n
  return (data, bad, max pts c.wts)

/-- A strong load of one piece at a scope (R80, R84, R85, R412): the point of coherence grants it a whole lease, its copy renewed first
where its own does not reach so far. A load that the home refuses is not performed, so it pushes
nothing. -/
def strongLoad (a : Agent) (t : Site) (scope : Scope) (n pts : Nat) : Mach (List Byte × Nat × Nat) := do
  let levels := a.levels t
  let poc := a.poc t scope
  if (← get).asksHome t.key pts (some a.lease) (levels.drop poc) false then
    let _ ← homeOf a t .read
  pushOwn a t poc
  let (base, c) ← serve a t .read pts (some a.lease) (levels.drop poc) false
  refreshBelow (levels.take poc) t.key base c
  let (data, bad) := c.slice base t.key n
  return (data, bad, max pts c.wts)

/-! ## Writing -/

/-- The agent of a cache and the cache's holder index at a home: a cluster cache's, or a die's guest copies' (R99). -/
def cacheAgent (place : Nat) : Agent :=
  if place < guestPlace 0 then
    let cl := place - ccPlace 0
    { l1 := none, cc := some cl, die := some (cl / 16), ccBit := 16, dieBit := cl % 16, lease := 32, secure := true }
  else { l1 := none, cc := none, die := some (place - guestPlace 0), ccBit := 16, dieBit := 16, lease := 32, secure := true }

/-- Whether an agent's cluster cache has the home's grant of a write on record, the grain being ordinary (R249). -/
def State.grantHeld (s : State) (a : Agent) (t : Site) : Bool :=
  match a.cc with
  | none => false
  | some k => match s.findCopy (ccPlace k) t.key with
    | none => false
    | some (base, c) => c.grant && (s.brine.find base).isNone

/-- The write check of R249 for one piece: the home grants the write, unless the agent's cluster cache has its grant on
record and the grain is ordinary. -/
def writeGrant (a : Agent) (t : Site) (need : Need) : Mach Unit := beforeSeal do
  let s ← get
  if t.lw.isSome then pure ()
  else if s.grantHeld a t then
    -- the grant on record says nothing of R
    if need == .readWrite then
      let _ ← homeOf a t .read
  else
    let h ← homeOf a t need
    if (← get).dropHolds t.key 1 true then holdAt t
    if !(← harvestOf h) then trap 0x07 t.val
    if (← get).marked (grainMark h.base) && (s.brine.find h.key).isSome then trap 0x0E t.val
    match a.cc with
    | none => pure ()
    | some k =>
      let (base, c) ← serve a t .settled 0 none ((a.levels t).drop a.l1.toList.length) true
      modify fun s => s.putCopy (ccPlace k) base { c with grant := true }

/-- The shadow probes of R249 and R114 for one piece of `n` bytes. -/
def writeProbe (a : Agent) (t : Site) (n : Nat) : Mach Unit := beforeSeal do
  if t.lw.isNone && ((← get).guardOf t.key).isSome then
    let h ← homeOf a t .settled
    if (← get).dropHolds t.key n true then holdAt t
    if !(← probeLines h (t.key - h.key) n) then trap 0x07 t.val

/-- A write into a copy without a timestamp: the bytes become dirty (R86, R89). -/
def Copy.dirtied (c : Copy) (off : Nat) (bs : List Byte) (bit pts : Nat) : Copy :=
  let m := maskOf off bs.length
  { c with
    data := overwrite c.data off bs, dirty := c.dirty ||| m, dirtier := c.dirtier ||| 2 ^ bit, maxPts := max c.maxPts pts,
    bad := clearMask c.bad m }

/-- The bytes of a store written into the copies of some places that hold them, their dirty bits cleared (R91, R57). -/
def overwriteBelow (places : List Nat) (key : Nat) (bs : List Byte) : Mach Unit :=
  modify fun s =>
    places.foldl (fun s p =>
      match s.findCopy p key with
      | none => s
      | some (base, c) =>
        let m := maskOf (key - base) bs.length
        s.putCopy p base { c with data := overwrite c.data (key - base) bs, dirty := clearMask c.dirty m, bad := clearMask c.bad m }) s

/-- A weak store of one piece (R89), accepted at the first level that is no L1; an agent that has none performs it at the
home (R86). The PTS it gives. -/
def weakStore (a : Agent) (t : Site) (bs : List Byte) (pts : Nat) : Mach Nat := do
  let levels := a.levels t
  let l1 := a.l1.toList.length
  match levels.drop l1 with
  | [] =>
    let h ← homeOf a t .settled
    homeWrite a h (t.key - h.key) bs pts
  | p :: up =>
    let (base, c) ← serve a t .settled 0 none (p :: up) true
    let bit := if p < 65536 then a.ccBit else a.dieBit
    modify fun s => s.putCopy p base (c.dirtied (t.key - base) bs bit pts)
    overwriteBelow (levels.take l1) t.key bs
    return pts

/-- A strong store of one piece at a scope, after its release (R86, R91). At a point of coherence below the home its bytes
stay dirty there (assumption log, entry 11). The PTS it gives. -/
def strongStore (a : Agent) (t : Site) (scope : Scope) (bs : List Byte) (pts : Nat) : Mach Nat := do
  let levels := a.levels t
  let poc := a.poc t scope
  match levels.drop poc with
  | [] =>
    let h ← homeOf a t .settled
    let wts ← homeWrite a h (t.key - h.key) bs pts
    overwriteBelow (levels.take poc) t.key bs
    refreshGrain (levels.take poc) h.key (← homeServe h 0 none)
    return wts
  | p :: up =>
    let (base, c) ← serve a t .settled 0 none (p :: up) true
    let bit := if p < 65536 then a.ccBit else a.dieBit
    let wts := max pts (c.rts + 1)
    timesCheck (dieOfPlace p) t.gva wts none
    let c := { c.dirtied (t.key - base) bs bit wts with wts := wts, rts := wts }
    modify fun s => s.putCopy p base c
    overwriteBelow (levels.take poc) t.key bs
    refreshGrain (levels.take poc) base c
    return wts

/-- An atomic on `n` bytes at a scope's point of coherence, as one step (R90, R311): `f` gives the new value, or none
where nothing is written. `lends` says that the read half takes a lease and raises PTS, as AMO's and CAS's do and RED's
does not. The old value, the PTS it gives, and whether the bytes were uncorrectable (nothing is then performed, R313). -/
def atomic (a : Agent) (t : Site) (scope : Scope) (n pts : Nat) (lends : Bool) (f : Nat → Option Nat) :
    Mach (Nat × Nat × Bool) := do
  let levels := a.levels t
  let poc := a.poc t scope
  pushOwn a t poc
  match levels.drop poc with
  | [] =>
    let h ← homeOf a t .settled
    let off := t.key - h.key
    arrive a h off n true
    let s ← get
    if 0 < s.badBits h.size (h.base + off) n then return (0, pts, true)
    let old := s.num (h.base + off) n
    let (wts, _) := s.homeTimes h
    let read := if lends then max pts wts else pts
    match f old with
    | none =>
      let u ← homeServe h pts (if lends then some a.lease else none)
      refreshBelow (levels.take poc) t.key h.key u
      return (old, read, false)
    | some v =>
      let bs := bytesOfNat n v
      let w ← homePut h off bs read
      overwriteBelow (levels.take poc) t.key bs
      refreshGrain (levels.take poc) h.key (← homeServe h 0 none)
      return (old, if lends then w else pts, false)
  | p :: up =>
    -- the read half takes its lease here, the copy being renewed first where its limit is passed (R84)
    let (base, c) ← serve a t .settled pts (if lends then some a.lease else none) (p :: up) false
    let off := t.key - base
    if 0 < bits c.bad off n then return (0, pts, true)
    let old := numAt c.data off n
    let read := if lends then max pts c.wts else pts
    match f old with
    | none =>
      refreshBelow (levels.take poc) t.key base c
      return (old, read, false)
    | some v =>
      let bit := if p < 65536 then a.ccBit else a.dieBit
      let bs := bytesOfNat n v
      let c := c.dirtied off bs bit read
      modify fun s => s.putCopy p base c
      overwriteBelow (levels.take poc) t.key bs
      refreshGrain (levels.take poc) base c
      return (old, read, false)

/-- A PREF of a grain (R251): filled or renewed as a weak load would, waiting its turn at the home with it; with no effect where the load
would trap or be held. -/
def prefetch (a : Agent) (t : Site) (pts : Nat) : Mach Unit := do
  let s ← get
  tryCatch (do
    let levels := a.levels t
    let brine := match levels with
      | [] => true
      | _ => [32, 128, 512].any fun z => (s.brine.find (t.key / z * z)).isSome
    if brine then set s
    else
      let _ ← serve a t .read pts (some a.lease) levels true)
    fun e => match e with
      | .hold (.slice ..) | .hold (.booth ..) => throw e
      | _ => set s

end Sys2Proof.Machine
end

