-- ==== Sys2Proof/Machine/Dests.lean ====
section
/-!
DEFINITION. The register an instruction writes: 0 to 63 an x register, 64 to 95 a v register, 96 to 103 a k register, before
rotation.
-/
namespace Sys2Proof.Machine

/-- The register an instruction writes through the pan. -/
def destOf (i : Instr) : Option Nat :=
  match i with
  | .add rd _ _ => some rd.val
  | .sub rd _ _ => some rd.val
  | .and rd _ _ => some rd.val
  | .or rd _ _ => some rd.val
  | .xor rd _ _ => some rd.val
  | .andn rd _ _ => some rd.val
  | .sll rd _ _ => some rd.val
  | .srl rd _ _ => some rd.val
  | .sra rd _ _ => some rd.val
  | .slt rd _ _ => some rd.val
  | .sltu rd _ _ => some rd.val
  | .min rd _ _ => some rd.val
  | .max rd _ _ => some rd.val
  | .minu rd _ _ => some rd.val
  | .maxu rd _ _ => some rd.val
  | .sel rd _ _ => some rd.val
  | .clz rd _ => some rd.val
  | .ctz rd _ => some rd.val
  | .popc rd _ => some rd.val
  | .addi rd _ _ => some rd.val
  | .andi rd _ _ => some rd.val
  | .ori rd _ _ => some rd.val
  | .xori rd _ _ => some rd.val
  | .slti rd _ _ => some rd.val
  | .sltiu rd _ _ => some rd.val
  | .slli rd _ _ => some rd.val
  | .srli rd _ _ => some rd.val
  | .srai rd _ _ => some rd.val
  | .lui rd _ => some rd.val
  | .addpc rd _ => some rd.val
  | .mul rd _ _ _ => some rd.val
  | .mulh rd _ _ => some rd.val
  | .mulhu rd _ _ => some rd.val
  | .div rd _ _ _ => some rd.val
  | .divu rd _ _ _ => some rd.val
  | .rem rd _ _ _ => some rd.val
  | .remu rd _ _ _ => some rd.val
  | .jal rd _ => some rd.val
  | .jalr rd _ _ => some rd.val
  | .loop rc _ => some rc.val
  | .loopr rc _ => some rc.val
  | .ld rd _ _ _ _ _ => some rd.val
  | .ldSt rd _ _ _ _ _ => some rd.val
  | .amo _ _ rd _ _ _ _ => some rd.val
  | .casW rd _ _ _ _ _ => some rd.val
  | .casD rd _ _ _ _ _ => some rd.val
  | .csrrw rd _ _ => some rd.val
  | .csrrs rd _ _ => some rd.val
  | .csrrc rd _ _ => some rd.val
  | .bist rd _ => some rd.val
  | .compactLane _ vd _ => some (64 + vd.val)
  | .vadd _ vd _ _ _ => some (64 + vd.val)
  | .vsub _ vd _ _ _ => some (64 + vd.val)
  | .vmul _ vd _ _ _ => some (64 + vd.val)
  | .vmulh _ vd _ _ _ => some (64 + vd.val)
  | .vand vd _ _ _ => some (64 + vd.val)
  | .vor vd _ _ _ => some (64 + vd.val)
  | .vxor vd _ _ _ => some (64 + vd.val)
  | .vshl _ vd _ _ _ => some (64 + vd.val)
  | .vshr _ vd _ _ _ => some (64 + vd.val)
  | .vshra _ vd _ _ _ => some (64 + vd.val)
  | .vmin _ vd _ _ _ => some (64 + vd.val)
  | .vmax _ vd _ _ _ => some (64 + vd.val)
  | .vminu _ vd _ _ _ => some (64 + vd.val)
  | .vmaxu _ vd _ _ _ => some (64 + vd.val)
  | .vmov vd _ _ => some (64 + vd.val)
  | .vsel vd _ _ _ => some (64 + vd.val)
  | .vcmpEq _ kd _ _ _ => some (96 + kd.val)
  | .vcmpNe _ kd _ _ _ => some (96 + kd.val)
  | .vcmpLt _ kd _ _ _ => some (96 + kd.val)
  | .vcmpGe _ kd _ _ _ => some (96 + kd.val)
  | .vcmpLtu _ kd _ _ _ => some (96 + kd.val)
  | .vcmpGeu _ kd _ _ _ => some (96 + kd.val)
  | .vfadd _ vd _ _ _ => some (64 + vd.val)
  | .vfsub _ vd _ _ _ => some (64 + vd.val)
  | .vfmul _ vd _ _ _ => some (64 + vd.val)
  | .vfdiv _ vd _ _ _ => some (64 + vd.val)
  | .vfsqrt _ vd _ _ => some (64 + vd.val)
  | .vfmin _ vd _ _ _ => some (64 + vd.val)
  | .vfmax _ vd _ _ _ => some (64 + vd.val)
  | .vfabs _ vd _ _ => some (64 + vd.val)
  | .vfneg _ vd _ _ => some (64 + vd.val)
  | .vfcmpEq kd _ _ _ => some (96 + kd.val)
  | .vfcmpLt kd _ _ _ => some (96 + kd.val)
  | .vfcmpLe kd _ _ _ => some (96 + kd.val)
  | .vfcmpUn kd _ _ _ => some (96 + kd.val)
  | .vfma vd _ _ _ _ => some (64 + vd.val)
  | .vfms vd _ _ _ _ => some (64 + vd.val)
  | .vfnma vd _ _ _ _ => some (64 + vd.val)
  | .vmovx vd _ => some (64 + vd.val)
  | .vext xd _ _ => some xd.val
  | .vshuf vd _ _ _ => some (64 + vd.val)
  | .vslideUp vd _ _ _ => some (64 + vd.val)
  | .vslideDn vd _ _ _ => some (64 + vd.val)
  | .vredAdd vd _ _ => some (64 + vd.val)
  | .vredMin vd _ _ => some (64 + vd.val)
  | .vredMax vd _ _ => some (64 + vd.val)
  | .vredMinu vd _ _ => some (64 + vd.val)
  | .vredMaxu vd _ _ => some (64 + vd.val)
  | .vredAnd vd _ _ => some (64 + vd.val)
  | .vredOr vd _ _ => some (64 + vd.val)
  | .vredXor vd _ _ => some (64 + vd.val)
  | .vfredAdd vd _ _ => some (64 + vd.val)
  | .vfredMin vd _ _ => some (64 + vd.val)
  | .vfredMax vd _ _ => some (64 + vd.val)
  | .vld vd _ _ _ => some (64 + vd.val)
  | .vldt vd _ _ => some (64 + vd.val)
  | .vldl vd _ _ => some (64 + vd.val)
  | .vgath vd _ _ _ => some (64 + vd.val)
  | .kand kd _ _ => some (96 + kd.val)
  | .kor kd _ _ => some (96 + kd.val)
  | .kxor kd _ _ => some (96 + kd.val)
  | .knot kd _ => some (96 + kd.val)
  | .kmovKK kd _ => some (96 + kd.val)
  | .kmovKX kd _ => some (96 + kd.val)
  | .kmovXK xd _ => some xd.val
  | .kpopc xd _ => some xd.val
  | .vcvt _ _ vd _ _ => some (64 + vd.val)
  | .vclass _ vd _ _ => some (64 + vd.val)
  | .slcall rd _ _ _ => some rd.val
  | .slpush rd _ _ _ => some rd.val
  | .phInit rd _ _ => some rd.val
  | .phReg rd _ _ => some rd.val
  | .phDrop rd _ _ => some rd.val
  | .phArr rd _ => some rd.val
  | .phWait rd _ _ _ => some rd.val
  | .phTest rd _ _ => some rd.val
  | .phStat rd _ => some rd.val
  | .bar _ rd => some rd.val
  | .spawn rd _ => some rd.val
  | .start rd _ _ => some rd.val
  | .ctrrd rd _ _ => some rd.val
  | .netOpen rd _ _ => some rd.val
  | .netKeep rd _ => some rd.val
  | .netDrop rd _ _ => some rd.val
  | .netStat rd _ => some rd.val
  | .bquery rd _ => some rd.val
  | .axrCfg rd _ _ => some rd.val
  | .axrStat rd _ => some rd.val
  | _ => none

/-- An instruction from its words as R200 lays them out; of a dictionary reference the one that it names. -/
def instrOfWords (ir : Dword) : Option Instr :=
  match decode (bytesOfNat 4 ir.toNat) with
  | .ok (.dictionaryReference _ _, _) =>
    match decode (bytesOfNat 4 (ir.toNat / 2 ^ 16)) with
    | .ok (i, _) => some i
    | .error _ => none
  | .ok (i, _) => some i
  | .error _ => none

/-- The register an instruction writes, from its words. -/
def destOfWords (ir : Dword) : Option Nat := (instrOfWords ir).bind destOf

end Sys2Proof.Machine
end

