-- ==== Sys2Proof/Machine/Operands.lean ====
section
/-!
DEFINITION. Operands and the end of an instruction: reading and writing x registers through bound ports (R14, R64, R65),
ring headers (R61 to R63), the local spaces (R9, R10), the protection unit (R378), and how a meaning turns into the
outcome of a step (R33, R351, R354, R374).
-/
namespace Sys2Proof.Machine

/-! ## Ring headers in the running core's scratchpad (R61, R62) -/

/-- The flattened address of a scratchpad offset of a core. -/
def spAddr (core off : Nat) : Nat := spBase core + off

/-- PCNT and CCNT of a header. -/
def State.pcnt (s : State) (core off : Nat) : Nat := s.num (spAddr core off) 2
def State.ccnt (s : State) (core off : Nat) : Nat := s.num (spAddr core (off + 2)) 2
/-- The wrapping difference of two counts. -/
def countDiff (a b : Nat) : Nat := (a + 2 ^ 16 - b % 2 ^ 16) % 2 ^ 16
def State.fill (s : State) (core off : Nat) : Nat := countDiff (s.pcnt core off) (s.ccnt core off)
/-- PCNT moved on by `n` (R63), which a suspended unit's watcher may be waiting for. -/
def State.advancePcnt (s : State) (core off n : Nat) : State :=
  let s := s.store (spAddr core off) (bytesOfNat 2 (s.pcnt core off + n))
  if (s.core core).watchers.any fun w => w.off == off then s.due .ringWatcherSatisfied core off else s
/-- CCNT moved on by `n`. -/
def State.advanceCcnt (s : State) (core off n : Nat) : State :=
  s.store (spAddr core (off + 2)) (bytesOfNat 2 (s.ccnt core off + n))

/-- The scratchpad offset of the `i`-th slot after a count. -/
def Handle.slotAt (h : Handle) (count i : Nat) : Nat := h.base + (count + i) % h.n * h.slot

/-! ## What a packet commits at its seal (R35) -/

/-- PRES of a handle moves on (R292). -/
def Ctx.reserve (c : Ctx) (h : Ring) (n : Nat) : Ctx :=
  c.setHandle h { c.handle h with pres := (c.handle h).pres + BitVec.ofNat 16 n }

/-- Bytes stored to a local memory with the marks of the uncorrectable ones among them. -/
def State.storeMarked (s : State) (a : Nat) (data : List Byte) (bad : List Bool) : State :=
  bad.zipIdx.foldl (fun s b => if b.1 then s.mark (a + b.2) else s) (s.store a data)

/-- One change that a context's packet makes of its core's own state. -/
def State.commit (s : State) (core n : Nat) (w : CoreWrite) : State :=
  match w with
  | .bytes a data bad => s.storeMarked a data bad
  | .consumed _ off k => s.advanceCcnt core off k
  | .published _ off k => s.advancePcnt core off k
  | .reserved h k => s.setCtxAt (ctxKey core n) ((s.ctxAt (ctxKey core n)).reserve h k)
  | .format slot f => let x := s.core core; s.setCore core { x with wfmt := x.wfmt.put slot f }
  | .words first ws =>
    let x := s.core core
    s.setCore core { x with dict := (ws.zipIdx first).foldl (fun (t : Tab Word) w => t.put w.2 w.1) x.dict }

/-- The running instruction makes some changes of its core's own state: at once, or, as a packet of the pipe, at its seal. -/
def commitWrites (ws : List CoreWrite) : Mach Unit :=
  modify fun s =>
    match s.run with
    | none => ws.foldl (fun s w => s.commit s.cur.1 s.cur.2 w) s
    | some r => if r.stage == .effect then s else { s with run := some { r with writes := r.writes ++ ws } }

/-- A sum over what older packets of the running packet's context have still to commit. -/
def State.pendingSum (s : State) (f : CoreWrite → Nat) : Nat :=
  ((s.run.map PacketRun.pending).getD []).foldl (fun t w => t + f w) 0

/-- Pending advances on a handle, in slots (R62). -/
def State.pendingAdvances (s : State) (h : Ring) : Nat :=
  s.pendingSum fun w => match w with
    | .consumed g _ n => if g = h then n else 0
    | _ => 0

/-- Slots of a handle that older packets of the running packet's context are to publish. The manual names the older MSTs (R289); a
CBPUB's slots count as they do (DEDUCED: assumption log, entry 42). -/
def State.pendingSlots (s : State) (h : Ring) : Nat :=
  s.pendingSum fun w => match w with
    | .published g _ n => if g = h then n else 0
    | _ => 0

/-- The slots of a handle's ring that are available to the running packet's context (R62). -/
def State.available (s : State) (core : Nat) (h : Ring) (x : Handle) : Nat := s.fill core x.off - s.pendingAdvances h

/-- Whether PRES differs from PCNT (R292), which what is still to be committed moves together. -/
def State.reserving (s : State) (core : Nat) (h : Ring) (x : Handle) : Bool :=
  x.pres.toNat != (s.pcnt core x.off + s.pendingSlots h) % 2 ^ 16

/-- The room a handle's producers have (R292). -/
def State.roomOf (s : State) (core : Nat) (h : Handle) : Nat := h.n - countDiff h.pres.toNat (s.ccnt core h.off)

/-! ## Bound ports (R64, R65) -/

/-- The trap value of ring misuse: the handle (R353). -/
def handleVal (h : Ring) : Dword := BitVec.ofNat 64 h.val

/-- Sign or zero extension of the low `8n` bits. -/
def extend (z : Bool) (n v : Nat) : Dword :=
  if z then BitVec.ofNat 64 (v % 2 ^ (8 * n)) else BitVec.ofInt 64 (signedOfNat (8 * n) v)

/-- Bytes moved from the ring into the staging buffer of a read port, where a filled slot holds them: as much of the next 32-byte piece as
the buffer has room for (the manual does not say that a piece moves only whole: DESIGN CHOICE, assumption log, entry 16). -/
def stagePiece (p : Port) : Mach Bool := do
  let s ← get
  let c := s.me
  let q := c.port p
  let h := c.handle q.ring
  let core := s.cur.1
  let fill := s.fill core h.off
  if h.n < fill then trap 0x0B (handleVal q.ring)
  else
    let next := q.pos + q.staged.length
    let n := min (32 - q.staged.length) (32 - next % 32)
    if 0 < n && next / h.slot < fill then
      let a := h.slotAt (s.ccnt core h.off) (next / h.slot) + next % h.slot
      modifyMe fun c => c.setPort p { c.port p with staged := (c.port p).staged ++ s.bytes (spAddr core a) n }
      return true
    else return false

/-- The next element of a bound read port; the packet waits where none is there (R22, R64). -/
def popPort (p : Port) : Mach Dword := do
  let q := (← me).port p
  if q.dir == .write then trap 0x0B (handleVal q.ring)
  if q.staged.length < q.esize then
    if !(← stagePiece p) then throw .retry
  let q := (← me).port p
  modifyMe fun c => c.setPort p { q with staged := q.staged.drop q.esize, pos := q.pos + q.esize }
  return extend q.z q.esize (natOfBytes (q.staged.take q.esize))

/-- Drains a full piece of a write port into its ring, where the slot has room. -/
def drainPiece (p : Port) : Mach Unit := do
  let s ← get
  let c := s.me
  let q := c.port p
  let h := c.handle q.ring
  let core := s.cur.1
  let fill := s.fill core h.off
  if 0 < q.staged.length && fill < h.n then
    let a := h.slotAt (s.pcnt core h.off) 0 + (q.pos - q.staged.length)
    modify fun s => s.store (spAddr core a) q.staged
    modifyMe fun c => c.setPort p { q with staged := [] }
    if q.pos = h.slot then
      modify fun s => s.advancePcnt core h.off 1
      modifyMe fun c =>
        (c.setPort p { c.port p with pos := 0 }).setHandle q.ring { h with pres := h.pres + 1#16 }

/-- One element appended to a bound write port; the packet waits where no staging entry is free (R64). -/
def appendPort (p : Port) (v : Dword) : Mach Unit := do
  let q := (← me).port p
  if q.dir == .read then trap 0x0B (handleVal q.ring)
  if 32 < q.staged.length + q.esize then throw .retry
  modifyMe fun c =>
    c.setPort p { q with staged := q.staged ++ bytesOfNat q.esize v.toNat, pos := q.pos + q.esize }

/-- What the seal commits of a context's ports (R35, R64): CCNT past consumed slots, and full pieces drained. -/
def commitPort (p : Port) : Mach Unit := do
  let c ← me
  let q := c.port p
  if q.bound then
    match q.dir with
    | .read =>
      let h := c.handle q.ring
      if h.slot ≤ q.pos then
        let core ← myCore
        modify fun s => s.advanceCcnt core h.off (q.pos / h.slot)
        modifyMe fun c => c.setPort p { q with pos := q.pos % h.slot }
    | .write => if q.staged.length = 32 then drainPiece p

def commitPorts : Mach Unit := do
  if (← me).anyPort then
    commitPort 0
    commitPort 1
    commitPort 2
    commitPort 3

/-- The port a register is, if it is one. -/
def portOf (r : XReg) : Option Port := if h : 60 ≤ r.val then some ⟨r.val - 60, by omega⟩ else none

/-- Reads a source register; a bound port gives its next element (R14). -/
def readX (r : XReg) : Mach Dword := do
  match portOf r with
  | none => return (← me).getX r
  | some p => if ((← me).port p).bound then popPort p else return (← me).getX r

/-- Writes a destination register; a bound port takes it as its next element (R14). -/
def writeX (r : XReg) (v : Dword) : Mach Unit := do
  match portOf r with
  | none => modifyMe fun c => c.setX r v
  | some p => if ((← me).port p).bound then appendPort p v else modifyMe fun c => c.setX r v

/-- The checks a write of a register will make, before any effect that cannot be taken back. -/
def canWriteX (r : XReg) : Mach Unit := do
  match portOf r with
  | none => pure ()
  | some p =>
    let q := (← me).port p
    if q.bound then
      if q.dir == .read then trap 0x0B (handleVal q.ring)
      if 32 < q.staged.length + q.esize then throw .retry

/-! ## Local spaces (R9, R10) -/

/-- Whether a core is disabled in its die's defect map (R397). -/
def State.coreDisabled (s : State) (c : Nat) : Bool :=
  bitAt ((s.die (dieOf c)).fuse.get 0#64 (1 + coreId c / 64)).toNat (coreId c % 64)

/-- Whether a core is held in reset (R381, R382, R397): a core die's cores until DIEREL, and after it where their die's map is
wrong or names them. -/
def State.inReset (s : State) (c : Nat) : Bool := isArith c && (!s.released || (s.die (dieOf c)).failed || s.coreDisabled c)

/-- Whether a die-scratchpad bank is disabled or lent to translation (R10, R397). -/
def State.bankTaken (s : State) (d b : Nat) : Bool :=
  bitAt ((s.die d).fuse.get 0#64 13).toNat b || bitAt (s.dieReg d 0x1D1).toNat b || (s.die d).reclaiming.contains b

/-- A die's protection entries: their LWBASE and LWLIM (R378). -/
def State.protection (s : State) (d : Nat) : List (Dword × Dword) :=
  (List.range 16).map fun i => (s.dieReg d (0x1E0 + i), s.dieReg d (0x1F0 + i))

/-- Whether a protection entry grants a `.lw` access (R378): of the entries that stood as the packet entered the S5 siding. -/
def State.lwGranted (s : State) (core off n : Nat) (write : Bool) : Bool :=
  ((s.run.bind (·.window)).getD (s.protection (dieOf core))).any fun e =>
    let base := bits e.1.toNat 12 36
    let lim := e.2.toNat
    bitAt lim 0 && base ≤ bits lim 12 36 && base * 4096 ≤ off && off + n ≤ (bits lim 12 36 + 1) * 4096 &&
      bitAt lim (if write then 2 else 1) && (!bitAt lim 3 || s.secure core)

/-- The cause an access outside its space's extent traps with (R10, R246, R378); none where it lies within. -/
def extentCause (s : State) (core : Nat) (space : Space) (off n : Nat) (write : Bool) : Option Nat :=
  match space with
  | .global => none
  | .sp => if off + n ≤ 2 ^ 18 then none else some 0x06
  | .cw =>
    if off + n ≤ 2 ^ 22 &&
        !((List.range n).any fun i => s.coreDisabled (coreAtSlot (clusterOf core) ((off + i) / 2 ^ 18)))
      then none else some 0x06
  | .ds =>
    if off + n ≤ 2 ^ 25 && !((List.range n).any fun i => s.bankTaken (dieOf core) ((off + i) / 2 ^ 20)) then none
    else some 0x06
  | .lw => if off + n ≤ 24 * 2 ^ 30 && s.lwGranted core off n write then none else some 0x04

/-- The flattened address of a byte of a local space without copies. -/
def localAddr (core : Nat) (space : Space) (off : Nat) : Nat :=
  match space with
  | .cw => spBase (coreAtSlot (clusterOf core) (off / 2 ^ 18)) + off % 2 ^ 18
  | .ds => dsBase (dieOf core) + off
  | _ => spBase core + off

/-- Bytes read from a local space, with the bits of those marked uncorrectable. -/
def State.localBytes (s : State) (core : Nat) (space : Space) (off : Nat) : Nat → List Byte
  | 0 => []
  | n + 1 => s.byte (localAddr core space off) :: State.localBytes s core space (off + 1) n

/-- The bits of those of `n` bytes of a local space that are uncorrectable. -/
def State.localBad (s : State) (core : Nat) (space : Space) (off n : Nat) : Nat :=
  (List.range n).foldl (fun acc i => if s.marked (localAddr core space (off + i)) then acc + 2 ^ i else acc) 0

/-- Bytes stored to a local space, their marks cleared. -/
def State.localStore (s : State) (core : Nat) (space : Space) (off : Nat) : List Byte → State
  | [] => s
  | b :: bs => State.localStore (s.store (localAddr core space off) [b]) core space (off + 1) bs

/-! ## How a meaning ends -/

/-- The seal: port movements are committed (R35) and the context goes on to its next instruction. -/
def sealUp : Mach Unit := do
  commitPorts
  modifyMe Ctx.repNext

/-- The call that a sluice core runs records that the net pool has refused an access (R115). -/
def State.noteRefused (s : State) (core : Nat) : State :=
  let x := s.core core
  s.setCore core { x with running := x.running.map fun call => { call with ne := true } }

/-- An access of a sluice program that the net pool refuses is not performed: its call records that, and the program goes on
(R115, R107). What a refused load or atomic leaves in its register the manual does not say: a free value. -/
def State.refusedBySluice (s : State) (k : Nat) : State :=
  let c := s.ctxAt k
  let s := s.noteRefused (k / 16)
  match destOfWords c.ir with
  | none => s.setCtxAt k c.repNext
  | some r =>
    let (i, s) := s.takeFree
    s.setCtxAt k ((if r < 64 then c.setX (Fin.ofNat 64 r) (Config.freeDword i)
      else c.setRegNat r (Config.freeDword i).toNat).repNext)

/-- The outcome of an instruction that traps: the trap is taken with nothing of the instruction left in its context; what
left the core before the seal stays (copies filled, shadows made, harvests merged). A run of a packet only records how it has left
its path. -/
def outcomeOf (s0 s : State) (e : Exc) : Out :=
  let k := s0.myKey
  let c := s0.me
  let back := s.setCtxAt k c
  if s0.run.isSome then .next { s with run := s.run.map fun r => { r with raised := some e } }
  else match e with
  | .checked => .next s0
  | .trap cause v =>
    if cause = 0x07 && isSluice (k / 16) then .next (back.refusedBySluice k) else .next (back.takeTrap k cause c.pc v)
  | .trapAfter cause v =>
    match EStateM.run sealUp s with
    | .ok _ t => .next (t.takeTrap k cause (t.ctxAt k).pc v)
    | .error _ t => .next (t.takeTrap k cause (t.ctxAt k).npc v)
  | .notPresent gva v home fetch write => .next (back.notPresent k gva v home fetch write)
  | .retry => .next s0
  | .hold w =>
    -- the PTS that a release's pushes have raised stays raised (R86)
    let c := { c with status := .waiting w none, pts := max c.pts (s.ctxAt k).pts }
    .next ((back.setCtxAt k c).addWait w (.ctx (k / 16) (k % 16)))

/-- Runs a meaning on the running context, and seals it. -/
def finish (m : Mach Unit) (s : State) : Out :=
  match EStateM.run (do m; sealUp) s with
  | .ok _ s' => .next s'
  | .error e s' => outcomeOf s s' e

/-- A meaning that only arithmetic cores execute (R201). -/
def finishArith (m : Mach Unit) (s : State) : Out :=
  finish (do check (isArith (← myCore)) 0x01 (← me).ir; m) s

/-- Traps with cause 0x09 where a FEATURE bit is clear (R198, R392). -/
def needFeature (bit : Nat) : Mach Unit := do
  let s ← get
  beforeSeal (check (bitAt s.feature.toNat bit) 0x09 s.me.ir)

/-- Traps with cause 0x06 at unit level (R198, R337). -/
def needSteward : Mach Unit := do
  let s ← get
  check (isRingmaster s.cur.1) 0x06 s.me.ir

/-- Raises the running context's PTS (R84, R86). -/
def raisePts (t : Nat) : Mach Unit := modifyMe fun c => { c with pts := max c.pts t }

/-- The running context as an agent. -/
def myAgent : Mach Agent := do
  let s ← get
  return s.coreAgent s.myKey

/-- A release of the running context at a scope (R79, R86). -/
def releaseMine (scope : Scope) : Mach Unit := do
  release (← myAgent) scope raisePts

/-- The region slot of a launch's region in a cluster (R124): its key, 16 x cluster + slot, and the slot. -/
def State.fitSlot (s : State) (cluster launch id : Nat) : Option (Nat × FitSlot) :=
  s.fit.find? fun e => e.1 / 16 == cluster && e.2.launch == launch && e.2.id == id

/-- A pinning packet of a context with an active region pins that region's slot (R134); `c` is the context as it issued it. -/
def State.pinFor (s : State) (k : Nat) (c : Ctx) : State :=
  match c.region with
  | none => s
  | some id =>
    match s.fitSlot (clusterOf (k / 16)) c.launchid.toNat id with
    | none => s
    | some (key, x) => { s with fit := s.fit.put key { x with state := .pinned } }

/-- The same of the context as it stands. -/
def State.pinActive (s : State) (k : Nat) : State := s.pinFor k (s.ctxAt k)

/-- The running context's packet, which ends its unit, pins the region it had: after the accesses that may still abort the unit,
which leave the slot unpinned (R134, R135). -/
def pinsOf (c : Ctx) : Mach Unit := modify fun s => s.pinFor s.myKey c

/-- The running context's packet pins its region's slot (R134). -/
def pins : Mach Unit := modify fun s => s.pinActive s.myKey

end Sys2Proof.Machine
end

