-- ==== Sys2Proof/Machine/Access.lean ====
section
/-!
DEFINITION. Scalar memory access: LD, ST and PREF over the five spaces (R243 to R252), and the accesses of several bytes
that the vector instructions and DICT.LOAD build on them.
-/
namespace Sys2Proof.Machine

/-- SPACE 1 to 3 trap on ringmaster and sluice cores, and SPACE 4 on ringmaster cores (R201). -/
def spaceCheck (space : Space) : Mach Unit := do
  let core ← myCore
  let ok := match space with
    | .global => true
    | .lw => !isRingmaster core
    | _ => isArith core
  check ok 0x01 (← me).ir

/-- The pieces of an access in a space with copies; an address that routes nowhere traps with cause 0x06 (R246). -/
def sitesOf (space : Space) (ea val : Dword) (n : Nat) : Mach (List (Site × Nat)) := do
  let s ← get
  (pieces ea.toNat n).mapM fun p =>
    let a := ea + BitVec.ofNat 64 p.1
    match space with
    | .lw => pure (lwSite (dieOf s.cur.1) a val, p.2)
    | _ => match globalSite s a val with
      | some t => pure (t, p.2)
      | none => trap 0x06 val

/-- The extent, bank, slot and protection checks of an access (R10, R246). -/
def extentCheck (space : Space) (ea val : Dword) (n : Nat) (write : Bool) : Mach Unit := beforeSeal do
  let s ← get
  match extentCause s s.cur.1 space ea.toNat n write with
  | none => pure ()
  | some cause => trap cause val

/-- The coherence grain of a piece's page (R59); 32 bytes where no leaf maps it. -/
def State.grainSize (s : State) (t : Site) : Nat :=
  if t.lw.isSome then 128
  else match leafOf s t.loc with
    | some e => 32 * 4 ^ pteGrain e.pte.toNat
    | none => 32

/-- Bytes of one grain are read from one copy (R269): an L1 that holds sectors of a 512-byte grain (R57) serves several of them only
where they all hit with the same write time; otherwise it drops them, and one copy above serves them all. -/
def oneCopy (a : Agent) (sites : List (Site × Nat)) (pts : Nat) : Mach Unit := do
  match a.l1 with
  | none => pure ()
  | some core =>
    for p in sites do
      let s ← get
      let mine := sites.filter fun q => q.1.key / 512 == p.1.key / 512
      if 1 < mine.length && s.grainSize p.1 == 512 then
        let held := mine.map fun q => s.findCopy (l1Place core) q.1.key
        let times := held.map fun h => h.map fun c => c.2.wts
        let serves := held.all fun h => h.any fun c => c.2.serves pts (some a.lease) true
        if !(serves && times.all fun w => w == times.headD none) then
          modify fun s =>
            held.foldl (fun s h => match h with
              | some c => s.dropCopy (l1Place core) c.1
              | none => s) s

/-- The number under which a byte of an access is known among a core's unperformed stores (R28): a flattened address, or, in a space with
copies, the key of its copies. -/
def byteKey (s : State) (core : Nat) (space : Space) (ea : Dword) : Nat :=
  match space with
  | .global => ((globalSite s ea ea).map fun t => 2 ^ 62 + t.key).getD (2 ^ 63)
  | .lw => 2 ^ 62 + (lwSite (dieOf core) ea ea).key
  | _ => localAddr core space ea.toNat

/-- The bytes of a span by their numbers. -/
def Span.keys (s : State) (core : Nat) (x : Span) : List (Nat × Option Byte) :=
  x.bytes.zipIdx.map fun b =>
    (match x.space with
      | some space => byteKey s core space (x.ea + BitVec.ofNat 64 b.2)
      | none => x.ea.toNat + b.2, b.1)

/-- The youngest older store's say of a byte that a packet reads. -/
def PacketRun.forwarded (r : PacketRun) (key : Nat) : Option (Option Byte) :=
  (r.older.reverse.find? fun o => o.1 == key).map Prod.snd

/-- Bytes as memory holds them, each replaced by that of the youngest older store of the context that is not yet performed (R28), and which
of them memory itself gives. A byte that an atomic has still to give is waited for. -/
def forward (keys : List Nat) (bs : List Byte) : Mach (List (Byte × Bool)) := do
  match (← get).run with
  | none => return bs.map fun b => (b, true)
  | some r =>
    (keys.zip bs).mapM fun p =>
      match r.forwarded p.1 with
      | none => return (p.2, true)
      | some (some b) => return (b, false)
      | some none => throw .retry

/-- The numbers of `n` bytes of a space from an address. -/
def State.keysAt (s : State) (core : Nat) (space : Space) (ea : Dword) (n : Nat) : List Nat :=
  (List.range n).map fun i => byteKey s core space (ea + BitVec.ofNat 64 i)

/-- A packet's run notes stretches of `n` bytes that it is to load, before it loads any of them (R77): those of a space, or cells of a
local memory. -/
def noteLoads (space : Option Space) (eas : List Dword) (n : Nat) : Mach Unit :=
  modify fun s => { s with run := s.run.map fun r =>
    { r with loads := r.loads ++ eas.map fun ea => { space := space, ea := ea, bytes := List.replicate n none } } }

/-- The same of one stretch of a space. -/
def noteRead (space : Space) (ea : Dword) (n : Nat) : Mach Unit := noteLoads (some space) [ea] n

/-- What a load of `n` bytes takes, and whether a byte that it takes from memory is uncorrectable; `bad` is the mask of those that are. -/
def taken (space : Space) (ea : Dword) (bs : List Byte) (bad : Nat) : Mach (List Byte × Bool) := do
  let s ← get
  if s.run.isNone then return (bs, bad != 0)
  else
    let r ← forward (s.keysAt s.cur.1 space ea bs.length) bs
    return (r.map Prod.fst, r.zipIdx.any fun p => p.1.2 && bitAt bad p.2)

/-- The bad bits of pieces one after the other. -/
def joinBad : List (List Byte × Nat) → Nat
  | [] => 0
  | p :: r => p.2 + 2 ^ p.1.length * joinBad r

/-- Weakly loads bytes that pass the extent check: the bytes, and whether one of them is uncorrectable (R244, R245). -/
def fetchBytes (space : Space) (ea val : Dword) (n : Nat) : Mach (List Byte × Bool) := do
  noteRead space ea n
  match space with
  | .global | .lw =>
    let a ← myAgent
    let pts := (← me).pts
    let sites ← sitesOf space ea val n
    oneCopy a sites pts
    let parts ← sites.mapM fun p => weakLoad a p.1 .read p.2 pts
    raisePts (parts.foldl (fun t p => max t p.2.2) pts)
    taken space ea (parts.flatMap fun p => p.1) (joinBad (parts.map fun p => (p.1, p.2.1)))
  | _ =>
    let s ← get
    taken space ea (s.localBytes s.cur.1 space ea.toNat n) (s.localBad s.cur.1 space ea.toNat n)

/-- Stretches of global memory that are to be loaded as one: those in one grain then come from one copy (R269, R270). -/
def oneCopyOf (xs : List (Dword × Nat)) (val : Dword) : Mach Unit := do
  let sites ← xs.mapM fun x => sitesOf .global x.1 val x.2
  oneCopy (← myAgent) sites.flatten (← me).pts

/-- A weak load of `n` bytes with the checks of R246 past alignment. -/
def loadBytes (space : Space) (ea : Dword) (n : Nat) : Mach (List Byte) := do
  extentCheck space ea ea n false
  let (bs, bad) ← fetchBytes space ea ea n
  check (!bad) 0x0E ea
  return bs

/-- The home's answers a store of `n` bytes needs before its seal (R249, R250): the grants of all pieces. -/
def grantBytes (space : Space) (ea val : Dword) (n : Nat) : Mach Unit := do
  match space with
  | .global =>
    let a ← myAgent
    for p in ← sitesOf space ea val n do writeGrant a p.1 .write
  | _ => pure ()

/-- The shadow probes of all pieces (R249). -/
def probeBytes (space : Space) (ea val : Dword) (n : Nat) : Mach Unit := do
  match space with
  | .global =>
    let a ← myAgent
    for p in ← sitesOf space ea val n do writeProbe a p.1 p.2
  | _ => pure ()

/-- Performs a weak store that has passed its checks (R248). -/
def performStore (space : Space) (ea : Dword) (bs : List Byte) : Mach Unit := do
  match space with
  | .global | .lw =>
    let a ← myAgent
    let pts := (← me).pts
    let sites ← sitesOf space ea ea bs.length
    let mut off := 0
    let mut top := pts
    for p in sites do
      let t ← weakStore a p.1 ((bs.drop off).take p.2) pts
      top := max top t
      off := off + p.2
    raisePts top
  | _ => modify fun s => s.localStore s.cur.1 space ea.toNat bs

/-- A weak store with the checks of R250 past alignment. -/
def storeBytes (space : Space) (ea : Dword) (bs : List Byte) : Mach Unit := do
  extentCheck space ea ea bs.length true
  grantBytes space ea ea bs.length
  probeBytes space ea ea bs.length
  leaveWith [{ space := some space, ea := ea, bytes := bs.map some }]
  performStore space ea bs

/-- Traps with cause 0x03 unless an address is a multiple of `n`. -/
def alignCheck (ea : Dword) (n : Nat) : Mach Unit := check (ea.toNat % n == 0) 0x03 ea

/-- A weak LD's or ST's offset (R180): OFF6 times the size. -/
def weakOffset (off : BitVec 6) (n : Nat) : Dword := BitVec.ofNat 64 (off.toNat * n)

/-- LD, weak (R243 to R246). -/
def execLd (rd base : XReg) (size : Size) (z : Bool) (space : Space) (off : BitVec 6) (s : State) : Out :=
  finish (do
    spaceCheck space
    let ea := (← readX base) + weakOffset off size.bytes
    alignCheck ea size.bytes
    let bs ← loadBytes space ea size.bytes
    writeX rd (extend z size.bytes (natOfBytes bs))) s

/-- LD `.st`, an acquire at its scope (R243 to R246, R80). -/
def execLdSt (rd base : XReg) (size : Size) (z : Bool) (space : Space) (scope : Scope) (s : State) : Out :=
  finish (do
    spaceCheck space
    let ea ← readX base
    alignCheck ea size.bytes
    extentCheck space ea ea size.bytes false
    match space with
    | .global | .lw =>
      let a ← myAgent
      noteRead space ea size.bytes
      for p in ← sitesOf space ea ea size.bytes do
        let (bs, bad, t) ← strongLoad a p.1 scope p.2 (← me).pts
        let (bs, bad) ← taken space ea bs bad
        check (!bad) 0x0E ea
        raisePts t
        writeX rd (extend z size.bytes (natOfBytes bs))
    | _ =>
      let (bs, bad) ← fetchBytes space ea ea size.bytes
      check (!bad) 0x0E ea
      writeX rd (extend z size.bytes (natOfBytes bs))) s

/-- ST, weak (R247 to R250). -/
def execSt (rv base : XReg) (size : Size) (space : Space) (off : BitVec 6) (s : State) : Out :=
  finish (do
    spaceCheck space
    let v ← readX rv
    let ea := (← readX base) + weakOffset off size.bytes
    alignCheck ea size.bytes
    storeBytes space ea (bytesOfNat size.bytes v.toNat)
    pins) s

/-- ST `.st`, a release at its scope (R247 to R250, R79, R91). -/
def execStSt (rv base : XReg) (size : Size) (space : Space) (scope : Scope) (s : State) : Out :=
  finish (do
    spaceCheck space
    let v ← readX rv
    let ea ← readX base
    let bs := bytesOfNat size.bytes v.toNat
    alignCheck ea size.bytes
    extentCheck space ea ea size.bytes true
    grantBytes space ea ea size.bytes
    probeBytes space ea ea size.bytes
    leaveWith [{ space := some space, ea := ea, bytes := bs.map some }]
    releaseMine scope
    match space with
    | .global | .lw =>
      let a ← myAgent
      for p in ← sitesOf space ea ea size.bytes do
        raisePts (← strongStore a p.1 scope bs (← me).pts)
    | _ => modify fun s => s.localStore s.cur.1 space ea.toNat bs
    pins) s

/-- PREF (R251): it never traps beyond R198, and has no effect in a local space or where a load would not run through. -/
def execPref (base : XReg) (space : Space) (off : BitVec 6) (s : State) : Out :=
  finish (do
    spaceCheck space
    let ea := (← readX base) + weakOffset off 8
    let s ← get
    match space with
    | .global =>
      match globalSite s ea ea with
      | some t =>
        noteRead .global ea 1
        prefetch (← myAgent) t (← me).pts
      | none => pure ()
    | .lw =>
      if (extentCause s s.cur.1 .lw ea.toNat 1 false).isNone then
        noteRead .lw ea 1
        prefetch (← myAgent) (lwSite (dieOf s.cur.1) ea ea) (← me).pts
    | _ => pure ()) s

end Sys2Proof.Machine
end

