-- ==== Sys2Proof/Machine/Atomics.lean ====
section
/-!
DEFINITION. AMO, CAS and RED (R310 to R313), FENCE and IFENCE (R314 to R316), and Brine: BUPD, BHARV and BQUERY (R98 to
R109, R317, R318).
-/
namespace Sys2Proof.Machine

/-- The one piece of an atomic's address; one that routes nowhere traps with cause 0x06 (R313). -/
def atomicSite (ea : Dword) : Mach Site := do
  match globalSite (← get) ea ea with
  | some t => return t
  | none => trap 0x06 ea

/-- The checks an atomic makes before its seal (R312, R313). -/
def atomicChecks (ea : Dword) (need : Need) (n : Nat) : Mach Site := do
  alignCheck ea n
  let t ← atomicSite ea
  let a ← myAgent
  writeGrant a t need
  writeProbe a t n
  return t

/-- AMO and CAS (R311): the checks, the release, the one step at the point of coherence, and the answer. An atomic that finds
its bytes uncorrectable performs nothing, answers 0 and traps at the next instruction (R313). -/
def answeredAtomic (size : OpSize) (rd : XReg) (ea : Dword) (scope : Scope) (rel : Bool) (f : Nat → Option Nat) :
    Mach Unit := do
  let n := size.bytes
  let t ← atomicChecks ea .readWrite n
  canWriteX rd
  leaveWith [{ space := some .global, ea := ea, bytes := List.replicate n none }]
  if rel then releaseMine scope
  let (old, pts, bad) ← atomic (← myAgent) t scope n (← me).pts true f
  pins
  raisePts pts
  if bad then
    writeX rd 0#64
    throw (.trapAfter 0x0E ea)
  else writeX rd (extend false n old)

/-- AMO (R310 to R313): the operand is x[rd]. -/
def execAmo (op : AmoOp) (size : OpSize) (rd rs1 : XReg) (scope : Scope) (_acq rel : Bool) (s : State) : Out :=
  finish (do
    let operand ← readX rd
    let ea ← readX rs1
    let w := 8 * size.bytes
    answeredAtomic size rd ea scope rel fun old => some (op.apply w old (operand.toNat % 2 ^ w))) s

/-- CAS of either size (R311): the expected value is x[rd]. -/
def compareAndSwap (size : OpSize) (rd rs1 rs2 : XReg) (scope : Scope) (rel : Bool) : Mach Unit := do
  let expected ← readX rd
  let ea ← readX rs1
  let new ← readX rs2
  let w := 8 * size.bytes
  answeredAtomic size rd ea scope rel fun old =>
    if old = expected.toNat % 2 ^ w then some (new.toNat % 2 ^ w) else none

/-- CAS.w (R310 to R313). -/
def execCasW (rd rs1 rs2 : XReg) (scope : Scope) (_acq rel : Bool) (s : State) : Out :=
  finish (compareAndSwap .w rd rs1 rs2 scope rel) s

/-- CAS.d (R310 to R313). -/
def execCasD (rd rs1 rs2 : XReg) (scope : Scope) (_acq rel : Bool) (s : State) : Out :=
  finish (compareAndSwap .d rd rs1 rs2 scope rel) s

/-- RED (R310 to R313): no answer, and its write takes its time from the PTS held at its seal. -/
def execRed (op : AmoOp) (size : OpSize) (rs1 rs2 : XReg) (scope : Scope) (rel : Bool) (s : State) : Out :=
  finish (do
    let ea ← readX rs1
    let v ← readX rs2
    let n := size.bytes
    let t ← atomicChecks ea .write n
    leaveWith [{ space := some .global, ea := ea, bytes := List.replicate n none }]
    if rel then releaseMine scope
    let _ ← atomic (← myAgent) t scope n (← me).pts false fun old => some (op.apply (8 * n) old (v.toNat % 2 ^ (8 * n)))
    pins) s

/-! ## Fences (R82, R315) -/

/-- FENCE `.acq`: every earlier access has returned when it runs, so it changes nothing but an active region. -/
def execFenceAcq (_scope : Scope) (s : State) : Out := finish pins s

/-- FENCE `.rel`: a release at its scope. -/
def execFenceRel (scope : Scope) (s : State) : Out :=
  finish (do
    leave
    releaseMine scope
    pins) s

/-- FENCE `.full`: both. -/
def execFenceFull (scope : Scope) (s : State) : Out :=
  finish (do
    leave
    releaseMine scope
    pins) s

/-- FENCE `.sp`: it has no effect but that later accesses wait for it, and it for earlier scratchpad and lane-slice stores. -/
def execFenceSp (s : State) : Out :=
  finishArith (do
    leave
    pins) s

/-- IFENCE (R316): the core's L1 instruction lines go. -/
def execIfence (s : State) : Out :=
  finish (do
    leave
    let core ← myCore
    modify fun s => s.dropPlaces fun p => p == l1iPlace core
    modifyMe fun c => { c with fetchPts := c.pts }
    pins) s

/-! ## Brine (R98 to R104, R317, R318) -/

/-- The holder index of an agent's updates to a home (R99). -/
def holderIndex (core : Nat) (l : Loc) : Nat :=
  if !l.bridge && l.home == dieOf core then clusterOf core % 16 else 16 + dieOf core

/-- Entries of a Brine directory (R100). -/
def brineEntries : Nat := 4096

/-- The slice of a home's Brine directory that keeps a grain: the L2 slice of R58; a booth core has one directory. -/
def directoryOf (bridge : Bool) (home phys : Nat) : Nat :=
  if bridge then 1024 + home
  else 16 * home + sliceOf phys

/-- Whether a grain's directory has an entry free. -/
def State.directoryRoom (s : State) (h : Home) : Bool :=
  let dir := fun (key phys : Nat) => directoryOf (64 * 2 ^ 48 ≤ key) (if 64 * 2 ^ 48 ≤ key then key / 2 ^ 48 - 64 else key / 2 ^ 48) phys
  (s.brine.filter fun e => dir e.1 e.2.phys == dir h.key h.base).length < brineEntries

/-- The Brine entry of a byte, with its grain's key. -/
def State.brineOf (s : State) (key : Nat) : Option (Nat × BrineEntry) :=
  [32, 128, 512].findSome? fun z =>
    match s.brine.find (key / z * z) with
    | some e => if e.size == z then some (key / z * z, e) else none
    | none => none

/-- Before an update, the agent's own clean copies of the grain leave, so that its later loads follow the update (R77; assumption log,
entry 12). A dirty one stays: no BUPD pushes it (R344). -/
def yieldCopies (a : Agent) (t : Site) : Mach Unit :=
  modify fun s => (a.levels t).foldl (fun s p =>
    match s.findCopy p t.key with
    | some (base, c) => if c.dirty = 0 then s.dropCopy p base else s
    | none => s) s

/-- A request for a grant at the home (R98, R104, R317): the page is writable Brine memory, a drop over the byte holds the request,
and a grain under another tag, or being harvested, is harvested first. Whether that harvest met a bad partial. -/
def requestGrant (t : Site) (tag : BrineTag) : Mach (Home × Bool) := do
  let a ← myAgent
  let h ← homeOf a t .write
  check (pteBr h.pte) 0x06 t.val
  if (← get).dropHolds t.key tag.bytes true then holdAt t
  let adm ← contend a h
  modify fun s => if h.site.loc.bridge then s else s.countAccess h.site.loc.home adm
  match (← get).brine.find h.key with
  | none => return (h, false)
  | some e =>
    if e.tag == tag && e.state == BrineState.brine then return (h, false)
    else
      if !(← harvest h) then trap 0x07 t.val
      modify fun s => if h.site.loc.bridge then s else s.reachLine h { adm with counter := none }
      return (h, (← get).marked (grainMark h.base))

/-- The entry of a grain in the home's directory; a new one where it has none. -/
def State.brineEntry (s : State) (h : Home) (tag : BrineTag) : BrineEntry :=
  (s.brine.find h.key).getD
    { tag := tag, state := .brine, size := h.size, maxPts := 0, holders := [], returned := [], phys := h.base }

/-- A holder's partial put into a grain's entry, and its frame brought into the holder. -/
def State.putPartial (s : State) (h : Home) (idx : Nat) (e : BrineEntry) (p : Partial) : State :=
  { s with brine := s.brine.put h.key { e with holders := e.holders.put idx p } }.bringFor
    (holderPlace h.site.loc.home idx) h.key (pteClass h.pte)

/-- The update applied at a holder, its partial made where the holder has none (R101, R103). -/
def applyUpdate (h : Home) (idx : Nat) (tag : BrineTag) (off operand pts : Nat) : Mach Unit :=
  modify fun s =>
    let e := s.brineEntry h tag
    let p := (e.holders.find idx).getD { data := tag.identityData h.size, maxPts := 0, bad := false }
    let n := tag.bytes
    let v := tag.apply (numAt p.data off n) operand
    let p := { p with data := overwrite p.data off (bytesOfNat n v), maxPts := max p.maxPts pts }
    s.putPartial h idx { e with maxPts := max e.maxPts pts } p

/-- The entry under which a holder has a grain in Brine state with a tag (R103): until a recall reaches it, whatever the home has
begun. -/
def State.heldUnder (s : State) (key idx : Nat) (tag : BrineTag) : Option (Nat × BrineEntry) :=
  match s.brineOf key with
  | none => none
  | some (base, e) => if e.tag == tag && (e.holders.find idx).isSome then some (base, e) else none

/-- A grant that has arrived (R104, R317): the holder's identity partial is made, where the directory has room. -/
def takeGrant (h : Home) (idx : Nat) (tag : BrineTag) : Mach Unit :=
  modify fun s =>
    if (s.brine.find h.key).isSome || s.directoryRoom h then
      let e := s.brineEntry h tag
      if (e.holders.find idx).isSome then s
      else s.putPartial h idx e { data := tag.identityData h.size, maxPts := 0, bad := false }
    else s

/-- A sealed update (R103, R317): at its holder, or, where a recall has taken the grain from there, after a new grant; a directory
that is full has it performed on the home value as an atomic write (R100). A late grant that its page or the net pool refuses
discards the update. A directory-full update of home bytes marked uncorrectable combines them as they are and clears their
marks: the manual gives no reaction (DESIGN CHOICE: assumption log, entry 42). -/
def performUpdate (t : Site) (idx : Nat) (tag : BrineTag) (operand pts : Nat) : Mach Unit := do
  match (← get).heldUnder t.key idx tag with
  | some (base, e) =>
    applyUpdate { base := e.phys, key := base, size := e.size, pte := 0, site := t } idx tag (t.key - base) operand pts
  | none =>
    tryCatch (do
      let (h, _) ← requestGrant t tag
      let off := t.key - h.key
      let s ← get
      if (s.brine.find h.key).isSome || s.directoryRoom h then applyUpdate h idx tag off operand pts
      else
        let a ← myAgent
        arrive a h off tag.bytes true
        let old := (← get).num (h.base + off) tag.bytes
        let _ ← homePut h off (bytesOfNat tag.bytes (tag.apply old operand)) pts) fun e =>
      match e with
      | .trap _ _ => pure ()
      | e => throw e

/-- The checks of a BUPD before its seal (R317): alignment, and the grant that its holder may need. -/
def updateChecks (ea : Dword) (tag : BrineTag) : Mach (Site × Nat) := do
  needFeature 2
  alignCheck ea tag.bytes
  let t ← atomicSite ea
  let idx := holderIndex (← myCore) t.loc
  if ((← get).heldUnder t.key idx tag).isNone then beforeSeal do
    let (h, bad) ← requestGrant t tag
    check (!bad) 0x0E t.val
    let s ← get
    if (s.brine.find h.key).isNone && !s.directoryRoom h then writeProbe (← myAgent) t tag.bytes
    takeGrant h idx tag
  return (t, idx)

/-- BUPD (R317): its grant before the seal; then its release, whose pushes may harvest the grain again (R104); then the
update. -/
def execBupd (tag : BrineTag) (rs1 rs2 : XReg) (scope : Scope) (rel : Bool) (s : State) : Out :=
  finishArith (do
    needFeature 2
    let ea ← readX rs1
    let v ← readX rs2
    let (t, idx) ← updateChecks ea tag
    leaveWith [{ space := some .global, ea := ea, bytes := List.replicate tag.bytes none }]
    if rel then releaseMine scope
    yieldCopies (← myAgent) t
    performUpdate t idx tag (v.toNat % 2 ^ (8 * tag.bytes)) (← me).pts
    pins) s

/-- BHARV (R318): a write check of the grain, which harvests it on a Brine page; a drop over the grain holds it (R119). -/
def execBharv (rs1 : XReg) (s : State) : Out :=
  finishArith (do
    needFeature 2
    let t ← atomicSite (← readX rs1)
    let h ← homeOf (← myAgent) t .write
    if (← get).dropHolds t.key 1 true then holdAt t
    if pteBr h.pte && ((← get).brine.find h.key).isSome then
      if !(← harvestOf h) then trap 0x07 t.val
      check (!(← get).marked (grainMark h.base)) 0x0E t.val
    pins) s

/-- BQUERY (R318): the home's entry for a grain that is in Brine state; any other reads zero (a grain that is being harvested or discarded
is not in it: assumption log, entry 42). -/
def execBquery (rd rs1 : XReg) (s : State) : Out :=
  finishArith (do
    needFeature 2
    let t ← atomicSite (← readX rs1)
    let h ← homeOf (← myAgent) t .either
    let word := match (← get).brine.find h.key with
      | none => 0
      | some e => if e.state == BrineState.brine then e.tag.code + 32 + 64 * e.holders.length else 0
    writeX rd (BitVec.ofNat 64 word)
    pins) s

end Sys2Proof.Machine
end

