-- ==== Sys2Proof/Machine/Queues.lean ====
section
/-!
DEFINITION. Work: answers to waiting instructions (R154, R309), continuation records (R143), work queues (R145 to R148), unit
start (R150, R151), suspension (R152), launches and their counters (R139 to R142, R163, R164).
-/
namespace Sys2Proof.Machine

/-! ## Steps of the machine -/

/-- A step that no instruction is: it always ends, and what an exception leaves undone is not done. -/
def event (m : Mach Unit) (s : State) : Out :=
  match EStateM.run m s with
  | .ok _ s' => .next s'
  | .error _ s' => .next { s' with cur := s.cur }

/-- What a computation answers, or none where it leaves by an exception; the running context stays as it was. -/
def attempt {α : Type} (m : Mach α) : Mach (Option α) := do
  let cur := (← get).cur
  tryCatch (do return some (← m)) fun _ => do
    modify fun s => { s with cur := cur }
    return none

/-- The same of a computation that an instruction or a step needs, and that waits where its accesses do. -/
def attemptOrWait {α : Type} (m : Mach α) : Mach (Option α) := do
  let cur := (← get).cur
  tryCatch (do return some (← m)) fun e => do
    match e with
    | .hold w => throw (.hold w)
    | _ =>
      modify fun s => { s with cur := cur }
      return none

/-- How an access that a step of the machine makes has ended. -/
inductive Answer (α : Type) where
  | done (a : α)
  /-- Its home holds it. -/
  | held
  | refused

/-- Runs an access that a step of the machine makes. One that must wait at its home waits there, and the step `again` is then taken
again (R88, R93, R376, R119, R87). -/
def attemptHeld {α : Type} (again : Due) (m : Mach α) : Mach (Answer α) := do
  let cur := (← get).cur
  tryCatch (do return .done (← m)) fun e => do
    modify fun s => { s with cur := cur }
    match e with
    | .hold w =>
      modify fun s => s.addWait w (.step again)
      return .held
    | _ => return .refused

/-- A step whose accesses may wait: it is then taken again. -/
def eventHeld (step : Instr) (m : Mach Unit) (s : State) : Out :=
  event (do
    let _ ← attemptHeld ⟨step, s.subject⟩ m) s

/-- Runs a computation as another context. -/
def asContext {α : Type} (k : Nat) (m : Mach α) : Mach α := do
  let cur := (← get).cur
  modify fun s => { s with cur := (k / 16, k % 16) }
  let a ← m
  modify fun s => { s with cur := cur }
  return a

/-! ## Answers (R154, R309) -/

/-- The running context waits; its answer goes to `rd`. -/
def waitFor (w : Wait) (rd : Option XReg) : Mach Unit := modifyMe fun c => { c with status := .waiting w rd }

/-- An answer set on its way to a context that waits for it: it leaves its wait, and ANSWER_ARRIVAL writes the value. With
`merge`, the word is merged into FCSR when it is written (R160). -/
def State.answer (s : State) (k : Nat) (w : Wait) (v : Dword) (word : Dword) (merge : Bool) : State :=
  let c := s.ctxAt k
  match c.status with
  | .waiting w' rd =>
    if w' = w then
      (s.setCtxAt k { c with status := .waiting .answer rd }).dueAt .answerArrival
        { place := k / 16, index := k % 16, addr := word, value := v, flag := merge }
    else s
  | _ => s

/-- A context's answer: through the pan entry that its instruction took in the pipe, or, where it runs whole instructions, written at
once. A bound write port takes it as its next element (R14). One that a pre-emption has forestalled is held (R357). -/
def giveAnswer (k : Nat) (rd : Option XReg) (v : Dword) (word : Option Dword) : Mach Unit := do
  modify fun s => s.setCtxAt k { s.ctxAt k with status := .running }
  let c := (← get).ctxAt k
  let port := rd.any fun r => (portOf r).any fun p => (c.port p).bound
  if ((← get).core (k / 16)).preempted && !port then modify fun s => s.holdAnswer k rd v word
  else match (((← get).pipe (k / 16)).ctxOf (k % 16)).awaiting with
  | some seq =>
    if port then asContext k do
      if let some r := rd then
        writeX r v
        commitPorts
    modify fun s => s.fillAnswer (k / 16) (k % 16) seq v word
  | none =>
    asContext k do
      if let some r := rd then
        writeX r v
        commitPorts
      if let some w := word then modifyMe fun c => c.mergeWord w

/-- ANSWER_ARRIVAL (R154, R309): an external result reaches the pan entry its instruction took. -/
def execAnswerArrival (s : State) : Out :=
  event (do
    let j := s.subject
    let k := ctxKey j.place j.index
    match (s.ctxAt k).status with
    | .waiting .answer rd | .waiting (.remote _) rd => giveAnswer k rd j.value (if j.flag then some j.addr else none)
    | _ => pure ()) s

/-- An event of R333 for a context: its latch is set, and a WFE that waits ends. -/
def State.eventAt (s : State) (k : Nat) : State :=
  let c := s.ctxAt k
  match c.status with
  | .waiting .event _ => s.setCtxAt k { c with status := .running, latch := false }
  | _ => s.setCtxAt k { c with latch := true }

/-- An event for every context of a core. -/
def State.coreEvent (s : State) (core : Nat) : State :=
  (List.range (if isArith core then 11 else 1)).foldl (fun s n => s.eventAt (ctxKey core n)) s

/-! ## Global memory as the hardware reaches it -/

/-- The NI of a die as the requester of an access the hardware makes itself. -/
def niAgent (d : Nat) (secure : Bool) : Agent :=
  { l1 := none, cc := none, die := some d, ccBit := 16, dieBit := 16, lease := 32, secure := secure }

/-- Bytes read by strong loads at `.mod`, and the PTS they give. -/
def strongBytes (a : Agent) (gva : Dword) (n pts : Nat) : Mach (List Byte × Nat) := do
  let parts ← (← sitesOf .global gva gva n).mapM fun p => strongLoad a p.1 .mod p.2 pts
  check (parts.all fun p => p.2.1 == 0) 0x0E gva
  return (parts.flatMap Prod.fst, parts.foldl (fun t p => max t p.2.2) pts)

/-- Bytes written by strong stores at `.mod`, their release made already; the PTS they give. -/
def strongPut (a : Agent) (gva : Dword) (bs : List Byte) (pts : Nat) : Mach Nat := do
  let sites ← sitesOf .global gva gva bs.length
  for p in sites do writeGrant a p.1 .write
  for p in sites do writeProbe a p.1 p.2
  let mut off := 0
  let mut top := pts
  for p in sites do
    let t ← strongStore a p.1 .mod ((bs.drop off).take p.2) top
    top := max top t
    off := off + p.2
  return top

/-! ## Continuation records (R143) -/

/-- Whether an address is global memory of kind 0 on this module. -/
def State.kindZero (s : State) (gva : Dword) : Bool := (route s gva).any fun l => !l.bridge

/-- The checks of R143 on a record's address. -/
def checkRecord (gva : Dword) : Mach Unit := do
  check (gva.toNat % 64 == 0) 0x03 gva
  check ((← get).kindZero gva) 0x06 gva

/-- Bytes of a record or a table as a number. -/
def field (bs : List Byte) (off n : Nat) : Nat := numAt bs off n

/-- R144's step 2, which R149 repeats: the next UNITID of the launch and the issuer's IDs written. The UNITID, and the PTS. -/
def countRecord (a : Agent) (record : Dword) (launch pts : Nat) : Mach (Nat × Nat) := do
  let s ← get
  let ids := match s.launches.find launch with
    | none => bytesOfNat 4 launch ++ bytesOfNat 12 0
    | some l => bytesOfNat 4 launch ++ bytesOfNat 4 l.graph ++ bytesOfNat 4 l.phase ++ bytesOfNat 4 l.job
  let c := (s.counter .launch launch).getD (Counter.fresh 0 0 0)
  let pts ← strongPut a (record + 28#64) (bytesOfNat 4 c.nextUnit ++ ids) pts
  return (c.nextUnit, pts)

/-- The launch counter raised for a record just counted, once nothing of its instruction can wait any more. -/
def State.raiseCounter (s : State) (launch : Nat) : State :=
  match s.counter .launch launch with
  | none => s
  | some c => s.setCounter .launch launch { c with count := c.count + 1, nextUnit := c.nextUnit + 1 }

/-- A release that helps make a record ready leaves its PTS in RPTS (R96, R143). -/
def noteRelease (a : Agent) (record : Dword) (pts : Nat) : Mach Unit := do
  match globalSite (← get) (record + 48#64) record with
  | none => trap 0x06 record
  | some t =>
    let _ ← atomic a t .mod 8 pts false fun old => if old < pts then some (pts % 2 ^ 48) else none

/-- The record is on its way to its segment (R146). -/
def State.requeue (s : State) (record : Dword) (rpts : Nat) : State :=
  s.dueAt .enqueue { Subject.nothing with addr := record, value := BitVec.ofNat 64 rpts }

/-- A JOINDEC of a record (R144), a `.mod` atomic on JOIN. One that finds JOIN at zero is none of the releases that made the
record ready, and leaves RPTS alone (R143). -/
def joinDec (a : Agent) (record : Dword) (pts : Nat) : Mach Unit := do
  match globalSite (← get) (record + 16#64) record with
  | none => trap 0x06 record
  | some t =>
    let (now, _) ← strongBytes a (record + 16#64) 4 pts
    if field now 0 4 != 0 then noteRelease a record pts
    let (old, _, bad) ← atomic a t .mod 4 pts false fun old => if old = 0 then none else some (old - 1)
    check (!bad) 0x0E record
    if old = 1 then modify fun s => s.requeue record pts
    else if old = 0 then
      let (bs, _) ← strongBytes a record 48 pts
      modify fun s => match s.counter .launch (field bs 32 4) with
        | none => s
        | some c => s.setCounter .launch (field bs 32 4) { c with juf := true }

/-! ## Queues (R145 to R148) -/

/-- The helpers of a segment's cluster may have an entry to take. -/
def State.offer (s : State) (d seg : Nat) : State := s.due .autoPop d seg
/-- The home segment of a core is offered to it again: one of its helpers has become idle. -/
def State.offerHome (s : State) (core : Nat) : State :=
  if isArith core then s.offer (dieOf core) (clusterOf core % 16) else s

/-- An entry joins the FIFO of its priority, stamped with its segment's pop count. SPILL is reported when the spill area is
full; the entry then waits at the segment, behind the others (R145). -/
def State.join (s : State) (d seg prio : Nat) (e : QEntry) : State :=
  let x := s.die d
  let key := 4 * seg + prio
  let s := (s.setDie d (x.enter key { e with stamp := x.pops.get 0 seg })).settleFifos d
  let s := if (s.die d).spillFull then s.dieEvent d 4 else s
  s.offer d seg

/-- A queue's entry for a record, from the record's bytes (R143, R145). -/
def queueEntry (record : Dword) (rpts : Nat) (bs : List Byte) : QEntry :=
  { record := record, rpts := rpts, stamp := 0, hint := field bs 20 2 % 64, launch := field bs 32 4, graph := field bs 36 4,
    phase := field bs 40 4, job := field bs 44 4 }

/-- ENQUEUE (R146, R155): a record reaches its segment and joins its FIFO, or is discarded where its launch is cancelled. A
record whose page is absent is parked until the page is there (assumption log, entry 14). -/
def execEnqueue (s : State) : Out :=
  event (do
    let record := s.subject.addr
    let home := ((route s record).map Loc.place).getD 0
    match ← attemptHeld ⟨.enqueue, s.subject⟩ (strongBytes (niAgent home true) record 56 s.subject.value.toNat) with
    | .held => pure ()
    | .refused =>
      modify fun s =>
        let d := s.die home
        s.setDie home
          { d with parks := d.parks ++ [{ gva := record, record := record, rpts := s.subject.value.toNat }] }
    | .done (bs, _) =>
      let launch := field bs 32 4
      if (← get).cancelled launch then modify fun s => s.endItem launch
      else
        let aff := field bs 20 2
        let e := queueEntry record (max s.subject.value.toNat (field bs 48 6)) bs
        modify fun s => s.join (bits aff 10 6) (bits aff 6 4) (field bs 22 1 % 4) e) s

/-- Whether a cluster of a die is hot (R399, R400). -/
def State.hot (s : State) (cluster : Nat) : Bool :=
  bitAt (s.dieReg (cluster / 16) 0x298).toNat (32 + cluster % 16)

/-- Whether a helper of a cluster may take an entry (R146, R400); a thief takes unbound ones alone. -/
def QEntry.eligible (e : QEntry) (cluster : Nat) (hot thief : Bool) : Bool :=
  if bitAt e.hint 5 then !thief && e.hint % 16 == cluster % 16 else !hot

/-- The aging of R147, for the FIFO of one priority. -/
def DieSt.ageFifo (d : DieSt) (seg : Nat) (p : Nat) : DieSt :=
  match d.fifos.get [] (4 * seg + p) with
  | [] => d
  | e :: r =>
    let n := d.pops.get 0 seg
    if 4096 < n - e.stamp then
      { d with fifos := d.fifos.put (4 * seg + p) r }.enter (4 * seg + p + 1) { e with stamp := n }
    else d

/-- The head entry on chip that a helper may take, of the highest priority that has one: its FIFO's key and the entry. -/
def DieSt.head (d : DieSt) (seg : Nat) (ok : QEntry → Bool) : Option (Nat × QEntry) :=
  [3, 2, 1, 0].findSome? fun p =>
    ((d.fifos.get [] (4 * seg + p)).find? ok).map fun e => (4 * seg + p, e)

/-- A pop of a segment (R147): the aging of each FIFO, the pop count, the entry taken, and the replay log's entry. The manual does not
order the aging of a pop and its take: the aging is first (DESIGN CHOICE: assumption log, entry 13). -/
def State.pop (s : State) (d seg core : Nat) (thief : Bool) : Option QEntry × State :=
  let ok := fun e => QEntry.eligible e (clusterOf core) (s.hot (clusterOf core)) thief
  if ((s.die d).head seg ok).isNone then (none, s)
  else
    let x := (((s.die d).ageFifo seg 0).ageFifo seg 1).ageFifo seg 2
    let x := { x with pops := x.pops.put seg (x.pops.get 0 seg + 1) }
    match x.head seg ok with
    | none => (none, (s.setDie d x).settleFifos d)
    | some (key, e) =>
      let s := (s.setDie d { x with fifos := x.fifos.put key ((x.fifos.get [] key).erase e) }).settleFifos d
      (some e, s.logEntry d 2 seg (s.coreIdWord core) (s.sstepOf e.launch) e.record)

/-! ## Starting a unit (R150, R151, R350) -/

/-- The registers and control state every launch and unit starts with (R142, R150, R151, R350, R292). -/
def Ctx.blank (c : Ctx) : Ctx :=
  { c with
    x := Vector.replicate 64 0#64, v := Vector.replicate 32 VVal.zero, k := Vector.replicate 8 0xFFFF#16,
    acc := Vector.replicate 4 AccVal.zero, handles := Vector.replicate 16 Handle.unset,
    ports := Vector.replicate 4 PortSt.unbound, rep := RepBuf.empty, fcsr := 0#64, ctxcfg := 0#64, wofs := 0#64,
    lease := 32#64, bartmo := 0#64, unitid := 0#64, merrlog := 0#64, merrcnt := 0#64, trapcause := 0#64, trappc := 0#64,
    trapval := 0#64, trapvec := 0#64, region := none, pending := none, fills := [], record := none, rpts := 0,
    status := .running }

/-- The stack top of a context (R142). -/
def Launch.stackTop (l : Launch) (core ctx : Nat) : Dword :=
  let q := (dieOf core - l.die0) * 256 + coreId core
  l.stack + BitVec.ofNat 64 ((q * 11 + ctx + 1) * l.stksz)

/-- A helper as a record starts it: R150's registers from the record's bytes, R151's control state from its core's control
context. -/
def Ctx.startUnit (c control : Ctx) (l : Option Launch) (core ctx : Nat) (record : Dword) (rpts : Nat) (bs : List Byte) : Ctx :=
  let live := field bs 24 2
  let b := c.blank
  let b := { b with
    pc := BitVec.ofNat 64 (field bs 0 8), npc := BitVec.ofNat 64 (field bs 0 8),
    fcsr := control.fcsr &&& 0x1F001F#64, ctxcfg := control.ctxcfg, lease := control.lease, bartmo := control.bartmo,
    trapvec := control.trapvec, unitid := BitVec.ofNat 64 (field bs 28 4), launchid := BitVec.ofNat 64 (field bs 32 4),
    record := some record, rpts := rpts }
  let b := b.setX 2 (BitVec.ofNat 64 (field bs 8 8))
  let b := match l with
    | none => b
    | some l => (b.setX 3 (l.stackTop core ctx)).setX 4 l.desc
  (List.range 16).foldl (fun b i =>
    if bitAt live i then b.setX (Fin.ofNat 64 (5 + i)) (BitVec.ofNat 64 (field bs (64 + 8 * i) 8)) else b) b

/-- Whether a helper may start a unit: it runs none, and waits for the record of none. -/
def Ctx.free (c : Ctx) : Bool := c.status == .idle && c.record.isNone

/-- Starts a record on a helper (R150): an acquire at `.mod` with RPTS, and the state above. While the record's home holds the read, the
helper waits for it; a record that cannot be read leaves the helper idle, and is parked with what its page needs (assumption log,
entry 14). -/
def startUnit (k : Nat) (record : Dword) (rpts : Nat) : Mach Unit := do
  let s ← get
  let core := k / 16
  let t := max (s.ctxAt k).pts rpts
  let again : Due :=
    ⟨.autoPop, { place := core, index := k % 16, addr := record, value := BitVec.ofNat 64 rpts, flag := true }⟩
  match ← attemptHeld again (strongBytes (s.coreAgent k) record 192 t) with
  | .held => modify fun s => s.setCtxAt k { s.ctxAt k with record := some record }
  | .refused =>
    modify fun s =>
      let s := s.setCtxAt k { s.ctxAt k with record := none }
      let home := ((route s record).map Loc.place).getD 0
      let d := s.die home
      s.setDie home { d with parks := d.parks ++ [{ gva := record, record := record, rpts := rpts }] }
  | .done (bs, t) =>
    modify fun s =>
      let c := s.ctxAt k
      let l := s.launches.find (field bs 32 4)
      let c := Ctx.startUnit c (s.ctxAt (ctxKey core 0)) l core (k % 16) record rpts bs
      s.setCtxAt k { c with pts := t, fetchPts := t }

/-- A start that has waited for its record: it is made, or, should its core be pre-empted meanwhile, the record is enqueued again. -/
def resumeStart (k : Nat) (record : Dword) (rpts : Nat) : Mach Unit := do
  let s ← get
  let c := s.ctxAt k
  if c.status == .idle && c.record == some record && !(s.core (k / 16)).preempted then startUnit k record rpts
  else modify fun s => (if c.status == .idle then s.setCtxAt k { c with record := none } else s).requeue record rpts

/-- Whether auto-pop is enabled for a helper (R148, R149). -/
def State.autoPops (s : State) (core h : Nat) : Bool :=
  let w := (s.core core).workcfg.toNat
  bitAt w 0 && bitAt w h && 1 ≤ h && h ≤ 10

/-- Helpers that would pop (R148): idle, enabled, and not held by reset or by a stop. -/
def State.wants (s : State) (core h : Nat) : Bool :=
  let x := s.core core
  s.autoPops core h && (s.ctxAt (ctxKey core h)).free && !x.stopped && !x.preempted && !s.inReset core

/-- AUTO_POP (R147, R148): the first helper of a segment's cluster, by core ID and number, that an entry waits for. With the flag a
helper, by its core and number, has waited for the record at the address, whose RPTS is the value. -/
def execAutoPop (s : State) : Out :=
  event (do
    let d := s.subject.place
    let seg := s.subject.index
    let cores := (List.range 16).map fun i => coreAtSlot (16 * d + seg) i
    if s.subject.flag then resumeStart (ctxKey d seg) s.subject.addr s.subject.value.toNat
    else match cores.findSome? fun c => ((List.range 11).find? fun h => s.wants c h).map fun h => (c, h) with
    | none => pure ()
    | some (core, h) =>
      let (e, s) := s.pop d seg core false
      set s
      match e with
      | none => pure ()
      | some e =>
        startUnit (ctxKey core h) e.record e.rpts
        modify fun s => s.offer d seg) s

/-- STEAL (R148): an idle helper whose home segment has nothing for it takes an unbound entry of the next segment that has
one. -/
def execSteal (s : State) : Out :=
  event (do
    let core := s.subject.place
    let h := s.subject.index
    let d := dieOf core
    let seg := clusterOf core % 16
    if s.wants core h && !s.hot (clusterOf core) &&
        ((s.die d).head seg fun e => e.eligible (clusterOf core) false false).isNone then
      match (List.range 15).find? fun i => ((s.die d).head ((seg + 1 + i) % 16) fun e => e.eligible 0 false true).isSome with
      | none => pure ()
      | some i =>
        let (e, s) := s.pop d ((seg + 1 + i) % 16) core true
        set s
        match e with
        | none => pure ()
        | some e => startUnit (ctxKey core h) e.record e.rpts) s

/-! ## Suspension (R152) -/

/-- Entries of a liveness table before the one that is asked for: whether their offsets rise, and the entry's masks. -/
def liveScan (s : State) (a : Agent) (table : Dword) (off : Nat) : Nat → Nat → Mach (Option (List Byte))
  | 0, _ => return none
  | n + 1, i => do
    let (bs, _) ← strongBytes a (table + BitVec.ofNat 64 (24 * i)) 24 0
    if field bs 0 4 = off then return some bs else liveScan s a table off n (i + 1)

/-- Whether the offsets of a liveness table rise strictly (R215). -/
def liveSorted (a : Agent) (table : Dword) : Nat → Nat → Nat → Mach Bool
  | 0, _, _ => return true
  | n + 1, i, prev => do
    let (bs, _) ← strongBytes a (table + BitVec.ofNat 64 (24 * i)) 4 0
    if prev ≤ field bs 0 4 then liveSorted a table n (i + 1) (field bs 0 4 + 1) else return false

/-- The liveness masks of a PC in a launch (R210, R215): XLIVE, and VLIVE, KLIVE and ALIVE; none where there is no entry.
Those of an unsorted table are free values. -/
def liveMasks (launch : Nat) (d : Nat) (pc : Dword) : Mach (Option (Dword × Dword)) := do
  match (← get).launches.find launch with
  | none => return none
  | some l =>
    let a := niAgent d ((← get).core (256 * d)).secure
    let found ← attemptOrWait do
      let (hd, _) ← strongBytes a (l.entry - 16#64) 16 0
      let table := l.entry + BitVec.ofNat 64 (field hd 0 8)
      let n := field hd 8 4
      if field hd 0 8 = 0 || pc.toNat < l.entry.toNat then return none
      else if ← liveSorted a table n 0 0 then
        match ← liveScan (← get) a table (pc - l.entry).toNat n 0 with
        | none => return none
        | some bs => return some (BitVec.ofNat 64 (field bs 8 8), BitVec.ofNat 64 (field bs 16 8))
      else
        let i ← modifyGet State.takeFree
        let j ← modifyGet State.takeFree
        return some (Config.freeDword i, Config.freeDword j)
    return found.getD none

/-- The running unit folds itself back into its record (R152, R153): CODE, JOIN where given, LIVE, RPTS, WAIT and the slots,
those of the slots that LIVE names (R15), as a release at `.mod`; its context becomes idle. In a cancelled level the record is discarded instead (R155). The record
and its PTS, unless it is discarded. -/
def foldUnit (code : Dword) (join : Option Nat) (wait : Dword) : Mach (Option (Dword × Nat)) := do
  let s ← get
  let c := s.me
  let core := s.cur.1
  match c.record with
  | none => return none
  | some record =>
    if s.cancelled c.launchid.toNat then
      modifyMe Ctx.toIdle
      modify fun s => (s.endItem c.launchid.toNat).offerHome core
      return none
    else
      releaseMine .mod
      let a ← myAgent
      let live := match ← liveMasks c.launchid.toNat (dieOf core) code with
        | none => 0xFFFF
        | some (x, _) => bits x.toNat 5 16
      let pts := (← me).pts
      let pts ← strongPut a record (bytesOfNat 8 code.toNat) pts
      let pts ← match join with
        | none => pure pts
        | some n => strongPut a (record + 16#64) (bytesOfNat 4 n) pts
      let pts ← strongPut a (record + 24#64) (bytesOfNat 2 live) pts
      let pts ← strongPut a (record + 48#64) (bytesOfNat 8 pts ++ bytesOfNat 8 wait.toNat) pts
      let pts ← ((List.range 16).filter (bitAt live)).foldlM (fun pts i =>
        strongPut a (record + BitVec.ofNat 64 (64 + 8 * i)) (bytesOfNat 8 (c.getX (Fin.ofNat 64 (5 + i))).toNat) pts) pts
      raisePts pts
      modifyMe Ctx.toIdle
      modify fun s => s.offerHome core
      return some (record, pts)

/-- Suspension entries and ring watchers of a core (R152). -/
def suspensionEntries : Nat := 64
def watcherCount : Nat := 8

/-- What a suspension entry is for: the waits on one phaser slot, or any other wait. -/
def phaserWait (core slot : Nat) : Nat := 96 * core + slot
def otherWait : Nat := 2 ^ 24

/-- Entries of a core in use, and those that no further wait may take: in use, or reserved by a registration and not yet used
by a wait on its phaser (R157). -/
def CoreSt.entriesUsed (x : CoreSt) : Nat := x.suspUsed.foldl (fun n e => n + e.2) 0
def CoreSt.entriesKept (x : CoreSt) : Nat :=
  x.suspReserved.foldl (fun n e => n + (e.2 - x.suspUsed.get 0 e.1)) x.entriesUsed

/-- Whether a core has a suspension entry for a wait: one that the waited phaser's registrations reserve, or one that nothing
uses or reserves (R152, R157). -/
def CoreSt.entryFree (x : CoreSt) (what : Nat) : Bool :=
  x.entriesUsed < suspensionEntries &&
    (x.suspUsed.get 0 what < x.suspReserved.get 0 what || x.entriesKept < suspensionEntries)

/-- Whether a wait of the running context may suspend its unit: a helper's unit, outside a repetition clause, with an entry
free for it (R152, R157, R241). -/
def State.maySuspend (s : State) (what : Nat) : Bool :=
  let c := s.me
  s.cur.2 != 0 && c.record.isSome && c.rep.st == .idle && (s.core s.cur.1).entryFree what

def State.useEntry (s : State) (core what : Nat) : State :=
  let x := s.core core
  s.setCore core { x with suspUsed := x.suspUsed.put what (x.suspUsed.get 0 what + 1) }
def State.freeEntry (s : State) (core what : Nat) : State :=
  let x := s.core core
  s.setCore core { x with suspUsed := x.suspUsed.put what (x.suspUsed.get 0 what - 1) }
/-- A change of the entries that a core reserves for a phaser (R157). -/
def State.reserveEntries (s : State) (core what : Nat) (by_ : Int) : State :=
  let x := s.core core
  s.setCore core { x with suspReserved := x.suspReserved.put what (((x.suspReserved.get 0 what : Nat) : Int) + by_).toNat }

/-! ## Counters of the levels above a launch (R139) -/

def levelUp : Level → Level
  | .launch => .graph
  | .graph => .phase
  | _ => .job

/-- The collective instances of a job that has ended go with its last operation. -/
def State.settleColls (s : State) (job : Nat) : State :=
  if (s.ops.any fun o => o.2.job == job) || s.launches.any fun l => l.2.job == job then s
  else { s with colls := s.colls.filter fun c => c.job != job }

/-- The counters and the launches of a job go when it completes; its commands in flight run to their end (R295). -/
def State.endJob (s : State) (job : Nat) : State :=
  let ids := s.launchesOf .job job
  let s : State := { s with
    counters := s.counters.filter fun e => e.2.job != job,
    launches := s.launches.filter fun e => e.2.job != job,
    barriers := s.barriers.filter fun b => !ids.contains b.launch }
  s.settleColls job

/-- Completes a level if its counter is zero and it is not held, and passes the completion up (R139). The fuel is the
number of levels. -/
def State.settle : Nat → State → Level → Nat → State
  | 0, s, _, _ => s
  | fuel + 1, s, l, id =>
    match s.counter l id with
    | none => s
    | some c =>
      if c.count = 0 && !c.held && !c.complete then
        let s := s.setCounter l id { c with complete := true }
        if l == .job then s.endJob id
        else
          let s := match s.counter (levelUp l) c.above with
            | none => s
            | some u => s.setCounter (levelUp l) c.above { u with count := u.count - 1 }
          State.settle fuel s (levelUp l) c.above
      else s

/-- A counter comes into being and enters the one above, which takes the hold given (R139, R141). -/
def State.openLevel (s : State) (l : Level) (id die0 job above : Nat) (held : Bool) : State × Bool :=
  match s.counter l id with
  | some c => (s.setCounter l id { c with held := held }, false)
  | none => (s.setCounter l id { Counter.fresh die0 job above with held := held }, true)

def State.countUp (s : State) (l : Level) (id : Nat) : State :=
  match s.counter l id with
  | none => s
  | some c => s.setCounter l id { c with count := c.count + 1, complete := false }

/-! ## Launches (R140 to R142, R164, R343, R398) -/

/-- The cores of a launch that its dies' maps leave enabled, by (die, core ID) (R398). -/
def State.coresOf (s : State) (l : Launch) : List Nat :=
  (List.range l.dies).flatMap fun i =>
    (List.range l.rows).flatMap fun r =>
      ((List.range l.cols).map fun c => 256 * (l.die0 + i) + 16 * (l.row0 + r) + l.col0 + c).filter
        fun core => !s.coreDisabled core

/-- What a launch leaves of a helper's own state (R292, R343, R350). -/
def Ctx.launched (c : Ctx) : Ctx :=
  { c with handles := Vector.replicate 16 Handle.unset, trapcause := 0#64, trappc := 0#64, trapval := 0#64, trapvec := 0#64 }

/-- A core as a launch starts it: its control context (R142, R151, R343, R387), and its helpers' own state. -/
def State.startCore (s : State) (id : Nat) (l : Launch) (core : Nat) : State :=
  let x := s.core core
  let world := (s.dieReg (dieOf core) (0x240 + coreId core / 64)).toNat
  let s := s.setCore core
    { x with
      workcfg := BitVec.ofNat 64 (l.ap.toNat + 2 * l.help), dict := [], wfmt := [], bars := [],
      secure := bitAt world (coreId core % 64) }
  let s := ((List.range 11).map (ctxKey core)).foldl (fun s k =>
    if (s.ctxs.find k).isSome then s.setCtxAt k (s.ctxAt k).launched else s) s
  let c := (s.ctxAt (ctxKey core 0)).blank
  let c := { c with pc := l.entry, npc := l.entry, launchid := BitVec.ofNat 64 id }
  s.setCtxAt (ctxKey core 0) (((c.setX 3 (l.stackTop core 0)).setX 4 l.desc).setX 5 l.args)

/-- A launch starts on all its cores, unless it has been cancelled. -/
def State.startLaunch (s : State) (id : Nat) : State :=
  match s.launches.find id with
  | none => s
  | some l =>
    if l.started || s.cancelled id then s
    else
      let s := { s with launches := s.launches.put id { l with started := true } }
      let s := (s.coresOf l).foldl (fun s core => s.startCore id l core) s
      if l.ap then
        (List.range l.dies).foldl (fun s i => (List.range 16).foldl (fun s seg => s.offer (l.die0 + i) seg) s) s
      else s

/-- A launch whose predecessors are complete starts at once, or waits for its tick; one whose tick has passed starts late
(R140, R164). -/
def State.beginLaunch (s : State) (id : Nat) : State :=
  match s.launches.find id with
  | none => s
  | some l =>
    if l.tick = 0 || l.tick = s.mtime then s.startLaunch id
    else if l.tick < s.mtime then
      let s := match s.counter .launch id with
        | none => s
        | some c => s.setCounter .launch id { c with late := true }
      s.startLaunch id
    else s

/-- LAUNCH_TICK_START (R164): MTIME reaches a waiting launch's TICK. -/
def execLaunchTickStart (s : State) : Out :=
  event (do
    match s.launches.find s.subject.place with
    | none => pure ()
    | some l =>
      if !l.started && 0 < l.tick && l.tick ≤ s.mtime && l.preds = 0 then modify fun s => s.startLaunch s.subject.place) s

/-- LQSTAT's new code for a command (R385), and the event of it (R384). -/
def State.lqstat (s : State) (d code : Nat) (busy : Bool) (addr : Dword) : State :=
  (s.setDieReg d 0x248 (BitVec.ofNat 64 (code + busy.toNat * 16 + bits addr.toNat 6 58 * 64))).dieEvent d 2

/-- Whether the bytes of a launch descriptor keep R141's table. -/
def descriptorOk (bs : List Byte) : Bool :=
  let w := field bs 24 8
  let stk := field bs 48 8
  let g := field bs 64 8
  field bs 0 8 % 2 == 0 && bits w 0 4 + bits w 8 4 ≤ 15 && bits w 4 4 + bits w 12 4 ≤ 15 &&
    bits w 16 6 + bits w 24 6 ≤ 63 && bits w 22 2 == 0 && bits w 30 34 == 0 && bits stk 0 32 % 16 == 0 &&
    bits stk 43 21 == 0 && bits g 43 21 == 0 && field bs 92 4 == 0 && (bs.drop 96).all (· == 0#8)

/-- A launch as its descriptor gives it. -/
def launchOf (desc : Dword) (bs : List Byte) : Launch :=
  let w := field bs 24 8
  { desc := desc, entry := BitVec.ofNat 64 (field bs 0 8), args := BitVec.ofNat 64 (field bs 8 8), row0 := bits w 0 4,
    col0 := bits w 4 4, rows := bits w 8 4 + 1, cols := bits w 12 4 + 1, die0 := bits w 16 6, dies := bits w 24 6 + 1,
    regtab := BitVec.ofNat 64 (field bs 32 8), stack := BitVec.ofNat 64 (field bs 40 8), stksz := field bs 48 4,
    ap := bitAt (field bs 52 2) 0, help := bits (field bs 52 2) 1 10, tick := field bs 56 8,
    succ := BitVec.ofNat 64 (field bs 72 8), job := field bs 88 4, graph := field bs 64 4, phase := field bs 84 4,
    preds := field bs 68 1, started := false, sstep := 0, reports := [] }

/-- Enters a launch in its counters and those above (R139), and starts it where nothing keeps it back. -/
def State.accept (s : State) (d : Nat) (desc : Dword) (bs : List Byte) : State :=
  let l := launchOf desc bs
  let id := field bs 80 4
  let more := field bs 69 1
  let s := { s with launches := s.launches.put id l }
  let gone := [(Level.graph, l.graph), (.phase, l.phase), (.job, l.job)].any fun p => (s.counter p.1 p.2).any (·.can)
  let (s, newG) := s.openLevel .graph l.graph d l.job l.phase ((s.counter .graph l.graph).any (·.held))
  let (s, newP) := if newG then s.openLevel .phase l.phase d l.job l.job ((s.counter .phase l.phase).any (·.held)) else (s, false)
  let (s, _) := if newP then s.openLevel .job l.job d l.job 0 ((s.counter .job l.job).any (·.held)) else (s, false)
  let s := if newP then s.countUp .job l.job else s
  let s := if newG then s.countUp .phase l.phase else s
  let s := s.countUp .graph l.graph
  let n := if gone then 0 else (s.coresOf l).length
  let s := s.setCounter .launch id { Counter.fresh d l.job l.graph with count := n, can := gone }
  let (s, _) := s.openLevel .graph l.graph d l.job l.phase (bitAt more 0)
  let (s, _) := s.openLevel .phase l.phase d l.job l.job (bitAt more 1)
  let (s, _) := s.openLevel .job l.job d l.job 0 (bitAt more 2)
  if n = 0 then s.due .launchComplete id
  else if l.preds = 0 then s.beginLaunch id
  else s

/-- A submission (R140, R141): the descriptor is read at its home as a strong load at `.mod` would. A load that its home holds
faults for no cause, and the submission waits with it. -/
def submit (again : Due) (d : Nat) (desc : Dword) (secure : Bool) : Mach Unit := do
  match ← attemptHeld again (strongBytes (niAgent d secure) desc 128 0) with
  | .held => pure ()
  | .refused => modify fun s => s.lqstat d 3 false desc
  | .done (bs, _) =>
    if descriptorOk bs then modify fun s => (s.accept d desc bs).lqstat d 1 false desc
    else modify fun s => s.lqstat d 3 false desc

/-- One successor of a complete launch (R140): PREDS falls by one as a `.mod` atomic, and at zero it starts. -/
def releaseSuccessor (a : Agent) (desc : Dword) : Mach Unit := do
  match globalSite (← get) (desc + 68#64) desc with
  | none => pure ()
  | some t =>
    let (old, _, bad) ← atomic a t .mod 1 0 false fun old => if old = 0 then none else some (old - 1)
    if old = 1 && !bad then
      modify fun s =>
        match s.launches.find? fun e => e.2.desc == desc && !e.2.started with
        | none => s
        | some (id, l) => { s with launches := s.launches.put id { l with preds := 0 } }.beginLaunch id

/-- The parent of a core in its launch's completion tree (R163), disabled cores passed over (R398). -/
def Launch.parent (s : State) (l : Launch) : Nat → Nat → Option Nat
  | 0, _ => none
  | fuel + 1, core =>
    let up : Option Nat :=
      if l.col0 < colOf core then some (core - 1)
      else if l.row0 < rowOf core then some (core - 16)
      else if l.die0 < dieOf core then some (256 * l.die0 + 16 * l.row0 + l.col0)
      else none
    match up with
    | none => none
    | some p => if s.coreDisabled p then Launch.parent s l fuel p else some p

/-- Whether the root of a launch's completion tree has its combined word (R163). -/
def Launch.treeDone (l : Launch) (s : State) : Bool :=
  (s.coresOf l).any fun c => (Launch.parent s l 4096 c).isNone && (l.reports.find c).isSome

/-- The successor list walked from an address on (R140): at most `fuel` addresses. Where an access is held, the walk goes on from
there once it is performed. -/
def walkSuccessors (a : Agent) (id : Nat) : Nat → Dword → Mach Unit
  | 0, _ => pure ()
  | fuel + 1, list => do
    let again : Due := ⟨.launchComplete, { Subject.nothing with place := id, addr := list, flag := true }⟩
    match ← attemptHeld again (strongBytes a list 8 0) with
    | .held | .refused => pure ()
    | .done (bs, _) =>
      if field bs 0 8 != 0 then
        match ← attemptHeld again (releaseSuccessor a (BitVec.ofNat 64 (field bs 0 8))) with
        | .held => pure ()
        | _ => walkSuccessors a id fuel (list + 8)

/-- LAUNCH_COMPLETE (R139, R140, R133, R163): a launch's counter is at zero and, where it has started, the root of its completion
tree has its word. Its region slots go to ABSENT, its successors are told, and its completion passes to its graph; a cancelled
launch completes in the same way (R155). With the flag, a walk of the successors that was held goes on. -/
def execLaunchComplete (s : State) : Out :=
  event (do
    let id := s.subject.place
    match s.launches.find id, s.counter .launch id with
    | some l, some c =>
      let walk (list : Dword) : Mach Unit := walkSuccessors (niAgent l.die0 true) id (2 ^ 32) list
      if s.subject.flag then walk s.subject.addr
      else if c.count = 0 && !c.complete && (!l.started || l.treeDone s) then
        modify fun s =>
          let gone := s.fit.filter fun e => e.2.launch == id
          gone.foldl (fun s e => s.due .sampleArrival (e.1 / 16)) { s with fit := s.fit.filter fun e => e.2.launch != id }
        if l.succ != 0#64 then walk l.succ
        modify fun s => s.settle 4 .launch id
    | _, _ => pure ()) s

/-- Two words of a completion tree combined, the first from the lower (die, core ID) (R163). -/
def combineWords (a b : Dword) : Dword :=
  let x := a.toNat
  let y := b.toNat
  let count := min 0xFFFF (bits x 16 16 + bits y 16 16)
  let who := if bitAt x 1 then x else if bitAt y 1 then y else 0
  BitVec.ofNat 64 ((x % 2 &&& y % 2) + (bits x 1 11 ||| bits y 1 11) * 2 + bits who 12 4 * 2 ^ 12 + count * 2 ^ 16 +
    bits who 32 32 * 2 ^ 32)

/-- TREE_REPORT (R163): a node whose own part is done and whose children have reported sends its combined word up. The root's
word completes the launch, once its counter is at zero (R139). -/
def execTreeReport (s : State) : Out :=
  event (do
    let core := s.subject.place
    let id := s.subject.index
    match s.launches.find id with
    | none => pure ()
    | some l =>
      let children := (s.coresOf l).filter fun c => Launch.parent s l 4096 c == some core
      let c := s.ctxAt (ctxKey core 0)
      if (c.status == .idle || c.status == .fatal) && children.all fun c => (l.reports.find c).isSome then
        let own : Dword := if c.status == .fatal then 0x10002#64 else 0x10001#64
        let word := children.foldl (fun w c => combineWords w ((l.reports.find c).getD 0#64)) own
        modify fun s => { s with launches := s.launches.put id { l with reports := l.reports.put core word } }
        match Launch.parent s l 4096 core with
        | none => modify fun s => s.due .launchComplete id
        | some p => modify fun s => s.due .treeReport p id) s

end Sys2Proof.Machine
end

