-- ==== Sys2Proof/Machine/Barriers.lean ====
section
/-!
DEFINITION. Barrier wires (R161, R162, R324, R345 to R347), imbalance records (R401) and the stop of R402.
-/
namespace Sys2Proof.Machine

/-- The row, column or die an instance counts, from a member core (R346). -/
def placeOf (kind : BarKind) (core : Nat) : Nat :=
  match kind with
  | .row => 16 * dieOf core + rowOf core
  | .col => 16 * dieOf core + colOf core
  | .mesh => dieOf core
  | .ss => 0

/-- The members of a barrier (R161, R398). -/
def State.membersOf (s : State) (launch : Nat) (kind : BarKind) (place : Nat) : List Nat :=
  match s.launches.find launch with
  | none => []
  | some l => (s.coresOf l).filter fun c => placeOf kind c == place

/-- An answer given to a context at once. -/
def answerNow (k : Nat) (w : Wait) (v : Dword) : Mach Unit := do
  match ((← get).ctxAt k).status with
  | .waiting w' rd => if w' = w then giveAnswer k rd v none
  | _ => pure ()

/-- The wait of a context at an instance. -/
def BarrierInst.wait (b : BarrierInst) : Wait := .barrier b.launch b.kind b.number

/-- Whether a core is saved with a launch of its (R357): what its contexts wait for then they learn when it is resumed. -/
def State.savedWith (s : State) (core launch : Nat) : Bool :=
  (s.die (dieOf core)).saved.any fun j => (j.ctxs.find (ctxKey core 0)).any fun c => c.launchid.toNat == launch

/-- Answers the contexts that share an arrival; a suspended unit's record is enqueued again. An answer of 0 is the acquire of
R161 with the PTS given. -/
def State.answerArrivalAt (s : State) (b : BarrierInst) (a : Arrival) (v : Dword) (pts : Nat) : State :=
  if s.savedWith a.core b.launch then s
  else a.waiters.foldl (fun s w =>
    match w.2.2 with
    | some record => (s.freeEntry a.core otherWait).requeue record pts
    | none =>
      let k := ctxKey a.core w.1
      let c := s.ctxAt k
      let s := if c.status == .waiting b.wait w.2.1 then s.setCtxAt k { c with pts := max c.pts pts } else s
      s.answer k b.wait v 0#64 false) s

/-- The instance as the list of instances keeps it. -/
def BarrierInst.same (a b : BarrierInst) : Bool :=
  a.launch == b.launch && a.kind == b.kind && a.place == b.place && a.number == b.number

def State.setBarrier (s : State) (b : BarrierInst) : State :=
  { s with
    barriers := if s.barriers.any b.same then s.barriers.map fun x => if x.same b then b else x else s.barriers ++ [b] }

/-! ## Completion -/

/-- The imbalance record of a superstep (R401), written to the ring of the launch's first die. -/
def State.imbalance (s : State) (l : Launch) (b : BarrierInst) : State :=
  let ctl := (s.dieReg l.die0 0x2A1).toNat
  if !bitAt ctl 4 then s
  else
    let times := b.arrivals.map (·.mtime)
    let early := times.foldl Nat.min ((times.head?).getD 0)
    let late := times.foldl Nat.max 0
    let sum := min (2 ^ 64 - 1) (times.foldl (fun n t => n + (t - early)) 0)
    let last := (b.arrivals.filter fun a => a.mtime == late).foldl (fun n a => Nat.min n a.core) (2 ^ 32 - 1)
    let head := bits ctl 32 32
    let a := dramBase l.die0 + bits (s.dieReg l.die0 0x2A0).toNat 12 36 * 4096 + 64 * (head % 2 ^ bits ctl 0 4)
    let s := s.store a (bytesOfNat 4 l.sstep ++ bytesOfNat 4 b.launch ++ bytesOfNat 8 early ++ bytesOfNat 8 late ++
      bytesOfNat 8 sum ++ bytesOfNat 8 (s.coreIdWord last) ++ bytesOfNat 4 b.arrivals.length)
    s.setDieReg l.die0 0x2A1 (BitVec.ofNat 64 (ctl % 2 ^ 32 + (head + 1) % 2 ^ 32 * 2 ^ 32))

/-- The arrivals of an instance that has ended: nobody is waiting but on cores that are saved. -/
def State.settled (s : State) (b : BarrierInst) : List Arrival :=
  b.arrivals.map fun a => if s.savedWith a.core b.launch then a else { a with waiters := [] }

/-- Completes an instance: every member is answered 0, with the acquire of R161, and sees an event (R333). -/
def State.completeBarrier (s : State) (b : BarrierInst) : State :=
  let s := s.setBarrier { b with complete := true, arrivals := s.settled b }
  let pts := b.arrivals.foldl (fun t a => max t a.pts) 0
  let s := b.arrivals.foldl (fun s a => s.answerArrivalAt b a 0#64 pts) s
  (s.membersOf b.launch b.kind b.place).foldl State.coreEvent s

/-- Every member has arrived: a `.ss` barrier counts a superstep and leaves its record, and may be a stop, whose completion is
held (R401, R402). -/
def State.barrierFull (s : State) (b : BarrierInst) : State :=
  match b.kind, s.launches.find b.launch with
  | .ss, some l =>
    let l := { l with sstep := l.sstep + 1 }
    let s := { s with launches := s.launches.put b.launch l }
    let s := s.imbalance l b
    let stop := s.dieReg l.die0 0x2A8
    if stop.toNat % 2 ^ 33 = 2 ^ 32 + l.sstep % 2 ^ 32 then
      (s.setBarrier { b with stopping := true }).due .superstepStop b.launch
    else s.completeBarrier b
  | _, _ => s.completeBarrier b

/-! ## Steps -/

/-- BAR (R161, R324): a release, and the arrival leaves; its flag says that the BAR stands in a repetition clause, where no unit
suspends (R241). -/
def execBar (kind : BarKind) (rd : XReg) (s : State) : Out :=
  finishArith (do
    canWriteX rd
    leave
    releaseMine (match kind with | .ss => .sys | _ => .die)
    pins
    let (core, ctx) := (← get).cur
    let clause := (← me).rep.st == .reissuing
    waitFor (.barrier (← me).launchid.toNat kind 0) (some rd)
    modify fun s => s.dueAt .barrierArrival
      { Subject.nothing with place := core, index := ctx, value := BitVec.ofNat 64 kind.code, flag := clause }) s

/-- The instance a core's BAR joins (R161, R346): the one in which the core has arrived and which has not ended, or the next of its
kind. -/
def State.instanceFor (s : State) (core launch : Nat) (kind : BarKind) : BarrierInst × State :=
  let place := placeOf kind core
  let shared := s.barriers.find? fun b =>
    b.launch == launch && b.kind == kind && b.place == place && !b.complete && !b.poisoned &&
      b.arrivals.any fun a => a.core == core
  match shared with
  | some b => (b, s)
  | none =>
    let x := s.core core
    let n := x.bars.get 0 kind.code
    let s := s.setCore core { x with bars := x.bars.put kind.code (n + 1) }
    let found := s.barriers.find? fun b => b.launch == launch && b.kind == kind && b.place == place && b.number == n
    (found.getD
      { launch := launch, kind := kind, place := place, number := n, arrivals := [], poisoned := false, complete := false,
        stopping := false }, s)

/-- BARRIER_ARRIVAL (R161, R162): the arrival of a context's BAR reaches its instance, which may complete; a helper's unit
whose BAR does not complete suspends (R152). -/
def execBarrierArrival (s : State) : Out :=
  event (do
    let core := s.subject.place
    let k := ctxKey core s.subject.index
    let kind := BarKind.ofCode s.subject.value.toNat
    let c := s.ctxAt k
    match c.status with
    | .waiting (.barrier ..) rd =>
      let launch := c.launchid.toNat
      let (b, _) := s.instanceFor core launch kind
      let enter : Mach Unit := modify fun s =>
        let (_, s) := s.instanceFor core launch kind
        if (s.ctxAt k).status == c.status then s.setCtxAt k { s.ctxAt k with status := .waiting b.wait rd } else s
      if b.poisoned then
        enter
        modify fun s => s.answer k b.wait 2#64 0#64 false
      else
        let mine := b.arrivals.any fun a => a.core == core
        let full := s.membersOf launch kind b.place |>.all fun m => m == core || b.arrivals.any fun a => a.core == m
        let suspend ← asContext k do return (← get).maySuspend otherWait
        let arrived (r : Option (Option (Dword × Nat))) : Mach Unit := do
          enter
          let record := r.map fun x => x.map Prod.fst
          if r.isSome then modify fun s => s.useEntry core otherWait
          -- the record of a cancelled unit is discarded (R155); its core has arrived all the same
          if record == some none then modify fun s => s.freeEntry core otherWait
          let waiters := if record == some none then [] else [(k % 16, rd, record.join)]
          let a : Arrival := {
            core := core, mtime := s.mtime, pts := c.pts, timeout := c.bartmo.toNat % 2 ^ 32, waiters := waiters, expired := false }
          let arrivals :=
            if mine then b.arrivals.map fun a => if a.core == core then { a with waiters := a.waiters ++ waiters, pts := max a.pts c.pts } else a
            else b.arrivals ++ [a]
          let b := { b with arrivals := arrivals }
          modify fun s => s.setBarrier b
          if full && !b.stopping then modify fun s => s.barrierFull b
        let folded ←
          if full || !suspend || s.subject.flag then pure (.done none)
          else attemptHeld ⟨.barrierArrival, s.subject⟩ (do
            modify fun s => s.drainPan k
            let r ← asContext k (foldUnit c.pc none (BitVec.ofNat 64 kind.code))
            modify fun s => s.clearPipe k
            return some r)
        match folded with
        | .held => pure ()
        | .refused => arrived none
        | .done r => arrived r
    | _ => pure ()) s

/-- BARRIER_TIMEOUT (R162, R345): the timer of a member core expires and poisons the instance. The subject names the core, the kind and,
in its value, the launch; its flag says that every member whose timer ends at the same time has expired with it. The instance keeps
whose timers expired, for the members whose die is saved. -/
def execBarrierTimeout (s : State) : Out :=
  event (do
    let core := s.subject.place
    let kind := BarKind.ofCode s.subject.index
    let mine := s.barriers.find? fun b =>
      b.launch == s.subject.value.toNat && b.kind == kind && !b.complete && !b.poisoned && !b.stopping &&
        b.arrivals.any fun a => a.core == core && 0 < a.timeout
    match mine with
    | none => pure ()
    | some b =>
      let ends := fun (a : Arrival) => a.mtime + a.timeout
      let due := (b.arrivals.find? fun a => a.core == core).map ends
      let expired := fun (a : Arrival) => a.core == core || (s.subject.flag && 0 < a.timeout && some (ends a) == due)
      modify fun s =>
        let s := s.setBarrier { b with poisoned := true, arrivals := (s.settled b).map fun a => { a with expired := expired a } }
        b.arrivals.foldl (fun s a => s.answerArrivalAt b a (if expired a then 1#64 else 2#64) 0) s) s

/-- SUPERSTEP_STOP (R402): once the launch has no engine operation in flight and its members no store that is not performed, the held
instance completes, and every control
context of the launch traps with cause 0x0D. Helpers take nothing new until their control context's ERET. -/
def execSuperstepStop (s : State) : Out :=
  event (do
    let id := s.subject.place
    match s.barriers.find? fun b => b.launch == id && b.stopping && !b.complete, s.launches.find id with
    | some b, some l =>
      let stored := (s.coresOf l).all fun c => (s.core c).outbound.all fun o => o.packet.spans.isEmpty
      if stored && !(s.ops.any fun o => o.2.launch == id) then
        let pts := b.arrivals.foldl (fun t a => max t a.pts) 0
        for a in b.arrivals do
          for w in a.waiters do
            if w.2.2.isNone then
              let k := ctxKey a.core w.1
              if ((← get).ctxAt k).status == .waiting b.wait w.2.1 then
                modify fun s => s.setCtxAt k { s.ctxAt k with pts := max (s.ctxAt k).pts pts }
              answerNow k b.wait 0#64
        modify fun s => s.completeBarrier b
        modify fun s => s.setDieReg l.die0 0x2A8 (s.dieReg l.die0 0x2A8 &&& 0xFFFFFFFF#64)
        for core in (← get).coresOf l do
          modify fun s =>
            let s := s.setCore core { s.core core with stopped := true }
            let k := ctxKey core 0
            let c := s.ctxAt k
            if c.status == .running then s.takeTrap k 0x0D c.pc (BitVec.ofNat 64 (l.sstep % 2 ^ 32)) else s
    | _, _ => pure ()) s

end Sys2Proof.Machine
end

