-- ==== Sys2Proof/Machine/Fetch.lean ====
section
/-!
DEFINITION. Fetching an instruction (R169, R221, R316), the order in which contexts run, and what stands around an
instruction in a step.
-/
namespace Sys2Proof.Machine

/-- Serves a byte of code: the core's L1 instruction cache whatever the lease, and the cluster cache or above, as a weak
read, where it holds no line (R57, R316, R364). -/
def serveCode (a : Agent) (core : Nat) (t : Site) (pts : Nat) : Mach (Nat × Copy) := do
  if !isArith core then
    let levels := a.levels t
    match levels with
    | [] =>
      let h ← homeOf a t .exec true
      arrive a h 0 h.size false
      return (h.key, ← homeServe h pts (some a.lease))
    | _ => serve a t .exec pts (some a.lease) levels true
  else
    match (← get).findCopy (l1iPlace core) t.key with
    | some r => return r
    | none =>
      let (ub, u) ← serve a t .exec pts (some a.lease) ((a.levels t).drop a.l1.toList.length) true
      let (base, c) := u.forL1 ub t.key
      modify fun s => s.putCopy (l1iPlace core) base c
      return (base, c)

/-- The place of an address in the boot SRAM of a ringmaster core's bridge, where it names one (R381; assumption log, entry 4). -/
def bootPlace (core : Nat) (addr : Dword) : Option Nat :=
  if isRingmaster core then
    let b := bridgeOf core
    let off := (addr - Config.bootBase b).toNat
    if off < 2 ^ 22 then some (sramBase b + off) else none
  else none

/-- The halfword at an address, as a weak load with the PTS that the context held at its last IFENCE (R316). A fault is the
instruction's, with the halfword's address as its value (R221, R353). -/
def fetchHalf (addr : Dword) : Mach Nat := do
  let s ← get
  match bootPlace s.cur.1 addr, globalSite s addr addr with
  | some a, _ => return s.num a 2
  | none, none => trap 0x06 addr
  | none, some t =>
    let a := s.coreAgent s.myKey
    let r ← tryCatch (serveCode a s.cur.1 t s.me.fetchPts) fun e =>
      match e with
      | .notPresent g v home _ w => throw (.notPresent g v home true w)
      | e => throw e
    let (data, bad) := r.2.slice r.1 t.key 2
    if bad != 0 then trap 0x0E addr
    return natOfBytes data

/-- The clean copies that a core's fetch of a byte would find leave. -/
def dropCode (addr : Dword) : Mach Unit := do
  let s ← get
  match globalSite s addr addr with
  | none => pure ()
  | some t =>
    let places := l1iPlace s.cur.1 :: (s.coreAgent s.myKey).levels t
    set (places.foldl (fun (s : State) p =>
      match s.findCopy p t.key with
      | some (base, c) => if c.dirty = 0 then s.dropCopy p base else s
      | none => s) s)

/-- The instruction's bits at an address, and whether it is long (R169). One that lies across two sectors is never put together of copies
of different times: both halves come from their homes, but for what the core's own levels hold dirty (R364; assumption log, entry 19). -/
def fetchRaw (addr : Dword) : Mach (Nat × Bool) := do
  let lo ← fetchHalf addr
  if lo % 2 = 1 then
    let lo ←
      if addr.toNat % 32 = 30 && !isRingmaster (← get).cur.1 then do
        dropCode addr
        dropCode (addr + 2)
        fetchHalf addr
      else pure lo
    let hi ← fetchHalf (addr + 2)
    return (lo + 2 ^ 16 * hi, true)
  else return (lo, false)

/-- The word of the running core's dictionary at an index (R172). -/
def State.dictWord (s : State) (i : Nat) : Word := (s.core s.cur.1).dict.get 0#32 i

/-- An instruction as R200 lays it out: a dictionary reference with the word it names. -/
def State.layOut (s : State) (raw : Nat) (long : Bool) : Dword :=
  if !long && raw % 4 = 2 then BitVec.ofNat 64 (raw + 2 ^ 16 * (s.dictWord (bits raw 2 10)).toNat)
  else BitVec.ofNat 64 raw

/-- The instruction at the running context's next place: a reissued clause's (R239), or the one at its PC. `pc`, `npc` and
`ir` are set; a word that decodes to nothing traps with cause 0x01 (R198). -/
def fetch : Mach Instr := do
  let c ← me
  let (raw, long) ← match c.rep.st, c.rep.items[c.rep.stag]? with
    | .reissuing, some i => pure (i.raw, i.long)
    | _, _ => fetchRaw c.pc
  let s ← get
  modifyMe fun c =>
    { c with
      npc := c.pc + (if long then 4#64 else 2#64), ir := s.layOut raw long, issuedPc := c.pc, issuedRep := c.rep }
  match decode (bytesOfNat (if long then 4 else 2) raw) with
  | .ok (i, _) => return i
  | .error _ => trap 0x01 (s.layOut raw long)

/-- Time passes (R339's MTIME). -/
def State.tick (s : State) : State :=
  let now := (s.mtime + Config.elapsed s.free) % 2 ^ 64
  let due := s.launches.filter fun e => !e.2.started && s.mtime < e.2.tick && e.2.tick ≤ now
  { s with
    mtime := now, free := s.free + 1,
    agenda := s.agenda ++ due.map fun e => ⟨.launchTickStart, { Subject.nothing with place := e.1 }⟩ }

/-- Whether a number names a core of the module, and one of its contexts (R1, R8). -/
def isContext (c n : Nat) : Bool := (isArith c && n < 11) || ((isRingmaster c || isSluice c) && n == 0)

/-- Whether a context can go on: running, with no fill packet still to come (R129), its core held neither in reset nor by a stop
nor for a pre-emption. -/
def State.canRun (s : State) (k : Nat) : Bool :=
  let x := s.core (k / 16)
  (s.ctxAt k).status == .running && (s.ctxAt k).fills.isEmpty && !s.inReset (k / 16) && !(x.stopped && k % 16 != 0) && !x.preempted

/-- Whether a context can take an instruction whole in a step: it has nothing in the pipe. -/
def State.runs (s : State) (k : Nat) : Bool := s.canRun k && !s.inFlight k

/-- The context that runs after this one: the next in number that can, round again from the first (R22). -/
def State.rotate (s : State) : State :=
  let ready := (s.ctxs.map Prod.fst).filter s.runs
  match ready.find? (s.myKey < ·) with
  | some k => { s with cur := (k / 16, k % 16) }
  | none =>
    match ready with
    | k :: _ => { s with cur := (k / 16, k % 16) }
    | [] => s

/-- Ring watchers whose condition is met report it (R152). -/
def State.watch (s : State) : State :=
  s.cores.foldl (fun s e =>
    e.2.watchers.foldl (fun s w => if w.n ≤ s.fill e.1 w.off then s.due .ringWatcherSatisfied e.1 w.off else s) s) s

/-- Goes on to the next context after an instruction. -/
def afterInstr (o : Out) : Out :=
  match o with
  | .next s => .next s.watch.rotate
  | .fault f => .fault f
  | .refused r => .refused r

end Sys2Proof.Machine
end

