-- ==== Sys2Proof/Machine/Control.lean ====
section
/-!
DEFINITION. Branches, jumps, loops and repetition (R231 to R241).
-/
namespace Sys2Proof.Machine

/-- The next instruction is at an address. -/
def jumpTo (t : Dword) : Mach Unit := modifyMe fun c => { c with npc := t }

/-- An address some halfwords from the running instruction's. -/
def halfwordsAway (off : Int) : Mach Dword := do return (← me).pc + BitVec.ofInt 64 (2 * off)

/-- A conditional branch (R231, R232). -/
def branch (taken : Dword → Dword → Bool) (rs1 rs2 : XReg) (off : BitVec 10) (s : State) : Out :=
  finish (do
    let a ← readX rs1
    let b ← readX rs2
    if taken a b then jumpTo (← halfwordsAway off.toInt)) s

/-- BEQ (R231). -/
def execBeq (rs1 rs2 : XReg) (off : BitVec 10) (s : State) : Out := branch (fun a b => a == b) rs1 rs2 off s
/-- BNE (R231). -/
def execBne (rs1 rs2 : XReg) (off : BitVec 10) (s : State) : Out := branch (fun a b => a != b) rs1 rs2 off s
/-- BLT (R231). -/
def execBlt (rs1 rs2 : XReg) (off : BitVec 10) (s : State) : Out := branch (fun a b => a.slt b) rs1 rs2 off s
/-- BGE (R231). -/
def execBge (rs1 rs2 : XReg) (off : BitVec 10) (s : State) : Out := branch (fun a b => !a.slt b) rs1 rs2 off s
/-- BLTU (R231). -/
def execBltu (rs1 rs2 : XReg) (off : BitVec 10) (s : State) : Out := branch (fun a b => a.ult b) rs1 rs2 off s
/-- BGEU (R231). -/
def execBgeu (rs1 rs2 : XReg) (off : BitVec 10) (s : State) : Out := branch (fun a b => !a.ult b) rs1 rs2 off s

/-- JAL (R233). -/
def execJal (rd : XReg) (imm : BitVec 19) (s : State) : Out :=
  finish (do
    let t ← halfwordsAway imm.toInt
    writeX rd ((← me).pc + 4)
    jumpTo t) s

/-- JALR (R233): the target is read before rd is written, and its bit 0 cleared. -/
def execJalr (rd rs1 : XReg) (imm : BitVec 13) (s : State) : Out :=
  finish (do
    let a ← readX rs1
    writeX rd ((← me).pc + 4)
    jumpTo ((a + imm.signExtend 64) &&& ~~~1#64)) s

/-- What LOOP and LOOPR share (R235): the counter falls by one, and the branch is taken while it is not zero. -/
def countDown (rc : XReg) (off : BitVec 13) : Mach Unit := do
  let c := (← readX rc) - 1
  let t ← halfwordsAway off.toInt
  writeX rc c
  if c != 0#64 then jumpTo t

/-- LOOP (R235). -/
def execLoop (rc : XReg) (off : BitVec 13) (s : State) : Out := finish (countDown rc off) s

/-- LOOPR (R236): LOOP, and the window turns by one; the counter is reached under the old WOFS. Its CSR write pins an
active region (R134). -/
def execLoopr (rc : XReg) (off : BitVec 13) (s : State) : Out :=
  finish (do
    beforeSeal (countDown rc off)
    leave
    modifyMe fun c => { c with wofs := BitVec.ofNat 64 ((c.wofs.toNat + 1) % 16) }
    pins) s

/-! ## REP -/

/-- Whether an instruction may not stand in a clause (R238). -/
def refusedInClause : Instr → Bool
  | .beq .. | .bne .. | .blt .. | .bge .. | .bltu .. | .bgeu .. | .jal .. | .jalr .. | .loop .. | .loopr .. | .rep .. => true
  | .axrBegin .. | .axrEnd .. | .axrCfg .. | .axrInval .. | .axrStat .. => true
  | .eret | .dictLoad .. | .susp .. | .done .. | .yield => true
  | _ => false

/-- The instruction a word decodes to, if it decodes to one. -/
def decoded (raw : Nat) (long : Bool) : Option Instr :=
  match decode (bytesOfNat (if long then 4 else 2) raw) with
  | .ok (i, _) => some i
  | .error _ => none

/-- Whether a clause's instruction is refused: by itself, or by the word a dictionary reference names (R238). -/
def State.clauseRefuses (s : State) (raw : Nat) (long : Bool) : Bool :=
  match decoded raw long with
  | none => false
  | some (.dictionaryReference index _) =>
    match decoded (s.dictWord index.val).toNat true with
    | none => false
    | some i => refusedInClause i
  | some i => refusedInClause i

/-- Captures `n` instructions from an address (R238): the clause, and the address after it. A fetch fault is REP's own. -/
def captureClause : Nat → Dword → Mach (List ClauseItem × Dword)
  | 0, a => return ([], a)
  | n + 1, a => do
    let (raw, long) ← fetchRaw a
    let (rest, e) ← captureClause n (a + (if long then 4#64 else 2#64))
    return ({ pc := a, raw := raw, long := long } :: rest, e)

/-- The seal of an instruction that names its own next address, whatever the repetition buffer holds. -/
def sealJump : Mach Unit := do
  commitPorts
  modifyMe fun c => { c with pc := c.npc }

/-- Runs a meaning and seals it with the next address it has named. -/
def finishJump (m : Mach Unit) (s : State) : Out :=
  match EStateM.run (do m; sealJump) s with
  | .ok _ s' => .next s'
  | .error e s' => outcomeOf s s' e

/-- REP (R237 to R240): the clause is captured whole and checked; a count of zero goes on after it. A clause held from
before is discarded, whether or not the capture succeeds. -/
def execRep (rc : XReg) (n : BitVec 6) (s : State) : Out :=
  finishJump (do
    let c ← me
    let (items, after) ← captureClause n.toNat c.npc
    let s ← get
    match items.find? fun i => s.clauseRefuses i.raw i.long with
    | some i => trap 0x01 (s.layOut i.raw i.long)
    | none => pure ()
    let count ← readX rc
    if count = 0#64 then jumpTo after
    else
      modifyMe fun d =>
        { d with
          rep := { st := .reissuing, pc := c.pc, items := items, after := after, iter := count.toNat, stag := 0 } }
      match items with
      | i :: _ => jumpTo i.pc
      | [] => jumpTo after) (s.setMe { s.me with rep := RepBuf.empty })

end Sys2Proof.Machine
end

