-- ==== Sys2Proof/Machine/Flags.lean ====
section
/-!
DEFINITION. FCSR (R48): the rounding mode and flushing an instruction works under, raising its flags (R49), and the
floating operations on encodings with the flags they raise (R260 to R263).
-/
namespace Sys2Proof.Machine

/-- How the running context rounds and flushes: FCSR.RM, FZ and FZN (R48). -/
structure FpMode where
  rm : Rm
  fz : Bool
  fzn : Bool
  deriving DecidableEq, Repr

/-- Whether subnormals of a format are flushed (R46). -/
def FpMode.flush (m : FpMode) (f : FFmt) : Bool := if f.narrow then m.fzn else m.fz

/-- A context's mode; none while RM holds 5 to 7. -/
def Ctx.fpMode (c : Ctx) : Option FpMode :=
  (Rm.ofCode (bits c.fcsr.toNat 0 3)).map fun rm => { rm := rm, fz := bitAt c.fcsr.toNat 3, fzn := bitAt c.fcsr.toNat 4 }

/-- The mode of an instruction that rounds under FCSR.RM: it traps with cause 0x01 while RM holds 5 to 7 (R45). -/
def roundingMode : Mach FpMode := do
  let c ← me
  match c.fpMode with
  | some m => return m
  | none => trap 0x01 c.ir

/-- The mode of an instruction that does not round: its RM is not looked at. -/
def flushMode : Mach FpMode := do
  let c ← me
  return { rm := .rne, fz := bitAt c.fcsr.toNat 3, fzn := bitAt c.fcsr.toNat 4 }

/-- Raises flags (R49): a flag whose enable bit is set traps with cause 0x08 and the flags raised. -/
def raiseFlags (f : FFlags) : Mach Unit := do
  let c ← me
  let raised := f.toNat % 32
  check (raised &&& bits c.fcsr.toNat 16 5 == 0) 0x08 (BitVec.ofNat 64 raised)
  modifyMe fun c => { c with fcsr := c.fcsr ||| BitVec.ofNat 64 (f.toNat * 2 ^ 8) }

/-! ## Operations on encodings (R260 to R263) -/

/-- An element's value, flushed as the mode says. -/
def FpMode.read (m : FpMode) (f : FFmt) (w : Nat) : FVal := f.value (m.flush f) w

/-- An exact value rounded into a format under the mode. -/
def FpMode.write (m : FpMode) (f : FFmt) (v : FVal) : Nat × FFlags := f.round m.rm (m.flush f) v

def fpAdd (m : FpMode) (f : FFmt) (a b : Nat) : Nat × FFlags := m.write f (sumExact m.rm [m.read f a, m.read f b])
def fpSub (m : FpMode) (f : FFmt) (a b : Nat) : Nat × FFlags := m.write f (sumExact m.rm [m.read f a, (m.read f b).negate])
def fpMul (m : FpMode) (f : FFmt) (a b : Nat) : Nat × FFlags := m.write f (mulExact (m.read f a) (m.read f b))

/-- Division (R260): 0 by 0 and infinity by infinity are invalid, a finite non-zero value by zero raises DZ. -/
def fpDiv (m : FpMode) (f : FFmt) (a b : Nat) : Nat × FFlags :=
  match m.read f a, m.read f b with
  | .nan s, .nan t => m.write f (.nan (s || t))
  | .nan s, _ => m.write f (.nan s)
  | _, .nan t => m.write f (.nan t)
  | .inf _, .inf _ => m.write f (.nan true)
  | .inf n, .fin k _ _ => m.write f (.inf (n != k))
  | .fin n _ _, .inf k => m.write f (.fin (n != k) 0 0)
  | .fin n x e, .fin k y g =>
    if y = 0 then
      if x = 0 then m.write f (.nan true)
      else
        let r := m.write f (.inf (n != k))
        (r.1, r.2 ||| FFlags.dz)
    else if x = 0 then m.write f (.fin (n != k) 0 0)
    else
      let q := divMag x e y g
      m.write f (.fin (n != k) q.1 q.2)

/-- Square root (R260): of a value below zero it is invalid; of -0 it is -0. -/
def fpSqrt (m : FpMode) (f : FFmt) (a : Nat) : Nat × FFlags :=
  match m.read f a with
  | .nan s => m.write f (.nan s)
  | .inf neg => m.write f (if neg then .nan true else .inf false)
  | .fin neg x e =>
    if x = 0 then m.write f (.fin neg 0 0)
    else if neg then m.write f (.nan true)
    else
      let r := sqrtMag x e
      m.write f (.fin false r.1 r.2)

/-- Minimum or maximum (R261): one NaN gives the other input, two the canonical NaN; -0 lies below +0. -/
def fpMinMax (largest : Bool) (m : FpMode) (f : FFmt) (a b : Nat) : Nat × FFlags :=
  let flushed : Nat → Nat := fun w =>
    if m.flush f && f.isSubnormal w then (if bitAt w (f.width - 1) then f.signBit else 0) else w
  let nv := flagIf (f.isSignalling a || f.isSignalling b) FFlags.nv
  if f.isNaN a && f.isNaN b then (f.canonicalNaN, nv)
  else if f.isNaN a then (flushed b, nv)
  else if f.isNaN b then (flushed a, nv)
  else
    let x := flushed a
    let y := flushed b
    let xBelow := match compareVal (f.value false x) (f.value false y) with
      | .lt => true
      | .gt => false
      | .eq => bitAt x (f.width - 1) && !bitAt y (f.width - 1)
    (if xBelow == largest then y else x, nv)

/-- a x b + c with one rounding, its product and addend turned as asked (R263). -/
def fpFma (negProduct negAddend : Bool) (m : FpMode) (f : FFmt) (a b c : Nat) : Nat × FFlags :=
  let p := mulExact (m.read f a) (m.read f b)
  let z := m.read f c
  let p := if negProduct then p.negate else p
  let z := if negAddend then z.negate else z
  m.write f (sumExact m.rm [p, z])

/-- The comparisons of R262. -/
inductive FCond where
  | eq | lt | le | un
  deriving DecidableEq, Repr

/-- Whether a comparison holds, and the flag it raises (R262). -/
def fpCompare (c : FCond) (m : FpMode) (f : FFmt) (a b : Nat) : Bool × FFlags :=
  let anyNan := f.isNaN a || f.isNaN b
  let anySig := f.isSignalling a || f.isSignalling b
  let nv := match c with
    | .lt | .le => anyNan
    | .eq | .un => anySig
  let holds :=
    if anyNan then c == .un
    else
      let o := compareVal (m.read f a) (m.read f b)
      match c with
      | .eq => o == .eq
      | .lt => o == .lt
      | .le => o != .gt
      | .un => false
  (holds, flagIf nv FFlags.nv)

/-! ## Lanes (R253) -/

/-- A vector of sixteen lanes from a function of the lane. -/
def lanesOf (f : Fin 16 → Word) : VVal :=
  #v[f 0, f 1, f 2, f 3, f 4, f 5, f 6, f 7, f 8, f 9, f 10, f 11, f 12, f 13, f 14, f 15]

/-- A lane mask from a function of the lane. -/
def maskFrom (f : Fin 16 → Bool) : Half :=
  BitVec.ofNat 16 ((List.finRange 16).foldl (fun acc i => if f i then acc + 2 ^ i.val else acc) 0)

/-- Whether a mask enables a lane. -/
def enabled (k : Half) (i : Fin 16) : Bool := k.getLsbD i.val

/-- Writes the enabled lanes of a register; a disabled lane keeps its value (R253). -/
def writeLanes (vd : VReg) (k : Half) (f : Fin 16 → Word) : Mach Unit :=
  modifyMe fun c => c.setV vd (lanesOf fun i => if enabled k i then f i else (c.getV vd)[i])

/-- A floating operation's lanes: written where enabled, their flags raised (R253). -/
def writeFpLanes (vd : VReg) (k : Half) (f : Fin 16 → Nat × FFlags) : Mach Unit := do
  let flags := (List.finRange 16).foldl (fun acc i => if enabled k i then acc ||| (f i).2 else acc) 0#7
  raiseFlags flags
  writeLanes vd k fun i => BitVec.ofNat 32 (f i).1

/-- Writes every bit of a k register (R257). -/
def writeMask (kd : KReg) (f : Fin 16 → Bool) : Mach Unit := modifyMe fun c => c.setK kd (maskFrom f)

/-- A lane cut into elements of `w` bits, lowest first (R253). -/
def elementsOf (w : Nat) : Nat → Nat → List Nat
  | 0, _ => []
  | n + 1, v => v % 2 ^ w :: elementsOf w n (v / 2 ^ w)

/-- Elements of `w` bits put together into a lane. -/
def joinElements (w : Nat) : List Nat → Nat
  | [] => 0
  | e :: es => e % 2 ^ w + 2 ^ w * joinElements w es

/-- The bits of an element (R255). -/
def elemWidth : ElemSize → Nat
  | .w => 32
  | .h => 16
  | .b => 8

end Sys2Proof.Machine
end

