-- ==== Sys2Proof/Machine/Convert.lean ====
section
/-!
DEFINITION. Conversion and classification (R275 to R278, R50).
-/
namespace Sys2Proof.Machine

/-- The bits of an element of a conversion's format. -/
def cvtWidth : CvtFmt → Nat
  | .fp32 | .int32 => 32
  | .fp16 | .bf16 => 16
  | .f8a | .f8b | .int8 | .dp8 => 8

/-- The floating format of a conversion's format, where it is one. -/
def cvtFFmt : CvtFmt → Option FFmt
  | .fp32 => some .fp32
  | .fp16 => some .fp16
  | .bf16 => some .bf16
  | .f8a => some .f8a
  | .f8b => some .f8b
  | .int32 | .int8 | .dp8 => none

/-- Element `e` of a register in a packing of `w` bits (R253). -/
def elementAt (v : VVal) (w e : Nat) : Nat := bits v[Fin.ofNat 16 (e * w / 32)].toNat (e * w % 32) w

/-- A register whose first sixteen elements of `w` bits are given, and every other bit zero but `extra` in lane 4. -/
def packElements (w : Nat) (es : List Nat) (extra : Nat) : VVal :=
  lanesOf fun i =>
    let n := 32 / w
    BitVec.ofNat 32 (joinElements w ((es.drop (i.val * n)).take n) + (if i.val = 4 then extra else 0))

/-- The value of a source element (R276, R277); `scale` is a DP8 register's scale byte. -/
def sourceValue (m : FpMode) (f : CvtFmt) (scale w : Nat) : FVal :=
  match cvtFFmt f with
  | some g => m.read g w
  | none =>
    match f with
    | .int32 => FVal.ofInt (signedOfNat 32 w)
    | .int8 => FVal.ofInt (signedOfNat 8 w)
    | _ => dp8Scaled scale w

/-- One element converted (R50): its encoding and flags. Between BF16 and FP16 the manual goes through FP32 with one rounding, and does not
say whether FZ flushes a BF16 subnormal on the way: the model's FP32 step flushes nothing (DESIGN CHOICE: assumption log, entry
42). -/
def convertElement (m : FpMode) (src dst : CvtFmt) (scale w : Nat) : Nat × FFlags :=
  match dst with
  | .int32 => roundToInt m.rm 32 (sourceValue m src scale w)
  | .int8 =>
    match src with
    | .int32 => ((roundToInt m.rm 8 (sourceValue m src scale w)).1, 0#7)
    | _ => roundToInt m.rm 8 (sourceValue m src scale w)
  | _ =>
    match cvtFFmt dst with
    | some g => m.write g (sourceValue m src scale w)
    | none => (0, 0#7)

/-- The elements a destination takes: converted where the mask enables them, the old ones elsewhere (R276). -/
def mergeElements (k : Half) (old : VVal) (w : Nat) (rs : List (Nat × FFlags)) : List Nat :=
  (List.finRange 16).map fun i =>
    if enabled k i then ((rs[i.val]?).map Prod.fst).getD 0 else elementAt old w i.val

/-- The flags of the enabled elements. -/
def enabledFlags (k : Half) (rs : List (Nat × FFlags)) : FFlags :=
  (List.finRange 16).foldl (fun acc i => if enabled k i then acc ||| ((rs[i.val]?).map Prod.snd).getD 0#7 else acc) 0#7

/-- FP32 to DP8 (R277): the scale over all sixteen lanes, each enabled lane encoded under it. -/
def toDp8 (m : FpMode) (v : VVal) : Nat × List (Nat × FFlags) :=
  let vals := (List.finRange 16).map fun i => m.read .fp32 v[i].toNat
  let e := chooseScale .dp8 vals
  (e, vals.map fun x =>
    if e = 0xFF then (ScaledFmt.zeroByte .dp8, flagIf x.isSignalling FFlags.nv)
    else ScaledFmt.dp8.round m.rm m.fzn (x.scale (127 - (e : Int))))

/-- VCVT (R275 to R277). DP8 needs its unit (R393). -/
def execVcvt (src dst : CvtFmt) (vd vs1 : VReg) (k : KReg) (s : State) : Out :=
  finishArith (do
    if src == .dp8 || dst == .dp8 then needFeature 3
    let m ← roundingMode
    let c ← me
    let mask := c.getK k
    let v := c.getV vs1
    let old := c.getV vd
    let w := cvtWidth dst
    let (e, rs) := match dst with
      | .dp8 => toDp8 m v
      | _ =>
        let scale := v[(4 : Fin 16)].toNat % 256
        (0, (List.finRange 16).map fun i => convertElement m src dst scale (elementAt v (cvtWidth src) i.val))
    raiseFlags (enabledFlags mask rs)
    modifyMe fun c => c.setV vd (packElements w (mergeElements mask old w rs) e)) s

/-- The class of an encoding (R278). -/
def classOf (f : FFmt) (w : Nat) : Nat :=
  let neg := bitAt w (f.width - 1)
  let mag := w % f.signBit
  if f.isNaN w then (if f.isSignalling w then 8 else 9)
  else if f.hasInfinity && mag == f.infinity then (if neg then 0 else 7)
  else if mag = 0 then (if neg then 3 else 4)
  else if f.isSubnormal w then (if neg then 2 else 5)
  else (if neg then 1 else 6)

/-- VCLASS (R278): every element of the packing, in its own place. -/
def execVclass (src : CvtFmt) (vd vs1 : VReg) (k : KReg) (s : State) : Out :=
  finishArith (do
    let c ← me
    match cvtFFmt src with
    | none => trap 0x01 c.ir
    | some f =>
      let w := f.width
      writeLanes vd (c.getK k) fun i =>
        BitVec.ofNat 32 (joinElements w ((elementsOf w (32 / w) (c.getV vs1)[i].toNat).map (classOf f)))) s

end Sys2Proof.Machine
end

