-- ==== Sys2Proof/Machine/Phasers.lean ====
section
/-!
DEFINITION. Phasers (R156 to R160, R322, R323).
-/
namespace Sys2Proof.Machine

/-! ## Handles (R156) -/

/-- Where a handle leads: core and slot, of this module or of another one. -/
structure PhRef where
  core : Nat
  slot : Nat
  away : Bool := false
  module : Nat := 0
  deriving DecidableEq, Repr

def PhRef.wait (r : PhRef) : Nat := phaserWait r.core r.slot

/-- Whether a module field and its M255 bit name this module (R156, R328, R366). -/
def State.namesHere (s : State) (m : Nat) (m255 : Bool) : Bool :=
  if m = 0xFF then !m255 || s.modId == 255 else m == s.modId

/-- Whether core `c` lies in the domain of a scope seen from core `me`, both of this module (R75). -/
def inDomain (me c : Nat) : Scope → Bool
  | .core => c == me
  | .clu => clusterOf c == clusterOf me
  | .die => dieOf c == dieOf me
  | .mod | .sys => true

/-- The place a handle names, or none where R156 refuses it seen from a core: another module lies in the domain of `.sys`
alone (R75). -/
def State.phaserRef (s : State) (me : Nat) (h : Dword) : Option PhRef :=
  let w := h.toNat
  let m := bits w 21 8
  let m255 := bitAt w 32
  let scope := bits w 29 3
  let core := 256 * bits w 15 6 + bits w 7 8
  let here := s.namesHere m m255
  if bits w 0 7 ≤ 95 && scope ≤ 4 && bits w 33 31 == 0 && (!m255 || m == 0xFF) &&
      (if here then (Scope.ofCode scope).any (inDomain me core) else scope == 4) then
    some { core := core, slot := bits w 0 7, away := !here, module := if here then 0 else m }
  else none

/-- The place of a handle that has been checked. -/
def State.refOf (s : State) (h : Dword) : PhRef :=
  { core := 256 * bits h.toNat 15 6 + bits h.toNat 7 8, slot := bits h.toNat 0 7,
    away := !s.namesHere (bits h.toNat 21 8) (bitAt h.toNat 32)
    module := if s.namesHere (bits h.toNat 21 8) (bitAt h.toNat 32) then 0 else bits h.toNat 21 8 }

/-- The check of a handle at the core (R156). -/
def checkHandle (h : Dword) : Mach PhRef := do
  let s ← get
  match s.phaserRef s.cur.1 h with
  | some r => return r
  | none => trap 0x06 h

/-- An instruction whose phaser, by its handle, is on another module sends its message there and waits for the answer (assumption log,
entry 9). -/
def awayAnswer (h : Dword) (r : PhRef) (rd : Option XReg) (here : Mach Unit) : Mach Unit :=
  if r.away then do
    modify fun s => s.sendAway r.module
    waitFor (.remote h) rd
  else here

/-- The module that a handle names (R156): 255 by its M255 bit. -/
def handleModule (h : Dword) : Nat := bits h.toNat 21 8

def State.phaser (s : State) (r : PhRef) : Phaser := (s.core r.core).phasers.get Phaser.reset r.slot
def State.setPhaser (s : State) (r : PhRef) (p : Phaser) : State :=
  let x := s.core r.core
  s.setCore r.core { x with phasers := x.phasers.put r.slot p }

/-! ## Flips (R159) -/

/-- PH.TEST's answer (R160). -/
def phaseMet (phase p : Word) : Bool :=
  let d := (phase - p).toNat
  1 ≤ d && d ≤ 2 ^ 31

/-- The acquire that a wait for phase `p` makes at a phaser (R95): the largest PTS among the completions and arrivals of the
phases that have flipped since, phase `p` the first; nothing for a context of a core outside the phaser's domain. -/
def Phaser.acquired (q : Phaser) (r : PhRef) (core : Nat) (p : Word) : Nat :=
  if inDomain r.core core q.scope then (q.flipPts.take (q.phase - p).toNat).foldl max 0 else 0

/-- A waiter answered 1, or its record enqueued again (R156, R159); `pts` is the acquire it makes, if it makes one. -/
def State.release (s : State) (r : PhRef) (w : Waiter) (pts : Nat) (word : Dword) (merge : Bool) : State :=
  match w.record with
  | some record => (s.freeEntry w.core r.wait).requeue record pts
  | none =>
    let k := ctxKey w.core w.ctx
    let wait := Wait.phaser r.core r.slot w.phase w.st
    if (s.ctxAt k).status == .waiting wait w.rd then
      let c := s.ctxAt k
      (s.setCtxAt k { c with pts := max c.pts pts }).answer k wait 1#64 word merge
    else s

/-- A phaser as its flip leaves it, its waiters aside. R159 does not say whether a surplus arrival takes its PTS and its count along: they
stay with the phase in which it came (DESIGN CHOICE: assumption log, entry 44). -/
def Phaser.flipped (p : Phaser) : Phaser :=
  let sigs := ((p.sigs : Int) + p.held).toNat
  let arrived := if sigs = 0 then 0 else p.arrived - p.sigs
  { p with
    phase := p.phase + 1#32, sigs := sigs, arrived := arrived, accum := 0#64,
    latched := p.accum ||| BitVec.ofNat 64 (1 + min p.count 0xFFFF * 2 ^ 16), count := 0, touched := 0 < arrived, held := 0,
    heldWaits := [], pts := 0, flipPts := p.pts :: p.flipPts }

/-- Whether a phase flips now (R159). -/
def Phaser.due (p : Phaser) : Bool := p.touched && p.sigs ≤ p.arrived && p.pend == 0

/-- The flips a phaser makes at this moment (R159), at most `fuel`. -/
def State.flips : Nat → State → PhRef → State
  | 0, s, _ => s
  | fuel + 1, s, r =>
    let p := s.phaser r
    if p.due then
      let q := p.flipped
      let met := q.waiters.filter fun w => phaseMet q.phase w.phase
      let s := s.setPhaser r { q with waiters := q.waiters.filter fun w => !phaseMet q.phase w.phase }
      let s := p.heldWaits.foldl (fun s e => s.reserveEntries e.1 r.wait e.2) s
      let s := met.foldl (fun s w => s.release r w (q.acquired r w.core w.phase) q.latched w.st) s
      State.flips fuel (s.coreEvent r.core) r
    else s

/-- The flip test made after each event (R323). -/
def State.flipTest (s : State) (r : PhRef) : State := s.flips ((s.phaser r).arrived + 1) r

/-! ## Events of a slot -/

/-- One arrival (R158); the PHASE in which it counted. -/
def State.phArrive (s : State) (r : PhRef) (pts : Nat) : Word × State :=
  let p := s.phaser r
  let s := s.setPhaser r
    { p with arrived := (p.arrived + 1) % 2 ^ 16, count := p.count + 1, touched := true, pts := max p.pts pts }
  (p.phase, s.flipTest r)

/-- A reservation (R158): none where the sum would pass 2^32 - 1. -/
def State.phReserve (s : State) (r : PhRef) (n : Nat) : Option State :=
  let p := s.phaser r
  if p.pend + n < 2 ^ 32 then some (s.setPhaser r { p with pend := p.pend + n, touched := true }) else none

/-- A withdrawal (R158). The manual does not say whether the phase is then still touched: it is (DESIGN CHOICE: assumption log, entry
44). -/
def State.phWithdraw (s : State) (r : PhRef) (n : Nat) : State :=
  let p := s.phaser r
  (s.setPhaser r { p with pend := p.pend - n }).flipTest r

/-- A completion (R158, R159, R297): bytes subtracted or an arrival counted, and its word merged. KIND and UNIT come from the
first completion of the phase that sets ERR, by its word or by a subtraction larger than PEND (R308). What goes to another
module's phaser leaves, and has no other effect in this module (assumption log, entry 9). -/
def State.phComplete (s : State) (r : PhRef) (sub : Nat) (arrival : Bool) (word : Dword) (pts : Nat) : State :=
  if r.away then s.sendAway r.module else
  let p := s.phaser r
  let passed : Bool := p.pend < sub
  let w := word.toNat
  let err := bitAt w 1 || passed
  let who := if err && bits p.accum.toNat 12 4 == 0 then bits w 12 4 * 2 ^ 12 + bits w 32 32 * 2 ^ 32 else 0
  let p := { p with
    pend := p.pend - sub, arrived := if arrival then (p.arrived + 1) % 2 ^ 16 else p.arrived, touched := p.touched || arrival,
    count := p.count + 1, pts := max p.pts pts,
    accum := p.accum ||| BitVec.ofNat 64 (err.toNat * 2 + bits w 2 10 * 4 + who) }
  (s.setPhaser r p).flipTest r

/-! ## The instructions (R322) -/

/-- PH.INIT (R156, R322): the slot anew, its waiters answered without an acquire, its registrations gone with the entries they
reserved, and the handle. -/
def execPhInit (rd rs1 rs2 : XReg) (s : State) : Out :=
  finishArith (do
    let a ← readX rs1
    let n ← readX rs2
    let w := a.toNat
    check (bits w 0 7 ≤ 95 && bits w 29 3 ≤ 4 && bits w 7 22 == 0 && bits w 32 32 == 0) 0x06 a
    check (n.toNat < 2 ^ 16) 0x06 a
    canWriteX rd
    leave
    let s ← get
    let core := s.cur.1
    let r : PhRef := { core := core, slot := bits w 0 7 }
    let old := (s.phaser r).waiters
    modify fun s =>
      let s := old.foldl (fun s x => s.release r x 0 0#64 false)
        (s.setPhaser r { Phaser.reset with scope := (Scope.ofCode (bits w 29 3)).getD .core, sigs := n.toNat })
      { s with cores := s.cores.map fun e => (e.1, { e.2 with suspReserved := e.2.suspReserved.filter fun x => x.1 != r.wait }) }
    let m := s.modId
    writeX rd (BitVec.ofNat 64 (bits w 0 7 + core * 2 ^ 7 + m * 2 ^ 21 + bits w 29 3 * 2 ^ 29 +
      (if m = 255 then 2 ^ 32 else 0)))
    pins) s

def regSignals : RegMode → Bool
  | .wait => false
  | _ => true
def regWaits : RegMode → Bool
  | .sig => false
  | _ => true

/-- PH.REG and PH.DROP (R157): a change of SIGS by `delta`, and of the issuing core's reserved entries; whether it is done. -/
def State.phRegister (s : State) (r : PhRef) (core : Nat) (signals waits add : Bool) : Bool × State :=
  let p := s.phaser r
  let one : Int := if add then 1 else -1
  let delta := if signals then one else 0
  let total := (p.sigs : Int) + p.held + delta
  if total < 0 || 65535 < total then (false, s)
  else if p.touched then
    let w := if waits then p.heldWaits.put core (p.heldWaits.get 0 core + one) else p.heldWaits
    (true, (s.setPhaser r { p with held := p.held + delta, heldWaits := w }).flipTest r)
  else
    let s := s.setPhaser r { p with sigs := ((p.sigs : Int) + delta).toNat }
    (true, (if waits then s.reserveEntries core r.wait one else s).flipTest r)

/-- What PH.REG and PH.DROP share. -/
def register (add : Bool) (rd rs1 : XReg) (mode : RegMode) : Mach Unit := do
  let h ← readX rs1
  let r ← checkHandle h
  canWriteX rd
  leave
  awayAnswer h r (some rd) do
    let (done, s) := (← get).phRegister r (← myCore) (regSignals mode) (regWaits mode) add
    set s
    writeX rd (if done then 0#64 else 1#64)
  pins

/-- PH.REG (R157, R322). -/
def execPhReg (rd rs1 : XReg) (mode : RegMode) (s : State) : Out := finishArith (register true rd rs1 mode) s
/-- PH.DROP (R157, R322). -/
def execPhDrop (rd rs1 : XReg) (mode : RegMode) (s : State) : Out := finishArith (register false rd rs1 mode) s

/-- PH.ARR (R158, R322): no release. -/
def execPhArr (rd rs1 : XReg) (s : State) : Out :=
  finishArith (do
    let h ← readX rs1
    let r ← checkHandle h
    canWriteX rd
    leave
    pins
    awayAnswer h r (some rd) do
      let (phase, s) := (← get).phArrive r (← me).pts
      set s
      writeX rd (phase.setWidth 64)) s

/-- PH.WAIT (R152, R160, R322): answered at once where the phase has flipped, else a helper's unit suspends and any other
context waits. -/
def execPhWait (rd rs1 rs2 : XReg) (st : Bool) (s : State) : Out :=
  finishArith (do
    let h ← readX rs1
    let p := (← readX rs2).setWidth 32
    let r ← checkHandle h
    canWriteX rd
    leave
    let s ← get
    let q := s.phaser r
    awayAnswer h r (some rd) do
      if phaseMet q.phase p then
        raisePts (q.acquired r s.cur.1 p)
        if st then modifyMe fun c => c.mergeWord q.latched
        writeX rd 1#64
      else
        let (core, ctx) := s.cur
        let waiter : Waiter := { core := core, ctx := ctx, phase := p, rd := some rd, st := st, record := none }
        let wait (w : Waiter) : Mach Unit := modify fun s =>
          let q := s.phaser r
          s.setPhaser r { q with waiters := q.waiters ++ [w] }
        if s.maySuspend r.wait then
          match ← foldUnit s.me.npc none h with
          | none => pure ()
          | some (record, _) =>
            modify fun s => s.useEntry core r.wait
            wait { waiter with record := some record }
        else
          waitFor (.phaser r.core r.slot p st) (some rd)
          wait waiter
    pinsOf s.me) s

/-- PH.TEST (R160, R322). -/
def execPhTest (rd rs1 rs2 : XReg) (s : State) : Out :=
  finishArith (do
    let h ← readX rs1
    let p := (← readX rs2).setWidth 32
    let r ← checkHandle h
    canWriteX rd
    leave
    pins
    awayAnswer h r (some rd) do
      let q := (← get).phaser r
      if phaseMet q.phase p then
        raisePts (q.acquired r (← myCore) p)
        writeX rd 1#64
      else writeX rd 0#64) s

/-- PH.EXP (R158, R322). -/
def execPhExp (rs1 rs2 : XReg) (s : State) : Out :=
  finishArith (do
    let h ← readX rs1
    let n ← readX rs2
    let r ← checkHandle h
    check (n.toNat < 2 ^ 32) 0x0A n
    if n != 0#64 then
      awayAnswer h r none do
        match (← get).phReserve r n.toNat with
        | none => trap 0x0A n
        | some s =>
          set s
          keepClaim (.phaser r.core r.slot n.toNat)
    pins) s

/-- PH.STAT (R160, R322): the latched word, merged into FCSR. -/
def execPhStat (rd rs1 : XReg) (s : State) : Out :=
  finishArith (do
    let h ← readX rs1
    let r ← checkHandle h
    canWriteX rd
    leave
    pins
    awayAnswer h r (some rd) do
      let q := (← get).phaser r
      modifyMe fun c => c.mergeWord q.latched
      writeX rd q.latched) s

/-! ## The slot's steps. The subject names core and slot; its value is a count, or a PTS. -/

def subjectRef (j : Subject) : PhRef := { core := j.place, slot := j.index }

/-- PHASER_RESERVATION (R158): a reservation reaches the slot; one that would overflow adds nothing. -/
def execPhaserReservation (s : State) : Out :=
  event (modify fun s => (s.phReserve (subjectRef s.subject) s.subject.value.toNat).getD s) s

/-- PHASER_WITHDRAWAL (R158): a killed PH.EXP's reservation is taken back. -/
def execPhaserWithdrawal (s : State) : Out :=
  event (modify fun s => s.phWithdraw (subjectRef s.subject) s.subject.value.toNat) s

/-- PHASER_ARRIVAL (R158): an arrival reaches the slot. -/
def execPhaserArrival (s : State) : Out :=
  event (modify fun s => (s.phArrive (subjectRef s.subject) s.subject.value.toNat).2) s

end Sys2Proof.Machine
end

