-- ==== Sys2Proof/Machine/Rings.lean ====
section
/-!
DEFINITION. Ring instructions and bound ports (R61 to R65, R291 to R294), and the ring waits of suspended units (R152).
-/
namespace Sys2Proof.Machine

/-- What a ring header's words say of its slots: their first offset, their size and their count (R61, R62). -/
structure RingShape where
  base : Nat
  slot : Nat
  n : Nat
  deriving DecidableEq, Repr

/-- The shape of the header at an offset of a core's scratchpad, or none where it breaks R61. -/
def State.ringShape (s : State) (core off : Nat) : Option RingShape :=
  let w := s.num (spAddr core (off + 4)) 4
  let shape : RingShape := { base := bits w 0 12 * 64, slot := (bits w 12 8 + 1) * 64, n := 2 ^ bits w 20 4 }
  let last := shape.base + shape.n * shape.slot
  if bits w 20 4 ≤ 8 && bits w 24 8 == 0 && s.num (spAddr core (off + 8)) 8 == 0 && last ≤ 2 ^ 18 &&
      (off + 16 ≤ shape.base || last ≤ off) then
    some shape
  else none

/-- RINIT (R292, R293). -/
def execRinit (h : Ring) (rs1 : XReg) (s : State) : Out :=
  finishArith (do
    let a ← readX rs1
    alignCheck a 16
    check (a.toNat + 16 ≤ 2 ^ 18) 0x06 a
    let s ← get
    let core := s.cur.1
    check (s.localBad core .sp a.toNat 16 == 0) 0x0E a
    match s.ringShape core a.toNat with
    | none => trap 0x0B a
    | some r =>
      leave
      modifyMe fun c => c.setHandle h
        { ready := true, off := a.toNat, base := r.base, slot := r.slot, n := r.n,
          pres := BitVec.ofNat 16 (s.pcnt core a.toNat) }
    pins) s

/-- A handle that RINIT has initialised (R292). -/
def readyHandle (h : Ring) : Mach Handle := do
  let x := (← me).handle h
  check x.ready 0x0B (handleVal h)
  return x

/-- The slot count an instruction names: ARG where its rs1 field is zero (R293). -/
def slotCount (rs1 : XReg) (n : BitVec 6) : Mach Nat := do
  if rs1 = 0 then return n.toNat else return (← readX rs1).toNat

/-- What CBWAIT, CBROOM, CBADV and CBPUB share: the handle and n, where n is not 0 (R293). -/
def ringOp (h : Ring) (rs1 : XReg) (n : BitVec 6) (consumer : Bool) (act : Nat → Handle → Nat → Mach Unit) : Mach Unit := do
  let n ← slotCount rs1 n
  let x ← readyHandle h
  let core ← myCore
  if n != 0 then
    check (n ≤ x.n) 0x0B (handleVal h)
    if consumer then check ((← get).fill core x.off ≤ x.n) 0x0B (handleVal h)
    act core x n
  pins

/-- CBWAIT (R62, R293): waits until n slots are available. -/
def execCbwait (h : Ring) (rs1 : XReg) (n : BitVec 6) (s : State) : Out :=
  finishArith (ringOp h rs1 n true fun core x n => do
    if (← get).available core h x < n then throw .retry) s

/-- CBROOM (R62, R292, R293): waits until there is room for n slots. -/
def execCbroom (h : Ring) (rs1 : XReg) (n : BitVec 6) (s : State) : Out :=
  finishArith (ringOp h rs1 n false fun core x n => do
    if (← get).roomOf core x < n then throw .retry) s

/-- CBADV (R62, R293). -/
def execCbadv (h : Ring) (rs1 : XReg) (n : BitVec 6) (s : State) : Out :=
  finishArith (ringOp h rs1 n true fun core x n => do
    check (n ≤ (← get).available core h x) 0x0B (handleVal h)
    commitWrites [.consumed h x.off n]) s

/-- CBPUB (R63, R292, R293). -/
def execCbpub (h : Ring) (rs1 : XReg) (n : BitVec 6) (s : State) : Out :=
  finishArith (ringOp h rs1 n false fun core x n => do
    let s ← get
    check (!s.reserving core h x) 0x0B (handleVal h)
    check (n ≤ s.roomOf core x) 0x0B (handleVal h)
    commitWrites [.published h x.off n, .reserved h n]) s

/-! ## BIND and UNBIND (R64, R65, R294) -/

/-- A bound write port drains its staging buffer; the instruction waits while its slot has no room. -/
def drainAll (p : Port) : Mach Unit := do
  let q := (← me).port p
  if q.bound && q.dir == .write && !q.staged.isEmpty then
    drainPiece p
    if !((← me).port p).staged.isEmpty then throw .retry

/-- Whether another port of the context is bound to a header in a direction. -/
def Ctx.portClash (c : Ctx) (p : Port) (off : Nat) (dir : PortDir) : Bool :=
  (List.range 4).any fun i =>
    let q := c.port (Fin.ofNat 4 i)
    i != p.val && q.bound && q.dir == dir && (c.handle q.ring).off == off

/-- What both forms of BIND share. -/
def bindPort (p : Port) (h : Ring) (esize : Size) (z : Bool) (dir : PortDir) : Mach Unit := do
  let x ← readyHandle h
  check (!(← me).portClash p x.off dir) 0x0B (handleVal h)
  if dir == .write then check (!(← get).reserving (← myCore) h x) 0x0B (handleVal h)
  drainAll p
  leave
  modifyMe fun c => c.setPort p
    { bound := true, dir := dir, ring := h, esize := esize.bytes, z := z, pos := 0, staged := [] }
  pins

/-- BIND of a read port (R294). -/
def execBindRd (p : Port) (h : Ring) (esize : Size) (z : Bool) (s : State) : Out := finishArith (bindPort p h esize z .read) s
/-- BIND of a write port (R294). -/
def execBindWr (p : Port) (h : Ring) (esize : Size) (s : State) : Out := finishArith (bindPort p h esize false .write) s

/-- UNBIND (R65, R294): no effect on an unbound register. -/
def execUnbind (p : Port) (s : State) : Out :=
  finishArith (do
    if ((← me).port p).bound then
      drainAll p
      leave
      modifyMe fun c => c.setPort p PortSt.unbound
    pins) s

/-! ## Steps -/

/-- PORT_STAGING_TRANSFER (R64): a bound port moves one piece between its ring and its staging buffer. The subject names core,
context and, in its value, the port. -/
def execPortStagingTransfer (s : State) : Out :=
  event (asContext (ctxKey s.subject.place s.subject.index) do
    let p : Port := Fin.ofNat 4 s.subject.value.toNat
    let q := (← me).port p
    if q.bound then
      match q.dir with
      | .read =>
        let _ ← stagePiece p
      | .write => if q.staged.length = 32 then drainPiece p) s

/-- RING_WATCHER_SATISFIED (R152): the watched ring of a core holds the slots a suspended unit waits for. -/
def execRingWatcherSatisfied (s : State) : Out :=
  event (do
    let core := s.subject.place
    let off := s.subject.index
    let x := s.core core
    let met := fun (w : Watcher) => w.off == off && w.n ≤ s.fill core off
    modify fun s =>
      let s := s.setCore core { x with watchers := x.watchers.filter fun w => !met w }
      (x.watchers.filter met).foldl (fun s w => (s.freeEntry core otherWait).requeue w.record w.pts) s) s

/-- Whether the oldest unsealed packet of a context is a CBWAIT that stands in the S5 siding with its condition not met (R152). -/
def Pipe.cbwaits (p : Pipe) (n : Nat) : Bool :=
  p.siding.any fun e =>
    e.stage == 5 && e.packet.ctx == n && e.packet.seq == (p.ctxOf n).sealed && !e.packet.executed && match e.packet.instr with
      | .cbwait .. => true
      | _ => false

/-- CBWAIT_SUSPEND_TIMEOUT (R152): a helper's CBWAIT has stood unsatisfied for 1,024 cycles, and its unit suspends where a
ring watcher and a suspension entry are free; its packets, the CBWAIT's among them, are killed. The subject names core and context. -/
def execCbwaitSuspendTimeout (s0 : State) : Out :=
  event (do
    let core := s0.subject.place
    let k := ctxKey core s0.subject.index
    let s := if (s0.pipe core).cbwaits s0.subject.index then s0.killPackets k else s0
    if s.runs k && (s.core core).watchers.length < watcherCount then
      set s
      let unmet ← attempt (asContext k do
        let i ← fetch
        match i with
        | .cbwait h rs1 n =>
          let n ← slotCount rs1 n
          let x ← readyHandle h
          if (← get).fill core x.off < n && (← get).maySuspend otherWait then return some (x.off, n) else return none
        | _ => return none)
      -- looking at the instruction changes nothing
      match unmet.join with
      | none => set s0
      | some (off, n) =>
        set s
        let pc := (s.ctxAt k).pc
        match ← attemptHeld ⟨.cbwaitSuspendTimeout, s.subject⟩ (asContext k (foldUnit pc none (BitVec.ofNat 64 off))) with
        | .done (some (record, pts)) =>
          modify fun s =>
            let s := s.useEntry core otherWait
            let x := s.core core
            s.setCore core { x with watchers := x.watchers ++ [{ off := off, n := n, record := record, pts := pts }] }
        | _ => pure ()) s0

end Sys2Proof.Machine
end

