-- ==== Sys2Proof/Machine/Engines.lean ====
section
/-!
DEFINITION. Engine commands and messages: COPY, COPY2, GATH (R295 to R301), COLL (R302 to R305), SLCALL and SLPUSH (R306,
R307), DEPO (R328), and their completions (R94, R297, R298, R308).
-/
namespace Sys2Proof.Machine

/-! ## Commands at the core (R192, R193, R295) -/

/-- The register a field of the engine layout names (R192). -/
def engReg (r : EngReg) : XReg := Fin.ofNat 64 (16 + r.val)

/-- A command's local side as a space. -/
def sideSpace : LocalSide → Option Space
  | .none => none
  | .sp => some .sp
  | .cw => some .cw
  | .ds => some .ds

/-- Commands a core may have outstanding (R295). -/
def commandLimit : Nat := 16

/-- The engine commands (R295). -/
def isCommand : Instr → Bool
  | .copy .. | .copyIn .. | .copy2 .. | .gath .. | .slcall .. => true
  | .collAllred .. | .collRed .. | .collBcast .. | .collAllgath .. | .collRedscat .. => true
  | _ => false

/-- Commands of a core in flight: operations, calls that wait at sluice cores or run there, and commands that are complete in the
core's pipe or on their way out of it. -/
def State.outstanding (s : State) (core : Nat) : Nat :=
  let mine := fun (c : SluiceCall) => c.caller == BitVec.ofNat 64 (s.coreIdWord core)
  (s.ops.filter fun o => o.2.core == core).length +
    s.cores.foldl (fun n e => n + (e.2.calls.filter mine).length + (e.2.running.any mine).toNat) 0 +
    ((s.pipe core).packets.filter fun q => isCommand q.instr && q.executed && q.fault.isNone).length +
    ((s.core core).outbound.filter fun o => isCommand o.packet.instr).length

/-- A command waits while 16 are outstanding. -/
def commandRoom : Mach Unit := beforeSeal do
  let s ← get
  if commandLimit ≤ s.outstanding s.cur.1 then throw .retry

/-- `.acq` (R94): earlier accesses of the context reach the scope before the command leaves. The PTS the operation takes. -/
def acquireFor (ord : MemOrder) : Mach Nat := do
  if ord.acq then
    releaseMine ord.scope
    return (← me).pts
  else return 0

/-- An operation of the running context, not yet entered. -/
def newOp (kind : EngKind) (dst src ph : Dword) (count : Nat) (desc : List Byte) (side : LocalSide) (ord : MemOrder)
    (pts : Nat) : Mach EngOp := do
  let s ← get
  let c := s.me
  let launch := c.launchid.toNat
  return {
    kind := kind, core := s.cur.1, ctx := s.cur.2, unit := c.unitid, launch := launch,
    job := ((s.launches.find launch).map (·.job)).getD 0, dst := dst, src := src, count := count, desc := desc, side := side,
    ord := ord, ph := ph, pts := pts, lease := c.lease.toNat, secure := s.secure s.cur.1, ring := none, published := true,
    word := 0#64, moved := false, joined := false, timeout := c.bartmo.toNat % 2 ^ 32 }

/-- The command leaves: its operation is entered, and a step of it is due. -/
def issue (o : EngOp) (first : Instr) : Mach Unit := do
  let (n, s) := (← get).addOp o
  set (s.due first n)

/-- A `.sp` descriptor read at the core (R295): its bytes. -/
def readDescriptor (off : Dword) (n : Nat) : Mach (List Byte) := readAhead do
  alignCheck off 16
  check (off.toNat + n ≤ 2 ^ 18) 0x06 off
  let (bs, bad) ← fetchBytes .sp off off n
  check (!bad) 0x0E off
  return bs

/-- The four operands of a command. -/
def commandOperands (dst src cnt ph : EngReg) : Mach (Dword × Dword × Dword × Dword) := do
  return (← readX (engReg dst), ← readX (engReg src), ← readX (engReg cnt), ← readX (engReg ph))

/-- A local side within its extent (R10, R299). -/
def localExtent (side : LocalSide) (off : Dword) (n : Nat) (write : Bool) : Mach Unit := beforeSeal do
  let s ← get
  match sideSpace side with
  | none => pure ()
  | some space =>
    match extentCause s s.cur.1 space off.toNat n write with
    | none => pure ()
    | some cause => trap cause off

/-- COPY (R299): from a local space or global memory to global memory. -/
def execCopy (dst src cnt ph : EngReg) (ord : MemOrder) (side : LocalSide) (s : State) : Out :=
  finishArith (do
    let (d, x, n, p) ← commandOperands dst src cnt ph
    check (n.toNat < 2 ^ 32) 0x06 n
    localExtent side x n.toNat false
    let _ ← checkHandle p
    commandRoom
    leave
    let pts ← acquireFor ord
    issue (← newOp .copy d x p n.toNat [] side ord pts) .engineCompletion
    pins) s

/-- COPY.in (R299): to a local space, or to a ring, whose slot is reserved. -/
def execCopyIn (dst src cnt ph : EngReg) (ord : MemOrder) (side : LocalSide) (s : State) : Out :=
  finishArith (do
    let (d, x, n, p) ← commandOperands dst src cnt ph
    check (n.toNat < 2 ^ 32) 0x06 n
    if side == .sp && d.msb then
      let h : Ring := Fin.ofNat 16 d.toNat
      check (bits d.toNat 4 59 == 0) 0x0B (handleVal h)
      let r ← readyHandle h
      let core ← myCore
      beforeSeal (do check (n.toNat ≤ r.slot && 1 ≤ (← get).roomOf core r) 0x0B (handleVal h))
      let _ ← checkHandle p
      commandRoom
      commitWrites [.reserved h 1]
      leave
      let pts ← acquireFor ord
      let o ← newOp .copyIn d x p n.toNat [] side ord pts
      issue { o with ring := some (r.off, r.pres, r.slotAt r.pres.toNat 0), published := false } .engineCompletion
    else
      localExtent side d n.toNat true
      let _ ← checkHandle p
      commandRoom
      leave
      let pts ← acquireFor ord
      issue (← newOp .copyIn d x p n.toNat [] side ord pts) .engineCompletion
    pins) s

/-- What COPY2, GATH and COLL share: a descriptor in the scratchpad. -/
def describedCommand (kind : EngKind) (bytes : Nat) (first : Instr) (dst src cnt ph : EngReg) (ord : MemOrder)
    (side : LocalSide) : Mach Unit := do
  let (d, x, n, p) ← commandOperands dst src cnt ph
  let desc ← readDescriptor n bytes
  let _ ← checkHandle p
  commandRoom
  leave
  let pts ← acquireFor ord
  issue (← newOp kind d x p 0 desc side ord pts) first
  pins

/-- COPY2 (R300). -/
def execCopy2 (dst src cnt ph : EngReg) (ord : MemOrder) (side : LocalSide) (s : State) : Out :=
  finishArith (describedCommand .copy2 32 .engineCompletion dst src cnt ph ord side) s
/-- GATH (R301). -/
def execGath (dst src cnt ph : EngReg) (ord : MemOrder) (side : LocalSide) (s : State) : Out :=
  finishArith (describedCommand .gath 16 .engineCompletion dst src cnt ph ord side) s
/-- COLL.ALLRED (R302). -/
def execCollAllred (dst src cnt ph : EngReg) (ord : MemOrder) (s : State) : Out :=
  finishArith (describedCommand (.coll 0) 32 .collArrival dst src cnt ph ord .none) s
/-- COLL.RED (R302). -/
def execCollRed (dst src cnt ph : EngReg) (ord : MemOrder) (s : State) : Out :=
  finishArith (describedCommand (.coll 1) 32 .collArrival dst src cnt ph ord .none) s
/-- COLL.BCAST (R302). -/
def execCollBcast (dst src cnt ph : EngReg) (ord : MemOrder) (s : State) : Out :=
  finishArith (describedCommand (.coll 2) 32 .collArrival dst src cnt ph ord .none) s
/-- COLL.ALLGATH (R302). -/
def execCollAllgath (dst src cnt ph : EngReg) (ord : MemOrder) (s : State) : Out :=
  finishArith (describedCommand (.coll 3) 32 .collArrival dst src cnt ph ord .none) s
/-- COLL.REDSCAT (R302). -/
def execCollRedscat (dst src cnt ph : EngReg) (ord : MemOrder) (s : State) : Out :=
  finishArith (describedCommand (.coll 4) 32 .collArrival dst src cnt ph ord .none) s

/-! ## What an engine moves -/

/-- One side of a movement. -/
inductive Place where
  | global (a : Dword)
  | near (space : Space) (off : Nat)
  deriving DecidableEq, Repr

/-- Bits of a completion word (R308). -/
def wordErr : Nat := 2
def wordEc : Nat := 0x100 + 2
def wordTo : Nat := 0x200 + 2
def wordXf : Nat := 0x400 + 2
def wordNe : Nat := 0x800 + 2

/-- A completion word with more bits set. -/
def EngOp.note (o : EngOp) (w : Nat) : EngOp := { o with word := o.word ||| BitVec.ofNat 64 w }
/-- The operation has been refused something and issues no further access (R298). -/
def EngOp.stopped (o : EngOp) : Bool := bitAt o.word.toNat 10

def Place.at (p : Place) (i : Nat) : Place :=
  match p with
  | .global a => .global (a + BitVec.ofNat 64 i)
  | .near space off => .near space (off + i)

/-- Bytes up to the next 32-byte boundary. -/
def Place.left (p : Place) : Nat :=
  match p with
  | .global a => 32 - a.toNat % 32
  | .near _ off => 32 - off % 32

/-- The marks of `n` bytes of a local space, bit i for byte i. -/
def State.nearBad (s : State) (core : Nat) (space : Space) (off n : Nat) : Nat :=
  (List.range n).foldl (fun acc i => if s.marked (localAddr core space (off + i)) then acc + 2 ^ i else acc) 0

/-- An engine's site of a global byte; an address that routes nowhere is refused. -/
def engineSite (a : Dword) : Mach Site := do
  match globalSite (← get) a a with
  | some t => return t
  | none => trap 0x06 a

/-- Free bytes: what stands for bytes that are answered as uncorrectable data by a link that is down (R391), whose values the manual
leaves open. -/
def freeBytes (n : Nat) : Mach (List Byte) := do
  let s ← get
  set { s with free := s.free + n }
  return (List.range n).map fun i => (Config.freeDword (s.free + i)).setWidth 8

/-- Reads one piece for an operation: the bytes, their marks, and the PTS. A local extent crossed is refused; bytes that cannot be had
are read as uncorrectable data (R298, R391). -/
def readPiece (o : EngOp) (p : Place) (n : Nat) : Mach (List Byte × Nat × Nat) := do
  match p with
  | .global a =>
    tryCatch (do weakLoad o.agent (← engineSite a) .read n o.pts) fun e => do
      match e with
      | .trap 0x0E _ => return (← freeBytes n, 2 ^ n - 1, o.pts)
      | e => throw e
  | .near space off =>
    let s ← get
    check (extentCause s o.core space off n false).isNone 0x06 0#64
    return (s.localBytes o.core space off n, s.nearBad o.core space off n, o.pts)

/-- Marks bytes that a store has just put into the nearest copy that is no L1, or into the home (R298). -/
def markStored (a : Agent) (t : Site) (bad : Nat) : Mach Unit := do
  if bad != 0 then
    match (a.levels t).drop a.l1.toList.length with
    | p :: _ =>
      modify fun s => match s.findCopy p t.key with
        | none => s
        | some (base, c) => s.putCopy p base { c with bad := c.bad ||| bad * 2 ^ (t.key - base) }
    | [] =>
      let h ← homeOf a t .settled
      modify fun s => (List.range 32).foldl (fun s i => if bitAt bad i then s.mark (h.base + (t.key - h.key) + i) else s) s

/-- Writes one piece for an operation, with its marks; the PTS. -/
def writePiece (o : EngOp) (p : Place) (bs : List Byte) (bad : Nat) : Mach Nat := do
  match p with
  | .global a =>
    let t ← engineSite a
    writeGrant o.agent t .write
    writeProbe o.agent t bs.length
    let pts ← weakStore o.agent t bs o.pts
    markStored o.agent t bad
    return pts
  | .near space off =>
    let s ← get
    check (extentCause s o.core space off bs.length true).isNone 0x06 0#64
    modify fun s =>
      let s := s.localStore o.core space off bs
      (List.range bs.length).foldl (fun s i => if bitAt bad i then s.mark (localAddr o.core space (off + i)) else s) s
    return o.pts

/-- What a failed access of an operation comes to (R298): refused, uncorrectable or without a shadow; a page that is absent,
or held, holds the access. -/
def settleFault (o : EngOp) (e : Exc) : Mach EngOp := do
  match e with
  | .trap 0x07 _ => return o.note wordNe
  | .trap 0x0E _ => return o.note wordEc
  | .trap _ _ => return o.note wordXf
  | e => throw e

/-- The right to write a piece: the page's, or the local extent's (R298). -/
def checkPiece (o : EngOp) (p : Place) (n : Nat) : Mach Unit := do
  match p with
  | .global a => writeGrant o.agent (← engineSite a) .write
  | .near space off => check (extentCause (← get) o.core space off n true).isNone 0x06 0#64

/-- Writes a piece some bytes of whose destination overlap, byte by byte: such a byte receives the copied value or keeps its
old one, every other byte the copied value (R299). -/
def writeContested (o : EngOp) (dst : Place) (clash : Place → Bool) (bad : Nat) : Nat → List Byte → Mach EngOp
  | _, [] => return o
  | i, b :: bs => do
    let s ← get
    let contested := clash (dst.at i)
    set { s with free := s.free + contested.toNat }
    let o ←
      if contested && !Config.copiedByte s.free then pure o
      else do return { o with pts := max o.pts (← writePiece o (dst.at i) [b] (bitAt bad i).toNat) }
    writeContested o dst clash bad (i + 1) bs

/-- Moves one piece; `clash` says which bytes of the destination overlap. -/
def movePiece (o : EngOp) (src dst : Place) (n : Nat) (clash : Place → Bool) : Mach EngOp := do
  tryCatch (do
    let (bs, bad, pts) ← readPiece o src n
    let o := { o with pts := max o.pts pts }
    let o ←
      if (List.range n).any fun i => clash (dst.at i) then do
        checkPiece o dst n
        writeContested o dst clash bad 0 bs
      else do return { o with pts := max o.pts (← writePiece o dst bs bad) }
    return if bad = 0 then o else o.note wordEc) fun e => settleFault o e

/-- Moves `n` bytes piece by piece, until the operation is refused something. -/
def moveBytes (clash : Place → Bool) : Nat → EngOp → Place → Place → Nat → Mach EngOp
  | 0, o, _, _, _ => return o
  | fuel + 1, o, src, dst, n => do
    if n = 0 || o.stopped then return o
    let len := min n (min src.left dst.left)
    let o ← movePiece o src dst len clash
    moveBytes clash fuel o (src.at len) (dst.at len) (n - len)

/-- Whether a byte lies among the `n` bytes from a place on. -/
def Place.within (p base : Place) (n : Nat) : Bool :=
  match p, base with
  | .global a, .global b => (a - b).toNat < n
  | .near s x, .near t y => s == t && y ≤ x && x < y + n
  | _, _ => false

/-- The local side of an operation at an offset; one outside 64 bits of any extent is refused by its check. -/
def EngOp.near (o : EngOp) (off : Dword) : Place :=
  match sideSpace o.side with
  | none => .global off
  | some space => .near space off.toNat

/-- Where a row of a COPY2 begins: its source and its destination (R300). -/
def EngOp.row (o : EngOp) (r : Nat) : Place × Place :=
  let sa := o.src + BitVec.ofNat 64 r * BitVec.ofNat 64 (field o.desc 8 8)
  let da := o.dst + BitVec.ofNat 64 r * BitVec.ofNat 64 (field o.desc 16 8)
  let dir := field o.desc 24 8 == 1
  (if o.side != .none && !dir then o.near sa else .global sa, if o.side != .none && dir then o.near da else .global da)

/-- COPY2's rows (R300). A destination byte overlaps where it lies in a row's source or in an earlier row's destination. -/
def copyRows (o : EngOp) (rowb rows : Nat) : Nat → Nat → EngOp → Mach EngOp
  | 0, _, x => return x
  | n + 1, r, x => do
    if x.stopped then return x
    let clash := fun (p : Place) =>
      ((List.range rows).any fun q => p.within (o.row q).1 rowb) || (List.range r).any fun q => p.within (o.row q).2 rowb
    let x ← moveBytes clash (rowb + 1) x (o.row r).1 (o.row r).2 rowb
    copyRows o rowb rows n (r + 1) x

/-- The source of element i of a GATH (R301). -/
def State.gatherSource (s : State) (o : EngOp) (size idx i : Nat) : Place :=
  .global (o.src + BitVec.ofNat 64 (s.num (spAddr o.core (idx + 4 * i)) 4 * size))

/-- GATH's elements (R301). A destination byte overlaps where it lies in an element's source (R299). -/
def gatherElements (o : EngOp) (size idx all : Nat) : Nat → Nat → EngOp → Mach EngOp
  | 0, _, x => return x
  | n + 1, i, x => do
    if x.stopped then return x
    let s ← get
    let clash := fun (p : Place) => (List.range all).any fun j => p.within (s.gatherSource o size idx j) size
    let x ←
      if 0 < s.nearBad o.core .sp (idx + 4 * i) 4 then pure (x.note wordEc)
      else moveBytes clash (size + 1) x (s.gatherSource o size idx i) (o.near (o.dst + BitVec.ofNat 64 (i * size))) size
    gatherElements o size idx all n (i + 1) x

/-- The bytes a command subtracts at its phaser, from its descriptor as written (R297). -/
def EngOp.total (o : EngOp) : Nat :=
  match o.kind with
  | .copy2 => field o.desc 0 4 * field o.desc 4 4
  | .gath => field o.desc 0 4 * 2 ^ (field o.desc 4 4 % 16)
  | _ => o.count

/-- Performs the accesses of a copy, COPY2 or GATH. -/
def performMove (o : EngOp) : Mach EngOp := do
  match o.kind with
  | .copy2 =>
    if 2 ^ 32 ≤ o.total || 1 < field o.desc 24 8 then return o.note wordXf
    else
      copyRows o (field o.desc 0 4) (field o.desc 4 4) (field o.desc 4 4) 0 o
  | .gath =>
    let n := field o.desc 0 4
    let idx := field o.desc 8 8
    if 2 ^ 20 < n || 9 < field o.desc 4 4 || idx % 4 != 0 || 2 ^ 18 < idx + 4 * n || 2 ^ 18 ≤ idx then return o.note wordXf
    else gatherElements o (2 ^ field o.desc 4 4) idx n n 0 o
  | .copyIn =>
    let dst := match o.ring with
      | some (_, _, slot) => Place.near .sp slot
      | none => o.near o.dst
    moveBytes (fun _ => false) (o.count + 1) o (.global o.src) dst o.count
  | _ =>
    let src := o.near o.src
    let dst := Place.global o.dst
    moveBytes (fun p => p.within src o.count) (o.count + 1) o src dst o.count

/-! ## Collectives (R302 to R305) -/

/-- Element types of a COLL, their sizes. -/
def collSize : Nat → Nat
  | 0 | 2 => 4
  | 1 => 8
  | _ => 2
def collFmt : Nat → Option FFmt
  | 2 => some .fp32
  | 3 => some .fp16
  | 4 => some .bf16
  | _ => none

/-- A COLL's descriptor is one the table of R302 allows. -/
def collOk (d : List Byte) : Bool :=
  let w := field d 12 4
  1 ≤ field d 4 2 && field d 6 2 < field d 4 2 && bits w 0 3 ≤ 4 && bitAt w 3 == false && bits w 4 2 ≤ 2 && bits w 6 26 == 0 &&
    (d.drop 16).all (· == 0#8)

/-- The mode of R305: to nearest even, nothing flushed. -/
def collMode : FpMode := { rm := .rne, fz := false, fzn := false }

/-- One combining step of a COLL (R305): its value, and its flags joined to those of its operands. -/
def collStep (etype rop : Nat) (a b : Nat × FFlags) : Nat × FFlags :=
  let w := 8 * collSize etype
  let (v, f) := match collFmt etype with
    | some fmt => if rop = 0 then fpAdd collMode fmt a.1 b.1 else fpMinMax (rop == 2) collMode fmt a.1 b.1
    | none => (if rop = 0 then (a.1 + b.1) % 2 ^ w else spick w (rop == 2) a.1 b.1, 0#7)
  (v, f ||| a.2 ||| b.2)

/-- The values of one element at the ranks, reduced (R305). -/
def collReduce (etype rop : Nat) (vs : List Nat) : Nat × FFlags :=
  (treeOf (collStep etype rop) 32 (vs.map fun v => (v, 0#7))).getD (0, 0#7)

/-- Reads bytes for a member, piece by piece: the bytes and whether each is marked, and the PTS that the reads give (R84). -/
def collRead : Nat → EngOp → Dword → Nat → Mach (List (Byte × Bool) × Nat)
  | 0, o, _, _ => return ([], o.pts)
  | fuel + 1, o, a, n => do
    if n = 0 then return ([], o.pts)
    let len := min n (Place.global a).left
    let (bs, bad, pts) ← readPiece o (.global a) len
    let (rest, pts) ← collRead fuel { o with pts := max o.pts pts } (a + BitVec.ofNat 64 len) (n - len)
    return ((bs.zipIdx.map fun p => (p.1, bitAt bad p.2)) ++ rest, pts)

/-- Writes bytes for a member, piece by piece. -/
def collWrite : Nat → EngOp → Dword → List (Byte × Bool) → Mach EngOp
  | 0, o, _, _ => return o
  | fuel + 1, o, a, bs => do
    if bs.isEmpty || o.stopped then return o
    let len := min bs.length (Place.global a).left
    let now := bs.take len
    let bad := now.zipIdx.foldl (fun n p => if p.1.2 then n + 2 ^ p.2 else n) 0
    let o ← tryCatch (do
      let pts ← writePiece o (.global a) (now.map Prod.fst) bad
      return { o with pts := max o.pts pts }) fun e => settleFault o e
    collWrite fuel o (a + BitVec.ofNat 64 len) (bs.drop len)

/-- What a rank receives (R304), from every rank's source: its bytes with their marks, and the flags of the steps. -/
def collResult (op rank nranks count etype rop : Nat) (srcs : List (List (Byte × Bool))) : List (Byte × Bool) × FFlags :=
  let e := collSize etype
  let reduceFrom := fun (first : Nat) =>
    let elems := (List.range count).map fun t =>
      let parts := srcs.map fun s => (s.drop ((first + t) * e)).take e
      let (v, f) := collReduce etype rop (parts.map fun p => natOfBytes (p.map Prod.fst))
      let bad := parts.any fun p => p.any Prod.snd
      ((bytesOfNat e v).map fun b => (b, bad), f)
    (elems.flatMap Prod.fst, elems.foldl (fun f x => f ||| x.2) 0#7)
  match op with
  | 0 => reduceFrom 0
  | 1 => let r := reduceFrom 0; (if rank = 0 then r.1 else [], r.2)
  | 2 => ((srcs.head?).getD [], 0#7)
  | 3 => ((srcs.take nranks).flatten, 0#7)
  | _ => reduceFrom (rank * count)

/-- Bytes a rank reads (R304). -/
def collNeed (op rank nranks bytes : Nat) : Nat :=
  match op with
  | 2 => if rank = 0 then bytes else 0
  | 4 => nranks * bytes
  | _ => bytes

/-- The operation code of a COLL. -/
def EngKind.collOp : EngKind → Nat
  | .coll op => op
  | _ => 0

/-- Runs a complete instance: every rank's source is read, then every rank's destination is written. A rank whose source is
refused ends the whole instance with ERR and XF, or with ERR and NE where a harvest of it is refused (R107), and nothing is written. The
reads of every rank raise the PTS of each: what a rank writes may come from any of them (R84, R86; assumption log, entry 15). -/
def runInstance (c : CollInst) : Mach Unit := do
  let s ← get
  let ops := c.members.filterMap fun n => (s.ops.find n).map fun o => (n, o)
  let byRank := fun (r : Nat) => ops.find? fun p => field p.2.desc 6 2 == r
  match ops with
  | [] => pure ()
  | (_, first) :: _ =>
    let op := first.kind.collOp
    let nranks := field first.desc 4 2
    let count := field first.desc 8 4
    let etype := field first.desc 12 4 % 8
    let rop := bits (field first.desc 12 4) 4 2
    let bytes := count * collSize etype
    let ranked := (List.range nranks).filterMap byRank
    let read : Except Nat (List (List (Byte × Bool) × Nat)) ← tryCatch (do
      let srcs ← ranked.mapM fun p => do
        let n := collNeed op (field p.2.desc 6 2) nranks bytes
        collRead (n + 1) p.2 p.2.src n
      return .ok srcs) fun e => match e with
        | .trap cause _ => return .error (if cause = 0x07 then wordNe else wordXf)
        | e => throw e
    match read with
    | .error w =>
      for (n, o) in ops do
        modify fun s => { s with ops := s.ops.put n { o.note w with moved := true } }
    | .ok reads =>
      let srcs := reads.map Prod.fst
      let pts := reads.foldl (fun t r => max t r.2) 0
      let results := ranked.map fun p => (p, collResult op (field p.2.desc 6 2) nranks count etype rop srcs)
      let flags : FFlags := results.foldl (fun f r => f ||| r.2.2) 0#7
      let ec := srcs.any fun s => s.any Prod.snd
      for ((n, o), bs, _) in results do
        let o := { o with pts := max o.pts pts }.note (4 * flags.toNat + (if ec then wordEc else 0))
        let o ← collWrite (bs.length + 1) o o.dst bs
        modify fun s => { s with ops := s.ops.put n { o with moved := true } }

/-- A member's operation ends with bits of its completion word set and nothing moved. -/
def State.endMember (s : State) (n w : Nat) : State :=
  match s.ops.find n with
  | none => s
  | some o => { s with ops := s.ops.put n { o.note w with moved := true } }.due .engineCompletion n

/-- The instance as the list of instances keeps it. -/
def CollInst.same (a b : CollInst) : Bool := a.job == b.job && a.group == b.group && a.number == b.number

def State.setColl (s : State) (c : CollInst) : State :=
  { s with colls := if s.colls.any c.same then s.colls.map fun x => if x.same c then c else x else s.colls ++ [c] }

/-- Whether two members agree (R303). -/
def agrees (a b : EngOp) : Bool :=
  a.kind == b.kind && field a.desc 4 2 == field b.desc 4 2 && field a.desc 8 4 == field b.desc 8 4 &&
    field a.desc 12 4 == field b.desc 12 4 && field a.desc 6 2 != field b.desc 6 2

/-- COLL_ARRIVAL (R303): an operation joins its group's instance; the last one runs it. Members that disagree all end with XF, and so do
those of an instance that one with an invalid descriptor has joined (R298; DESIGN CHOICE: assumption log, entry 15). The subject names the
operation. -/
def execCollArrival (s : State) : Out :=
  event (do
    let n := s.subject.place
    match s.ops.find n with
    | none => pure ()
    | some o =>
      if o.joined then pure ()
      else
        let group := field o.desc 0 4
        let me := (o.launch, o.unit.toNat, if o.unit = 0#64 then o.core else 0)
        let number := (s.colls.filter fun c => c.job == o.job && c.group == group && c.who.contains me).length
        let inst := (s.colls.find? fun c => c.job == o.job && c.group == group && c.number == number).getD
          { job := o.job, group := group, number := number, members := [], who := [], failed := false, poisoned := false,
            complete := false }
        let valid := collOk o.desc
        let fellows := inst.members.filterMap s.ops.find
        let ok := valid && !inst.failed && fellows.all (agrees o)
        let inst := { inst with who := inst.who ++ [me] }
        modify fun s => { s with ops := s.ops.put n { o with joined := true } }
        if inst.poisoned then
          modify fun s => (s.setColl inst).endMember n (if valid then wordTo else wordTo ||| wordXf)
        else if !ok then
          modify fun s =>
            let s := s.setColl { inst with failed := true, members := [] }
            (inst.members ++ [n]).foldl (fun s m => s.endMember m wordXf) s
        else
          let inst := { inst with members := inst.members ++ [n] }
          let full := inst.members.length == field o.desc 4 2
          modify fun s => s.setColl { inst with complete := full }
          if full then
            modify fun s => inst.members.foldl (fun s m => s.due .engineCompletion m) s) s

/-- COLL_TIMEOUT (R303): a member has waited BARTMO's cycles, and its instance is poisoned. -/
def execCollTimeout (s : State) : Out :=
  event (do
    let n := s.subject.place
    match s.ops.find n, s.colls.find? fun c => c.members.contains n && !c.complete with
    | some o, some c =>
      if 0 < o.timeout then
        modify fun s =>
          let s := s.setColl { c with poisoned := true, members := [] }
          c.members.foldl (fun s m => s.endMember m wordTo) s
    | _, _ => pure ()) s

/-! ## Completion (R297, R308) -/

/-- KIND's code in a completion word (R308). -/
def EngKind.code : EngKind → Nat
  | .copy | .copyIn => 1
  | .copy2 => 2
  | .gath => 3
  | .coll _ => 4
  | .slcall => 5

/-- An operation's access waits: with a fault record for a page that is absent (R298, R374), or where any access waits (R376, R119, R87,
R88). -/
def State.holdOp (s : State) (n : Nat) (o : EngOp) (e : Exc) : State :=
  match e with
  | .notPresent gva _ home _ write =>
    if s.faultQueueFull home then s.addWait (.home home gva) (.op n)
    else (s.faultRecord home gva 1 false write (coreId o.core) (dieOf o.core) 15 0#64).addWait (.absent home gva) (.op n)
  | .hold w => s.addWait w (.op n)
  | _ => s

/-- Whether the first of two reservation counts of a handle is the earlier: the counts of a ring's slots lie less than 2^15 apart. -/
def reservedBefore (a b : BitVec 16) : Bool := a != b && (b - a).toNat < 2 ^ 15

/-- The reservation of a sealed ring copy that has not left its core: its context, its header's offset, and the count (R299). -/
def Outbound.reservation (o : Outbound) : Option (Nat × Nat × BitVec 16) :=
  match o.packet.instr with
  | .copyIn dst _ _ _ _ side =>
    let d := o.view.getX (engReg dst)
    if side == .sp && d.msb then
      let r := o.view.handle (Fin.ofNat 16 d.toNat)
      some (o.packet.ctx, r.off, r.pres)
    else none
  | _ => none

/-- Earlier reservations of a ring copy's handle that are not yet published, of copies that run or have still to leave their core. -/
def State.earlierRing (s : State) (o : EngOp) (off : Nat) (pres : BitVec 16) : Bool :=
  (s.ops.any fun e => e.2.core == o.core && e.2.ctx == o.ctx && !e.2.published &&
      e.2.ring.any fun r => r.1 == off && reservedBefore r.2.1 pres) ||
    (s.core o.core).outbound.any fun q => q.reservation.any fun r => r.1 == o.ctx && r.2.1 == off && reservedBefore r.2.2 pres

/-- An operation's PTS raised (R86). -/
def State.raiseOp (s : State) (n t : Nat) : State :=
  match s.ops.find n with
  | none => s
  | some o => { s with ops := s.ops.put n { o with pts := max o.pts t } }

/-- An operation that has done its work completes at its phaser (R297, R94): pushed first, where it carries `.rel`. A push that must wait
holds its completion. -/
def completeOp (n : Nat) (o : EngOp) : Mach Unit := do
  if o.ord.rel then release o.agent o.ord.scope fun t => modify fun s => s.raiseOp n t
  let pts := (((← get).ops.find n).map (·.pts)).getD o.pts
  let word := o.word ||| BitVec.ofNat 64 (o.kind.code * 2 ^ 12) ||| o.unit <<< 32
  let arrival := match o.kind with
    | .coll _ | .slcall => true
    | _ => false
  modify fun s =>
    let s := { s with ops := s.ops.erase n }
    let s := s.phComplete (s.refOf o.ph) (if arrival then 0 else o.total) arrival word pts
    let s := s.settleColls o.job
    let s := if s.barriers.any fun b => b.launch == o.launch && b.stopping && !b.complete then s.due .superstepStop o.launch else s
    s.dies.foldl (fun s e => if e.2.command.isSome then s.due .quiesce e.1 else s) s

/-- ENGINE_COMPLETION (R94, R295, R297, R308): an operation moves its bytes and completes. An access that must wait holds the
whole operation, which has then moved nothing. -/
def execEngineCompletion (s : State) : Out :=
  event (do
    let n := s.subject.place
    match s.ops.find n with
    | none => pure ()
    | some o =>
      let run : Mach Unit := do
        if o.moved then pure ()
        else match o.kind with
          | .coll _ =>
            match s.colls.find? fun c => c.members.contains n && c.complete with
            | none => pure ()
            | some c => runInstance c
          | .slcall => pure ()
          | _ =>
            let o ← performMove o
            modify fun s => { s with ops := s.ops.put n { o with moved := true } }
      match EStateM.run run s with
      | .error e _ => set (s.holdOp n o e)
      | .ok _ s' =>
        set s'
        match s'.ops.find n with
        | none => pure ()
        | some o =>
          if !o.moved then pure ()
          else if o.published then
            tryCatch (completeOp n o) fun e => modify fun s => s.holdOp n o e
          else modify fun s => s.due .ringCopyPublish n) s

/-- RING_COPY_PUBLISH (R299): a ring copy whose bytes are written, and whose ring's earlier reservations are published, adds one
to PCNT; then it completes. -/
def execRingCopyPublish (s : State) : Out :=
  event (do
    let n := s.subject.place
    match s.ops.find n with
    | none => pure ()
    | some o =>
      match o.ring with
      | none => pure ()
      | some (off, pres, _) =>
        if o.moved && !o.published && !s.earlierRing o off pres then
          modify fun s =>
            let s := { s with ops := s.ops.put n { o with published := true } }
            let s := (s.advancePcnt o.core off 1).due .engineCompletion n
            let next := s.ops.filter fun e => e.2.core == o.core && e.2.ctx == o.ctx && !e.2.published && e.2.moved &&
              (e.2.ring.map fun r => r.1) == some off
            next.foldl (fun s e => s.due .ringCopyPublish e.1) s) s

/-! ## Sluice cores (R306, R307) -/

/-- Calls a sluice core queues (R306). -/
def callQueue : Nat := 32

/-- SLCALL (R306): 0 where the call is queued, 1 where the queue is full. -/
def execSlcall (rd rs1 rs2 : XReg) (ord : MemOrder) (s : State) : Out :=
  finish (do
    let blk ← readX rs1
    let tgt ← readX rs2
    check (tgt.toNat < 2 ^ 10) 0x06 tgt
    let bs ← readAhead (do
      alignCheck blk 32
      loadBytes .global blk 32)
    let ph : Dword := BitVec.ofNat 64 (field bs 24 8)
    let _ ← checkHandle ph
    canWriteX rd
    commandRoom
    let core := sluiceCore (bits tgt.toNat 4 6) (bits tgt.toNat 0 4)
    let s ← get
    let x := s.core core
    let sealed ← sealedNow
    let claim ← claimed
    let full := if sealed then claim.isNone else decide (callQueue ≤ x.calls.length + x.callsKept)
    writeX rd (if full then 1#64 else 0#64)
    if !full && s.run.isSome && !sealed then
      modify fun s => s.setCore core { s.core core with callsKept := (s.core core).callsKept + 1 }
      keepClaim (.call core)
    leave
    if !full then
      let pts ← acquireFor ord
      let c ← me
      let s ← get
      let call : SluiceCall := {
        block := blk, entry := BitVec.ofNat 64 (field bs 0 8), arg0 := BitVec.ofNat 64 (field bs 8 8),
        arg1 := BitVec.ofNat 64 (field bs 16 8), ph := ph, caller := BitVec.ofNat 64 (s.coreIdWord s.cur.1),
        unit := c.unitid, rel := ord.rel, scope := ord.scope, pts := pts, secure := s.secure s.cur.1, ne := false }
      modify fun s =>
        let x := s.core core
        (s.setCore core { x with calls := x.calls ++ [call], callsKept := x.callsKept - sealed.toNat }).due .sluiceCallStart core
    pins) s

/-- SLUICE_CALL_START (R306): a sluice core that is free starts the oldest call. -/
def execSluiceCallStart (s : State) : Out :=
  event (do
    let core := s.subject.place
    let x := s.core core
    match x.running, x.calls with
    | none, call :: rest =>
      modify fun s =>
        let s := s.setCore core { x with running := some call, calls := rest }
        let k := ctxKey core 0
        let c := s.ctxAt k
        let b := { c.blank with pc := call.entry, npc := call.entry, k := Vector.replicate 8 0#16, pts := max c.pts call.pts }
        s.setCtxAt k ((((b.setX 4 call.block).setX 5 call.arg0).setX 6 call.arg1).setX 7 call.caller)
    | _, _ => pure ()) s

/-- Whether a packet pushes to a target (R307) and has its checks behind it: SLPUSH's second operand. -/
def Packet.pushesTo (q : Packet) (t : Dword) : Bool :=
  match q.instr with
  | .slpush .. => q.executed && q.fault.isNone && (q.srcs[1]?.map (·.value)) == some t.toNat
  | _ => false

/-- A core's pushes to a target that are not yet published (R307). -/
def State.unpublished (s : State) (core : Nat) (t : Dword) : Nat :=
  ((s.pipe core).packets.filter fun q => q.pushesTo t).length + ((s.core core).outbound.filter fun o => o.packet.pushesTo t).length

/-- SLPUSH (R307): a slot of a ring of a core of the sluice core's die filled from global memory and published. Its source is translated
before the seal, as a load's. -/
def execSlpush (rd rs1 rs2 : XReg) (ord : MemOrder) (s : State) : Out :=
  finish (do
    let core ← myCore
    check (isSluice core) 0x01 (← me).ir
    let a ← readX rs1
    let t ← readX rs2
    let off := bits t.toNat 0 18
    let target := 256 * dieOf core + bits t.toNat 18 8
    let s ← get
    check (t.toNat < 2 ^ 26 && off % 16 == 0 && !s.coreDisabled target) 0x06 t
    canWriteX rd
    match s.ringShape target off with
    | none => trap 0x0B t
    | some r =>
      beforeSeal (if r.n ≤ s.fill target off + s.unpublished s.cur.1 t then throw .retry else pure ())
      let agent ← myAgent
      beforeSeal (do for p in ← sitesOf .global a a r.slot do let _ ← homeOf agent p.1 .read)
      leave
      if ord.acq || ord.rel then releaseMine ord.scope
      let pts := (← me).pts
      let parts ← (← sitesOf .global a a r.slot).mapM fun p => weakLoad agent p.1 .read p.2 pts
      raisePts (parts.foldl (fun t p => max t p.2.2) 0)
      let slot := spAddr target (r.base + s.pcnt target off % r.n * r.slot)
      let bad := parts.flatMap fun p => (List.range p.1.length).map fun i => bitAt p.2.1 i
      modify fun s =>
        let s := s.store slot (parts.flatMap Prod.fst)
        let s := bad.zipIdx.foldl (fun s b => if b.1 then s.mark (slot + b.2) else s) s
        s.advancePcnt target off 1
      writeX rd (BitVec.ofNat 64 (s.pcnt target off))) s

/-! ## Deposits (R36, R328) -/

/-- DEPO (R328): the value leaves for a register x56 to x59 of another context. One to another module is in no scope domain but that of
`.sys`; it leaves in a flit, and what it does there this state does not hold (assumption log, entry 9). -/
def execDepo (rs1 rs2 : XReg) (scope : Scope) (rel : Bool) (s : State) : Out :=
  finish (do
    let t ← readX rs1
    let v ← readX rs2
    let w := t.toNat
    let s ← get
    let target := 256 * bits w 14 6 + bits w 6 8
    let here := s.namesHere (bits w 20 8) (bitAt w 28)
    check (bits w 0 4 ≤ 10 && bits w 29 35 == 0 && (!bitAt w 28 || bits w 20 8 == 0xFF) &&
      (if here then !s.coreDisabled target && (!rel || inDomain s.cur.1 target scope) else !rel || scope == .sys)) 0x06 t
    leave
    if rel then releaseMine scope
    let pts := (← me).pts
    modify fun s =>
      let x := s.core target
      let job := ((s.launches.find s.me.launchid.toNat).map (·.job)).getD 0
      let d : Deposit :=
        { ctx := bits w 0 4, reg := Fin.ofNat 4 (bits w 4 2), value := v, pts := if rel then some pts else none, job := job }
      if here then (s.setCore target { x with mailbox := x.mailbox ++ [d] }).due .depositArrival target else s.sendAway (bits w 20 8)
    pins) s

/-- The GVA of a context's record in a save image (R359, R360). -/
def imageRecord (image : Dword) (core ctx : Nat) : Dword :=
  image + BitVec.ofNat 64 (0x10000 + coreId core * 0x80000 + 0x3000 + ctx * 0x2000)

/-- An access of the hardware's own that must not be lost: where its page is absent, or its home refuses it, it waits there (R357). -/
def insist {α : Type} (die : Nat) (gva : Dword) (m : Mach α) : Mach α :=
  tryCatch m fun e => do
    match e with
    | .notPresent a _ home fetch write => holdAbsent a home fetch write 0 die 15
    | .trap .. => throw (.hold (.home (((route (← get) gva).map Loc.place).getD die) gva))
    | e => throw e

/-- Whether a deposit is for a job's context: it comes from the job, or from outside every job (assumption log, entry 28). -/
def Deposit.isFor (d : Deposit) (job : Nat) : Bool := d.job == 0 || d.job == job

/-- The image of a die in which a context is saved, if it is saved in one (R357, R359). -/
def savedImage (core ctx : Nat) : List SavedJob → Mach (Option Dword)
  | [] => return none
  | j :: rest => do
    let found ← insist (dieOf core) j.image do
      let (bs, _) ← strongBytes (niAgent (dieOf core) true) (j.image + BitVec.ofNat 64 (0x800 + 8 * coreId core)) 8 0
      return bitAt (field bs 0 8) (1 + ctx)
    if found then return some j.image else savedImage core ctx rest

/-- Entries of the settling pan (R31). -/
def panSize : Nat := 16

/-- A deposit for a saved context of its job goes into its record in the image, where its register becomes live (R357); whether there is
one. -/
def depositInImage (core : Nat) (d : Deposit) : Mach Bool := do
  match ← savedImage core d.ctx (((← get).die (dieOf core)).saved.filter fun j => d.isFor j.job) with
  | none => return false
  | some image => insist (dieOf core) image do
    let a := niAgent (dieOf core) true
    let rec_ := imageRecord image core d.ctx
    let _ ← strongPut a (rec_ + BitVec.ofNat 64 (0x400 + 8 * (56 + d.reg.val))) (bytesOfNat 8 d.value.toNat) 0
    let (bs, _) ← strongBytes a (rec_ + 0x10#64) 8 0
    let _ ← strongPut a (rec_ + 0x10#64) (bytesOfNat 8 (field bs 0 8 ||| 2 ^ (56 + d.reg.val))) 0
    return true

/-- DEPOSIT_ARRIVAL (R36, R328, R357): the oldest deposit at a core's mailbox port takes a pan entry, behind what its context has in
flight, once one is free, at the end of a cycle; the core accepts one in a cycle. It is written, and is an event of R333, when the pan writes it. -/
def execDepositArrival (s : State) : Out :=
  let core := s.subject.place
  event (do
    match ((← get).core core).mailbox with
    | [] => pure ()
    | d :: rest =>
      match ← attemptHeld ⟨.depositArrival, s.subject⟩ (depositInImage core d) with
      | .held => pure ()
      | .refused | .done true => modify fun s => s.setCore core { s.core core with mailbox := rest }
      | .done false =>
        modify fun s =>
          let p := s.pipe core
          if p.upMade || panSize ≤ p.pan.length || (p.accepted && !p.packets.isEmpty) then s
          else
            let e : PanEntry :=
              { ctx := d.ctx, seq := (p.ctxOf d.ctx).nextSeq, reg := 56 + d.reg.val, value := some d.value.toNat, ready := false,
                external := true, pts := d.pts, word := none }
            let p : Pipe := { p with pan := p.pan ++ [e], accepted := true }
            ((s.setCore core { s.core core with mailbox := rest }).setPipe core p).due .panWrite core) s

end Sys2Proof.Machine
end

