-- ==== Sys2Proof/Machine/Fitting.lean ====
section
/-!
DEFINITION. The fitting engines (R124 to R137, R329): region descriptors, the surrogate and its training, AXR.BEGIN,
AXR.END, AXR.CFG, AXR.INVAL, AXR.STAT, and the engines' own steps.
-/
namespace Sys2Proof.Machine

/-! ## Region descriptors (R125, R127) -/

/-- The registers a mask names, ascending. -/
def maskRegs (m : Nat) : List Nat := (List.range 64).filter (bitAt m)

def fitInputs (d : List Byte) : List Nat := maskRegs (field d 0 8)
def fitOutputs (d : List Byte) : List Nat := maskRegs (field d 8 8)
def fitH1 (d : List Byte) : Nat := bits (field d 16 4) 0 6
def fitH2 (d : List Byte) : Nat := bits (field d 16 4) 8 6
/-- K, the sampling exponent. -/
def fitK (d : List Byte) : Nat := bits (field d 16 4) 16 4

/-- Whether a word is a finite FP32 number, above zero or, with `zero`, at least zero. -/
def finiteFp32 (zero : Bool) (w : Nat) : Bool :=
  match FFmt.fp32.value false w with
  | .fin neg m _ => (m != 0 && !neg) || (zero && m == 0)
  | _ => false

/-- Whether a descriptor keeps every condition of R125's table. -/
def fitOk (d : List Byte) : Bool :=
  let edge := 1 + 0xFF * 2 ^ 56
  let ni := (fitInputs d).length
  let no := (fitOutputs d).length
  let w := field d 16 4
  1 ≤ ni && ni ≤ 8 && 1 ≤ no && no ≤ 4 && field d 0 8 &&& edge == 0 && field d 8 8 &&& edge == 0 &&
    fitH1 d ≤ 32 && fitH2 d ≤ 32 && (fitH1 d != 0 || fitH2 d == 0) && bits w 6 2 == 0 && bits w 14 2 == 0 &&
    bits w 20 12 == 0 && finiteFp32 false (field d 24 4) && finiteFp32 true (field d 28 4) &&
    finiteFp32 false (field d 32 4) && bits (field d 36 4) 12 20 == 0 && field d 40 8 == 0

/-- n0 to nL (R127). -/
def fitWidths (d : List Byte) : List Nat :=
  [(fitInputs d).length] ++ [fitH1 d, fitH2 d].filter (· != 0) ++ [(fitOutputs d).length]

/-- P, the number of parameters of a surrogate's layers (R127). -/
def paramCount : List Nat → Nat
  | n :: m :: r => (n + 1) * m + paramCount (m :: r)
  | _ => 0

/-- Weight memory a slot takes (R127). -/
def fitBytes (d : List Byte) : Nat := (6 * paramCount (fitWidths d) + 255) / 256 * 256

/-- Weight memory of an engine, and its slots (R124). -/
def weightMemory : Nat := 2 ^ 17
def regionSlots : Nat := 16

/-! ## FP32 arithmetic, each result rounded once under RNE -/

def value32 (w : Nat) : FVal := FFmt.fp32.value false w
def value16 (w : Nat) : FVal := FFmt.fp16.value false w
def round32 (v : FVal) : Nat := (FFmt.fp32.round .rne false v).1
/-- The exact sum of terms, rounded once. -/
def sum32 (terms : List FVal) : Nat := round32 (sumExact .rne terms)
/-- Whether a number is above zero; a NaN is not. -/
def above0 (w : Nat) : Bool :=
  match value32 w with
  | .fin neg m _ => !neg && m != 0
  | .inf neg => !neg
  | .nan _ => false
def isFinite32 (w : Nat) : Bool :=
  match value32 w with
  | .fin .. => true
  | _ => false
/-- A master value's working copy. -/
def workingOf (w : Nat) : Nat := (FFmt.fp16.round .rne false (value32 w)).1

/-! ## Initialisation (R127) -/

/-- One step of the Galois LFSR. -/
def lfsrStep (w : Nat) : Nat := if w % 2 = 1 then w / 2 ^^^ 0x80200003 else w / 2

/-- round(1/√f, FP32, RNE). -/
def rsqrt32 (f : Nat) : Nat :=
  let r := isqrtFrom 40 (2 ^ 80 / f) 0
  round32 (.fin false (2 * r + (if r * r * f = 2 ^ 80 then 0 else 1)) (-41))

/-- The master value of a weight of a layer with fan-in `f`, from the LFSR's state after its step. -/
def initWeight (f state : Nat) : Nat :=
  round32 (mulExact ((FVal.ofInt (signedOfNat 10 state)).scale (-9)) (value32 (rsqrt32 f)))

/-- The weights and the bias of one neuron with `left` weights still to come. -/
def initNeuron (f : Nat) : Nat → Nat → List Nat × Nat
  | 0, w => ([0], w)
  | left + 1, w =>
    let w := lfsrStep w
    let (ps, w') := initNeuron f left w
    (initWeight f w :: ps, w')

/-- A layer of `m` neurons. -/
def initLayer (f : Nat) : Nat → Nat → List Nat × Nat
  | 0, w => ([], w)
  | m + 1, w =>
    let (p, w) := initNeuron f f w
    let (ps, w) := initLayer f m w
    (p ++ ps, w)

/-- Every parameter's master value: by layer, by neuron, its weights by input and then its bias. -/
def initParams : List Nat → Nat → List Nat
  | n :: m :: r, w =>
    let (p, w) := initLayer n m w
    p ++ initParams (m :: r) w
  | _, _ => []

/-! ## The surrogate (R132) -/

/-- One layer's z: n inputs, m neurons, its working parameters first in `p`. -/
def layerOut (n m : Nat) (p a : List Nat) : List Nat :=
  (List.range m).map fun j =>
    let w := (p.drop (j * (n + 1))).take (n + 1)
    sum32 (value16 (w.getD n 0) :: ((w.take n).zip a).map fun x => mulExact (value16 x.1) (value32 x.2))

/-- ReLU. -/
def relu (z : List Nat) : List Nat := z.map fun w => if above0 w then w else 0

/-- z of every layer, from its inputs. -/
def forwardZ : List Nat → List Nat → List Nat → List (List Nat)
  | n :: m :: r, p, a =>
    let z := layerOut n m p a
    z :: forwardZ (m :: r) (p.drop ((n + 1) * m)) (relu z)
  | _, _, _ => []

/-- The surrogate's outputs. -/
def surrogate (d : List Byte) (working : List Half) (inputs : List Word) : List Word :=
  let z := forwardZ (fitWidths d) (working.map (·.toNat)) (inputs.map (·.toNat))
  (z.getLastD []).map (BitVec.ofNat 32)

/-- round(2 (a - y) / (32 O), FP32, RNE). -/
def outDelta (o a y : Nat) : Nat :=
  match sumExact .rne [value32 a, (value32 y).negate] with
  | .fin neg m e =>
    if m = 0 then round32 (.fin neg 0 0)
    else
      let q := divMag (2 * m) e (32 * o) 0
      round32 (.fin neg q.1 q.2)
  | v => round32 v

/-- d of every layer, from its z and the true outputs. -/
def deltas : List Nat → List Nat → List (List Nat) → List Nat → List (List Nat)
  | n :: m :: r, p, z :: zs, y =>
    match r with
    | [] => [(List.range m).map fun o => outDelta m (z.getD o 0) (y.getD o 0)]
    | _ =>
      let q := p.drop ((n + 1) * m)
      let ds := deltas (m :: r) q zs y
      let next := ds.headD []
      let d := (List.range m).map fun i =>
        if above0 (z.getD i 0) then
          sum32 (next.zipIdx.map fun x => mulExact (value16 (q.getD (x.2 * (m + 1) + i) 0)) (value32 x.1))
        else 0
      d :: ds
  | _, _, _, _ => []

/-- What one sample gives a step: a of every layer but the last, and d of every layer. -/
def sampleGrad (widths p : List Nat) (x : Sample) : List (List Nat) × List (List Nat) :=
  let a0 := x.inputs.map (·.toNat)
  let zs := forwardZ widths p a0
  (a0 :: zs.map relu, deltas widths p zs (x.outputs.map (·.toNat)))

/-- One parameter's update, from the terms of its gradient. -/
def updateParam (lr master : Nat) (terms : List FVal) : Nat :=
  let step := round32 (mulExact (value32 lr) (value32 (sum32 terms)))
  sum32 [value32 master, (value32 step).negate]

/-- The new masters of layer `l` and those after it. -/
def updateLayers (lr : Nat) (grads : List (List (List Nat) × List (List Nat))) : Nat → List Nat → List Nat → List Nat
  | l, n :: m :: r, p =>
    let new := (List.range m).flatMap fun j => (List.range (n + 1)).map fun i =>
      updateParam lr (p.getD (j * (n + 1) + i) 0) (grads.map fun g =>
        let d := value32 ((g.2.getD l []).getD j 0)
        if i < n then mulExact d (value32 ((g.1.getD l []).getD i 0)) else d)
    new ++ updateLayers lr grads (l + 1) (m :: r) (p.drop ((n + 1) * m))
  | _, _, _ => []

/-- The masters after one step on a batch (R132). -/
def trainStep (d : List Byte) (master working : List Nat) (batch : List Sample) : List Nat :=
  updateLayers (field d 24 4) (batch.map (sampleGrad (fitWidths d) working)) 0 (fitWidths d) master

/-- The absolute value. -/
def absVal : FVal → FVal
  | .fin _ m e => .fin false m e
  | .inf _ => .inf false
  | .nan s => .nan s

/-- Whether e ≤ 1 for one output (R131). -/
def errorPasses (d : List Byte) (yhat y : Nat) : Bool :=
  match value32 yhat, value32 y with
  | .inf a, .inf b => a == b
  | .fin n m e, .fin k l f =>
    let diff := absVal (sumExact .rne [.fin n m e, (FVal.fin k l f).negate])
    compareVal diff (mulExact (value32 (field d 28 4)) (.fin false l f)) != .gt ||
      compareVal diff (value32 (field d 32 4)) != .gt
  | _, _ => false

/-- Whether every output of a comparison passes. -/
def outputsPass (d : List Byte) (yhat y : List Word) : Bool := (yhat.zip y).all fun p => errorPasses d p.1.toNat p.2.toNat

/-! ## Slots (R124, R126, R133) -/

/-- A fresh slot (R127, R133). -/
def FitSlot.fresh (launch id gen : Nat) (d : List Byte) : FitSlot :=
  let seed := field d 20 4
  let master := initParams (fitWidths d) (if seed = 0 then 1 else seed)
  { launch := launch, id := id, state := .observe, gen := gen, desc := d, master := master.map (BitVec.ofNat 32),
    working := master.map fun w => BitVec.ofNat 16 (workingOf w), passes := 0, fallbacks := 0, inv := 0, drops := 0,
    batches := 0, answers := 0, compared := 0, samples := [], batch := none, validated := false }

/-- The slots of a cluster's engine. -/
def State.fitOf (s : State) (cluster : Nat) : List (Nat × FitSlot) := s.fit.filter fun e => e.1 / 16 == cluster

/-- Samples of a batch (R131). -/
def batchSize : Nat := 32
/-- Entries of an engine's sample buffer (R130). -/
def sampleBuffer : Nat := 64

/-- Entries of an engine's buffer in use: the samples of all its slots, those of a batch until its step ends (R131). -/
def State.samplesHeld (s : State) (cluster : Nat) : Nat :=
  (s.fitOf cluster).foldl (fun n e => n + e.2.samples.length + (e.2.batch.getD []).length) 0

/-- The engine of a cluster, where it is free, takes a batch that has formed (R131). The manual does not say what becomes of one that still
waits when its slot leaves OBSERVE: it is not taken, and keeps its buffer entries (DESIGN CHOICE: assumption log, entry 44). -/
def State.startBatch (s : State) (cluster : Nat) : State :=
  let slots := s.fitOf cluster
  if slots.any fun e => e.2.batch.isSome then s
  else
    match slots.find? fun e => e.2.state == FitState.observe && batchSize ≤ e.2.samples.length with
    | none => s
    | some (key, x) =>
      let x := { x with batch := some (x.samples.take batchSize), samples := x.samples.drop batchSize, validated := false }
      { s with fit := s.fit.put key x }.due .batchValidationEnd key x.gen

/-- Allocation, or re-initialisation with another descriptor (R126, R133): AXR.CFG's code. Where several failures apply, an
invalid descriptor is answered before a missing slot, and that before a full weight memory (DESIGN CHOICE, assumption log,
entry 42). -/
def State.fitAllocate (s : State) (cluster launch id : Nat) (d : List Byte) : Nat × State :=
  if !fitOk d then (3, s)
  else
    let old := s.fitSlot cluster launch id
    if old.any fun e => e.2.desc == d then (0, s)
    else
      let others := (s.fitOf cluster).filter fun e => !(old.any fun o => o.1 == e.1)
      let key := match old with
        | some (k, _) => some k
        | none => ((List.range regionSlots).map (16 * cluster + ·)).find? fun k => (s.fit.find k).isNone
      match key with
      | none => (1, s)
      | some key =>
        if weightMemory < others.foldl (fun n e => n + fitBytes e.2.desc) (fitBytes d) then (2, s)
        else
          let (gen, s) := s.takeFree
          (0, ({ s with fit := s.fit.put key (FitSlot.fresh launch id gen d) }).startBatch cluster)

/-- Whether the page of an address is held under MIG. -/
def State.underMig (s : State) (gva : Dword) : Bool :=
  ((route s gva).bind (leafOf s)).any fun e => pteMig e.pte.toNat

/-- A descriptor from the region table of the launch (R126, R211); none where it cannot be read or the ID lies beyond it. The read waits
its turn, and on no page. -/
def regionDescriptor (id : Nat) : Mach (Option (List Byte)) := do
  let s ← get
  let c := s.me
  match s.launches.find c.launchid.toNat with
  | none => return none
  | some l =>
    if l.regtab = 0#64 then return none
    else
      let a : Agent := { s.coreAgent s.myKey with l1 := none, ccBit := 16 }
      let head := l.regtab
      let entry := l.regtab + BitVec.ofNat 64 (16 + 48 * id)
      attemptOrWait do
        if s.underMig head || s.underMig entry || s.underMig (entry + 47#64) then trap 0x06 head
        let (hd, _) ← strongBytes a l.regtab 4 c.pts
        check (id < field hd 0 4) 0x06 head
        let (bs, _) ← strongBytes a entry 48 c.pts
        return bs

/-! ## Values of registers (R125, R129, R131) -/

/-- Registers' values as FP32: bit i of `types` makes the i-th a signed integer. -/
def Ctx.fitValues (c : Ctx) (regs : List Nat) (types : Nat) : List Word :=
  regs.zipIdx.map fun r =>
    let v := c.getX (Fin.ofNat 64 r.1)
    if bitAt types r.2 then BitVec.ofNat 32 (round32 (FVal.ofInt v.toInt)) else v.truncate 32

/-- A surrogate's outputs as fill packets carry them (R129). -/
def fillsOf (d : List Byte) (yhat : List Word) : List (XReg × Dword) :=
  ((fitOutputs d).zip yhat).zipIdx.map fun p =>
    let w := p.1.2.toNat
    let v := if bitAt (field d 36 4) (8 + p.2) then (roundToInt .rne 64 (value32 w)).1 else w
    (Fin.ofNat 64 p.1.1, BitVec.ofNat 64 v)

/-! ## The instructions (R128 to R130, R136, R137, R329) -/

/-- Whether the variant has the fitting engines (R136, R392). -/
def State.fitPresent (s : State) : Bool := bitAt s.feature.toNat 0

/-- The body runs: the context's active region becomes this ID (R128), with its pending sample (R130). -/
def runTruly (id : Nat) (p : Option Pending) : Mach Unit := modifyMe fun c => { c with region := some id, pending := p }

/-- A query of a slot in OBSERVE or FITTED (R128, R130, R133): as soon as its input registers are complete. -/
def fitQuery (key : Nat) (x : FitSlot) (stop : BitVec 12) : Mach Unit := do
  let c ← me
  let awaited := ((← get).run.map PacketRun.awaited).getD []
  if (fitInputs x.desc).any fun r => awaited.contains (rotate c.wofs (Fin.ofNat 64 r)).val then throw .retry
  let inputs := c.fitValues (fitInputs x.desc) (bits (field x.desc 36 4) 0 8)
  let pending : Pending := { id := x.id, gen := x.gen, inputs := inputs, yhat := none }
  match x.state with
  | .pinned => runTruly x.id none
  | .observe => runTruly x.id (some pending)
  | .fitted =>
    if bitAt c.ctxcfg.toNat 1 then runTruly x.id none
    else
      let inv := x.inv + 1
      let yhat := surrogate x.desc x.working inputs
      let nan := yhat.any fun w => (value32 w.toNat).isNan
      if inv % 2 ^ fitK x.desc = 0 || nan then
        modify fun s => { s with fit := s.fit.put key { x with inv := inv } }
        runTruly x.id (some { pending with yhat := some yhat })
      else
        let (core, ctx) := (← get).cur
        let fills := fillsOf x.desc yhat
        modify fun s =>
          let s := { s with fit := s.fit.put key { x with inv := inv, answers := min 0xFFFF (x.answers + 1) } }
          fills.foldl (fun s _ => s.due .fillPacket core ctx) s
        modifyMe fun c => { c with fills := fills, npc := c.pc + BitVec.ofNat 64 (2 * stop.toNat + 4) }

/-- AXR.BEGIN (R126, R128, R130, R133, R136): `stop` is the halfword offset of the AXR.END. -/
def execAxrBegin (id : Fin 64) (stop : BitVec 12) (s : State) : Out :=
  finishArith (do
    let s ← get
    let c := s.me
    if s.fitPresent && c.region.isNone then
      let cluster := clusterOf s.cur.1
      let launch := c.launchid.toNat
      if (s.fitSlot cluster launch id.val).isNone then
        match ← regionDescriptor id.val with
        | none => pure ()
        | some d => modify fun s => (s.fitAllocate cluster launch id.val d).2
      match (← get).fitSlot cluster launch id.val with
      | none => runTruly id.val none
      | some (key, x) => fitQuery key x stop) s

/-- AXR.END (R130): the active region's outputs leave for the engine, where a pending sample of its slot waits for them. -/
def execAxrEnd (id : Fin 64) (s : State) : Out :=
  finishArith (do
    leave
    let s ← get
    let c := s.me
    if s.fitPresent && c.region == some id.val then
      let cluster := clusterOf s.cur.1
      let launch := c.launchid.toNat
      match c.pending, s.fitSlot cluster launch id.val with
      | some p, some (_, x) =>
        if p.gen = x.gen then
          let y := c.fitValues (fitOutputs x.desc) (bits (field x.desc 36 4) 8 4)
          let sent : Sent :=
            { core := s.cur.1, ctx := s.cur.2, id := id.val, launch := launch, gen := p.gen, inputs := p.inputs, outputs := y,
              yhat := p.yhat }
          modify fun s => { s with sent := s.sent ++ [sent] }.due .sampleArrival cluster
      | _, _ => pure ()
      modifyMe fun c => { c with region := none, pending := none }) s

/-- AXR.CFG (R126, R329): in a variant without the engine a NOP that writes 1 (R136). R126 and R329 do not say what a descriptor with
uncorrectable bytes does: it traps as a load of them (DESIGN CHOICE: assumption log, entry 44). -/
def execAxrCfg (rd : XReg) (id : Fin 64) (rs1 : XReg) (s : State) : Out :=
  finishArith (do
    if !(← get).fitPresent then writeX rd 1#64
    else
      let off ← readX rs1
      check (off.toNat % 16 == 0) 0x03 off
      check (off.toNat ≤ 0x3FFD0) 0x06 off
      canWriteX rd
      let d ← readAhead (do
        let (bs, bad) ← fetchBytes .sp off off 48
        check (!bad) 0x0E off
        return bs)
      leave
      let s ← get
      let (code, s) := s.fitAllocate (clusterOf s.cur.1) s.me.launchid.toNat id.val d
      set s
      writeX rd (BitVec.ofNat 64 code)) s

/-- AXR.INVAL (R133, R329): the slot and its weight memory are free. -/
def execAxrInval (id : Fin 64) (s : State) : Out :=
  finishArith (do
    leave
    let s ← get
    let cluster := clusterOf s.cur.1
    if s.fitPresent then
      match s.fitSlot cluster s.me.launchid.toNat id.val with
      | none => pure ()
      | some (key, _) => modify fun s => ({ s with fit := s.fit.erase key }).startBatch cluster) s

def FitState.code : FitState → Nat
  | .observe => 1
  | .fitted => 2
  | .pinned => 3

/-- The word of R137. -/
def FitSlot.word (x : FitSlot) : Nat :=
  x.state.code + x.fallbacks * 2 ^ 4 + x.passes * 2 ^ 7 + x.drops * 2 ^ 10 + x.batches * 2 ^ 16 + x.answers * 2 ^ 32 +
    x.compared * 2 ^ 48

/-- AXR.STAT (R137). -/
def execAxrStat (rd : XReg) (id : Fin 64) (s : State) : Out :=
  finishArith (do
    let s ← get
    let word :=
      if !s.fitPresent then 7
      else ((s.fitSlot (clusterOf s.cur.1) s.me.launchid.toNat id.val).map fun e => e.2.word).getD 0
    writeX rd (BitVec.ofNat 64 word)) s

/-! ## The engines' steps -/

/-- FILL_PACKET (R129): a context's next fill packet writes its register, where the BEGIN was not run in the pipe, which inserts fill packets of
its own at its foot. -/
def execFillPacket (s : State) : Out :=
  event (modify fun s =>
    let k := ctxKey s.subject.place s.subject.index
    let c := s.ctxAt k
    match c.fills with
    | [] => s
    | (r, v) :: rest => s.setCtxAt k ({ c with fills := rest }.setX r v)) s

/-- What an END's values do to the slot they were meant for (R130, R131, R133), `held` entries of the engine's buffer being in
use. A fallback empties the buffer of the samples of its own region that wait: R133 does not say whose samples leave the one buffer
(DESIGN CHOICE: assumption log, entry 44). -/
def FitSlot.take (x : FitSlot) (held : Nat) (v : Sent) : FitSlot :=
  match x.state with
  | .pinned => x
  | .observe =>
    if sampleBuffer ≤ held then { x with drops := min 63 (x.drops + 1) }
    else { x with samples := x.samples ++ [{ gen := v.gen, inputs := v.inputs, outputs := v.outputs }] }
  | .fitted =>
    match v.yhat with
    | none => x
    | some yhat =>
      let x := { x with compared := min 0xFFFF (x.compared + 1) }
      if outputsPass x.desc yhat v.outputs then x
      else if x.fallbacks < 3 then
        { x with state := .observe, fallbacks := x.fallbacks + 1, passes := 0, samples := [] }
      else { x with state := .pinned, fallbacks := 4 }

/-- SAMPLE_ARRIVAL (R130, R131, R133): the oldest values on their way to a cluster's engine arrive. Values of a slot that has
gone, or of an earlier generation of it, are discarded. -/
def execSampleArrival (s : State) : Out :=
  event (modify fun s =>
    let cluster := s.subject.place
    match s.sent.find? fun v => clusterOf v.core == cluster with
    | none => s.startBatch cluster
    | some v =>
      let s := { s with sent := s.sent.erase v }
      match s.fitSlot cluster v.launch v.id with
      | none => s
      | some (key, x) =>
        if x.gen = v.gen then ({ s with fit := s.fit.put key (x.take (s.samplesHeld cluster) v) }).startBatch cluster else s) s

/-- BATCH_VALIDATION_END (R131, R133): the verdict on a batch takes effect, and its step begins. -/
def execBatchValidationEnd (s : State) : Out :=
  event (modify fun s =>
    let key := s.subject.place
    match s.fit.find key with
    | none => s
    | some x =>
      match x.batch with
      | none => s
      | some batch =>
        if x.gen != s.subject.index || x.validated then s
        else
          let pass := batch.all fun v => outputsPass x.desc (surrogate x.desc x.working v.inputs) v.outputs
          let y :=
            if x.state != .observe then x
            else if !pass then { x with passes := 0 }
            else if x.passes = 3 then { x with state := .fitted, passes := 4, inv := 0 }
            else { x with passes := x.passes + 1 }
          { s with fit := s.fit.put key { y with validated := true } }.due .trainingStepEnd key x.gen) s

/-- TRAINING_STEP_END (R131, R132, R133): the new weights replace the old ones together, and the batch's buffer entries are
free. A master that is not finite pins the slot. The manual does not say what becomes of a batch in training whose slot is pinned: its
step is made and counted (DESIGN CHOICE: assumption log, entry 44). -/
def execTrainingStepEnd (s : State) : Out :=
  event (modify fun s =>
    let key := s.subject.place
    match s.fit.find key with
    | none => s
    | some x =>
      match x.batch with
      | none => s
      | some batch =>
        if x.gen != s.subject.index || !x.validated then s
        else
          let master := trainStep x.desc (x.master.map (·.toNat)) (x.working.map (·.toNat)) batch
          let bad := master.any fun w => !isFinite32 w
          let x := { x with
            master := master.map (BitVec.ofNat 32), working := master.map fun w => BitVec.ofNat 16 (workingOf w),
            state := if bad then .pinned else x.state, batches := min 0xFFFF (x.batches + 1), batch := none,
            validated := false }
          ({ s with fit := s.fit.put key x }).startBatch (key / 16)) s

end Sys2Proof.Machine
end

