-- ==== Sys2Proof/Machine/Matrix.lean ====
section
/-!
DEFINITION. The matrix siding (R279 to R290): tiles in ring slots and in the weight buffer, the sums of R51 to R55, and the
error log.
-/
namespace Sys2Proof.Machine

/-! ## Tiles (R279) -/

/-- Depth of a format: elements along k. -/
def tileDepth (f : MatFmt) : Nat :=
  match f with
  | .fp16 | .bf16 => 16
  | .f8a | .f8b | .int8 => 32
  | .dp8g16 | .dp8g32 | .dp8g64 => 64

/-- G of a DP8 format. -/
def tileGroup (f : MatFmt) : Nat :=
  match f with
  | .dp8g32 => 32
  | .dp8g64 => 64
  | _ => 16

/-- Bytes of a row of A or a column of B; `sparse` for a DP8S operand. -/
def tileRow (f : MatFmt) (sparse : Bool) : Nat :=
  if f.isDp8 then
    let g := tileGroup f
    if sparse then 64 / g * (1 + g / 2 + g / 8) else 64 + 64 / g
  else 32

/-- T: bytes of a tile. -/
def tileBytes (f : MatFmt) (sparse : Bool) : Nat := 16 * tileRow f sparse

/-- A tile's bytes and which of them are uncorrectable. -/
structure Tile where
  data : List Byte
  bad : List Bool
  deriving DecidableEq, Repr

/-- `n` bytes of flattened memory with their marks. -/
def State.tileAt (s : State) (a n : Nat) : Tile :=
  { data := s.bytes a n, bad := (List.range n).map fun i => s.marked (a + i) }

def Tile.byte (t : Tile) (i : Nat) : Nat := numAt t.data i 1
def Tile.half (t : Tile) (i : Nat) : Nat := numAt t.data i 2
def Tile.isBad (t : Tile) (i n : Nat) : Bool := ((t.bad.drop i).take n).any id

/-- What an element at depth k is: its value; an uncorrectable one, which contributes exact zero (R284); or one of a group
with bad metadata, which does too (R41). -/
inductive Elem where
  | val (v : FVal)
  | replaced
  | badGroup
  deriving DecidableEq, Repr

/-- A DP8 row or column's element (R279). A marked scale byte spoils every element of its block. -/
def dp8Elem (f : MatFmt) (t : Tile) (row k : Nat) : Elem :=
  let g := tileGroup f
  let block := row * tileRow f false + k / g * (1 + g)
  let at_ := block + 1 + k % g
  if t.isBad block 1 || t.isBad at_ 1 then .replaced else .val (dp8Scaled (t.byte block) (t.byte at_))

/-- A DP8S column's element (R41, R286). Where the metadata byte is itself marked uncorrectable, which R41 does not treat, the positions
are taken from it as it stands, those that it names are replaced under EC, and SP is not raised (DESIGN CHOICE: assumption log, entry
21). -/
def dp8sElem (f : MatFmt) (t : Tile) (col k : Nat) : Elem :=
  let g := tileGroup f
  let block := col * tileRow f true + k / g * (1 + g / 2 + g / 8)
  let grp := k % g / 4
  let meta_ := block + 1 + g / 2 + grp / 2
  let m := t.byte meta_ / 16 ^ (grp % 2) % 16
  let p0 := m % 4
  let p1 := m / 4
  let kept : Nat → Elem := fun n =>
    let at_ := block + 1 + 2 * grp + n
    if t.isBad block 1 || t.isBad meta_ 1 || t.isBad at_ 1 then .replaced
    else .val (dp8Scaled (t.byte block) (t.byte at_))
  if p1 ≤ p0 && !t.isBad meta_ 1 then .badGroup
  else if k % 4 = p0 then kept 0
  else if k % 4 = p1 then kept 1
  else .val (.fin false 0 0)

/-- Element k of row or column `r` of a tile; FZN flushes narrow operands (R51). -/
def tileElem (f : MatFmt) (sparse fzn : Bool) (t : Tile) (r k : Nat) : Elem :=
  let at2 := 32 * r + 2 * k
  let at1 := 32 * r + k
  let half (g : FFmt) : Elem := if t.isBad at2 2 then .replaced else .val (g.value fzn (t.half at2))
  let byte (g : FFmt) : Elem := if t.isBad at1 1 then .replaced else .val (g.value fzn (t.byte at1))
  match f with
  | .fp16 => half .fp16
  | .bf16 => half .bf16
  | .f8a => byte .f8a
  | .f8b => byte .f8b
  | .int8 => if t.isBad at1 1 then .replaced else .val (FVal.ofInt (signedOfNat 8 (t.byte at1)))
  | .dp8g16 | .dp8g32 | .dp8g64 => if sparse then dp8sElem f t r k else dp8Elem f t r k

/-- All elements of a tile, by row or column, then by k. -/
def tileElems (f : MatFmt) (sparse fzn : Bool) (t : Tile) : List (List Elem) :=
  (List.range 16).map fun r => (List.range (tileDepth f)).map (tileElem f sparse fzn t r)

/-! ## Sums (R51 to R55) -/

/-- Whether a mask enables a depth (R54). -/
def depthOn (f : MatFmt) (m k : Nat) : Bool := if f.isDp8 then bitAt m (32 + k / 2) else bitAt m (32 + k)
def rowOn (m i : Nat) : Bool := bitAt m i
def colOn (m j : Nat) : Bool := bitAt m (16 + j)

/-- The product of two elements, none where either contributes exact zero whatever the other is (R54). The manual does not give that exact
zero a sign: the model leaves the product out of the sum, so that an accumulator of -0 stays -0 beside it (R55; DESIGN CHOICE:
assumption log, entry 42). -/
def elemProduct (a b : Elem) : Option FVal :=
  match a, b with
  | .val x, .val y => some (mulExact x y)
  | _, _ => none

/-- The products of a row and a column at the enabled depths from `k` on. -/
def productsFrom (f : MatFmt) (m : Nat) : Nat → List Elem → List Elem → List FVal
  | k, a :: as, b :: bs =>
    let rest := productsFrom f m (k + 1) as bs
    if depthOn f m k then
      match elemProduct a b with
      | some p => p :: rest
      | none => rest
    else rest
  | _, _, _ => []

/-- One rounding of the accumulator and some products (R51, R55), to nearest even; FZ flushes the accumulator and the
result. -/
def accStep (fz : Bool) (acc : Nat) (ps : List FVal) : Nat × FFlags :=
  FFmt.fp32.round .rne fz (sumExact .rne (FFmt.fp32.value fz acc :: ps))

/-- The exact integer a finite product is, products of whole numbers only. -/
def intOf : FVal → Int
  | .fin n m e => let u := (m : Int) * ((2 ^ e.toNat : Nat) : Int); if n then -u else u
  | _ => 0

/-- The blocks of R52 entering the accumulator in increasing order, `n` of them, each of `g` depths. -/
def blockSteps (fz : Bool) (f : MatFmt) (m g : Nat) : Nat → Nat → List Elem → List Elem → Nat × FFlags → Nat × FFlags
  | 0, _, _, _, r => r
  | n + 1, k, a, b, r =>
    let ps := productsFrom f m k (a.take g) (b.take g)
    let x := accStep fz r.1 ps
    blockSteps fz f m g n (k + g) (a.drop g) (b.drop g) (x.1, x.2 ||| r.2)

/-- One output element (R51 to R53). -/
def mmaElement (f : MatFmt) (fz : Bool) (m : Nat) (acc : Word) (row col : List Elem) : Nat × FFlags :=
  match f with
  | .int8 =>
    let total := (productsFrom f m 0 row col).foldl (fun t p => t + intOf p) 0
    (((acc.toNat : Int) + total) % (2 ^ 32 : Nat) |>.toNat, 0#7)
  | .dp8g16 | .dp8g32 | .dp8g64 =>
    blockSteps fz f m (tileGroup f) (64 / tileGroup f) 0 row col (acc.toNat, 0#7)
  | _ => accStep fz acc.toNat (productsFrom f m 0 row col)

/-! ## Events (R290) -/

/-- One event of the error log. -/
structure MatEvent where
  opndB : Bool
  k : Nat
  idx : Nat
  /-- Bad metadata, and not an uncorrectable element. -/
  sp : Bool
  deriving DecidableEq, Repr

/-- The element of a tile at depth k and index r. -/
def elemOf (t : List (List Elem)) (r k : Nat) : Elem := (((t[r]?).getD [])[k]?).getD (.val (.fin false 0 0))

/-- The events an instruction meets, in the order of R290: A before B, then ascending k, then ascending index. -/
def metEvents (f : MatFmt) (m : Nat) (a b : List (List Elem)) : List MatEvent :=
  let idx := List.range 16
  let anyRow := idx.any (rowOn m)
  let anyCol := idx.any (colOn m)
  let ks := List.range (tileDepth f)
  let ofA := ks.flatMap fun k => (idx.filter fun i =>
      elemOf a i k == .replaced && rowOn m i && depthOn f m k && anyCol).map fun i =>
    ({ opndB := false, k := k, idx := i, sp := false } : MatEvent)
  let ofB := ks.flatMap fun k => (idx.filterMap fun j =>
    let on := colOn m j && anyRow
    if elemOf b j k == .replaced && on && depthOn f m k then
      some ({ opndB := true, k := k, idx := j, sp := false } : MatEvent)
    else if elemOf b j k == .badGroup && k % 4 = 0 && on && (depthOn f m k || depthOn f m (k + 2)) then
      some { opndB := true, k := k, idx := j, sp := true }
    else none)
  ofA ++ ofB

/-- Logs an instruction's events in MERRLOG and MERRCNT (R290). -/
def Ctx.logEvents (c : Ctx) (acc : AccReg) (es : List MatEvent) : Ctx :=
  match es with
  | [] => c
  | e :: _ =>
    let word := e.idx + e.k * 16 + e.opndB.toNat * 2 ^ 10 + e.sp.toNat * 2 ^ 11 + 2 ^ 12 + acc.val * 2 ^ 13
    let cnt := min (c.merrcnt.toNat + es.length) 0xFFFFFFFF
    { c with
      merrlog := if bitAt c.merrlog.toNat 12 then c.merrlog else BitVec.ofNat 64 word, merrcnt := BitVec.ofNat 64 cnt }

/-! ## Reading operands -/

/-- Ring misuse with a handle's number (R285). -/
def ringMisuse {α : Type} (h : Ring) : Mach α := trap 0x0B (handleVal h)

/-- An initialised handle, or cause 0x0B (R292). -/
def useHandle (h : Ring) : Mach Handle := do
  let x := (← me).handle h
  if !x.ready then ringMisuse h
  return x

/-- The rings a packet reads, with the bytes it needs of each slot, checked item by item as R285 lists: initialised, slots
large enough, and a filled slot at hand. -/
def checkRings (needs : List (Ring × Nat)) : Mach Unit := do
  for p in needs do
    let _ ← useHandle p.1
  for p in needs do
    if ((← me).handle p.1).slot < p.2 then ringMisuse p.1
  for p in needs do
    let s ← get
    let h := s.me.handle p.1
    if s.available s.cur.1 p.1 h = 0 ∨ h.n < s.fill s.cur.1 h.off then ringMisuse p.1

/-- The flattened address of a ring's consumer slot: after those that the context's older packets are to consume (R62). -/
def consumerSlot (r : Ring) : Mach Nat := do
  let s ← get
  let h := s.me.handle r
  return spAddr s.cur.1 (h.slotAt (s.ccnt s.cur.1 h.off) (s.pendingAdvances r))

/-- CCNT moved on by one slot, at the seal. -/
def advanceRing (r : Ring) : Mach Unit := do commitWrites [.consumed r ((← me).handle r).off 1]

/-- A register of 16 by 16 elements from a function of row and column. -/
def accFrom (f : Fin 16 → Fin 16 → Word) : AccVal :=
  let row := fun i => lanesOf (f i)
  #v[row 0, row 1, row 2, row 3, row 4, row 5, row 6, row 7, row 8, row 9, row 10, row 11, row 12, row 13, row 14, row 15]

/-- MMA and MMA.SP (R283 to R286). -/
def mmaOf (sparse : Bool) (fmt : MatFmt) (adv wb : Bool) (acc : AccReg) (ringA ringB : Ring) (mask : XReg) : Mach Unit := do
  if fmt.isDp8 then needFeature 3
  if sparse then needFeature 4
  let m := (← readX mask).toNat
  let ta := tileBytes fmt false
  let tb := tileBytes fmt sparse
  let same := !wb && ringA == ringB
  if wb then checkRings [(ringA, ta)]
  else if same then checkRings [(ringA, ta + tb)]
  else checkRings [(ringA, ta), (ringB, tb)]
  if wb then
    let s ← get
    if ((s.core s.cur.1).wfmt.find ringB.val) != some fmt then trap 0x0B (BitVec.ofNat 64 (16 + ringB.val))
  let a0 ← consumerSlot ringA
  let b0 ← if wb then do pure (wbBase (← get).cur.1 ringB.val)
    else if same then pure (a0 + ta)
    else consumerSlot ringB
  let s ← get
  let c := s.me
  let fz := bitAt c.fcsr.toNat 3
  let fzn := bitAt c.fcsr.toNat 4
  let a := tileElems fmt false fzn (s.tileAt a0 ta)
  let b := tileElems fmt sparse fzn (s.tileAt b0 tb)
  let old := c.getAcc acc
  let r : Fin 16 → Fin 16 → Nat × FFlags := fun i j =>
    if rowOn m i.val && colOn m j.val then
      mmaElement fmt fz m old[i][j] ((a[i.val]?).getD []) ((b[j.val]?).getD [])
    else (old[i][j].toNat, 0#7)
  let events := metEvents fmt m a b
  let flags := (List.finRange 16).foldl (fun f i => (List.finRange 16).foldl (fun f j => f ||| (r i j).2) f) 0#7
  let flags := flags ||| flagIf (events.any fun e => !e.sp) FFlags.ec ||| flagIf (events.any fun e => e.sp) FFlags.sp
  raiseFlags flags
  modifyMe fun c => (c.setAcc acc (accFrom fun i j => BitVec.ofNat 32 (r i j).1)).logEvents acc events
  if adv then
    advanceRing ringA
    if !wb && ringA != ringB then advanceRing ringB

/-- MMA (R283 to R285). -/
def execMma (fmt : MatFmt) (adv wb : Bool) (acc : AccReg) (ringA ringB : Ring) (mask : XReg) (s : State) : Out :=
  finishArith (mmaOf false fmt adv wb acc ringA ringB mask) s

/-- MMA.SP (R286). -/
def execMmaSp (fmt : MatFmt) (adv wb : Bool) (acc : AccReg) (ringA ringB : Ring) (mask : XReg) (s : State) : Out :=
  finishArith (mmaOf true fmt adv wb acc ringA ringB mask) s

/-- MWB (R287). -/
def execMwb (fmt : MatFmt) (adv : Bool) (ringA slot : Ring) (s : State) : Out :=
  finishArith (do
    if fmt.isDp8 then needFeature 3
    let t := tileBytes fmt false
    checkRings [(ringA, t)]
    let a ← consumerSlot ringA
    let s ← get
    let tile := s.tileAt a t
    commitWrites [.bytes (wbBase s.cur.1 slot.val) tile.data tile.bad, .format slot.val fmt]
    if adv then advanceRing ringA) s

/-- MZERO (R288). -/
def execMzero (acc : AccReg) (s : State) : Out := finishArith (modifyMe fun c => c.setAcc acc AccVal.zero) s

/-- MMOV (R288). -/
def execMmov (dst src : AccReg) (s : State) : Out := finishArith (modifyMe fun c => c.setAcc dst (c.getAcc src)) s

/-- MLDA (R288): an uncorrectable word traps with cause 0x0E and its scratchpad offset. -/
def execMlda (adv : Bool) (acc : AccReg) (ring : Ring) (s : State) : Out :=
  finishArith (do
    checkRings [(ring, 1024)]
    let a ← consumerSlot ring
    let s ← get
    match (List.range 256).find? fun w => (List.range 4).any fun i => s.marked (a + 4 * w + i) with
    | some w => trap 0x0E (BitVec.ofNat 64 (a + 4 * w - spBase s.cur.1))
    | none => pure ()
    modifyMe fun c => c.setAcc acc (accFrom fun i j => BitVec.ofNat 32 (s.num (a + 4 * (16 * i.val + j.val)) 4))
    if adv then advanceRing ring) s

/-- One element of an accumulator as MST writes it: its bytes and flags (R289). -/
def mstElement (fmt : MstFmt) (m : FpMode) (w : Word) : List Byte × FFlags :=
  match fmt with
  | .held => (bytesOfNat 4 w.toNat, 0#7)
  | .fp16 => let r := m.write .fp16 (m.read .fp32 w.toNat); (bytesOfNat 2 r.1, r.2)
  | .bf16 => let r := m.write .bf16 (m.read .fp32 w.toNat); (bytesOfNat 2 r.1, r.2)

/-- MST (R289). -/
def execMst (fmt : MstFmt) (adv : Bool) (acc : AccReg) (ring : Ring) (mask : XReg) (s : State) : Out :=
  finishArith (do
    let m := (← readX mask).toNat
    let h ← useHandle ring
    let e := if fmt = .held then 4 else 2
    if h.slot < 256 * e then ringMisuse ring
    let s ← get
    let core := s.cur.1
    if s.reserving core ring h ∨ s.roomOf core h = 0 then ringMisuse ring
    let mode ← if fmt = .held then flushMode else roundingMode
    let v := s.me.getAcc acc
    let at_ := spAddr core (h.slotAt (s.pcnt core h.off) (s.pendingSlots ring))
    let cells := (List.finRange 16).flatMap fun i => (List.finRange 16).filterMap fun j =>
      if rowOn m i.val && colOn m j.val then
        let r := mstElement fmt mode v[i][j]
        some (at_ + e * (16 * i.val + j.val), r.1, r.2)
      else none
    raiseFlags (cells.foldl (fun f c => f ||| c.2.2) 0#7)
    commitWrites (cells.map fun c => .bytes c.1 c.2.1 [])
    if adv then commitWrites [.published ring h.off 1, .reserved ring 1]
    pins) s

end Sys2Proof.Machine
end

