-- ==== Sys2Proof/Machine/Nets.lean ====
section
/-!
DEFINITION. Safety nets: NET.OPEN, NET.KEEP, NET.DROP, NET.STAT (R110 to R123, R319 to R321, R348, R349) and the steps they
start, and the steps of Brine at holders and homes (R103 to R108).
-/
namespace Sys2Proof.Machine

/-- Nets of a module, and levels of nets (R111). -/
def netHandles : Nat := 255
def netLevels : Nat := 4

/-- A computation for each element of a list. -/
def eachOf {α : Type} (f : α → Mach Unit) : List α → Mach Unit
  | [] => pure ()
  | a :: r => do
    f a
    eachOf f r

/-- The end of a net's range, as a key. -/
def Net.limit (n : Net) : Nat := n.baseKey + n.len

/-- Whether two ranges of keys overlap. -/
def rangesMeet (a n b m : Nat) : Bool := a < b + m && b < a + n

/-- The Brine grains of a range of keys, with their directories' entries. -/
def State.brineIn (s : State) (base len : Nat) : List (Nat × BrineEntry) :=
  s.brine.filter fun e => rangesMeet e.1 e.2.size base len

/-- A Brine grain as its home. -/
def brineHome (key : Nat) (e : BrineEntry) : Home :=
  { base := e.phys, key := key, size := e.size, pte := 0, site := siteOfKey key }

/-- Whether a context has a DROP that is not complete: its later NET.OPEN, NET.KEEP and NET.DROP do not leave its core (R348). -/
def State.awaitsDrop (s : State) (k : Nat) : Bool :=
  s.nets.any fun e => e.2.state == .dropping && e.2.dropOf == e.1 && e.2.issuer == k

/-- The running context waits in its pipe for the DROPs it has issued (R348). -/
def awaitDrops : Mach Unit := do
  let s ← get
  if s.awaitsDrop s.myKey then throw .retry

/-! ## NET.OPEN (R110 to R112, R122, R320, R349) -/

/-- NET.OPEN (R320): checked at the core, a release at `.mod`; the request leaves for the registry. -/
def execNetOpen (rd rs1 rs2 : XReg) (s : State) : Out :=
  finishArith (do
    needFeature 1
    let base ← readX rs1
    let len ← readX rs2
    check (base.toNat % 4096 == 0) 0x03 base
    check (len.toNat % 4096 == 0) 0x03 base
    check (4096 ≤ len.toNat && len.toNat ≤ 2 ^ 36) 0x06 base
    check ((← get).kindZero base && base.toNat % 2 ^ 54 + len.toNat ≤ 2 ^ 54) 0x06 base
    canWriteX rd
    leave
    awaitDrops
    releaseMine .mod
    pins
    let (core, ctx) := (← get).cur
    waitFor (.netOpen base len) (some rd)
    modify fun s => s.due .netOpenRecord core ctx) s

/-- The open nets whose ranges overlap a range. -/
def State.netsOver (s : State) (base len : Nat) : List (Nat × Net) :=
  s.nets.filter fun e => e.2.isOpen && rangesMeet e.2.baseKey e.2.len base len

/-- The youngest of some nets (R112). -/
def youngest (ns : List (Nat × Net)) : Option (Nat × Net) :=
  ns.foldl (fun acc e => match acc with
    | some g => if g.2.age < e.2.age then some e else acc
    | none => some e) none

/-- A net and its ancestors. -/
def State.lineage (s : State) : Nat → Nat → List Nat
  | 0, _ => []
  | fuel + 1, h =>
    match s.nets.find h with
    | none => []
    | some n => h :: s.lineage fuel n.parent

/-- The lowest free handle (R349). -/
def State.freeHandle (s : State) : Option Nat :=
  ((List.range netHandles).map (· + 1)).find? fun h => (s.nets.find h).isNone

/-- Harvests some Brine grains, each in its turn at its home; whether every harvest could be begun (R107). -/
def harvestAll : List (Nat × BrineEntry) → Mach Bool
  | [] => return true
  | (key, e) :: r => do
    if ← harvestOf (brineHome key e) then harvestAll r else return false

/-- The homes of some nets' ranges. -/
def homesOfNets (ns : List (Nat × Net)) : List Nat :=
  (List.range 64).filter fun d => ns.any fun e => e.2.baseKey / 2 ^ 48 ≤ d && d ≤ (e.2.limit - 1) / 2 ^ 48

/-- The youngest open ancestor of a net whose range holds a line (R118). -/
def State.heir (s : State) (line : Nat) : Nat → Nat → Option Nat
  | 0, _ => none
  | fuel + 1, h =>
    match s.nets.find h with
    | none => none
    | some n => if n.isOpen && n.holds line then some h else s.heir line fuel n.parent

/-- The shadows of a net after it has been kept (R118): each passes to its heir, or is released. -/
def State.passShadow (s : State) (h parent : Nat) (w : Shadow) : Shadow :=
  if w.net = h && !w.lazy then
    match s.heir w.line netLevels parent with
    | none => { w with lazy := true }
    | some a =>
      if s.shadows.any fun x => x.net == a && x.line == w.line && !x.lazy then { w with lazy := true }
      else { w with net := a }
  else w

/-- A net kept (R118), the index entries of the shadows it passes on written anew. -/
def State.keepNet (s : State) (h : Nat) : State :=
  let parent := ((s.nets.find h).map (·.parent)).getD 0
  let shadows := s.shadows.map (s.passShadow h parent)
  let passed := shadows.filter fun w => !s.shadows.contains w && !w.lazy
  passed.foldl State.writeIndex { s with nets := s.nets.erase h, shadows := shadows }

/-- An open withdrawn from every table and home (R111, R320): as if it were kept, its children a level higher. -/
def State.withdrawNet (s : State) (h : Nat) : State :=
  let parent := ((s.nets.find h).map (·.parent)).getD 0
  let below := s.nets.map fun e =>
    if e.1 != h && (s.lineage netLevels e.1).contains h then
      (e.1, { e.2 with depth := e.2.depth - 1, parent := if e.2.parent = h then parent else e.2.parent })
    else e
  { s with nets := below }.keepNet h

/-- The instructions that wait in their core for a DROP of their context (R348). -/
def isNetOp : Instr → Bool
  | .netOpen .. | .netKeep .. | .netDrop .. => true
  | _ => false

/-- Whether the registry has entered a context's open, which a home has still to record. -/
def State.openEntered (s : State) (k : Nat) : Bool :=
  s.nets.any fun e => e.2.issuer == k && !(homesOfNets [e]).all e.2.recorded.contains

/-- Contexts that wait for a net over their range to go ask the registry again; drops that wait for another's end, and accesses that
were held, are tried again. -/
def State.netGone (s : State) : State :=
  let s := s.ctxs.foldl (fun s e => match e.2.status with
    | .waiting (.netOpen _ _) _ => if s.openEntered e.1 then s else s.due .netOpenRecord (e.1 / 16) (e.1 % 16)
    | _ => s) s
  let s := s.nets.foldl (fun s e =>
    if e.2.state == .dropping && e.2.dropOf == e.1 && e.2.homes.isEmpty then s.due .netDropComplete e.1 else s) s
  let s := s.cores.foldl (fun s e => e.2.outbound.foldl (fun s o =>
    if isNetOp o.packet.instr then s.due .release e.1 o.packet.ctx else s) s) s
  let s := s.dies.foldl (fun s e => if e.2.holds.isEmpty then s else s.due .migRewalk e.1) s
  let s := s.bridges.foldl (fun s e => if e.2.holds.isEmpty then s else s.due .migRewalk (64 + e.1)) s
  s.dies.foldl (fun s e =>
    let s := if e.2.command.isSome then s.due .quiesce e.1 else s
    if bitAt (s.dieReg e.1 0x1DB).toNat 6 then s.due .migrationComplete e.1 else s) s

/-- The registry's decision of a context's open (R111, R112, R349): its reason for a refusal, or the handle and the net. What
asks the open nets over the range to form one chain is that each is the youngest of them or an ancestor of it, also where
another ancestor between two of them does not overlap the range (DESIGN CHOICE: assumption log, entry 42). -/
def State.decideOpen (s : State) (k : Nat) (base : Dword) (n : Nat) : Except Nat (Nat × Net) :=
  let above := s.netsOver (base.toNat % 2 ^ 54) n
  let parent := youngest above
  let depth := ((parent.map fun p => p.2.depth).getD 0) + 1
  let line := match parent with
    | none => []
    | some p => s.lineage netLevels p.1
  match s.freeHandle with
  | none => .error 1
  | some h =>
    if netLevels < depth then .error 2
    else if above.any fun e => !line.contains e.1 then .error 3
    else
      let age := s.nets.foldl (fun m e => max m e.2.age) 0 + 1
      .ok (h, { state := .opened, base := base, len := n, parent := (parent.map Prod.fst).getD 0, depth := depth, brokenAt := [],
                age := age, claimed := none, recorded := [], dropOf := 0, homes := [], phaser := none, unit := 0#64, issuer := k, pts := 0 })

/-- The registry takes a context's open: it refuses it, or enters the net and sends it to every home of its range. While a net over
the range is being dropped, the open waits (R112). An open that it has entered it does not take again. -/
def openAtRegistry (k : Nat) (base len : Dword) : Mach Unit := do
  let s ← get
  if s.openEntered k || s.nets.any fun e => !e.2.isOpen && rangesMeet e.2.baseKey e.2.len (base.toNat % 2 ^ 54) len.toNat then pure ()
  else match s.decideOpen k base len.toNat with
    | .error why => modify fun s => s.answer k (.netOpen base len) (BitVec.ofNat 64 (why * 256)) 0#64 false
    | .ok (h, net) =>
      modify fun s => (homesOfNets [(h, net)]).foldl (fun s d =>
        s.dueAt .netOpenRecord { place := d, index := h, addr := base, value := BitVec.ofNat 64 k, flag := true })
        { s with nets := s.nets.put h net }

/-- A home takes an open: it harvests the range's grains and records the net, and the last home to do so has the issuer answered. Where
a harvest is refused the open is withdrawn. The homes of a range do this in steps of their own, so that their snapshots are not
taken at one instant (R122). -/
def openAtHome (d h k : Nat) (base : Dword) : Mach Unit := do
  match (← get).nets.find h with
  | none => pure ()
  | some net =>
    let wait := Wait.netOpen base (BitVec.ofNat 64 net.len)
    if net.issuer != k || net.base != base || net.recorded.contains d then pure ()
    else if ← harvestAll ((← get).brineIn net.baseKey net.len |>.filter fun e => e.1 / 2 ^ 48 == d) then
      modify fun s =>
        let net := (s.nets.find h).getD net
        let net := { net with recorded := d :: net.recorded }
        let s := { s with nets := s.nets.put h net }
        if (homesOfNets [(h, net)]).all net.recorded.contains then s.answer k wait (BitVec.ofNat 64 h) 0#64 false else s
    else modify fun s => ((s.withdrawNet h).answer k wait (BitVec.ofNat 64 (4 * 256)) 0#64 false).netGone

/-- NET_OPEN_RECORD (R111, R112, R121, R122): the registry decides the open of the context that place and index name; with the flag,
the home in the place takes the open of the handle in the index, whose range begins at the address, for the context whose key is
the value. -/
def execNetOpenRecord (s : State) : Out :=
  let j := s.subject
  eventHeld .netOpenRecord (do
    if j.flag then openAtHome j.place j.index j.value.toNat j.addr
    else
      let k := ctxKey j.place j.index
      match ((← get).ctxAt k).status with
      | .waiting (.netOpen base len) _ => openAtRegistry k base len
      | _ => pure ()) s

/-! ## NET.KEEP, NET.STAT (R117, R118, R121) -/

/-- Whether a net has an open child. -/
def State.hasChild (s : State) (h : Nat) : Bool := s.nets.any fun e => e.2.parent == h && e.2.isOpen

/-- Whether it has one as the registry answers a context: a child that an older packet of the context has claimed counts as closed
(R348). -/
def State.childFor (s : State) (h k : Nat) : Bool := s.nets.any fun e => e.2.parent == h && e.2.isOpen && e.2.claimed != some k

/-- A handle's number. -/
def netNumber (h : Dword) : Nat := h.toNat % 256

/-- The registry's code for a KEEP or a DROP of a handle, which it gives before the seal (R321): a net that another has claimed answers
1, as one that is not open does. -/
def registryCode (h : Nat) (keep : Bool) : Mach Nat := do
  if ← sealedNow then return if (← claimed).isSome then 0 else 1
  else
    let s ← get
    return match s.nets.find h with
      | none => 1
      | some n => if !n.isOpen || n.claimed.isSome then 1 else if keep && s.childFor h s.myKey then 2 else 0

/-- A KEEP or a DROP that has still to be sealed claims its net (R321). -/
def claimNet (h : Nat) : Mach Unit := do
  if (← get).run.isSome && !(← sealedNow) then
    modify fun s => match s.nets.find h with
      | none => s
      | some n => { s with nets := s.nets.put h { n with claimed := some s.myKey } }
    keepClaim (.net h)

/-- A KEEP performed. A net that an ancestor's DROP has closed since it was claimed is left to that; the children it has had since
then come a level higher (DESIGN CHOICE: assumption log, entry 42). -/
def State.performKeep (s : State) (h : Nat) : State :=
  match s.nets.find h with
  | none => s
  | some n => if !n.isOpen then s else if s.hasChild h then (s.withdrawNet h).netGone else (s.keepNet h).netGone

/-- NET.KEEP (R117, R118): 0 where it is accepted, 1 where the handle names no net, 2 where the net has an open child. -/
def execNetKeep (rd rs1 : XReg) (s : State) : Out :=
  finishArith (do
    needFeature 1
    let h := netNumber (← readX rs1)
    canWriteX rd
    let code ← registryCode h true
    writeX rd (BitVec.ofNat 64 code)
    if code = 0 then claimNet h
    leave
    if code = 0 then
      awaitDrops
      releaseMine .mod
      modify fun s => s.performKeep h
    pins) s

/-- A net's state code (R121). -/
def NetState.code : NetState → Nat
  | .opened => 1
  | .broken => 2
  | .dropping => 3

/-- NET.STAT (R121). -/
def execNetStat (rd rs1 : XReg) (s : State) : Out :=
  finishArith (do
    needFeature 1
    let h := netNumber (← readX rs1)
    canWriteX rd
    let s ← get
    let word := match s.nets.find h with
      | none => 0
      | some n =>
        n.state.code + n.depth * 8 + n.parent * 64 + (s.shadows.filter fun w => w.net == h && !w.lazy).length * 2 ^ 32
    writeX rd (BitVec.ofNat 64 word)
    pins) s

/-! ## NET.DROP (R119, R120) -/

/-- A net and its descendants. -/
def State.family (s : State) (h : Nat) : List (Nat × Net) :=
  s.nets.filter fun e => (s.lineage netLevels e.1).contains h

/-- The nets that a DROP closes. -/
def State.dropped (s : State) (h : Nat) : List (Nat × Net) :=
  s.nets.filter fun e => e.2.state == .dropping && e.2.dropOf == h

/-- A net and its open descendants closed by its DROP (R119, R121), which arrives at every home of their ranges. -/
def State.dropNet (s : State) (h : Nat) (phaser : Option Dword) (c : Ctx) : State :=
  let kin := (s.family h).filter fun e => e.2.isOpen
  let homes := homesOfNets kin
  let close := fun (s : State) (e : Nat × Net) =>
    let n := { e.2 with state := .dropping, dropOf := h }
    let n := if e.1 = h then { n with homes := homes, phaser := phaser, unit := c.unitid, issuer := s.myKey, pts := c.pts } else n
    { s with nets := s.nets.put e.1 n }
  homes.foldl (fun s d => s.due .netDropHomeArrival d h) (kin.foldl close s)

/-- A DROP performed; of a net that an ancestor's DROP has closed since it was claimed nothing is left to do but its phaser's
arrival, which counts at once, without EC and before that other DROP is complete (DESIGN CHOICE beside R120: assumption log, entry
42). -/
def State.performDrop (s : State) (h : Nat) (phaser : Option Dword) (c : Ctx) : State :=
  if (s.nets.find h).any Net.isOpen then s.dropNet h phaser c
  else match phaser with
    | none => s
    | some ph => s.phComplete (s.refOf ph) 0 true (BitVec.ofNat 64 (6 * 2 ^ 12) ||| c.unitid <<< 32) c.pts

/-- NET.DROP (R117, R119, R120): 0 where it is accepted, 1 where the handle names no net. The net and its descendants close,
and the drop arrives at every home of their ranges. -/
def execNetDrop (rd rs1 rs2 : XReg) (s : State) : Out :=
  finishArith (do
    needFeature 1
    let h := netNumber (← readX rs1)
    let ph ← readX rs2
    if rs2 != 0 then
      let _ ← checkHandle ph
    canWriteX rd
    let code ← registryCode h false
    writeX rd (BitVec.ofNat 64 code)
    if code = 0 then claimNet h
    leave
    if code = 0 then
      awaitDrops
      releaseMine .mod
      let c ← me
      modify fun s => s.performDrop h (if rs2 = 0 then none else some ph) c
    pins) s

/-- NET_DROP_HOME_ARRIVAL (R119, R104, R107): a drop reaches one home of its range. The partials of the range's Brine grains are
recalled and dropped; a harvest or a discard that has begun runs to its end first. The home then reports. -/
def execNetDropHomeArrival (s : State) : Out :=
  event (modify fun s =>
    let d := s.subject.place
    let h := s.subject.index
    match s.nets.find h with
    | none => s
    | some n =>
      if !n.homes.contains d then s
      else
        let grains := ((s.dropped h).flatMap fun e => s.brineIn e.2.baseKey e.2.len).filter fun g => g.1 / 2 ^ 48 == d
        if grains.isEmpty then
          let homes := n.homes.filter (· != d)
          let s := { s with nets := s.nets.put h { n with homes := homes } }
          if homes.isEmpty then s.due .netDropComplete h else s
        else
          grains.foldl (fun s g =>
            let subject := { Subject.nothing with place := d, index := h, addr := BitVec.ofNat 64 g.1 }
            match g.2.state with
            | .brine => { s with brine := s.brine.put g.1 { g.2 with state := .discarding } }.dueAt .brineDiscardComplete subject
            | .harvesting => if g.2.holders.isEmpty then s.dueAt .harvestMerge subject else s
            | .discarding => s) s) s

/-- BRINE_DISCARD_COMPLETE (R104): the last partial of a discarded grain is back; the partials are dropped unmerged, the entry
is free, and the home goes on with its drops. -/
def execBrineDiscardComplete (s : State) : Out :=
  event (modify fun s =>
    let key := s.subject.addr.toNat
    match s.brine.find key with
    | none => s
    | some e =>
      if e.state != BrineState.discarding then s
      else
        (e.holders.foldl (fun (s : State) p => s.leaveHolder key p.1) { s with brine := s.brine.erase key }).dropsAgain s.subject.place) s

/-- A line's 32-byte sectors at their home. A page that is absent there holds the restore until it is back. -/
def lineHomes (line : Nat) : Mach (List (Nat × Home)) :=
  (List.range 4).mapM fun i => do
    let t := siteOfKey (line + 32 * i)
    let h ← tryCatch (homeOf (niAgent t.loc.home true) t .restore) fun e => match e with
      | .hold w => throw (.hold w)
      | _ => holdAt t
    return (32 * i, h)

/-- A restored line: its address, its shadow's bytes with their bad bits, and its sectors at the home. -/
structure Restore where
  line : Nat
  data : List Byte
  bad : Nat
  sectors : List (Nat × Home)

/-- The marks of the grains that a DROP restores whole are gone (R106, R119). -/
def State.unmarkRestored (s : State) (lines : List Restore) : State :=
  lines.foldl (fun s r => r.sectors.foldl (fun s p =>
    let h := p.2
    if (List.range (h.size / 128)).all fun i => lines.any fun q => q.line == h.key + 128 * i then s.unmark (grainMark h.base) 1
    else s) s) s

/-- A line's restored value stored at its home, with its grains' times and the marks of bad bytes (R119, R106).
Where four grains share a line, the grain that a bad byte of the shadow marks is the one that byte lies in (DESIGN CHOICE: assumption
log, entry 42). -/
def State.restoreLine (s : State) (r : Restore) (time : Nat) : State :=
  r.sectors.foldl (fun s p =>
    let (off, h) := p
    let bad := if h.size = 32 then bits r.bad off 32 else r.bad
    let s := s.store (h.base + (r.line + off - h.key)) ((r.data.drop off).take 32)
    let s := if 0 < bad then s.mark (grainMark h.base) else s
    s.setHomeTimes h time time) s

/-- Whether a DROP of a descendant is under way: an ancestor's is complete after it (assumption log, entry 42). -/
def State.dropBelow (s : State) (h : Nat) : Bool :=
  s.nets.any fun e => e.2.state == .dropping && e.2.dropOf == e.1 && e.1 != h && (s.lineage netLevels e.1).contains h

/-- The restores of a DROP: the oldest shadow of each line (R119), read from its slot. -/
def restoresOf (h : Nat) : Mach (List Restore) := do
  let s ← get
  let kin := s.dropped h
  let mine := s.shadows.filter fun w => !w.lazy && kin.any fun e => e.1 == w.net
  let depthOf := fun (w : Shadow) => ((s.nets.find w.net).map (·.depth)).getD 0
  let oldest := mine.filter fun w => !(mine.any fun v => v.line == w.line && depthOf v < depthOf w)
  oldest.mapM fun w => do
    let (data, bad) := s.shadowData w
    return { line := w.line, data := data, bad := bad, sectors := ← lineHomes w.line }

/-- The end of a DROP: its nets and shadows are gone, its phaser is signalled, and what it held goes on. -/
def State.endDrop (s : State) (h : Nat) (n : Net) (time : Nat) (bad : Bool) : State :=
  let kin := s.dropped h
  let s := { s with
    shadows := s.shadows.filter fun w => w.lazy || !(kin.any fun e => e.1 == w.net)
    nets := s.nets.filter fun e => !(kin.any fun x => x.1 == e.1) }
  let s := match n.phaser with
    | none => s
    | some ph =>
      let word := BitVec.ofNat 64 (6 * 2 ^ 12 + if bad then 0x102 else 0) ||| n.unit <<< 32
      s.phComplete (s.refOf ph) 0 true word (max n.pts time)
  s.netGone

/-- NET_DROP_COMPLETE (R119, R120, R121): every home has reported. The oldest shadow of each line is restored, all at one time,
the slots and handles are free, the phaser is signalled, and what the drop held goes on. A restore whose time would pass the horizon
waits for the rebase (R87). -/
def execNetDropComplete (s : State) : Out :=
  eventHeld .netDropComplete (do
    let h := s.subject.place
    match (← get).nets.find h with
    | none => pure ()
    | some n =>
      if n.state == .dropping && n.dropOf == h && n.homes.isEmpty && !(← get).dropBelow h then
        let lines ← restoresOf h
        let s ← get
        let time := lines.foldl (fun t l => l.sectors.foldl (fun t p => max t ((s.homeTimes p.2).2 + 1)) t) 0
        eachOf (fun (l : Restore) =>
          let t := siteOfKey l.line
          timesCheck t.loc.place t.gva time none) lines
        modify fun s => (lines.foldl (fun s l => s.restoreLine l time) (s.unmarkRestored lines)).endDrop h n time (lines.any fun l => 0 < l.bad)) s

/-- LAZY_RELEASE_RECLAIM (R116, R118): a die's lazily released slots are reclaimed. -/
def execLazyReleaseReclaim (s : State) : Out := event (modify fun s => s.reclaim s.subject.place) s

/-! ## Brine at holders and homes (R103 to R106). The subject's address is a GVA; its place is a core, or a holder's. -/

/-- BRINE_GRANT_REQUEST (R104): a core's holder asks the home for a grain under a tag, whose code is the index; the grant
allocates the identity partial, where the directory has room. -/
def execBrineGrantRequest (s : State) : Out :=
  let j := s.subject
  eventHeld .brineGrantRequest (asContext (ctxKey j.place 0) do
    match BrineTag.ofCode j.index, globalSite s j.addr j.addr with
    | some tag, some t =>
      needFeature 2
      let (h, _) ← requestGrant t tag
      takeGrant h (holderIndex j.place t.loc) tag
    | _, _ => pure ()) s

/-- A holder's partial of a grain sent back to its home (R104): the holder's frame is left, and the next holder is recalled, or the merge is due. -/
def State.recallHolder (s : State) (key idx : Nat) (e : BrineEntry) (p : Partial) : State :=
  let state := if e.state == BrineState.brine then BrineState.harvesting else e.state
  let e := { e with state := state, holders := e.holders.erase idx, returned := e.returned.put idx p }
  let s := { s with brine := s.brine.put key e }.leaveHolder key idx
  match e.holders with
  | [] => s.dueAt .harvestMerge { Subject.nothing with addr := BitVec.ofNat 64 key }
  | (i, _) :: _ => s.dueAt .holderRecall { Subject.nothing with addr := BitVec.ofNat 64 key, index := i }

/-- HOLDER_RECALL (R104): a home recalls one holder's partial of a grain, for a harvest whose shadows it makes first; an
eviction at a holder is such a recall too, and where the harvest cannot be begun the holder keeps its frame (R107). A drop over the
grain holds it. The address is the grain's key and the index the holder's. -/
def execHolderRecall (s : State) : Out :=
  let key := s.subject.addr.toNat
  let idx := s.subject.index
  eventHeld .holderRecall (do
    match (← get).brine.find key with
    | none => pure ()
    | some e =>
      if e.state == BrineState.brine then
        if (← get).dropHolds key e.size true then holdAt (siteOfKey key)
        let _ ← contend (harvestAgent (siteOfKey key).loc.home) (brineHome key e)
      let ready ← if e.state == BrineState.brine then probeLines (brineHome key e) 0 e.size else pure true
      if ready then
        match e.holders.find idx with
        | none => pure ()
        | some p => modify fun s => s.recallHolder key idx e p
      else modify fun s => s.keepFrame (holderPlace (key / 2 ^ 48) idx) key) s

/-- HARVEST_MERGE (R105, R106): the last partial is back; the merge is written, in its turn at the home, and the grain is ordinary
again. -/
def execHarvestMerge (s : State) : Out :=
  let key := s.subject.addr.toNat
  eventHeld .harvestMerge (do
    match (← get).brine.find key with
    | none => pure ()
    | some e =>
      if e.state == BrineState.harvesting && e.holders.isEmpty then
        let h := brineHome key e
        let adm ← contend (harvestAgent h.site.loc.home) h
        mergeBrine h e
        modify fun s => if h.site.loc.bridge then s else s.reachLine h adm) s

end Sys2Proof.Machine
end

