-- ==== Sys2Proof/Machine/Scalar.lean ====
section
/-!
DEFINITION. The scalar computations (R222 to R230): majors OP, OPI, LUI, ADDPC and MULDIV.
-/
namespace Sys2Proof.Machine

/-- An instruction of two sources: both are read, lower field first, and the result is written (R220). -/
def binary (f : Dword → Dword → Dword) (rd rs1 rs2 : XReg) (s : State) : Out :=
  finish (do
    let a ← readX rs1
    let b ← readX rs2
    writeX rd (f a b)) s

/-- An instruction of one source and constants of its own. -/
def unary (f : Dword → Dword) (rd rs1 : XReg) (s : State) : Out :=
  finish (do
    let a ← readX rs1
    writeX rd (f a)) s

/-- 1 where a condition holds, else 0. -/
def boolVal (b : Bool) : Dword := if b then 1#64 else 0#64

/-- The number of zero bits of a above its highest one bit (R223). -/
def countLeading (a : Dword) : Nat := if a.toNat = 0 then 64 else 63 - a.toNat.log2
/-- The number of zero bits of a below its lowest one bit (R223): `fuel` bits are looked at. -/
def countTrailing : Nat → Nat → Nat
  | 0, _ => 0
  | fuel + 1, w => if w % 2 = 1 then 0 else 1 + countTrailing fuel (w / 2)
/-- The number of one bits among the lowest `fuel` (R223). -/
def countOnes : Nat → Nat → Nat
  | 0, _ => 0
  | fuel + 1, w => w % 2 + countOnes fuel (w / 2)

/-- ADD (R223). -/
def execAdd (rd rs1 rs2 : XReg) (s : State) : Out :=
  binary (fun a b => a + b) rd rs1 rs2 s

/-- SUB (R223). -/
def execSub (rd rs1 rs2 : XReg) (s : State) : Out :=
  binary (fun a b => a - b) rd rs1 rs2 s

/-- AND (R223). -/
def execAnd (rd rs1 rs2 : XReg) (s : State) : Out :=
  binary (fun a b => a &&& b) rd rs1 rs2 s

/-- OR (R223). -/
def execOr (rd rs1 rs2 : XReg) (s : State) : Out :=
  binary (fun a b => a ||| b) rd rs1 rs2 s

/-- XOR (R223). -/
def execXor (rd rs1 rs2 : XReg) (s : State) : Out :=
  binary (fun a b => a ^^^ b) rd rs1 rs2 s

/-- ANDN (R223). -/
def execAndn (rd rs1 rs2 : XReg) (s : State) : Out :=
  binary (fun a b => a &&& ~~~b) rd rs1 rs2 s

/-- SLL (R223). -/
def execSll (rd rs1 rs2 : XReg) (s : State) : Out :=
  binary (fun a b => a <<< (b.toNat % 64)) rd rs1 rs2 s

/-- SRL (R223). -/
def execSrl (rd rs1 rs2 : XReg) (s : State) : Out :=
  binary (fun a b => a >>> (b.toNat % 64)) rd rs1 rs2 s

/-- SRA (R223). -/
def execSra (rd rs1 rs2 : XReg) (s : State) : Out :=
  binary (fun a b => a.sshiftRight (b.toNat % 64)) rd rs1 rs2 s

/-- SLT (R223). -/
def execSlt (rd rs1 rs2 : XReg) (s : State) : Out :=
  binary (fun a b => boolVal (a.slt b)) rd rs1 rs2 s

/-- SLTU (R223). -/
def execSltu (rd rs1 rs2 : XReg) (s : State) : Out :=
  binary (fun a b => boolVal (a.ult b)) rd rs1 rs2 s

/-- MIN (R223). -/
def execMin (rd rs1 rs2 : XReg) (s : State) : Out :=
  binary (fun a b => if a.slt b then a else b) rd rs1 rs2 s

/-- MAX (R223). -/
def execMax (rd rs1 rs2 : XReg) (s : State) : Out :=
  binary (fun a b => if a.slt b then b else a) rd rs1 rs2 s

/-- MINU (R223). -/
def execMinu (rd rs1 rs2 : XReg) (s : State) : Out :=
  binary (fun a b => if a.ult b then a else b) rd rs1 rs2 s

/-- MAXU (R223). -/
def execMaxu (rd rs1 rs2 : XReg) (s : State) : Out :=
  binary (fun a b => if a.ult b then b else a) rd rs1 rs2 s

/-- SEL (R224): the condition is x[rd], read first. -/
def execSel (rd rs1 rs2 : XReg) (s : State) : Out :=
  finish (do
    let c ← readX rd
    let a ← readX rs1
    let b ← readX rs2
    writeX rd (if c = 0#64 then b else a)) s

/-- CLZ (R223). -/
def execClz (rd rs1 : XReg) (s : State) : Out :=
  unary (fun a => BitVec.ofNat 64 (countLeading a)) rd rs1 s

/-- CTZ (R223). -/
def execCtz (rd rs1 : XReg) (s : State) : Out :=
  unary (fun a => BitVec.ofNat 64 (countTrailing 64 a.toNat)) rd rs1 s

/-- POPC (R223). -/
def execPopc (rd rs1 : XReg) (s : State) : Out :=
  unary (fun a => BitVec.ofNat 64 (countOnes 64 a.toNat)) rd rs1 s

/-- ADDI (R226). -/
def execAddi (rd rs1 : XReg) (imm : BitVec 12) (s : State) : Out :=
  unary (fun a => a + imm.signExtend 64) rd rs1 s

/-- ANDI (R226). -/
def execAndi (rd rs1 : XReg) (imm : BitVec 9) (s : State) : Out :=
  unary (fun a => a &&& imm.signExtend 64) rd rs1 s

/-- ORI (R226). -/
def execOri (rd rs1 : XReg) (imm : BitVec 9) (s : State) : Out :=
  unary (fun a => a ||| imm.signExtend 64) rd rs1 s

/-- XORI (R226). -/
def execXori (rd rs1 : XReg) (imm : BitVec 9) (s : State) : Out :=
  unary (fun a => a ^^^ imm.signExtend 64) rd rs1 s

/-- SLTI (R226). -/
def execSlti (rd rs1 : XReg) (imm : BitVec 9) (s : State) : Out :=
  unary (fun a => boolVal (a.slt (imm.signExtend 64))) rd rs1 s

/-- SLTIU (R226). -/
def execSltiu (rd rs1 : XReg) (imm : BitVec 9) (s : State) : Out :=
  unary (fun a => boolVal (a.ult (imm.signExtend 64))) rd rs1 s

/-- SLLI (R226). -/
def execSlli (rd rs1 : XReg) (shamt : Fin 64) (s : State) : Out :=
  unary (fun a => a <<< shamt.val) rd rs1 s

/-- SRLI (R226). -/
def execSrli (rd rs1 : XReg) (shamt : Fin 64) (s : State) : Out :=
  unary (fun a => a >>> shamt.val) rd rs1 s

/-- SRAI (R226). -/
def execSrai (rd rs1 : XReg) (shamt : Fin 64) (s : State) : Out :=
  unary (fun a => a.sshiftRight shamt.val) rd rs1 s

/-- LUI (R227). -/
def execLui (rd : XReg) (imm : BitVec 19) (s : State) : Out :=
  finish (writeX rd (imm.signExtend 64 <<< 12)) s

/-- ADDPC (R227): PC is the instruction's address, or the dictionary reference's (R220). -/
def execAddpc (rd : XReg) (imm : BitVec 19) (s : State) : Out :=
  finish (do writeX rd ((← me).pc + imm.signExtend 64 <<< 12)) s

/-! ## Multiply and divide (R228 to R230) -/

/-- The width a multiply or divide works at. -/
def mulWidth (w : Bool) : Nat := if w then 32 else 64

/-- A result's low `n` bits, sign-extended (R229). -/
def widen (w : Bool) (v : Int) : Dword := BitVec.ofInt 64 (signedOfNat (mulWidth w) (v % 2 ^ mulWidth w).toNat)

/-- An operand as R229 reads it, signed or unsigned. -/
def mulOperand (w signed : Bool) (a : Dword) : Int :=
  if signed then signedOfNat (mulWidth w) a.toNat else ((a.toNat % 2 ^ mulWidth w : Nat) : Int)

/-- MUL (R229). -/
def execMul (rd rs1 rs2 : XReg) (w : Bool) (s : State) : Out :=
  binary (fun a b => widen w (mulOperand w true a * mulOperand w true b)) rd rs1 rs2 s

/-- MULH (R229). -/
def execMulh (rd rs1 rs2 : XReg) (s : State) : Out :=
  binary (fun a b => widen false (mulOperand false true a * mulOperand false true b / 2 ^ 64)) rd rs1 rs2 s

/-- MULHU (R229). -/
def execMulhu (rd rs1 rs2 : XReg) (s : State) : Out :=
  binary (fun a b => widen false (mulOperand false false a * mulOperand false false b / 2 ^ 64)) rd rs1 rs2 s

/-- A divide (R229, R230): `f` gives the quotient or remainder of a non-zero divisor, `zero` what a zero divisor gives
while CTXCFG.DZQ, bit 0, is set; with DZQ clear it traps with cause 0x02 and the dividend. -/
def divide (f : Int → Int → Int) (zero : Int → Int) (signed w : Bool) (rd rs1 rs2 : XReg) (s : State) : Out :=
  finish (do
    let a ← readX rs1
    let b ← readX rs2
    let x := mulOperand w signed a
    let y := mulOperand w signed b
    if y = 0 then
      check (bitAt (← me).ctxcfg.toNat 0) 0x02 a
      writeX rd (widen w (zero x))
    else writeX rd (widen w (f x y))) s

/-- DIV (R229, R230). -/
def execDiv (rd rs1 rs2 : XReg) (w : Bool) (s : State) : Out :=
  divide Int.tdiv (fun _ => -1) true w rd rs1 rs2 s

/-- DIVU (R229, R230). -/
def execDivu (rd rs1 rs2 : XReg) (w : Bool) (s : State) : Out :=
  divide Int.tdiv (fun _ => -1) false w rd rs1 rs2 s

/-- REM (R229, R230). -/
def execRem (rd rs1 rs2 : XReg) (w : Bool) (s : State) : Out :=
  divide Int.tmod (fun x => x) true w rd rs1 rs2 s

/-- REMU (R229, R230). -/
def execRemu (rd rs1 rs2 : XReg) (w : Bool) (s : State) : Out :=
  divide Int.tmod (fun x => x) false w rd rs1 rs2 s

end Sys2Proof.Machine
end

