-- ==== Sys2Proof/Machine/Registers.lean ====
section
/-!
DEFINITION. The registers that CSR numbers name (R338): the unit-level ones, and the steward registers of dies and bridges
with what a write of each does (R4, R5, R66, R116, R355, R373 to R378, R380 to R404).
A write whose effect is a step of its own makes that step due.
-/
namespace Sys2Proof.Machine

/-! ## Unit level (R338, R339) -/

/-- The value of a unit-level register of the running context; none where the number names nothing. -/
def State.unitReg (s : State) (n : Nat) : Option Dword :=
  let c := s.me
  match n with
  | 0x000 => some c.fcsr
  | 0x001 => some c.ctxcfg
  | 0x002 => some c.wofs
  | 0x003 => some (BitVec.ofNat 64 c.pts)
  | 0x004 => some c.lease
  | 0x005 => some c.bartmo
  | 0x006 => some (s.core s.cur.1).workcfg
  | 0x010 => some (BitVec.ofNat 64 s.cur.2)
  | 0x011 => some (BitVec.ofNat 64 (s.coreIdWord s.cur.1))
  | 0x012 => some c.unitid
  | 0x013 => some c.launchid
  | 0x020 => some c.merrlog
  | 0x021 => some c.merrcnt
  | 0x030 => some (BitVec.ofNat 64 s.mtime)
  | 0x040 => some c.trapcause
  | 0x041 => some c.trappc
  | 0x042 => some c.trapval
  | 0x043 => some c.trapvec
  | _ => none

/-- The bits of `old` outside a mask, and those of `new` inside it. -/
def masked (mask old new : Dword) : Dword := (old &&& ~~~mask) ||| (new &&& mask)

/-- LEASE as it takes a written value (R83). -/
def leaseTaken (v : Dword) : Dword :=
  let n := v.toNat % 2 ^ 13
  BitVec.ofNat 64 (if n = 0 then 1 else min n 4096)

/-- A write of a unit-level register (R4, R5); the read-only ones are left as they are. -/
def State.setUnitReg (s : State) (n : Nat) (v : Dword) : State :=
  let c := s.me
  match n with
  | 0x000 => s.setMe { c with fcsr := v &&& 0x1F7F1F#64 }
  | 0x001 => s.setMe { c with ctxcfg := v &&& 3#64 }
  | 0x002 => s.setMe { c with wofs := v &&& 0xF#64 }
  | 0x004 => s.setMe { c with lease := leaseTaken v }
  | 0x005 => s.setMe { c with bartmo := v &&& 0xFFFFFFFF#64 }
  | 0x006 => (s.setCore s.cur.1 { s.core s.cur.1 with workcfg := v &&& 0x7FF#64 }).offerHome s.cur.1
  | 0x020 => s.setMe { c with merrlog := c.merrlog &&& ~~~(v &&& 0x1000#64) }
  | 0x021 => s.setMe { c with merrcnt := v &&& 0xFFFFFFFF#64 }
  | 0x040 => s.setMe { c with trapcause := masked 0xFF#64 c.trapcause v }
  | 0x041 => s.setMe { c with trappc := v }
  | 0x042 => s.setMe { c with trapval := v }
  | 0x043 => s.setMe { c with trapvec := v &&& ~~~1#64 }
  | _ => s

/-! ## The defect map (R397) -/

/-- Bytes 0 to 0x3FB of the map. -/
def State.fuseBytes (s : State) (d : Nat) : List Byte :=
  (((List.range 128).flatMap fun i => bytesOfNat 8 (s.fuseBody d i).toNat)).take 0x3FC

/-- A doubleword of the map; the last one holds the CRC, right unless a fuse says otherwise. -/
def State.fuseWord (s : State) (d i : Nat) : Dword :=
  if i = 127 && ((s.die d).fuse.find 127).isNone then BitVec.ofNat 64 ((Config.crc32 (s.fuseBytes d)).toNat * 2 ^ 32)
  else s.fuseBody d i

/-- Whether the map's MAGIC and CRC are right. -/
def State.fuseGood (s : State) (d : Nat) : Bool :=
  (s.fuseWord d 0).toNat % 2 ^ 16 == 0xDF64 && (s.fuseWord d 127).toNat / 2 ^ 32 == (Config.crc32 (s.fuseBytes d)).toNat

/-- Whether the map disables a link lane (R397). -/
def State.laneFused (s : State) (d lane : Nat) : Bool := bitAt (s.fuseBody d 13).toNat (32 + lane)

/-! ## Steward registers (R337, R338, R380) -/

/-- Whether a number names a register of a die. -/
def isDieReg (n : Nat) : Bool :=
  (0x180 ≤ n && n ≤ 0x197) || (0x1A0 ≤ n && n ≤ 0x1A2) || n == 0x1B0 || n == 0x1B1 || n == 0x1C0 || n == 0x1D0 || n == 0x1D1 ||
    (0x1D4 ≤ n && n ≤ 0x1DB) || (0x1E0 ≤ n && n ≤ 0x1FF) || (0x240 ≤ n && n ≤ 0x243) || n == 0x248 || n == 0x249 ||
    n == 0x250 || n == 0x251 || n == 0x280 || (0x284 ≤ n && n ≤ 0x28D) || (0x294 ≤ n && n ≤ 0x298) || n == 0x2A0 ||
    n == 0x2A1 || n == 0x2A8 || n == 0x2B0 || n == 0x2B1

/-- Whether a number names a register of a bridge, or of the module through a bridge. -/
def isBridgeReg (n : Nat) : Bool :=
  (0x200 ≤ n && n ≤ 0x202) || (0x204 ≤ n && n ≤ 0x206) || (0x208 ≤ n && n ≤ 0x20C) || (0x218 ≤ n && n ≤ 0x21B)

def LinkState.code : LinkState → Nat
  | .down => 0
  | .train => 1
  | .up2 => 2
  | .up1 => 3

/-- Whether lane 1 of a port is out of service (R388, R397). -/
def State.lane1Lost (s : State) (d p : Nat) : Bool := (s.link d p).lane1 || s.laneFused d (2 * p + 1)

/-- A register of a die as a master reads it. LAUNCHQ, a register of commands, reads zero. -/
def State.readDieReg (s : State) (master d n : Nat) : Dword :=
  if 0x190 ≤ n && n ≤ 0x197 then s.dieReg d n ||| BitVec.ofNat 64 (s.granted d (n - 0x190) * 2 ^ 8)
  else if n = 0x1A2 then BitVec.ofNat 64 ((s.dieReg d 0x1A1).toNat - s.slotsUsed d)
  else if n = 0x250 || n = 0x251 then
    let p := s.link d (n - 0x250)
    BitVec.ofNat 64 (p.en.toNat + p.state.code * 2 + (s.lane1Lost d (n - 0x250)).toNat * 8 + p.peer % 256 * 16)
  else if n = 0x28C then (s.die d).dmidx.get 0#64 master
  else if n = 0x28D then s.fuseWord d ((s.die d).dmidx.get 0#64 master).toNat
  else s.dieReg d n

/-- A register reached through a bridge. -/
def State.readBridgeReg (s : State) (b n : Nat) : Dword :=
  if n = 0x200 then s.feature
  else if n = 0x204 then BitVec.ofNat 64 s.owner
  else if n = 0x205 || n = 0x206 then s.bridgeReg 0 n
  else if 0x208 ≤ n && n ≤ 0x20B && !bitAt s.feature.toNat 5 then 0#64
  else if 0x218 ≤ n && n ≤ 0x21B then BitVec.ofNat 64 (bits (s.bridge b).measurement.toNat (64 * (n - 0x218)) 64)
  else s.bridgeReg b n

/-- Who writes a register (R386, R387). -/
structure Writer where
  /-- 1 the ringmaster cores, 2 the BMC, 3 the host. -/
  master : Nat
  secure : Bool
  /-- The bridge whose OSEVT reports a write denied. -/
  bridge : Nat
  deriving DecidableEq, Repr

/-- The management plane but for MGMTOWN and DMIDX, which have rules of their own (R386). -/
def inPlane (n : Nat) : Bool :=
  n == 0x205 || n == 0x206 || (0x208 ≤ n && n ≤ 0x20C) || n == 0x250 || n == 0x251 || (0x280 ≤ n && n != 0x28C)

/-- Whether R386 ignores a write. -/
def State.denies (s : State) (w : Writer) (n : Nat) : Bool :=
  inPlane n && s.owner != w.master && !(s.owner == 0 && w.master == 1)

/-- A claim of the plane that has come, with others of its cycle (R386). -/
def State.lodge (s : State) (master c : Nat) : State := if c = master && c != 0 then { s with claims := s.claims ++ [c] } else s

/-- A claim of the plane (R386): of those that come in one cycle the BMC's wins, then the OS's, then the host's. -/
def State.claim (s : State) (master c : Nat) : State :=
  let s := s.lodge master c
  let won := ([2, 1, 3] : List Nat).find? s.claims.contains
  { s with claims := [], owner := if s.owner = 0 then won.getD 0 else s.owner }
/-- The owner's write of OWNER (R386). -/
def State.handOver (s : State) (master o : Nat) : State := if s.owner = master && master != 0 then { s with owner := o } else s

/-- The bits of a plain die register that a write sets. -/
def dieMask (n : Nat) : Dword :=
  if (0x180 ≤ n && n ≤ 0x187) || n = 0x1D0 || n = 0x1D9 || n = 0x1DA || (0x1E0 ≤ n && n ≤ 0x1EF) || n = 0x2A0 || n = 0x2B0 then
    0x0000FFFFFFFFF000#64
  else if 0x188 ≤ n && n ≤ 0x18F then 0x0000FFFFFFFFF001#64
  else if 0x190 ≤ n && n ≤ 0x197 then 0xFF#64
  else if n = 0x1B0 then 0x0000FFFFFFFF0000#64
  else if n = 0x1B1 || n = 0x1D8 || (0x240 ≤ n && n ≤ 0x243) || (0x288 ≤ n && n ≤ 0x28B) then 0xFFFFFFFFFFFFFFFF#64
  else if n = 0x1D4 then 0x0000FFFFFFFFF01F#64
  else if n = 0x1D6 then 0xFFFFFFFF#64
  else if 0x1F0 ≤ n && n ≤ 0x1FF then 0x0000FFFFFFFFF00F#64
  else if n = 0x2A1 then 0x1F#64
  else if n = 0x2A8 then 0x1FFFFFFFF#64
  else 0#64

/-- A signed field clamped to ± a limit. -/
def clampField (width limit v : Nat) : Nat :=
  let i := signedOfNat width v
  let j := if (limit : Int) < i then (limit : Int) else if i < -(limit : Int) then -(limit : Int) else i
  (j % (2 ^ width : Nat)).toNat

/-- A step about a value written to a register of a place. -/
def State.dueWrite (s : State) (i : Instr) (place index : Nat) (v : Dword) (secure : Bool) : State :=
  s.dueAt i { place := place, index := index, addr := 0#64, value := v, flag := secure }

/-- A write of LAUNCHQ (R355): the step of its command. -/
def State.launchCommand (s : State) (d : Nat) (v : Dword) (secure : Bool) : State :=
  let step : Instr := match bits v.toNat 0 6 with
    | 0 => .launchqSubmit
    | 1 => .launchqPreempt
    | 2 => .launchqResume
    | 3 => .launchqRebase
    | _ => .launchqUnknown
  s.dueWrite step d 0 v secure

/-- A write of a die's register by a master. -/
def State.writeDieReg (s : State) (w : Writer) (d n : Nat) (v : Dword) : State :=
  if s.denies w n then s.osEvent w.bridge 0x40000#64
  else if n = 0x1A0 then s.dueWrite .netpbaseWrite d 0 v w.secure
  else if n = 0x1A1 then s.dueWrite .netpslotsWrite d 0 v w.secure
  else if n = 0x1C0 then s.launchCommand d v w.secure
  else if n = 0x1D1 then s.dueWrite .lendbanksWrite d 0 v w.secure
  else if n = 0x1B1 then (s.setDieReg d n v).settleFifos d
  else if n = 0x1D6 then (s.setDieReg d n (v &&& dieMask n)).due .migRewalk d
  else if n = 0x1D7 then (s.setDieReg d n v).dueWrite .fltresWrite d 0 v w.secure
  else if n = 0x1DB then
    let old := s.dieReg d n
    let s := s.setDieReg d n (masked 0x1F#64 (old &&& ~~~(v &&& 0x80#64)) v)
    if bitAt v.toNat 5 then s.due .migctlGo d else s
  else if 0x240 ≤ n && n ≤ 0x243 then if w.secure then s.setDieReg d n v else s
  else if n = 0x249 then
    let left := s.dieReg d n &&& ~~~v
    let s := s.setDieReg d n left
    if left = 0#64 then s.setBridgeReg (d / 16) 0x202 (s.bridgeReg (d / 16) 0x202 &&& ~~~(BitVec.ofNat 64 (2 ^ (d % 16)))) else s
  else if n = 0x250 || n = 0x251 then s.dueWrite .linkEnWrite d (n - 0x250) v w.secure
  else if n = 0x280 then s.dueWrite .vmargWrite d 0 v w.secure
  else if 0x284 ≤ n && n ≤ 0x287 then
    s.setDieReg d n (BitVec.ofNat 64 (bits v.toNat 0 7 + clampField 7 50 (bits v.toNat 8 7) * 2 ^ 8))
  else if n = 0x28C then s.setDie d { s.die d with dmidx := (s.die d).dmidx.put w.master (v &&& 0x7F#64) }
  else if n = 0x298 then
    let low := bits v.toNat 0 8 + min 105 (bits v.toNat 8 8) * 2 ^ 8
    s.setDieReg d n (masked 0xFFFF#64 (s.dieReg d n) (BitVec.ofNat 64 low))
  else if n = 0x2B0 then (s.setDieReg d n (v &&& dieMask n)).setDie d { (s.setDieReg d n (v &&& dieMask n)).die d with logged := 0 }
  else if n = 0x2B1 then s.setDieReg d n (masked 0x3F#64 (s.dieReg d n &&& ~~~(v &&& 0x40#64)) v)
  else s.setDieReg d n (masked (dieMask n) (s.dieReg d n) v)

/-- A write of a register reached through a bridge. -/
def State.writeBridgeReg (s : State) (w : Writer) (b n : Nat) (v : Dword) : State :=
  if s.denies w n then s.osEvent w.bridge 0x40000#64
  else if n = 0x201 then
    if b = 0 && s.released then s
    else
      let s := s.setBridgeReg b n (masked 0x10#64 (s.bridgeReg b n) v)
      if b = 0 && bitAt v.toNat 4 then s.due .dierel 0 else s
  else if n = 0x202 then
    s.setBridgeReg b n (masked 0x3F000000#64 (s.bridgeReg b n &&& ~~~(v &&& 0x70000#64)) v)
  else if n = 0x204 then
    let c := bits v.toNat 2 2
    let o := bits v.toNat 0 2
    if c = 0 && s.owner != w.master && !(s.owner == 0 && w.master == 1) then s.osEvent w.bridge 0x40000#64
    else
      let s' := if c = 0 then s else s.dueWrite .mgmtownClaim 0 w.master (BitVec.ofNat 64 c) w.secure
      if s.owner = w.master then s'.dueWrite .mgmtownOwner 0 w.master (BitVec.ofNat 64 o) w.secure else s'
  else if n = 0x205 then if w.secure then s.setBridgeReg 0 n v else s
  else if n = 0x206 then s.setBridgeReg 0 n (v &&& 0xFF#64)
  else if 0x208 ≤ n && n ≤ 0x20B then
    if bitAt s.feature.toNat 5 then s.setBridgeReg b n (masked 0x3FFFFFF001#64 (s.bridgeReg b n) v) else s
  else if n = 0x20C then s.setBridgeReg b n (v &&& 0x0000FFFFFFFFF000#64)
  else s

/-! ## The numbers a context may name (R183, R337) -/

/-- The register a number names for the running context. A number above 0xFF names one on ringmaster cores alone; DIESEL
chooses the die. -/
def State.csr (s : State) (n : Nat) : Option Dword :=
  if n < 0x100 then s.unitReg n
  else if n = 0x100 then some (s.core s.cur.1).diesel
  else if isDieReg n then some (s.readDieReg 1 (s.core s.cur.1).diesel.toNat n)
  else if isBridgeReg n then some (s.readBridgeReg (bridgeOf s.cur.1) n)
  else none

/-- A write of the register a number names for the running context. -/
def State.setCsr (s : State) (n : Nat) (v : Dword) : State :=
  let core := s.cur.1
  let w : Writer := { master := 1, secure := s.secure core, bridge := bridgeOf core }
  if n < 0x100 then s.setUnitReg n v
  else if n = 0x100 then s.setCore core { s.core core with diesel := v &&& 0x3F#64 }
  else if isDieReg n then s.writeDieReg w (s.core core).diesel.toNat n v
  else s.writeBridgeReg w (bridgeOf core) n v

/-! ## REGISTER_WRITE -/

/-- REGISTER_WRITE (R4, R386): a write of a steward register by a master. The subject names the die or bridge, the number in its
index, the master in its address, and the writer's world in its flag. -/
def execRegisterWrite (s : State) : Out :=
  event (modify fun s =>
    let j := s.subject
    let n := j.index
    let w : Writer :=
      { master := j.addr.toNat, secure := j.flag, bridge := if isDieReg n then j.place / 16 else j.place }
    if isDieReg n then s.writeDieReg w j.place n j.value
    else if isBridgeReg n then s.writeBridgeReg w j.place n j.value
    else s) s

end Sys2Proof.Machine
end

