-- ==== Sys2Proof/Machine/System.lean ====
section
/-!
DEFINITION. The system instructions (R330 to R337): CSRRW, CSRRS, CSRRC, TRAP, ERET, WFE, DICT.LOAD, XLINV, BIST; and the
steps that end a WFE (R333).
-/
namespace Sys2Proof.Machine

/-! ## CSR instructions (R183, R331, R337) -/

/-- What the three share: the register read, rd written with the old value, and, where the form writes, the register written
at the seal with the value that the old one gave. Every CSR write pins an active region (R134). -/
def csrOp (rd rs1 : XReg) (csr : BitVec 11) (writes : Bool) (f : Dword → Dword → Dword) : Mach Unit := do
  let n := csr.toNat
  let s ← get
  check (n < 0x100 || isRingmaster s.cur.1) 0x06 s.me.ir
  match s.csr n with
  | none => trap 0x01 s.me.ir
  | some _ =>
    let a ← readX rs1
    let bs ← readAhead (do return bytesOfNat 8 ((((← get).csr n).map BitVec.toNat).getD 0))
    let old := BitVec.ofNat 64 (natOfBytes bs)
    beforeSeal (writeX rd old)
    if writes then
      leave
      modify fun s => s.setCsr n (f old a)
      pins

/-- CSRRW (R331). -/
def execCsrrw (rd rs1 : XReg) (csr : BitVec 11) (s : State) : Out := finish (csrOp rd rs1 csr true fun _ a => a) s
/-- CSRRS (R331): with x0 it does not write. -/
def execCsrrs (rd rs1 : XReg) (csr : BitVec 11) (s : State) : Out :=
  finish (csrOp rd rs1 csr (rs1 != 0) fun old a => old ||| a) s
/-- CSRRC (R331): with x0 it does not write. -/
def execCsrrc (rd rs1 : XReg) (csr : BitVec 11) (s : State) : Out :=
  finish (csrOp rd rs1 csr (rs1 != 0) fun old a => old &&& ~~~a) s

/-! ## TRAP, ERET, WFE (R332, R333) -/

/-- TRAP (R332): cause 0x0C with x[rs1]. -/
def execTrap (rs1 : XReg) (s : State) : Out :=
  finish (do
    let v ← readX rs1
    trap 0x0C v) s

/-- ERET (R332): it leaves the handler. Outside one it ends a sluice core's program (R306), and traps elsewhere. A control
context's ERET lets its core's helpers take units again after a stop (R402). -/
def execEret (s : State) : Out :=
  finishJump (do
    let s ← get
    let c := s.me
    if c.inHandler then
      leave
      modifyMe Ctx.eret
      if s.cur.2 = 0 then
        modify fun s =>
          let x := s.core s.cur.1
          let s := s.setCore s.cur.1 { x with stopped := false }
          if x.stopped then s.offerHome s.cur.1 else s
    else if isSluice s.cur.1 then
      leave
      modify fun s => s.endCall s.cur.1 0#64
    else trap 0x01 c.ir) s

/-- WFE (R333): with the event latch set its wait ends at once, and clears the latch. -/
def execWfe (s : State) : Out :=
  finish (do
    leave
    if (← me).latch then modifyMe fun c => { c with latch := false }
    else waitFor .event none) s

/-- WFE_WAKE (R333, R384): an event for a context; the subject names core and context. -/
def execWfeWake (s : State) : Out := event (modify fun s => s.eventAt (ctxKey s.subject.place s.subject.index)) s

/-- WFE_SPURIOUS_COMPLETION (R333): a WFE completes at any other time. -/
def execWfeSpuriousCompletion (s : State) : Out :=
  event (modify fun s =>
    let k := ctxKey s.subject.place s.subject.index
    let c := s.ctxAt k
    match c.status with
    | .waiting .event _ => s.setCtxAt k { c with status := .running, latch := false }
    | _ => s) s

/-! ## DICT.LOAD (R172, R334) -/

/-- One byte of global memory, read as a weak load; its own address is the trap value. -/
def imageByte (a : Dword) : Mach Byte := do
  let bs ← loadBytes .global a 1
  return bs.headD 0#8

/-- `n` bytes of global memory from an address, each as a weak load. -/
def imageBytes (a : Dword) : Nat → Mach (List Byte)
  | 0 => return []
  | n + 1 => do
    let b ← imageByte a
    return b :: (← imageBytes (a + 1) n)

/-- The words of an image. -/
def wordsOf : List Byte → List Word
  | b0 :: b1 :: b2 :: b3 :: r => BitVec.ofNat 32 (natOfBytes [b0, b1, b2, b3]) :: wordsOf r
  | _ => []

/-- DICT.LOAD (R334). -/
def execDictLoad (rs1 : XReg) (s : State) : Out :=
  finishArith (do
    let a ← readX rs1
    alignCheck a 8
    let hd := natOfBytes (← imageBytes a 8)
    let first := bits hd 0 10
    let count := bits hd 10 11
    check (count != 0 && first + count ≤ 1024 && bits hd 21 43 == 0) 0x06 a
    let words ← imageBytes (a + 8) (4 * count)
    commitWrites [.words first (wordsOf words)]) s

/-! ## XLINV (R335, R371, R376) -/

/-- Clears the write grants that cluster caches have recorded for the grains a condition on keys names. -/
def State.dropGrants (s : State) (p : Nat → Bool) : State :=
  { s with
    copies := s.copies.map fun e =>
      if ccPlace 0 ≤ e.1 / 2 ^ 64 && e.1 / 2 ^ 64 < guestPlace 0 && p (e.1 % 2 ^ 64) then (e.1, { e.2 with grant := false })
      else e }

/-- The pages an NI knows an offset in: cached ones, the one its table now gives, and the 4 KiB about it. -/
def State.pagesOf (s : State) (l : Loc) : List (Nat × Nat) :=
  let lent := if l.bridge then [] else (s.die l.home).lent.map Prod.snd
  let known := ((s.tlbOf l ++ lent).filter (·.covers l.off)) ++ (leafOf s l).toList
  (l.off / 4096 * 4096, 4096) :: known.map fun e => (e.base, e.size)

/-- XLINV of the page that holds an address. -/
def State.invalidatePage (s : State) (l : Loc) : State :=
  let pages := s.pagesOf l
  let home := l.key / 2 ^ 48
  let s := s.dropGrants fun k => k / 2 ^ 48 == home && pages.any fun p => p.1 ≤ k % 2 ^ 48 && k % 2 ^ 48 < p.1 + p.2
  s.tlbDrop l (·.covers l.off)

/-- XLINV of every entry of a home. -/
def State.invalidateHome (s : State) (l : Loc) : State :=
  (s.dropGrants fun k => k / 2 ^ 48 == l.key / 2 ^ 48).tlbDrop l fun _ => true

/-- The homes of the module. -/
def allHomes : List Loc :=
  ((List.range 64).map fun d => { bridge := false, home := d, off := 0 }) ++
    (List.range 4).map fun b => { bridge := true, home := b, off := 0 }

/-- XLINV (R335): what is held on a page is replayed at once, before any later access (R376, R379). -/
def execXlinv (rs1 rs2 : XReg) (s : State) : Out :=
  finish (do
    needSteward
    let a ← readX rs1
    let kind ← readX rs2
    check (kind.toNat < 3) 0x06 kind
    match route (← get) a with
    | none => trap 0x06 a
    | some l =>
      leave
      modify fun s =>
        if kind = 0#64 then (s.invalidatePage l).rewalk l.place
        else if kind = 1#64 then (s.invalidateHome l).rewalk l.place
        else allHomes.foldl (fun s l => (s.invalidateHome l).rewalk l.place) s) s

/-! ## BIST (R336, R394) -/

/-- Memory zeroed at the addresses that a condition names, the marks there gone. -/
def State.zeroWhere (s : State) (p : Nat → Bool) : State :=
  { s with mem := s.mem.filter fun e => !p e.1, marks := s.marks.filter fun a => !p a }

/-- Whether an address lies in the scratchpad, or in the lane slices, of a core of a die that the defect map leaves; and in its weight
buffer. -/
def State.testedCore (s : State) (d a : Nat) : Bool :=
  let good := fun (c : Nat) => dieOf c == d && !s.coreDisabled c
  (spBase 0 ≤ a && a < spBase 16384 && good ((a - spBase 0) / 2 ^ 18)) ||
    (laneBase 0 0 ≤ a && a < laneBase 16384 0 && good ((a - laneBase 0 0) / 2 ^ 16))
def State.testedBuffer (s : State) (d a : Nat) : Bool :=
  wbBase 0 0 ≤ a && a < wbBase 16384 0 &&
    let c := (a - wbBase 0 0) / 2 ^ 16
    dieOf c == d && !s.coreDisabled c

/-- Whether an address lies in a bank of a die's scratchpad that the defect map leaves. -/
def State.testedBank (s : State) (d a : Nat) : Bool :=
  dsBase d ≤ a && a < dsBase (d + 1) && !bitAt ((s.die d).fuse.get 0#64 13).toNat ((a - dsBase d) / 2 ^ 20)

/-- The memories a self-test leaves zeroed, by bit of MASK, the units that the defect map disables skipped (R336; assumption log, entry
29). -/
def State.testedZero (s : State) (d mask : Nat) : State :=
  let s := if bitAt mask 0 then
      (s.zeroWhere (s.testedCore d)).dropPlaces fun p =>
        (p < 32768 && p / 256 == d && !s.coreDisabled p) ||
          (131072 ≤ p && (p - 131072) / 256 == d && !s.coreDisabled (p - 131072))
    else s
  let s := if bitAt mask 1 then s.dropPlaces fun p => ccPlace (16 * d) ≤ p && p < ccPlace (16 * d + 16) else s
  let s := if bitAt mask 2 then s.dropPlaces fun p => p == guestPlace d else s
  let s := if bitAt mask 3 then
      let t := s.zeroWhere (s.testedBank d)
      t.setDie d { t.die d with lent := [] }
    else s
  let s := if bitAt mask 7 then s.zeroWhere (s.testedBuffer d) else s
  let s := if bitAt mask 8 then { s with fit := s.fit.filter fun e => e.1 / 256 != d } else s
  if bitAt mask 9 then s.setDie d { s.die d with tlb := [], lent := [] } else s

/-- Whether a launch or an engine operation is active on a die. -/
def State.dieBusy (s : State) (d : Nat) : Bool :=
  (s.launches.any fun e =>
      e.2.started && e.2.die0 ≤ d && d < e.2.die0 + e.2.dies && (s.counter .launch e.1).any fun c => !c.complete) ||
    (s.ops.any fun o => dieOf o.2.core == d) ||
    (s.ctxs.any fun e => isArith (e.1 / 16) && dieOf (e.1 / 16) == d && e.2.status != .idle) ||
    (List.range 16).any fun ch =>
      let x := s.core (sluiceCore d ch)
      x.running.isSome || !x.calls.isEmpty

/-- SIG of a test (R394): which of the units under MASK failed, and how many instances, both free values. -/
def signature (mask free : Nat) : Nat :=
  let failed := free &&& mask
  if failed = 0 then 0 else failed % 2 ^ 16 + max 1 (bits free 16 16) * 2 ^ 16

/-- BIST (R336, R394). -/
def execBist (rd rs1 : XReg) (s : State) : Out :=
  finish (do
    needSteward
    let a ← readX rs1
    let w := a.toNat
    check (bits w 11 5 == 0 && bits w 22 42 == 0) 0x06 a
    let mask := bits w 0 11
    let d := bits w 16 6
    leave
    let s ← get
    if s.dieBusy d then writeX rd (BitVec.ofNat 64 (2 ^ 33))
    else
      let (i, s) := s.takeFree
      set (s.testedZero d mask)
      writeX rd (BitVec.ofNat 64 (signature mask (Config.bistSignature i).toNat + 2 ^ 32))) s

end Sys2Proof.Machine
end

