-- ==== Sys2Proof/Machine/Units.lean ====
section
/-!
DEFINITION. The unit instructions (R139, R144, R149, R152, R153, R155, R325 to R327).
-/
namespace Sys2Proof.Machine

/-- Traps with cause 0x01, the instruction as its value. -/
def checkLegal (ok : Bool) : Mach Unit := do check ok 0x01 (← me).ir

/-- SPAWN (R144, R326): a release at `.mod`; the record is counted, and enqueued where JOIN is 0. -/
def execSpawn (rd rs1 : XReg) (s : State) : Out :=
  finishArith (do
    let record ← readX rs1
    checkRecord record
    canWriteX rd
    leave
    releaseMine .mod
    let a ← myAgent
    let c ← me
    let (unit, pts) ← countRecord a record c.launchid.toNat c.pts
    noteRelease a record pts
    let (bs, _) ← strongBytes a (record + 16#64) 4 pts
    modify fun s => s.raiseCounter c.launchid.toNat
    if field bs 0 4 = 0 then modify fun s => s.requeue record pts
    raisePts pts
    writeX rd (BitVec.ofNat 64 unit)
    pins) s

/-- START (R149, R326): 0 where the record starts on the helper, 1 where the helper is not idle, 2 where it is enabled for
auto-pop; of a helper that is neither idle nor free of auto-pop the manual gives both codes, and the model 1 (DESIGN CHOICE:
assumption log, entry 14). The record is read whole first, so that a START whose record's home holds it waits there with nothing
done. -/
def execStart (rd rs1 rs2 : XReg) (s : State) : Out :=
  finishArith (do
    let h ← readX rs1
    let record ← readX rs2
    let s ← get
    checkLegal (s.cur.2 == 0 && 1 ≤ h.toNat && h.toNat ≤ 10)
    checkRecord record
    canWriteX rd
    leave
    let s ← get
    let core := s.cur.1
    let k := ctxKey core h.toNat
    let code ←
      if !(s.ctxAt k).free then pure 1
      else if s.autoPops core h.toNat then pure 2
      else do
        let a ← myAgent
        let c ← me
        let (bs, _) ← strongBytes a record 192 c.pts
        if field bs 28 4 = 0 then
          let (_, pts) ← countRecord a record c.launchid.toNat c.pts
          modify fun s => s.raiseCounter c.launchid.toNat
          raisePts pts
        startUnit k record (field bs 48 6)
        pure 0
    writeX rd (BitVec.ofNat 64 code)
    pins) s

/-- SUSP (R152, R326): the unit folds with JOIN := n, and is enqueued at once where n is 0. -/
def execSusp (rs1 : XReg) (s : State) : Out :=
  finishArith (do
    let n ← readX rs1
    checkLegal ((← get).cur.2 != 0)
    check (n.toNat < 2 ^ 32) 0x06 n
    leave
    let c ← me
    let folded ← foldUnit c.npc (some n.toNat) 0#64
    pinsOf c
    match folded with
    | some (record, pts) => if n = 0#64 then modify fun s => s.requeue record pts
    | none => pure ()) s

/-- DONE (R153, R326): a release at `.mod`, a JOINDEC of the record named, and the end of the unit, or of the control
context's part of its launch. -/
def execDone (rs1 : XReg) (s : State) : Out :=
  finishArith (do
    let record ← readX rs1
    if rs1 != 0 then checkRecord record
    leave
    releaseMine .mod
    if rs1 != 0 then joinDec (← myAgent) record (← me).pts
    pins
    let s ← get
    let launch := s.me.launchid.toNat
    modifyMe Ctx.toIdle
    modify fun s => s.endItem launch
    if s.cur.2 = 0 then modify fun s => s.due .treeReport s.cur.1 launch
    else modify fun s => s.offerHome s.cur.1) s

/-- JOINDEC (R144, R326). -/
def execJoindec (rs1 : XReg) (s : State) : Out :=
  finishArith (do
    let record ← readX rs1
    checkRecord record
    leave
    releaseMine .mod
    joinDec (← myAgent) record (← me).pts
    pins) s

/-- YIELD (R153, R326): the unit folds, and is enqueued at the tail of its priority. -/
def execYield (s : State) : Out :=
  finishArith (do
    checkLegal ((← get).cur.2 != 0)
    leave
    let c ← me
    let folded ← foldUnit c.npc none 0#64
    pinsOf c
    match folded with
    | some (record, pts) => modify fun s => s.requeue record pts
    | none => pure ()) s

/-- Whether the running context's job owns an ID of a level (R139). -/
def State.owns (s : State) (l : Level) (id : Nat) : Bool :=
  match s.launches.find s.me.launchid.toNat, s.counter l id with
  | some x, some c => x.job == c.job
  | _, _ => false

/-- The checks CANCEL and CTRRD share (R326). -/
def ownedId (l : Level) (id : Dword) : Mach Unit := do
  check (id.toNat < 2 ^ 32) 0x06 id
  beforeSeal do check ((← get).owns l id.toNat) 0x06 id

/-- CANCEL (R155, R326). -/
def execCancel (rs1 : XReg) (level : Level) (hard : Bool) (s : State) : Out :=
  finishArith (do
    let id ← readX rs1
    check (id.toNat < 2 ^ 32) 0x06 id
    check (level != .job) 0x06 id
    ownedId level id
    leave
    pins
    modify fun s => s.cancel level id.toNat hard) s

/-- A counter's word (R139). -/
def Counter.word (c : Counter) : Dword :=
  BitVec.ofNat 64 (c.count % 2 ^ 32 + c.can.toNat * 2 ^ 32 + c.late.toNat * 2 ^ 33 + c.juf.toNat * 2 ^ 34)

/-- CTRRD (R139, R326). -/
def execCtrrd (rd rs1 : XReg) (level : Level) (s : State) : Out :=
  finishArith (do
    let id ← readX rs1
    ownedId level id
    canWriteX rd
    leave
    writeX rd ((((← get).counter level id.toNat).map Counter.word).getD 0#64)
    pins) s

end Sys2Proof.Machine
end

