-- ==== Sys2Proof/Machine/Vector.lean ====
section
/-!
DEFINITION. Integer lane operations, permutes, reductions and predicate operations (R253 to R258, R264 to R266, R274).
-/
namespace Sys2Proof.Machine

/-- An element operation applied to every element of a lane (R256). -/
def laneMap (w : Nat) (f : Nat → Nat → Nat) (a b : Word) : Word :=
  let n := 32 / w
  BitVec.ofNat 32 (joinElements w (List.zipWith f (elementsOf w n a.toNat) (elementsOf w n b.toNat)))

/-- A VOP of two registers (R256). -/
def vop (size : ElemSize) (f : Nat → Nat → Nat → Nat) (vd vs1 vs2 : VReg) (k : KReg) (s : State) : Out :=
  finishArith (do
    let c ← me
    let w := elemWidth size
    writeLanes vd (c.getK k) fun i => laneMap w (f w) (c.getV vs1)[i] (c.getV vs2)[i]) s

/-- The shift amount: the low log2(w) bits (R256). -/
def shiftOf (w b : Nat) : Nat := b % w

/-- The number a signed value has in `w` bits. -/
def wrapInt (w : Nat) (v : Int) : Nat := (v % (2 ^ w : Nat)).toNat

/-- VCMP (R257): a bit is set where the lane is enabled and the condition holds in every element. -/
def vcmp (size : ElemSize) (cond : Nat → Nat → Nat → Bool) (kd : KReg) (vs1 vs2 : VReg) (k : KReg) (s : State) : Out :=
  finishArith (do
    let c ← me
    let w := elemWidth size
    let n := 32 / w
    writeMask kd fun i =>
      enabled (c.getK k) i &&
        (List.zipWith (cond w) (elementsOf w n (c.getV vs1)[i].toNat) (elementsOf w n (c.getV vs2)[i].toNat)).all id) s

/-- VADD (R256). -/
def execVadd (size : ElemSize) (vd vs1 vs2 : VReg) (k : KReg) (s : State) : Out :=
  vop size (fun w a b => (a + b) % 2 ^ w) vd vs1 vs2 k s

/-- VSUB (R256). -/
def execVsub (size : ElemSize) (vd vs1 vs2 : VReg) (k : KReg) (s : State) : Out :=
  vop size (fun w a b => (a + 2 ^ w - b) % 2 ^ w) vd vs1 vs2 k s

/-- VMUL (R256). -/
def execVmul (size : ElemSize) (vd vs1 vs2 : VReg) (k : KReg) (s : State) : Out :=
  vop size (fun w a b => wrapInt w (signedOfNat w a * signedOfNat w b)) vd vs1 vs2 k s

/-- VMULH (R256). -/
def execVmulh (size : ElemSize) (vd vs1 vs2 : VReg) (k : KReg) (s : State) : Out :=
  vop size (fun w a b => wrapInt w (signedOfNat w a * signedOfNat w b / (2 ^ w : Nat))) vd vs1 vs2 k s

/-- VAND (R256). -/
def execVand (vd vs1 vs2 : VReg) (k : KReg) (s : State) : Out :=
  vop .w (fun _ a b => a &&& b) vd vs1 vs2 k s

/-- VOR (R256). -/
def execVor (vd vs1 vs2 : VReg) (k : KReg) (s : State) : Out :=
  vop .w (fun _ a b => a ||| b) vd vs1 vs2 k s

/-- VXOR (R256). -/
def execVxor (vd vs1 vs2 : VReg) (k : KReg) (s : State) : Out :=
  vop .w (fun _ a b => a ^^^ b) vd vs1 vs2 k s

/-- VSHL (R256). -/
def execVshl (size : ElemSize) (vd vs1 vs2 : VReg) (k : KReg) (s : State) : Out :=
  vop size (fun w a b => a * 2 ^ shiftOf w b % 2 ^ w) vd vs1 vs2 k s

/-- VSHR (R256). -/
def execVshr (size : ElemSize) (vd vs1 vs2 : VReg) (k : KReg) (s : State) : Out :=
  vop size (fun w a b => a / 2 ^ shiftOf w b) vd vs1 vs2 k s

/-- VSHRA (R256). -/
def execVshra (size : ElemSize) (vd vs1 vs2 : VReg) (k : KReg) (s : State) : Out :=
  vop size (fun w a b => wrapInt w (signedOfNat w a / (2 ^ shiftOf w b : Nat))) vd vs1 vs2 k s

/-- VMIN (R256). -/
def execVmin (size : ElemSize) (vd vs1 vs2 : VReg) (k : KReg) (s : State) : Out :=
  vop size (fun w a b => if signedOfNat w a < signedOfNat w b then a else b) vd vs1 vs2 k s

/-- VMAX (R256). -/
def execVmax (size : ElemSize) (vd vs1 vs2 : VReg) (k : KReg) (s : State) : Out :=
  vop size (fun w a b => if signedOfNat w a < signedOfNat w b then b else a) vd vs1 vs2 k s

/-- VMINU (R256). -/
def execVminu (size : ElemSize) (vd vs1 vs2 : VReg) (k : KReg) (s : State) : Out :=
  vop size (fun _ a b => Nat.min a b) vd vs1 vs2 k s

/-- VMAXU (R256). -/
def execVmaxu (size : ElemSize) (vd vs1 vs2 : VReg) (k : KReg) (s : State) : Out :=
  vop size (fun _ a b => Nat.max a b) vd vs1 vs2 k s

/-- VMOV (R258). -/
def execVmov (vd vs2 : VReg) (k : KReg) (s : State) : Out :=
  finishArith (do
    let c ← me
    writeLanes vd (c.getK k) fun i => (c.getV vs2)[i]) s

/-- VSEL (R258): the k register selects, and every lane is written. -/
def execVsel (vd vs1 vs2 : VReg) (k : KReg) (s : State) : Out :=
  finishArith (do
    let c ← me
    writeLanes vd 0xFFFF#16 fun i => if enabled (c.getK k) i then (c.getV vs1)[i] else (c.getV vs2)[i]) s

/-- VCMP.eq (R257). -/
def execVcmpEq (size : ElemSize) (kd : KReg) (vs1 vs2 : VReg) (k : KReg) (s : State) : Out :=
  vcmp size (fun _ a b => a == b) kd vs1 vs2 k s

/-- VCMP.ne (R257). -/
def execVcmpNe (size : ElemSize) (kd : KReg) (vs1 vs2 : VReg) (k : KReg) (s : State) : Out :=
  vcmp size (fun _ a b => a != b) kd vs1 vs2 k s

/-- VCMP.lt (R257). -/
def execVcmpLt (size : ElemSize) (kd : KReg) (vs1 vs2 : VReg) (k : KReg) (s : State) : Out :=
  vcmp size (fun w a b => decide (signedOfNat w a < signedOfNat w b)) kd vs1 vs2 k s

/-- VCMP.ge (R257). -/
def execVcmpGe (size : ElemSize) (kd : KReg) (vs1 vs2 : VReg) (k : KReg) (s : State) : Out :=
  vcmp size (fun w a b => decide (signedOfNat w b ≤ signedOfNat w a)) kd vs1 vs2 k s

/-- VCMP.ltu (R257). -/
def execVcmpLtu (size : ElemSize) (kd : KReg) (vs1 vs2 : VReg) (k : KReg) (s : State) : Out :=
  vcmp size (fun _ a b => decide (a < b)) kd vs1 vs2 k s

/-- VCMP.geu (R257). -/
def execVcmpGeu (size : ElemSize) (kd : KReg) (vs1 vs2 : VReg) (k : KReg) (s : State) : Out :=
  vcmp size (fun _ a b => decide (b ≤ a)) kd vs1 vs2 k s

/-! ## Moves, permutes and reductions (R264 to R266) -/

/-- VMOVX (R264). -/
def execVmovx (vd : VReg) (xs : XReg) (s : State) : Out :=
  finishArith (do
    let v ← readX xs
    writeLanes vd 0xFFFF#16 fun _ => v.setWidth 32) s

/-- VEXT (R264). -/
def execVext (xd : XReg) (vs1 : VReg) (lane : Fin 16) (s : State) : Out :=
  finishArith (do writeX xd (((← me).getV vs1)[lane].signExtend 64)) s

/-- VSHUF (R265). -/
def execVshuf (vd vs1 vs2 : VReg) (k : KReg) (s : State) : Out :=
  finishArith (do
    let c ← me
    writeLanes vd (c.getK k) fun i => (c.getV vs1)[Fin.ofNat 16 (c.getV vs2)[i].toNat]) s

/-- VSLIDE.up (R265). -/
def execVslideUp (vd vs1 : VReg) (n : Fin 16) (k : KReg) (s : State) : Out :=
  finishArith (do
    let c ← me
    writeLanes vd (c.getK k) fun i =>
      if n.val ≤ i.val then (c.getV vs1)[Fin.ofNat 16 (i.val - n.val)] else 0#32) s

/-- VSLIDE.dn (R265). -/
def execVslideDn (vd vs1 : VReg) (n : Fin 16) (k : KReg) (s : State) : Out :=
  finishArith (do
    let c ← me
    writeLanes vd (c.getK k) fun i =>
      if i.val + n.val ≤ 15 then (c.getV vs1)[Fin.ofNat 16 (i.val + n.val)] else 0#32) s

/-- Lane 0 takes a value and the other lanes become 0 (R266). -/
def writeLane0 (vd : VReg) (v : Nat) : Mach Unit :=
  writeLanes vd 0xFFFF#16 fun i => if i.val = 0 then BitVec.ofNat 32 v else 0#32

/-- VRED (R266): a disabled lane contributes the identity. -/
def vred (f : Nat → Nat → Nat) (identity : Nat) (vd vs1 : VReg) (k : KReg) (s : State) : Out :=
  finishArith (do
    let c ← me
    writeLane0 vd
      ((List.finRange 16).foldl (fun acc i => if enabled (c.getK k) i then f acc (c.getV vs1)[i].toNat else acc) identity)) s

/-- VRED.add (R266). -/
def execVredAdd (vd vs1 : VReg) (k : KReg) (s : State) : Out :=
  vred (fun a b => (a + b) % 2 ^ 32) 0 vd vs1 k s

/-- VRED.min (R266). -/
def execVredMin (vd vs1 : VReg) (k : KReg) (s : State) : Out :=
  vred (fun a b => if signedOfNat 32 a < signedOfNat 32 b then a else b) 0x7FFFFFFF vd vs1 k s

/-- VRED.max (R266). -/
def execVredMax (vd vs1 : VReg) (k : KReg) (s : State) : Out :=
  vred (fun a b => if signedOfNat 32 a < signedOfNat 32 b then b else a) 0x80000000 vd vs1 k s

/-- VRED.minu (R266). -/
def execVredMinu (vd vs1 : VReg) (k : KReg) (s : State) : Out :=
  vred (fun a b => Nat.min a b) 0xFFFFFFFF vd vs1 k s

/-- VRED.maxu (R266). -/
def execVredMaxu (vd vs1 : VReg) (k : KReg) (s : State) : Out :=
  vred (fun a b => Nat.max a b) 0 vd vs1 k s

/-- VRED.and (R266). -/
def execVredAnd (vd vs1 : VReg) (k : KReg) (s : State) : Out :=
  vred (fun a b => a &&& b) 0xFFFFFFFF vd vs1 k s

/-- VRED.or (R266). -/
def execVredOr (vd vs1 : VReg) (k : KReg) (s : State) : Out :=
  vred (fun a b => a ||| b) 0 vd vs1 k s

/-- VRED.xor (R266). -/
def execVredXor (vd vs1 : VReg) (k : KReg) (s : State) : Out :=
  vred (fun a b => a ^^^ b) 0 vd vs1 k s

/-! ## Predicate operations (R274) -/

/-- A KOP that writes a k register. -/
def kop (f : Ctx → Half) (kd : KReg) (s : State) : Out := finishArith (modifyMe fun c => c.setK kd (f c)) s

/-- KAND (R274). -/
def execKand (kd ks1 ks2 : KReg) (s : State) : Out :=
  kop (fun c => c.getK ks1 &&& c.getK ks2) kd s

/-- KOR (R274). -/
def execKor (kd ks1 ks2 : KReg) (s : State) : Out :=
  kop (fun c => c.getK ks1 ||| c.getK ks2) kd s

/-- KXOR (R274). -/
def execKxor (kd ks1 ks2 : KReg) (s : State) : Out :=
  kop (fun c => c.getK ks1 ^^^ c.getK ks2) kd s

/-- KNOT (R274). -/
def execKnot (kd ks1 : KReg) (s : State) : Out :=
  kop (fun c => ~~~c.getK ks1) kd s

/-- KMOV kd, ks (R274). -/
def execKmovKK (kd ks1 : KReg) (s : State) : Out :=
  kop (fun c => c.getK ks1) kd s

/-- KMOV kd, xs (R274). -/
def execKmovKX (kd : KReg) (xs1 : XReg) (s : State) : Out :=
  finishArith (do
    let v ← readX xs1
    modifyMe fun c => c.setK kd (v.setWidth 16)) s

/-- KMOV xd, ks (R274). -/
def execKmovXK (xd : XReg) (ks1 : KReg) (s : State) : Out :=
  finishArith (do writeX xd (((← me).getK ks1).setWidth 64)) s

/-- KPOPC (R274). -/
def execKpopc (xd : XReg) (ks1 : KReg) (s : State) : Out :=
  finishArith (do
    let k := (← me).getK ks1
    writeX xd (BitVec.ofNat 64 ((List.finRange 16).countP fun i => enabled k i))) s

end Sys2Proof.Machine
end

