-- ==== Sys2Proof/Machine/VFloat.lean ====
section
/-!
DEFINITION. Floating lane operations (R259 to R263, R267) and the compact lane form (R170).
-/
namespace Sys2Proof.Machine

/-- The format of a TYPE (R259). -/
def typeFmt : FType → FFmt
  | .s => .fp32
  | .hf => .fp16

/-- An operation on the elements of a lane: one FP32 value, or two FP16 values (R259). -/
def fpLane (ty : FType) (f : FFmt → Nat → Nat → Nat × FFlags) (a b : Word) : Nat × FFlags :=
  match ty with
  | .s => f .fp32 a.toNat b.toNat
  | .hf =>
    let lo := f .fp16 (a.toNat % 2 ^ 16) (b.toNat % 2 ^ 16)
    let hi := f .fp16 (a.toNat / 2 ^ 16) (b.toNat / 2 ^ 16)
    (lo.1 + 2 ^ 16 * hi.1, lo.2 ||| hi.2)

/-- A VFOP that rounds under FCSR.RM (R260). -/
def vfRound (ty : FType) (f : FpMode → FFmt → Nat → Nat → Nat × FFlags) (vd vs1 vs2 : VReg) (k : KReg) (s : State) : Out :=
  finishArith (do
    let m ← roundingMode
    let c ← me
    writeFpLanes vd (c.getK k) fun i => fpLane ty (f m) (c.getV vs1)[i] (c.getV vs2)[i]) s

/-- A VFOP that does not round (R261). -/
def vfPlain (ty : FType) (f : FpMode → FFmt → Nat → Nat → Nat × FFlags) (vd vs1 vs2 : VReg) (k : KReg) (s : State) : Out :=
  finishArith (do
    let m ← flushMode
    let c ← me
    writeFpLanes vd (c.getK k) fun i => fpLane ty (f m) (c.getV vs1)[i] (c.getV vs2)[i]) s

/-- VFADD (R260). -/
def execVfadd (ty : FType) (vd vs1 vs2 : VReg) (k : KReg) (s : State) : Out :=
  vfRound ty fpAdd vd vs1 vs2 k s

/-- VFSUB (R260). -/
def execVfsub (ty : FType) (vd vs1 vs2 : VReg) (k : KReg) (s : State) : Out :=
  vfRound ty fpSub vd vs1 vs2 k s

/-- VFMUL (R260). -/
def execVfmul (ty : FType) (vd vs1 vs2 : VReg) (k : KReg) (s : State) : Out :=
  vfRound ty fpMul vd vs1 vs2 k s

/-- VFDIV (R260). -/
def execVfdiv (ty : FType) (vd vs1 vs2 : VReg) (k : KReg) (s : State) : Out :=
  vfRound ty fpDiv vd vs1 vs2 k s

/-- VFSQRT (R260). -/
def execVfsqrt (ty : FType) (vd vs1 : VReg) (k : KReg) (s : State) : Out :=
  vfRound ty (fun m f a _ => fpSqrt m f a) vd vs1 vs1 k s

/-- VFMIN (R261). -/
def execVfmin (ty : FType) (vd vs1 vs2 : VReg) (k : KReg) (s : State) : Out :=
  vfPlain ty (fpMinMax false) vd vs1 vs2 k s

/-- VFMAX (R261). -/
def execVfmax (ty : FType) (vd vs1 vs2 : VReg) (k : KReg) (s : State) : Out :=
  vfPlain ty (fpMinMax true) vd vs1 vs2 k s

/-- VFABS (R261): the sign bit cleared, nothing else touched. -/
def execVfabs (ty : FType) (vd vs1 : VReg) (k : KReg) (s : State) : Out :=
  vfPlain ty (fun _ f a _ => (a % f.signBit, 0#7)) vd vs1 vs1 k s

/-- VFNEG (R261): the sign bit inverted, nothing else touched. -/
def execVfneg (ty : FType) (vd vs1 : VReg) (k : KReg) (s : State) : Out :=
  vfPlain ty (fun _ f a _ => (a ^^^ f.signBit, 0#7)) vd vs1 vs1 k s

/-- VFCMP (R262): its flags are those of the enabled lanes. -/
def vfcmp (cond : FCond) (kd : KReg) (vs1 vs2 : VReg) (k : KReg) (s : State) : Out :=
  finishArith (do
    let m ← flushMode
    let c ← me
    let r : Fin 16 → Bool × FFlags := fun i => fpCompare cond m .fp32 (c.getV vs1)[i].toNat (c.getV vs2)[i].toNat
    raiseFlags ((List.finRange 16).foldl (fun acc i => if enabled (c.getK k) i then acc ||| (r i).2 else acc) 0#7)
    writeMask kd fun i => enabled (c.getK k) i && (r i).1) s

/-- VFCMP.eq (R262). -/
def execVfcmpEq (kd : KReg) (vs1 vs2 : VReg) (k : KReg) (s : State) : Out :=
  vfcmp .eq kd vs1 vs2 k s

/-- VFCMP.lt (R262). -/
def execVfcmpLt (kd : KReg) (vs1 vs2 : VReg) (k : KReg) (s : State) : Out :=
  vfcmp .lt kd vs1 vs2 k s

/-- VFCMP.le (R262). -/
def execVfcmpLe (kd : KReg) (vs1 vs2 : VReg) (k : KReg) (s : State) : Out :=
  vfcmp .le kd vs1 vs2 k s

/-- VFCMP.un (R262). -/
def execVfcmpUn (kd : KReg) (vs1 vs2 : VReg) (k : KReg) (s : State) : Out :=
  vfcmp .un kd vs1 vs2 k s

/-- The multiply-adds (R263). -/
def vfmaOf (negProduct negAddend : Bool) (vd vs1 vs2 vs3 : VReg) (k : KReg) (s : State) : Out :=
  finishArith (do
    let m ← roundingMode
    let c ← me
    writeFpLanes vd (c.getK k) fun i =>
      fpFma negProduct negAddend m .fp32 (c.getV vs1)[i].toNat (c.getV vs2)[i].toNat (c.getV vs3)[i].toNat) s

/-- VFMA (R263). -/
def execVfma (vd vs1 vs2 vs3 : VReg) (k : KReg) (s : State) : Out :=
  vfmaOf false false vd vs1 vs2 vs3 k s

/-- VFMS (R263). -/
def execVfms (vd vs1 vs2 vs3 : VReg) (k : KReg) (s : State) : Out :=
  vfmaOf false true vd vs1 vs2 vs3 k s

/-- VFNMA (R263). -/
def execVfnma (vd vs1 vs2 vs3 : VReg) (k : KReg) (s : State) : Out :=
  vfmaOf true false vd vs1 vs2 vs3 k s

/-- VFRED along the fixed tree of R267; the flags of every step are raised. -/
def vfred (f : Nat → Nat → Nat × FFlags) (identity : Nat) (vd vs1 : VReg) (k : KReg) : Mach Unit := do
  let c ← me
  let t := (List.finRange 16).map fun i => (if enabled (c.getK k) i then (c.getV vs1)[i].toNat else identity, (0#7 : FFlags))
  let step : Nat × FFlags → Nat × FFlags → Nat × FFlags := fun a b =>
    let r := f a.1 b.1
    (r.1, r.2 ||| a.2 ||| b.2)
  let r := (treeOf step 4 t).getD (identity, 0#7)
  raiseFlags r.2
  writeLane0 vd r.1

/-- VFRED.add (R267): under FCSR.RM at every step. -/
def execVfredAdd (vd vs1 : VReg) (k : KReg) (s : State) : Out :=
  finishArith (do
    let m ← roundingMode
    vfred (fpAdd m .fp32) 0x80000000 vd vs1 k) s

/-- VFRED.min (R267). -/
def execVfredMin (vd vs1 : VReg) (k : KReg) (s : State) : Out :=
  finishArith (do
    let m ← flushMode
    vfred (fpMinMax false m .fp32) 0x7F800000 vd vs1 k) s

/-- VFRED.max (R267). -/
def execVfredMax (vd vs1 : VReg) (k : KReg) (s : State) : Out :=
  finishArith (do
    let m ← flushMode
    vfred (fpMinMax true m .fp32) 0xFF800000 vd vs1 k) s

/-- The compact lane form (R170): exactly the instruction its op names, unmasked, with vd its first source. -/
def execCompactLane (op : Fin 16) (vd vs2 : VReg) (s : State) : Out :=
  match op.val with
  | 0 => execVadd .w vd vd vs2 0 s
  | 1 => execVsub .w vd vd vs2 0 s
  | 2 => execVand vd vd vs2 0 s
  | 3 => execVor vd vd vs2 0 s
  | 4 => execVxor vd vd vs2 0 s
  | 5 => execVmin .w vd vd vs2 0 s
  | 6 => execVmax .w vd vd vs2 0 s
  | 7 => execVmov vd vs2 0 s
  | 8 => execVfadd .s vd vd vs2 0 s
  | 9 => execVfsub .s vd vd vs2 0 s
  | 10 => execVfmul .s vd vd vs2 0 s
  | 11 => execVfmin .s vd vd vs2 0 s
  | 12 => execVfmax .s vd vd vs2 0 s
  | 13 => execVfadd .hf vd vd vs2 0 s
  | 14 => execVfmul .hf vd vd vs2 0 s
  | _ => execVshl .w vd vd vs2 0 s

end Sys2Proof.Machine
end

