-- ==== Sys2Proof/Machine/VMem.lean ====
section
/-!
DEFINITION. Vector memory (R268 to R273): raw, typed, lane-slice, gather and scatter accesses, with the page formats of
R41 to R44.
-/
namespace Sys2Proof.Machine

/-- A word of a byte list, by its place. -/
def wordAt (bs : List Byte) (i : Nat) : Word := BitVec.ofNat 32 (numAt bs (4 * i) 4)

/-- The bytes of a register's lanes, lane 0 first. -/
def laneBytes (v : VVal) : List Byte := (List.finRange 16).flatMap fun i => bytesOfNat 4 v[i].toNat

/-- VLD (R269). -/
def execVld (vd : VReg) (base : XReg) (space : Space) (off : BitVec 7) (s : State) : Out :=
  finishArith (do
    let ea := (← readX base) + BitVec.ofNat 64 (off.toNat * 64)
    alignCheck ea 4
    let bs ← loadBytes space ea 64
    writeLanes vd 0xFFFF#16 fun i => wordAt bs i.val) s

/-- VST (R269). -/
def execVst (vd : VReg) (base : XReg) (space : Space) (off : BitVec 7) (s : State) : Out :=
  finishArith (do
    let ea := (← readX base) + BitVec.ofNat 64 (off.toNat * 64)
    alignCheck ea 4
    storeBytes space ea (laneBytes ((← me).getV vd))
    pins) s

/-! ## Lane slices (R271) -/

/-- The checks of a lane-slice offset. -/
def sliceCheck (o : Dword) : Mach Unit := do
  check (o.toNat % 4 == 0) 0x03 o
  check (decide (o.toNat ≤ 0xFFC)) 0x06 o

/-- VLDL (R271). -/
def execVldl (vd : VReg) (base : XReg) (off : BitVec 7) (s : State) : Out :=
  finishArith (do
    let o := (← readX base) + BitVec.ofNat 64 (off.toNat * 4)
    sliceCheck o
    let s ← get
    noteLoads none ((List.finRange 16).map fun i => BitVec.ofNat 64 (laneBase s.cur.1 i.val + o.toNat)) 4
    let cells := (List.finRange 16).flatMap fun i => (List.range 4).map fun j => laneBase s.cur.1 i.val + o.toNat + j
    let got ← forward cells (cells.map s.byte)
    check (!((cells.zip got).any fun p => p.2.2 && s.marked p.1)) 0x0E o
    writeLanes vd 0xFFFF#16 fun i => wordAt (got.map Prod.fst) i.val) s

/-- VSTL (R271). -/
def execVstl (vd : VReg) (base : XReg) (off : BitVec 7) (s : State) : Out :=
  finishArith (do
    let o := (← readX base) + BitVec.ofNat 64 (off.toNat * 4)
    sliceCheck o
    let v := (← me).getV vd
    let core ← myCore
    leaveWith ((List.finRange 16).map fun i =>
      { space := none, ea := BitVec.ofNat 64 (laneBase core i.val + o.toNat), bytes := (bytesOfNat 4 v[i].toNat).map some })
    modify fun s =>
      (List.finRange 16).foldl (fun s i => s.store (laneBase s.cur.1 i.val + o.toNat) (bytesOfNat 4 v[i].toNat)) s
    pins) s

/-! ## Gather and scatter (R272) -/

/-- The addresses of the lanes. -/
def laneAddrs (b : Dword) (v : VVal) : List Dword := (List.finRange 16).map fun i => b + v[i].signExtend 64

/-- The first two checks of R273, each over all lanes before the next. -/
def laneChecks (space : Space) (eas : List Dword) (write : Bool) : Mach Unit := do
  for ea in eas do alignCheck ea 4
  for ea in eas do extentCheck space ea ea 4 write

/-- A lane's access, or the cause that is reported after the others: uncorrectable data, or a refusal of the net pool (R273). -/
def laneTry (m : Mach (List Byte)) : Mach (List Byte × Nat) :=
  tryCatch (do return (← m, 0)) fun e => match e with
    | .trap cause _ => if cause = 0x0E || cause = 0x07 then return ([], cause) else throw e
    | e => throw e

/-- The home's answers for every lane that asks for one (R273, item 3): a load that no copy serves, and a store without a grant on
record. -/
def laneAnswers (space : Space) (eas : List Dword) (write : Bool) : Mach Unit := beforeSeal do
  match space with
  | .global =>
    let a ← myAgent
    let pts := (← me).pts
    for ea in eas do
      for p in ← sitesOf .global ea ea 4 do
        let s ← get
        if if write then !s.grantHeld a p.1 else s.asksHome p.1.key pts (some a.lease) (a.levels p.1) true then
          let _ ← laneTry (do
            let _ ← homeOf a p.1 (if write then .write else .read)
            return [])
  | _ => pure ()

/-- The last checks of R273 over the lanes: uncorrectable data, then a refused shadow. -/
def laneTraps (lanes : List (Dword × Nat)) : Mach Unit := do
  for p in lanes do check (p.2 != 0x0E) 0x0E p.1
  for p in lanes do check (p.2 != 0x07) 0x07 p.1

/-- VGATH (R272). -/
def execVgath (vd : VReg) (base : XReg) (vi : VReg) (space : Space) (s : State) : Out :=
  finishArith (do
    let b ← readX base
    let eas := laneAddrs b ((← me).getV vi)
    laneChecks space eas false
    noteLoads (some space) eas 4
    laneAnswers space eas false
    let parts ← eas.mapM fun ea => laneTry (do
      let (bs, bad) ← fetchBytes space ea ea 4
      check (!bad) 0x0E ea
      return bs)
    laneTraps (eas.zip (parts.map Prod.snd))
    let words := parts.flatMap Prod.fst
    writeLanes vd 0xFFFF#16 fun i => wordAt words i.val) s

/-- VSCAT (R272): lanes in ascending order, so the highest of two that name one word remains. -/
def execVscat (vd : VReg) (base : XReg) (vi : VReg) (space : Space) (s : State) : Out :=
  finishArith (do
    let b ← readX base
    let eas := laneAddrs b ((← me).getV vi)
    let v := (← me).getV vd
    laneChecks space eas true
    laneAnswers space eas true
    let grants ← eas.mapM fun ea => laneTry (do grantBytes space ea ea 4; return [])
    laneTraps (eas.zip (grants.map Prod.snd))
    for ea in eas do probeBytes space ea ea 4
    leaveWith ((eas.zip ((List.finRange 16).map fun i => v[i])).map fun p =>
      { space := some space, ea := p.1, bytes := (bytesOfNat 4 p.2.toNat).map some })
    for p in eas.zip ((List.finRange 16).map fun i => v[i]) do performStore space p.1 (bytesOfNat 4 p.2.toNat)
    pins) s

/-! ## Typed accesses (R41 to R44, R270) -/

/-- The page formats (R42). -/
inductive PageFmt where
  | fp32 | fp16 | bf16 | f8a | f8b | int8 | int32 | dp8 | dp8s
  deriving DecidableEq, Repr

def PageFmt.ofCode : Nat → Option PageFmt
  | 0 => some .fp32 | 1 => some .fp16 | 2 => some .bf16 | 3 => some .f8a | 4 => some .f8b | 5 => some .int8
  | 6 => some .int32 | 7 => some .dp8 | 8 => some .dp8s | _ => none

/-- Bytes of an unscaled element. -/
def PageFmt.bytes : PageFmt → Nat
  | .fp32 | .int32 => 4
  | .fp16 | .bf16 => 2
  | _ => 1

/-- Whether a page is scaled (R42). -/
def PageFmt.scaled (f : PageFmt) (geo : Nat) : Bool :=
  match f with
  | .dp8 | .dp8s => true
  | .f8a | .f8b | .int8 => geo != 0
  | _ => false

/-- Whether a typed access rounds nothing on such a page (R270). -/
def PageFmt.raw : PageFmt → Bool
  | .fp32 | .int32 => true
  | _ => false

/-- Bytes of a scaled block (R43). -/
def PageFmt.block (f : PageFmt) (geo : Nat) : Nat :=
  let n := 8 * 2 ^ geo
  if f = .dp8s then 1 + n / 2 + n / 8 else 1 + n

/-- Where a typed access reaches: the first byte of the elements, the block's first byte, the bytes it covers, and
whether it names a sub-block. -/
structure Typed where
  fmt : PageFmt
  scaled : Bool
  sub : Bool
  block : Dword
  first : Dword
  count : Nat
  deriving DecidableEq, Repr

/-- The page of an address as the home translates it: size, and offset in it. -/
def pageOffset (s : State) (l : Loc) : Nat × Nat :=
  match ((s.tlbOf l).find? (·.covers l.off)).orElse fun _ => leafOf s l with
  | some e => (e.size, l.off % e.size)
  | none => (4096, l.off % 4096)

/-- How many bytes a typed access at `ea` asks the home about, once FMT is known: its elements, or its block as far as it lies in
the page; one byte where FMT is reserved. -/
def typedSpan (s : State) (l : Loc) (f : Option PageFmt) (geo : Nat) : Nat :=
  match f with
  | none => 1
  | some f =>
    if f.scaled geo then
      let (size, off) := pageOffset s l
      max 1 (min (if geo = 1 then f.block geo else 16) (size - off))
    else 16 * f.bytes

/-- The home's answer to the load of a block's scale byte that a store to its sub-block makes, where no copy serves it (R270, R273). -/
def scaleAnswer (block ea : Dword) : Mach Unit := do
  let a ← myAgent
  for p in ← sitesOf .global block ea 1 do
    if (← get).asksHome p.1.key (← me).pts (some a.lease) (a.levels p.1) true then
      let _ ← homeOf a p.1 .read

/-- What a typed access asks of the home and checks of the page (R273, items 3 to 5): the answers for every byte it touches, the
format once the first answer gives FMT and GEO, and RM. TRAPVAL is ea throughout. -/
def typedPlace (ea : Dword) (need : Need) : Mach Typed := do
  let t ← match globalSite (← get) ea ea with
    | some t => pure t
    | none => trap 0x06 ea
  let h ← homeOf (← myAgent) t (if need.writes then .typedWrite else .typedRead)
  let geo := pteGeo h.pte
  let fmt := PageFmt.ofCode (pteFmt h.pte)
  let n := typedSpan (← get) t.loc fmt geo
  if need.writes then grantBytes .global ea ea n
  else
    for p in ← sitesOf .global ea ea n do
      let _ ← homeOf (← myAgent) p.1 need
  if need.writes && 1 < geo && fmt.any fun f => f.scaled geo && f != .dp8 && f != .dp8s then
    let f := fmt.getD .int8
    scaleAnswer (ea - BitVec.ofNat 64 ((pageOffset (← get) t.loc).2 % f.block geo)) ea
  let feature := (← get).feature.toNat
  if pteFmt h.pte = 7 ∨ pteFmt h.pte = 8 then check (bitAt feature 3) 0x09 ea
  if pteFmt h.pte = 8 then check (bitAt feature 4) 0x09 ea
  match fmt with
  | none => trap 0x06 ea
  | some f =>
    if (f = .dp8 ∨ f = .dp8s) ∧ geo ≠ 1 then trap 0x06 ea
    let r ← do
      if f.scaled geo then
        let (size, off) := pageOffset (← get) t.loc
        let b := f.block geo
        let within := off % b
        check (decide (off - within + b ≤ size)) 0x03 ea
        if geo = 1 then
          check (within == 0) 0x03 ea
          pure { fmt := f, scaled := true, sub := false, block := ea, first := ea, count := b }
        else
          check (within == 0 || (within - 1) % 16 == 0) 0x03 ea
          let block := ea - BitVec.ofNat 64 within
          let first := block + BitVec.ofNat 64 (if within = 0 then 1 else within)
          pure { fmt := f, scaled := true, sub := true, block := block, first := first, count := 16 }
      else
        check (ea.toNat % f.bytes == 0) 0x03 ea
        pure { fmt := f, scaled := false, sub := false, block := ea, first := ea, count := 16 * f.bytes }
    if !f.raw then check (← me).fpMode.isSome 0x01 ea
    return r

/-- One element decoded to FP32 under a scale byte, or to INT32 (R44). -/
def decodeElement (m : FpMode) (f : PageFmt) (scaled : Bool) (e w : Nat) : Nat × FFlags :=
  let shift : Int := if scaled then (e : Int) - 127 else 0
  let ofFloat (g : FFmt) : Nat × FFlags :=
    if scaled && e == 0xFF then (FFmt.fp32.canonicalNaN, 0#7) else m.write .fp32 ((m.read g w).scale shift)
  match f with
  | .fp32 => ofFloat .fp32
  | .int32 => (w, 0#7)
  | .fp16 => ofFloat .fp16
  | .bf16 => ofFloat .bf16
  | .f8a => ofFloat .f8a
  | .f8b => ofFloat .f8b
  | .int8 =>
    if !scaled then (wrapInt32 (signedOfNat 8 w), 0#7)
    else if e == 0xFF then (FFmt.fp32.canonicalNaN, 0#7)
    else m.write .fp32 ((FVal.ofInt (signedOfNat 8 w)).scale shift)
  | .dp8 | .dp8s => m.write .fp32 (dp8Scaled e w)
where
  /-- An integer as a 32-bit number. -/
  wrapInt32 (i : Int) : Nat := (i % (2 ^ 32 : Nat)).toNat

/-- One lane encoded into an unscaled element (R270). -/
def encodeElement (m : FpMode) (f : PageFmt) (w : Nat) : Nat × FFlags :=
  let toFloat (g : FFmt) : Nat × FFlags := m.write g (m.read .fp32 w)
  match f with
  | .fp32 | .int32 => (w, 0#7)
  | .fp16 => toFloat .fp16
  | .bf16 => toFloat .bf16
  | .f8a => toFloat .f8a
  | .f8b => toFloat .f8b
  | .int8 => ((roundToInt m.rm 8 (FVal.ofInt (signedOfNat 32 w))).1, 0#7)
  | .dp8 | .dp8s => (0, 0#7)

/-- The rounding of a scaled page's elements. -/
def PageFmt.scaledFmt : PageFmt → ScaledFmt
  | .f8a => .f8a
  | .f8b => .f8b
  | .int8 => .int8
  | _ => .dp8

/-- The four lanes of a DP8S group from its two kept bytes and its metadata (R41); bad metadata gives zeros and SP. -/
def decodeGroup (m : FpMode) (e b0 b1 meta_ : Nat) : List (Nat × FFlags) :=
  let p0 := meta_ % 4
  let p1 := meta_ / 4 % 4
  if p1 ≤ p0 then List.replicate 4 (0, FFlags.sp)
  else
    (List.range 4).map fun i =>
      if i = p0 then decodeElement m .dp8 true e b0
      else if i = p1 then decodeElement m .dp8 true e b1
      else (0, 0#7)

/-- A DP8S block's sixteen lanes (R43). -/
def decodeSparse (m : FpMode) (bs : List Byte) : List (Nat × FFlags) :=
  let at_ := fun i => numAt bs i 1
  (List.range 4).flatMap fun g =>
    decodeGroup m (at_ 0) (at_ (1 + 2 * g)) (at_ (2 + 2 * g)) (at_ (9 + g / 2) / 16 ^ (g % 2) % 16)

/-- The magnitude of a value, for the comparison of R44's groups: none of these is a NaN. -/
def magnitudeLt (a b : FVal) : Bool :=
  let pos : FVal → FVal := fun v => match v with
    | .fin _ m e => .fin false m e
    | .inf _ => .inf false
    | v => v
  compareVal (pos a) (pos b) == .lt

/-- The positions a DP8S group keeps: the two largest magnitudes, the lower position on a tie (R44). -/
def keptPositions (vs : List FVal) : Nat × Nat :=
  let larger : Nat → Nat → Bool := fun i j =>
    match vs[i]?, vs[j]? with
    | some a, some b => magnitudeLt b a || (!magnitudeLt a b && decide (i < j))
    | _, _ => false
  let rank := fun i => ((List.range 4).filter fun j => larger j i).length
  match (List.range 4).filter fun i => rank i < 2 with
  | [a, b] => (a, b)
  | _ => (0, 1)

/-- The six valid metadata codes of a DP8S group (R41). -/
def metaCode (n : Nat) : Nat := ([4, 8, 12, 9, 13, 14][n % 6]?).getD 4

/-- A DP8S block encoded from sixteen lanes (R44): its bytes and flags. Which two positions a group with a NaN keeps the manual does
not say: `free` names one of the six valid codes (assumption log, entry 21). -/
def encodeSparse (m : FpMode) (lanes : List FVal) (free : Nat) : List Byte × FFlags :=
  let e := chooseScale .dp8 lanes
  let groups := (List.range 4).map fun g => (lanes.drop (4 * g)).take 4
  let parts := groups.map fun vs =>
    let nan := vs.any FVal.isNan
    let p := keptPositions vs
    let enc : Nat → Nat × FFlags := fun i =>
      if e = 0xFF then (0x77, 0#7)
      else ScaledFmt.dp8.round m.rm m.fzn (((vs[i]?).getD (.fin false 0 0)).scale (127 - (e : Int)))
    (enc p.1, enc p.2, if nan then metaCode free else p.1 + 4 * p.2)
  let values := parts.flatMap fun p => [BitVec.ofNat 8 p.1.1, BitVec.ofNat 8 p.2.1.1]
  let metas := parts.map fun p => p.2.2
  let pair := fun i => BitVec.ofNat 8 ((metas[i]?).getD 0 + 16 * (metas[i + 1]?).getD 0)
  let flags := parts.foldl (fun acc p => acc ||| p.1.2 ||| p.2.1.2) 0#7
  (BitVec.ofNat 8 e :: (values ++ [pair 0, pair 2]),
    flags ||| flagIf (e == 0xFF && lanes.any FVal.isSignalling) FFlags.nv)

/-- VLDT (R270): the elements decoded into the lanes, their flags raised. -/
def execVldt (vd : VReg) (base : XReg) (off : BitVec 7) (s : State) : Out :=
  finishArith (do
    let ea := (← readX base) + BitVec.ofNat 64 off.toNat
    let p ← typedPlace ea .read
    let m ← flushMode
    let m := { m with rm := (((← me).fpMode).map (·.rm)).getD .rne }
    if p.sub then oneCopyOf [(p.first, p.count), (p.block, 1)] ea
    let (bs, bad) ← fetchBytes .global p.first ea p.count
    let (e, badE) ← if p.sub then fetchBytes .global p.block ea 1 else pure ([], false)
    check (!bad && !badE) 0x0E ea
    let lanes :=
      if p.fmt = .dp8s then decodeSparse m bs
      else if p.scaled then
        let scale := natOfBytes (if p.sub then e else bs.take 1)
        let els := if p.sub then bs else bs.drop 1
        (List.range 16).map fun i => decodeElement m p.fmt true scale (numAt els i 1)
      else (List.range 16).map fun i => decodeElement m p.fmt false 127 (numAt bs (p.fmt.bytes * i) p.fmt.bytes)
    writeFpLanes vd 0xFFFF#16 fun i => (lanes[i.val]?).getD (0, 0#7)) s

/-- VSTT (R270): the lanes encoded into the page's format. -/
def execVstt (vd : VReg) (base : XReg) (off : BitVec 7) (s : State) : Out :=
  finishArith (do
    let ea := (← readX base) + BitVec.ofNat 64 off.toNat
    let v := (← me).getV vd
    let p ← typedPlace ea .write
    let m ← flushMode
    let m := { m with rm := (((← me).fpMode).map (·.rm)).getD .rne }
    grantBytes .global p.first ea p.count
    let (e, badE) ← if p.sub then fetchBytes .global p.block ea 1 else pure ([], false)
    check (!badE) 0x0E ea
    probeBytes .global p.first ea p.count
    let vals := (List.finRange 16).map fun i => m.read .fp32 v[i].toNat
    let free ← modifyGet State.takeFree
    let (bs, flags) :=
      if p.fmt = .dp8s then encodeSparse m vals (Config.freeDword free).toNat
      else if p.sub then
        let scale := if natOfBytes e = 0xFF then 127 else natOfBytes e
        let rs := vals.map fun x => p.fmt.scaledFmt.round m.rm m.fzn (x.scale (127 - (scale : Int)))
        (rs.map fun r => BitVec.ofNat 8 r.1, rs.foldl (fun acc r => acc ||| r.2) 0#7)
      else if p.scaled then
        let r := encodeBlock p.fmt.scaledFmt m.rm m.fzn vals
        (BitVec.ofNat 8 r.1 :: r.2.1.map (BitVec.ofNat 8), r.2.2)
      else
        let rs := (List.finRange 16).map fun i => encodeElement m p.fmt v[i].toNat
        (rs.flatMap fun r => bytesOfNat p.fmt.bytes r.1, rs.foldl (fun acc r => acc ||| r.2) 0#7)
    raiseFlags flags
    leaveWith [{ space := some .global, ea := p.first, bytes := bs.map some }]
    performStore .global p.first bs
    pins) s

end Sys2Proof.Machine
end

