-- ==== Sys2Proof/Machine/Dictionary.lean ====
section
/-!
DEFINITION. The dictionary form (R171 to R173), and the meaning of an instruction by its operands where something other than the
step calls it: a dictionary reference's word, or a packet of the pipe.
-/
namespace Sys2Proof.Machine

/-- The meaning of an instruction that a word of 32 bits or a compact lane instruction encodes; nothing else has one here. -/
def perform (i : Instr) (s : State) : Out :=
  match i with
  | .add rd rs1 rs2 => execAdd rd rs1 rs2 s
  | .sub rd rs1 rs2 => execSub rd rs1 rs2 s
  | .and rd rs1 rs2 => execAnd rd rs1 rs2 s
  | .or rd rs1 rs2 => execOr rd rs1 rs2 s
  | .xor rd rs1 rs2 => execXor rd rs1 rs2 s
  | .andn rd rs1 rs2 => execAndn rd rs1 rs2 s
  | .sll rd rs1 rs2 => execSll rd rs1 rs2 s
  | .srl rd rs1 rs2 => execSrl rd rs1 rs2 s
  | .sra rd rs1 rs2 => execSra rd rs1 rs2 s
  | .slt rd rs1 rs2 => execSlt rd rs1 rs2 s
  | .sltu rd rs1 rs2 => execSltu rd rs1 rs2 s
  | .min rd rs1 rs2 => execMin rd rs1 rs2 s
  | .max rd rs1 rs2 => execMax rd rs1 rs2 s
  | .minu rd rs1 rs2 => execMinu rd rs1 rs2 s
  | .maxu rd rs1 rs2 => execMaxu rd rs1 rs2 s
  | .sel rd rs1 rs2 => execSel rd rs1 rs2 s
  | .clz rd rs1 => execClz rd rs1 s
  | .ctz rd rs1 => execCtz rd rs1 s
  | .popc rd rs1 => execPopc rd rs1 s
  | .addi rd rs1 imm => execAddi rd rs1 imm s
  | .andi rd rs1 imm => execAndi rd rs1 imm s
  | .ori rd rs1 imm => execOri rd rs1 imm s
  | .xori rd rs1 imm => execXori rd rs1 imm s
  | .slti rd rs1 imm => execSlti rd rs1 imm s
  | .sltiu rd rs1 imm => execSltiu rd rs1 imm s
  | .slli rd rs1 shamt => execSlli rd rs1 shamt s
  | .srli rd rs1 shamt => execSrli rd rs1 shamt s
  | .srai rd rs1 shamt => execSrai rd rs1 shamt s
  | .lui rd imm => execLui rd imm s
  | .addpc rd imm => execAddpc rd imm s
  | .mul rd rs1 rs2 w => execMul rd rs1 rs2 w s
  | .mulh rd rs1 rs2 => execMulh rd rs1 rs2 s
  | .mulhu rd rs1 rs2 => execMulhu rd rs1 rs2 s
  | .div rd rs1 rs2 w => execDiv rd rs1 rs2 w s
  | .divu rd rs1 rs2 w => execDivu rd rs1 rs2 w s
  | .rem rd rs1 rs2 w => execRem rd rs1 rs2 w s
  | .remu rd rs1 rs2 w => execRemu rd rs1 rs2 w s
  | .beq rs1 rs2 off => execBeq rs1 rs2 off s
  | .bne rs1 rs2 off => execBne rs1 rs2 off s
  | .blt rs1 rs2 off => execBlt rs1 rs2 off s
  | .bge rs1 rs2 off => execBge rs1 rs2 off s
  | .bltu rs1 rs2 off => execBltu rs1 rs2 off s
  | .bgeu rs1 rs2 off => execBgeu rs1 rs2 off s
  | .jal rd imm => execJal rd imm s
  | .jalr rd rs1 imm => execJalr rd rs1 imm s
  | .loop rc off => execLoop rc off s
  | .loopr rc off => execLoopr rc off s
  | .rep rc n => execRep rc n s
  | .ld rd base size z space off => execLd rd base size z space off s
  | .ldSt rd base size z space scope => execLdSt rd base size z space scope s
  | .st rv base size space off => execSt rv base size space off s
  | .stSt rv base size space scope => execStSt rv base size space scope s
  | .pref base space off => execPref base space off s
  | .amo op size rd rs1 scope acq rel => execAmo op size rd rs1 scope acq rel s
  | .casW rd rs1 rs2 scope acq rel => execCasW rd rs1 rs2 scope acq rel s
  | .casD rd rs1 rs2 scope acq rel => execCasD rd rs1 rs2 scope acq rel s
  | .red op size rs1 rs2 scope rel => execRed op size rs1 rs2 scope rel s
  | .bupd tag rs1 rs2 scope rel => execBupd tag rs1 rs2 scope rel s
  | .fenceAcq scope => execFenceAcq scope s
  | .fenceRel scope => execFenceRel scope s
  | .fenceFull scope => execFenceFull scope s
  | .fenceSp => execFenceSp s
  | .ifence => execIfence s
  | .csrrw rd rs1 csr => execCsrrw rd rs1 csr s
  | .csrrs rd rs1 csr => execCsrrs rd rs1 csr s
  | .csrrc rd rs1 csr => execCsrrc rd rs1 csr s
  | .trap rs1 => execTrap rs1 s
  | .eret => execEret s
  | .wfe => execWfe s
  | .dictLoad rs1 => execDictLoad rs1 s
  | .xlinv rs1 rs2 => execXlinv rs1 rs2 s
  | .bist rd rs1 => execBist rd rs1 s
  | .compactLane op vd vs2 => execCompactLane op vd vs2 s
  | .vadd size vd vs1 vs2 k => execVadd size vd vs1 vs2 k s
  | .vsub size vd vs1 vs2 k => execVsub size vd vs1 vs2 k s
  | .vmul size vd vs1 vs2 k => execVmul size vd vs1 vs2 k s
  | .vmulh size vd vs1 vs2 k => execVmulh size vd vs1 vs2 k s
  | .vand vd vs1 vs2 k => execVand vd vs1 vs2 k s
  | .vor vd vs1 vs2 k => execVor vd vs1 vs2 k s
  | .vxor vd vs1 vs2 k => execVxor vd vs1 vs2 k s
  | .vshl size vd vs1 vs2 k => execVshl size vd vs1 vs2 k s
  | .vshr size vd vs1 vs2 k => execVshr size vd vs1 vs2 k s
  | .vshra size vd vs1 vs2 k => execVshra size vd vs1 vs2 k s
  | .vmin size vd vs1 vs2 k => execVmin size vd vs1 vs2 k s
  | .vmax size vd vs1 vs2 k => execVmax size vd vs1 vs2 k s
  | .vminu size vd vs1 vs2 k => execVminu size vd vs1 vs2 k s
  | .vmaxu size vd vs1 vs2 k => execVmaxu size vd vs1 vs2 k s
  | .vmov vd vs2 k => execVmov vd vs2 k s
  | .vsel vd vs1 vs2 k => execVsel vd vs1 vs2 k s
  | .vcmpEq size kd vs1 vs2 k => execVcmpEq size kd vs1 vs2 k s
  | .vcmpNe size kd vs1 vs2 k => execVcmpNe size kd vs1 vs2 k s
  | .vcmpLt size kd vs1 vs2 k => execVcmpLt size kd vs1 vs2 k s
  | .vcmpGe size kd vs1 vs2 k => execVcmpGe size kd vs1 vs2 k s
  | .vcmpLtu size kd vs1 vs2 k => execVcmpLtu size kd vs1 vs2 k s
  | .vcmpGeu size kd vs1 vs2 k => execVcmpGeu size kd vs1 vs2 k s
  | .vfadd ty vd vs1 vs2 k => execVfadd ty vd vs1 vs2 k s
  | .vfsub ty vd vs1 vs2 k => execVfsub ty vd vs1 vs2 k s
  | .vfmul ty vd vs1 vs2 k => execVfmul ty vd vs1 vs2 k s
  | .vfdiv ty vd vs1 vs2 k => execVfdiv ty vd vs1 vs2 k s
  | .vfsqrt ty vd vs1 k => execVfsqrt ty vd vs1 k s
  | .vfmin ty vd vs1 vs2 k => execVfmin ty vd vs1 vs2 k s
  | .vfmax ty vd vs1 vs2 k => execVfmax ty vd vs1 vs2 k s
  | .vfabs ty vd vs1 k => execVfabs ty vd vs1 k s
  | .vfneg ty vd vs1 k => execVfneg ty vd vs1 k s
  | .vfcmpEq kd vs1 vs2 k => execVfcmpEq kd vs1 vs2 k s
  | .vfcmpLt kd vs1 vs2 k => execVfcmpLt kd vs1 vs2 k s
  | .vfcmpLe kd vs1 vs2 k => execVfcmpLe kd vs1 vs2 k s
  | .vfcmpUn kd vs1 vs2 k => execVfcmpUn kd vs1 vs2 k s
  | .vfma vd vs1 vs2 vs3 k => execVfma vd vs1 vs2 vs3 k s
  | .vfms vd vs1 vs2 vs3 k => execVfms vd vs1 vs2 vs3 k s
  | .vfnma vd vs1 vs2 vs3 k => execVfnma vd vs1 vs2 vs3 k s
  | .vmovx vd xs => execVmovx vd xs s
  | .vext xd vs1 lane => execVext xd vs1 lane s
  | .vshuf vd vs1 vs2 k => execVshuf vd vs1 vs2 k s
  | .vslideUp vd vs1 n k => execVslideUp vd vs1 n k s
  | .vslideDn vd vs1 n k => execVslideDn vd vs1 n k s
  | .vredAdd vd vs1 k => execVredAdd vd vs1 k s
  | .vredMin vd vs1 k => execVredMin vd vs1 k s
  | .vredMax vd vs1 k => execVredMax vd vs1 k s
  | .vredMinu vd vs1 k => execVredMinu vd vs1 k s
  | .vredMaxu vd vs1 k => execVredMaxu vd vs1 k s
  | .vredAnd vd vs1 k => execVredAnd vd vs1 k s
  | .vredOr vd vs1 k => execVredOr vd vs1 k s
  | .vredXor vd vs1 k => execVredXor vd vs1 k s
  | .vfredAdd vd vs1 k => execVfredAdd vd vs1 k s
  | .vfredMin vd vs1 k => execVfredMin vd vs1 k s
  | .vfredMax vd vs1 k => execVfredMax vd vs1 k s
  | .vld vd base space off => execVld vd base space off s
  | .vst vd base space off => execVst vd base space off s
  | .vldt vd base off => execVldt vd base off s
  | .vstt vd base off => execVstt vd base off s
  | .vldl vd base off => execVldl vd base off s
  | .vstl vd base off => execVstl vd base off s
  | .vgath vd base vi space => execVgath vd base vi space s
  | .vscat vd base vi space => execVscat vd base vi space s
  | .kand kd ks1 ks2 => execKand kd ks1 ks2 s
  | .kor kd ks1 ks2 => execKor kd ks1 ks2 s
  | .kxor kd ks1 ks2 => execKxor kd ks1 ks2 s
  | .knot kd ks1 => execKnot kd ks1 s
  | .kmovKK kd ks1 => execKmovKK kd ks1 s
  | .kmovKX kd xs1 => execKmovKX kd xs1 s
  | .kmovXK xd ks1 => execKmovXK xd ks1 s
  | .kpopc xd ks1 => execKpopc xd ks1 s
  | .vcvt src dst vd vs1 k => execVcvt src dst vd vs1 k s
  | .vclass src vd vs1 k => execVclass src vd vs1 k s
  | .mma fmt adv wb acc ringA ringB mask => execMma fmt adv wb acc ringA ringB mask s
  | .mmaSp fmt adv wb acc ringA ringB mask => execMmaSp fmt adv wb acc ringA ringB mask s
  | .mwb fmt adv ringA slot => execMwb fmt adv ringA slot s
  | .mzero acc => execMzero acc s
  | .mst fmt adv acc ring mask => execMst fmt adv acc ring mask s
  | .mlda adv acc ring => execMlda adv acc ring s
  | .mmov dst src => execMmov dst src s
  | .rinit h rs1 => execRinit h rs1 s
  | .cbwait h rs1 n => execCbwait h rs1 n s
  | .cbroom h rs1 n => execCbroom h rs1 n s
  | .cbadv h rs1 n => execCbadv h rs1 n s
  | .cbpub h rs1 n => execCbpub h rs1 n s
  | .bindRd p h esize z => execBindRd p h esize z s
  | .bindWr p h esize => execBindWr p h esize s
  | .unbind p => execUnbind p s
  | .copy dst src cnt ph ord side => execCopy dst src cnt ph ord side s
  | .copyIn dst src cnt ph ord side => execCopyIn dst src cnt ph ord side s
  | .copy2 dst src cnt ph ord side => execCopy2 dst src cnt ph ord side s
  | .gath dst src cnt ph ord side => execGath dst src cnt ph ord side s
  | .collAllred dst src cnt ph ord => execCollAllred dst src cnt ph ord s
  | .collRed dst src cnt ph ord => execCollRed dst src cnt ph ord s
  | .collBcast dst src cnt ph ord => execCollBcast dst src cnt ph ord s
  | .collAllgath dst src cnt ph ord => execCollAllgath dst src cnt ph ord s
  | .collRedscat dst src cnt ph ord => execCollRedscat dst src cnt ph ord s
  | .depo rs1 rs2 scope rel => execDepo rs1 rs2 scope rel s
  | .slcall rd rs1 rs2 ord => execSlcall rd rs1 rs2 ord s
  | .slpush rd rs1 rs2 ord => execSlpush rd rs1 rs2 ord s
  | .phInit rd rs1 rs2 => execPhInit rd rs1 rs2 s
  | .phReg rd rs1 mode => execPhReg rd rs1 mode s
  | .phDrop rd rs1 mode => execPhDrop rd rs1 mode s
  | .phArr rd rs1 => execPhArr rd rs1 s
  | .phWait rd rs1 rs2 st => execPhWait rd rs1 rs2 st s
  | .phTest rd rs1 rs2 => execPhTest rd rs1 rs2 s
  | .phExp rs1 rs2 => execPhExp rs1 rs2 s
  | .phStat rd rs1 => execPhStat rd rs1 s
  | .bar kind rd => execBar kind rd s
  | .spawn rd rs1 => execSpawn rd rs1 s
  | .start rd rs1 rs2 => execStart rd rs1 rs2 s
  | .susp rs1 => execSusp rs1 s
  | .done rs1 => execDone rs1 s
  | .joindec rs1 => execJoindec rs1 s
  | .yield => execYield s
  | .cancel rs1 level hard => execCancel rs1 level hard s
  | .ctrrd rd rs1 level => execCtrrd rd rs1 level s
  | .netOpen rd rs1 rs2 => execNetOpen rd rs1 rs2 s
  | .netKeep rd rs1 => execNetKeep rd rs1 s
  | .netDrop rd rs1 rs2 => execNetDrop rd rs1 rs2 s
  | .netStat rd rs1 => execNetStat rd rs1 s
  | .bharv rs1 => execBharv rs1 s
  | .bquery rd rs1 => execBquery rd rs1 s
  | .axrBegin id stop => execAxrBegin id stop s
  | .axrEnd id => execAxrEnd id s
  | .axrCfg rd id rs1 => execAxrCfg rd id rs1 s
  | .axrInval id => execAxrInval id s
  | .axrStat rd id => execAxrStat rd id s
  | .dictionaryReference _ _ | .footInsertion | .garner | .sidingCompletion | .rejoin
  | .perchEntry | .seal | .panWrite | .depositArrival | .answerArrival
  | .loadDataReturn | .weakStoreAccept | .release | .cacheEviction | .homeRequest
  | .dramRequestAging | .boothMessage | .writeCheck | .shadowProbe | .niTranslation
  | .migRewalk | .portStagingTransfer | .ringWatcherSatisfied | .cbwaitSuspendTimeout | .ringCopyPublish
  | .brineGrantRequest | .bupdApply | .holderRecall | .harvestMerge | .brineDiscardComplete
  | .netDropHomeArrival | .netDropComplete | .netOpenRecord | .fillPacket | .sampleArrival
  | .batchValidationEnd | .trainingStepEnd | .launchTickStart | .launchComplete | .treeReport
  | .enqueue | .autoPop | .steal | .phaserReservation | .phaserWithdrawal
  | .phaserArrival | .engineCompletion | .barrierArrival | .barrierTimeout | .superstepStop
  | .collArrival | .collTimeout | .sluiceCallStart | .wfeWake | .launchqSubmit
  | .launchqPreempt | .launchqResume | .launchqRebase | .launchqUnknown | .preemptArrival
  | .quiesce | .fltresWrite | .migctlGo | .migrationComplete | .lendbanksWrite
  | .netpslotsWrite | .netpbaseWrite | .mgmtownClaim | .mgmtownOwner | .hostLinkDown
  | .dierel | .coldReset | .measurementExtend | .attestationReport | .linkEnWrite
  | .linkStateChange | .flitReceive | .flitNak | .laneRetrain | .cxlLinkChange
  | .vmargWrite | .railSettled | .dramRefreshModeChange | .clusterHotChange | .throttleChange
  | .registerWrite | .upHalf | .downHalf | .lazyReleaseReclaim | .lentBankReclaimDone
  | .dramRefresh | .wfeSpuriousCompletion => .next s

/-- The instruction with another mask, where its format has a k field that a reference may replace (R173). -/
def withMask (i : Instr) (k : KReg) : Option Instr :=
  match i with
  | .vadd size vd vs1 vs2 _ => some (.vadd size vd vs1 vs2 k)
  | .vsub size vd vs1 vs2 _ => some (.vsub size vd vs1 vs2 k)
  | .vmul size vd vs1 vs2 _ => some (.vmul size vd vs1 vs2 k)
  | .vmulh size vd vs1 vs2 _ => some (.vmulh size vd vs1 vs2 k)
  | .vand vd vs1 vs2 _ => some (.vand vd vs1 vs2 k)
  | .vor vd vs1 vs2 _ => some (.vor vd vs1 vs2 k)
  | .vxor vd vs1 vs2 _ => some (.vxor vd vs1 vs2 k)
  | .vshl size vd vs1 vs2 _ => some (.vshl size vd vs1 vs2 k)
  | .vshr size vd vs1 vs2 _ => some (.vshr size vd vs1 vs2 k)
  | .vshra size vd vs1 vs2 _ => some (.vshra size vd vs1 vs2 k)
  | .vmin size vd vs1 vs2 _ => some (.vmin size vd vs1 vs2 k)
  | .vmax size vd vs1 vs2 _ => some (.vmax size vd vs1 vs2 k)
  | .vminu size vd vs1 vs2 _ => some (.vminu size vd vs1 vs2 k)
  | .vmaxu size vd vs1 vs2 _ => some (.vmaxu size vd vs1 vs2 k)
  | .vmov vd vs2 _ => some (.vmov vd vs2 k)
  | .vsel vd vs1 vs2 _ => some (.vsel vd vs1 vs2 k)
  | .vcmpEq size kd vs1 vs2 _ => some (.vcmpEq size kd vs1 vs2 k)
  | .vcmpNe size kd vs1 vs2 _ => some (.vcmpNe size kd vs1 vs2 k)
  | .vcmpLt size kd vs1 vs2 _ => some (.vcmpLt size kd vs1 vs2 k)
  | .vcmpGe size kd vs1 vs2 _ => some (.vcmpGe size kd vs1 vs2 k)
  | .vcmpLtu size kd vs1 vs2 _ => some (.vcmpLtu size kd vs1 vs2 k)
  | .vcmpGeu size kd vs1 vs2 _ => some (.vcmpGeu size kd vs1 vs2 k)
  | .vfadd ty vd vs1 vs2 _ => some (.vfadd ty vd vs1 vs2 k)
  | .vfsub ty vd vs1 vs2 _ => some (.vfsub ty vd vs1 vs2 k)
  | .vfmul ty vd vs1 vs2 _ => some (.vfmul ty vd vs1 vs2 k)
  | .vfdiv ty vd vs1 vs2 _ => some (.vfdiv ty vd vs1 vs2 k)
  | .vfsqrt ty vd vs1 _ => some (.vfsqrt ty vd vs1 k)
  | .vfmin ty vd vs1 vs2 _ => some (.vfmin ty vd vs1 vs2 k)
  | .vfmax ty vd vs1 vs2 _ => some (.vfmax ty vd vs1 vs2 k)
  | .vfabs ty vd vs1 _ => some (.vfabs ty vd vs1 k)
  | .vfneg ty vd vs1 _ => some (.vfneg ty vd vs1 k)
  | .vfcmpEq kd vs1 vs2 _ => some (.vfcmpEq kd vs1 vs2 k)
  | .vfcmpLt kd vs1 vs2 _ => some (.vfcmpLt kd vs1 vs2 k)
  | .vfcmpLe kd vs1 vs2 _ => some (.vfcmpLe kd vs1 vs2 k)
  | .vfcmpUn kd vs1 vs2 _ => some (.vfcmpUn kd vs1 vs2 k)
  | .vfma vd vs1 vs2 vs3 _ => some (.vfma vd vs1 vs2 vs3 k)
  | .vfms vd vs1 vs2 vs3 _ => some (.vfms vd vs1 vs2 vs3 k)
  | .vfnma vd vs1 vs2 vs3 _ => some (.vfnma vd vs1 vs2 vs3 k)
  | .vshuf vd vs1 vs2 _ => some (.vshuf vd vs1 vs2 k)
  | .vslideUp vd vs1 n _ => some (.vslideUp vd vs1 n k)
  | .vslideDn vd vs1 n _ => some (.vslideDn vd vs1 n k)
  | .vredAdd vd vs1 _ => some (.vredAdd vd vs1 k)
  | .vredMin vd vs1 _ => some (.vredMin vd vs1 k)
  | .vredMax vd vs1 _ => some (.vredMax vd vs1 k)
  | .vredMinu vd vs1 _ => some (.vredMinu vd vs1 k)
  | .vredMaxu vd vs1 _ => some (.vredMaxu vd vs1 k)
  | .vredAnd vd vs1 _ => some (.vredAnd vd vs1 k)
  | .vredOr vd vs1 _ => some (.vredOr vd vs1 k)
  | .vredXor vd vs1 _ => some (.vredXor vd vs1 k)
  | .vfredAdd vd vs1 _ => some (.vfredAdd vd vs1 k)
  | .vfredMin vd vs1 _ => some (.vfredMin vd vs1 k)
  | .vfredMax vd vs1 _ => some (.vfredMax vd vs1 k)
  | .vcvt src dst vd vs1 _ => some (.vcvt src dst vd vs1 k)
  | .vclass src vd vs1 _ => some (.vclass src vd vs1 k)
  | _ => none

/-- Whether a dictionary word may not stand there whatever it does (R173). -/
def refusedInDictionary : Instr → Bool
  | .beq .. | .bne .. | .blt .. | .bge .. | .bltu .. | .bgeu .. | .jal .. | .jalr .. | .loop .. | .loopr .. | .rep .. => true
  | .axrBegin .. | .axrEnd .. | .axrCfg .. | .axrInval .. | .axrStat .. | .dictLoad .. => true
  | _ => false

/-- The instruction a dictionary reference enters as, or none where it traps with cause 0x01 (R173, R239): a word with bit 0
clear traps, whatever it would decode to. -/
def State.referred (s : State) (index : Fin 1024) (override : KReg) : Option Instr :=
  let word := (s.dictWord index.val).toNat
  match if word % 2 = 0 then none else decoded word true with
  | none => none
  | some i =>
    if refusedInDictionary i || (s.me.rep.st == .reissuing && refusedInClause i) then none
    else if override = 0 then some i
    else withMask i override

/-- DICTIONARY_REFERENCE (R171, R173): the word it names executes in its place. -/
def execDictionaryReference (index : Fin 1024) (override : KReg) (s : State) : Out :=
  if !isArith s.cur.1 then finish (trap 0x01 s.me.ir) s
  else match s.referred index override with
    | none => finish (trap 0x01 s.me.ir) s
    | some i => perform i s

/-- The meaning of any instruction the fetch can give. -/
def performAny (i : Instr) (s : State) : Out :=
  match i with
  | .dictionaryReference index override => execDictionaryReference index override s
  | i => perform i s

end Sys2Proof.Machine
end

