-- ==== Sys2Proof/Machine/Packets.lean ====
section
/-!
DEFINITION. What the pipe needs to know of an instruction: the registers it reads and writes through the pan (R19, R23), its home
stage (R18), and when its effect takes place (R24, R28, R309).
Registers are numbered 0 to 63 for x, 64 to 95 for v and 96 to 103 for k, before rotation.
-/
namespace Sys2Proof.Machine

/-- The sources of a vector instruction under a mask: the destination is one unless the mask is k0 (R253). -/
def underMask (vd : VReg) (k : KReg) (others : List Nat) : List Nat :=
  if k = 0 then others else (64 + vd.val) :: (96 + k.val) :: others

/-- The registers an instruction reads. -/
def sourcesOf (i : Instr) : List Nat :=
  match i with
  | .add _ rs1 rs2 => [rs1.val, rs2.val]
  | .sub _ rs1 rs2 => [rs1.val, rs2.val]
  | .and _ rs1 rs2 => [rs1.val, rs2.val]
  | .or _ rs1 rs2 => [rs1.val, rs2.val]
  | .xor _ rs1 rs2 => [rs1.val, rs2.val]
  | .andn _ rs1 rs2 => [rs1.val, rs2.val]
  | .sll _ rs1 rs2 => [rs1.val, rs2.val]
  | .srl _ rs1 rs2 => [rs1.val, rs2.val]
  | .sra _ rs1 rs2 => [rs1.val, rs2.val]
  | .slt _ rs1 rs2 => [rs1.val, rs2.val]
  | .sltu _ rs1 rs2 => [rs1.val, rs2.val]
  | .min _ rs1 rs2 => [rs1.val, rs2.val]
  | .max _ rs1 rs2 => [rs1.val, rs2.val]
  | .minu _ rs1 rs2 => [rs1.val, rs2.val]
  | .maxu _ rs1 rs2 => [rs1.val, rs2.val]
  | .sel rd rs1 rs2 => [rd.val, rs1.val, rs2.val]
  | .clz _ rs1 => [rs1.val]
  | .ctz _ rs1 => [rs1.val]
  | .popc _ rs1 => [rs1.val]
  | .addi _ rs1 _ => [rs1.val]
  | .andi _ rs1 _ => [rs1.val]
  | .ori _ rs1 _ => [rs1.val]
  | .xori _ rs1 _ => [rs1.val]
  | .slti _ rs1 _ => [rs1.val]
  | .sltiu _ rs1 _ => [rs1.val]
  | .slli _ rs1 _ => [rs1.val]
  | .srli _ rs1 _ => [rs1.val]
  | .srai _ rs1 _ => [rs1.val]
  | .mul _ rs1 rs2 _ => [rs1.val, rs2.val]
  | .mulh _ rs1 rs2 => [rs1.val, rs2.val]
  | .mulhu _ rs1 rs2 => [rs1.val, rs2.val]
  | .div _ rs1 rs2 _ => [rs1.val, rs2.val]
  | .divu _ rs1 rs2 _ => [rs1.val, rs2.val]
  | .rem _ rs1 rs2 _ => [rs1.val, rs2.val]
  | .remu _ rs1 rs2 _ => [rs1.val, rs2.val]
  | .beq rs1 rs2 _ => [rs1.val, rs2.val]
  | .bne rs1 rs2 _ => [rs1.val, rs2.val]
  | .blt rs1 rs2 _ => [rs1.val, rs2.val]
  | .bge rs1 rs2 _ => [rs1.val, rs2.val]
  | .bltu rs1 rs2 _ => [rs1.val, rs2.val]
  | .bgeu rs1 rs2 _ => [rs1.val, rs2.val]
  | .jalr _ rs1 _ => [rs1.val]
  | .loop rc _ => [rc.val]
  | .loopr rc _ => [rc.val]
  | .rep rc _ => [rc.val]
  | .ld _ base _ _ _ _ => [base.val]
  | .ldSt _ base _ _ _ _ => [base.val]
  | .st rv base _ _ _ => [rv.val, base.val]
  | .stSt rv base _ _ _ => [rv.val, base.val]
  | .pref base _ _ => [base.val]
  | .amo _ _ rd rs1 _ _ _ => [rd.val, rs1.val]
  | .casW rd rs1 rs2 _ _ _ => [rd.val, rs1.val, rs2.val]
  | .casD rd rs1 rs2 _ _ _ => [rd.val, rs1.val, rs2.val]
  | .red _ _ rs1 rs2 _ _ => [rs1.val, rs2.val]
  | .bupd _ rs1 rs2 _ _ => [rs1.val, rs2.val]
  | .csrrw _ rs1 _ => [rs1.val]
  | .csrrs _ rs1 _ => [rs1.val]
  | .csrrc _ rs1 _ => [rs1.val]
  | .trap rs1 => [rs1.val]
  | .dictLoad rs1 => [rs1.val]
  | .xlinv rs1 rs2 => [rs1.val, rs2.val]
  | .bist _ rs1 => [rs1.val]
  | .compactLane op vd vs2 => if op.val = 7 then [64 + vs2.val] else [64 + vd.val, 64 + vs2.val]
  | .vadd _ vd vs1 vs2 k => underMask vd k [64 + vs1.val, 64 + vs2.val]
  | .vsub _ vd vs1 vs2 k => underMask vd k [64 + vs1.val, 64 + vs2.val]
  | .vmul _ vd vs1 vs2 k => underMask vd k [64 + vs1.val, 64 + vs2.val]
  | .vmulh _ vd vs1 vs2 k => underMask vd k [64 + vs1.val, 64 + vs2.val]
  | .vand vd vs1 vs2 k => underMask vd k [64 + vs1.val, 64 + vs2.val]
  | .vor vd vs1 vs2 k => underMask vd k [64 + vs1.val, 64 + vs2.val]
  | .vxor vd vs1 vs2 k => underMask vd k [64 + vs1.val, 64 + vs2.val]
  | .vshl _ vd vs1 vs2 k => underMask vd k [64 + vs1.val, 64 + vs2.val]
  | .vshr _ vd vs1 vs2 k => underMask vd k [64 + vs1.val, 64 + vs2.val]
  | .vshra _ vd vs1 vs2 k => underMask vd k [64 + vs1.val, 64 + vs2.val]
  | .vmin _ vd vs1 vs2 k => underMask vd k [64 + vs1.val, 64 + vs2.val]
  | .vmax _ vd vs1 vs2 k => underMask vd k [64 + vs1.val, 64 + vs2.val]
  | .vminu _ vd vs1 vs2 k => underMask vd k [64 + vs1.val, 64 + vs2.val]
  | .vmaxu _ vd vs1 vs2 k => underMask vd k [64 + vs1.val, 64 + vs2.val]
  | .vmov vd vs2 k => underMask vd k [64 + vs2.val]
  | .vsel _ vs1 vs2 k => [64 + vs1.val, 64 + vs2.val, 96 + k.val]
  | .vcmpEq _ _ vs1 vs2 k => [64 + vs1.val, 64 + vs2.val, 96 + k.val]
  | .vcmpNe _ _ vs1 vs2 k => [64 + vs1.val, 64 + vs2.val, 96 + k.val]
  | .vcmpLt _ _ vs1 vs2 k => [64 + vs1.val, 64 + vs2.val, 96 + k.val]
  | .vcmpGe _ _ vs1 vs2 k => [64 + vs1.val, 64 + vs2.val, 96 + k.val]
  | .vcmpLtu _ _ vs1 vs2 k => [64 + vs1.val, 64 + vs2.val, 96 + k.val]
  | .vcmpGeu _ _ vs1 vs2 k => [64 + vs1.val, 64 + vs2.val, 96 + k.val]
  | .vfadd _ vd vs1 vs2 k => underMask vd k [64 + vs1.val, 64 + vs2.val]
  | .vfsub _ vd vs1 vs2 k => underMask vd k [64 + vs1.val, 64 + vs2.val]
  | .vfmul _ vd vs1 vs2 k => underMask vd k [64 + vs1.val, 64 + vs2.val]
  | .vfdiv _ vd vs1 vs2 k => underMask vd k [64 + vs1.val, 64 + vs2.val]
  | .vfsqrt _ vd vs1 k => underMask vd k [64 + vs1.val]
  | .vfmin _ vd vs1 vs2 k => underMask vd k [64 + vs1.val, 64 + vs2.val]
  | .vfmax _ vd vs1 vs2 k => underMask vd k [64 + vs1.val, 64 + vs2.val]
  | .vfabs _ vd vs1 k => underMask vd k [64 + vs1.val]
  | .vfneg _ vd vs1 k => underMask vd k [64 + vs1.val]
  | .vfcmpEq _ vs1 vs2 k => [64 + vs1.val, 64 + vs2.val, 96 + k.val]
  | .vfcmpLt _ vs1 vs2 k => [64 + vs1.val, 64 + vs2.val, 96 + k.val]
  | .vfcmpLe _ vs1 vs2 k => [64 + vs1.val, 64 + vs2.val, 96 + k.val]
  | .vfcmpUn _ vs1 vs2 k => [64 + vs1.val, 64 + vs2.val, 96 + k.val]
  | .vfma vd vs1 vs2 vs3 k => underMask vd k [64 + vs1.val, 64 + vs2.val, 64 + vs3.val]
  | .vfms vd vs1 vs2 vs3 k => underMask vd k [64 + vs1.val, 64 + vs2.val, 64 + vs3.val]
  | .vfnma vd vs1 vs2 vs3 k => underMask vd k [64 + vs1.val, 64 + vs2.val, 64 + vs3.val]
  | .vmovx _ xs => [xs.val]
  | .vext _ vs1 _ => [64 + vs1.val]
  | .vshuf vd vs1 vs2 k => underMask vd k [64 + vs1.val, 64 + vs2.val]
  | .vslideUp vd vs1 _ k => underMask vd k [64 + vs1.val]
  | .vslideDn vd vs1 _ k => underMask vd k [64 + vs1.val]
  | .vredAdd _ vs1 k => [64 + vs1.val, 96 + k.val]
  | .vredMin _ vs1 k => [64 + vs1.val, 96 + k.val]
  | .vredMax _ vs1 k => [64 + vs1.val, 96 + k.val]
  | .vredMinu _ vs1 k => [64 + vs1.val, 96 + k.val]
  | .vredMaxu _ vs1 k => [64 + vs1.val, 96 + k.val]
  | .vredAnd _ vs1 k => [64 + vs1.val, 96 + k.val]
  | .vredOr _ vs1 k => [64 + vs1.val, 96 + k.val]
  | .vredXor _ vs1 k => [64 + vs1.val, 96 + k.val]
  | .vfredAdd _ vs1 k => [64 + vs1.val, 96 + k.val]
  | .vfredMin _ vs1 k => [64 + vs1.val, 96 + k.val]
  | .vfredMax _ vs1 k => [64 + vs1.val, 96 + k.val]
  | .vld _ base _ _ => [base.val]
  | .vst vd base _ _ => [64 + vd.val, base.val]
  | .vldt _ base _ => [base.val]
  | .vstt vd base _ => [64 + vd.val, base.val]
  | .vldl _ base _ => [base.val]
  | .vstl vd base _ => [64 + vd.val, base.val]
  | .vgath _ base vi _ => [base.val, 64 + vi.val]
  | .vscat vd base vi _ => [64 + vd.val, base.val, 64 + vi.val]
  | .kand _ ks1 ks2 => [96 + ks1.val, 96 + ks2.val]
  | .kor _ ks1 ks2 => [96 + ks1.val, 96 + ks2.val]
  | .kxor _ ks1 ks2 => [96 + ks1.val, 96 + ks2.val]
  | .knot _ ks1 => [96 + ks1.val]
  | .kmovKK _ ks1 => [96 + ks1.val]
  | .kmovKX _ xs1 => [xs1.val]
  | .kmovXK _ ks1 => [96 + ks1.val]
  | .kpopc _ ks1 => [96 + ks1.val]
  | .vcvt _ _ vd vs1 k => underMask vd k [64 + vs1.val]
  | .vclass _ vd vs1 k => underMask vd k [64 + vs1.val]
  | .mma _ _ _ _ _ _ mask => [mask.val]
  | .mmaSp _ _ _ _ _ _ mask => [mask.val]
  | .mst _ _ _ _ mask => [mask.val]
  | .rinit _ rs1 => [rs1.val]
  | .cbwait _ rs1 _ => [rs1.val]
  | .cbroom _ rs1 _ => [rs1.val]
  | .cbadv _ rs1 _ => [rs1.val]
  | .cbpub _ rs1 _ => [rs1.val]
  | .copy dst src cnt ph _ _ => [16 + dst.val, 16 + src.val, 16 + cnt.val, 16 + ph.val]
  | .copyIn dst src cnt ph _ _ => [16 + dst.val, 16 + src.val, 16 + cnt.val, 16 + ph.val]
  | .copy2 dst src cnt ph _ _ => [16 + dst.val, 16 + src.val, 16 + cnt.val, 16 + ph.val]
  | .gath dst src cnt ph _ _ => [16 + dst.val, 16 + src.val, 16 + cnt.val, 16 + ph.val]
  | .collAllred dst src cnt ph _ => [16 + dst.val, 16 + src.val, 16 + cnt.val, 16 + ph.val]
  | .collRed dst src cnt ph _ => [16 + dst.val, 16 + src.val, 16 + cnt.val, 16 + ph.val]
  | .collBcast dst src cnt ph _ => [16 + dst.val, 16 + src.val, 16 + cnt.val, 16 + ph.val]
  | .collAllgath dst src cnt ph _ => [16 + dst.val, 16 + src.val, 16 + cnt.val, 16 + ph.val]
  | .collRedscat dst src cnt ph _ => [16 + dst.val, 16 + src.val, 16 + cnt.val, 16 + ph.val]
  | .depo rs1 rs2 _ _ => [rs1.val, rs2.val]
  | .slcall _ rs1 rs2 _ => [rs1.val, rs2.val]
  | .slpush _ rs1 rs2 _ => [rs1.val, rs2.val]
  | .phInit _ rs1 rs2 => [rs1.val, rs2.val]
  | .phReg _ rs1 _ => [rs1.val]
  | .phDrop _ rs1 _ => [rs1.val]
  | .phArr _ rs1 => [rs1.val]
  | .phWait _ rs1 rs2 _ => [rs1.val, rs2.val]
  | .phTest _ rs1 rs2 => [rs1.val, rs2.val]
  | .phExp rs1 rs2 => [rs1.val, rs2.val]
  | .phStat _ rs1 => [rs1.val]
  | .spawn _ rs1 => [rs1.val]
  | .start _ rs1 rs2 => [rs1.val, rs2.val]
  | .susp rs1 => [rs1.val]
  | .done rs1 => [rs1.val]
  | .joindec rs1 => [rs1.val]
  | .cancel rs1 _ _ => [rs1.val]
  | .ctrrd _ rs1 _ => [rs1.val]
  | .netOpen _ rs1 rs2 => [rs1.val, rs2.val]
  | .netKeep _ rs1 => [rs1.val]
  | .netDrop _ rs1 rs2 => [rs1.val, rs2.val]
  | .netStat _ rs1 => [rs1.val]
  | .bharv rs1 => [rs1.val]
  | .bquery _ rs1 => [rs1.val]
  | .axrCfg _ _ rs1 => [rs1.val]
  | _ => []

/-- The physical register of a number under a window offset (R13). -/
def physReg (wofs : Dword) (r : Nat) : Nat := if r < 64 then (rotate wofs (Fin.ofNat 64 r)).val else r

/-- Integer instructions of S2 that execute inline, branches aside (R17, R18). -/
def isAlu : Instr → Bool
  | .add .. | .sub .. | .and .. | .or .. | .xor .. | .andn .. | .sll .. | .srl .. | .sra .. | .slt .. | .sltu .. => true
  | .min .. | .max .. | .minu .. | .maxu .. | .sel .. | .clz .. | .ctz .. | .popc .. => true
  | .addi .. | .andi .. | .ori .. | .xori .. | .slti .. | .sltiu .. | .slli .. | .srli .. | .srai .. => true
  | .lui .. | .addpc .. => true
  | .kand .. | .kor .. | .kxor .. | .knot .. | .kmovKK .. | .kmovKX .. | .kmovXK .. | .kpopc .. => true
  | _ => false

/-- Branches and jumps, which resolve at S2 (R33); LOOPR and REP hold the foot and are not among them. -/
def isBranch : Instr → Bool
  | .beq .. | .bne .. | .blt .. | .bge .. | .bltu .. | .bgeu .. | .jal .. | .jalr .. | .loop .. => true
  | _ => false

def isMulDiv : Instr → Bool
  | .mul .. | .mulh .. | .mulhu .. | .div .. | .divu .. | .rem .. | .remu .. => true
  | _ => false

/-- Vector instructions that execute inline at S4 (R17). -/
def isVInt : Instr → Bool
  | .vadd .. | .vsub .. | .vmul .. | .vmulh .. | .vand .. | .vor .. | .vxor .. | .vshl .. | .vshr .. | .vshra .. => true
  | .vmin .. | .vmax .. | .vminu .. | .vmaxu .. | .vmov .. | .vsel .. => true
  | .vcmpEq .. | .vcmpNe .. | .vcmpLt .. | .vcmpGe .. | .vcmpLtu .. | .vcmpGeu .. => true
  | .vmovx .. | .vext .. | .vshuf .. | .vslideUp .. | .vslideDn .. => true
  | .compactLane op _ _ => op.val < 8 || op.val = 15
  | _ => false

/-- Vector instructions that take one of the four places of the S4 siding (R17, R254). -/
def isVFp : Instr → Bool
  | .vfadd .. | .vfsub .. | .vfmul .. | .vfdiv .. | .vfsqrt .. | .vfmin .. | .vfmax .. | .vfabs .. | .vfneg .. => true
  | .vfcmpEq .. | .vfcmpLt .. | .vfcmpLe .. | .vfcmpUn .. | .vfma .. | .vfms .. | .vfnma .. => true
  | .vredAdd .. | .vredMin .. | .vredMax .. | .vredMinu .. | .vredMaxu .. | .vredAnd .. | .vredOr .. | .vredXor .. => true
  | .vfredAdd .. | .vfredMin .. | .vfredMax .. | .vcvt .. | .vclass .. => true
  | .compactLane op _ _ => 8 ≤ op.val && op.val < 15
  | _ => false

/-- Loads of memory, which are performed from the S5 siding before their seal (R28). -/
def isLoad : Instr → Bool
  | .ld .. | .ldSt .. | .pref .. | .vld .. | .vldt .. | .vldl .. | .vgath .. | .dictLoad .. => true
  | _ => false

/-- PREF, which orders nothing and is ordered by nothing (R251). -/
def isPref : Instr → Bool
  | .pref .. => true
  | _ => false

/-- VSTT, which loads the scale byte of its block (R270). -/
def isVstt : Instr → Bool
  | .vstt .. => true
  | _ => false

/-- What loads bytes before its seal, in order with its context's other loads of them (R77). -/
def isOrderedLoad (i : Instr) : Bool := (isLoad i && !isPref i) || isVstt i

/-- Loads whose data returns from global or `.lw` memory (R70, R84). -/
def isGlobalLoad : Instr → Bool
  | .ld _ _ _ _ space _ | .ldSt _ _ _ _ space _ | .pref _ space _ | .vld _ _ space _ | .vgath _ _ _ space =>
    space == .global || space == .lw
  | .vldt .. | .dictLoad .. => true
  | _ => false

/-- Acquires whose value a later access waits for (R80). -/
def isAcquireLoad : Instr → Bool
  | .ldSt .. | .fenceAcq .. => true
  | _ => false

/-- Weak stores that the cluster cache accepts after their seal (R89). -/
def isGlobalStore : Instr → Bool
  | .st _ _ _ space _ | .vst _ _ space _ | .vscat _ _ _ space => space == .global || space == .lw
  | .vstt .. => true
  | _ => false

/-- Strong stores of global memory (R91). -/
def isStrongGlobal : Instr → Bool
  | .stSt _ _ _ space _ => space == .global || space == .lw
  | _ => false

/-- Fences that leave at seal and perform a release afterwards (R315). -/
def isRelease : Instr → Bool
  | .fenceRel .. | .fenceFull .. => true
  | _ => false

def isFullFence : Instr → Bool
  | .fenceFull .. => true
  | _ => false

/-- FENCE `.sp`, from whose seal later accesses wait for earlier near stores (R315). -/
def isFenceSp : Instr → Bool
  | .fenceSp => true
  | _ => false

/-- What the net registry answers in program order (R348). -/
def isNetCmd : Instr → Bool
  | .netOpen .. | .netKeep .. | .netDrop .. | .netStat .. => true
  | _ => false

def isPhExp : Instr → Bool
  | .phExp .. => true
  | _ => false

def isDictLoad : Instr → Bool
  | .dictLoad .. => true
  | _ => false

def isMst : Instr → Bool
  | .mst .. => true
  | _ => false

def isBupd : Instr → Bool
  | .bupd .. => true
  | _ => false

def isEret : Instr → Bool
  | .eret => true
  | _ => false

def isAxrBegin : Instr → Bool
  | .axrBegin .. => true
  | _ => false

/-- BIND and UNBIND, which act on a context's ports as they stand (R65, R294). -/
def isBinding : Instr → Bool
  | .bindRd .. | .bindWr .. | .unbind .. => true
  | _ => false

/-- Matrix instructions (R18). -/
def isMatrix : Instr → Bool
  | .mma .. | .mmaSp .. | .mwb .. | .mzero .. | .mst .. | .mlda .. | .mmov .. => true
  | _ => false

/-- DONE, SUSP and YIELD, complete in the lane at S5 (R342). -/
def isUnitEnd : Instr → Bool
  | .done .. | .susp .. | .yield => true
  | _ => false

/-- CSR writes (R183). -/
def writesCsr : Instr → Bool
  | .csrrw .. => true
  | .csrrs _ rs1 _ | .csrrc _ rs1 _ => rs1 != 0
  | _ => false

/-- A CSR of the steward level, per die or per bridge (R337). -/
def isStewardCsr : Instr → Bool
  | .csrrw _ _ n | .csrrs _ _ n | .csrrc _ _ n => 0x100 ≤ n.toNat
  | _ => false

/-- CSR instructions, which execute only when every older packet of their context is sealed (R331). -/
def isCsr : Instr → Bool
  | .csrrw .. | .csrrs .. | .csrrc .. => true
  | _ => false

/-- Instructions of majors SYS but DICT.LOAD, and LOOPR and REP (R18). -/
def isSys (i : Instr) : Bool :=
  isCsr i || match i with
  | .trap .. | .eret | .wfe | .loopr .. | .rep .. => true
  | _ => false

/-- When an instruction takes effect. -/
inductive Manner where
  /-- Whole, before its seal: a value computed in the pipe, or a read. -/
  | early
  /-- Before its seal, into a private copy that replaces the core's own state at the seal (R35). -/
  | commit
  /-- Its checks before its seal, its effect on its context at the seal. -/
  | sealed
  /-- Its checks before its seal; its effect leaves the core afterwards (R28). -/
  | sent
  /-- The same, and an answer returns (R154, R309). -/
  | answered
  deriving DecidableEq, Repr

def isSlpush : Instr → Bool
  | .slpush .. => true
  | _ => false

/-- The manner of an instruction (R28, R35, R154, R309). -/
def manner (i : Instr) : Manner :=
  if isMatrix i || writesCsr i then (if isMatrix i then .commit else .sealed)
  else match i with
  | .cbadv .. | .cbpub .. | .dictLoad .. => .commit
  | .loopr .. | .eret | .wfe | .ifence | .rinit .. | .bindRd .. | .bindWr .. | .unbind .. => .sealed
  | .axrEnd .. | .axrInval .. | .cancel .. => .sealed
  | .st .. | .stSt .. | .vst .. | .vstt .. | .vstl .. | .vscat .. | .red .. | .bupd .. => .sent
  | .fenceRel .. | .fenceFull .. | .fenceSp => .sent
  | .copy .. | .copyIn .. | .copy2 .. | .gath .. | .slcall .. | .depo .. | .joindec .. | .netKeep .. | .netDrop .. => .sent
  | .collAllred .. | .collRed .. | .collBcast .. | .collAllgath .. | .collRedscat .. => .sent
  | .amo .. | .casW .. | .casD .. | .netOpen .. | .phInit .. | .phReg .. | .phDrop .. | .phArr .. | .phWait .. => .answered
  | .phTest .. | .phStat .. | .bar .. | .spawn .. | .start .. | .ctrrd .. | .axrCfg .. | .xlinv .. | .bist .. => .answered
  | .slpush .. | .done .. | .susp .. | .yield => .answered
  | _ => .early

/-- The home stage (R18). -/
def homeStage (i : Instr) : Nat :=
  if isAlu i || isBranch i || isSys i then 2
  else if isMulDiv i then 3
  else if isVInt i || isVFp i then 4
  else if isMatrix i then 6
  else 5

def isFill : Instr → Bool
  | .fillPacket => true
  | _ => false

/-- Whether it executes in the lane (R17, R342); a fill packet takes the value that its BEGIN has from the engine (R129). -/
def isInline (i : Instr) : Bool := isAlu i || isBranch i || isSys i || isVInt i || isUnitEnd i || isFill i

/-- Instructions that hold their context's foot until they have executed (R238, R293). -/
def holdsUntilExecuted : Instr → Bool
  | .rep .. | .cbwait .. | .cbroom .. => true
  | _ => false

/-- Instructions that hold their context's foot until they are sealed (R24, R293, R294, R315, R316, R334), a WFE until its wait, which
follows, has ended (R333). -/
def holdsUntilSealed (i : Instr) : Bool :=
  writesCsr i || match i with
  | .loopr .. | .eret | .dictLoad .. | .ifence | .rinit .. | .bindRd .. | .bindWr .. | .unbind .. | .wfe => true
  | .fenceAcq .. | .fenceRel .. | .fenceFull .. | .fenceSp => true
  | _ => false

/-- Whether it holds its context's foot from its insertion; an answered instruction does until its answer is written (R154, R309). -/
def holdsFoot (i : Instr) : Bool := holdsUntilExecuted i || holdsUntilSealed i || manner i == .answered

/-- What waits, once it is sealed, for every earlier effect of its context to be performed: releases, and commands that acquire (R79, R94,
R96). -/
def isReleasing : Instr → Bool
  | .stSt .. | .fenceRel .. | .fenceFull .. => true
  | .amo _ _ _ _ _ _ rel | .casW _ _ _ _ _ rel | .casD _ _ _ _ _ rel | .red _ _ _ _ _ rel | .bupd _ _ _ _ rel => rel
  | .copy _ _ _ _ ord _ | .copyIn _ _ _ _ ord _ | .copy2 _ _ _ _ ord _ | .gath _ _ _ _ ord _ => ord.acq
  | .collAllred _ _ _ _ ord | .collRed _ _ _ _ ord | .collBcast _ _ _ _ ord | .collAllgath _ _ _ _ ord => ord.acq
  | .collRedscat _ _ _ _ ord | .slcall _ _ _ ord => ord.acq
  | .slpush _ _ _ ord => ord.acq || ord.rel
  | .depo _ _ _ rel => rel
  | .phInit .. | .phReg .. | .phDrop .. | .phArr .. | .bar .. | .spawn .. | .start .. | .joindec .. => true
  | .done .. | .susp .. | .yield | .netOpen .. | .netKeep .. | .netDrop .. => true
  | _ => false

/-- Strong accesses that write (R81): the strong order of a context's own is its program order. -/
def isStrongWrite : Instr → Bool
  | .stSt .. => true
  | .amo _ _ _ _ _ acq rel | .casW _ _ _ _ acq rel | .casD _ _ _ _ acq rel => acq || rel
  | .red _ _ _ _ _ rel => rel
  | _ => false

/-- Packets whose seal pins an active region (R134). -/
def isPinning (i : Instr) : Bool :=
  writesCsr i || match i with
  | .loopr .. | .st .. | .stSt .. | .vst .. | .vstt .. | .vstl .. | .vscat .. | .mst .. => true
  | .amo .. | .casW .. | .casD .. | .red .. | .bupd .. | .bharv .. | .bquery .. => true
  | .fenceAcq .. | .fenceRel .. | .fenceFull .. | .fenceSp | .ifence => true
  | .rinit .. | .cbwait .. | .cbroom .. | .cbadv .. | .cbpub .. | .bindRd .. | .bindWr .. | .unbind .. => true
  | .copy .. | .copyIn .. | .copy2 .. | .gath .. => true
  | .collAllred .. | .collRed .. | .collBcast .. | .collAllgath .. | .collRedscat .. => true
  | .phInit .. | .phReg .. | .phDrop .. | .phArr .. | .phWait .. | .phTest .. | .phExp .. | .phStat .. | .bar .. => true
  | .spawn .. | .start .. | .done .. | .susp .. | .yield | .joindec .. | .cancel .. | .ctrrd .. => true
  | .depo .. | .slcall .. | .slpush .. | .netOpen .. | .netKeep .. | .netDrop .. | .netStat .. => true
  | _ => false

/-- The address and scope of an access that is performed at the home once it is sealed, where the instruction is one (R88, R93). -/
def homeAccess (c : Ctx) : Instr → Option (Dword × Scope)
  | .amo _ _ _ rs1 scope _ _ | .casW _ rs1 _ scope _ _ | .casD _ rs1 _ scope _ _ | .red _ _ rs1 _ scope _ => some (c.getX rs1, scope)
  | .stSt _ base _ .global scope => some (c.getX base, scope)
  | _ => none

end Sys2Proof.Machine
end

