-- ==== Sys2Proof/Machine/Running.lean ====
section
/-!
DEFINITION. Running a packet of the pipe: the context and the memory it sees (R23, R28, R35, R64), what its instruction does before its
seal, and when the packet may execute (R77, R80 to R82, R166, R315, R331).
-/
namespace Sys2Proof.Machine

/-! ## Older packets -/

/-- The unsealed packets of a context below a number, oldest first. -/
def Pipe.olderThan (p : Pipe) (n seq : Nat) : List Packet :=
  let first := (p.ctxOf n).sealed
  let mine := p.packets.filter fun q => q.ctx == n
  (List.range (seq - first)).filterMap fun i => mine.find? fun q => q.seq == first + i

/-- A packet replaced, wherever it stands, by itself changed. -/
def Pipe.update (p : Pipe) (q : Packet) : Pipe :=
  let put := fun (r : Packet) => if r.ctx = q.ctx && r.seq = q.seq then q else r
  { p with
    up := p.up.map fun e => (e.1, put e.2), siding := p.siding.map fun e => { e with packet := put e.packet },
    perch := p.perch.map put }

/-! ## What a seal commits (R35) -/

/-- Whether a byte is of a core's scratchpad, lane slices or weight buffer. -/
def ownByte (core a : Nat) : Bool :=
  (spBase core ≤ a && a < spBase (core + 1)) || (laneBase core 0 ≤ a && a < laneBase (core + 1) 0) ||
    (wbBase core 0 ≤ a && a < wbBase (core + 1) 0)

/-- What the older packets of a packet's context have still to commit. -/
def State.pendingOf (s : State) (core : Nat) (q : Packet) : List CoreWrite :=
  ((s.pipe core).olderThan q.ctx q.seq).flatMap fun r => (r.commit.map Commit.writes).getD []

/-- The private copy that a packet has computed replaces its context's accumulators and error log (R35). -/
def Ctx.commitRegs (c : Ctx) (m : Commit) : Ctx := { c with acc := m.acc, merrlog := m.merrlog, merrcnt := m.merrcnt }

/-- The bytes of a core's own memories that differ between two states. -/
def ownChanges (core : Nat) (s t : State) : List Nat :=
  ((t.mem ++ s.mem).map Prod.fst).filter fun a => ownByte core a && t.byte a != s.byte a

/-- A state with its core's own memories as another has them. -/
def State.withOwn (t s : State) (core : Nat) : State :=
  let t := (ownChanges core s t).foldl (fun (t : State) a => t.setByte a (s.byte a)) t
  let t : State := { t with
    marks := t.marks.filter (fun a => !ownByte core a) ++ s.marks.filter fun a => ownByte core a }
  t.setCore core { t.core core with wfmt := (s.core core).wfmt }

/-! ## What a packet sees -/

/-- The bound ports as a packet sees them: of a read port the elements it has claimed, of a write port an empty buffer (R64). -/
def Ctx.claimedPorts (c : Ctx) (q : Packet) : Ctx :=
  (List.range 4).foldl (fun (c : Ctx) i =>
    let n : Port := Fin.ofNat 4 i
    let p := c.port n
    if !p.bound then c
    else match p.dir with
      | .read =>
        let mine := q.srcs.filter fun r => r.claim && r.reg == 60 + i
        c.setPort n { p with staged := mine.flatMap (fun r => bytesOfNat p.esize r.value), pos := 0 }
      | .write => c.setPort n { p with staged := [], pos := 0 }) c

/-- The repetition buffer as a packet sees it: a clause instruction stands in its own iteration (R239, R240). -/
def RepBuf.seenBy (r : RepBuf) (q : Packet) : RepBuf :=
  match q.clause with
  | some (iter, i) => { r with st := .reissuing, iter := iter, stag := i }
  | none => if r.st == .held then r else RepBuf.empty

/-- The active region and the pending sample that an AXR packet finds: as the older packets in the pipe leave them (R130). Any other
packet pins at its seal (R134) and finds none. -/
def regionSeen (c : Ctx) (older : List Packet) (q : Packet) : Option Nat × Option Pending :=
  match q.instr with
  | .axrBegin .. | .axrEnd .. =>
    older.foldl (fun r p => match p.instr, p.begun with
      | _, some b => (b.region, b.pending)
      | .axrEnd id, none => if r.1 = some id.val then (none, none) else r
      | _, none => r) (c.region, c.pending)
  | _ => (none, c.pending)

/-- The context a packet executes in: the register store, under the pan's older entries, under the packet's own sources, with what older
packets have still to commit. -/
def State.packetView (s : State) (core : Nat) (q : Packet) : Ctx :=
  let p := s.pipe core
  let c0 := s.ctxAt (ctxKey core q.ctx)
  let c := c0.takePan p (p.pan.filter fun e => e.ctx == q.ctx && (e.seq < q.seq || (e.external && e.seq == q.seq)))
  let c := q.srcs.foldl (fun (c : Ctx) r => if r.await.isNone && !r.claim then c.setRegNat r.reg r.value else c) c
  let older := p.olderThan q.ctx q.seq
  let c := older.foldl (fun (c : Ctx) r => match r.commit with
    | some m => c.commitRegs m
    | none => c) c
  let c := (s.pendingOf core q).foldl (fun (c : Ctx) w => match w with
    | .reserved h n => c.reserve h n
    | _ => c) c
  let c := if isBinding q.instr then c else c.claimedPorts q
  let rep := c0.rep.seenBy q
  let (region, pending) := regionSeen c0 older q
  { c with
    pc := q.pc, npc := q.npc, ir := q.ir, issuedPc := q.pc, rep := rep, issuedRep := rep, region := region, pending := pending,
    status := .running }

/-- The bytes that a change to a core's own memories stores there, by their addresses. -/
def CoreWrite.cells : CoreWrite → List (Nat × Option Byte)
  | .bytes a data _ => data.zipIdx.map fun b => (a + b.2, some b.1)
  | _ => []

/-- Bytes of older stores of a packet's context that are not yet performed, the youngest last (R28); an MST counts as a store (R289). -/
def State.olderBytes (s : State) (core : Nat) (q : Packet) : List (Nat × Option Byte) :=
  let keys := fun (r : Packet) =>
    (r.spans.flatMap fun x => x.keys s core) ++ ((r.commit.map Commit.writes).getD []).flatMap CoreWrite.cells
  ((s.outboundOf core q.ctx).filter fun o => o.packet.seq < q.seq).flatMap (fun o => keys o.packet) ++
    ((s.pipe core).olderThan q.ctx q.seq).flatMap keys

/-- Whether an instruction reads its core's own memories as they stand, and not byte by byte as a load does. -/
def readsOwn (i : Instr) : Bool :=
  manner i == .commit || match i with
  | .rinit .. | .cbwait .. | .cbroom .. => true
  | _ => false

/-- What a sealed effect or a packet is to store to its core's own memories, stored there. -/
def State.storeOwn (s : State) (core : Nat) (q : Packet) : State :=
  (q.spans.flatMap fun x => x.keys s core).foldl (fun (s : State) b => match b.2 with
    | some v => if ownByte core b.1 then s.store b.1 [v] else s
    | none => s) s

/-- A packet's changes of its core's own memories as a younger packet sees them. Counts are no bytes to it: what is still to be committed of
them has its own rule (R62). -/
def State.foresee (s : State) (core n : Nat) (w : CoreWrite) : State :=
  match w with
  | .bytes .. | .format .. => s.commit core n w
  | _ => s

/-- The memories a packet runs on: for one that reads its core's memories itself, with what older packets of its context have still to
store or to commit there (R28, R281, R289). -/
def State.ahead (s : State) (core : Nat) (q : Packet) : State :=
  if readsOwn q.instr then
    let s := ((s.outboundOf core q.ctx).filter fun o => o.packet.seq < q.seq).foldl (fun (s : State) o => s.storeOwn core o.packet) s
    ((s.pipe core).olderThan q.ctx q.seq).foldl (fun (s : State) r =>
      ((r.commit.map Commit.writes).getD []).foldl (fun (s : State) w => s.foresee core q.ctx w) (s.storeOwn core r)) s
  else s

/-- The registers of a packet's context whose youngest older writer in the pan has no value yet. -/
def State.awaitedBy (s : State) (core : Nat) (q : Packet) : List Nat :=
  let p := s.pipe core
  let mine := p.pan.filter fun e => e.ctx == q.ctx && (e.seq < q.seq || (e.external && e.seq == q.seq))
  (mine.map PanEntry.reg).eraseDups.filter fun r =>
    ((mine.filter fun e => e.reg == r).getLast?).any fun e => (p.entryValue e).isNone

/-! ## Running it -/

/-- How a run of a packet's instruction has ended: the machine but for the packet's own context, that context, and the run. -/
structure Ran where
  state : State
  ctx : Ctx
  run : PacketRun

/-- A run of some computation in a packet's place, in the context it sees. -/
def State.ranIn (s : State) (core : Nat) (q : Packet) (v : Ctx) (stage : Stage) (older : List (Nat × Option Byte))
    (f : State → Out) : Option Ran :=
  let k := ctxKey core q.ctx
  let live := s.ctxAt k
  let run : PacketRun := {
    stage := stage, pending := s.pendingOf core q, writes := [], older := older, window := q.window, awaited := s.awaitedBy core q,
    loads := [], spans := [], claim := q.claim, read := q.read, raised := none }
  match f ({ s with cur := (core, q.ctx), run := some run }.setCtxAt k v) with
  | .next t =>
    some {
      state := { t with cur := s.cur, run := none }.setCtxAt k live,
      ctx := t.ctxAt k, run := t.run.getD run }
  | _ => none

/-- A run of a packet's instruction. -/
def State.ran (s : State) (core : Nat) (q : Packet) (v : Ctx) (stage : Stage) (older : List (Nat × Option Byte)) : Option Ran :=
  s.ranIn core q v stage older (performAny q.instr)

/-- How much of its instruction a packet runs before its seal. -/
def stageOf (i : Instr) : Stage :=
  match manner i with
  | .early | .commit => .ahead
  | _ => .checks

/-- The element that a run has appended to a bound write port, and the port (R64). -/
def appended (v d : Ctx) : Option (Port × List Byte) :=
  (List.range 4).findSome? fun i =>
    let n : Port := Fin.ofNat 4 i
    let p := v.port n
    if p.bound && p.dir == .write && (d.port n).staged != [] then some (n, (d.port n).staged) else none

/-- A packet that has executed, as a run of it has ended. -/
def Packet.took (q : Packet) (v : Ctx) (r : Ran) : Packet :=
  let d := r.ctx
  let result := if manner q.instr == .answered then none else q.dest.map d.regNat
  let commits : Bool := manner q.instr == .commit || !r.run.writes.isEmpty
  let port := appended v d
  { q with
    executed := true, away := false, result := result, complete := result.isNone, target := d.npc, flags := d.fcsr &&& ~~~v.fcsr,
    spans := if r.run.raised == some .checked then r.run.spans else [], claim := r.run.claim, read := r.run.read,
    commit := if commits then some { acc := d.acc, merrlog := d.merrlog, merrcnt := d.merrcnt, writes := r.run.writes } else none,
    begun := if isAxrBegin q.instr then some { region := d.region, pending := d.pending, fills := d.fills } else none,
    port := port.map Prod.fst, element := (port.map Prod.snd).getD [] }

/-- What a REP, a wait, or a binding that has executed does to its context at once: the clause is reissued and the foot is free (R238,
R240, R293), a port's drained bytes are gone (R65). -/
def State.tookEffect (s : State) (core : Nat) (q : Packet) (d : Ctx) : State :=
  let k := ctxKey core q.ctx
  let c := s.ctxAt k
  let p := s.pipe core
  let x := p.ctxOf q.ctx
  if isRep q.instr then
    let on : Bool := d.rep.st == .reissuing
    (s.setCtxAt k { c with rep := d.rep }).setPipe core (p.setCtx q.ctx { x with
      held := if x.held = some q.seq then none else x.held, fetch := some d.npc,
      clause := if on then some (d.rep.iter, 0) else none })
  else if holdsUntilExecuted q.instr then
    s.setPipe core (p.setCtx q.ctx { x with held := if x.held = some q.seq then none else x.held })
  else if isBinding q.instr then s.setCtxAt k { c with ports := d.ports, handles := d.handles }
  else s

/-- A packet that is to trap, or whose page is not present (R29). -/
def Packet.faults (q : Packet) (e : Exc) : Packet := { q with executed := true, away := false, complete := true, fault := some e }

/-- Whether a home withholds a not-present answer to a context (R374). -/
def State.withholds (s : State) (k : Nat) (e : Exc) : Bool :=
  match e with
  | .notPresent _ _ home _ _ => s.answerWithheld k home
  | _ => false

/-- Whether a younger load may be performed before the older loads of its context in the siding that have not been: none of them reads a
byte that it reads (R77), a PREF aside (R251). -/
def State.passesLoads (s : State) (core : Nat) (q : Packet) (mine : List Span) : Bool :=
  let keys := mine.flatMap fun x => (x.keys s core).map Prod.fst
  let loads := ((s.pipe core).olderThan q.ctx q.seq).filter fun r => isOrderedLoad r.instr && !r.executed
  loads.all fun r =>
    if r.srcs.any (·.await.isSome) then false
    else match s.ran core r (s.packetView core r) (stageOf r.instr) (s.olderBytes core r) with
      | none => true
      | some t => t.run.loads.all fun x => (x.keys s core).all fun b => !keys.contains b.1

/-- Executes a packet: what its instruction does before its seal (R26, R28). A packet whose condition is not met stays as it is; one
whose access is held away from the core is tried again when that ends. -/
def State.execute (s : State) (core : Nat) (q : Packet) : State :=
  let k := ctxKey core q.ctx
  let v := s.packetView core q
  let b := s.ahead core q
  match b.ran core q v (stageOf q.instr) (s.olderBytes core q) with
  | none => s
  | some r =>
    let t := if readsOwn q.instr then r.state.withOwn s core else r.state
    let put := fun (t : State) (q : Packet) => t.setPipe core ((t.pipe core).update q)
    if isOrderedLoad q.instr && !s.passesLoads core q r.run.loads then s
    else match r.run.raised with
      | some .retry => s
      | some (.hold w) => (put t { q with away := true }).addWait w (.load core q.ctx q.seq)
      | none | some .checked =>
        let c := t.ctxAt k
        let t := t.setCtxAt k { c with pts := max c.pts r.ctx.pts }
        (put t (q.took v r)).tookEffect core q r.ctx
      | some e =>
        if s.withholds k e then s
        else
          let t := put t (q.faults e)
          if isRep q.instr then t.setCtxAt k { t.ctxAt k with rep := RepBuf.empty } else t

/-! ## When a packet may execute -/

/-- Whether a packet may execute, its sources being complete: what follows only what is older in its context waits for that. A CSR
instruction waits for every seal (R331), one of the steward level for every earlier access (R337); a load for the checks of older
effects, for older acquires (R80), for a full fence's release (R315) and for FENCE.sp, a strong one for older strong writes too (R81);
a matrix packet as a load and for older loads of its core's memories (R282); an effect for older checks and for fences (R82); a net
command for older ones (R348). -/
def State.mayExecute (s : State) (core : Nat) (q : Packet) : Bool :=
  let p := s.pipe core
  let older := p.olderThan q.ctx q.seq
  let out := s.outboundOf core q.ctx
  let pending := fun (f : Instr → Bool) => older.any fun r => f r.instr && !r.executed
  let settled := older.all fun r => r.executed || manner r.instr == .early
  let fenced := fun (f : Instr → Bool) => out.any fun o => f o.packet.instr
  let asLoad := !fenced isFullFence && !pending isAcquireLoad
  if isCsr q.instr || isBinding q.instr then older.isEmpty && (!isStewardCsr q.instr || out.isEmpty)
  else match q.instr with
    | .pref .. | .loopr .. => true
    | .rinit .. => older.isEmpty
    | .fenceAcq .. => older.all fun r => r.executed || homeStage r.instr != 5
    | .axrBegin .. => !pending isAxrBegin
    | i =>
      if isUnitEnd i then true
      else if isNetCmd i && pending isNetCmd then false
      else match manner i with
        | .early =>
          homeStage i != 5 ||
            (settled && asLoad && !fenced isFenceSp && !(isPhExp i && fenced isRelease) &&
              !(isAcquireLoad i && (fenced isStrongWrite || older.any fun r => isStrongWrite r.instr)))
        | .sealed => true
        | .commit =>
          settled && !fenced isFenceSp && !(isMst i && fenced isRelease) && (asLoad || !(isMatrix i || isDictLoad i)) &&
            !(isMatrix i && pending fun j => isLoad j && !isGlobalLoad j)
        | .sent | .answered =>
          settled && (homeStage i != 5 || (!fenced isRelease && !fenced isFenceSp)) && (asLoad || !isVstt i)

end Sys2Proof.Machine
end

