-- ==== Sys2Proof/Machine/Outbound.lean ====
section
/-!
DEFINITION. Effects after the seal (R28, R79, R88, R89, R92, R93): what a sealed packet has sent out of its core, when it goes, the home
that performs it, and the answer it brings back (R154).
-/
namespace Sys2Proof.Machine

/-! ## Performing a sealed effect -/

/-- The effect of a weak store of global memory: its bytes, as they passed its checks (R248). -/
def storeSpans (spans : List Span) : Mach Unit := do
  for x in spans do
    match x.space with
    | some space => performStore space x.ea (x.bytes.filterMap id)
    | none => pure ()

/-- A computation as a packet runs it. -/
def ranTo (m : Mach Unit) (s : State) : Out :=
  match EStateM.run m s with
  | .ok _ t => .next t
  | .error e t => outcomeOf s t e

/-- Whether an effect's write takes its time from the PTS held at its seal: a RED's (R311). A RED that releases takes it after its
release, whose pushes its own write follows (R79, R86; DEDUCED: assumption log, entry 42). -/
def timedAtSeal : Instr → Bool
  | .red _ _ _ _ _ rel => !rel
  | _ => false

/-- A sealed packet's context when its effect is performed: as it was at its seal, with the logical time it has reached. What seals have
committed since, and write ports, are as they stand; a ring copy names the slot that it reserved at its seal (R299). -/
def Ctx.effectView (v c : Ctx) (i : Instr) : Ctx :=
  let reserved : Bool := match i with
    | .copyIn .. => true
    | _ => false
  (List.range 4).foldl (fun (u : Ctx) i =>
    let n : Port := Fin.ofNat 4 i
    let p := c.port n
    if p.bound && p.dir == .write then u.setPort n p else u)
    { v with
      pts := if timedAtSeal i then v.pts else max v.pts c.pts, latch := c.latch, acc := c.acc, merrlog := c.merrlog,
      merrcnt := c.merrcnt, handles := if reserved then v.handles else c.handles }

/-- A run of a sealed packet's effect. -/
def State.ranEffect (s : State) (core : Nat) (o : Outbound) : Option Ran :=
  let v := o.view.effectView (s.ctxAt (ctxKey core o.packet.ctx)) o.packet.instr
  s.ranIn core o.packet v .effect []
    (if isGlobalStore o.packet.instr then ranTo (storeSpans o.packet.spans) else performAny o.packet.instr)

/-- A sealed effect is done with: nothing of it is left but an answer that is awaited. -/
def State.outDone (s : State) (core ctx seq : Nat) : State :=
  let x := s.core core
  let s := s.setCore core { x with outbound := x.outbound.filter fun o => !(o.packet.ctx == ctx && o.packet.seq == seq) }
  let s := if (s.die (dieOf core)).command.isSome then s.due .quiesce (dieOf core) else s
  match s.barriers.find? fun b => b.stopping && !b.complete with
  | some b => s.due .superstepStop b.launch
  | none => s

/-- What an effect leaves of a context that has gone on: `d` as the effect left it, `c` as it stands. Registers, the program counter and
the repetition buffer are the pipe's, an ERET's apart, and a port's binding, a region and a unit's end are the effect's own. -/
def Ctx.after (c d : Ctx) (i : Instr) : Ctx :=
  let ended : Bool := d.status != .running && match d.status with
    | .waiting _ _ => false
    | _ => true
  let pts := max c.pts d.pts
  if manner i == .sent && !ended then { c with pts := pts }
  else
    let ports := (List.range 4).foldl (fun (u : Ctx) n =>
      let n : Port := Fin.ofNat 4 n
      if (d.port n).dir == .write then u.setPort n (d.port n) else u) c
    { d with
      x := c.x, v := c.v, k := c.k, pts := pts,
      pc := if isEret i then d.pc else c.pc, npc := if isEret i then d.npc else c.npc,
      rep := if isEret i || ended then d.rep else c.rep,
      ports := if isBinding i || ended then d.ports else ports.ports,
      region := match i with
        | .axrEnd .. => d.region
        | _ => if ended then d.region else c.region,
      pending := match i with
        | .axrEnd .. => d.pending
        | _ => if ended then d.pending else c.pending,
      fcsr := if manner i == .sealed then d.fcsr else c.fcsr }

/-- The answer to a packet whose context has been saved before it came is held in the context's record (R87, R357, R361). -/
def answerSaved (core n rd v : Nat) : Mach Unit := do
  match ← savedImage core n ((← get).die (dieOf core)).saved with
  | none => pure ()
  | some image =>
    let a := niAgent (dieOf core) true
    let at_ := imageRecord image core n
    let (bs, _) ← strongBytes a at_ 8 0
    let _ ← strongPut a (at_ + 0x20#64) (bytesOfNat 8 v ++ bytesOfNat 8 rd) 0
    let _ ← strongPut a at_ (bytesOfNat 8 (field bs 0 8 ||| 4)) 0

/-- The latched word that an effect has merged into FCSR (R160), where it has set a flag: `v` and `d` are its context before and after. -/
def mergedWord (v d : Ctx) : Option Dword :=
  let flags := bits (d.fcsr &&& ~~~v.fcsr).toNat 8 7
  if flags = 0 then none else some (BitVec.ofNat 64 (flags * 4))

/-- An effect performed: its context goes on from it, waits for its answer, or takes it (R154), with the word that is merged into FCSR as
the answer is written (R160). -/
def State.settleOut (s : State) (core : Nat) (q : Packet) (v d : Ctx) : State :=
  let k := ctxKey core q.ctx
  let c := s.ctxAt k
  if c.status != .running then
    let s := s.setCtxAt k { c with pts := max c.pts d.pts }
    match if manner q.instr == .answered && c.status == .idle then q.dest else none with
    | none => s
    | some r =>
      match EStateM.run (attempt (answerSaved core q.ctx ((destOf q.instr).getD 0) (d.regNat r))) s with
      | .ok _ t | .error _ t => t
  else
    let s := s.setCtxAt k (c.after d q.instr)
    match (s.ctxAt k).status with
    | .running =>
      let value := BitVec.ofNat 64 ((q.dest.map d.regNat).getD 0)
      if manner q.instr != .answered then s
      else if (s.core core).preempted then
        s.holdAnswer k (q.dest.bind fun _ => (destOf q.instr).map (Fin.ofNat 64)) value (mergedWord v d)
      else s.fillAnswer core q.ctx q.seq value (mergedWord v d)
    | .waiting .event _ => s
    | .waiting _ _ =>
      let p := s.pipe core
      s.setPipe core (p.setCtx q.ctx { p.ctxOf q.ctx with awaiting := some q.seq })
    | _ => s.clearPipe k

/-- The home of the first byte a sealed effect stores, where its access waits when its page can no longer be reached. -/
def State.homeOfSpans (s : State) (q : Packet) : Nat × Dword :=
  match q.spans with
  | [] => (0, 0#64)
  | x :: _ => (((route s x.ea).map Loc.place).getD 0, x.ea)

/-- A sealed effect on its way is no longer: it goes again when what it waits for has ended. -/
def State.unsent (s : State) (core ctx seq : Nat) : State :=
  let x := s.core core
  s.setCore core { x with outbound := x.outbound.map fun o =>
    if o.packet.ctx = ctx && o.packet.seq = seq then { o with sent := false } else o }

/-- Performs a sealed effect; `also` are packets merged into it. An access that must wait waits with its packet; an atomic that finds its
bytes uncorrectable answers 0 and its context traps at the next instruction (R313); an access of a sluice program that the net pool
refuses is not performed, and its call records that (R115). What becomes of a sealed access that can no longer be performed the manual
does not say: where its page is gone since its checks, it waits there with its fault record written, until the page is back (R248,
R374); where its home refuses it for another cause, an exhausted net pool among them, it waits at its home, and is tried again there
(DESIGN CHOICE: assumption log, entry 16). Whether it is performed. -/
def State.performOut (s : State) (core : Nat) (o : Outbound) (also : List (Nat × Nat × Nat)) : Bool × State :=
  let q := o.packet
  let k := ctxKey core q.ctx
  let who := Asker.packet core q.ctx q.seq also
  let done := fun (s : State) => also.foldl (fun (s : State) a => s.outDone a.1 a.2.1 a.2.2) (s.outDone core q.ctx q.seq)
  match s.ranEffect core o with
  | none => (false, s)
  | some r =>
    let t := r.state
    match r.run.raised with
    | none | some .checked => (true, done (t.settleOut core q (o.view.effectView (s.ctxAt k) q.instr) r.ctx))
    | some .retry => (false, s.unsent core q.ctx q.seq)
    | some (.hold w) =>
      let c := t.ctxAt k
      (false, (t.setCtxAt k { c with pts := max c.pts r.ctx.pts }).addWait w who)
    | some (.trapAfter cause v) =>
      let t := (done (t.fillAnswer core q.ctx q.seq 0#64 none)).drainPan k
      (true, t.takeTrap k cause (t.ctxAt k).pc v)
    | some (.notPresent gva _ home fetch write) =>
      if t.faultQueueFull home then (false, t.addWait (.home home gva) who)
      else
        let t := t.faultRecord home gva 1 fetch write (if isArith core then coreId core else 0) (faultDie core) q.ctx 0#64
        (false, t.addWait (.absent home gva) who)
    | some (.trap cause _) =>
      if cause = 0x07 && isSluice core then
        let (i, t) := t.takeFree
        (true, done ((t.noteRefused core).fillAnswer core q.ctx q.seq (Config.freeDword i) none))
      else
        let (home, gva) := s.homeOfSpans q
        (false, t.addWait (.home home gva) who)

/-! ## When it goes (R77, R79, R81) -/

/-- Whether an effect stores to the core's scratchpad or to a lane slice. -/
def Packet.storesNear (q : Packet) : Bool := q.spans.any fun x => x.space == some .sp || x.space.isNone

/-- Whether nothing older of its context keeps a sealed effect in its core: a release waits for all of it, a strong write for strong
ones, FENCE.sp for near stores (R315), an update for updates, which are applied in program order (R103), a push for pushes (R307), and
any for those that store a byte it stores. -/
def State.clearToGo (s : State) (core : Nat) (o : Outbound) : Bool :=
  let older := (s.outboundOf core o.packet.ctx).filter fun r => r.packet.seq < o.packet.seq
  let keys := fun (r : Outbound) => (r.packet.spans.flatMap fun x => x.keys s core).map Prod.fst
  if isReleasing o.packet.instr then older.isEmpty
  else if isFenceSp o.packet.instr then older.all fun r => !r.packet.storesNear
  else if isBupd o.packet.instr && older.any fun r => isBupd r.packet.instr then false
  else if isSlpush o.packet.instr && older.any fun r => isSlpush r.packet.instr then false
  else
    let mine := keys o
    !(older.any fun r => (isStrongWrite r.packet.instr && isStrongWrite o.packet.instr) || (keys r).any mine.contains)

/-- The step by which a sealed effect of some kinds is performed: the cluster cache accepts a weak store, a fence makes its release, a
holder applies an update. -/
def stepOf (i : Instr) : Option Instr :=
  if isGlobalStore i then some .weakStoreAccept
  else if isRelease i then some .release
  else if isBupd i then some .bupdApply
  else none

/-- The slice or the booth core's queue at which a sealed effect waits for its turn, where it goes to its home (R88, R93). -/
def State.waitAtHome (s : State) (core : Nat) (o : Outbound) : Option Wait :=
  match homeAccess o.view o.packet.instr with
  | none => none
  | some (gva, scope) =>
    if scope != .mod && scope != .sys then none
    else match route s gva with
      | none => none
      | some l =>
        match leafOf s l with
        | none => some (.home l.place gva)
        | some e =>
          if l.bridge then some (.booth l.home (boothQueue gva) gva)
          else
            let z := 32 * 4 ^ pteGrain e.pte.toNat
            let off := ((leafPage e.pte.toNat).2 + l.off % e.size) / z * z
            let a := s.coreAgent (ctxKey core o.packet.ctx)
            some (.slice l.home (sliceOf off) (a.portAt l.home (sliceOf off)) (s.admittance l.home (l.key / z * z) off z (pteClass e.pte.toNat)))

/-- A sealed effect is on its way. -/
def State.markSent (s : State) (core : Nat) (o : Outbound) : State :=
  let x := s.core core
  s.setCore core { x with outbound := x.outbound.map fun r => if r = o then { r with sent := true } else r }

/-- A sealed effect goes, where nothing keeps it: on its way to a step or its home, or at once. -/
def State.trySend (s : State) (core : Nat) (o : Outbound) : State :=
  if o.sent || !(s.core core).outbound.contains o || !s.clearToGo core o then s
  else match stepOf o.packet.instr with
    | some i => (s.markSent core o).due i core o.packet.ctx
    | none =>
      match s.waitAtHome core o with
      | some w => (s.markSent core o).addWait w (.packet core o.packet.ctx o.packet.seq [])
      | none => ((s.markSent core o).performOut core { o with sent := true } []).2

/-- Whatever of a context may go, goes, the oldest first. -/
def State.sendMore (s : State) (core n : Nat) : State :=
  (s.outboundOf core n).foldl (fun (s : State) o => s.trySend core o) s

/-- Performs the sealed effect of a number, and lets those go that waited for it. -/
def State.performSeq (s : State) (core ctx seq : Nat) (also : List (Nat × Nat × Nat)) : State :=
  match (s.outboundOf core ctx).find? fun o => o.packet.seq == seq with
  | none => s
  | some o =>
    match s.performOut core o also with
    | (false, s) => s
    | (true, s) => also.foldl (fun (s : State) a => s.sendMore a.1 a.2.1) (s.sendMore core ctx)

/-- Performs the oldest effect on its way from a context that is of a kind, or sends one that is still to go. -/
def State.performOldest (s : State) (kind : Instr → Bool) : State :=
  let core := s.subject.place
  let n := s.subject.index
  match (s.outboundOf core n).find? fun o => o.sent && kind o.packet.instr with
  | none => s.sendMore core n
  | some o => s.performSeq core n o.packet.seq []

/-- WEAK_STORE_ACCEPT (R89): the cluster cache accepts the oldest weak store on its way from the context in the index. -/
def execWeakStoreAccept (s : State) : Out := event (modify fun s => s.performOldest isGlobalStore) s

/-- RELEASE (R79): the release of a sealed fence is performed; every earlier effect of its context has been. -/
def execRelease (s : State) : Out := event (modify fun s => s.performOldest isRelease) s

/-- BUPD_APPLY (R103, R317): the oldest sealed update on its way from the context in the index reaches its holder, after a recall
perhaps, and is applied. -/
def execBupdApply (s : State) : Out := event (modify fun s => s.performOldest isBupd) s

/-! ## At the home (R72, R88, R92, R93) -/

/-- An access whose turn it is goes on, with what it has been admitted with. -/
def State.retryNow (s : State) (who : Asker) (pass : List Admission) : State := { s with turns := .retry who pass :: s.turns }

/-- Whether an address lies in a row that is open (R72). -/
def DieSt.rowOpen (x : DieSt) (channel a : Nat) : Bool :=
  (x.rows.get [] channel).any fun b => Config.dramBank b == Config.dramBank a && Config.dramRow b == Config.dramRow a

/-- The request that a DRAM bank serves next: a hit in its open row before older ones, but none that arrived after one that has waited
256 cycles (R72). -/
def DieSt.nextAt (x : DieSt) (channel : Nat) (bank : List DramReq) : Option DramReq :=
  let fair := match bank.findIdx? fun r => r.aged with
    | none => bank
    | some i => bank.take (i + 1)
  (fair.find? fun r => x.rowOpen channel r.req.adm.off).orElse fun _ => fair.head?

/-- A DRAM channel serves a request; the value picks the bank, by one of the requests that wait. -/
def State.serveDram (s : State) (d channel pick : Nat) : State :=
  let x := s.die d
  let all := x.dram.get [] channel
  match all[pick % all.length]? with
  | none => s
  | some r =>
    match x.nextAt channel (all.filter fun q => Config.dramBank q.req.adm.off == Config.dramBank r.req.adm.off) with
    | none => s
    | some w =>
      let s := s.setDie d { x with dram := x.dram.put channel (all.erase w) }
      let s := if all.length ≤ 1 then s else s.dueAt .homeRequest { Subject.nothing with place := d, index := channel, flag := true }
      s.retryNow w.req.who (w.req.got ++ [w.req.adm])

/-- The requests of a slice that compete: its oldest one, and those for its grain that arrived in the cycle in which it did (R72, R88). One
that has lost a competition has its place and competes no more. -/
def DieSt.competing (x : DieSt) (slice : Nat) : List HomeReq :=
  match x.reqs.get [] slice with
  | [] => []
  | q :: r => q :: if q.lost then [] else r.filter fun p => p.adm.key == q.adm.key && p.cycle == q.cycle && !p.lost

/-- How far a port stands from a slice's priority pointer. -/
def portRank (pointer port : Nat) : Nat := (port + 8 - pointer % 8) % 8

/-- The first of some requests in port order from a slice's priority pointer (R88). -/
def portWinner (pointer : Nat) (q : HomeReq) (rest : List HomeReq) : HomeReq :=
  rest.foldl (fun w r => if portRank pointer r.port < portRank pointer w.port then r else w) q

/-- The losers of a competition in the order in which they are performed: port order from the pointer, those of one port as they stand
(R88). -/
def portOrder (pointer : Nat) (losers : List HomeReq) : List HomeReq :=
  (List.range 8).flatMap fun k => losers.filter fun r => portRank pointer r.port == k

/-- Who is logged as the winner of a competition: a core, the die's NI otherwise (R403). -/
def State.winnerOf (s : State) (home : Nat) (who : Asker) : Nat × Nat :=
  match who with
  | .ctx core n | .packet core n _ _ | .load core n _ | .fetch core n => (s.coreIdWord core, s.sstepOf (s.ctxAt (ctxKey core n)).launchid.toNat)
  | .op n => match s.ops.find n with
    | some o => (s.coreIdWord o.core, s.sstepOf o.launch)
    | none => (0, 0)
  | .step _ => (home * 2 ^ 8, 0)

/-- An L2 slice takes one request for a grain; where several compete the losers are the next in their order, the pointer moves on and the
replay log takes the winner (R88, R403). One for a grain that the slice does not have waits for the DRAM. -/
def State.serveSlice (s : State) (d slice : Nat) : State :=
  let x := s.die d
  let pointer := x.pointers.get 0 slice
  match x.competing slice with
  | [] => s
  | q :: rest =>
    let w := portWinner pointer q rest
    let all := q :: rest
    let losers := portOrder pointer (all.erase w)
    let reqs := losers.map (fun r => { r with lost := true }) ++ (x.reqs.get [] slice).filter fun r => !all.contains r
    let y := { x with
      reqs := x.reqs.put slice reqs, cycles := x.cycles.put slice (x.cycles.get 0 slice + 1), pointers := if rest.isEmpty then x.pointers else x.pointers.put slice ((w.port + 1) % 8) }
    let s := s.setDie d y
    let s := if reqs.isEmpty then s else s.due .homeRequest d slice
    let s := if rest.isEmpty then s else
      let (core, sstep) := s.winnerOf d w.who
      s.logEntry d 0 w.port core sstep (siteOfKey w.adm.key).gva
    if s.holdsGrain d w.adm.off w.adm.size then s.retryNow w.who (w.got ++ [w.adm])
    else
      let x := s.die d
      (s.setDie d { x with dram := x.dram.put slice (x.dram.get [] slice ++ [{ req := w, aged := false }]) }).dueAt .homeRequest
        { Subject.nothing with place := d, index := slice, flag := true }

/-- HOME_REQUEST (R72, R88): an L2 slice of a die takes a request; with the flag, the DRAM channel behind it serves one. The index is
the slice. -/
def execHomeRequest (s : State) : Out :=
  event (modify fun s =>
    let j := s.subject
    if j.flag then s.serveDram j.place j.index j.value.toNat else s.serveSlice j.place j.index) s

/-- DRAM_REQUEST_AGING (R72): the oldest request of a channel that has not yet aged has waited 256 cycles. -/
def execDramRequestAging (s : State) : Out :=
  event (modify fun s =>
    let d := s.die s.subject.place
    let ch := s.subject.index
    let reqs := d.dram.get [] ch
    match reqs.findIdx? fun r => !r.aged with
    | none => s
    | some i =>
      s.setDie s.subject.place { d with dram := d.dram.put ch (reqs.modify i fun r => { r with aged := true }) }) s

/-- What a message has been admitted with whose turn it is at its booth core. -/
def boothPass (s : State) (gva : Dword) : Admission :=
  { key := ((globalSite s gva gva).map Site.key).getD 0, off := 0, size := 0, ways := [], last := false, keep := false, counter := none }

/-- BOOTH_MESSAGE (R93): the booth core of a bridge performs the head of one of its sixteen queues. -/
def execBoothMessage (s : State) : Out :=
  event (modify fun s =>
    let b := s.bridge s.subject.place
    let n := s.subject.index % 16
    match b.queues.get [] n with
    | [] => s
    | m :: rest =>
      let s := s.setBridge s.subject.place { b with queues := b.queues.put n rest }
      let s := if rest.isEmpty then s else s.due .boothMessage s.subject.place n
      s.retryNow m.who (m.got ++ [boothPass s m.gva])) s

/-! ## Merging REDs (R92) -/

/-- The value of a source of a sealed packet: its `i`th, by its name; of a bound read port the element it has claimed (R64). -/
def Outbound.operand (o : Outbound) (i : Nat) (r : XReg) : Dword :=
  match o.packet.srcs[i]?, portOf r with
  | some q, some p => if q.claim then extend (o.view.port p).z (o.view.port p).esize q.value else o.view.getX r
  | _, _ => o.view.getX r

/-- Two REDs that merge: the operation, size, scope and address, where the packets match. -/
def mergeable (o p : Outbound) : Option (AmoOp × OpSize × Scope × Dword × Dword × Dword) :=
  match o.packet.instr, p.packet.instr with
  | .red op size rs1 rs2 scope rel, .red op' size' rs1' rs2' scope' rel' =>
    if op = op' && size = size' && scope = scope' && !rel && !rel' && op.merges &&
        o.operand 0 rs1 == p.operand 0 rs1' then
      some (op, size, scope, o.operand 0 rs1, o.operand 1 rs2, p.operand 1 rs2')
    else none
  | _, _ => none

/-- Two packets of REDs by their cores and numbers, the second merged into the first: the first then carries the combined operand and the
later of the two times, and is the performance of both. The manual does not say which time the merged write is made with (DESIGN
CHOICE: assumption log, entry 42). -/
def State.mergeReds (s : State) (a b : Nat × Nat × Nat) : Option State :=
  match (s.outboundOf a.1 a.2.1).find? (·.packet.seq == a.2.2), (s.outboundOf b.1 b.2.1).find? (·.packet.seq == b.2.2) with
  | some o, some p =>
    match mergeable o p with
    | none => none
    | some (op, size, scope, ea, x, y) =>
      let w := 8 * size.bytes
      let v := BitVec.ofNat 64 (op.apply w (x.toNat % 2 ^ w) (y.toNat % 2 ^ w))
      let view := ({ o.view with pts := max o.view.pts p.view.pts }.setX 1 ea).setX 2 v
      let o' : Outbound := { o with view := view, packet := { o.packet with instr := .red op size 1 2 scope false, srcs := [] } }
      let c := s.core a.1
      some (s.setCore a.1 { c with outbound := c.outbound.map fun r => if r = o then o' else r })
  | _, _ => none

/-- The askers of two merged REDs as one. -/
def mergeAskers (who other : Asker) : Option (Asker × (Nat × Nat × Nat) × (Nat × Nat × Nat)) :=
  match who, other with
  | .packet c n q also, .packet c' n' q' also' => some (.packet c n q (also ++ (c', n', q') :: also'), (c, n, q), (c', n', q'))
  | _, _ => none

/-- Two REDs on their way to one home merge in a mesh router (R92): the home a die, or 64 + bridge, their slice or queue there, and
their places in it. -/
def State.merge (s : State) (home queue first second : Nat) : State :=
  if first = second then s
  else if home < 64 then
    let x := s.die home
    let reqs := x.reqs.get [] queue
    match reqs[first]?, reqs[second]? with
    | some p, some q =>
      match mergeAskers p.who q.who with
      | none => s
      | some (who, a, b) =>
        match s.mergeReds a b with
        | none => s
        | some s => s.setDie home { x with
            reqs := x.reqs.put queue ((reqs.set first { p with who := who }).eraseIdx second) }
    | _, _ => s
  else
    let x := s.bridge (home - 64)
    let msgs := x.queues.get [] queue
    match msgs[first]?, msgs[second]? with
    | some p, some q =>
      match mergeAskers p.who q.who with
      | none => s
      | some (who, a, b) =>
        match s.mergeReds a b with
        | none => s
        | some s => s.setBridge (home - 64) { x with
            queues := x.queues.put queue ((msgs.set first { p with who := who }).eraseIdx second) }
    | _, _ => s

end Sys2Proof.Machine
end

