-- ==== Sys2Proof/Machine/Bringup.lean ====
section
/-!
DEFINITION. Bring-up and what the outside does to the module: cold reset, the boot ROM and its services (R381 to R383), the owner
of the management plane (R386), Cremor Link (R388, R389, R396), CXL links (R391), margins and heat (R395, R399, R400).
-/
namespace Sys2Proof.Machine

/-! ## The management plane (R386) -/

/-- MGMTOWN_CLAIM: the master in the index claims for the master in the value; with the flag another claim of the same cycle follows. -/
def execMgmtownClaim (s : State) : Out :=
  event (modify fun s =>
    let (m, c) := (s.subject.index, s.subject.value.toNat)
    if s.subject.flag then s.lodge m c else s.claim m c) s

/-- MGMTOWN_OWNER: the owner, in the index, hands over to the master in the value, or gives up with 0. -/
def execMgmtownOwner (s : State) : Out :=
  event (modify fun s => s.handOver s.subject.index (s.subject.value.toNat % 4)) s

/-- HOST_LINK_DOWN: a host that owns the plane loses it. -/
def execHostLinkDown (s : State) : Out := event (modify fun s => if s.owner = 3 then { s with owner := 0 } else s) s

/-- DIEREL (R382): every core die is released. -/
def execDierel (s : State) : Out := event (modify fun s => { s with released := true }) s

/-! ## The boot ROM (R381, R383) -/

/-- Bytes of a signature. -/
def sigBytes : Nat := 29792

/-- The little-endian bytes of a digest. -/
def digestBytes (d : BitVec 256) : List Byte := bytesOfNat 32 d.toNat

/-- LEN of the stage-one image in a bridge's flash. -/
def State.stageLen (s : State) (b : Nat) : Nat := s.num (flashBase b + 8) 4

/-- Bytes 0 to 87 + LEN of the image: what its signature covers. -/
def State.stageSigned (s : State) (b : Nat) : List Byte := s.bytes (flashBase b) (88 + s.stageLen b)

/-- LEN passes its limit: no image that the ROM can read (assumption log, entry 4). -/
def State.stageLong (s : State) (b : Nat) : Bool := decide (0x3F0000 < s.stageLen b)

/-- Bytes of the flash that the ROM reads: the header, and the image with its signature where there is one. -/
def State.stageBytes (s : State) (b : Nat) : Nat := if s.stageLong b then 88 else 88 + s.stageLen b + sigBytes

/-- Whether the flash cannot be read: a byte of what the ROM reads is bad. -/
def State.flashBad (s : State) (b : Nat) : Bool :=
  s.marks.any fun a => decide (flashBase b ≤ a) && decide (a < flashBase b + s.stageBytes b)

/-- The ROM reads the image into the boot SRAM (R381); the SRAM is empty before. -/
def State.readStage (s : State) (b : Nat) : State :=
  (s.mem.filter fun e => decide (flashBase b ≤ e.1) && decide (e.1 < flashBase b + s.stageBytes b)).foldl
    (fun s e => s.store (sramBase b + (e.1 - flashBase b)) [e.2]) s

/-- What BOOTST.CODE becomes: 1, or the code of the first step or check that fails, the reading first (R381, R382). -/
def State.bootCode (s : State) (b : Nat) : Nat :=
  let pk := s.bytes (flashBase b + 24) 64
  if s.flashBad b then 5
  else if s.num (flashBase b) 4 != 0x5A5A0001 then 2
  else if s.num (flashBase b + 4) 4 < Config.minVersion then 6
  else if Config.shake256 pk != Config.keyHash then 3
  else if s.stageLong b then 5
  else if !Config.slhDsaVerify pk (s.stageSigned b) (s.bytes (flashBase b + 88 + s.stageLen b) sigBytes) then 4
  else 1

/-- The extend service: MEAS becomes the digest of itself and a digest (R383). -/
def BridgeSt.extend (x : BridgeSt) (digest : List Byte) : BridgeSt :=
  { x with measurement := Config.shake256 (digestBytes x.measurement ++ digest) }

/-- The boot ROM of a bridge, as ringmaster core 0 runs it. On success that core enters stage one and the bridge's other
ringmaster cores wait for an event; on failure the bridge is halted. -/
def State.boot (s : State) (b : Nat) : State :=
  let code := s.bootCode b
  let s := (s.readStage b).setBridgeReg b 0x201 (BitVec.ofNat 64 code)
  if code = 1 then
    let s := s.setBridge b ((s.bridge b).extend (digestBytes (Config.shake256 (s.stageSigned b))))
    let entry := Config.bootBase b + BitVec.ofNat 64 (88 + s.num (flashBase b + 12) 4)
    (List.range 16).foldl (fun s i =>
      let k := ctxKey (16384 + 16 * b + i) 0
      s.setCtxAt k { Ctx.reset with pc := entry, status := if i = 0 then .running else .waiting .event none }) s
  else s.setBridge b { s.bridge b with halted := true }

/-- What a cold reset leaves before the ROM runs: the reset state, with flash and fuses as they are. -/
def State.cold (s : State) : State :=
  { State.reset with
    agenda := [], turns := s.turns, free := s.free, feature := s.feature,
    mem := s.mem.filter fun e => 2 ^ 52 ≤ e.1 && e.1 < 2 ^ 53,
    marks := s.marks.filter fun a => 2 ^ 52 ≤ a && a < 2 ^ 53,
    dies := s.dies.map fun e => (e.1, { DieSt.reset with fuse := e.2.fuse }) }

/-- A die loads its defect map; a bad one holds its cores in reset (R397). -/
def State.loadMap (s : State) (d : Nat) : State :=
  if s.fuseGood d then s else (s.setDie d { s.die d with failed := true }).dieEvent d 1

/-- COLD_RESET (R381): every die loads its map, and every bridge's ROM boots. -/
def execColdReset (s : State) : Out :=
  event (modify fun s =>
    let s := (s.dies.map Prod.fst).foldl State.loadMap s.cold
    (List.range 4).foldl State.boot s) s

/-- MEASUREMENT_EXTEND (R383): a bridge's measurement is extended with the digest at an offset of its boot SRAM. -/
def execMeasurementExtend (s : State) : Out :=
  event (modify fun s =>
    let b := s.subject.place % 4
    s.setBridge b ((s.bridge b).extend (s.bytes (sramBase b + s.subject.addr.toNat % 2 ^ 22) 32))) s

/-- A report (R383): the nonce, the four measurements, FEATURE and the digest of each die's map. -/
def State.attest (s : State) (nonce : List Byte) : List Byte :=
  nonce ++ ((List.range 4).flatMap fun b => digestBytes (s.bridge b).measurement) ++ bytesOfNat 8 s.feature.toNat ++
    (List.range 64).flatMap fun d =>
      digestBytes (Config.shake256 ((List.range 128).flatMap fun i => bytesOfNat 8 (s.fuseWord d i).toNat))

/-- ATTESTATION_REPORT (R383): the service of a bridge signs a report for the nonce at an offset of its boot SRAM. -/
def execAttestationReport (s : State) : Out :=
  event (modify fun s =>
    let b := s.subject.place % 4
    let report := s.attest (s.bytes (sramBase b + s.subject.addr.toNat % 2 ^ 22) 32)
    s.setBridge b { s.bridge b with report := report, signature := Config.slhDsaSign report }) s

/-! ## Cremor Link (R388, R389, R396) -/

/-- OSEVT.LINK of a die's bridge. -/
def State.linkEvent (s : State) (d : Nat) : State := s.osEvent (d / 16) 0x10000#64

/-- The requests in flight to a module that no port reaches any more are answered as uncorrectable data: the context that waits for the
answer traps (R389). The ports of a module to which one leads directly are the only ones known to reach it (assumption log, entry 9). -/
def State.failRemote (s : State) (peer : Nat) : State :=
  if !(s.portsTo peer).isEmpty then s
  else s.ctxs.foldl (fun (s : State) e =>
    let c := s.ctxAt e.1
    match c.status with
    | .waiting (.remote h) _ =>
      if handleModule h != peer then s
      else
        let s := s.setCtxAt e.1 { c with status := .running }
        let s := s.clearPipe e.1
        s.takeTrap e.1 0x0E (s.ctxAt e.1).pc h
    | _ => s) s

/-- A port enters a state; up with two lanes only where both are in service. Training a lane sets its offsets to 0. -/
def State.linkTo (s : State) (d p : Nat) (st : LinkState) (peer : Nat) : State :=
  let x := s.link d p
  let lost := s.lane1Lost d p
  let st := match st with
    | .up2 => if lost then LinkState.up1 else .up2
    | st => st
  if st = x.state then s
  else
    let up := st == .up2 || st == .up1
    let s := s.setLink d p { x with state := st, peer := if up then peer % 256 else 0 }
    let s := if st = .train then
        let s := s.setDieReg d (0x284 + 2 * p) 0#64
        if lost then s else s.setDieReg d (0x285 + 2 * p) 0#64
      else s
    let s := if st == .down && (x.state == .up2 || x.state == .up1) then s.failRemote x.peer else s
    s.linkEvent d

/-- LINK_EN_WRITE (R388): a write of LINKp; EN going to 1 starts the port's training. The place is the die, the index the port. -/
def execLinkEnWrite (s : State) : Out :=
  event (modify fun s =>
    let d := s.subject.place
    let p := s.subject.index % 2
    let on := bitAt s.subject.value.toNat 0
    let x := s.link d p
    let s := s.setLink d p { x with en := on }
    if on && !x.en && x.state == .down then s.linkTo d p .train 0 else s) s

/-- LINK_STATE_CHANGE (R388, R389): an enabled port reaches the state whose code is the value, its peer in the address; any
port can go down. -/
def execLinkStateChange (s : State) : Out :=
  event (modify fun s =>
    let d := s.subject.place
    let p := s.subject.index % 2
    let st : LinkState := match s.subject.value.toNat % 4 with
      | 0 => .down
      | 1 => .train
      | 2 => .up2
      | _ => .up1
    if st == .down || (s.link d p).en then s.linkTo d p st s.subject.addr.toNat else s) s

/-- A counter of 32 bits in a register, at bit `lo`, raised and saturating. -/
def bumpField (v : Dword) (lo : Nat) : Dword :=
  if bits v.toNat lo 32 = 2 ^ 32 - 1 then v else v + BitVec.ofNat 64 (2 ^ lo)

/-- FLIT_RECEIVE (R389, R396): a flit reaches a port on a lane: the index is the port, the address the lane, the value the sequence
number and the flag whether its CRC is right. A bad flit is answered by a NAK that names it, and every later one is discarded
until it comes again. -/
def execFlitReceive (s : State) : Out :=
  event (modify fun s =>
    let d := s.subject.place
    let p := s.subject.index % 2
    let reg := 0x288 + 2 * p + s.subject.addr.toNat % 2
    let seq := s.subject.value.toNat
    let x := s.link d p
    if s.subject.flag then
      if seq = x.rxSeq then s.setLink d p { x with rxSeq := x.rxSeq + 1, discarding := false } else s
    else
      let s := s.setDieReg d reg (bumpField (s.dieReg d reg) 0)
      if seq = x.rxSeq then
        (s.setDieReg d reg (bumpField (s.dieReg d reg) 32)).setLink d p
          { x.send with discarding := true, nak := some seq }
      else s) s

/-- FLIT_NAK (R389): a sender replays from the flit whose number is the value; a NAK of the flit it has begun to replay is a failed replay,
and the eighth in a row retrains the port. -/
def execFlitNak (s : State) : Out :=
  event (modify fun s =>
    let d := s.subject.place
    let p := s.subject.index % 2
    let seq := s.subject.value.toNat
    let x := s.link d p
    let again := x.replay.dropWhile (· != seq)
    let failed := if x.resend.head? = some seq then x.failed + 1 else 0
    if failed = 8 then (s.setLink d p { x with replay := again, resend := again, failed := 0 }).due .laneRetrain d p
    else s.setLink d p { x with replay := again, resend := again, failed := failed }) s

/-- LANE_RETRAIN (R389): the port retrains on the lane that remains, lane 1 being lost; with none left it goes down. -/
def execLaneRetrain (s : State) : Out :=
  event (modify fun s =>
    let d := s.subject.place
    let p := s.subject.index % 2
    if s.lane1Lost d p then s.linkTo d p .down 0
    else (((s.setLink d p { s.link d p with lane1 := true }).linkTo d p .train 0).linkEvent d)) s

/-! ## CXL links (R390, R391) -/

/-- Whether a message is a sealed packet's own access at its home, and none of the pushes that come before its effect. -/
def State.isOwn (s : State) (o : Outbound) (gva : Dword) : Bool :=
  (homeAccess o.view o.packet.instr).any fun a =>
    match route s a.1, route s gva with
    | some l, some m => l.bridge == m.bridge && l.home == m.home && l.off / 512 == m.off / 512
    | _, _ => false

/-- A sealed access that is answered as uncorrectable performs nothing; an atomic that waits for its answer writes 0, and its
context traps at the instruction after it (R313). What waited behind it goes. A packet that has only a push waiting there is tried again,
and its push waits for the link (R79). -/
def State.failAnswer (s : State) (core ctx seq : Nat) (gva : Dword) : State :=
  let k := ctxKey core ctx
  match (s.outboundOf core ctx).find? fun o => o.packet.seq == seq with
  | none => s
  | some o =>
    if !s.isOwn o gva then { s with turns := s.turns ++ [.retry (.packet core ctx seq []) []] }
    else
      let s := s.outDone core ctx seq
      let s := match o.packet.instr with
        | .amo .. | .casW .. | .casD .. =>
          let s := (s.fillAnswer core ctx seq 0#64 none).clearPipe k
          s.takeTrap k 0x0E (s.ctxAt k).pc gva
        | _ => s
      s.sendMore core ctx

/-- An access that waited at a booth core for a link that has gone down (R391): a sealed packet's is answered so, any other is made
again and finds the link down. -/
def State.failWaiting (s : State) (m : BoothMsg) : State :=
  match m.who with
  | .packet core ctx seq also =>
    also.foldl (fun s q => s.failAnswer q.1 q.2.1 q.2.2 m.gva) (s.failAnswer core ctx seq m.gva)
  | who => { s with turns := s.turns ++ [.retry who []] }

/-- CXL_LINK_CHANGE (R391): link `index` of a bridge comes up or goes down. The booth core answers the messages queued for a
link that has gone down as uncorrectable data. -/
def execCxlLinkChange (s : State) : Out :=
  event (modify fun s =>
    let b := s.subject.place % 4
    let n := s.subject.index % 4
    let reg := 0x208 + n
    let old := s.bridgeReg b reg
    let s := s.setBridgeReg b reg (if s.subject.flag then old ||| 2#64 else old &&& ~~~2#64)
    let s := s.osEvent b 0x20000#64
    if s.subject.flag then s
    else
      let gone := fun (m : BoothMsg) =>
        match route s m.gva with
        | none => false
        | some l =>
          match leafOf s l with
          | none => false
          | some e => bpaWindow s b ((leafPage e.pte.toNat).2 + l.off % e.size) == some n
      let x := s.bridge b
      let lost := (x.queues.flatMap Prod.snd).filter gone
      let s := s.setBridge b { x with queues := x.queues.map fun q => (q.1, q.2.filter fun m => !gone m) }
      lost.foldl State.failWaiting s) s

/-! ## Margins and heat (R395, R399, R400) -/

/-- VMARG_WRITE (R395): each offset is taken to the nearest limit, and the rails begin to move. -/
def execVmargWrite (s : State) : Out :=
  event (modify fun s =>
    let d := s.subject.place
    let v := s.subject.value.toNat
    let taken := (List.range 4).foldl (fun acc i => acc + clampField 8 10 (bits v (8 * i) 8) * 2 ^ (8 * i)) 0
    (s.setDieReg d 0x280 (BitVec.ofNat 64 (taken + 2 ^ 32))).due .railSettled d) s

/-- RAIL_SETTLED (R395): BUSY clears. -/
def execRailSettled (s : State) : Out :=
  event (modify fun s =>
    let d := s.subject.place
    s.setDieReg d 0x280 (s.dieReg d 0x280 &&& 0xFFFFFFFF#64)) s

/-- DRAM_REFRESH_MODE_CHANGE (R399, R400): the sensor beside a channel reads the value, in sixteenths of a degree; the channel's
mode changes at its next refresh. -/
def execDramRefreshModeChange (s : State) : Out :=
  event (modify fun s =>
    let d := s.subject.place
    let ch := s.subject.index % 16
    let t := s.subject.value.toNat % 2 ^ 16
    let reg := 0x294 + ch / 4
    let at_ := 16 * (ch % 4)
    let s := s.setDieReg d reg (masked (BitVec.ofNat 64 (0xFFFF * 2 ^ at_)) (s.dieReg d reg) (BitVec.ofNat 64 (t * 2 ^ at_)))
    let x := s.die d
    if 85 * 16 < t then s.setDie d { x with refreshDue := x.refreshDue.put ch true }
    else if t < 83 * 16 then s.setDie d { x with refreshDue := x.refreshDue.put ch false }
    else s) s

/-- DRAM_REFRESH (R400): a channel's refresh falls due, and takes the mode that is due. -/
def execDramRefresh (s : State) : Out :=
  event (modify fun s =>
    let d := s.subject.place
    let ch := s.subject.index % 16
    let bit := BitVec.ofNat 64 (2 ^ (48 + ch))
    match (s.die d).refreshDue.find ch with
    | none => s
    | some fast =>
      let old := s.dieReg d 0x298
      let s := s.setDieReg d 0x298 (if fast then old ||| bit else old &&& ~~~bit)
      s.setDie d { s.die d with refreshDue := (s.die d).refreshDue.erase ch }) s

/-- CLUSTER_HOT_CHANGE (R399, R400): a cluster's logic reads the value, in degrees; a cluster that is no longer hot looks for work
again. -/
def execClusterHotChange (s : State) : Out :=
  event (modify fun s =>
    let cl := s.subject.place
    let d := cl / 16
    let old := s.dieReg d 0x298
    let bit := BitVec.ofNat 64 (2 ^ (32 + cl % 16))
    let hot : Bool := bits old.toNat 0 8 < s.subject.value.toNat
    let s := s.setDieReg d 0x298 (if hot then old ||| bit else old &&& ~~~bit)
    if hot then s else s.offer d (cl % 16)) s

/-- THROTTLE_CHANGE (R400): a core's logic reads the value, in degrees; past TJLIM it is throttled, and at 5 °C below no more. -/
def execThrottleChange (s : State) : Out :=
  event (modify fun s =>
    let c := s.subject.place
    let t := s.subject.value.toNat
    let lim := bits (s.dieReg (dieOf c) 0x298).toNat 8 8
    if lim < t then s.setCore c { s.core c with throttled := true }
    else if t + 5 ≤ lim then s.setCore c { s.core c with throttled := false }
    else s) s

end Sys2Proof.Machine
end

