-- ==== Sys2Proof/Machine/Homes.lean ====
section
/-!
DEFINITION. The steps at a home NI (R369 to R377): translation, what waits on a page and is released or tried again, lent banks,
migration, and the net pools (R116).
-/
namespace Sys2Proof.Machine

/-! ## Translation and what waits for it -/

/-- NI_TRANSLATION (R369 to R374): a home NI translates an address: the place is the home, the address the GVA, bits [2:0] of
the value say read, write and fetch, and bit 3 the secure world. With the flag it writes the WAIT field of a record just
parked instead: the address is the record's, and the value the GVA it waits for. -/
def execNiTranslation (s : State) : Out :=
  eventHeld .niTranslation (do
    let j := s.subject
    if j.flag then
      let _ ← strongPut (niAgent (j.place % 64) true) (j.addr + 56#64) (bytesOfNat 8 j.value.toNat) 0
    else
      match route s j.addr with
      | none => pure ()
      | some l =>
        let v := j.value.toNat
        let need : Need := if bitAt v 2 then .exec else if bitAt v 1 then .write else .read
        if l.place = j.place then set (niAccess s l (bitAt v 3) need).2) s

/-- MIG_REWALK (R376): at an XLINV, every 1,024 cycles, and when a drop or a full queue has ended. -/
def execMigRewalk (s : State) : Out := event (modify fun s => s.rewalk s.subject.place) s

/-- FLTRES_WRITE (R354, R374, R375): the NI walks the address afresh; where its leaf is now valid, what is parked or held on the
page is released, and nothing else: a record is enqueued with the RPTS it carried, a held access is performed. A park entry is then
free for an answer that was withheld. -/
def execFltresWrite (s : State) : Out :=
  event (modify fun s =>
    let d := s.subject.place
    match route s s.subject.value with
    | none => s
    | some l =>
      match leafOf s l with
      | none => s
      | some e =>
        let inPage := fun (gva : Dword) =>
          match route s gva with
          | none => false
          | some q => q.bridge == l.bridge && q.home == l.home && e.covers q.off
        let here := fun (p : Park) => inPage p.gva
        let x := s.die d
        let go := fun (h : Hold) => h.absent && inPage h.gva
        let s := s.setDie d { x with parks := x.parks.filter fun p => !here p, holds := x.holds.filter fun h => !go h }
        let again := (x.holds.filter go).map fun (h : Hold) => Turn.retry h.who []
        let s : State := { s with turns := again ++ s.turns }
        ((x.parks.filter here).foldl (fun s p => s.requeue p.record p.rpts) s).unwithhold d) s

/-! ## Lent banks (R371, R373) -/

/-- LENDBANKS_WRITE (R373): a set bit lends its bank at once; a cleared one discards the bank's entries and reclaims it. The bit of a bank
that the defect map disables is ignored. -/
def execLendbanksWrite (s : State) : Out :=
  event (modify fun s =>
    let d := s.subject.place
    let v := s.subject.value &&& 0xFFFFFFFF#64
    let old := s.dieReg d 0x1D1
    let cleared := (List.range 32).filter fun b => bitAt old.toNat b && !bitAt v.toNat b && !bitAt ((s.die d).fuse.get 0#64 13).toNat b
    let s := s.setDieReg d 0x1D1 v
    if cleared.isEmpty then s
    else
      let x := s.die d
      let s := s.setDie d { x with
        lent := x.lent.filter fun e => !cleared.contains e.1, reclaiming := x.reclaiming ++ cleared.filter fun b => !x.reclaiming.contains b }
      cleared.foldl (fun s b => s.due .lentBankReclaimDone d b) s) s

/-- LENT_BANK_RECLAIM_DONE (R373): the bank's 1 MiB is zeroed and the bank is part of the die scratchpad again. -/
def execLentBankReclaimDone (s : State) : Out :=
  event (modify fun s =>
    let d := s.subject.place
    let b := s.subject.index
    let x := s.die d
    if x.reclaiming.contains b then
      (s.zeroRange (dsBase d + b * 2 ^ 20) (2 ^ 20)).setDie d { x with reclaiming := x.reclaiming.filter (· != b) }
    else s) s

/-! ## Migration (R376, R377, R108, R123) -/

/-- The page that MIGGVA, MIGSRC and MIGCTL describe, where its leaf agrees with them: the key of its first byte, its base and
its size. -/
def State.migPage (s : State) (d : Nat) : Option (Nat × Nat × Nat) :=
  match route s (s.dieReg d 0x1D8) with
  | none => none
  | some l =>
    match leafOf s l with
    | none => none
    | some e =>
      let size := 2 ^ bits (s.dieReg d 0x1DB).toNat 0 5
      let base := (leafPage e.pte.toNat).2
      if !l.bridge && l.home == d && pteMig e.pte.toNat && base == (s.dieReg d 0x1D9).toNat && e.size == size then
        some (d * 2 ^ 48 + e.base, base, size)
      else none

/-- MIGCTL with ERR set and BUSY clear. -/
def State.migError (s : State) (d : Nat) : State :=
  s.setDieReg d 0x1DB ((s.dieReg d 0x1DB &&& ~~~0x40#64) ||| 0x80#64)

/-- MIGCTL_GO (R377): the engine starts, or is refused; ignored while it is busy. Drops that wait to restore the page go on, and the
engine waits for them (R123). -/
def execMigctlGo (s : State) : Out :=
  event (modify fun s =>
    let d := s.subject.place
    if bitAt (s.dieReg d 0x1DB).toNat 6 then s
    else match s.migPage d with
      | none => s.migError d
      | some _ =>
        let s := (s.setDieReg d 0x1DB (s.dieReg d 0x1DB ||| 0x40#64)).due .migRewalk d
        s.due .migrationComplete d) s

/-- The bytes, marks and times of a page carried to another place, as they are (R377). -/
def State.movePage (s : State) (src dst size : Nat) : State :=
  let inside := fun (a : Nat) => src ≤ a && a < src + size
  let s := s.setBytes dst (s.bytes src size)
  let marks := s.marks.filter fun a => !(dst ≤ a && a < dst + size)
  let moved := (s.marks.filter inside).map fun a => a - src + dst
  let grains := (s.marks.filter fun a => grainMark src ≤ a && a < grainMark (src + size)).map fun a => a - src + dst
  let s := { s with marks := moved ++ grains ++ marks.filter fun a => !(grainMark dst ≤ a && a < grainMark (dst + size)) }
  (List.range (size / 32)).foldl (fun s i =>
    { s with times := s.times.put (dst / 32 + i) (s.times.get (0, 0) (src / 32 + i)) }) s

/-- The lines of a page dropped from the L2 of their die (R377). -/
def State.dropLines (s : State) (d src size : Nat) : State :=
  (List.range 16).foldl (fun s i =>
    let cache := sliceCache d i
    { s with frames := s.frames.put cache ((s.frames.get [] cache).filter fun f =>
      !(f.id < guestFrame 0 && src ≤ f.id * 512 && f.id * 512 < src + size)) }) s

/-- What the migration engine is admitted with at a slice: a turn for all the page's lines there. -/
def pagePass (key src i : Nat) : Admission :=
  { key := key + i, off := src, size := 32, ways := [], last := false, keep := false, counter := none }

/-- The engine's turn at the slices of a page (R88): while requests for its lines wait at one, it waits behind them there, once. -/
def contendPage (d key src size : Nat) : Mach Unit := do
  let s ← get
  let inside := fun (r : HomeReq) => key ≤ r.adm.key && r.adm.key < key + size
  let x := s.die d
  match (List.range 16).find? fun i =>
      !(s.pass.any fun p => p.key == key + i) &&
        ((x.reqs.get [] i).any inside || (x.dram.get [] i).any fun r => inside r.req) with
  | none => pure ()
  | some i => throw (.hold (.slice d i 7 (pagePass key src i)))

/-- MIGRATION_COMPLETE (R377, R108, R123): the page's Brine grains are harvested and every grain is copied, data and times; a
drop over the page is waited for, and a harvest that cannot be begun stops the engine with ERR before the copy. -/
def execMigrationComplete (s : State) : Out :=
  let d := s.subject.place
  eventHeld .migrationComplete (do
    if bitAt (s.dieReg d 0x1DB).toNat 6 then
      match s.migPage d with
      | none => modify fun s => s.migError d
      | some (key, src, size) =>
        if s.nets.any fun e => e.2.state == .dropping && rangesMeet e.2.baseKey e.2.len key size then pure ()
        else if ← harvestAll (s.brineIn key size) then
          contendPage d key src size
          modify fun s =>
            ((s.movePage (dramBase d + src) (dramBase d + (s.dieReg d 0x1DA).toNat) size).dropLines d src size).setDieReg d 0x1DB
              (s.dieReg d 0x1DB &&& ~~~0x40#64)
        else modify fun s => s.migError d) s

/-! ## Net pools (R116, R121) -/

/-- A net without the mark of a die: open again where no home is marked. -/
def Net.unbreak (n : Net) (d : Nat) : Net :=
  let left := n.brokenAt.filter (· != d)
  { n with brokenAt := left, state := if n.state == .broken && left.isEmpty then .opened else n.state }

/-- A die's pool with another number of slots: its index stands behind them, and shadows in slots that are no more move to the first
ones (assumption log, entry 43). -/
def State.resizePool (s : State) (d slots : Nat) : State :=
  let mine := s.shadows.filter fun w => w.die == d
  let held := mine.map s.shadowData
  let s := s.setDieReg d 0x1A1 (BitVec.ofNat 64 slots)
  if mine.all fun w => decide (w.slot < slots) then mine.foldl State.writeIndex s
  else
    let moved := mine.mapIdx fun i w => { w with slot := i }
    (moved.zip held).foldl (fun s p => s.writeShadow p.1 p.2.1 p.2.2)
      { s with shadows := (s.shadows.filter fun w => w.die != d) ++ moved }

/-- NETPSLOTS_WRITE (R116, R121): a value below the slots in use takes their number; a rise is an extension of the pool, for which
pushes may have waited (R107). -/
def execNetpslotsWrite (s : State) : Out :=
  event (modify fun s =>
    let d := s.subject.place
    let old := (s.dieReg d 0x1A1).toNat
    let new := max (s.subject.value.toNat % 2 ^ 28) (s.slotsUsed d)
    let s := s.resizePool d new
    if old < new then ({ s with nets := s.nets.map fun e => (e.1, e.2.unbreak d) } : State).due .migRewalk d else s) s

/-- NETPBASE_WRITE (R116): ignored while a slot is in use. -/
def execNetpbaseWrite (s : State) : Out :=
  event (modify fun s =>
    let d := s.subject.place
    if s.slotsUsed d = 0 then s.setDieReg d 0x1A0 (s.subject.value &&& 0x0000FFFFFFFF0000#64) else s) s

end Sys2Proof.Machine
end

