-- ==== Sys2Proof/Machine/Image.lean ====
section
/-!
DEFINITION. The save image (R358 to R361): what a die's save engine writes of its cores and contexts, and what a resume reads
back. Where the manual names a part and not its bytes, the layout is the model's (assumption log, entry 28).
-/
namespace Sys2Proof.Machine

/-! ## Context records (R358, R361) -/

/-- XLIVE, VLIVE, KLIVE and ALIVE with everything live. -/
def allLive : Dword × Dword := (0xFFFFFFFFFFFFFFFF#64, 0xFFFFFFFFFFF#64)

def RepState.code : RepState → Nat
  | .idle | .capturing => 0
  | .reissuing => 1
  | .held => 2

/-- A repetition buffer: state, n, STAG, REP's PC and ITER; the clause's halfwords follow. -/
def RepBuf.bytes (r : RepBuf) : List Byte :=
  bytesOfNat 1 r.st.code ++ bytesOfNat 1 r.items.length ++ bytesOfNat 1 r.stag ++ bytesOfNat 5 0 ++ bytesOfNat 8 r.pc.toNat ++
    bytesOfNat 8 r.iter ++ bytesOfNat 8 0 ++
    (r.items.flatMap fun i => bytesOfNat (if i.long then 4 else 2) i.raw)

/-- The clause's instructions from their halfwords, each at the address after the one before. -/
def itemsFrom : Nat → Dword → List Byte → List ClauseItem
  | 0, _, _ => []
  | n + 1, pc, bs =>
    let long := field bs 0 2 % 2 == 1
    let len := if long then 4 else 2
    { pc := pc, raw := field bs 0 len, long := long } :: itemsFrom n (pc + BitVec.ofNat 64 len) (bs.drop len)

/-- A repetition buffer read back. -/
def RepBuf.ofBytes (bs : List Byte) : RepBuf :=
  let n := field bs 1 1
  let pc := BitVec.ofNat 64 (field bs 8 8)
  let items := itemsFrom n (pc + 4) (bs.drop 32)
  match field bs 0 1 with
  | 0 => RepBuf.empty
  | st =>
    { st := if st = 1 then .reissuing else .held, pc := pc, items := items,
      after := items.foldl (fun _ i => i.pc + (if i.long then 4#64 else 2#64)) (pc + 4), iter := field bs 16 8,
      stag := field bs 2 1 }

def Handle.bytes (h : Handle) : List Byte :=
  if h.ready then
    bytesOfNat 4 h.off ++ bytesOfNat 4 h.base ++ bytesOfNat 4 h.slot ++ bytesOfNat 2 h.n ++ bytesOfNat 2 h.pres.toNat
  else bytesOfNat 16 0

def Handle.ofBytes (bs : List Byte) : Handle :=
  if field bs 12 2 = 0 then Handle.unset
  else
    { ready := true, off := field bs 0 4, base := field bs 4 4, slot := field bs 8 4, n := field bs 12 2,
      pres := BitVec.ofNat 16 (field bs 14 2) }

/-- A port: its binding, its place in the slot and how many bytes are staged, and its staging buffer. -/
def PortSt.bytes (p : PortSt) : List Byte :=
  bytesOfNat 1 p.bound.toNat ++ bytesOfNat 1 (if p.dir == .write then 1 else 0) ++ bytesOfNat 1 p.ring.val ++
    bytesOfNat 1 p.esize ++ bytesOfNat 1 p.z.toNat ++ bytesOfNat 1 p.staged.length ++ bytesOfNat 2 0 ++ bytesOfNat 8 p.pos ++
    bytesOfNat 16 0 ++ (p.staged ++ List.replicate 32 0#8).take 32

def PortSt.ofBytes (bs : List Byte) : PortSt :=
  if field bs 0 1 = 0 then PortSt.unbound
  else
    { bound := true, dir := if field bs 1 1 = 1 then .write else .read, ring := Fin.ofNat 16 (field bs 2 1),
      esize := field bs 3 1, z := field bs 4 1 == 1, pos := field bs 8 8, staged := (bs.drop 32).take (field bs 5 1) }

/-- The CSRs of a record, in its order. -/
def Ctx.savedCsrs (c : Ctx) (ctx : Nat) : List Dword :=
  [c.fcsr, c.ctxcfg, c.wofs, BitVec.ofNat 64 c.pts, c.lease, c.bartmo, BitVec.ofNat 64 ctx, c.unitid, c.launchid, c.merrlog,
    c.merrcnt, c.trapcause, c.trappc, c.trapval, c.trapvec]

def vvalBytes (v : VVal) : List Byte := v.toList.flatMap fun w => bytesOfNat 4 w.toNat
def accBytes (a : AccVal) : List Byte := a.toList.flatMap fun r => r.toList.flatMap fun w => bytesOfNat 4 w.toNat

/-- The answer of a record: one that is held, or the destination of the one that a BAR still awaits (R357, R361). -/
def Ctx.answerPart (c : Ctx) : Nat × Nat :=
  match c.answer, c.status with
  | some (r, v), _ => (v.toNat, r.val)
  | none, .waiting (.barrier ..) (some rd) => (0, rd.val)
  | none, _ => (0, 0)

/-- A context's record (R361) under liveness masks, as offsets and bytes; a register that is not live is not written. -/
def Ctx.recordParts (c : Ctx) (ctx : Nat) (live : Dword × Dword) : List (Nat × List Byte) :=
  let flags := 1 + c.inHandler.toNat * 2 + c.answer.isSome.toNat * 4 + (if c.rep.st == .idle then 0 else 8) + (if c.region.isSome then 16 else 0) +
    (if c.record.isSome then 32 else 0)
  -- bit 0 of XLIVE and bit 32 of the second word are ignored (R215)
  let x := live.1.toNat / 2 * 2
  let o := (live.2 &&& ~~~0x100000000#64).toNat
  [(0x000, bytesOfNat 8 flags), (0x008, bytesOfNat 8 c.pc.toNat), (0x010, bytesOfNat 8 x ++ bytesOfNat 8 (o % 2 ^ 44)),
    (0x020, bytesOfNat 8 c.answerPart.1 ++ bytesOfNat 8 c.answerPart.2), (0x030, bytesOfNat 8 (c.record.getD 0#64).toNat),
    (0x040, (c.savedCsrs ctx).flatMap fun w => bytesOfNat 8 w.toNat), (0x0C0, c.rep.bytes),
    (0x180, c.handles.toList.flatMap Handle.bytes), (0x280, c.ports.toList.flatMap PortSt.bytes),
    (0x380, bytesOfNat 1 (c.region.getD 0) ++ bytesOfNat 1 c.region.isSome.toNat)] ++
  ((List.range 64).filter (bitAt x)).map (fun i => (0x400 + 8 * i, bytesOfNat 8 (c.getX (Fin.ofNat 64 i)).toNat)) ++
  ((List.range 32).filter (bitAt o)).map (fun i => (0x600 + 64 * i, vvalBytes (c.getV (Fin.ofNat 32 i)))) ++
  ((List.range 8).filter fun i => bitAt o (32 + i)).map (fun i => (0xE00 + 2 * i, bytesOfNat 2 (c.getK (Fin.ofNat 8 i)).toNat)) ++
  ((List.range 4).filter fun i => bitAt o (40 + i)).map (fun i => (0x1000 + 1024 * i, accBytes (c.getAcc (Fin.ofNat 4 i))))

/-- Words of a vector register from bytes. -/
def vvalOf (bs : List Byte) : VVal := Vector.ofFn fun i => BitVec.ofNat 32 (field bs (4 * i.val) 4)
def accOf (bs : List Byte) : AccVal := Vector.ofFn fun r => Vector.ofFn fun i => BitVec.ofNat 32 (field bs (64 * r.val + 4 * i.val) 4)

/-- A context read back from its record's 8 KiB (R358, R362): registers that were not saved are zero, or all ones for a k
register. Reserved bits of its registers are zero (R5). `base` holds what the record has no place for; with `old`, logical times are zero (R365). -/
def Ctx.ofRecord (base : Ctx) (bs : List Byte) (old : Bool) : Ctx :=
  let d := fun (off : Nat) => BitVec.ofNat 64 (field bs off 8)
  let flags := field bs 0 8
  let x := field bs 0x10 8 / 2 * 2
  let o := (d 0x18 &&& ~~~0x100000000#64).toNat
  let c : Ctx := { base with
    pc := d 8, npc := d 8, fcsr := d 0x40 &&& 0x1F7F1F#64, ctxcfg := d 0x48 &&& 3#64, wofs := d 0x50 &&& 0xF#64,
    pts := if old then 0 else (d 0x58).toNat % 2 ^ 48, lease := leaseTaken (d 0x60), bartmo := d 0x68 &&& 0xFFFFFFFF#64,
    unitid := d 0x78 &&& 0xFFFFFFFF#64, launchid := d 0x80 &&& 0xFFFFFFFF#64, merrlog := d 0x88 &&& 0x7FFF#64,
    merrcnt := d 0x90 &&& 0xFFFFFFFF#64, trapcause := d 0x98 &&& 0x1FF#64, trappc := d 0xA0, trapval := d 0xA8,
    trapvec := d 0xB0 &&& ~~~1#64,
    rep := RepBuf.ofBytes ((bs.drop 0xC0).take 0xC0),
    handles := Vector.ofFn fun i => Handle.ofBytes ((bs.drop (0x180 + 16 * i.val)).take 16),
    ports := Vector.ofFn fun i => PortSt.ofBytes ((bs.drop (0x280 + 64 * i.val)).take 64),
    region := if field bs 0x381 1 = 1 then some (field bs 0x380 1) else none, pending := none, fills := [],
    answer := none, record := if bitAt flags 5 then some (d 0x30) else none, rpts := if old then 0 else base.rpts,
    x := Vector.replicate 64 0#64,
    v := Vector.ofFn fun i => if bitAt o i.val then vvalOf (bs.drop (0x600 + 64 * i.val)) else VVal.zero,
    k := Vector.ofFn fun i => if bitAt o (32 + i.val) then BitVec.ofNat 16 (field bs (0xE00 + 2 * i.val) 2) else 0xFFFF#16,
    acc := Vector.ofFn fun i => if bitAt o (40 + i.val) then accOf (bs.drop (0x1000 + 1024 * i.val)) else AccVal.zero }
  let c := ((List.range 64).filter (bitAt x)).foldl (fun c i => c.setX (Fin.ofNat 64 i) (d (0x400 + 8 * i))) c
  if bitAt flags 2 then c.setX (Fin.ofNat 64 (field bs 0x28 1)) (d 0x20) else c

/-! ## Core blocks (R360) -/

/-- A phaser slot: PHASE, SIGS, ARRIVED, PEND, the accumulating word with its COUNT, and the latched word. -/
def Phaser.bytes (p : Phaser) : List Byte :=
  bytesOfNat 4 p.phase.toNat ++ bytesOfNat 2 p.sigs ++ bytesOfNat 2 p.arrived ++ bytesOfNat 8 p.pend ++
    bytesOfNat 8 (p.accum ||| BitVec.ofNat 64 (min p.count 0xFFFF * 2 ^ 16)).toNat ++ bytesOfNat 8 p.latched.toNat

/-- A slot read back; `base` holds what the layout has no place for. -/
def Phaser.ofBytes (base : Phaser) (bs : List Byte) (old : Bool) : Phaser :=
  let w := BitVec.ofNat 64 (field bs 16 8)
  { base with
    phase := BitVec.ofNat 32 (field bs 0 4), sigs := field bs 4 2, arrived := field bs 6 2, pend := field bs 8 4,
    accum := w &&& ~~~0xFFFF0000#64, count := bits w.toNat 16 16, latched := BitVec.ofNat 64 (field bs 24 8),
    pts := if old then 0 else base.pts, flipPts := if old then base.flipPts.map fun _ => 0 else base.flipPts,
    waiters := base.waiters.filter fun w => w.record.isSome }

/-- The second doubleword of a suspension entry: what the unit waits for, in its low word; the kind, 1 a phaser, 2 a barrier, 3 a ring; and
where: the phaser's slot and core, or the barrier's kind. -/
def phaserEntry (core slot : Nat) (phase : Word) : Nat := phase.toNat + 2 ^ 32 + slot * 2 ^ 34 + core * 2 ^ 41
def barrierEntry (b : BarrierInst) : Nat := b.number % 2 ^ 32 + 2 ^ 33 + b.kind.code * 2 ^ 34
def ringEntry (off : Nat) : Nat := off + 2 ^ 33 + 2 ^ 32

/-- Suspended units of a core and what they wait for, as its suspension entries list them (R152, R360). -/
def State.suspensions (s : State) (core : Nat) : List (Nat × Nat) :=
  (s.cores.flatMap fun e => e.2.phasers.flatMap fun p => p.2.waiters.filterMap fun w =>
    if w.core = core then w.record.map fun r => (r.toNat, phaserEntry e.1 p.1 w.phase) else none) ++
  (s.barriers.flatMap fun b => b.arrivals.flatMap fun a =>
    if a.core = core then a.waiters.filterMap fun w => w.2.2.map fun r => (r.toNat, barrierEntry b) else []) ++
  (s.core core).watchers.map fun w => (w.record.toNat, ringEntry w.off)

/-- The suspension entries of a block. -/
def entriesOf (bs : List Byte) : List (Nat × Nat) :=
  ((List.range 64).map fun i => (field bs (0xD00 + 16 * i) 8, field bs (0xD08 + 16 * i) 8)).filter fun e => e.2 != 0

/-- The suspended units of a core as its block's entries list them: no other waits, and one on a phaser that is not there yet joins it. -/
def State.restoreEntries (s : State) (core : Nat) (es : List (Nat × Nat)) : State :=
  let listed := fun (e : Nat) (slot : Nat) (w : Waiter) =>
    w.core != core || w.record.all fun r => es.contains (r.toNat, phaserEntry e slot w.phase)
  let s : State := { s with
    cores := s.cores.map fun e => (e.1, { e.2 with
      phasers := e.2.phasers.map fun p => (p.1, { p.2 with waiters := p.2.waiters.filter (listed e.1 p.1) }) })
    barriers := s.barriers.map fun b => { b with
      arrivals := b.arrivals.map fun a =>
        if a.core = core then { a with waiters := a.waiters.filter fun w => w.2.2.all fun r => es.contains (r.toNat, barrierEntry b) }
        else a } }
  es.foldl (fun (s : State) e =>
    let at_ := bits e.2 41 14
    let slot := bits e.2 34 7
    let x := s.core at_
    let p := x.phasers.get Phaser.reset slot
    let record := BitVec.ofNat 64 e.1
    if bits e.2 32 2 = 1 && dieOf at_ == dieOf core && !(p.waiters.any fun w => w.core == core && w.record == some record) then
      let w : Waiter :=
        { core := core, ctx := 0, phase := BitVec.ofNat 32 e.2, rd := none, st := false, record := some record }
      s.setCore at_ { x with phasers := x.phasers.put slot { p with waiters := p.waiters ++ [w] } }
    else s) s

/-- The ring watchers of a block (R152, R360); `base` holds their times. -/
def watchersOf (base : List Watcher) (bs : List Byte) (old : Bool) : List Watcher :=
  (List.range 8).filterMap fun i =>
    let record := BitVec.ofNat 64 (field bs (0x1108 + 16 * i) 8)
    let n := field bs (0x1104 + 16 * i) 4
    let pts := ((base.find? fun w => w.record == record).map (·.pts)).getD 0
    if n = 0 then none else some { off := field bs (0x1100 + 16 * i) 4, n := n, record := record, pts := if old then 0 else pts }

/-- The suspension entries of a block, those that are free zero. -/
def entryBytes (es : List (Nat × Nat)) : List Byte :=
  (es.flatMap fun e => bytesOfNat 8 e.1 ++ bytesOfNat 8 e.2) ++ List.replicate (16 * (64 - es.length)) 0#8

/-- What a core's block holds beside its context records. -/
def State.coreParts (s : State) (core : Nat) : List (Nat × List Byte) :=
  let x := s.core core
  [(0, bytesOfNat 8 x.workcfg.toNat ++ (List.range 16).flatMap fun i => bytesOfNat 1 (((x.wfmt.find i).map (·.code)).getD 0xFF)),
    (0x100, (List.range 96).flatMap fun i => (x.phasers.get Phaser.reset i).bytes),
    (0xD00, entryBytes ((s.suspensions core).take 64)),
    (0x1100, (x.watchers.flatMap fun w => bytesOfNat 4 w.off ++ bytesOfNat 4 w.n ++ bytesOfNat 8 w.record.toNat) ++
      List.replicate (16 * (8 - x.watchers.length)) 0#8),
    (0x2000, (List.range 1024).flatMap fun i => bytesOfNat 4 (x.dict.get 0#32 i).toNat),
    (0x20000, s.bytes (wbBase core 0) 0x10000), (0x30000, s.bytes (laneBase core 0) 0x10000),
    (0x40000, s.bytes (spBase core) 0x40000)]

/-- A core read back from its block (R360): `base` holds what the block has no place for. -/
def CoreSt.ofBlock (base : CoreSt) (bs : List Byte) (old : Bool) : CoreSt :=
  let slots := (List.range 96).map fun i =>
    (i, Phaser.ofBytes (base.phasers.get Phaser.reset i) ((bs.drop (0x100 + 32 * i)).take 32) old)
  { base with
    workcfg := BitVec.ofNat 64 (field bs 0 8) &&& 0x7FF#64,
    wfmt := (List.range 16).filterMap fun i => if field bs (8 + i) 1 = 0xFF then none else some (i, MatFmt.ofCode (field bs (8 + i) 1)),
    phasers := slots.filter fun p => p.2 != Phaser.reset,
    dict := (List.range 1024).map fun i => (i, BitVec.ofNat 32 (field bs (0x2000 + 4 * i) 4)),
    watchers := watchersOf base.watchers bs old,
    preempted := false }

/-- The offset of a core's block in the image (R359). -/
def blockOff (core : Nat) : Nat := 0x10000 + coreId core * 0x80000

/-- The offset of a context's record in the image (R359, R360). -/
def recordOff (core ctx : Nat) : Nat := blockOff core + 0x3000 + ctx * 0x2000

/-! ## The index block (R359) -/

/-- The instance of a kind and place that BARST shows of a job: its latest that has not completed. -/
def State.shown (s : State) (job : Nat) (kind : BarKind) (place : Nat) : Option BarrierInst :=
  (s.barriers.filter fun b =>
    b.kind == kind && b.place == place && !b.complete && (s.launchesOf .job job).contains b.launch).getLast?

/-- Arrivals and poison of a job's `.row`, `.col` and `.mesh` instances on a die: a byte for each row and column, a halfword for the
mesh, the poison bit highest. -/
def State.barst (s : State) (d job : Nat) : List Byte :=
  let one := fun (kind : BarKind) (place poison : Nat) =>
    match s.shown job kind place with
    | none => 0
    | some b => b.arrivals.length + if b.poisoned then poison else 0
  ((List.range 16).flatMap fun i => bytesOfNat 1 (one .row (16 * d + i) 0x80)) ++
    ((List.range 16).flatMap fun i => bytesOfNat 1 (one .col (16 * d + i) 0x80)) ++ bytesOfNat 2 (one .mesh d 0x8000)

/-- A job's instances on a die as BARST has them (R362): how many have arrived, and whether the instance is poisoned. -/
def State.restoreBarst (s : State) (d job : Nat) (bs : List Byte) : State :=
  let one := fun (s : State) (kind : BarKind) (place n poison : Nat) =>
    match s.shown job kind place with
    | none => s
    | some b => { s with barriers := s.barriers.map fun x =>
        if x = b then { x with poisoned := x.poisoned || poison ≤ n, arrivals := x.arrivals.take (n % poison) } else x }
  let s := (List.range 16).foldl (fun s i => one s .row (16 * d + i) (field bs i 1) 0x80) s
  let s := (List.range 16).foldl (fun s i => one s .col (16 * d + i) (field bs (16 + i) 1) 0x80) s
  one s .mesh d (field bs 32 2) 0x8000

/-- The index block's parts; `valid` says which contexts of a core are saved, none for a core that is not. -/
def State.indexParts (s : State) (d job sstep : Nat) (counts : List Nat) (valid : Nat → Option (List Nat)) : List (Nat × List Byte) :=
  let word := fun (id : Nat) => match valid id with
    | none => 0
    | some ns =>
      1 + ns.foldl (fun w n =>
        w + 2 ^ (1 + n) + if (s.ctxAt (ctxKey (256 * d + id) n)).inHandler then 2 ^ (12 + n) else 0) 0
  [(0, bytesOfNat 8 (0x5A64 + 2 ^ 16 + d * 2 ^ 24)), (8, bytesOfNat 4 job ++ bytesOfNat 4 s.epoch), (16, bytesOfNat 8 s.mtime),
    (24, bytesOfNat 8 sstep), (0x100, counts.flatMap (bytesOfNat 4)), (0x200, s.barst d job),
    (0x800, (List.range 256).flatMap fun id => bytesOfNat 8 (word id))]

/-! ## Reaching the image -/

/-- Writes parts of the image. -/
def putParts (d : Nat) (at_ : Dword) (parts : List (Nat × List Byte)) : Mach Unit :=
  eachOf (fun p => do
    let _ ← strongPut (niAgent d true) (at_ + BitVec.ofNat 64 p.1) p.2 0) parts

/-- Reads bytes of the image. -/
def getPart (d : Nat) (image : Dword) (off n : Nat) : Mach (List Byte) := do
  let (bs, _) ← strongBytes (niAgent d true) (image + BitVec.ofNat 64 off) n 0
  return bs

end Sys2Proof.Machine
end

