-- ==== Sys2Proof/Machine/Pipe.lean ====
section
/-!
DEFINITION. The counterflow pipe (R16 to R36, R340 to R342): its two halves, the foot, garner, the sidings, the perch, the seal and
the settling pan; and the steps of the memory system that a core's accesses start.
A subject's place is the core.
-/
namespace Sys2Proof.Machine

/-! ## The lanes (R20, R21, R25 to R27, R30) -/

/-- A source that meets the result it awaits. -/
def Source.meet (r : Source) (ctx : Nat) (x : ResultPkt) : Source :=
  if x.ctx = ctx && x.reg = r.reg && r.await = some x.seq then { r with await := none, value := x.value } else r

/-- Every packet of the up lane meets the result in its stage (R21, R25). -/
def Pipe.garner (p : Pipe) : Pipe :=
  { p with
    up := p.up.map fun e =>
      match p.down.find e.1 with
      | none => e
      | some x => (e.1, { e.2 with srcs := e.2.srcs.map fun r => r.meet e.2.ctx x }) }

/-- The result packet of an executed packet, where it has one to inject. -/
def Packet.resultPkt (q : Packet) : Option ResultPkt :=
  match q.result, q.dest with
  | some v, some r => if q.injected then none else some { ctx := q.ctx, seq := q.seq, reg := r, value := v }
  | _, _ => none

/-- Whether a packet has done what it does at its home stage. -/
def Packet.finished (q : Packet) : Bool := q.executed && q.resultPkt.isNone

/-- A siding's packet, its work done and its result injected, rejoins the lane above its stage (R26); one that traps stays
(R340). The manual gives an order for injecting only: of several that could rejoin, the one that entered the siding first does (DESIGN
CHOICE: assumption log, entry 16). -/
def Pipe.rejoin (p : Pipe) (n : Nat) : Pipe :=
  if (p.up.find (n + 1)).isSome then p
  else
    match p.siding.find? fun e => e.stage == n && e.done && e.packet.fault.isNone && e.packet.finished with
    | none => p
    | some e => { p with siding := p.siding.erase e, up := p.up.put (n + 1) e.packet }

/-- A complete packet at S7 moves into a free perch entry (R30). -/
def Pipe.toPerch (p : Pipe) : Pipe :=
  match p.up.find 7 with
  | none => p
  | some q => if q.complete && p.perch.length < 8 then { p with up := p.up.erase 7, perch := p.perch ++ [q] } else p

/-- Whether a source awaits a packet in the siding at a stage (R27). -/
def Pipe.awaits (p : Pipe) (q : Packet) (n : Nat) : Bool :=
  q.srcs.any fun r => r.await.any fun w =>
    p.siding.any fun e => e.stage == n && e.packet.ctx == q.ctx && e.packet.seq == w

/-- Whether a packet may leave a stage upward: not past its home before it has executed there and injected its result, nor past a packet
it awaits. -/
def Pipe.mayClimb (p : Pipe) (n : Nat) (q : Packet) : Bool :=
  !p.awaits q n && (n != homeStage q.instr || q.fault.isSome || q.finished)

/-- What moves into a stage in an up half: a packet of the siding below, or the packet below. -/
def Pipe.climb (p : Pipe) (n : Nat) : Pipe :=
  let p := p.rejoin (n - 1)
  if (p.up.find n).isSome then p
  else
    match p.up.find (n - 1) with
    | none => p
    | some q => if p.mayClimb (n - 1) q then { p with up := (p.up.erase (n - 1)).put n q } else p

/-- Whether an entry keeps its place in its siding, or in the service of S5: until its work is done and its result is injected (R26); a
packet that traps until its seal (R340). -/
def SidingEntry.holdsPlace (e : SidingEntry) : Bool := !(e.done && e.packet.fault.isNone && e.packet.finished)

/-- Whether a siding has room for an instruction, the entry queue at S5 (R17, R254). -/
def Pipe.room (p : Pipe) (n : Nat) (i : Instr) : Bool :=
  let here := p.siding.filter fun e => e.stage == n && e.holdsPlace
  let count := fun (f : Instr → Bool) => (here.filter fun e => f e.packet.instr).length
  let isDiv : Instr → Bool := fun i => match i with
    | .div .. | .divu .. | .rem .. | .remu .. => true
    | _ => false
  let isVDiv : Instr → Bool := fun i => match i with
    | .vfdiv .. | .vfsqrt .. => true
    | _ => false
  match n with
  | 3 => if isDiv i then count isDiv < 1 else count (fun i => !isDiv i) < 3
  | 4 => here.length < 4 && !(isVDiv i && 0 < count isVDiv)
  | 5 => (here.filter fun e => !e.started).length < 8
  | _ => here.length < 2

/-! ## The S5 siding (R17, R28, R70, R71) -/

/-- The request slots of a core (R16, R70), and the accesses of local spaces in service (R17). -/
def requestSlots : Nat := 32
def localPlaces : Nat := 8

/-- The 32-byte sectors of global and `.lw` memory among some spans, by the keys of their copies. -/
def sectorsOf (s : State) (core : Nat) (spans : List Span) : List Nat :=
  let far := spans.filter fun x => x.space == some .global || x.space == some .lw
  ((far.flatMap fun x => (x.keys s core).map fun b => b.1 / 32 * 32)).eraseDups

/-- The 32-byte sectors that `n` bytes from an address touch. -/
def touched (a n : Nat) : Nat := if n = 0 then 0 else (a % 32 + n + 31) / 32

/-- The sectors of global memory that an engine command touches (R70), as far as its operands and its descriptor say: `v` are its operands
in the order DST, SRC, CNT. A GATH's elements count as they lie from SRC, and a collective's as its descriptor counts them
(assumption log, entry 16). -/
def commandSectors (i : Instr) (v : Nat → Nat) (desc : List Byte) : Nat :=
  match i with
  | .copy _ _ _ _ _ side => touched (v 0) (v 2) + if side == .none then touched (v 1) (v 2) else 0
  | .copyIn .. => touched (v 1) (v 2)
  | .copy2 _ _ _ _ _ side =>
    let row := field desc 0 4
    let near := fun (dir : Nat) => side != .none && field desc 24 8 == dir
    (List.range (min requestSlots (field desc 4 4))).foldl (fun n r =>
      n + (if near 0 then 0 else touched (v 1 + r * field desc 8 8) row) +
        if near 1 then 0 else touched (v 0 + r * field desc 16 8) row) 0
  | .gath _ _ _ _ _ side =>
    let n := field desc 0 4
    let e := 2 ^ (field desc 4 4 % 16)
    n * touched (v 1) e + if side == .none then touched (v 0) (n * e) else 0
  | .slcall .. => touched (v 0) 64
  | _ => touched (v 0) (field desc 0 4) + touched (v 1) (field desc 0 4)

/-- What a packet takes of the S5 siding's places: request slots, one for each sector that it stores, or that it loads without a hit in the
L1 (R70, R85), or that a command touches; and whether it is an access of a local space (R17). One that touches more sectors than
there are slots takes all of them (assumption log, entry 16). -/
def State.demand (s : State) (core : Nat) (q : Packet) : Nat × Bool :=
  let v := s.packetView core q
  match (s.ahead core q).ran core q v (stageOf q.instr) (s.olderBytes core q) with
  | none => (0, false)
  | some r =>
    let hits := fun (a : Nat) => !isAcquireLoad q.instr &&
      (s.findCopy (l1Place core) (a - 2 ^ 62)).any fun c => c.2.serves v.pts (some v.lease.toNat) true
    let missed := (sectorsOf s core r.run.loads).filter fun a => !hits a
    let sectors :=
      if isCommand q.instr then commandSectors q.instr (fun i => ((q.srcs[i]?).map Source.value).getD 0) r.run.read
      else (missed ++ sectorsOf s core r.run.spans).eraseDups.length
    (min requestSlots sectors, (r.run.loads ++ r.run.spans).any fun x => x.space != some .global && x.space != some .lw)

/-- Request slots in use. -/
def State.slotsTaken (s : State) (core : Nat) : Nat :=
  let p := s.pipe core
  p.packets.foldl (fun n q => n + q.slots) 0 + (s.core core).outbound.foldl (fun n o => n + o.packet.slots) 0 + p.lost

/-- A siding entry replaced by itself changed. -/
def Pipe.setEntry (p : Pipe) (e : SidingEntry) : Pipe :=
  { p with siding := p.siding.map fun f => if f.packet.ctx = e.packet.ctx && f.packet.seq = e.packet.seq then e else f }

/-- An entry leaves the S5 entry queue for its service, where it may execute and its places are free; of one context in their order
(DESIGN CHOICE: assumption log, entry 16). -/
def State.startOne (s : State) (core ctx seq : Nat) : State :=
  let p := s.pipe core
  match p.siding.find? fun e => e.stage == 5 && e.packet.ctx == ctx && !e.started with
  | none => s
  | some e =>
    if e.packet.seq != seq || !s.mayExecute core e.packet then s
    else
      let (slots, near) := s.demand core e.packet
      if requestSlots < s.slotsTaken core + slots then s
      else if near && localPlaces ≤ (p.siding.filter fun f => f.near && f.holdsPlace).length then s
      else s.setPipe core (p.setEntry { e with started := true, near := near, packet := { e.packet with slots := slots } })

/-- The entries of the S5 queue whose turn it is start. -/
def State.startWaiting (s : State) (core : Nat) : State :=
  ((s.pipe core).siding.filter fun e => e.stage == 5 && !e.started).foldl
    (fun (s : State) e => s.startOne core e.packet.ctx e.packet.seq) s

/-- An entry whose packet has executed is done; the slots of a load are free when its data returns, and a packet of which nothing
goes out at its seal keeps none. One that traps keeps its slots until its seal (R340). -/
def State.entryDone (s : State) (core ctx seq : Nat) : State :=
  let p := s.pipe core
  match p.siding.find? fun e => e.packet.ctx == ctx && e.packet.seq == seq with
  | none => s
  | some e =>
    if !e.packet.executed then s
    else
      let keeps : Bool := manner e.packet.instr == .sent || manner e.packet.instr == .answered || e.packet.fault.isSome
      s.setPipe core (p.setEntry { e with done := true, packet := { e.packet with slots := if keeps then e.packet.slots else 0 } })

/-- Takes an entry's packet again, or for the first time. -/
def State.serveEntry (s : State) (core : Nat) (q : Packet) : State :=
  if q.executed then s.entryDone core q.ctx q.seq
  else if s.mayExecute core q then (s.execute core q).entryDone core q.ctx q.seq
  else s

/-- The oldest packet of the S6 siding that has not started does, where it may: they start in the order in which they have entered (R281,
R282). -/
def State.startMatrix (s : State) (core : Nat) : State :=
  match (s.pipe core).siding.find? fun e => e.stage == 6 && !e.packet.executed with
  | none => s
  | some e =>
    if s.mayExecute core e.packet then (s.setPipe core ((s.pipe core).setEntry { e with started := true })).execute core e.packet
    else s

/-- A PREF at S5 (R71): it starts at once where request slots are free, and else has no effect, and waits for nothing. -/
def State.prefAtHome (s : State) (core : Nat) (q : Packet) : State :=
  let p := s.pipe core
  let (slots, _) := s.demand core q
  if requestSlots < s.slotsTaken core + slots then s.setPipe core (p.update { q with executed := true, complete := true, target := q.npc })
  else
    let e : SidingEntry := { stage := 5, packet := { q with slots := slots }, started := true, near := false, done := false }
    s.setPipe core { p with up := p.up.erase 5, siding := p.siding ++ [e] }

/-- What a packet at its home stage does once its sources are complete (R26, R341, R342). One that enters the S5 siding is checked
against the protection entries of that moment (R378). -/
def State.atHome (s : State) (core n : Nat) : State :=
  let p := s.pipe core
  match p.up.find n with
  | none => s
  | some q =>
    if homeStage q.instr != n || q.executed || q.srcs.any (·.await.isSome) then s
    else if isInline q.instr then
      if isFill q.instr then s.setPipe core (p.update { q with executed := true, complete := q.result.isNone })
      else if s.mayExecute core q then s.execute core q
      else s
    else if isPref q.instr then s.prefAtHome core { q with window := some (s.protection (dieOf core)) }
    else if p.room n q.instr then
      let q := if n = 5 then { q with window := some (s.protection (dieOf core)) } else q
      let e : SidingEntry := { stage := n, packet := q, started := n != 5 && n != 6, near := false, done := false }
      s.setPipe core { p with up := p.up.erase n, siding := p.siding ++ [e] }
    else s

/-- LOAD_DATA_RETURN (R84): the data of a load of the context in the index returns, the value choosing among those that wait for theirs.
With the flag the data is that of a load that has been killed, whose slot it frees (R33). -/
def execLoadDataReturn (s : State) : Out :=
  event (modify fun s =>
    let core := s.subject.place
    let p := s.pipe core
    if s.subject.flag then s.setPipe core { p with lost := p.lost - 1 }
    else
      let mine := p.siding.filter fun e =>
        e.started && e.packet.ctx == s.subject.index && isGlobalLoad e.packet.instr && !e.packet.executed && !e.packet.away
      match mine[s.subject.value.toNat]? with
      | none => s
      | some e => s.serveEntry core e.packet) s

/-- SIDING_COMPLETION (R26): the work of the entry in the index ends; its result is injected in the next down half. A load of global
memory ends when its data returns. -/
def execSidingCompletion (s : State) : Out :=
  event (modify fun s =>
    let core := s.subject.place
    match (s.pipe core).siding[s.subject.index]? with
    | none => s
    | some e =>
      if e.done || !e.started || e.packet.away || (isGlobalLoad e.packet.instr && !e.packet.executed) then s
      else s.serveEntry core e.packet) s

/-- A packet of the siding whose access has waited away from its core is tried again. -/
def State.retryLoad (s : State) (core ctx seq : Nat) : State :=
  match ((s.pipe core).siding.map SidingEntry.packet).find? fun q => q.ctx == ctx && q.seq == seq && q.away with
  | none => s
  | some q => s.serveEntry core q

/-! ## The halves (R20) -/

/-- The start of a cycle: what is complete now may be sealed in it (R29), what is filled now may be written (R31), and the seal line has
moved on. -/
def Pipe.begin (p : Pipe) : Pipe :=
  let ready := fun (q : Packet) => { q with ready := q.complete }
  { p with
    up := p.up.map fun e => (e.1, ready e.2), siding := p.siding.map fun e => { e with packet := ready e.packet },
    perch := p.perch.map ready, even := !p.even, upMade := true, inserted := false, crowned := false, accepted := false,
    panned := false, pan := p.pan.map fun e => { e with ready := e.value.isSome },
    ctxs := p.ctxs.map fun e => (e.1, { e.2 with known := e.2.line, line := e.2.sealed }) }

/-- UP_HALF (R20): instruction packets move up, from S7 down to S0, and act at their home stages; then packets meet results. It follows
a down half. The manual does not say whether a packet that leaves the lane for its siding, having waited at its home stage, frees that
stage for the packet below in the same half: all moves in the lane are made first, so it does not (DESIGN CHOICE: assumption log,
entry 16). -/
def execUpHalf (s : State) : Out :=
  event (modify fun s =>
    let core := s.subject.place
    if (s.pipe core).upMade then s
    else
      let p := [7, 6, 5, 4, 3, 2, 1].foldl Pipe.climb (s.pipe core).begin.toPerch
      let s := [6, 5, 4, 3, 2].foldl (fun (s : State) n => s.atHome core n) (s.setPipe core p)
      let s := (s.startWaiting core).startMatrix core
      s.setPipe core (s.pipe core).garner) s

/-- GARNER (R25). -/
def execGarner (s : State) : Out := event (modify fun s => s.setPipe s.subject.place (s.pipe s.subject.place).garner) s

/-- A move of an up half, which no packet makes in a down half. -/
def State.inUpHalf (s : State) (f : Pipe → Pipe) : State :=
  let p := s.pipe s.subject.place
  if p.upMade then s.setPipe s.subject.place (f p) else s

/-- REJOIN (R26): the index is the siding's stage. -/
def execRejoin (s : State) : Out := event (modify fun s => s.inUpHalf fun p => p.rejoin s.subject.index) s

/-- PERCH_ENTRY (R30): the start of an up half, before its moves, so that no packet enters the perch in the half in which it has come to
S7. -/
def execPerchEntry (s : State) : Out :=
  event (modify fun s =>
    let p := s.pipe s.subject.place
    if p.upMade then s else s.setPipe s.subject.place p.toPerch) s

/-- The result S0 holds enters the pan (R31). -/
def Pipe.toPan (p : Pipe) : Pipe :=
  match p.down.find 0 with
  | none => p
  | some x =>
    { p with
      down := p.down.erase 0,
      pan := p.pan.map fun e => if e.ctx = x.ctx && e.seq = x.seq && !e.external then { e with value := some x.value } else e }

/-- A packet with its result on the way. -/
def Packet.inject (q : Packet) : Packet := { q with injected := true, complete := true }

/-- What moves into a stage of the down lane: the injection of a packet at home there, or the result above (R20, R26). The manual does
not say what happens where a result that an injection below has held back keeps its stage full, nor which of two packets of one
stage injects first when one stands in the lane and the other in the siding: the injection waits a half, and the lane's packet
goes first (DESIGN CHOICE: assumption log, entry 16). -/
def Pipe.descend (p : Pipe) (n : Nat) : Pipe :=
  if (p.down.find n).isSome then p
  else
    let lane := match p.up.find n with
      | some q => if homeStage q.instr = n then q.resultPkt.map fun x => (q, x) else none
      | none => none
    match lane with
    | some (q, x) => { p with down := p.down.put n x, up := p.up.put n q.inject }
    | none =>
      match p.siding.find? fun e => e.stage == n && e.done && e.packet.resultPkt.isSome with
      | some e =>
        match e.packet.resultPkt with
        | some x => { p with down := p.down.put n x }.setEntry { e with packet := e.packet.inject }
        | none => p
      | none =>
        match p.down.find (n + 1) with
        | some x => { p with down := (p.down.erase (n + 1)).put n x }
        | none => p

/-- Whether fetch has gone wrong after a packet: a branch that resolved otherwise, or a surrogate's answer (R33, R128). -/
def Packet.misled (q : Packet) : Bool :=
  q.executed && q.fault.isNone &&
    ((isBranch q.instr && q.target != q.predicted) || q.begun.any fun b => !b.fills.isEmpty)

/-- The kill of a context's oldest packet after which fetch has gone wrong (R33, R34): fetch goes on at its target, after the fill
packets of a surrogate's answer (R129). -/
def State.redirect (s : State) (core n : Nat) : State :=
  match (s.pipe core).packets.filter fun q => q.ctx == n && q.misled with
  | [] => s
  | q :: r =>
    let b := r.foldl (fun b q => if q.seq < b.seq then q else b) q
    let fills := (b.begun.map Begun.fills).getD []
    let s := s.killFrom core n (b.seq + 1) (some b.target)
    let p := (s.pipe core).update { b with
      predicted := b.target, begun := b.begun.map fun g => { g with fills := [] } }
    s.setPipe core (p.setCtx n { p.ctxOf n with fills := fills })

/-- DOWN_HALF (R20): results move down, from S0 up, and the one at S0 enters the pan; packets meet results, and mispredicted
branches kill. Then a waiting deposit takes a pan entry (R36). It follows an up half. -/
def execDownHalf (s : State) : Out :=
  event (modify fun s =>
    let core := s.subject.place
    if !(s.pipe core).upMade then s
    else
      let p := [0, 1, 2, 3, 4, 5, 6].foldl Pipe.descend (s.pipe core).toPan
      let s := s.setPipe core { p.garner with upMade := false }
      let s := (List.range 11).foldl (fun (s : State) n => s.redirect core n) s
      if (s.core core).mailbox.isEmpty then s else s.due .depositArrival core) s

/-! ## The foot (R22 to R24) -/

/-- What a source register holds for a new packet: the youngest pan entry of the context decides (R23). -/
def State.readSource (s : State) (core n r : Nat) : Source :=
  match ((s.pipe core).pan.filter fun e => e.ctx == n && e.reg == r).getLast? with
  | some e =>
    match e.value with
    | some v => { reg := r, await := none, value := v, claim := false }
    | none => { reg := r, await := some e.seq, value := 0, claim := false }
  | none => { reg := r, await := none, value := (s.ctxAt (ctxKey core n)).regNat r, claim := false }

/-- The bound port that a register by its name is, with a direction. -/
def Ctx.boundAs (c : Ctx) (r : Nat) (dir : PortDir) : Option Port :=
  if h : r < 64 then (portOf ⟨r, h⟩).filter fun p => (c.port p).bound && (c.port p).dir == dir else none

/-- The unsealed packets of a context. -/
def Pipe.unsealed (p : Pipe) (n : Nat) : List Packet := p.olderThan n (p.ctxOf n).nextSeq

/-- Elements of a read port that packets in flight have claimed (R64). -/
def Pipe.claimed (p : Pipe) (n : Nat) (port : Port) : Nat :=
  (p.unsealed n).foldl (fun t q => t + (q.srcs.filter fun r => r.claim && r.reg == 60 + port.val).length) 0

/-- Packets in flight that append to a write port. -/
def Pipe.appending (p : Pipe) (c : Ctx) (n : Nat) (port : Port) : Nat :=
  ((p.unsealed n).filter fun q => (destOf q.instr).any fun r => c.boundAs r .write == some port).length

/-- A read port has `n` bytes staged; pieces come from the ring until it has. -/
def stageUpTo (p : Port) (n : Nat) : Nat → Mach Bool
  | 0 => return false
  | fuel + 1 => do
    if n ≤ ((← me).port p).staged.length then return true
    else if ← stagePiece p then stageUpTo p n fuel
    else return false

/-- Whether a context's bound ports let a packet in: every element it reads is staged and unclaimed, and it has room for the one it
appends (R22, R64). -/
def portsReady (core n : Nat) (i : Instr) : Mach Bool := do
  let pipe := (← get).pipe core
  let c ← me
  let ready ← (List.range 4).mapM fun k => do
    let p : Port := Fin.ofNat 4 k
    let q := c.port p
    let reads := ((sourcesOf i).filter fun r => c.boundAs r .read == some p).length
    if 0 < reads then stageUpTo p ((pipe.claimed n p + reads) * q.esize) 33
    else if (destOf i).any fun r => c.boundAs r .write == some p then do
      if 32 < q.staged.length + (pipe.appending c n p + 1) * q.esize && q.staged.length = 32 then drainPiece p
      return decide (((← me).port p).staged.length + (pipe.appending c n p + 1) * q.esize ≤ 32)
    else return true
  return ready.all id

/-- A packet's sources: elements claimed of read ports, registers otherwise. -/
def State.sourcesFor (s : State) (core n : Nat) (i : Instr) : List Source :=
  let c := s.ctxAt (ctxKey core n)
  ((sourcesOf i).foldl (fun (acc : List Source) r =>
    match c.boundAs r .read with
    | none => acc ++ [s.readSource core n (physReg c.wofs r)]
    | some p =>
      let q := c.port p
      let at_ := (s.pipe core).claimed n p + (acc.filter fun x => x.claim && x.reg == 60 + p.val).length
      let v := natOfBytes ((q.staged.drop (at_ * q.esize)).take q.esize)
      acc ++ [{ reg := 60 + p.val, await := none, value := v, claim := true }]) [])

/-- The physical register that a packet writes through the pan: no bound port, nor x0 or k0. -/
def Ctx.destFor (c : Ctx) (i : Instr) : Option Nat :=
  match destOf i with
  | none => none
  | some r =>
    if (c.boundAs r .read).isSome || (c.boundAs r .write).isSome then none
    else
      let r := physReg c.wofs r
      if r = 0 || r = 96 then none else some r

/-- A packet of a context about to enter, of which nothing but its place in the sequence is known. -/
def blankPacket (n seq : Nat) (pc : Dword) (clause : Option (Nat × Nat)) : Packet :=
  { ctx := n, seq := seq, pc := pc, npc := pc, ir := 0#64, instr := .trap 0, fetched := false, srcs := [], dest := none,
    predicted := pc, target := pc, result := none, injected := false, flags := 0#64, executed := false, complete := false,
    ready := false, fault := none, away := false, spans := [], claim := none, read := [], window := none, commit := none,
    begun := none, port := none, element := [], clause := clause, slots := 0 }

/-- The clause instruction that a context's foot inserts next, while its clause is reissued (R239, R240): from its sealed position where
nothing of the context is in flight. -/
def clauseNext (x : PipeCtx) (r : RepBuf) : Option (Nat × Nat) :=
  if r.st != .reissuing then none
  else if x.nextSeq = x.sealed then some (r.iter, r.stag)
  else x.clause.filter fun c => c.1 != 0

/-- The clause position after one; no iteration is left after the last. -/
def RepBuf.follow (r : RepBuf) (c : Nat × Nat) : Nat × Nat :=
  if c.2 + 1 < r.items.length then (c.1, c.2 + 1) else (c.1 - 1, 0)

/-- The instruction of a packet that has been fetched; a dictionary reference enters as the instruction that it names now (R172), and
traps where that is refused (R173, R239). -/
def State.entersAs (s : State) (core n : Nat) (i : Instr) : Option Instr :=
  match i with
  | .dictionaryReference index override =>
    if isArith core then { s with cur := (core, n) }.referred index override else none
  | i => some i

/-- A packet with its instruction, its sources and its destination. Fetch goes on at `guess` where the outside names one for a branch,
and in sequence otherwise. -/
def State.decodedPacket (s : State) (core n : Nat) (q : Packet) (d : Ctx) (i : Instr) (guess : Option Dword) : Packet :=
  let c := s.ctxAt (ctxKey core n)
  { q with
    npc := d.npc, ir := d.ir, instr := i, fetched := true, srcs := s.sourcesFor core n i, dest := c.destFor i,
    predicted := if isBranch i then guess.getD d.npc else d.npc, target := d.npc }

/-- The number that a packet carries (R19): of the at most 24 of a context in flight no two have the same. -/
def Packet.number (q : Packet) : Nat := q.seq % 64

/-- Packets of a context in flight (R19). -/
def Pipe.flight (p : Pipe) (n : Nat) : Nat :=
  let x := p.ctxOf n
  let oldest := (p.pan.filter fun e => e.ctx == n && !e.external).foldl (fun m e => min m e.seq) x.sealed
  x.nextSeq - oldest

/-- A context's next packet before its fetch. -/
def State.nextBlank (s : State) (core n : Nat) : Packet :=
  let c := s.ctxAt (ctxKey core n)
  let x := (s.pipe core).ctxOf n
  let clause := clauseNext x c.rep
  let pc := match clause with
    | some (_, i) => ((c.rep.items[i]?).map (·.pc)).getD c.pc
    | none => x.fetch.getD c.pc
  blankPacket n x.nextSeq pc clause

/-- The fetch of a context's packet. -/
def State.fetchFor (s : State) (core : Nat) (q : Packet) : EStateM.Result Exc State Instr :=
  let k := ctxKey core q.ctx
  let c := s.ctxAt k
  EStateM.run fetch ({ s with cur := (core, q.ctx) }.setCtxAt k { c with pc := q.pc, rep := c.rep.seenBy q })

/-- A fetch that has to wait away from the core waits there, where it does not wait already: one that its home holds has its place among the
held accesses (R376). -/
def State.heldFetch (s : State) (core n : Nat) : State :=
  let p := s.pipe core
  let x := p.ctxOf n
  if !s.canRun (ctxKey core n) || x.held.isSome || 24 ≤ p.flight n || x.fetching || !x.fills.isEmpty then s
  else match s.fetchFor core (s.nextBlank core n) with
    | .error (.hold w) _ => (s.setPipe core (p.setCtx n { x with fetching := true })).addWait w (.fetch core n)
    | _ => s

/-- A fetch that has waited is made, and leaves its bytes where the foot finds them; or it waits on. -/
def State.retryFetch (s : State) (core n : Nat) : State :=
  let k := ctxKey core n
  let p := s.pipe core
  let x := p.ctxOf n
  if !x.fetching then s
  else
    let s := s.setPipe core (p.setCtx n { x with fetching := false })
    match s.fetchFor core (s.nextBlank core n) with
    | .ok _ t | .error _ t =>
      let t := { t with cur := s.cur }.setCtxAt k (s.ctxAt k)
      if t.canRun k then t.heldFetch core n else t

/-- The packet of a context's next instruction, and the memory system after its fetch; none while the fetch cannot be made, or a bound
port is not ready. A fetch that faults enters as a packet that does. -/
def State.newPacket (s : State) (core n : Nat) (guess : Option Dword) : Option (Packet × State) :=
  let k := ctxKey core n
  let c := s.ctxAt k
  let q := s.nextBlank core n
  match s.fetchFor core q with
  | .error (.hold _) _ | .error .retry _ => none
  | .error e t => if s.withholds k e then none else some (q.faults e, { t with cur := s.cur }.setCtxAt k c)
  | .ok i t =>
    let d := t.ctxAt k
    match t.entersAs core n i with
    | none => some ({ q with npc := d.npc, ir := d.ir }.faults (.trap 0x01 d.ir), { t with cur := s.cur }.setCtxAt k c)
    | some i =>
      match EStateM.run (portsReady core n i) ({ t with cur := (core, n) }.setCtxAt k c) with
      | .ok true t => let t := { t with cur := s.cur }; some (t.decodedPacket core n q d i guess, t)
      | .ok false _ => none
      | .error e t =>
        some ({ q with npc := d.npc, ir := d.ir, instr := i }.faults e, { t with cur := s.cur }.setCtxAt k c)

/-- The fill packet of a context that is to enter next (R129). -/
def State.fillNext (s : State) (core n : Nat) : Option Packet :=
  let c := s.ctxAt (ctxKey core n)
  let x := (s.pipe core).ctxOf n
  match x.fills with
  | [] => none
  | (r, v) :: _ =>
    let pc := x.fetch.getD c.pc
    let dest := physReg c.wofs r.val
    some { blankPacket n x.nextSeq pc none with
      instr := .fillPacket, fetched := true, dest := if dest = 0 then none else some dest,
      result := if dest = 0 then none else some v.toNat }

/-- Whether the pan has an entry for a new packet: a waiting deposit has the first claim on a free one (R32, R36). -/
def State.panRoom (s : State) (core : Nat) : Bool :=
  let p := s.pipe core
  let kept : Nat := if (s.core core).mailbox.isEmpty || p.accepted then 0 else 1
  p.pan.length + kept < panSize

/-- What a context's pipe keeps of it once a packet has entered. -/
def PipeCtx.entered (x : PipeCtx) (r : RepBuf) (q : Packet) : PipeCtx :=
  let held := if holdsFoot q.instr || q.fault.isSome then some q.seq else x.held
  let x := { x with nextSeq := x.nextSeq + 1, held := held }
  if isFill q.instr then { x with fills := x.fills.drop 1 }
  else match q.clause with
    | some c =>
      let next := r.follow c
      { x with clause := some next, fetch := if next.1 = 0 then some r.after else x.fetch }
    | none => { x with fetch := some q.predicted }

/-- A packet enters at S0, with its pan entry; a REP discards a held clause, and captures its own (R240). -/
def State.enter (s : State) (core : Nat) (q : Packet) : State :=
  let k := ctxKey core q.ctx
  let p := s.pipe core
  let c := s.ctxAt k
  let pan := match q.dest with
    | some r =>
      p.pan ++ [{ ctx := q.ctx, seq := q.seq, reg := r, value := none, ready := false, external := false, pts := none, word := none }]
    | none => p.pan
  let p := p.setCtx q.ctx ((p.ctxOf q.ctx).entered c.rep q)
  let s := s.setPipe core { p with up := p.up.put 0 q, pan := pan, lastIn := q.ctx, inserted := true }
  if isRep q.instr && q.fault.isNone then s.setCtxAt k { c with rep := { RepBuf.empty with st := .capturing, pc := q.pc } } else s

/-- Inserts a context's next packet, where the context is ready (R22). A REP waits while the clause before it is still reissued, since a
context has one repetition buffer (DESIGN CHOICE: assumption log, entry 16). -/
def State.insertNext (s : State) (core n : Nat) (guess : Option Dword) : Option State :=
  let k := ctxKey core n
  let p := s.pipe core
  let x := p.ctxOf n
  if !s.canRun k || x.held.isSome || 24 ≤ p.flight n || x.fetching then none
  else
    let next := match s.fillNext core n with
      | some q => some (q, s)
      | none => s.newPacket core n guess
    match next with
    | none => none
    | some (q, t) =>
      if (q.dest.isSome && !t.panRoom core) || (isRep q.instr && (t.ctxAt k).rep.st == .reissuing) then none
      else some (t.enter core q)

/-- The ready context that is next in turn inserts its packet, if one is ready; fetches that have to wait are on their way. -/
def State.insertInTurn (s : State) (core : Nat) (guess : Option Dword) : List Nat → Bool × State
  | [] => (false, s)
  | n :: rest =>
    match s.insertNext core n guess with
    | some t => (true, t)
    | none => State.insertInTurn (s.heldFetch core n) core guess rest

/-- FOOT_INSERTION (R22): in an up half, the ready context next in turn inserts a packet at S0, on even cycles alone where the core is
throttled (R400); then packets meet results (R21). The flag says that fetch goes on at the address, should the packet be a branch:
the prediction is free. -/
def execFootInsertion (s : State) : Out :=
  event (modify fun s =>
    let core := s.subject.place
    let p := s.pipe core
    let guess := if s.subject.flag then some s.subject.addr else none
    if !p.upMade || p.inserted || (p.up.find 0).isSome || ((s.core core).throttled && !p.even) then s
    else
      let order := (List.range 11).map fun i => (p.lastIn + 1 + i) % 11
      match s.insertInTurn core guess order with
      | (false, t) => t
      | (true, t) => t.setPipe core (t.pipe core).garner) s

/-! ## The seal (R29, R33, R35) -/

/-- A sealed packet leaves the pipe, and its context's foot is free where the packet held it until then. -/
def Pipe.retire (p : Pipe) (q : Packet) : Pipe :=
  let p := { p with
    up := p.up.filter fun e => !(e.2.ctx == q.ctx && e.2.seq == q.seq),
    siding := p.siding.filter fun e => !(e.packet.ctx == q.ctx && e.packet.seq == q.seq),
    perch := p.perch.filter fun r => !(r.ctx == q.ctx && r.seq == q.seq), lastSealed := q.ctx }
  let x := p.ctxOf q.ctx
  p.setCtx q.ctx { x with
    sealed := q.seq + 1, held := if x.held = some q.seq && manner q.instr != .answered then none else x.held,
    fetch := if x.nextSeq = q.seq + 1 && x.fills.isEmpty then none else x.fetch }

/-- The movements of bound ports that a seal commits (R35, R64): the elements a packet has claimed are consumed, and the one it appends is
in the staging buffer. -/
def Ctx.movePorts (c : Ctx) (q : Packet) : Ctx :=
  let c := (List.range 4).foldl (fun (c : Ctx) i =>
    let n : Port := Fin.ofNat 4 i
    let p := c.port n
    let gone := (q.srcs.filter fun r => r.claim && r.reg == 60 + i).length * p.esize
    if gone = 0 then c else c.setPort n { p with staged := p.staged.drop gone, pos := p.pos + gone }) c
  match q.port with
  | none => c
  | some n =>
    let p := c.port n
    c.setPort n { p with staged := p.staged ++ q.element, pos := p.pos + q.element.length }

/-- A context after a seal: the flags, what its packet has computed ahead, and the next address (R35, R49, R240). -/
def Ctx.advance (c : Ctx) (q : Packet) : Ctx :=
  let c := { c with fcsr := c.fcsr ||| q.flags, npc := q.target }
  let c := match q.commit with
    | some m => c.commitRegs m
    | none => c
  let c := match q.begun with
    | some b => { c with region := b.region, pending := b.pending }
    | none => c
  let c := c.movePorts q
  if q.clause.isSome then c.repNext else { c with pc := q.target }

/-- What leaves the core of a sealed packet joins what its context has out, and goes where nothing keeps it. The stores of local memories,
which nothing keeps, are performed at their seal, so that an engine reads their new bytes (DESIGN CHOICE beside R97: assumption
log, entry 16). -/
def State.goOut (s : State) (core : Nat) (q : Packet) (v : Ctx) : State :=
  if manner q.instr == .early || manner q.instr == .commit then s
  else
    let x := s.core core
    (s.setCore core { x with outbound := x.outbound ++ [{ packet := q, view := v, sent := false }] }).sendMore core q.ctx

/-- Seals a packet that does not trap: it commits, pins an active region (R134), and its effect leaves. -/
def State.sealGood (s : State) (core : Nat) (q : Packet) : State :=
  let k := ctxKey core q.ctx
  let v := s.packetView core q
  let c := s.ctxAt k
  let s := s.setPipe core ((s.pipe core).retire q)
  let s := if isPinning q.instr then s.pinFor k c else s
  let s := s.setCtxAt k (c.advance q)
  let s := ((q.commit.map Commit.writes).getD []).foldl (fun (s : State) w => s.commit core q.ctx w) s
  let s := if c.anyPort then
      match EStateM.run (asContext k commitPorts) s with
      | .ok _ t => t
      | .error _ _ => s
    else s
  s.goOut core q v

/-- What an abort discards with its unit (R354, R109): the global stores of a context, weak and strong, and its updates, that have left
the core and are not performed. -/
def discarded (i : Instr) : Bool := isGlobalStore i || isStrongGlobal i || isBupd i

/-- They are discarded, and what waited for them goes. -/
def State.discardStores (s : State) (core n : Nat) : State :=
  let x := s.core core
  (s.setCore core { x with outbound := x.outbound.filter fun o => !(o.packet.ctx == n && discarded o.packet.instr) }).sendMore core n

/-- Seals a packet that traps, or whose page is not present (R33, R351, R354): it and every younger packet of its context are killed. -/
def State.sealFault (s : State) (core : Nat) (q : Packet) (e : Exc) : State :=
  let k := ctxKey core q.ctx
  let s := s.killFrom core q.ctx q.seq none
  let s := s.setPipe core { s.pipe core with lastSealed := q.ctx }
  let c := s.ctxAt k
  let s := match e with
    | .trap cause v =>
      if cause = 0x07 && isSluice core then (s.setCtxAt k { c with ir := q.ir, npc := q.npc }).refusedBySluice k
      else s.takeTrap k cause q.pc v
    | .notPresent gva v home fetch write =>
      let s := if c.record.isSome && !isSluice core && !s.answerWithheld k home then s.discardStores core q.ctx else s
      s.notPresent k gva v home fetch write
    | _ => s
  if (s.ctxAt k).status == .running then s else s.clearPipe k

/-- Seals the oldest packet of a context (R29). -/
def State.sealPacket (s : State) (core : Nat) (q : Packet) : State :=
  match q.fault with
  | none => s.sealGood core q
  | some e => s.sealFault core q e

/-- Whether a packet publishes slots of a ring. -/
def Packet.publishes (q : Packet) : Bool :=
  ((q.commit.map Commit.writes).getD []).any fun w => match w with
    | .published .. => true
    | _ => false

/-- The packet a context would have sealed, where it qualifies (R29). One that publishes waits until its context's earlier stores to the
scratchpad, of which the slot's bytes may be, are performed (R63). -/
def State.sealable (s : State) (core n : Nat) : Option Packet :=
  let p := s.pipe core
  if (s.ctxAt (ctxKey core n)).status != .running then none
  else p.packets.find? fun q => q.ctx == n && q.seq == (p.ctxOf n).sealed && q.ready &&
    !(q.publishes && (s.outboundOf core n).any fun o => o.packet.storesNear)

/-- The crown seals up to two packets, in turn after the context it sealed last. -/
def State.crown (s : State) (core : Nat) : State :=
  let order := (List.range 11).map fun i => ((s.pipe core).lastSealed + 1 + i) % 11
  let s := match order.filterMap fun n => s.sealable core n with
    | [] => s
    | [q] => s.sealPacket core q
    | q :: r :: _ =>
      let t := s.sealPacket core q
      if (t.sealable core r.ctx).isSome then t.sealPacket core r else t
  (s.setPipe core { s.pipe core with crowned := true }).watch

/-- SEAL (R29): once in a cycle, at the end of its down half. -/
def execSeal (s : State) : Out :=
  event (modify fun s =>
    let p := s.pipe s.subject.place
    if p.upMade || p.crowned then s else s.crown s.subject.place) s

/-! ## The settling pan (R31, R36) -/

/-- Whether a pan entry may be written: filled at the start of the cycle and known sealed, a deposit once every earlier packet has been, and
no older entry of its context stands before it. -/
def Pipe.mayWrite (p : Pipe) (before : List PanEntry) (e : PanEntry) : Bool :=
  let known := (p.ctxOf e.ctx).known
  e.value.isSome && e.ready && !(before.any fun f => f.ctx == e.ctx) &&
    decide (if e.external then e.seq ≤ known else e.seq < known)

/-- Whether a pipe that holds no packet has an entry that it will write. -/
def Pipe.settles (p : Pipe) : Bool :=
  p.packets.isEmpty && (List.range p.pan.length).any fun i =>
    (p.pan[i]?).any fun e => e.value.isSome && !((p.pan.take i).any fun f => f.ctx == e.ctx)

/-- The oldest pan entry that may be written, by its place. -/
def Pipe.writable (p : Pipe) : Option Nat := (List.range p.pan.length).find? fun i =>
  match p.pan[i]? with
  | some e => p.mayWrite (p.pan.take i) e
  | none => false

/-- Writes one pan entry into the register store and frees it, and the foot that waited for it; a deposit is an event of its context
(R36, R154, R333). -/
def State.writePan (s : State) (core : Nat) : State :=
  let p := s.pipe core
  match p.writable with
  | none => s
  | some i =>
    match p.pan[i]? with
    | none => s
    | some e =>
      let k := ctxKey core e.ctx
      let x := p.ctxOf e.ctx
      let x := { x with held := if !e.external && x.held = some e.seq then none else x.held }
      let q : Pipe := { p with pan := p.pan.eraseIdx i }
      let s := (s.setCtxAt k ((s.ctxAt k).takePan p [e])).setPipe core (q.setCtx e.ctx x)
      if e.external then s.eventAt k else s

/-- PAN_WRITE (R31): once in a cycle up to two entries are written, and a freed entry goes first to a waiting deposit (R32). A pipe that
holds no packet makes the cycles itself that its entries still take. -/
def execPanWrite (s : State) : Out :=
  event (modify fun s =>
    let core := s.subject.place
    let s := if (s.pipe core).panned then s else
      let s := (s.writePan core).writePan core
      let s := s.setPipe core { s.pipe core with panned := true }
      if (s.core core).mailbox.isEmpty then s else s.due .depositArrival core
    if (s.pipe core).settles then ((s.due .downHalf core).due .upHalf core).due .panWrite core else s) s

/-! ## Checks at the home, and evictions -/

/-- WRITE_CHECK (R249): the home NI answers the write check of a store to the address by the context in the index; a grant is recorded
in the cluster cache. The flag says that the page must grant a read too, as for an atomic. -/
def execWriteCheck (s : State) : Out :=
  event (asContext (ctxKey s.subject.place s.subject.index) do
    let j := s.subject
    match globalSite (← get) j.addr j.addr with
    | none => pure ()
    | some t => writeGrant (← myAgent) t (if j.flag then .readWrite else .write)) s

/-- SHADOW_PROBE (R114): the home makes or confirms the shadow of the net line that holds the address, or breaks the net there. -/
def execShadowProbe (s : State) : Out :=
  event (asContext (ctxKey s.subject.place s.subject.index) do
    let j := s.subject
    match globalSite (← get) j.addr j.addr with
    | none => pure ()
    | some t => writeProbe (← myAgent) t 1) s

/-- Evicts one grain of a cluster cache or of an L2's guest lines: dirty bytes leave as a push, and a grain that is clean is gone
(R60, R89). One whose push is refused stays. -/
def evictGrain (place base : Nat) : Mach Unit := do
  match (← get).copies.find (copyKey place base) with
  | none => pure ()
  | some c =>
    if 0 < c.dirty then
      let a := cacheAgent place
      let t := siteOfKey base
      let _ ← pushCopy a t place base c (levelsAbove place (a.levels t))
    match (← get).copies.find (copyKey place base) with
    | none => pure ()
    | some c => if c.dirty = 0 then modify fun s => s.dropCopy place base else modify fun s => s.keepFrame place base

/-- The Brine grains of which a place is a holder, in one of its frames: the grain and the holder's index. -/
def State.partialsIn (s : State) (place cache id : Nat) : List (Nat × Nat) :=
  s.brine.flatMap fun e => (e.2.holders.filter fun p =>
    holderPlace (e.1 / 2 ^ 48) p.1 == place && frameOf place e.1 == (cache, id)).map fun p => (e.1, p.1)

/-- Evicts a frame of 512 bytes: each dirty grain is pushed, and each Brine grain of which the place is a holder is harvested (R60, R104). -/
def evictFrame (place key : Nat) : Mach Unit := do
  let (cache, id) := frameOf place key
  let bases := ((← get).copies.filter fun e => e.1 / 2 ^ 64 == place && frameOf place (e.1 % 2 ^ 64) == (cache, id)).map
    fun e => e.1 % 2 ^ 64
  for base in bases do evictGrain place base
  modify fun s =>
    match s.partialsIn place cache id with
    | [] => s.freeFrame cache id
    | held => held.foldl (fun s p =>
      s.dueAt .holderRecall { Subject.nothing with addr := BitVec.ofNat 64 p.1, index := p.2 }) s

/-- A partial goes bad at its holder (R106). -/
def State.spoil (s : State) (key holder : Nat) : State :=
  match s.brine.find key with
  | none => s
  | some e =>
    match e.holders.find holder with
    | none => s
    | some p => { s with brine := s.brine.put key { e with holders := e.holders.put holder { p with bad := true } } }

/-- A context whose access has waited away from its core runs again, from its instruction. -/
def State.wake (s : State) (core n : Nat) : State :=
  let k := ctxKey core n
  let c := s.ctxAt k
  match c.status with
  | .waiting w _ =>
    match w with
    | .home .. | .absent .. | .horizon .. | .slice .. | .booth .. => s.setCtxAt k { c with status := .running }
    | _ => s
  | _ => s

/-- CACHE_EVICTION (R57, R60, R104): a cache, by its place, evicts the line or frame that holds the address: 128 clean bytes of an L1, a
512-byte frame of another. A push raises no context's PTS. -/
def execCacheEviction (s : State) : Out :=
  let place := s.subject.place
  let key := s.subject.addr.toNat
  let (cache, id) := frameOf place key
  if cacheSets cache = 32 then event (modify fun s => s.dropFrame cache id) s
  else eventHeld .cacheEviction (evictFrame place key) s

end Sys2Proof.Machine
end

