-- ==== Sys2Proof/Machine/Launchq.lean ====
section
/-!
DEFINITION. The commands of LAUNCHQ (R355, R385): submission, pre-emption with quiescing and the save (R356 to R361), resumption
(R362) and the rebase of logical time (R365). A command's subject names its die, the value written, and the writer's world.
-/
namespace Sys2Proof.Machine

/-! ## Commands (R355, R385) -/

/-- Bits [63:16] of a command: an image's address. -/
def imageOf (v : Dword) : Dword := v &&& ~~~0xFFFF#64

/-- A command is refused with code 6 while another is in progress (R385). -/
def orBusy (d : Nat) (v : Dword) (act : Mach Unit) : Mach Unit := do
  if ((← get).die d).command.isSome then modify fun s => s.lqstat d 6 true v else act

/-- A command begins: LQSTAT shows BUSY and its address. -/
def State.beginCommand (s : State) (d : Nat) (v : Dword) : State :=
  (s.setDie d { s.die d with command := some v }).setDieReg d 0x248 (BitVec.ofNat 64 (16 + bits v.toNat 6 58 * 64))

/-- A command has been carried out. -/
def State.endCommand (s : State) (d : Nat) (v : Dword) : State :=
  (s.setDie d { s.die d with command := none }).lqstat d 1 false v

/-- LAUNCHQ_SUBMIT (R140, R141, R355). -/
def execLaunchqSubmit (s : State) : Out :=
  event (do
    let j := s.subject
    orBusy j.place j.value (submit ⟨.launchqSubmit, j⟩ j.place (j.value &&& ~~~0x3F#64) j.flag)) s

/-- LAUNCHQ_UNKNOWN (R355): commands 4 to 63. -/
def execLaunchqUnknown (s : State) : Out :=
  event (do
    let j := s.subject
    orBusy j.place j.value (modify fun s => s.lqstat j.place 2 false j.value)) s

/-! ## Pre-emption (R356, R357) -/

/-- The job of the launch a core runs. -/
def State.coreJob (s : State) (core : Nat) : Option Nat :=
  match s.launches.find (s.ctxAt (ctxKey core 0)).launchid.toNat with
  | none => none
  | some l => if l.started then some l.job else none

/-- The cores of a die. -/
def coresOfDie (d : Nat) : List Nat := (List.range 256).map (256 * d + ·)

/-- The job a die runs. -/
def State.dieJob (s : State) (d : Nat) : Option Nat := (coresOfDie d).findSome? s.coreJob

/-- The cores of a die that run a job. -/
def State.jobCores (s : State) (d job : Nat) : List Nat :=
  (coresOfDie d).filter fun c => s.coreJob c == some job && !s.coreDisabled c

/-- LAUNCHQ_PREEMPT (R355, R356): the command leaves for every core of the die that runs the job. -/
def execLaunchqPreempt (s : State) : Out :=
  event (do
    let j := s.subject
    let d := j.place
    let image := imageOf j.value
    orBusy d j.value (do
      if bits j.value.toNat 6 10 != 0 || !s.kindZero image then modify fun s => s.lqstat d 5 false j.value
      else
        modify fun s =>
          let cores := match s.dieJob d with
            | none => []
            | some job => s.jobCores d job
          let s := s.beginCommand d j.value
          (cores.foldl (fun s c => s.due .preemptArrival c) s).due .quiesce d)) s

/-- A context as a pre-emption's arrival leaves it (R34, R135, R356, R333): its pending sample is discarded, its latch is set or a WFE of
its ends, an access it still waited for is made again, and a start that waits for its record is not made. -/
def Ctx.preempt (c : Ctx) : Ctx :=
  let c := { c with pending := none, latch := true }
  match c.status with
  | .idle => { c with record := none }
  | .waiting w _ =>
    match w with
    | .home .. | .absent .. | .horizon .. | .slice .. | .booth .. | .park .. => { c with status := .running }
    | .event => { c with status := .running, latch := false }
    | _ => c
  | _ => c

/-- The holds of every home, each changed. -/
def State.mapHolds (s : State) (f : Hold → Hold) : State :=
  let s := s.dies.foldl (fun (s : State) e => s.setDie e.1 { s.die e.1 with holds := (s.die e.1).holds.map f }) s
  s.bridges.foldl (fun (s : State) e => s.setBridge e.1 { s.bridge e.1 with holds := (s.bridge e.1).holds.map f }) s

/-- A store that a context has taken as a whole instruction, and that is held at the time horizon, stands as a sealed one does: it stays
held over the save, and its context goes on after it (R87, R365). -/
def State.sealHeld (s : State) (core n : Nat) : State :=
  let k := ctxKey core n
  let c := s.ctxAt k
  match c.status, instrOfWords c.ir with
  | .waiting (.horizon _ _ none) _, some i =>
    let p := s.pipe core
    let x := p.ctxOf n
    let v := { c with status := .running }
    let q := { blankPacket n x.nextSeq c.pc none with npc := c.npc, ir := c.ir, instr := i, executed := true, complete := true }
    match if manner i == .sent then s.ran core q v .checks [] else none with
    | some r =>
      if r.run.raised != some .checked then s
      else
        let o : Outbound :=
          { packet := { q with spans := r.run.spans, claim := r.run.claim, read := r.run.read }, view := v, sent := true }
        let s := s.setPipe core (p.setCtx n { x with nextSeq := x.nextSeq + 1, sealed := x.sealed + 1 })
        let s := s.setCore core { s.core core with outbound := (s.core core).outbound ++ [o] }
        (s.setCtxAt k v.repNext).mapHolds fun h =>
          if h.horizon && h.who = .ctx core n then { h with who := .packet core n x.nextSeq [] } else h
    | none => s
  | _, _ => s

/-- The fill packets of a sealed AXR.BEGIN that have not been sealed, by physical register: in flight, still to be inserted, or still to
come where the BEGIN was not run in the pipe (R129). -/
def State.fillsLeft (s : State) (core n : Nat) : List (Nat × Nat) :=
  let p := s.pipe core
  let c := s.ctxAt (ctxKey core n)
  let later := fun (fs : List (XReg × Dword)) => fs.map fun f => (physReg c.wofs f.1.val, f.2.toNat)
  let flying := p.unsealed n
  let sent := (flying.takeWhile fun q => isFill q.instr).filterMap fun q =>
    q.dest.bind fun r => (q.result.orElse fun _ => (p.pan.find? fun e => e.ctx == n && e.seq == q.seq).bind p.entryValue).map fun v => (r, v)
  sent ++ (if flying.all fun q => isFill q.instr then later (p.ctxOf n).fills else []) ++ later c.fills

/-- A pre-emption reaches a context (R34, R356): its unsealed packets are killed, and the pan writes what is sealed. The manual does not say
how the fill packets of a sealed AXR.BEGIN come again once killed: they write their registers (DESIGN CHOICE: assumption log, entry
42). -/
def State.preemptCtx (s : State) (core n : Nat) : State :=
  let k := ctxKey core n
  let s := s.sealHeld core n
  let fills := s.fillsLeft core n
  let s := s.killPackets k
  let c := fills.foldl (fun (c : Ctx) f => c.setRegNat f.1 f.2) (s.ctxAt k)
  s.setCtxAt k { c with fills := [] }.preempt

/-- The start of a unit on a core that waits for its record, and its RPTS (R150). -/
def Asker.startAt (core : Nat) (who : Asker) : Option (Dword × Nat) :=
  match who with
  | .step d =>
    if d.step = .autoPop && d.subject.flag && d.subject.place = core then some (d.subject.addr, d.subject.value.toNat) else none
  | _ => none

/-- Whether a kill of a core's unsealed packets takes what an access waits with: an access at the time horizon that reads stays held, and
its reply is discarded (R87). -/
def Asker.killedAt (core : Nat) (who : Asker) (stays : Bool) : Bool :=
  match who with
  | .ctx c _ | .load c _ _ | .fetch c _ => c == core && !stays
  | who => (who.startAt core).isSome

/-- Everything that waits at a home. -/
def State.askers (s : State) : List Asker :=
  (s.dies.flatMap fun e => e.2.holds.map (·.who) ++ (e.2.reqs.flatMap fun q => q.2.map (·.who)) ++
    e.2.dram.flatMap fun q => q.2.map (·.req.who)) ++
  s.bridges.flatMap fun e => e.2.holds.map (·.who) ++ e.2.queues.flatMap fun q => q.2.map (·.who)

/-- The accesses of a core's killed packets leave the homes at which they wait; a unit that has not started is enqueued again. -/
def State.dropAccesses (s : State) (core : Nat) : State :=
  let starts := s.askers.filterMap fun w => w.startAt core
  let s := starts.foldl (fun (s : State) r => s.requeue r.1 r.2) s
  let holds := fun (hs : List Hold) => hs.filter fun h => !h.who.killedAt core (h.horizon && h.lease.isSome)
  let s := s.dies.foldl (fun (s : State) e =>
    let x := s.die e.1
    s.setDie e.1 { x with
      holds := holds x.holds
      reqs := x.reqs.map fun q => (q.1, q.2.filter fun r => !r.who.killedAt core false)
      dram := x.dram.map fun q => (q.1, q.2.filter fun r => !r.req.who.killedAt core false) }) s
  s.bridges.foldl (fun (s : State) e =>
    let x := s.bridge e.1
    s.setBridge e.1 { x with
      holds := holds x.holds
      queues := x.queues.map fun q => (q.1, q.2.filter fun m => !m.who.killedAt core false) }) s

/-- PREEMPT_ARRIVAL (R34, R356): the command reaches a core: the seals of the cycle stand, a trap's among them, fetch stops, and every
unsealed packet is killed. -/
def execPreemptArrival (s : State) : Out :=
  event (modify fun s =>
    let core := s.subject.place
    let s := if (s.pipe core).crowned then s else s.crown core
    let s := s.setCore core { s.core core with preempted := true }
    let s := (List.range 11).foldl (fun (s : State) n => s.preemptCtx core n) s
    let s := (s.setPipe core { s.pipe core with upMade := false }).dropAccesses core
    let s := if (s.pipe core).pan.isEmpty then s else s.due .panWrite core
    if (s.core core).mailbox.isEmpty then s else s.due .depositArrival core) s

/-- Whether some access held at the time horizon is of an asker. -/
def State.atHorizon (s : State) (who : Asker → Bool) : Bool :=
  let held := fun (h : Hold) => h.horizon && who h.who
  (s.dies.any fun e => e.2.holds.any held) || s.bridges.any fun e => e.2.holds.any held

/-- Whether an operation is held at the time horizon (R87, R357). -/
def State.heldAtHorizon (s : State) (n : Nat) : Bool := s.atHorizon fun w => w == .op n

/-- Whether a sealed effect is held at the time horizon. -/
def State.outAtHorizon (s : State) (core : Nat) (o : Outbound) : Bool :=
  s.atHorizon fun w => match w with
    | .packet c n seq _ => c == core && n == o.packet.ctx && seq == o.packet.seq
    | _ => false

/-- Whether a context's sealed effects are still to be performed, those apart that are held at the time horizon and those that wait
behind one. -/
def State.outUnquiet (s : State) (core n : Nat) : Bool :=
  let out := s.outboundOf core n
  !out.isEmpty && (!(out.any fun o => s.outAtHorizon core o) || out.any fun o => o.sent && !s.outAtHorizon core o)

/-- Whether a die still has something of a job to run to its end (R357): engine operations, calls its cores have made of sluice
cores, sealed effects not yet performed, and answers of NET.OPEN. -/
def State.unquiet (s : State) (d : Nat) (cores : List Nat) : Bool :=
  let ours := fun (c : SluiceCall) => bits c.caller.toNat 8 6 == d
  (s.ops.any fun o => dieOf o.2.core == d && !s.heldAtHorizon o.1) ||
    (s.cores.any fun e => e.2.calls.any ours || e.2.running.any ours) ||
    cores.any fun core => (List.range 11).any fun n =>
      s.outUnquiet core n || match (s.ctxAt (ctxKey core n)).status with
        | .waiting (.netOpen _ _) _ | .waiting .answer _ | .waiting (.remote _) _ => true
        | _ => false

/-- An unmet PH.WAIT is withdrawn, to be issued again (R357). -/
def Ctx.withdraw (c : Ctx) : Ctx :=
  match c.status with
  | .waiting (.phaser _ _ _ _) _ => { c with status := .running, pc := c.issuedPc, rep := c.issuedRep }
  | _ => c

/-- The waits of a core's contexts in the pipe leave their phasers. -/
def State.withdrawWaiters (s : State) (cores : List Nat) : State :=
  s.cores.foldl (fun s e =>
    let x := s.core e.1
    s.setCore e.1 { x with
      phasers := x.phasers.map fun p =>
        (p.1, { p.2 with waiters := p.2.waiters.filter fun w => w.record.isSome || !cores.contains w.core }) }) s

/-- A core's mailbox port empties into the registers of the contexts of a job that is saved (R36, R357). -/
def State.emptyMailbox (s : State) (job core : Nat) : State :=
  let x := s.core core
  let s := (x.mailbox.filter fun d => d.isFor job).foldl (fun (s : State) d =>
    let k := ctxKey core d.ctx
    let c := s.ctxAt k
    s.setCtxAt k { c.setRegNat (56 + d.reg.val) d.value.toNat with pts := max c.pts (d.pts.getD 0) }) s
  s.setCore core { s.core core with mailbox := x.mailbox.filter fun d => !d.isFor job }

/-- The waits in the pipe withdrawn (R357): no answer is awaited any more but a BAR's, which its instance keeps, and the deposits that
stood behind one are written. -/
def State.withdrawn (s : State) (job : Nat) (cores : List Nat) : State :=
  let s := cores.foldl (fun (s : State) core =>
    ((List.range 11).foldl (fun (s : State) n =>
      let s := s.clearPipe (ctxKey core n)
      s.setCtxAt (ctxKey core n) (s.ctxAt (ctxKey core n)).withdraw) s).emptyMailbox job core) s
  s.withdrawWaiters cores

/-- The liveness masks a context is saved under (R358). -/
def saveMasks (d : Nat) (c : Ctx) : Mach (Dword × Dword) := do
  if c.inHandler then return allLive
  else return (← liveMasks c.launchid.toNat d c.pc).getD allLive

/-- Writes the record of a context into the image, as a state has it. -/
def saveContext (w : State) (d : Nat) (image : Dword) (core n : Nat) : Mach Unit := do
  let c := w.ctxAt (ctxKey core n)
  let live ← saveMasks d c
  putParts d (image + BitVec.ofNat 64 (recordOff core n)) (c.recordParts n live)

/-- Contexts of a core that a save marks valid. -/
def State.validContexts (s : State) (core : Nat) : List Nat :=
  (List.range 11).filter fun n => (s.ctxAt (ctxKey core n)).status != .idle

/-- Every queue segment's entries, segment by segment and priority by priority. -/
def DieSt.queued (x : DieSt) : List (List QEntry) :=
  (List.range 64).map fun key => x.fifos.get [] key ++ (x.spill.get [] key).map Prod.snd

/-- The queue segments spill their entries (R357). -/
def State.spillAll (s : State) (d : Nat) : State :=
  let x := s.die d
  let s := x.queued.flatten.zipIdx.foldl (fun s e =>
    s.store (s.spillAddr d e.2) (bytesOfNat 8 e.1.record.toNat ++ bytesOfNat 8 e.1.rpts)) s
  s.setDie d { s.die d with fifos := [], spill := [] }

/-- A core free for the next job. -/
def CoreSt.freed (x : CoreSt) : CoreSt :=
  { CoreSt.reset with
    secure := x.secure, throttled := x.throttled, diesel := x.diesel, mailbox := x.mailbox, pipe := x.pipe, outbound := x.outbound }

/-- A context free for the next job; its registers stay. -/
def Ctx.freed (c : Ctx) : Ctx := { c.toIdle with launchid := 0#64, handles := Vector.replicate 16 Handle.unset, answer := none }

/-- The save of a quiet die (R357 to R361): the cores' blocks, the contexts' records and the index block written, the waits in the pipe
withdrawn; then the queues are spilled and the cores are free. -/
def saveDie (d : Nat) (v : Dword) : Mach Unit := do
  let image := imageOf v
  let s ← get
  let job := (s.dieJob d).getD 0
  let cores := match s.dieJob d with
    | none => []
    | some job => s.jobCores d job
  let sstep := (cores.head?.map fun c => s.sstepOf (s.ctxAt (ctxKey c 0)).launchid.toNat).getD 0
  let counts := (s.die d).queued.map List.length
  let w := s.withdrawn job cores
  eachOf (fun core => do
    putParts d (image + BitVec.ofNat 64 (blockOff core)) (w.coreParts core)
    eachOf (saveContext w d image core) (w.validContexts core)) cores
  let valid := fun (id : Nat) => if cores.contains (256 * d + id) then some (w.validContexts (256 * d + id)) else none
  putParts d image (w.indexParts d job sstep counts valid)
  modify fun t =>
    let t := t.withdrawn job cores
    let keys := cores.flatMap fun core => (List.range 11).map (ctxKey core)
    let kept : SavedJob :=
      { job := job, image := image, cores := cores.map fun c => (c, t.core c), ctxs := keys.map fun k => (k, t.ctxAt k) }
    let t := t.spillAll d
    let t := cores.foldl (fun t c => t.setCore c (t.core c).freed) t
    let t := keys.foldl (fun t k => t.setCtxAt k (t.ctxAt k).freed) t
    let t := { t with fit := t.fit.filter fun e => !(e.1 / 256 == d && (t.launchesOf .job job).contains e.2.launch) }
    let x := t.die d
    (t.setDie d { x with saved := (x.saved.filter fun j => j.image != image) ++ [kept] }).endCommand d v

/-! ## Resumption (R362) -/

/-- Entries of one FIFO read back from the spill area. -/
def readSpilled (d : Nat) (old : Bool) : Nat → Nat → Mach (List QEntry)
  | 0, _ => return []
  | n + 1, i => do
    let s ← get
    let record := BitVec.ofNat 64 (s.num (s.spillAddr d i) 8)
    let rpts := if old then 0 else s.num (s.spillAddr d i + 8) 8
    let (bs, _) ← strongBytes (niAgent d true) record 48 0
    let rest ← readSpilled d old n (i + 1)
    return queueEntry record rpts bs :: rest

/-- The FIFOs from their counts. -/
def readQueues (d : Nat) (old : Bool) : List Nat → Nat → Nat → Mach (Tab (List QEntry))
  | [], _, _ => return []
  | n :: rest, key, i => do
    let es ← readSpilled d old n i
    let t ← readQueues d old rest (key + 1) (i + n)
    return if es.isEmpty then t else (key, es) :: t

/-- The FIFOs filled again, on chip and then in the spill area. -/
def State.fillQueues (s : State) (d : Nat) (queues : Tab (List QEntry)) : State :=
  let empty := s.setDie d { s.die d with fifos := [], spill := [] }
  (queues.foldl (fun (s : State) q => s.setDie d (q.2.foldl (fun x e => x.enter q.1 e) (s.die d))) empty).settleFifos d

/-- A context whose BAR was saved awaiting goes on waiting for its destination, and is answered where its instance has ended meanwhile
(R345, R357). -/
def State.resumeBarrier (s : State) (core n : Nat) (was : Status) (rd : Option XReg) : State :=
  match was with
  | .waiting (.barrier launch kind count) _ =>
    let k := ctxKey core n
    let c := s.ctxAt k
    let w := Wait.barrier launch kind count
    let s := s.setCtxAt k { c with status := .waiting w rd }
    match s.barriers.find? fun b =>
        b.launch == launch && b.kind == kind && b.number == count && b.arrivals.any fun a => a.core == core with
    | none => s
    | some b =>
      if b.complete then
        let pts := b.arrivals.foldl (fun t a => max t a.pts) 0
        (s.setCtxAt k { c with status := .waiting w rd, pts := max c.pts pts }).answer k w 0#64 0#64 false
      else if b.poisoned then
        s.answer k w (if b.arrivals.any fun a => a.core == core && a.expired then 1#64 else 2#64) 0#64 false
      else s
  | .fatal => s.setCtxAt (ctxKey core n) { s.ctxAt (ctxKey core n) with status := .fatal }
  | _ => s

/-- The suspended units of a die's cores whose instance has ended meanwhile are enqueued again (R152, R357). -/
def State.resumeSuspended (s : State) (cores : List Nat) : State :=
  (s.barriers.filter fun b => b.complete || b.poisoned).foldl (fun (s : State) b =>
    let pts := if b.complete then b.arrivals.foldl (fun t a => max t a.pts) 0 else 0
    let ours := b.arrivals.filter fun a => cores.contains a.core
    let s := ours.foldl (fun (s : State) a => a.waiters.foldl (fun (s : State) w =>
      match w.2.2 with
      | none => s
      | some r => (s.freeEntry a.core otherWait).requeue r pts) s) s
    s.setBarrier { b with arrivals := b.arrivals.map fun a => if cores.contains a.core then { a with waiters := [] } else a }) s

/-- One context restored from its record, and told of the pre-emption where NOTE asks for it (R362); one that waits for a BAR enters its
handler too, and its foot is held until the answer is written (R154). -/
def State.resumeContext (s : State) (kept : Option SavedJob) (old note : Bool) (core n : Nat) (bs : List Byte) : State :=
  let k := ctxKey core n
  let base := (kept.map fun j => j.ctxs.get Ctx.reset k).getD Ctx.reset
  let c := Ctx.ofRecord base bs old
  let s := s.setCtxAt k { c with status := .running }
  let rd := Fin.ofNat 64 (field bs 0x28 1)
  let s := s.resumeBarrier core n base.status (if rd = 0 then none else some rd)
  match (s.ctxAt k).status with
  | .running => if note && !c.inHandler then s.takeTrap k 0x0F c.pc 0#64 else s
  | .waiting w r =>
    if note && !c.inHandler then
      let s := s.takeTrap k 0x0F c.pc 0#64
      if (s.ctxAt k).status == .running then s.setCtxAt k { s.ctxAt k with status := .waiting w r } else s
    else s
  | _ => s

/-- One core's shared state restored from its block. Its heat, its mailbox port and what has left it are the core's as it stands. -/
def State.resumeCore (s : State) (kept : Option SavedJob) (old : Bool) (core : Nat) (bs : List Byte) : State :=
  let base := (kept.map fun j => j.cores.get CoreSt.reset core).getD CoreSt.reset
  let now := s.core core
  let base := { base with
    throttled := now.throttled, diesel := now.diesel, mailbox := now.mailbox, pipe := now.pipe, outbound := now.outbound }
  let s := s.setCore core (CoreSt.ofBlock base bs old)
  let s := s.store (wbBase core 0) ((bs.drop 0x20000).take 0x10000)
  let s := s.store (laneBase core 0) ((bs.drop 0x30000).take 0x10000)
  s.store (spBase core) ((bs.drop 0x40000).take 0x40000)

/-- The holds of every home that a condition keeps. -/
def State.filterHolds (s : State) (keep : Hold → Bool) : State :=
  let s := s.dies.foldl (fun (s : State) e => s.setDie e.1 { s.die e.1 with holds := (s.die e.1).holds.filter keep }) s
  s.bridges.foldl (fun (s : State) e => s.setBridge e.1 { s.bridge e.1 with holds := (s.bridge e.1).holds.filter keep }) s

/-- Operations of a die held at the time horizon run on (R365). -/
def State.releaseHeldOps (s : State) (d : Nat) : State :=
  (s.ops.filter fun o => dieOf o.2.core == d).foldl (fun s o =>
    if s.heldAtHorizon o.1 then
      (s.filterHolds fun h => h.who != .op o.1).due .engineCompletion o.1
    else s) s

/-- The resume of a die from an image (R362, R365): the image is read, then everything is restored. -/
def resumeDie (d : Nat) (v : Dword) : Mach Unit := do
  let image := imageOf v
  let index ← getPart d image 0 0x1000
  let s ← get
  let kept := (s.die d).saved.find? fun j => j.image == image
  let old : Bool := field index 12 4 < s.epoch
  let word := fun (id : Nat) => field index (0x800 + 8 * id) 8
  let cores := ((List.range 256).filter fun id => bitAt (word id) 0).map fun id => 256 * d + id
  let ctxs := cores.flatMap fun core => ((List.range 11).filter fun n => bitAt (word (coreId core)) (1 + n)).map fun n => (core, n)
  let blocks ← cores.mapM fun core => getPart d image (blockOff core) 0x80000
  let queues ← readQueues d old ((List.range 64).map fun i => field index (0x100 + 4 * i) 4) 0 0
  let records ← ctxs.mapM fun k => getPart d image (recordOff k.1 k.2) 0x2000
  modify fun s =>
    let s := (cores.zip blocks).foldl (fun (s : State) p => s.resumeCore kept old p.1 p.2) s
    let s := (cores.zip blocks).foldl (fun (s : State) p => s.restoreEntries p.1 (entriesOf p.2)) s
    let s := (s.restoreBarst d (field index 8 4) ((index.drop 0x200).take 64)).fillQueues d queues
    let s := (ctxs.zip records).foldl (fun (s : State) p => s.resumeContext kept old (bitAt v.toNat 6) p.1.1 p.1.2 p.2) s
    let x := s.die d
    let s := (s.setDie d { x with saved := x.saved.filter fun j => j.image != image }).resumeSuspended cores
    let s := (List.range 16).foldl (fun s seg => s.offer d seg) s
    (s.releaseHeldOps d).endCommand d v

/-! ## Rebase (R365) -/

/-- Pushes every dirty copy of some places. -/
def pushEverything (p : Nat → Bool) : Mach Unit := do
  let dirty := (← get).copies.filter fun e => p (e.1 / 2 ^ 64) && 0 < e.2.dirty
  eachOf (fun e => do
    let place := e.1 / 2 ^ 64
    let a := cacheAgent place
    let t := siteOfKey (e.1 % 2 ^ 64)
    let _ ← pushCopy a t place (e.1 % 2 ^ 64) e.2 (levelsAbove place (a.levels t))) dirty

/-- Whether a rebase may begin: every die of every job saved, so that no core runs one, and no operation in flight but those held at the
horizon. -/
def State.rebaseReady (s : State) : Bool :=
  (s.launches.all fun l => !l.2.started || (s.coresOf l.2).all fun c => s.coreJob c != some l.2.job) &&
    s.ops.all fun o => s.heldAtHorizon o.1

/-- Every hold at a home. -/
def State.allHolds (s : State) : List Hold := (s.dies.flatMap fun e => e.2.holds) ++ s.bridges.flatMap fun e => e.2.holds

/-- Every logical time set to 0, and every copy that is not a home's discarded (R365). The times that the registers of idle arithmetic
contexts, the sealed effects still out and the arrivals at barriers carry are set with those of the held accesses. -/
def State.zeroTimes (s : State) : State :=
  { s with
    copies := [], frames := [], times := [], bridges := s.bridges.map fun e => (e.1, { e.2 with grains := [], floor := 0 }),
    ops := s.ops.map fun o => (o.1, { o.2 with pts := 0 }),
    ctxs := s.ctxs.map fun e => if isArith (e.1 / 16) then (e.1, { e.2 with pts := 0 }) else e,
    barriers := s.barriers.map fun b => { b with arrivals := b.arrivals.map fun a => { a with pts := 0 } },
    cores := s.cores.map fun e => (e.1, { e.2 with
      outbound := e.2.outbound.map fun o => { o with view := { o.view with pts := 0 } } }) }

/-- An access of a killed packet that was held at the time horizon is performed, its reply discarded: the home's lease (R87, R365). -/
def performRead (h : Hold) : Mach Unit := do
  match globalSite (← get) h.gva h.gva with
  | none => pure ()
  | some t =>
    let _ ← attempt do
      let home ← homeOf (cacheAgent (guestPlace 0)) t .settled
      homeServe home 0 h.lease

/-- A step without the logical time that it carries: an ENQUEUE's RPTS, or that of a start that waits for its record. -/
def Due.untimed (d : Due) : Due :=
  if d.step = .enqueue || (d.step = .autoPop && d.subject.flag) then { d with subject := { d.subject with value := 0#64 } } else d

/-- An access held at the time horizon that is no engine's is performed (R365). -/
def performHeld (h : Hold) : Mach Unit :=
  match h.who with
  | .op _ => pure ()
  | .ctx .. | .load .. | .fetch .. => performRead h
  | .step d => modify fun s => s.dueAt d.step d.untimed.subject
  | .packet .. => modify fun s => { s with turns := .retry h.who [] :: s.turns }

/-- The rebase (R365). It goes on only where everything dirty has reached its home. -/
def rebase (v : Dword) : Mach Unit := do
  if ← harvestAll (← get).brine then
    pushEverything fun p => ccPlace 0 ≤ p && p < guestPlace 0
    pushEverything fun p => guestPlace 0 ≤ p && p < l1iPlace 0
    if (← get).copies.all fun e => e.2.dirty == 0 then
      let held := (← get).allHolds.filter fun h => h.horizon
      modify fun (s : State) =>
        let s := s.zeroTimes.filterHolds fun h => !h.horizon || match h.who with
          | .op _ => true
          | _ => false
        { s with epoch := (s.epoch + 1) % 2 ^ 32 }
      eachOf performHeld held
      modify fun s =>
        let s := s.ctxs.foldl (fun (s : State) e => match e.2.status with
          | .waiting (.horizon ..) _ => s.setCtxAt e.1 { s.ctxAt e.1 with status := .running }
          | _ => s) s
        s.endCommand 0 v

/-! ## The steps -/

/-- Carries out a command in progress; where an access of it must wait, with a fault record if its page is absent, the command
stays in progress and is tried again. -/
def carryOut (d : Nat) (m : Mach Unit) : Mach Unit := do
  tryCatch m fun e =>
    match e with
    | .hold w => modify fun s => s.addWait w (.step ⟨.quiesce, { Subject.nothing with place := d }⟩)
    | .notPresent gva _ home _ write =>
      modify fun s =>
        let again := Asker.step ⟨.quiesce, { Subject.nothing with place := d }⟩
        if s.faultQueueFull home then s.addWait (.home home gva) again
        else (s.faultRecord home gva 1 false write 0 d 15 0#64).addWait (.absent home gva) again
    | _ => pure ()

/-- QUIESCE (R357): once the die's engine operations, deposits and awaited answers have come to their end, its state is saved. A
resume or a rebase whose accesses had to wait is tried again too. -/
def execQuiesce (s : State) : Out :=
  event (do
    let d := s.subject.place
    match (s.die d).command with
    | none => pure ()
    | some v =>
      match bits v.toNat 0 6 with
      | 1 =>
        let cores := match s.dieJob d with
          | none => []
          | some job => s.jobCores d job
        if s.agenda.any fun x => x.step != .quiesce then modify fun s => s.due .quiesce d
        else if s.unquiet d cores then pure ()
        else carryOut d (saveDie d v)
      | 2 => carryOut d (resumeDie d v)
      | _ => carryOut d (rebase v)) s

/-- LAUNCHQ_RESUME (R355, R362). -/
def execLaunchqResume (s : State) : Out :=
  event (do
    let j := s.subject
    let d := j.place
    orBusy d j.value (do
      if bits j.value.toNat 7 9 != 0 || !s.kindZero (imageOf j.value) then modify fun s => s.lqstat d 5 false j.value
      else
        modify fun s => s.beginCommand d j.value
        carryOut d (resumeDie d j.value))) s

/-- LAUNCHQ_REBASE (R355, R365): refused with code 4 where the conditions are not met, or on another die than 0. -/
def execLaunchqRebase (s : State) : Out :=
  event (do
    let j := s.subject
    let d := j.place
    orBusy d j.value (do
      if bits j.value.toNat 6 58 != 0 then modify fun s => s.lqstat d 5 false j.value
      else if d != 0 || !s.rebaseReady then modify fun s => s.lqstat d 4 false j.value
      else
        modify fun s => s.beginCommand d j.value
        carryOut d (rebase j.value))) s

end Sys2Proof.Machine
end

