-- ==== Sys2Proof/Machine/Dispatch.lean ====
section
/-!
DEFINITION. The one dispatcher: every constructor of `Instr` to its meaning.
-/
namespace Sys2Proof.Machine

def exec (i : Instr) (s : State) : Host.Outcome State Fault Refusal :=
  match i with
  | .add rd rs1 rs2 => Sys2Proof.Machine.execAdd rd rs1 rs2 s
  | .sub rd rs1 rs2 => Sys2Proof.Machine.execSub rd rs1 rs2 s
  | .and rd rs1 rs2 => Sys2Proof.Machine.execAnd rd rs1 rs2 s
  | .or rd rs1 rs2 => Sys2Proof.Machine.execOr rd rs1 rs2 s
  | .xor rd rs1 rs2 => Sys2Proof.Machine.execXor rd rs1 rs2 s
  | .andn rd rs1 rs2 => Sys2Proof.Machine.execAndn rd rs1 rs2 s
  | .sll rd rs1 rs2 => Sys2Proof.Machine.execSll rd rs1 rs2 s
  | .srl rd rs1 rs2 => Sys2Proof.Machine.execSrl rd rs1 rs2 s
  | .sra rd rs1 rs2 => Sys2Proof.Machine.execSra rd rs1 rs2 s
  | .slt rd rs1 rs2 => Sys2Proof.Machine.execSlt rd rs1 rs2 s
  | .sltu rd rs1 rs2 => Sys2Proof.Machine.execSltu rd rs1 rs2 s
  | .min rd rs1 rs2 => Sys2Proof.Machine.execMin rd rs1 rs2 s
  | .max rd rs1 rs2 => Sys2Proof.Machine.execMax rd rs1 rs2 s
  | .minu rd rs1 rs2 => Sys2Proof.Machine.execMinu rd rs1 rs2 s
  | .maxu rd rs1 rs2 => Sys2Proof.Machine.execMaxu rd rs1 rs2 s
  | .sel rd rs1 rs2 => Sys2Proof.Machine.execSel rd rs1 rs2 s
  | .clz rd rs1 => Sys2Proof.Machine.execClz rd rs1 s
  | .ctz rd rs1 => Sys2Proof.Machine.execCtz rd rs1 s
  | .popc rd rs1 => Sys2Proof.Machine.execPopc rd rs1 s
  | .addi rd rs1 imm => Sys2Proof.Machine.execAddi rd rs1 imm s
  | .andi rd rs1 imm => Sys2Proof.Machine.execAndi rd rs1 imm s
  | .ori rd rs1 imm => Sys2Proof.Machine.execOri rd rs1 imm s
  | .xori rd rs1 imm => Sys2Proof.Machine.execXori rd rs1 imm s
  | .slti rd rs1 imm => Sys2Proof.Machine.execSlti rd rs1 imm s
  | .sltiu rd rs1 imm => Sys2Proof.Machine.execSltiu rd rs1 imm s
  | .slli rd rs1 shamt => Sys2Proof.Machine.execSlli rd rs1 shamt s
  | .srli rd rs1 shamt => Sys2Proof.Machine.execSrli rd rs1 shamt s
  | .srai rd rs1 shamt => Sys2Proof.Machine.execSrai rd rs1 shamt s
  | .lui rd imm => Sys2Proof.Machine.execLui rd imm s
  | .addpc rd imm => Sys2Proof.Machine.execAddpc rd imm s
  | .mul rd rs1 rs2 w => Sys2Proof.Machine.execMul rd rs1 rs2 w s
  | .mulh rd rs1 rs2 => Sys2Proof.Machine.execMulh rd rs1 rs2 s
  | .mulhu rd rs1 rs2 => Sys2Proof.Machine.execMulhu rd rs1 rs2 s
  | .div rd rs1 rs2 w => Sys2Proof.Machine.execDiv rd rs1 rs2 w s
  | .divu rd rs1 rs2 w => Sys2Proof.Machine.execDivu rd rs1 rs2 w s
  | .rem rd rs1 rs2 w => Sys2Proof.Machine.execRem rd rs1 rs2 w s
  | .remu rd rs1 rs2 w => Sys2Proof.Machine.execRemu rd rs1 rs2 w s
  | .beq rs1 rs2 off => Sys2Proof.Machine.execBeq rs1 rs2 off s
  | .bne rs1 rs2 off => Sys2Proof.Machine.execBne rs1 rs2 off s
  | .blt rs1 rs2 off => Sys2Proof.Machine.execBlt rs1 rs2 off s
  | .bge rs1 rs2 off => Sys2Proof.Machine.execBge rs1 rs2 off s
  | .bltu rs1 rs2 off => Sys2Proof.Machine.execBltu rs1 rs2 off s
  | .bgeu rs1 rs2 off => Sys2Proof.Machine.execBgeu rs1 rs2 off s
  | .jal rd imm => Sys2Proof.Machine.execJal rd imm s
  | .jalr rd rs1 imm => Sys2Proof.Machine.execJalr rd rs1 imm s
  | .loop rc off => Sys2Proof.Machine.execLoop rc off s
  | .loopr rc off => Sys2Proof.Machine.execLoopr rc off s
  | .rep rc n => Sys2Proof.Machine.execRep rc n s
  | .ld rd base size z space off => Sys2Proof.Machine.execLd rd base size z space off s
  | .ldSt rd base size z space scope => Sys2Proof.Machine.execLdSt rd base size z space scope s
  | .st rv base size space off => Sys2Proof.Machine.execSt rv base size space off s
  | .stSt rv base size space scope => Sys2Proof.Machine.execStSt rv base size space scope s
  | .pref base space off => Sys2Proof.Machine.execPref base space off s
  | .amo op size rd rs1 scope acq rel => Sys2Proof.Machine.execAmo op size rd rs1 scope acq rel s
  | .casW rd rs1 rs2 scope acq rel => Sys2Proof.Machine.execCasW rd rs1 rs2 scope acq rel s
  | .casD rd rs1 rs2 scope acq rel => Sys2Proof.Machine.execCasD rd rs1 rs2 scope acq rel s
  | .red op size rs1 rs2 scope rel => Sys2Proof.Machine.execRed op size rs1 rs2 scope rel s
  | .bupd tag rs1 rs2 scope rel => Sys2Proof.Machine.execBupd tag rs1 rs2 scope rel s
  | .fenceAcq scope => Sys2Proof.Machine.execFenceAcq scope s
  | .fenceRel scope => Sys2Proof.Machine.execFenceRel scope s
  | .fenceFull scope => Sys2Proof.Machine.execFenceFull scope s
  | .fenceSp => Sys2Proof.Machine.execFenceSp s
  | .ifence => Sys2Proof.Machine.execIfence s
  | .csrrw rd rs1 csr => Sys2Proof.Machine.execCsrrw rd rs1 csr s
  | .csrrs rd rs1 csr => Sys2Proof.Machine.execCsrrs rd rs1 csr s
  | .csrrc rd rs1 csr => Sys2Proof.Machine.execCsrrc rd rs1 csr s
  | .trap rs1 => Sys2Proof.Machine.execTrap rs1 s
  | .eret => Sys2Proof.Machine.execEret s
  | .wfe => Sys2Proof.Machine.execWfe s
  | .dictLoad rs1 => Sys2Proof.Machine.execDictLoad rs1 s
  | .xlinv rs1 rs2 => Sys2Proof.Machine.execXlinv rs1 rs2 s
  | .bist rd rs1 => Sys2Proof.Machine.execBist rd rs1 s
  | .compactLane op vd vs2 => Sys2Proof.Machine.execCompactLane op vd vs2 s
  | .dictionaryReference index override => Sys2Proof.Machine.execDictionaryReference index override s
  | .vadd size vd vs1 vs2 k => Sys2Proof.Machine.execVadd size vd vs1 vs2 k s
  | .vsub size vd vs1 vs2 k => Sys2Proof.Machine.execVsub size vd vs1 vs2 k s
  | .vmul size vd vs1 vs2 k => Sys2Proof.Machine.execVmul size vd vs1 vs2 k s
  | .vmulh size vd vs1 vs2 k => Sys2Proof.Machine.execVmulh size vd vs1 vs2 k s
  | .vand vd vs1 vs2 k => Sys2Proof.Machine.execVand vd vs1 vs2 k s
  | .vor vd vs1 vs2 k => Sys2Proof.Machine.execVor vd vs1 vs2 k s
  | .vxor vd vs1 vs2 k => Sys2Proof.Machine.execVxor vd vs1 vs2 k s
  | .vshl size vd vs1 vs2 k => Sys2Proof.Machine.execVshl size vd vs1 vs2 k s
  | .vshr size vd vs1 vs2 k => Sys2Proof.Machine.execVshr size vd vs1 vs2 k s
  | .vshra size vd vs1 vs2 k => Sys2Proof.Machine.execVshra size vd vs1 vs2 k s
  | .vmin size vd vs1 vs2 k => Sys2Proof.Machine.execVmin size vd vs1 vs2 k s
  | .vmax size vd vs1 vs2 k => Sys2Proof.Machine.execVmax size vd vs1 vs2 k s
  | .vminu size vd vs1 vs2 k => Sys2Proof.Machine.execVminu size vd vs1 vs2 k s
  | .vmaxu size vd vs1 vs2 k => Sys2Proof.Machine.execVmaxu size vd vs1 vs2 k s
  | .vmov vd vs2 k => Sys2Proof.Machine.execVmov vd vs2 k s
  | .vsel vd vs1 vs2 k => Sys2Proof.Machine.execVsel vd vs1 vs2 k s
  | .vcmpEq size kd vs1 vs2 k => Sys2Proof.Machine.execVcmpEq size kd vs1 vs2 k s
  | .vcmpNe size kd vs1 vs2 k => Sys2Proof.Machine.execVcmpNe size kd vs1 vs2 k s
  | .vcmpLt size kd vs1 vs2 k => Sys2Proof.Machine.execVcmpLt size kd vs1 vs2 k s
  | .vcmpGe size kd vs1 vs2 k => Sys2Proof.Machine.execVcmpGe size kd vs1 vs2 k s
  | .vcmpLtu size kd vs1 vs2 k => Sys2Proof.Machine.execVcmpLtu size kd vs1 vs2 k s
  | .vcmpGeu size kd vs1 vs2 k => Sys2Proof.Machine.execVcmpGeu size kd vs1 vs2 k s
  | .vfadd ty vd vs1 vs2 k => Sys2Proof.Machine.execVfadd ty vd vs1 vs2 k s
  | .vfsub ty vd vs1 vs2 k => Sys2Proof.Machine.execVfsub ty vd vs1 vs2 k s
  | .vfmul ty vd vs1 vs2 k => Sys2Proof.Machine.execVfmul ty vd vs1 vs2 k s
  | .vfdiv ty vd vs1 vs2 k => Sys2Proof.Machine.execVfdiv ty vd vs1 vs2 k s
  | .vfsqrt ty vd vs1 k => Sys2Proof.Machine.execVfsqrt ty vd vs1 k s
  | .vfmin ty vd vs1 vs2 k => Sys2Proof.Machine.execVfmin ty vd vs1 vs2 k s
  | .vfmax ty vd vs1 vs2 k => Sys2Proof.Machine.execVfmax ty vd vs1 vs2 k s
  | .vfabs ty vd vs1 k => Sys2Proof.Machine.execVfabs ty vd vs1 k s
  | .vfneg ty vd vs1 k => Sys2Proof.Machine.execVfneg ty vd vs1 k s
  | .vfcmpEq kd vs1 vs2 k => Sys2Proof.Machine.execVfcmpEq kd vs1 vs2 k s
  | .vfcmpLt kd vs1 vs2 k => Sys2Proof.Machine.execVfcmpLt kd vs1 vs2 k s
  | .vfcmpLe kd vs1 vs2 k => Sys2Proof.Machine.execVfcmpLe kd vs1 vs2 k s
  | .vfcmpUn kd vs1 vs2 k => Sys2Proof.Machine.execVfcmpUn kd vs1 vs2 k s
  | .vfma vd vs1 vs2 vs3 k => Sys2Proof.Machine.execVfma vd vs1 vs2 vs3 k s
  | .vfms vd vs1 vs2 vs3 k => Sys2Proof.Machine.execVfms vd vs1 vs2 vs3 k s
  | .vfnma vd vs1 vs2 vs3 k => Sys2Proof.Machine.execVfnma vd vs1 vs2 vs3 k s
  | .vmovx vd xs => Sys2Proof.Machine.execVmovx vd xs s
  | .vext xd vs1 lane => Sys2Proof.Machine.execVext xd vs1 lane s
  | .vshuf vd vs1 vs2 k => Sys2Proof.Machine.execVshuf vd vs1 vs2 k s
  | .vslideUp vd vs1 n k => Sys2Proof.Machine.execVslideUp vd vs1 n k s
  | .vslideDn vd vs1 n k => Sys2Proof.Machine.execVslideDn vd vs1 n k s
  | .vredAdd vd vs1 k => Sys2Proof.Machine.execVredAdd vd vs1 k s
  | .vredMin vd vs1 k => Sys2Proof.Machine.execVredMin vd vs1 k s
  | .vredMax vd vs1 k => Sys2Proof.Machine.execVredMax vd vs1 k s
  | .vredMinu vd vs1 k => Sys2Proof.Machine.execVredMinu vd vs1 k s
  | .vredMaxu vd vs1 k => Sys2Proof.Machine.execVredMaxu vd vs1 k s
  | .vredAnd vd vs1 k => Sys2Proof.Machine.execVredAnd vd vs1 k s
  | .vredOr vd vs1 k => Sys2Proof.Machine.execVredOr vd vs1 k s
  | .vredXor vd vs1 k => Sys2Proof.Machine.execVredXor vd vs1 k s
  | .vfredAdd vd vs1 k => Sys2Proof.Machine.execVfredAdd vd vs1 k s
  | .vfredMin vd vs1 k => Sys2Proof.Machine.execVfredMin vd vs1 k s
  | .vfredMax vd vs1 k => Sys2Proof.Machine.execVfredMax vd vs1 k s
  | .vld vd base space off => Sys2Proof.Machine.execVld vd base space off s
  | .vst vd base space off => Sys2Proof.Machine.execVst vd base space off s
  | .vldt vd base off => Sys2Proof.Machine.execVldt vd base off s
  | .vstt vd base off => Sys2Proof.Machine.execVstt vd base off s
  | .vldl vd base off => Sys2Proof.Machine.execVldl vd base off s
  | .vstl vd base off => Sys2Proof.Machine.execVstl vd base off s
  | .vgath vd base vi space => Sys2Proof.Machine.execVgath vd base vi space s
  | .vscat vd base vi space => Sys2Proof.Machine.execVscat vd base vi space s
  | .kand kd ks1 ks2 => Sys2Proof.Machine.execKand kd ks1 ks2 s
  | .kor kd ks1 ks2 => Sys2Proof.Machine.execKor kd ks1 ks2 s
  | .kxor kd ks1 ks2 => Sys2Proof.Machine.execKxor kd ks1 ks2 s
  | .knot kd ks1 => Sys2Proof.Machine.execKnot kd ks1 s
  | .kmovKK kd ks1 => Sys2Proof.Machine.execKmovKK kd ks1 s
  | .kmovKX kd xs1 => Sys2Proof.Machine.execKmovKX kd xs1 s
  | .kmovXK xd ks1 => Sys2Proof.Machine.execKmovXK xd ks1 s
  | .kpopc xd ks1 => Sys2Proof.Machine.execKpopc xd ks1 s
  | .vcvt src dst vd vs1 k => Sys2Proof.Machine.execVcvt src dst vd vs1 k s
  | .vclass src vd vs1 k => Sys2Proof.Machine.execVclass src vd vs1 k s
  | .mma fmt adv wb acc ringA ringB mask => Sys2Proof.Machine.execMma fmt adv wb acc ringA ringB mask s
  | .mmaSp fmt adv wb acc ringA ringB mask => Sys2Proof.Machine.execMmaSp fmt adv wb acc ringA ringB mask s
  | .mwb fmt adv ringA slot => Sys2Proof.Machine.execMwb fmt adv ringA slot s
  | .mzero acc => Sys2Proof.Machine.execMzero acc s
  | .mst fmt adv acc ring mask => Sys2Proof.Machine.execMst fmt adv acc ring mask s
  | .mlda adv acc ring => Sys2Proof.Machine.execMlda adv acc ring s
  | .mmov dst src => Sys2Proof.Machine.execMmov dst src s
  | .rinit h rs1 => Sys2Proof.Machine.execRinit h rs1 s
  | .cbwait h rs1 n => Sys2Proof.Machine.execCbwait h rs1 n s
  | .cbroom h rs1 n => Sys2Proof.Machine.execCbroom h rs1 n s
  | .cbadv h rs1 n => Sys2Proof.Machine.execCbadv h rs1 n s
  | .cbpub h rs1 n => Sys2Proof.Machine.execCbpub h rs1 n s
  | .bindRd p h esize z => Sys2Proof.Machine.execBindRd p h esize z s
  | .bindWr p h esize => Sys2Proof.Machine.execBindWr p h esize s
  | .unbind p => Sys2Proof.Machine.execUnbind p s
  | .copy dst src cnt ph ord side => Sys2Proof.Machine.execCopy dst src cnt ph ord side s
  | .copyIn dst src cnt ph ord side => Sys2Proof.Machine.execCopyIn dst src cnt ph ord side s
  | .copy2 dst src cnt ph ord side => Sys2Proof.Machine.execCopy2 dst src cnt ph ord side s
  | .gath dst src cnt ph ord side => Sys2Proof.Machine.execGath dst src cnt ph ord side s
  | .collAllred dst src cnt ph ord => Sys2Proof.Machine.execCollAllred dst src cnt ph ord s
  | .collRed dst src cnt ph ord => Sys2Proof.Machine.execCollRed dst src cnt ph ord s
  | .collBcast dst src cnt ph ord => Sys2Proof.Machine.execCollBcast dst src cnt ph ord s
  | .collAllgath dst src cnt ph ord => Sys2Proof.Machine.execCollAllgath dst src cnt ph ord s
  | .collRedscat dst src cnt ph ord => Sys2Proof.Machine.execCollRedscat dst src cnt ph ord s
  | .depo rs1 rs2 scope rel => Sys2Proof.Machine.execDepo rs1 rs2 scope rel s
  | .slcall rd rs1 rs2 ord => Sys2Proof.Machine.execSlcall rd rs1 rs2 ord s
  | .slpush rd rs1 rs2 ord => Sys2Proof.Machine.execSlpush rd rs1 rs2 ord s
  | .phInit rd rs1 rs2 => Sys2Proof.Machine.execPhInit rd rs1 rs2 s
  | .phReg rd rs1 mode => Sys2Proof.Machine.execPhReg rd rs1 mode s
  | .phDrop rd rs1 mode => Sys2Proof.Machine.execPhDrop rd rs1 mode s
  | .phArr rd rs1 => Sys2Proof.Machine.execPhArr rd rs1 s
  | .phWait rd rs1 rs2 st => Sys2Proof.Machine.execPhWait rd rs1 rs2 st s
  | .phTest rd rs1 rs2 => Sys2Proof.Machine.execPhTest rd rs1 rs2 s
  | .phExp rs1 rs2 => Sys2Proof.Machine.execPhExp rs1 rs2 s
  | .phStat rd rs1 => Sys2Proof.Machine.execPhStat rd rs1 s
  | .bar kind rd => Sys2Proof.Machine.execBar kind rd s
  | .spawn rd rs1 => Sys2Proof.Machine.execSpawn rd rs1 s
  | .start rd rs1 rs2 => Sys2Proof.Machine.execStart rd rs1 rs2 s
  | .susp rs1 => Sys2Proof.Machine.execSusp rs1 s
  | .done rs1 => Sys2Proof.Machine.execDone rs1 s
  | .joindec rs1 => Sys2Proof.Machine.execJoindec rs1 s
  | .yield => Sys2Proof.Machine.execYield s
  | .cancel rs1 level hard => Sys2Proof.Machine.execCancel rs1 level hard s
  | .ctrrd rd rs1 level => Sys2Proof.Machine.execCtrrd rd rs1 level s
  | .netOpen rd rs1 rs2 => Sys2Proof.Machine.execNetOpen rd rs1 rs2 s
  | .netKeep rd rs1 => Sys2Proof.Machine.execNetKeep rd rs1 s
  | .netDrop rd rs1 rs2 => Sys2Proof.Machine.execNetDrop rd rs1 rs2 s
  | .netStat rd rs1 => Sys2Proof.Machine.execNetStat rd rs1 s
  | .bharv rs1 => Sys2Proof.Machine.execBharv rs1 s
  | .bquery rd rs1 => Sys2Proof.Machine.execBquery rd rs1 s
  | .axrBegin id stop => Sys2Proof.Machine.execAxrBegin id stop s
  | .axrEnd id => Sys2Proof.Machine.execAxrEnd id s
  | .axrCfg rd id rs1 => Sys2Proof.Machine.execAxrCfg rd id rs1 s
  | .axrInval id => Sys2Proof.Machine.execAxrInval id s
  | .axrStat rd id => Sys2Proof.Machine.execAxrStat rd id s
  | .footInsertion => Sys2Proof.Machine.execFootInsertion s
  | .garner => Sys2Proof.Machine.execGarner s
  | .sidingCompletion => Sys2Proof.Machine.execSidingCompletion s
  | .rejoin => Sys2Proof.Machine.execRejoin s
  | .perchEntry => Sys2Proof.Machine.execPerchEntry s
  | .seal => Sys2Proof.Machine.execSeal s
  | .panWrite => Sys2Proof.Machine.execPanWrite s
  | .depositArrival => Sys2Proof.Machine.execDepositArrival s
  | .answerArrival => Sys2Proof.Machine.execAnswerArrival s
  | .loadDataReturn => Sys2Proof.Machine.execLoadDataReturn s
  | .weakStoreAccept => Sys2Proof.Machine.execWeakStoreAccept s
  | .release => Sys2Proof.Machine.execRelease s
  | .cacheEviction => Sys2Proof.Machine.execCacheEviction s
  | .homeRequest => Sys2Proof.Machine.execHomeRequest s
  | .dramRequestAging => Sys2Proof.Machine.execDramRequestAging s
  | .boothMessage => Sys2Proof.Machine.execBoothMessage s
  | .writeCheck => Sys2Proof.Machine.execWriteCheck s
  | .shadowProbe => Sys2Proof.Machine.execShadowProbe s
  | .niTranslation => Sys2Proof.Machine.execNiTranslation s
  | .migRewalk => Sys2Proof.Machine.execMigRewalk s
  | .portStagingTransfer => Sys2Proof.Machine.execPortStagingTransfer s
  | .ringWatcherSatisfied => Sys2Proof.Machine.execRingWatcherSatisfied s
  | .cbwaitSuspendTimeout => Sys2Proof.Machine.execCbwaitSuspendTimeout s
  | .ringCopyPublish => Sys2Proof.Machine.execRingCopyPublish s
  | .brineGrantRequest => Sys2Proof.Machine.execBrineGrantRequest s
  | .bupdApply => Sys2Proof.Machine.execBupdApply s
  | .holderRecall => Sys2Proof.Machine.execHolderRecall s
  | .harvestMerge => Sys2Proof.Machine.execHarvestMerge s
  | .brineDiscardComplete => Sys2Proof.Machine.execBrineDiscardComplete s
  | .netDropHomeArrival => Sys2Proof.Machine.execNetDropHomeArrival s
  | .netDropComplete => Sys2Proof.Machine.execNetDropComplete s
  | .netOpenRecord => Sys2Proof.Machine.execNetOpenRecord s
  | .fillPacket => Sys2Proof.Machine.execFillPacket s
  | .sampleArrival => Sys2Proof.Machine.execSampleArrival s
  | .batchValidationEnd => Sys2Proof.Machine.execBatchValidationEnd s
  | .trainingStepEnd => Sys2Proof.Machine.execTrainingStepEnd s
  | .launchTickStart => Sys2Proof.Machine.execLaunchTickStart s
  | .launchComplete => Sys2Proof.Machine.execLaunchComplete s
  | .treeReport => Sys2Proof.Machine.execTreeReport s
  | .enqueue => Sys2Proof.Machine.execEnqueue s
  | .autoPop => Sys2Proof.Machine.execAutoPop s
  | .steal => Sys2Proof.Machine.execSteal s
  | .phaserReservation => Sys2Proof.Machine.execPhaserReservation s
  | .phaserWithdrawal => Sys2Proof.Machine.execPhaserWithdrawal s
  | .phaserArrival => Sys2Proof.Machine.execPhaserArrival s
  | .engineCompletion => Sys2Proof.Machine.execEngineCompletion s
  | .barrierArrival => Sys2Proof.Machine.execBarrierArrival s
  | .barrierTimeout => Sys2Proof.Machine.execBarrierTimeout s
  | .superstepStop => Sys2Proof.Machine.execSuperstepStop s
  | .collArrival => Sys2Proof.Machine.execCollArrival s
  | .collTimeout => Sys2Proof.Machine.execCollTimeout s
  | .sluiceCallStart => Sys2Proof.Machine.execSluiceCallStart s
  | .wfeWake => Sys2Proof.Machine.execWfeWake s
  | .launchqSubmit => Sys2Proof.Machine.execLaunchqSubmit s
  | .launchqPreempt => Sys2Proof.Machine.execLaunchqPreempt s
  | .launchqResume => Sys2Proof.Machine.execLaunchqResume s
  | .launchqRebase => Sys2Proof.Machine.execLaunchqRebase s
  | .launchqUnknown => Sys2Proof.Machine.execLaunchqUnknown s
  | .preemptArrival => Sys2Proof.Machine.execPreemptArrival s
  | .quiesce => Sys2Proof.Machine.execQuiesce s
  | .fltresWrite => Sys2Proof.Machine.execFltresWrite s
  | .migctlGo => Sys2Proof.Machine.execMigctlGo s
  | .migrationComplete => Sys2Proof.Machine.execMigrationComplete s
  | .lendbanksWrite => Sys2Proof.Machine.execLendbanksWrite s
  | .netpslotsWrite => Sys2Proof.Machine.execNetpslotsWrite s
  | .netpbaseWrite => Sys2Proof.Machine.execNetpbaseWrite s
  | .mgmtownClaim => Sys2Proof.Machine.execMgmtownClaim s
  | .mgmtownOwner => Sys2Proof.Machine.execMgmtownOwner s
  | .hostLinkDown => Sys2Proof.Machine.execHostLinkDown s
  | .dierel => Sys2Proof.Machine.execDierel s
  | .coldReset => Sys2Proof.Machine.execColdReset s
  | .measurementExtend => Sys2Proof.Machine.execMeasurementExtend s
  | .attestationReport => Sys2Proof.Machine.execAttestationReport s
  | .linkEnWrite => Sys2Proof.Machine.execLinkEnWrite s
  | .linkStateChange => Sys2Proof.Machine.execLinkStateChange s
  | .flitReceive => Sys2Proof.Machine.execFlitReceive s
  | .flitNak => Sys2Proof.Machine.execFlitNak s
  | .laneRetrain => Sys2Proof.Machine.execLaneRetrain s
  | .cxlLinkChange => Sys2Proof.Machine.execCxlLinkChange s
  | .vmargWrite => Sys2Proof.Machine.execVmargWrite s
  | .railSettled => Sys2Proof.Machine.execRailSettled s
  | .dramRefreshModeChange => Sys2Proof.Machine.execDramRefreshModeChange s
  | .clusterHotChange => Sys2Proof.Machine.execClusterHotChange s
  | .throttleChange => Sys2Proof.Machine.execThrottleChange s
  | .registerWrite => Sys2Proof.Machine.execRegisterWrite s
  | .upHalf => Sys2Proof.Machine.execUpHalf s
  | .downHalf => Sys2Proof.Machine.execDownHalf s
  | .lazyReleaseReclaim => Sys2Proof.Machine.execLazyReleaseReclaim s
  | .lentBankReclaimDone => Sys2Proof.Machine.execLentBankReclaimDone s
  | .dramRefresh => Sys2Proof.Machine.execDramRefresh s
  | .wfeSpuriousCompletion => Sys2Proof.Machine.execWfeSpuriousCompletion s

end Sys2Proof.Machine
end

