-- ==== Sys2Proof/Machine/Step.lean ====
section
/-!
DEFINITION. One step of the module: a turn the outside takes, else the oldest step that is due, else the instruction of the
context whose turn it is (assumption log, entry 4).
-/
namespace Sys2Proof.Machine

/-- The running context's instruction: fetched, and executed; then the next context's turn. -/
def stepContext (s : State) : Host.Outcome State Fault Refusal :=
  if !isContext s.cur.1 s.cur.2 then .fault .noSuchContext
  else if !s.runs s.myKey then .next s.tick.rotate
  else
    match EStateM.run fetch s.tick with
    | .ok i s' => afterInstr (exec i s')
    | .error e s' => afterInstr (outcomeOf s.tick s' e)

/-- An access that has waited goes on: a context takes its instruction again, an engine operation, a step or a load is tried again, and a
sealed effect is performed. -/
def retryStep (who : Asker) (s : State) : Host.Outcome State Fault Refusal :=
  match who with
  | .ctx core n => let s := s.wake core n; if s.runs (ctxKey core n) then stepContext { s with cur := (core, n) } else .next s
  | .op n => exec .engineCompletion { s with subject := { Subject.nothing with place := n } }
  | .step d => exec d.step { s with subject := d.subject }
  | .load core n seq => .next (s.retryLoad core n seq)
  | .fetch core n => .next (s.retryFetch core n)
  | .packet core n seq also => .next (s.performSeq core n seq also)

/-- What a step leaves once the request whose turn it was has had it. -/
def afterPass (o : Host.Outcome State Fault Refusal) : Host.Outcome State Fault Refusal :=
  match o with
  | .next s => .next { s with pass := [] }
  | .fault f => .fault f
  | .refused r => .refused r

/-- One step. -/
def step (s : State) : Host.Outcome State Fault Refusal :=
  match s.turns with
  | .due d :: r => exec d.step { s with turns := r, subject := d.subject }
  | .run c n :: r => stepContext { s with turns := r, cur := (c, n) }
  | .damage a :: r => .next (State.mark { s with turns := r } a)
  | .spoil key holder :: r => .next (State.spoil { s with turns := r } key holder)
  | .merge home queue first second :: r => .next (State.merge { s with turns := r } home queue first second)
  | .retry who pass :: r => afterPass (retryStep who { s with turns := r, pass := pass })
  | [] =>
    match s.agenda with
    | d :: r => exec d.step { s with agenda := r, subject := d.subject }
    | [] => stepContext s

/-- The address at which `withFetchWord` places its instruction. -/
def fetchWordAddr : Dword := 0xFF00000000010000#64

/-- The same machine with one instruction where its next step fetches: no turn and nothing due, context 0 of core 0 running
at `fetchWordAddr`, a page table of four levels in die 0's DRAM that maps its page for reading, writing and fetching, and the
instruction's bytes there, every bit above `nbits` zero (assumption log, entry 4). -/
def State.withFetchWord (s : State) (nbits w : Nat) : State :=
  let s := { s with turns := [], agenda := [], cur := (0, 0), copies := [], frames := [], pass := [], run := none,
                      nets := [], brine := [] }
  let s := { s with released := true }
  let s := s.setCore 0 { s.core 0 with stopped := false, preempted := false, pipe := Pipe.empty, outbound := [] }
  let c := s.ctxAt 0
  let s := s.setCtxAt 0 { c with status := .running, pc := fetchWordAddr, rep := RepBuf.empty, fills := [] }
  let d := s.die 0
  let s := s.setDie 0 { (d.setReg 0x1D0 0x1000#64) with tlb := [], lent := [], failed := false, fuse := [] }
  let s := { s with marks := [] }
  let s := s.setBytes (dramBase 0 + 0x1000) (bytesOfNat 8 0x2001)
  let s := s.setBytes (dramBase 0 + 0x2000) (bytesOfNat 8 0x3001)
  let s := s.setBytes (dramBase 0 + 0x3000) (bytesOfNat 8 0x4001)
  let s := s.setBytes (dramBase 0 + 0x4080) (bytesOfNat 8 0x1000F)
  s.setBytes (dramBase 0 + 0x10000) (bytesOfNat 4 (w % 2 ^ nbits))

end Sys2Proof.Machine
end

