-- ==== Sys2Proof/Laws/Tab.lean ====
section
/-!
SUPPORT. Tables: reading after writing, and the canonical form.
-/
namespace Sys2Proof.Machine

variable {α : Type}

@[simp] theorem Tab.get_put_self (d : α) (t : Tab α) (k : Nat) (a : α) : (t.put k a).get d k = a := by
  induction t with
  | nil => simp [Tab.put, Tab.get]
  | cons e r ih =>
    obtain ⟨j, b⟩ := e
    unfold Tab.put
    split_ifs with h1 h2
    · simp [Tab.get]
    · simp [Tab.get]
    · simp only [Tab.get]
      rw [if_neg (fun h => h2 h.symm)]
      exact ih

theorem Tab.get_put_ne (d : α) (t : Tab α) {k j : Nat} (a : α) (h : j ≠ k) : (t.put k a).get d j = t.get d j := by
  induction t with
  | nil => simp [Tab.put, Tab.get, h.symm]
  | cons e r ih =>
    obtain ⟨i, b⟩ := e
    unfold Tab.put
    split_ifs with h1 h2
    · simp [Tab.get, h.symm]
    · subst h2; simp [Tab.get, h.symm]
    · simp only [Tab.get]
      split_ifs
      · rfl
      · exact ih

@[simp] theorem Tab.find_put_self (t : Tab α) (k : Nat) (a : α) : (t.put k a).find k = some a := by
  induction t with
  | nil => simp [Tab.put, Tab.find]
  | cons e r ih =>
    obtain ⟨j, b⟩ := e
    unfold Tab.put
    split_ifs with h1 h2
    · simp [Tab.find]
    · simp [Tab.find]
    · simp only [Tab.find]
      rw [if_neg (fun h => h2 h.symm)]
      exact ih

theorem Tab.find_put_ne (t : Tab α) {k j : Nat} (a : α) (h : j ≠ k) : (t.put k a).find j = t.find j := by
  induction t with
  | nil => simp [Tab.put, Tab.find, h.symm]
  | cons e r ih =>
    obtain ⟨i, b⟩ := e
    unfold Tab.put
    split_ifs with h1 h2
    · simp [Tab.find, h.symm]
    · subst h2; simp [Tab.find, h.symm]
    · simp only [Tab.find]
      split_ifs
      · rfl
      · exact ih

/-- Keys of a sorted table are at or above its bound. -/
theorem Tab.bound_of_mem {n : Nat} {t : Tab α} (h : Tab.sortedAbove n t = true) {e : Nat × α} (he : e ∈ t) : n ≤ e.1 := by
  induction t generalizing n with
  | nil => cases he
  | cons x r ih =>
    obtain ⟨j, b⟩ := x
    simp only [Tab.sortedAbove, Bool.and_eq_true, decide_eq_true_eq] at h
    rcases List.mem_cons.1 he with rfl | h'
    · exact h.1
    · have := ih h.2 h'; omega

theorem Tab.sortedAbove_mono {n m : Nat} {t : Tab α} (h : Tab.sortedAbove n t = true) (hm : m ≤ n) : Tab.sortedAbove m t = true := by
  cases t with
  | nil => rfl
  | cons x r =>
    obtain ⟨j, b⟩ := x
    simp only [Tab.sortedAbove, Bool.and_eq_true, decide_eq_true_eq] at h ⊢
    exact ⟨by omega, h.2⟩

theorem Tab.sorted_put {n : Nat} {t : Tab α} (h : Tab.sortedAbove n t = true) (k : Nat) (a : α) :
    Tab.sortedAbove (min n k) (t.put k a) = true := by
  induction t generalizing n with
  | nil => simp [Tab.put, Tab.sortedAbove]
  | cons x r ih =>
    obtain ⟨j, b⟩ := x
    simp only [Tab.sortedAbove, Bool.and_eq_true, decide_eq_true_eq] at h
    unfold Tab.put
    split_ifs with h1 h2
    · simp only [Tab.sortedAbove, Bool.and_eq_true, decide_eq_true_eq]
      exact ⟨by omega, by omega, h.2⟩
    · subst h2
      simp only [Tab.sortedAbove, Bool.and_eq_true, decide_eq_true_eq]
      exact ⟨by omega, h.2⟩
    · simp only [Tab.sortedAbove, Bool.and_eq_true, decide_eq_true_eq]
      refine ⟨by omega, ?_⟩
      exact Tab.sortedAbove_mono (ih h.2) (by omega)

theorem Tab.sorted_erase {n : Nat} {t : Tab α} (h : Tab.sortedAbove n t = true) (k : Nat) :
    Tab.sortedAbove n (t.erase k) = true := by
  induction t generalizing n with
  | nil => rfl
  | cons x r ih =>
    obtain ⟨j, b⟩ := x
    simp only [Tab.sortedAbove, Bool.and_eq_true, decide_eq_true_eq] at h
    unfold Tab.erase
    split_ifs
    · exact Tab.sortedAbove_mono h.2 (by omega)
    · simp only [Tab.sortedAbove, Bool.and_eq_true, decide_eq_true_eq]
      exact ⟨h.1, ih h.2⟩

theorem Tab.sorted_filter {n : Nat} {t : Tab α} (h : Tab.sortedAbove n t = true) (p : Nat × α → Bool) :
    Tab.sortedAbove n (t.filter p) = true := by
  induction t generalizing n with
  | nil => rfl
  | cons x r ih =>
    obtain ⟨j, b⟩ := x
    simp only [Tab.sortedAbove, Bool.and_eq_true, decide_eq_true_eq] at h
    rw [List.filter_cons]
    split_ifs
    · simp only [Tab.sortedAbove, Bool.and_eq_true, decide_eq_true_eq]
      exact ⟨h.1, ih h.2⟩
    · exact Tab.sortedAbove_mono (ih h.2) (by omega)

theorem Tab.mem_of_mem_put {t : Tab α} {k : Nat} {a : α} {e : Nat × α} (h : e ∈ t.put k a) : e = (k, a) ∨ e ∈ t := by
  induction t with
  | nil => simpa [Tab.put] using h
  | cons x r ih =>
    obtain ⟨j, b⟩ := x
    unfold Tab.put at h
    split_ifs at h with h1 h2
    · simpa using h
    · rcases List.mem_cons.1 h with rfl | h'
      · exact .inl rfl
      · exact .inr (List.mem_cons_of_mem _ h')
    · rcases List.mem_cons.1 h with rfl | h'
      · exact .inr (List.mem_cons_self ..)
      · rcases ih h' with h'' | h''
        · exact .inl h''
        · exact .inr (List.mem_cons_of_mem _ h'')

theorem Tab.mem_of_mem_erase {t : Tab α} {k : Nat} {e : Nat × α} (h : e ∈ t.erase k) : e ∈ t := by
  induction t with
  | nil => cases h
  | cons x r ih =>
    obtain ⟨j, b⟩ := x
    unfold Tab.erase at h
    split_ifs at h
    · exact List.mem_cons_of_mem _ h
    · rcases List.mem_cons.1 h with rfl | h'
      · exact List.mem_cons_self ..
      · exact List.mem_cons_of_mem _ (ih h')

/-- Writing keeps the canonical form. -/
theorem Tab.wf_set [DecidableEq α] (d : α) {t : Tab α} (h : Tab.wf d t = true) (k : Nat) (a : α) : Tab.wf d (t.set d k a) = true := by
  simp only [Tab.wf, Bool.and_eq_true, List.all_eq_true, Bool.not_eq_true', decide_eq_false_iff_not] at h ⊢
  unfold Tab.set
  split_ifs with ha
  · exact ⟨Tab.sorted_erase h.1 k, fun e he => h.2 e (Tab.mem_of_mem_erase he)⟩
  · refine ⟨Tab.sortedAbove_mono (Tab.sorted_put h.1 k a) (by omega), fun e he => ?_⟩
    rcases Tab.mem_of_mem_put he with rfl | he
    · exact ha
    · exact h.2 e he

/-- Leaving entries out keeps the canonical form. -/
theorem Tab.wf_filter [DecidableEq α] (d : α) {t : Tab α} (h : Tab.wf d t = true) (p : Nat × α → Bool) : Tab.wf d (t.filter p) = true := by
  simp only [Tab.wf, Bool.and_eq_true, List.all_eq_true, Bool.not_eq_true', decide_eq_false_iff_not] at h ⊢
  exact ⟨Tab.sorted_filter h.1 p, fun e he => h.2 e (List.mem_of_mem_filter he)⟩

theorem Tab.get_of_bound {d : α} {n k : Nat} {t : Tab α} (h : Tab.sortedAbove n t = true) (hk : k < n) : t.get d k = d := by
  induction t generalizing n with
  | nil => rfl
  | cons x r ih =>
    obtain ⟨j, b⟩ := x
    simp only [Tab.sortedAbove, Bool.and_eq_true, decide_eq_true_eq] at h
    rw [Tab.get, if_neg (by omega)]
    exact ih h.2 (by omega)

/-- A read of the entry just written. -/
theorem Tab.get_set_self [DecidableEq α] (d : α) {n : Nat} {t : Tab α} (h : Tab.sortedAbove n t = true) (k : Nat) (a : α) :
    (t.set d k a).get d k = a := by
  unfold Tab.set
  split_ifs with ha
  · subst ha
    induction t generalizing n with
    | nil => rfl
    | cons x r ih =>
      obtain ⟨j, b⟩ := x
      simp only [Tab.sortedAbove, Bool.and_eq_true, decide_eq_true_eq] at h
      unfold Tab.erase
      split_ifs with hk
      · exact Tab.get_of_bound h.2 (by omega)
      · rw [Tab.get, if_neg (fun e => hk e.symm)]
        exact ih h.2
  · simp

/-- A read of any other entry. -/
theorem Tab.get_set_ne [DecidableEq α] (d : α) (t : Tab α) {k j : Nat} (a : α) (h : j ≠ k) : (t.set d k a).get d j = t.get d j := by
  unfold Tab.set
  split_ifs
  · induction t with
    | nil => rfl
    | cons x r ih =>
      obtain ⟨i, b⟩ := x
      unfold Tab.erase
      split_ifs with hk
      · subst hk; rw [Tab.get, if_neg h.symm]
      · simp only [Tab.get]
        split_ifs
        · rfl
        · exact ih
  · exact Tab.get_put_ne d t a h

/-- Writing a key twice leaves what was written last. -/
@[simp] theorem Tab.put_put (t : Tab α) (k : Nat) (a b : α) : (t.put k a).put k b = t.put k b := by
  induction t with
  | nil => simp [Tab.put]
  | cons e r ih =>
    obtain ⟨j, c⟩ := e
    by_cases h1 : k < j
    · simp [Tab.put, h1]
    · by_cases h2 : k = j
      · simp [Tab.put, h2]
      · simp [Tab.put, h1, h2, ih]

end Sys2Proof.Machine
end

