-- ==== Sys2Proof/Laws/State.lean ====
section
/-!
SUPPORT. One law per field per update: what each update of the state, and of a context, leaves as it was, and what reading gives
after it. No later proof needs to unfold a record update.
-/
namespace Sys2Proof.Machine

@[simp] theorem State.setCtxAt_cur (s : State) (k : Nat) (c : Ctx) : (s.setCtxAt k c).cur = s.cur := rfl
@[simp] theorem State.setCtxAt_agenda (s : State) (k : Nat) (c : Ctx) : (s.setCtxAt k c).agenda = s.agenda := rfl
@[simp] theorem State.setCtxAt_subject (s : State) (k : Nat) (c : Ctx) : (s.setCtxAt k c).subject = s.subject := rfl
@[simp] theorem State.setCtxAt_turns (s : State) (k : Nat) (c : Ctx) : (s.setCtxAt k c).turns = s.turns := rfl
@[simp] theorem State.setCtxAt_free (s : State) (k : Nat) (c : Ctx) : (s.setCtxAt k c).free = s.free := rfl
@[simp] theorem State.setCtxAt_cores (s : State) (k : Nat) (c : Ctx) : (s.setCtxAt k c).cores = s.cores := rfl
@[simp] theorem State.setCtxAt_dies (s : State) (k : Nat) (c : Ctx) : (s.setCtxAt k c).dies = s.dies := rfl
@[simp] theorem State.setCtxAt_bridges (s : State) (k : Nat) (c : Ctx) : (s.setCtxAt k c).bridges = s.bridges := rfl
@[simp] theorem State.setCtxAt_mem (s : State) (k : Nat) (c : Ctx) : (s.setCtxAt k c).mem = s.mem := rfl
@[simp] theorem State.setCtxAt_marks (s : State) (k : Nat) (c : Ctx) : (s.setCtxAt k c).marks = s.marks := rfl
@[simp] theorem State.setCtxAt_times (s : State) (k : Nat) (c : Ctx) : (s.setCtxAt k c).times = s.times := rfl
@[simp] theorem State.setCtxAt_copies (s : State) (k : Nat) (c : Ctx) : (s.setCtxAt k c).copies = s.copies := rfl
@[simp] theorem State.setCtxAt_frames (s : State) (k : Nat) (c : Ctx) : (s.setCtxAt k c).frames = s.frames := rfl
@[simp] theorem State.setCtxAt_pass (s : State) (k : Nat) (c : Ctx) : (s.setCtxAt k c).pass = s.pass := rfl
@[simp] theorem State.setCtxAt_run (s : State) (k : Nat) (c : Ctx) : (s.setCtxAt k c).run = s.run := rfl
@[simp] theorem State.setCtxAt_brine (s : State) (k : Nat) (c : Ctx) : (s.setCtxAt k c).brine = s.brine := rfl
@[simp] theorem State.setCtxAt_nets (s : State) (k : Nat) (c : Ctx) : (s.setCtxAt k c).nets = s.nets := rfl
@[simp] theorem State.setCtxAt_shadows (s : State) (k : Nat) (c : Ctx) : (s.setCtxAt k c).shadows = s.shadows := rfl
@[simp] theorem State.setCtxAt_fit (s : State) (k : Nat) (c : Ctx) : (s.setCtxAt k c).fit = s.fit := rfl
@[simp] theorem State.setCtxAt_sent (s : State) (k : Nat) (c : Ctx) : (s.setCtxAt k c).sent = s.sent := rfl
@[simp] theorem State.setCtxAt_counters (s : State) (k : Nat) (c : Ctx) : (s.setCtxAt k c).counters = s.counters := rfl
@[simp] theorem State.setCtxAt_launches (s : State) (k : Nat) (c : Ctx) : (s.setCtxAt k c).launches = s.launches := rfl
@[simp] theorem State.setCtxAt_barriers (s : State) (k : Nat) (c : Ctx) : (s.setCtxAt k c).barriers = s.barriers := rfl
@[simp] theorem State.setCtxAt_ops (s : State) (k : Nat) (c : Ctx) : (s.setCtxAt k c).ops = s.ops := rfl
@[simp] theorem State.setCtxAt_nextOp (s : State) (k : Nat) (c : Ctx) : (s.setCtxAt k c).nextOp = s.nextOp := rfl
@[simp] theorem State.setCtxAt_colls (s : State) (k : Nat) (c : Ctx) : (s.setCtxAt k c).colls = s.colls := rfl
@[simp] theorem State.setCtxAt_mtime (s : State) (k : Nat) (c : Ctx) : (s.setCtxAt k c).mtime = s.mtime := rfl
@[simp] theorem State.setCtxAt_epoch (s : State) (k : Nat) (c : Ctx) : (s.setCtxAt k c).epoch = s.epoch := rfl
@[simp] theorem State.setCtxAt_feature (s : State) (k : Nat) (c : Ctx) : (s.setCtxAt k c).feature = s.feature := rfl
@[simp] theorem State.setCtxAt_owner (s : State) (k : Nat) (c : Ctx) : (s.setCtxAt k c).owner = s.owner := rfl
@[simp] theorem State.setCtxAt_claims (s : State) (k : Nat) (c : Ctx) : (s.setCtxAt k c).claims = s.claims := rfl
@[simp] theorem State.setCtxAt_released (s : State) (k : Nat) (c : Ctx) : (s.setCtxAt k c).released = s.released := rfl

@[simp] theorem State.setMe_cur (s : State) (c : Ctx) : (s.setMe c).cur = s.cur := rfl
@[simp] theorem State.setMe_agenda (s : State) (c : Ctx) : (s.setMe c).agenda = s.agenda := rfl
@[simp] theorem State.setMe_subject (s : State) (c : Ctx) : (s.setMe c).subject = s.subject := rfl
@[simp] theorem State.setMe_turns (s : State) (c : Ctx) : (s.setMe c).turns = s.turns := rfl
@[simp] theorem State.setMe_free (s : State) (c : Ctx) : (s.setMe c).free = s.free := rfl
@[simp] theorem State.setMe_cores (s : State) (c : Ctx) : (s.setMe c).cores = s.cores := rfl
@[simp] theorem State.setMe_dies (s : State) (c : Ctx) : (s.setMe c).dies = s.dies := rfl
@[simp] theorem State.setMe_bridges (s : State) (c : Ctx) : (s.setMe c).bridges = s.bridges := rfl
@[simp] theorem State.setMe_mem (s : State) (c : Ctx) : (s.setMe c).mem = s.mem := rfl
@[simp] theorem State.setMe_marks (s : State) (c : Ctx) : (s.setMe c).marks = s.marks := rfl
@[simp] theorem State.setMe_times (s : State) (c : Ctx) : (s.setMe c).times = s.times := rfl
@[simp] theorem State.setMe_copies (s : State) (c : Ctx) : (s.setMe c).copies = s.copies := rfl
@[simp] theorem State.setMe_frames (s : State) (c : Ctx) : (s.setMe c).frames = s.frames := rfl
@[simp] theorem State.setMe_pass (s : State) (c : Ctx) : (s.setMe c).pass = s.pass := rfl
@[simp] theorem State.setMe_run (s : State) (c : Ctx) : (s.setMe c).run = s.run := rfl
@[simp] theorem State.setMe_brine (s : State) (c : Ctx) : (s.setMe c).brine = s.brine := rfl
@[simp] theorem State.setMe_nets (s : State) (c : Ctx) : (s.setMe c).nets = s.nets := rfl
@[simp] theorem State.setMe_shadows (s : State) (c : Ctx) : (s.setMe c).shadows = s.shadows := rfl
@[simp] theorem State.setMe_fit (s : State) (c : Ctx) : (s.setMe c).fit = s.fit := rfl
@[simp] theorem State.setMe_sent (s : State) (c : Ctx) : (s.setMe c).sent = s.sent := rfl
@[simp] theorem State.setMe_counters (s : State) (c : Ctx) : (s.setMe c).counters = s.counters := rfl
@[simp] theorem State.setMe_launches (s : State) (c : Ctx) : (s.setMe c).launches = s.launches := rfl
@[simp] theorem State.setMe_barriers (s : State) (c : Ctx) : (s.setMe c).barriers = s.barriers := rfl
@[simp] theorem State.setMe_ops (s : State) (c : Ctx) : (s.setMe c).ops = s.ops := rfl
@[simp] theorem State.setMe_nextOp (s : State) (c : Ctx) : (s.setMe c).nextOp = s.nextOp := rfl
@[simp] theorem State.setMe_colls (s : State) (c : Ctx) : (s.setMe c).colls = s.colls := rfl
@[simp] theorem State.setMe_mtime (s : State) (c : Ctx) : (s.setMe c).mtime = s.mtime := rfl
@[simp] theorem State.setMe_epoch (s : State) (c : Ctx) : (s.setMe c).epoch = s.epoch := rfl
@[simp] theorem State.setMe_feature (s : State) (c : Ctx) : (s.setMe c).feature = s.feature := rfl
@[simp] theorem State.setMe_owner (s : State) (c : Ctx) : (s.setMe c).owner = s.owner := rfl
@[simp] theorem State.setMe_claims (s : State) (c : Ctx) : (s.setMe c).claims = s.claims := rfl
@[simp] theorem State.setMe_released (s : State) (c : Ctx) : (s.setMe c).released = s.released := rfl

@[simp] theorem State.setCore_cur (s : State) (n : Nat) (c : CoreSt) : (s.setCore n c).cur = s.cur := rfl
@[simp] theorem State.setCore_agenda (s : State) (n : Nat) (c : CoreSt) : (s.setCore n c).agenda = s.agenda := rfl
@[simp] theorem State.setCore_subject (s : State) (n : Nat) (c : CoreSt) : (s.setCore n c).subject = s.subject := rfl
@[simp] theorem State.setCore_turns (s : State) (n : Nat) (c : CoreSt) : (s.setCore n c).turns = s.turns := rfl
@[simp] theorem State.setCore_free (s : State) (n : Nat) (c : CoreSt) : (s.setCore n c).free = s.free := rfl
@[simp] theorem State.setCore_ctxs (s : State) (n : Nat) (c : CoreSt) : (s.setCore n c).ctxs = s.ctxs := rfl
@[simp] theorem State.setCore_dies (s : State) (n : Nat) (c : CoreSt) : (s.setCore n c).dies = s.dies := rfl
@[simp] theorem State.setCore_bridges (s : State) (n : Nat) (c : CoreSt) : (s.setCore n c).bridges = s.bridges := rfl
@[simp] theorem State.setCore_mem (s : State) (n : Nat) (c : CoreSt) : (s.setCore n c).mem = s.mem := rfl
@[simp] theorem State.setCore_marks (s : State) (n : Nat) (c : CoreSt) : (s.setCore n c).marks = s.marks := rfl
@[simp] theorem State.setCore_times (s : State) (n : Nat) (c : CoreSt) : (s.setCore n c).times = s.times := rfl
@[simp] theorem State.setCore_copies (s : State) (n : Nat) (c : CoreSt) : (s.setCore n c).copies = s.copies := rfl
@[simp] theorem State.setCore_frames (s : State) (n : Nat) (c : CoreSt) : (s.setCore n c).frames = s.frames := rfl
@[simp] theorem State.setCore_pass (s : State) (n : Nat) (c : CoreSt) : (s.setCore n c).pass = s.pass := rfl
@[simp] theorem State.setCore_run (s : State) (n : Nat) (c : CoreSt) : (s.setCore n c).run = s.run := rfl
@[simp] theorem State.setCore_brine (s : State) (n : Nat) (c : CoreSt) : (s.setCore n c).brine = s.brine := rfl
@[simp] theorem State.setCore_nets (s : State) (n : Nat) (c : CoreSt) : (s.setCore n c).nets = s.nets := rfl
@[simp] theorem State.setCore_shadows (s : State) (n : Nat) (c : CoreSt) : (s.setCore n c).shadows = s.shadows := rfl
@[simp] theorem State.setCore_fit (s : State) (n : Nat) (c : CoreSt) : (s.setCore n c).fit = s.fit := rfl
@[simp] theorem State.setCore_sent (s : State) (n : Nat) (c : CoreSt) : (s.setCore n c).sent = s.sent := rfl
@[simp] theorem State.setCore_counters (s : State) (n : Nat) (c : CoreSt) : (s.setCore n c).counters = s.counters := rfl
@[simp] theorem State.setCore_launches (s : State) (n : Nat) (c : CoreSt) : (s.setCore n c).launches = s.launches := rfl
@[simp] theorem State.setCore_barriers (s : State) (n : Nat) (c : CoreSt) : (s.setCore n c).barriers = s.barriers := rfl
@[simp] theorem State.setCore_ops (s : State) (n : Nat) (c : CoreSt) : (s.setCore n c).ops = s.ops := rfl
@[simp] theorem State.setCore_nextOp (s : State) (n : Nat) (c : CoreSt) : (s.setCore n c).nextOp = s.nextOp := rfl
@[simp] theorem State.setCore_colls (s : State) (n : Nat) (c : CoreSt) : (s.setCore n c).colls = s.colls := rfl
@[simp] theorem State.setCore_mtime (s : State) (n : Nat) (c : CoreSt) : (s.setCore n c).mtime = s.mtime := rfl
@[simp] theorem State.setCore_epoch (s : State) (n : Nat) (c : CoreSt) : (s.setCore n c).epoch = s.epoch := rfl
@[simp] theorem State.setCore_feature (s : State) (n : Nat) (c : CoreSt) : (s.setCore n c).feature = s.feature := rfl
@[simp] theorem State.setCore_owner (s : State) (n : Nat) (c : CoreSt) : (s.setCore n c).owner = s.owner := rfl
@[simp] theorem State.setCore_claims (s : State) (n : Nat) (c : CoreSt) : (s.setCore n c).claims = s.claims := rfl
@[simp] theorem State.setCore_released (s : State) (n : Nat) (c : CoreSt) : (s.setCore n c).released = s.released := rfl

@[simp] theorem State.setDie_cur (s : State) (d : Nat) (x : DieSt) : (s.setDie d x).cur = s.cur := rfl
@[simp] theorem State.setDie_agenda (s : State) (d : Nat) (x : DieSt) : (s.setDie d x).agenda = s.agenda := rfl
@[simp] theorem State.setDie_subject (s : State) (d : Nat) (x : DieSt) : (s.setDie d x).subject = s.subject := rfl
@[simp] theorem State.setDie_turns (s : State) (d : Nat) (x : DieSt) : (s.setDie d x).turns = s.turns := rfl
@[simp] theorem State.setDie_free (s : State) (d : Nat) (x : DieSt) : (s.setDie d x).free = s.free := rfl
@[simp] theorem State.setDie_ctxs (s : State) (d : Nat) (x : DieSt) : (s.setDie d x).ctxs = s.ctxs := rfl
@[simp] theorem State.setDie_cores (s : State) (d : Nat) (x : DieSt) : (s.setDie d x).cores = s.cores := rfl
@[simp] theorem State.setDie_bridges (s : State) (d : Nat) (x : DieSt) : (s.setDie d x).bridges = s.bridges := rfl
@[simp] theorem State.setDie_mem (s : State) (d : Nat) (x : DieSt) : (s.setDie d x).mem = s.mem := rfl
@[simp] theorem State.setDie_marks (s : State) (d : Nat) (x : DieSt) : (s.setDie d x).marks = s.marks := rfl
@[simp] theorem State.setDie_times (s : State) (d : Nat) (x : DieSt) : (s.setDie d x).times = s.times := rfl
@[simp] theorem State.setDie_copies (s : State) (d : Nat) (x : DieSt) : (s.setDie d x).copies = s.copies := rfl
@[simp] theorem State.setDie_frames (s : State) (d : Nat) (x : DieSt) : (s.setDie d x).frames = s.frames := rfl
@[simp] theorem State.setDie_pass (s : State) (d : Nat) (x : DieSt) : (s.setDie d x).pass = s.pass := rfl
@[simp] theorem State.setDie_run (s : State) (d : Nat) (x : DieSt) : (s.setDie d x).run = s.run := rfl
@[simp] theorem State.setDie_brine (s : State) (d : Nat) (x : DieSt) : (s.setDie d x).brine = s.brine := rfl
@[simp] theorem State.setDie_nets (s : State) (d : Nat) (x : DieSt) : (s.setDie d x).nets = s.nets := rfl
@[simp] theorem State.setDie_shadows (s : State) (d : Nat) (x : DieSt) : (s.setDie d x).shadows = s.shadows := rfl
@[simp] theorem State.setDie_fit (s : State) (d : Nat) (x : DieSt) : (s.setDie d x).fit = s.fit := rfl
@[simp] theorem State.setDie_sent (s : State) (d : Nat) (x : DieSt) : (s.setDie d x).sent = s.sent := rfl
@[simp] theorem State.setDie_counters (s : State) (d : Nat) (x : DieSt) : (s.setDie d x).counters = s.counters := rfl
@[simp] theorem State.setDie_launches (s : State) (d : Nat) (x : DieSt) : (s.setDie d x).launches = s.launches := rfl
@[simp] theorem State.setDie_barriers (s : State) (d : Nat) (x : DieSt) : (s.setDie d x).barriers = s.barriers := rfl
@[simp] theorem State.setDie_ops (s : State) (d : Nat) (x : DieSt) : (s.setDie d x).ops = s.ops := rfl
@[simp] theorem State.setDie_nextOp (s : State) (d : Nat) (x : DieSt) : (s.setDie d x).nextOp = s.nextOp := rfl
@[simp] theorem State.setDie_colls (s : State) (d : Nat) (x : DieSt) : (s.setDie d x).colls = s.colls := rfl
@[simp] theorem State.setDie_mtime (s : State) (d : Nat) (x : DieSt) : (s.setDie d x).mtime = s.mtime := rfl
@[simp] theorem State.setDie_epoch (s : State) (d : Nat) (x : DieSt) : (s.setDie d x).epoch = s.epoch := rfl
@[simp] theorem State.setDie_feature (s : State) (d : Nat) (x : DieSt) : (s.setDie d x).feature = s.feature := rfl
@[simp] theorem State.setDie_owner (s : State) (d : Nat) (x : DieSt) : (s.setDie d x).owner = s.owner := rfl
@[simp] theorem State.setDie_claims (s : State) (d : Nat) (x : DieSt) : (s.setDie d x).claims = s.claims := rfl
@[simp] theorem State.setDie_released (s : State) (d : Nat) (x : DieSt) : (s.setDie d x).released = s.released := rfl

@[simp] theorem State.setBridge_cur (s : State) (b : Nat) (x : BridgeSt) : (s.setBridge b x).cur = s.cur := rfl
@[simp] theorem State.setBridge_agenda (s : State) (b : Nat) (x : BridgeSt) : (s.setBridge b x).agenda = s.agenda := rfl
@[simp] theorem State.setBridge_subject (s : State) (b : Nat) (x : BridgeSt) : (s.setBridge b x).subject = s.subject := rfl
@[simp] theorem State.setBridge_turns (s : State) (b : Nat) (x : BridgeSt) : (s.setBridge b x).turns = s.turns := rfl
@[simp] theorem State.setBridge_free (s : State) (b : Nat) (x : BridgeSt) : (s.setBridge b x).free = s.free := rfl
@[simp] theorem State.setBridge_ctxs (s : State) (b : Nat) (x : BridgeSt) : (s.setBridge b x).ctxs = s.ctxs := rfl
@[simp] theorem State.setBridge_cores (s : State) (b : Nat) (x : BridgeSt) : (s.setBridge b x).cores = s.cores := rfl
@[simp] theorem State.setBridge_dies (s : State) (b : Nat) (x : BridgeSt) : (s.setBridge b x).dies = s.dies := rfl
@[simp] theorem State.setBridge_mem (s : State) (b : Nat) (x : BridgeSt) : (s.setBridge b x).mem = s.mem := rfl
@[simp] theorem State.setBridge_marks (s : State) (b : Nat) (x : BridgeSt) : (s.setBridge b x).marks = s.marks := rfl
@[simp] theorem State.setBridge_times (s : State) (b : Nat) (x : BridgeSt) : (s.setBridge b x).times = s.times := rfl
@[simp] theorem State.setBridge_copies (s : State) (b : Nat) (x : BridgeSt) : (s.setBridge b x).copies = s.copies := rfl
@[simp] theorem State.setBridge_frames (s : State) (b : Nat) (x : BridgeSt) : (s.setBridge b x).frames = s.frames := rfl
@[simp] theorem State.setBridge_pass (s : State) (b : Nat) (x : BridgeSt) : (s.setBridge b x).pass = s.pass := rfl
@[simp] theorem State.setBridge_run (s : State) (b : Nat) (x : BridgeSt) : (s.setBridge b x).run = s.run := rfl
@[simp] theorem State.setBridge_brine (s : State) (b : Nat) (x : BridgeSt) : (s.setBridge b x).brine = s.brine := rfl
@[simp] theorem State.setBridge_nets (s : State) (b : Nat) (x : BridgeSt) : (s.setBridge b x).nets = s.nets := rfl
@[simp] theorem State.setBridge_shadows (s : State) (b : Nat) (x : BridgeSt) : (s.setBridge b x).shadows = s.shadows := rfl
@[simp] theorem State.setBridge_fit (s : State) (b : Nat) (x : BridgeSt) : (s.setBridge b x).fit = s.fit := rfl
@[simp] theorem State.setBridge_sent (s : State) (b : Nat) (x : BridgeSt) : (s.setBridge b x).sent = s.sent := rfl
@[simp] theorem State.setBridge_counters (s : State) (b : Nat) (x : BridgeSt) : (s.setBridge b x).counters = s.counters := rfl
@[simp] theorem State.setBridge_launches (s : State) (b : Nat) (x : BridgeSt) : (s.setBridge b x).launches = s.launches := rfl
@[simp] theorem State.setBridge_barriers (s : State) (b : Nat) (x : BridgeSt) : (s.setBridge b x).barriers = s.barriers := rfl
@[simp] theorem State.setBridge_ops (s : State) (b : Nat) (x : BridgeSt) : (s.setBridge b x).ops = s.ops := rfl
@[simp] theorem State.setBridge_nextOp (s : State) (b : Nat) (x : BridgeSt) : (s.setBridge b x).nextOp = s.nextOp := rfl
@[simp] theorem State.setBridge_colls (s : State) (b : Nat) (x : BridgeSt) : (s.setBridge b x).colls = s.colls := rfl
@[simp] theorem State.setBridge_mtime (s : State) (b : Nat) (x : BridgeSt) : (s.setBridge b x).mtime = s.mtime := rfl
@[simp] theorem State.setBridge_epoch (s : State) (b : Nat) (x : BridgeSt) : (s.setBridge b x).epoch = s.epoch := rfl
@[simp] theorem State.setBridge_feature (s : State) (b : Nat) (x : BridgeSt) : (s.setBridge b x).feature = s.feature := rfl
@[simp] theorem State.setBridge_owner (s : State) (b : Nat) (x : BridgeSt) : (s.setBridge b x).owner = s.owner := rfl
@[simp] theorem State.setBridge_claims (s : State) (b : Nat) (x : BridgeSt) : (s.setBridge b x).claims = s.claims := rfl
@[simp] theorem State.setBridge_released (s : State) (b : Nat) (x : BridgeSt) : (s.setBridge b x).released = s.released := rfl

@[simp] theorem State.dueAt_cur (s : State) (i : Instr) (j : Subject) : (s.dueAt i j).cur = s.cur := rfl
@[simp] theorem State.dueAt_subject (s : State) (i : Instr) (j : Subject) : (s.dueAt i j).subject = s.subject := rfl
@[simp] theorem State.dueAt_turns (s : State) (i : Instr) (j : Subject) : (s.dueAt i j).turns = s.turns := rfl
@[simp] theorem State.dueAt_free (s : State) (i : Instr) (j : Subject) : (s.dueAt i j).free = s.free := rfl
@[simp] theorem State.dueAt_ctxs (s : State) (i : Instr) (j : Subject) : (s.dueAt i j).ctxs = s.ctxs := rfl
@[simp] theorem State.dueAt_cores (s : State) (i : Instr) (j : Subject) : (s.dueAt i j).cores = s.cores := rfl
@[simp] theorem State.dueAt_dies (s : State) (i : Instr) (j : Subject) : (s.dueAt i j).dies = s.dies := rfl
@[simp] theorem State.dueAt_bridges (s : State) (i : Instr) (j : Subject) : (s.dueAt i j).bridges = s.bridges := rfl
@[simp] theorem State.dueAt_mem (s : State) (i : Instr) (j : Subject) : (s.dueAt i j).mem = s.mem := rfl
@[simp] theorem State.dueAt_marks (s : State) (i : Instr) (j : Subject) : (s.dueAt i j).marks = s.marks := rfl
@[simp] theorem State.dueAt_times (s : State) (i : Instr) (j : Subject) : (s.dueAt i j).times = s.times := rfl
@[simp] theorem State.dueAt_copies (s : State) (i : Instr) (j : Subject) : (s.dueAt i j).copies = s.copies := rfl
@[simp] theorem State.dueAt_frames (s : State) (i : Instr) (j : Subject) : (s.dueAt i j).frames = s.frames := rfl
@[simp] theorem State.dueAt_pass (s : State) (i : Instr) (j : Subject) : (s.dueAt i j).pass = s.pass := rfl
@[simp] theorem State.dueAt_run (s : State) (i : Instr) (j : Subject) : (s.dueAt i j).run = s.run := rfl
@[simp] theorem State.dueAt_brine (s : State) (i : Instr) (j : Subject) : (s.dueAt i j).brine = s.brine := rfl
@[simp] theorem State.dueAt_nets (s : State) (i : Instr) (j : Subject) : (s.dueAt i j).nets = s.nets := rfl
@[simp] theorem State.dueAt_shadows (s : State) (i : Instr) (j : Subject) : (s.dueAt i j).shadows = s.shadows := rfl
@[simp] theorem State.dueAt_fit (s : State) (i : Instr) (j : Subject) : (s.dueAt i j).fit = s.fit := rfl
@[simp] theorem State.dueAt_sent (s : State) (i : Instr) (j : Subject) : (s.dueAt i j).sent = s.sent := rfl
@[simp] theorem State.dueAt_counters (s : State) (i : Instr) (j : Subject) : (s.dueAt i j).counters = s.counters := rfl
@[simp] theorem State.dueAt_launches (s : State) (i : Instr) (j : Subject) : (s.dueAt i j).launches = s.launches := rfl
@[simp] theorem State.dueAt_barriers (s : State) (i : Instr) (j : Subject) : (s.dueAt i j).barriers = s.barriers := rfl
@[simp] theorem State.dueAt_ops (s : State) (i : Instr) (j : Subject) : (s.dueAt i j).ops = s.ops := rfl
@[simp] theorem State.dueAt_nextOp (s : State) (i : Instr) (j : Subject) : (s.dueAt i j).nextOp = s.nextOp := rfl
@[simp] theorem State.dueAt_colls (s : State) (i : Instr) (j : Subject) : (s.dueAt i j).colls = s.colls := rfl
@[simp] theorem State.dueAt_mtime (s : State) (i : Instr) (j : Subject) : (s.dueAt i j).mtime = s.mtime := rfl
@[simp] theorem State.dueAt_epoch (s : State) (i : Instr) (j : Subject) : (s.dueAt i j).epoch = s.epoch := rfl
@[simp] theorem State.dueAt_feature (s : State) (i : Instr) (j : Subject) : (s.dueAt i j).feature = s.feature := rfl
@[simp] theorem State.dueAt_owner (s : State) (i : Instr) (j : Subject) : (s.dueAt i j).owner = s.owner := rfl
@[simp] theorem State.dueAt_claims (s : State) (i : Instr) (j : Subject) : (s.dueAt i j).claims = s.claims := rfl
@[simp] theorem State.dueAt_released (s : State) (i : Instr) (j : Subject) : (s.dueAt i j).released = s.released := rfl

@[simp] theorem State.due_cur (s : State) (i : Instr) (p n : Nat) : (s.due i p n).cur = s.cur := rfl
@[simp] theorem State.due_subject (s : State) (i : Instr) (p n : Nat) : (s.due i p n).subject = s.subject := rfl
@[simp] theorem State.due_turns (s : State) (i : Instr) (p n : Nat) : (s.due i p n).turns = s.turns := rfl
@[simp] theorem State.due_free (s : State) (i : Instr) (p n : Nat) : (s.due i p n).free = s.free := rfl
@[simp] theorem State.due_ctxs (s : State) (i : Instr) (p n : Nat) : (s.due i p n).ctxs = s.ctxs := rfl
@[simp] theorem State.due_cores (s : State) (i : Instr) (p n : Nat) : (s.due i p n).cores = s.cores := rfl
@[simp] theorem State.due_dies (s : State) (i : Instr) (p n : Nat) : (s.due i p n).dies = s.dies := rfl
@[simp] theorem State.due_bridges (s : State) (i : Instr) (p n : Nat) : (s.due i p n).bridges = s.bridges := rfl
@[simp] theorem State.due_mem (s : State) (i : Instr) (p n : Nat) : (s.due i p n).mem = s.mem := rfl
@[simp] theorem State.due_marks (s : State) (i : Instr) (p n : Nat) : (s.due i p n).marks = s.marks := rfl
@[simp] theorem State.due_times (s : State) (i : Instr) (p n : Nat) : (s.due i p n).times = s.times := rfl
@[simp] theorem State.due_copies (s : State) (i : Instr) (p n : Nat) : (s.due i p n).copies = s.copies := rfl
@[simp] theorem State.due_frames (s : State) (i : Instr) (p n : Nat) : (s.due i p n).frames = s.frames := rfl
@[simp] theorem State.due_pass (s : State) (i : Instr) (p n : Nat) : (s.due i p n).pass = s.pass := rfl
@[simp] theorem State.due_run (s : State) (i : Instr) (p n : Nat) : (s.due i p n).run = s.run := rfl
@[simp] theorem State.due_brine (s : State) (i : Instr) (p n : Nat) : (s.due i p n).brine = s.brine := rfl
@[simp] theorem State.due_nets (s : State) (i : Instr) (p n : Nat) : (s.due i p n).nets = s.nets := rfl
@[simp] theorem State.due_shadows (s : State) (i : Instr) (p n : Nat) : (s.due i p n).shadows = s.shadows := rfl
@[simp] theorem State.due_fit (s : State) (i : Instr) (p n : Nat) : (s.due i p n).fit = s.fit := rfl
@[simp] theorem State.due_sent (s : State) (i : Instr) (p n : Nat) : (s.due i p n).sent = s.sent := rfl
@[simp] theorem State.due_counters (s : State) (i : Instr) (p n : Nat) : (s.due i p n).counters = s.counters := rfl
@[simp] theorem State.due_launches (s : State) (i : Instr) (p n : Nat) : (s.due i p n).launches = s.launches := rfl
@[simp] theorem State.due_barriers (s : State) (i : Instr) (p n : Nat) : (s.due i p n).barriers = s.barriers := rfl
@[simp] theorem State.due_ops (s : State) (i : Instr) (p n : Nat) : (s.due i p n).ops = s.ops := rfl
@[simp] theorem State.due_nextOp (s : State) (i : Instr) (p n : Nat) : (s.due i p n).nextOp = s.nextOp := rfl
@[simp] theorem State.due_colls (s : State) (i : Instr) (p n : Nat) : (s.due i p n).colls = s.colls := rfl
@[simp] theorem State.due_mtime (s : State) (i : Instr) (p n : Nat) : (s.due i p n).mtime = s.mtime := rfl
@[simp] theorem State.due_epoch (s : State) (i : Instr) (p n : Nat) : (s.due i p n).epoch = s.epoch := rfl
@[simp] theorem State.due_feature (s : State) (i : Instr) (p n : Nat) : (s.due i p n).feature = s.feature := rfl
@[simp] theorem State.due_owner (s : State) (i : Instr) (p n : Nat) : (s.due i p n).owner = s.owner := rfl
@[simp] theorem State.due_claims (s : State) (i : Instr) (p n : Nat) : (s.due i p n).claims = s.claims := rfl
@[simp] theorem State.due_released (s : State) (i : Instr) (p n : Nat) : (s.due i p n).released = s.released := rfl

@[simp] theorem State.setDieReg_cur (s : State) (d n : Nat) (v : Dword) : (s.setDieReg d n v).cur = s.cur := rfl
@[simp] theorem State.setDieReg_agenda (s : State) (d n : Nat) (v : Dword) : (s.setDieReg d n v).agenda = s.agenda := rfl
@[simp] theorem State.setDieReg_subject (s : State) (d n : Nat) (v : Dword) : (s.setDieReg d n v).subject = s.subject := rfl
@[simp] theorem State.setDieReg_turns (s : State) (d n : Nat) (v : Dword) : (s.setDieReg d n v).turns = s.turns := rfl
@[simp] theorem State.setDieReg_free (s : State) (d n : Nat) (v : Dword) : (s.setDieReg d n v).free = s.free := rfl
@[simp] theorem State.setDieReg_ctxs (s : State) (d n : Nat) (v : Dword) : (s.setDieReg d n v).ctxs = s.ctxs := rfl
@[simp] theorem State.setDieReg_cores (s : State) (d n : Nat) (v : Dword) : (s.setDieReg d n v).cores = s.cores := rfl
@[simp] theorem State.setDieReg_bridges (s : State) (d n : Nat) (v : Dword) : (s.setDieReg d n v).bridges = s.bridges := rfl
@[simp] theorem State.setDieReg_mem (s : State) (d n : Nat) (v : Dword) : (s.setDieReg d n v).mem = s.mem := rfl
@[simp] theorem State.setDieReg_marks (s : State) (d n : Nat) (v : Dword) : (s.setDieReg d n v).marks = s.marks := rfl
@[simp] theorem State.setDieReg_times (s : State) (d n : Nat) (v : Dword) : (s.setDieReg d n v).times = s.times := rfl
@[simp] theorem State.setDieReg_copies (s : State) (d n : Nat) (v : Dword) : (s.setDieReg d n v).copies = s.copies := rfl
@[simp] theorem State.setDieReg_frames (s : State) (d n : Nat) (v : Dword) : (s.setDieReg d n v).frames = s.frames := rfl
@[simp] theorem State.setDieReg_pass (s : State) (d n : Nat) (v : Dword) : (s.setDieReg d n v).pass = s.pass := rfl
@[simp] theorem State.setDieReg_run (s : State) (d n : Nat) (v : Dword) : (s.setDieReg d n v).run = s.run := rfl
@[simp] theorem State.setDieReg_brine (s : State) (d n : Nat) (v : Dword) : (s.setDieReg d n v).brine = s.brine := rfl
@[simp] theorem State.setDieReg_nets (s : State) (d n : Nat) (v : Dword) : (s.setDieReg d n v).nets = s.nets := rfl
@[simp] theorem State.setDieReg_shadows (s : State) (d n : Nat) (v : Dword) : (s.setDieReg d n v).shadows = s.shadows := rfl
@[simp] theorem State.setDieReg_fit (s : State) (d n : Nat) (v : Dword) : (s.setDieReg d n v).fit = s.fit := rfl
@[simp] theorem State.setDieReg_sent (s : State) (d n : Nat) (v : Dword) : (s.setDieReg d n v).sent = s.sent := rfl
@[simp] theorem State.setDieReg_counters (s : State) (d n : Nat) (v : Dword) : (s.setDieReg d n v).counters = s.counters := rfl
@[simp] theorem State.setDieReg_launches (s : State) (d n : Nat) (v : Dword) : (s.setDieReg d n v).launches = s.launches := rfl
@[simp] theorem State.setDieReg_barriers (s : State) (d n : Nat) (v : Dword) : (s.setDieReg d n v).barriers = s.barriers := rfl
@[simp] theorem State.setDieReg_ops (s : State) (d n : Nat) (v : Dword) : (s.setDieReg d n v).ops = s.ops := rfl
@[simp] theorem State.setDieReg_nextOp (s : State) (d n : Nat) (v : Dword) : (s.setDieReg d n v).nextOp = s.nextOp := rfl
@[simp] theorem State.setDieReg_colls (s : State) (d n : Nat) (v : Dword) : (s.setDieReg d n v).colls = s.colls := rfl
@[simp] theorem State.setDieReg_mtime (s : State) (d n : Nat) (v : Dword) : (s.setDieReg d n v).mtime = s.mtime := rfl
@[simp] theorem State.setDieReg_epoch (s : State) (d n : Nat) (v : Dword) : (s.setDieReg d n v).epoch = s.epoch := rfl
@[simp] theorem State.setDieReg_feature (s : State) (d n : Nat) (v : Dword) : (s.setDieReg d n v).feature = s.feature := rfl
@[simp] theorem State.setDieReg_owner (s : State) (d n : Nat) (v : Dword) : (s.setDieReg d n v).owner = s.owner := rfl
@[simp] theorem State.setDieReg_claims (s : State) (d n : Nat) (v : Dword) : (s.setDieReg d n v).claims = s.claims := rfl
@[simp] theorem State.setDieReg_released (s : State) (d n : Nat) (v : Dword) : (s.setDieReg d n v).released = s.released := rfl

@[simp] theorem State.setBridgeReg_cur (s : State) (b n : Nat) (v : Dword) : (s.setBridgeReg b n v).cur = s.cur := rfl
@[simp] theorem State.setBridgeReg_agenda (s : State) (b n : Nat) (v : Dword) : (s.setBridgeReg b n v).agenda = s.agenda := rfl
@[simp] theorem State.setBridgeReg_subject (s : State) (b n : Nat) (v : Dword) : (s.setBridgeReg b n v).subject = s.subject := rfl
@[simp] theorem State.setBridgeReg_turns (s : State) (b n : Nat) (v : Dword) : (s.setBridgeReg b n v).turns = s.turns := rfl
@[simp] theorem State.setBridgeReg_free (s : State) (b n : Nat) (v : Dword) : (s.setBridgeReg b n v).free = s.free := rfl
@[simp] theorem State.setBridgeReg_ctxs (s : State) (b n : Nat) (v : Dword) : (s.setBridgeReg b n v).ctxs = s.ctxs := rfl
@[simp] theorem State.setBridgeReg_cores (s : State) (b n : Nat) (v : Dword) : (s.setBridgeReg b n v).cores = s.cores := rfl
@[simp] theorem State.setBridgeReg_dies (s : State) (b n : Nat) (v : Dword) : (s.setBridgeReg b n v).dies = s.dies := rfl
@[simp] theorem State.setBridgeReg_mem (s : State) (b n : Nat) (v : Dword) : (s.setBridgeReg b n v).mem = s.mem := rfl
@[simp] theorem State.setBridgeReg_marks (s : State) (b n : Nat) (v : Dword) : (s.setBridgeReg b n v).marks = s.marks := rfl
@[simp] theorem State.setBridgeReg_times (s : State) (b n : Nat) (v : Dword) : (s.setBridgeReg b n v).times = s.times := rfl
@[simp] theorem State.setBridgeReg_copies (s : State) (b n : Nat) (v : Dword) : (s.setBridgeReg b n v).copies = s.copies := rfl
@[simp] theorem State.setBridgeReg_frames (s : State) (b n : Nat) (v : Dword) : (s.setBridgeReg b n v).frames = s.frames := rfl
@[simp] theorem State.setBridgeReg_pass (s : State) (b n : Nat) (v : Dword) : (s.setBridgeReg b n v).pass = s.pass := rfl
@[simp] theorem State.setBridgeReg_run (s : State) (b n : Nat) (v : Dword) : (s.setBridgeReg b n v).run = s.run := rfl
@[simp] theorem State.setBridgeReg_brine (s : State) (b n : Nat) (v : Dword) : (s.setBridgeReg b n v).brine = s.brine := rfl
@[simp] theorem State.setBridgeReg_nets (s : State) (b n : Nat) (v : Dword) : (s.setBridgeReg b n v).nets = s.nets := rfl
@[simp] theorem State.setBridgeReg_shadows (s : State) (b n : Nat) (v : Dword) : (s.setBridgeReg b n v).shadows = s.shadows := rfl
@[simp] theorem State.setBridgeReg_fit (s : State) (b n : Nat) (v : Dword) : (s.setBridgeReg b n v).fit = s.fit := rfl
@[simp] theorem State.setBridgeReg_sent (s : State) (b n : Nat) (v : Dword) : (s.setBridgeReg b n v).sent = s.sent := rfl
@[simp] theorem State.setBridgeReg_counters (s : State) (b n : Nat) (v : Dword) : (s.setBridgeReg b n v).counters = s.counters := rfl
@[simp] theorem State.setBridgeReg_launches (s : State) (b n : Nat) (v : Dword) : (s.setBridgeReg b n v).launches = s.launches := rfl
@[simp] theorem State.setBridgeReg_barriers (s : State) (b n : Nat) (v : Dword) : (s.setBridgeReg b n v).barriers = s.barriers := rfl
@[simp] theorem State.setBridgeReg_ops (s : State) (b n : Nat) (v : Dword) : (s.setBridgeReg b n v).ops = s.ops := rfl
@[simp] theorem State.setBridgeReg_nextOp (s : State) (b n : Nat) (v : Dword) : (s.setBridgeReg b n v).nextOp = s.nextOp := rfl
@[simp] theorem State.setBridgeReg_colls (s : State) (b n : Nat) (v : Dword) : (s.setBridgeReg b n v).colls = s.colls := rfl
@[simp] theorem State.setBridgeReg_mtime (s : State) (b n : Nat) (v : Dword) : (s.setBridgeReg b n v).mtime = s.mtime := rfl
@[simp] theorem State.setBridgeReg_epoch (s : State) (b n : Nat) (v : Dword) : (s.setBridgeReg b n v).epoch = s.epoch := rfl
@[simp] theorem State.setBridgeReg_feature (s : State) (b n : Nat) (v : Dword) : (s.setBridgeReg b n v).feature = s.feature := rfl
@[simp] theorem State.setBridgeReg_owner (s : State) (b n : Nat) (v : Dword) : (s.setBridgeReg b n v).owner = s.owner := rfl
@[simp] theorem State.setBridgeReg_claims (s : State) (b n : Nat) (v : Dword) : (s.setBridgeReg b n v).claims = s.claims := rfl
@[simp] theorem State.setBridgeReg_released (s : State) (b n : Nat) (v : Dword) : (s.setBridgeReg b n v).released = s.released := rfl

@[simp] theorem State.setByte_cur (s : State) (a : Nat) (b : Byte) : (s.setByte a b).cur = s.cur := rfl
@[simp] theorem State.setByte_agenda (s : State) (a : Nat) (b : Byte) : (s.setByte a b).agenda = s.agenda := rfl
@[simp] theorem State.setByte_subject (s : State) (a : Nat) (b : Byte) : (s.setByte a b).subject = s.subject := rfl
@[simp] theorem State.setByte_turns (s : State) (a : Nat) (b : Byte) : (s.setByte a b).turns = s.turns := rfl
@[simp] theorem State.setByte_free (s : State) (a : Nat) (b : Byte) : (s.setByte a b).free = s.free := rfl
@[simp] theorem State.setByte_ctxs (s : State) (a : Nat) (b : Byte) : (s.setByte a b).ctxs = s.ctxs := rfl
@[simp] theorem State.setByte_cores (s : State) (a : Nat) (b : Byte) : (s.setByte a b).cores = s.cores := rfl
@[simp] theorem State.setByte_dies (s : State) (a : Nat) (b : Byte) : (s.setByte a b).dies = s.dies := rfl
@[simp] theorem State.setByte_bridges (s : State) (a : Nat) (b : Byte) : (s.setByte a b).bridges = s.bridges := rfl
@[simp] theorem State.setByte_marks (s : State) (a : Nat) (b : Byte) : (s.setByte a b).marks = s.marks := rfl
@[simp] theorem State.setByte_times (s : State) (a : Nat) (b : Byte) : (s.setByte a b).times = s.times := rfl
@[simp] theorem State.setByte_copies (s : State) (a : Nat) (b : Byte) : (s.setByte a b).copies = s.copies := rfl
@[simp] theorem State.setByte_frames (s : State) (a : Nat) (b : Byte) : (s.setByte a b).frames = s.frames := rfl
@[simp] theorem State.setByte_pass (s : State) (a : Nat) (b : Byte) : (s.setByte a b).pass = s.pass := rfl
@[simp] theorem State.setByte_run (s : State) (a : Nat) (b : Byte) : (s.setByte a b).run = s.run := rfl
@[simp] theorem State.setByte_brine (s : State) (a : Nat) (b : Byte) : (s.setByte a b).brine = s.brine := rfl
@[simp] theorem State.setByte_nets (s : State) (a : Nat) (b : Byte) : (s.setByte a b).nets = s.nets := rfl
@[simp] theorem State.setByte_shadows (s : State) (a : Nat) (b : Byte) : (s.setByte a b).shadows = s.shadows := rfl
@[simp] theorem State.setByte_fit (s : State) (a : Nat) (b : Byte) : (s.setByte a b).fit = s.fit := rfl
@[simp] theorem State.setByte_sent (s : State) (a : Nat) (b : Byte) : (s.setByte a b).sent = s.sent := rfl
@[simp] theorem State.setByte_counters (s : State) (a : Nat) (b : Byte) : (s.setByte a b).counters = s.counters := rfl
@[simp] theorem State.setByte_launches (s : State) (a : Nat) (b : Byte) : (s.setByte a b).launches = s.launches := rfl
@[simp] theorem State.setByte_barriers (s : State) (a : Nat) (b : Byte) : (s.setByte a b).barriers = s.barriers := rfl
@[simp] theorem State.setByte_ops (s : State) (a : Nat) (b : Byte) : (s.setByte a b).ops = s.ops := rfl
@[simp] theorem State.setByte_nextOp (s : State) (a : Nat) (b : Byte) : (s.setByte a b).nextOp = s.nextOp := rfl
@[simp] theorem State.setByte_colls (s : State) (a : Nat) (b : Byte) : (s.setByte a b).colls = s.colls := rfl
@[simp] theorem State.setByte_mtime (s : State) (a : Nat) (b : Byte) : (s.setByte a b).mtime = s.mtime := rfl
@[simp] theorem State.setByte_epoch (s : State) (a : Nat) (b : Byte) : (s.setByte a b).epoch = s.epoch := rfl
@[simp] theorem State.setByte_feature (s : State) (a : Nat) (b : Byte) : (s.setByte a b).feature = s.feature := rfl
@[simp] theorem State.setByte_owner (s : State) (a : Nat) (b : Byte) : (s.setByte a b).owner = s.owner := rfl
@[simp] theorem State.setByte_claims (s : State) (a : Nat) (b : Byte) : (s.setByte a b).claims = s.claims := rfl
@[simp] theorem State.setByte_released (s : State) (a : Nat) (b : Byte) : (s.setByte a b).released = s.released := rfl

@[simp] theorem State.setPipe_cur (s : State) (n : Nat) (p : Pipe) : (s.setPipe n p).cur = s.cur := rfl
@[simp] theorem State.setPipe_agenda (s : State) (n : Nat) (p : Pipe) : (s.setPipe n p).agenda = s.agenda := rfl
@[simp] theorem State.setPipe_subject (s : State) (n : Nat) (p : Pipe) : (s.setPipe n p).subject = s.subject := rfl
@[simp] theorem State.setPipe_turns (s : State) (n : Nat) (p : Pipe) : (s.setPipe n p).turns = s.turns := rfl
@[simp] theorem State.setPipe_free (s : State) (n : Nat) (p : Pipe) : (s.setPipe n p).free = s.free := rfl
@[simp] theorem State.setPipe_ctxs (s : State) (n : Nat) (p : Pipe) : (s.setPipe n p).ctxs = s.ctxs := rfl
@[simp] theorem State.setPipe_dies (s : State) (n : Nat) (p : Pipe) : (s.setPipe n p).dies = s.dies := rfl
@[simp] theorem State.setPipe_bridges (s : State) (n : Nat) (p : Pipe) : (s.setPipe n p).bridges = s.bridges := rfl
@[simp] theorem State.setPipe_mem (s : State) (n : Nat) (p : Pipe) : (s.setPipe n p).mem = s.mem := rfl
@[simp] theorem State.setPipe_marks (s : State) (n : Nat) (p : Pipe) : (s.setPipe n p).marks = s.marks := rfl
@[simp] theorem State.setPipe_times (s : State) (n : Nat) (p : Pipe) : (s.setPipe n p).times = s.times := rfl
@[simp] theorem State.setPipe_copies (s : State) (n : Nat) (p : Pipe) : (s.setPipe n p).copies = s.copies := rfl
@[simp] theorem State.setPipe_frames (s : State) (n : Nat) (p : Pipe) : (s.setPipe n p).frames = s.frames := rfl
@[simp] theorem State.setPipe_pass (s : State) (n : Nat) (p : Pipe) : (s.setPipe n p).pass = s.pass := rfl
@[simp] theorem State.setPipe_run (s : State) (n : Nat) (p : Pipe) : (s.setPipe n p).run = s.run := rfl
@[simp] theorem State.setPipe_brine (s : State) (n : Nat) (p : Pipe) : (s.setPipe n p).brine = s.brine := rfl
@[simp] theorem State.setPipe_nets (s : State) (n : Nat) (p : Pipe) : (s.setPipe n p).nets = s.nets := rfl
@[simp] theorem State.setPipe_shadows (s : State) (n : Nat) (p : Pipe) : (s.setPipe n p).shadows = s.shadows := rfl
@[simp] theorem State.setPipe_fit (s : State) (n : Nat) (p : Pipe) : (s.setPipe n p).fit = s.fit := rfl
@[simp] theorem State.setPipe_sent (s : State) (n : Nat) (p : Pipe) : (s.setPipe n p).sent = s.sent := rfl
@[simp] theorem State.setPipe_counters (s : State) (n : Nat) (p : Pipe) : (s.setPipe n p).counters = s.counters := rfl
@[simp] theorem State.setPipe_launches (s : State) (n : Nat) (p : Pipe) : (s.setPipe n p).launches = s.launches := rfl
@[simp] theorem State.setPipe_barriers (s : State) (n : Nat) (p : Pipe) : (s.setPipe n p).barriers = s.barriers := rfl
@[simp] theorem State.setPipe_ops (s : State) (n : Nat) (p : Pipe) : (s.setPipe n p).ops = s.ops := rfl
@[simp] theorem State.setPipe_nextOp (s : State) (n : Nat) (p : Pipe) : (s.setPipe n p).nextOp = s.nextOp := rfl
@[simp] theorem State.setPipe_colls (s : State) (n : Nat) (p : Pipe) : (s.setPipe n p).colls = s.colls := rfl
@[simp] theorem State.setPipe_mtime (s : State) (n : Nat) (p : Pipe) : (s.setPipe n p).mtime = s.mtime := rfl
@[simp] theorem State.setPipe_epoch (s : State) (n : Nat) (p : Pipe) : (s.setPipe n p).epoch = s.epoch := rfl
@[simp] theorem State.setPipe_feature (s : State) (n : Nat) (p : Pipe) : (s.setPipe n p).feature = s.feature := rfl
@[simp] theorem State.setPipe_owner (s : State) (n : Nat) (p : Pipe) : (s.setPipe n p).owner = s.owner := rfl
@[simp] theorem State.setPipe_claims (s : State) (n : Nat) (p : Pipe) : (s.setPipe n p).claims = s.claims := rfl
@[simp] theorem State.setPipe_released (s : State) (n : Nat) (p : Pipe) : (s.setPipe n p).released = s.released := rfl



@[simp] theorem State.unmark_cur (s : State) (a n : Nat) : (s.unmark a n).cur = s.cur := rfl
@[simp] theorem State.unmark_agenda (s : State) (a n : Nat) : (s.unmark a n).agenda = s.agenda := rfl
@[simp] theorem State.unmark_subject (s : State) (a n : Nat) : (s.unmark a n).subject = s.subject := rfl
@[simp] theorem State.unmark_turns (s : State) (a n : Nat) : (s.unmark a n).turns = s.turns := rfl
@[simp] theorem State.unmark_free (s : State) (a n : Nat) : (s.unmark a n).free = s.free := rfl
@[simp] theorem State.unmark_ctxs (s : State) (a n : Nat) : (s.unmark a n).ctxs = s.ctxs := rfl
@[simp] theorem State.unmark_cores (s : State) (a n : Nat) : (s.unmark a n).cores = s.cores := rfl
@[simp] theorem State.unmark_dies (s : State) (a n : Nat) : (s.unmark a n).dies = s.dies := rfl
@[simp] theorem State.unmark_bridges (s : State) (a n : Nat) : (s.unmark a n).bridges = s.bridges := rfl
@[simp] theorem State.unmark_mem (s : State) (a n : Nat) : (s.unmark a n).mem = s.mem := rfl
@[simp] theorem State.unmark_times (s : State) (a n : Nat) : (s.unmark a n).times = s.times := rfl
@[simp] theorem State.unmark_copies (s : State) (a n : Nat) : (s.unmark a n).copies = s.copies := rfl
@[simp] theorem State.unmark_frames (s : State) (a n : Nat) : (s.unmark a n).frames = s.frames := rfl
@[simp] theorem State.unmark_pass (s : State) (a n : Nat) : (s.unmark a n).pass = s.pass := rfl
@[simp] theorem State.unmark_run (s : State) (a n : Nat) : (s.unmark a n).run = s.run := rfl
@[simp] theorem State.unmark_brine (s : State) (a n : Nat) : (s.unmark a n).brine = s.brine := rfl
@[simp] theorem State.unmark_nets (s : State) (a n : Nat) : (s.unmark a n).nets = s.nets := rfl
@[simp] theorem State.unmark_shadows (s : State) (a n : Nat) : (s.unmark a n).shadows = s.shadows := rfl
@[simp] theorem State.unmark_fit (s : State) (a n : Nat) : (s.unmark a n).fit = s.fit := rfl
@[simp] theorem State.unmark_sent (s : State) (a n : Nat) : (s.unmark a n).sent = s.sent := rfl
@[simp] theorem State.unmark_counters (s : State) (a n : Nat) : (s.unmark a n).counters = s.counters := rfl
@[simp] theorem State.unmark_launches (s : State) (a n : Nat) : (s.unmark a n).launches = s.launches := rfl
@[simp] theorem State.unmark_barriers (s : State) (a n : Nat) : (s.unmark a n).barriers = s.barriers := rfl
@[simp] theorem State.unmark_ops (s : State) (a n : Nat) : (s.unmark a n).ops = s.ops := rfl
@[simp] theorem State.unmark_nextOp (s : State) (a n : Nat) : (s.unmark a n).nextOp = s.nextOp := rfl
@[simp] theorem State.unmark_colls (s : State) (a n : Nat) : (s.unmark a n).colls = s.colls := rfl
@[simp] theorem State.unmark_mtime (s : State) (a n : Nat) : (s.unmark a n).mtime = s.mtime := rfl
@[simp] theorem State.unmark_epoch (s : State) (a n : Nat) : (s.unmark a n).epoch = s.epoch := rfl
@[simp] theorem State.unmark_feature (s : State) (a n : Nat) : (s.unmark a n).feature = s.feature := rfl
@[simp] theorem State.unmark_owner (s : State) (a n : Nat) : (s.unmark a n).owner = s.owner := rfl
@[simp] theorem State.unmark_claims (s : State) (a n : Nat) : (s.unmark a n).claims = s.claims := rfl
@[simp] theorem State.unmark_released (s : State) (a n : Nat) : (s.unmark a n).released = s.released := rfl

@[simp] theorem State.zeroRange_cur (s : State) (a n : Nat) : (s.zeroRange a n).cur = s.cur := rfl
@[simp] theorem State.zeroRange_agenda (s : State) (a n : Nat) : (s.zeroRange a n).agenda = s.agenda := rfl
@[simp] theorem State.zeroRange_subject (s : State) (a n : Nat) : (s.zeroRange a n).subject = s.subject := rfl
@[simp] theorem State.zeroRange_turns (s : State) (a n : Nat) : (s.zeroRange a n).turns = s.turns := rfl
@[simp] theorem State.zeroRange_free (s : State) (a n : Nat) : (s.zeroRange a n).free = s.free := rfl
@[simp] theorem State.zeroRange_ctxs (s : State) (a n : Nat) : (s.zeroRange a n).ctxs = s.ctxs := rfl
@[simp] theorem State.zeroRange_cores (s : State) (a n : Nat) : (s.zeroRange a n).cores = s.cores := rfl
@[simp] theorem State.zeroRange_dies (s : State) (a n : Nat) : (s.zeroRange a n).dies = s.dies := rfl
@[simp] theorem State.zeroRange_bridges (s : State) (a n : Nat) : (s.zeroRange a n).bridges = s.bridges := rfl
@[simp] theorem State.zeroRange_times (s : State) (a n : Nat) : (s.zeroRange a n).times = s.times := rfl
@[simp] theorem State.zeroRange_copies (s : State) (a n : Nat) : (s.zeroRange a n).copies = s.copies := rfl
@[simp] theorem State.zeroRange_frames (s : State) (a n : Nat) : (s.zeroRange a n).frames = s.frames := rfl
@[simp] theorem State.zeroRange_pass (s : State) (a n : Nat) : (s.zeroRange a n).pass = s.pass := rfl
@[simp] theorem State.zeroRange_run (s : State) (a n : Nat) : (s.zeroRange a n).run = s.run := rfl
@[simp] theorem State.zeroRange_brine (s : State) (a n : Nat) : (s.zeroRange a n).brine = s.brine := rfl
@[simp] theorem State.zeroRange_nets (s : State) (a n : Nat) : (s.zeroRange a n).nets = s.nets := rfl
@[simp] theorem State.zeroRange_shadows (s : State) (a n : Nat) : (s.zeroRange a n).shadows = s.shadows := rfl
@[simp] theorem State.zeroRange_fit (s : State) (a n : Nat) : (s.zeroRange a n).fit = s.fit := rfl
@[simp] theorem State.zeroRange_sent (s : State) (a n : Nat) : (s.zeroRange a n).sent = s.sent := rfl
@[simp] theorem State.zeroRange_counters (s : State) (a n : Nat) : (s.zeroRange a n).counters = s.counters := rfl
@[simp] theorem State.zeroRange_launches (s : State) (a n : Nat) : (s.zeroRange a n).launches = s.launches := rfl
@[simp] theorem State.zeroRange_barriers (s : State) (a n : Nat) : (s.zeroRange a n).barriers = s.barriers := rfl
@[simp] theorem State.zeroRange_ops (s : State) (a n : Nat) : (s.zeroRange a n).ops = s.ops := rfl
@[simp] theorem State.zeroRange_nextOp (s : State) (a n : Nat) : (s.zeroRange a n).nextOp = s.nextOp := rfl
@[simp] theorem State.zeroRange_colls (s : State) (a n : Nat) : (s.zeroRange a n).colls = s.colls := rfl
@[simp] theorem State.zeroRange_mtime (s : State) (a n : Nat) : (s.zeroRange a n).mtime = s.mtime := rfl
@[simp] theorem State.zeroRange_epoch (s : State) (a n : Nat) : (s.zeroRange a n).epoch = s.epoch := rfl
@[simp] theorem State.zeroRange_feature (s : State) (a n : Nat) : (s.zeroRange a n).feature = s.feature := rfl
@[simp] theorem State.zeroRange_owner (s : State) (a n : Nat) : (s.zeroRange a n).owner = s.owner := rfl
@[simp] theorem State.zeroRange_claims (s : State) (a n : Nat) : (s.zeroRange a n).claims = s.claims := rfl
@[simp] theorem State.zeroRange_released (s : State) (a n : Nat) : (s.zeroRange a n).released = s.released := rfl

@[simp] theorem State.setCounter_cur (s : State) (l : Level) (n : Nat) (c : Counter) : (s.setCounter l n c).cur = s.cur := rfl
@[simp] theorem State.setCounter_agenda (s : State) (l : Level) (n : Nat) (c : Counter) : (s.setCounter l n c).agenda = s.agenda := rfl
@[simp] theorem State.setCounter_subject (s : State) (l : Level) (n : Nat) (c : Counter) : (s.setCounter l n c).subject = s.subject := rfl
@[simp] theorem State.setCounter_turns (s : State) (l : Level) (n : Nat) (c : Counter) : (s.setCounter l n c).turns = s.turns := rfl
@[simp] theorem State.setCounter_free (s : State) (l : Level) (n : Nat) (c : Counter) : (s.setCounter l n c).free = s.free := rfl
@[simp] theorem State.setCounter_ctxs (s : State) (l : Level) (n : Nat) (c : Counter) : (s.setCounter l n c).ctxs = s.ctxs := rfl
@[simp] theorem State.setCounter_cores (s : State) (l : Level) (n : Nat) (c : Counter) : (s.setCounter l n c).cores = s.cores := rfl
@[simp] theorem State.setCounter_dies (s : State) (l : Level) (n : Nat) (c : Counter) : (s.setCounter l n c).dies = s.dies := rfl
@[simp] theorem State.setCounter_bridges (s : State) (l : Level) (n : Nat) (c : Counter) : (s.setCounter l n c).bridges = s.bridges := rfl
@[simp] theorem State.setCounter_mem (s : State) (l : Level) (n : Nat) (c : Counter) : (s.setCounter l n c).mem = s.mem := rfl
@[simp] theorem State.setCounter_marks (s : State) (l : Level) (n : Nat) (c : Counter) : (s.setCounter l n c).marks = s.marks := rfl
@[simp] theorem State.setCounter_times (s : State) (l : Level) (n : Nat) (c : Counter) : (s.setCounter l n c).times = s.times := rfl
@[simp] theorem State.setCounter_copies (s : State) (l : Level) (n : Nat) (c : Counter) : (s.setCounter l n c).copies = s.copies := rfl
@[simp] theorem State.setCounter_frames (s : State) (l : Level) (n : Nat) (c : Counter) : (s.setCounter l n c).frames = s.frames := rfl
@[simp] theorem State.setCounter_pass (s : State) (l : Level) (n : Nat) (c : Counter) : (s.setCounter l n c).pass = s.pass := rfl
@[simp] theorem State.setCounter_run (s : State) (l : Level) (n : Nat) (c : Counter) : (s.setCounter l n c).run = s.run := rfl
@[simp] theorem State.setCounter_brine (s : State) (l : Level) (n : Nat) (c : Counter) : (s.setCounter l n c).brine = s.brine := rfl
@[simp] theorem State.setCounter_nets (s : State) (l : Level) (n : Nat) (c : Counter) : (s.setCounter l n c).nets = s.nets := rfl
@[simp] theorem State.setCounter_shadows (s : State) (l : Level) (n : Nat) (c : Counter) : (s.setCounter l n c).shadows = s.shadows := rfl
@[simp] theorem State.setCounter_fit (s : State) (l : Level) (n : Nat) (c : Counter) : (s.setCounter l n c).fit = s.fit := rfl
@[simp] theorem State.setCounter_sent (s : State) (l : Level) (n : Nat) (c : Counter) : (s.setCounter l n c).sent = s.sent := rfl
@[simp] theorem State.setCounter_launches (s : State) (l : Level) (n : Nat) (c : Counter) : (s.setCounter l n c).launches = s.launches := rfl
@[simp] theorem State.setCounter_barriers (s : State) (l : Level) (n : Nat) (c : Counter) : (s.setCounter l n c).barriers = s.barriers := rfl
@[simp] theorem State.setCounter_ops (s : State) (l : Level) (n : Nat) (c : Counter) : (s.setCounter l n c).ops = s.ops := rfl
@[simp] theorem State.setCounter_nextOp (s : State) (l : Level) (n : Nat) (c : Counter) : (s.setCounter l n c).nextOp = s.nextOp := rfl
@[simp] theorem State.setCounter_colls (s : State) (l : Level) (n : Nat) (c : Counter) : (s.setCounter l n c).colls = s.colls := rfl
@[simp] theorem State.setCounter_mtime (s : State) (l : Level) (n : Nat) (c : Counter) : (s.setCounter l n c).mtime = s.mtime := rfl
@[simp] theorem State.setCounter_epoch (s : State) (l : Level) (n : Nat) (c : Counter) : (s.setCounter l n c).epoch = s.epoch := rfl
@[simp] theorem State.setCounter_feature (s : State) (l : Level) (n : Nat) (c : Counter) : (s.setCounter l n c).feature = s.feature := rfl
@[simp] theorem State.setCounter_owner (s : State) (l : Level) (n : Nat) (c : Counter) : (s.setCounter l n c).owner = s.owner := rfl
@[simp] theorem State.setCounter_claims (s : State) (l : Level) (n : Nat) (c : Counter) : (s.setCounter l n c).claims = s.claims := rfl
@[simp] theorem State.setCounter_released (s : State) (l : Level) (n : Nat) (c : Counter) : (s.setCounter l n c).released = s.released := rfl

@[simp] theorem State.tick_cur (s : State) : (s.tick).cur = s.cur := rfl
@[simp] theorem State.tick_subject (s : State) : (s.tick).subject = s.subject := rfl
@[simp] theorem State.tick_turns (s : State) : (s.tick).turns = s.turns := rfl
@[simp] theorem State.tick_ctxs (s : State) : (s.tick).ctxs = s.ctxs := rfl
@[simp] theorem State.tick_cores (s : State) : (s.tick).cores = s.cores := rfl
@[simp] theorem State.tick_dies (s : State) : (s.tick).dies = s.dies := rfl
@[simp] theorem State.tick_bridges (s : State) : (s.tick).bridges = s.bridges := rfl
@[simp] theorem State.tick_mem (s : State) : (s.tick).mem = s.mem := rfl
@[simp] theorem State.tick_marks (s : State) : (s.tick).marks = s.marks := rfl
@[simp] theorem State.tick_times (s : State) : (s.tick).times = s.times := rfl
@[simp] theorem State.tick_copies (s : State) : (s.tick).copies = s.copies := rfl
@[simp] theorem State.tick_frames (s : State) : (s.tick).frames = s.frames := rfl
@[simp] theorem State.tick_pass (s : State) : (s.tick).pass = s.pass := rfl
@[simp] theorem State.tick_run (s : State) : (s.tick).run = s.run := rfl
@[simp] theorem State.tick_brine (s : State) : (s.tick).brine = s.brine := rfl
@[simp] theorem State.tick_nets (s : State) : (s.tick).nets = s.nets := rfl
@[simp] theorem State.tick_shadows (s : State) : (s.tick).shadows = s.shadows := rfl
@[simp] theorem State.tick_fit (s : State) : (s.tick).fit = s.fit := rfl
@[simp] theorem State.tick_sent (s : State) : (s.tick).sent = s.sent := rfl
@[simp] theorem State.tick_counters (s : State) : (s.tick).counters = s.counters := rfl
@[simp] theorem State.tick_launches (s : State) : (s.tick).launches = s.launches := rfl
@[simp] theorem State.tick_barriers (s : State) : (s.tick).barriers = s.barriers := rfl
@[simp] theorem State.tick_ops (s : State) : (s.tick).ops = s.ops := rfl
@[simp] theorem State.tick_nextOp (s : State) : (s.tick).nextOp = s.nextOp := rfl
@[simp] theorem State.tick_colls (s : State) : (s.tick).colls = s.colls := rfl
@[simp] theorem State.tick_epoch (s : State) : (s.tick).epoch = s.epoch := rfl
@[simp] theorem State.tick_feature (s : State) : (s.tick).feature = s.feature := rfl
@[simp] theorem State.tick_owner (s : State) : (s.tick).owner = s.owner := rfl
@[simp] theorem State.tick_claims (s : State) : (s.tick).claims = s.claims := rfl
@[simp] theorem State.tick_released (s : State) : (s.tick).released = s.released := rfl

theorem State.setBytes_other {β : Type} (f : State → β) (hf : ∀ s a b, f (State.setByte s a b) = f s) (s : State) (a : Nat)
    (bs : List Byte) : f (s.setBytes a bs) = f s := by
  induction bs generalizing s a with
  | nil => rfl
  | cons b bs ih => rw [State.setBytes, ih, hf]

@[simp] theorem State.setBytes_cur (s : State) (a : Nat) (bs : List Byte) : (s.setBytes a bs).cur = s.cur :=
  State.setBytes_other (·.cur) (fun _ _ _ => rfl) s a bs
@[simp] theorem State.setBytes_agenda (s : State) (a : Nat) (bs : List Byte) : (s.setBytes a bs).agenda = s.agenda :=
  State.setBytes_other (·.agenda) (fun _ _ _ => rfl) s a bs
@[simp] theorem State.setBytes_subject (s : State) (a : Nat) (bs : List Byte) : (s.setBytes a bs).subject = s.subject :=
  State.setBytes_other (·.subject) (fun _ _ _ => rfl) s a bs
@[simp] theorem State.setBytes_turns (s : State) (a : Nat) (bs : List Byte) : (s.setBytes a bs).turns = s.turns :=
  State.setBytes_other (·.turns) (fun _ _ _ => rfl) s a bs
@[simp] theorem State.setBytes_free (s : State) (a : Nat) (bs : List Byte) : (s.setBytes a bs).free = s.free :=
  State.setBytes_other (·.free) (fun _ _ _ => rfl) s a bs
@[simp] theorem State.setBytes_ctxs (s : State) (a : Nat) (bs : List Byte) : (s.setBytes a bs).ctxs = s.ctxs :=
  State.setBytes_other (·.ctxs) (fun _ _ _ => rfl) s a bs
@[simp] theorem State.setBytes_cores (s : State) (a : Nat) (bs : List Byte) : (s.setBytes a bs).cores = s.cores :=
  State.setBytes_other (·.cores) (fun _ _ _ => rfl) s a bs
@[simp] theorem State.setBytes_dies (s : State) (a : Nat) (bs : List Byte) : (s.setBytes a bs).dies = s.dies :=
  State.setBytes_other (·.dies) (fun _ _ _ => rfl) s a bs
@[simp] theorem State.setBytes_bridges (s : State) (a : Nat) (bs : List Byte) : (s.setBytes a bs).bridges = s.bridges :=
  State.setBytes_other (·.bridges) (fun _ _ _ => rfl) s a bs
@[simp] theorem State.setBytes_marks (s : State) (a : Nat) (bs : List Byte) : (s.setBytes a bs).marks = s.marks :=
  State.setBytes_other (·.marks) (fun _ _ _ => rfl) s a bs
@[simp] theorem State.setBytes_times (s : State) (a : Nat) (bs : List Byte) : (s.setBytes a bs).times = s.times :=
  State.setBytes_other (·.times) (fun _ _ _ => rfl) s a bs
@[simp] theorem State.setBytes_copies (s : State) (a : Nat) (bs : List Byte) : (s.setBytes a bs).copies = s.copies :=
  State.setBytes_other (·.copies) (fun _ _ _ => rfl) s a bs
@[simp] theorem State.setBytes_frames (s : State) (a : Nat) (bs : List Byte) : (s.setBytes a bs).frames = s.frames :=
  State.setBytes_other (·.frames) (fun _ _ _ => rfl) s a bs
@[simp] theorem State.setBytes_pass (s : State) (a : Nat) (bs : List Byte) : (s.setBytes a bs).pass = s.pass :=
  State.setBytes_other (·.pass) (fun _ _ _ => rfl) s a bs
@[simp] theorem State.setBytes_run (s : State) (a : Nat) (bs : List Byte) : (s.setBytes a bs).run = s.run :=
  State.setBytes_other (·.run) (fun _ _ _ => rfl) s a bs
@[simp] theorem State.setBytes_brine (s : State) (a : Nat) (bs : List Byte) : (s.setBytes a bs).brine = s.brine :=
  State.setBytes_other (·.brine) (fun _ _ _ => rfl) s a bs
@[simp] theorem State.setBytes_nets (s : State) (a : Nat) (bs : List Byte) : (s.setBytes a bs).nets = s.nets :=
  State.setBytes_other (·.nets) (fun _ _ _ => rfl) s a bs
@[simp] theorem State.setBytes_shadows (s : State) (a : Nat) (bs : List Byte) : (s.setBytes a bs).shadows = s.shadows :=
  State.setBytes_other (·.shadows) (fun _ _ _ => rfl) s a bs
@[simp] theorem State.setBytes_fit (s : State) (a : Nat) (bs : List Byte) : (s.setBytes a bs).fit = s.fit :=
  State.setBytes_other (·.fit) (fun _ _ _ => rfl) s a bs
@[simp] theorem State.setBytes_sent (s : State) (a : Nat) (bs : List Byte) : (s.setBytes a bs).sent = s.sent :=
  State.setBytes_other (·.sent) (fun _ _ _ => rfl) s a bs
@[simp] theorem State.setBytes_counters (s : State) (a : Nat) (bs : List Byte) : (s.setBytes a bs).counters = s.counters :=
  State.setBytes_other (·.counters) (fun _ _ _ => rfl) s a bs
@[simp] theorem State.setBytes_launches (s : State) (a : Nat) (bs : List Byte) : (s.setBytes a bs).launches = s.launches :=
  State.setBytes_other (·.launches) (fun _ _ _ => rfl) s a bs
@[simp] theorem State.setBytes_barriers (s : State) (a : Nat) (bs : List Byte) : (s.setBytes a bs).barriers = s.barriers :=
  State.setBytes_other (·.barriers) (fun _ _ _ => rfl) s a bs
@[simp] theorem State.setBytes_ops (s : State) (a : Nat) (bs : List Byte) : (s.setBytes a bs).ops = s.ops :=
  State.setBytes_other (·.ops) (fun _ _ _ => rfl) s a bs
@[simp] theorem State.setBytes_nextOp (s : State) (a : Nat) (bs : List Byte) : (s.setBytes a bs).nextOp = s.nextOp :=
  State.setBytes_other (·.nextOp) (fun _ _ _ => rfl) s a bs
@[simp] theorem State.setBytes_colls (s : State) (a : Nat) (bs : List Byte) : (s.setBytes a bs).colls = s.colls :=
  State.setBytes_other (·.colls) (fun _ _ _ => rfl) s a bs
@[simp] theorem State.setBytes_mtime (s : State) (a : Nat) (bs : List Byte) : (s.setBytes a bs).mtime = s.mtime :=
  State.setBytes_other (·.mtime) (fun _ _ _ => rfl) s a bs
@[simp] theorem State.setBytes_epoch (s : State) (a : Nat) (bs : List Byte) : (s.setBytes a bs).epoch = s.epoch :=
  State.setBytes_other (·.epoch) (fun _ _ _ => rfl) s a bs
@[simp] theorem State.setBytes_feature (s : State) (a : Nat) (bs : List Byte) : (s.setBytes a bs).feature = s.feature :=
  State.setBytes_other (·.feature) (fun _ _ _ => rfl) s a bs
@[simp] theorem State.setBytes_owner (s : State) (a : Nat) (bs : List Byte) : (s.setBytes a bs).owner = s.owner :=
  State.setBytes_other (·.owner) (fun _ _ _ => rfl) s a bs
@[simp] theorem State.setBytes_claims (s : State) (a : Nat) (bs : List Byte) : (s.setBytes a bs).claims = s.claims :=
  State.setBytes_other (·.claims) (fun _ _ _ => rfl) s a bs
@[simp] theorem State.setBytes_released (s : State) (a : Nat) (bs : List Byte) : (s.setBytes a bs).released = s.released :=
  State.setBytes_other (·.released) (fun _ _ _ => rfl) s a bs
@[simp] theorem State.store_cur (s : State) (a : Nat) (bs : List Byte) : (s.store a bs).cur = s.cur := by simp [State.store]
@[simp] theorem State.store_agenda (s : State) (a : Nat) (bs : List Byte) : (s.store a bs).agenda = s.agenda := by simp [State.store]
@[simp] theorem State.store_subject (s : State) (a : Nat) (bs : List Byte) : (s.store a bs).subject = s.subject := by simp [State.store]
@[simp] theorem State.store_turns (s : State) (a : Nat) (bs : List Byte) : (s.store a bs).turns = s.turns := by simp [State.store]
@[simp] theorem State.store_free (s : State) (a : Nat) (bs : List Byte) : (s.store a bs).free = s.free := by simp [State.store]
@[simp] theorem State.store_ctxs (s : State) (a : Nat) (bs : List Byte) : (s.store a bs).ctxs = s.ctxs := by simp [State.store]
@[simp] theorem State.store_cores (s : State) (a : Nat) (bs : List Byte) : (s.store a bs).cores = s.cores := by simp [State.store]
@[simp] theorem State.store_dies (s : State) (a : Nat) (bs : List Byte) : (s.store a bs).dies = s.dies := by simp [State.store]
@[simp] theorem State.store_bridges (s : State) (a : Nat) (bs : List Byte) : (s.store a bs).bridges = s.bridges := by simp [State.store]
@[simp] theorem State.store_times (s : State) (a : Nat) (bs : List Byte) : (s.store a bs).times = s.times := by simp [State.store]
@[simp] theorem State.store_copies (s : State) (a : Nat) (bs : List Byte) : (s.store a bs).copies = s.copies := by simp [State.store]
@[simp] theorem State.store_brine (s : State) (a : Nat) (bs : List Byte) : (s.store a bs).brine = s.brine := by simp [State.store]
@[simp] theorem State.store_frames (s : State) (a : Nat) (bs : List Byte) : (s.store a bs).frames = s.frames := by simp [State.store]
@[simp] theorem State.store_pass (s : State) (a : Nat) (bs : List Byte) : (s.store a bs).pass = s.pass := by simp [State.store]
@[simp] theorem State.store_run (s : State) (a : Nat) (bs : List Byte) : (s.store a bs).run = s.run := by simp [State.store]
@[simp] theorem State.store_nets (s : State) (a : Nat) (bs : List Byte) : (s.store a bs).nets = s.nets := by simp [State.store]
@[simp] theorem State.store_shadows (s : State) (a : Nat) (bs : List Byte) : (s.store a bs).shadows = s.shadows := by simp [State.store]
@[simp] theorem State.store_fit (s : State) (a : Nat) (bs : List Byte) : (s.store a bs).fit = s.fit := by simp [State.store]
@[simp] theorem State.store_sent (s : State) (a : Nat) (bs : List Byte) : (s.store a bs).sent = s.sent := by simp [State.store]
@[simp] theorem State.store_counters (s : State) (a : Nat) (bs : List Byte) : (s.store a bs).counters = s.counters := by simp [State.store]
@[simp] theorem State.store_launches (s : State) (a : Nat) (bs : List Byte) : (s.store a bs).launches = s.launches := by simp [State.store]
@[simp] theorem State.store_barriers (s : State) (a : Nat) (bs : List Byte) : (s.store a bs).barriers = s.barriers := by simp [State.store]
@[simp] theorem State.store_ops (s : State) (a : Nat) (bs : List Byte) : (s.store a bs).ops = s.ops := by simp [State.store]
@[simp] theorem State.store_nextOp (s : State) (a : Nat) (bs : List Byte) : (s.store a bs).nextOp = s.nextOp := by simp [State.store]
@[simp] theorem State.store_colls (s : State) (a : Nat) (bs : List Byte) : (s.store a bs).colls = s.colls := by simp [State.store]
@[simp] theorem State.store_mtime (s : State) (a : Nat) (bs : List Byte) : (s.store a bs).mtime = s.mtime := by simp [State.store]
@[simp] theorem State.store_epoch (s : State) (a : Nat) (bs : List Byte) : (s.store a bs).epoch = s.epoch := by simp [State.store]
@[simp] theorem State.store_feature (s : State) (a : Nat) (bs : List Byte) : (s.store a bs).feature = s.feature := by simp [State.store]
@[simp] theorem State.store_owner (s : State) (a : Nat) (bs : List Byte) : (s.store a bs).owner = s.owner := by simp [State.store]
@[simp] theorem State.store_claims (s : State) (a : Nat) (bs : List Byte) : (s.store a bs).claims = s.claims := by simp [State.store]
@[simp] theorem State.store_released (s : State) (a : Nat) (bs : List Byte) : (s.store a bs).released = s.released := by simp [State.store]

/-! ## Copies and their frames (R57, R58, R60) -/

/-- What neither a copy, a frame, a step that is due nor a free value changes. -/
def CacheBlind {β : Type} (f : State → β) : Prop :=
  ∀ s copies frames agenda free, f { s with copies := copies, frames := frames, agenda := agenda, free := free } = f s

theorem CacheBlind.vacate {β : Type} {f : State → β} (hf : CacheBlind f) (s : State) (cache : Nat) (x : Frame) :
    f (s.vacate cache x) = f s := by
  unfold State.vacate
  dsimp only
  split
  · exact hf s _ _ s.agenda s.free
  · split
    · exact hf s s.copies _ s.agenda s.free
    · exact hf s s.copies _ _ s.free

theorem CacheBlind.enterFrame {β : Type} {f : State → β} (hf : CacheBlind f) (s : State) (cache : Nat) (x : Frame) (last : Bool) :
    f (s.enterFrame cache x last) = f s := hf s s.copies _ s.agenda s.free

theorem CacheBlind.victim {β : Type} {f : State → β} (hf : CacheBlind f) (s : State) (cache : Nat) (set : List Frame) :
    f (s.victim cache set).2 = f s := by
  unfold State.victim
  split
  · rfl
  · exact hf s s.copies s.frames s.agenda _

theorem CacheBlind.setSectors {β : Type} {f : State → β} (hf : CacheBlind f) (s : State) (cache id size mask : Nat) (on : Bool) :
    f (s.setSectors cache id size mask on) = f s := hf s s.copies _ s.agenda s.free

theorem CacheBlind.touch {β : Type} {f : State → β} (hf : CacheBlind f) (s : State) (cache id : Nat) : f (s.touch cache id) = f s := by
  unfold State.touch
  dsimp only
  split
  · rfl
  · split
    · exact hf s s.copies _ s.agenda s.free
    · rfl

theorem CacheBlind.freeFrame {β : Type} {f : State → β} (hf : CacheBlind f) (s : State) (cache id : Nat) :
    f (s.freeFrame cache id) = f s := by
  unfold State.freeFrame
  split
  · rfl
  · exact hf s s.copies _ s.agenda s.free

theorem CacheBlind.bring {β : Type} {f : State → β} (hf : CacheBlind f) (s : State) (cache id : Nat) (ways : List Nat) (last : Bool) :
    f (s.bring cache id ways last) = f s := by
  unfold State.bring
  split
  · rfl
  · split
    · exact hf.enterFrame s ..
    · have h := hf.victim s cache ((s.setOf cache id).filter fun x => ways.contains x.way)
      split
      · rename_i heq; rw [heq] at h; exact h
      · rename_i heq; rw [heq] at h; rw [hf.enterFrame, hf.vacate]; exact h

theorem CacheBlind.bringFor {β : Type} {f : State → β} (hf : CacheBlind f) (s : State) (p key cls : Nat) :
    f (s.bringFor p key cls) = f s := by
  unfold State.bringFor
  dsimp only
  split
  · exact hf.bring ..
  · split
    · exact hf.bring ..
    · split
      · split
        · rfl
        · rw [hf.vacate, hf.enterFrame]
      · exact hf.bring ..

theorem CacheBlind.putCopy {β : Type} {f : State → β} (hf : CacheBlind f) (s : State) (p b : Nat) (c : Copy) :
    f (s.putCopy p b c) = f s := by
  unfold State.putCopy
  dsimp only
  rw [hf.setSectors, hf.bringFor]
  exact hf s _ s.frames s.agenda s.free

theorem CacheBlind.dropCopy {β : Type} {f : State → β} (hf : CacheBlind f) (s : State) (p b : Nat) :
    f (s.dropCopy p b) = f s := by
  unfold State.dropCopy
  dsimp only
  split
  · rfl
  · rw [hf.freeFrame, hf.setSectors]
    exact hf s _ s.frames s.agenda s.free

@[simp] theorem State.putCopy_cur (s : State) (p b : Nat) (c : Copy) : (s.putCopy p b c).cur = s.cur :=
  CacheBlind.putCopy (f := (·.cur)) (fun _ _ _ _ _ => rfl) s p b c
@[simp] theorem State.putCopy_subject (s : State) (p b : Nat) (c : Copy) : (s.putCopy p b c).subject = s.subject :=
  CacheBlind.putCopy (f := (·.subject)) (fun _ _ _ _ _ => rfl) s p b c
@[simp] theorem State.putCopy_turns (s : State) (p b : Nat) (c : Copy) : (s.putCopy p b c).turns = s.turns :=
  CacheBlind.putCopy (f := (·.turns)) (fun _ _ _ _ _ => rfl) s p b c
@[simp] theorem State.putCopy_ctxs (s : State) (p b : Nat) (c : Copy) : (s.putCopy p b c).ctxs = s.ctxs :=
  CacheBlind.putCopy (f := (·.ctxs)) (fun _ _ _ _ _ => rfl) s p b c
@[simp] theorem State.putCopy_cores (s : State) (p b : Nat) (c : Copy) : (s.putCopy p b c).cores = s.cores :=
  CacheBlind.putCopy (f := (·.cores)) (fun _ _ _ _ _ => rfl) s p b c
@[simp] theorem State.putCopy_dies (s : State) (p b : Nat) (c : Copy) : (s.putCopy p b c).dies = s.dies :=
  CacheBlind.putCopy (f := (·.dies)) (fun _ _ _ _ _ => rfl) s p b c
@[simp] theorem State.putCopy_bridges (s : State) (p b : Nat) (c : Copy) : (s.putCopy p b c).bridges = s.bridges :=
  CacheBlind.putCopy (f := (·.bridges)) (fun _ _ _ _ _ => rfl) s p b c
@[simp] theorem State.putCopy_mem (s : State) (p b : Nat) (c : Copy) : (s.putCopy p b c).mem = s.mem :=
  CacheBlind.putCopy (f := (·.mem)) (fun _ _ _ _ _ => rfl) s p b c
@[simp] theorem State.putCopy_marks (s : State) (p b : Nat) (c : Copy) : (s.putCopy p b c).marks = s.marks :=
  CacheBlind.putCopy (f := (·.marks)) (fun _ _ _ _ _ => rfl) s p b c
@[simp] theorem State.putCopy_times (s : State) (p b : Nat) (c : Copy) : (s.putCopy p b c).times = s.times :=
  CacheBlind.putCopy (f := (·.times)) (fun _ _ _ _ _ => rfl) s p b c
@[simp] theorem State.putCopy_pass (s : State) (p b : Nat) (c : Copy) : (s.putCopy p b c).pass = s.pass :=
  CacheBlind.putCopy (f := (·.pass)) (fun _ _ _ _ _ => rfl) s p b c
@[simp] theorem State.putCopy_run (s : State) (p b : Nat) (c : Copy) : (s.putCopy p b c).run = s.run :=
  CacheBlind.putCopy (f := (·.run)) (fun _ _ _ _ _ => rfl) s p b c
@[simp] theorem State.putCopy_brine (s : State) (p b : Nat) (c : Copy) : (s.putCopy p b c).brine = s.brine :=
  CacheBlind.putCopy (f := (·.brine)) (fun _ _ _ _ _ => rfl) s p b c
@[simp] theorem State.putCopy_nets (s : State) (p b : Nat) (c : Copy) : (s.putCopy p b c).nets = s.nets :=
  CacheBlind.putCopy (f := (·.nets)) (fun _ _ _ _ _ => rfl) s p b c
@[simp] theorem State.putCopy_shadows (s : State) (p b : Nat) (c : Copy) : (s.putCopy p b c).shadows = s.shadows :=
  CacheBlind.putCopy (f := (·.shadows)) (fun _ _ _ _ _ => rfl) s p b c
@[simp] theorem State.putCopy_fit (s : State) (p b : Nat) (c : Copy) : (s.putCopy p b c).fit = s.fit :=
  CacheBlind.putCopy (f := (·.fit)) (fun _ _ _ _ _ => rfl) s p b c
@[simp] theorem State.putCopy_sent (s : State) (p b : Nat) (c : Copy) : (s.putCopy p b c).sent = s.sent :=
  CacheBlind.putCopy (f := (·.sent)) (fun _ _ _ _ _ => rfl) s p b c
@[simp] theorem State.putCopy_counters (s : State) (p b : Nat) (c : Copy) : (s.putCopy p b c).counters = s.counters :=
  CacheBlind.putCopy (f := (·.counters)) (fun _ _ _ _ _ => rfl) s p b c
@[simp] theorem State.putCopy_launches (s : State) (p b : Nat) (c : Copy) : (s.putCopy p b c).launches = s.launches :=
  CacheBlind.putCopy (f := (·.launches)) (fun _ _ _ _ _ => rfl) s p b c
@[simp] theorem State.putCopy_barriers (s : State) (p b : Nat) (c : Copy) : (s.putCopy p b c).barriers = s.barriers :=
  CacheBlind.putCopy (f := (·.barriers)) (fun _ _ _ _ _ => rfl) s p b c
@[simp] theorem State.putCopy_ops (s : State) (p b : Nat) (c : Copy) : (s.putCopy p b c).ops = s.ops :=
  CacheBlind.putCopy (f := (·.ops)) (fun _ _ _ _ _ => rfl) s p b c
@[simp] theorem State.putCopy_nextOp (s : State) (p b : Nat) (c : Copy) : (s.putCopy p b c).nextOp = s.nextOp :=
  CacheBlind.putCopy (f := (·.nextOp)) (fun _ _ _ _ _ => rfl) s p b c
@[simp] theorem State.putCopy_colls (s : State) (p b : Nat) (c : Copy) : (s.putCopy p b c).colls = s.colls :=
  CacheBlind.putCopy (f := (·.colls)) (fun _ _ _ _ _ => rfl) s p b c
@[simp] theorem State.putCopy_mtime (s : State) (p b : Nat) (c : Copy) : (s.putCopy p b c).mtime = s.mtime :=
  CacheBlind.putCopy (f := (·.mtime)) (fun _ _ _ _ _ => rfl) s p b c
@[simp] theorem State.putCopy_epoch (s : State) (p b : Nat) (c : Copy) : (s.putCopy p b c).epoch = s.epoch :=
  CacheBlind.putCopy (f := (·.epoch)) (fun _ _ _ _ _ => rfl) s p b c
@[simp] theorem State.putCopy_feature (s : State) (p b : Nat) (c : Copy) : (s.putCopy p b c).feature = s.feature :=
  CacheBlind.putCopy (f := (·.feature)) (fun _ _ _ _ _ => rfl) s p b c
@[simp] theorem State.putCopy_owner (s : State) (p b : Nat) (c : Copy) : (s.putCopy p b c).owner = s.owner :=
  CacheBlind.putCopy (f := (·.owner)) (fun _ _ _ _ _ => rfl) s p b c
@[simp] theorem State.putCopy_claims (s : State) (p b : Nat) (c : Copy) : (s.putCopy p b c).claims = s.claims :=
  CacheBlind.putCopy (f := (·.claims)) (fun _ _ _ _ _ => rfl) s p b c
@[simp] theorem State.putCopy_released (s : State) (p b : Nat) (c : Copy) : (s.putCopy p b c).released = s.released :=
  CacheBlind.putCopy (f := (·.released)) (fun _ _ _ _ _ => rfl) s p b c

@[simp] theorem State.dropCopy_cur (s : State) (p b : Nat) : (s.dropCopy p b).cur = s.cur :=
  CacheBlind.dropCopy (f := (·.cur)) (fun _ _ _ _ _ => rfl) s p b
@[simp] theorem State.dropCopy_subject (s : State) (p b : Nat) : (s.dropCopy p b).subject = s.subject :=
  CacheBlind.dropCopy (f := (·.subject)) (fun _ _ _ _ _ => rfl) s p b
@[simp] theorem State.dropCopy_turns (s : State) (p b : Nat) : (s.dropCopy p b).turns = s.turns :=
  CacheBlind.dropCopy (f := (·.turns)) (fun _ _ _ _ _ => rfl) s p b
@[simp] theorem State.dropCopy_ctxs (s : State) (p b : Nat) : (s.dropCopy p b).ctxs = s.ctxs :=
  CacheBlind.dropCopy (f := (·.ctxs)) (fun _ _ _ _ _ => rfl) s p b
@[simp] theorem State.dropCopy_cores (s : State) (p b : Nat) : (s.dropCopy p b).cores = s.cores :=
  CacheBlind.dropCopy (f := (·.cores)) (fun _ _ _ _ _ => rfl) s p b
@[simp] theorem State.dropCopy_dies (s : State) (p b : Nat) : (s.dropCopy p b).dies = s.dies :=
  CacheBlind.dropCopy (f := (·.dies)) (fun _ _ _ _ _ => rfl) s p b
@[simp] theorem State.dropCopy_bridges (s : State) (p b : Nat) : (s.dropCopy p b).bridges = s.bridges :=
  CacheBlind.dropCopy (f := (·.bridges)) (fun _ _ _ _ _ => rfl) s p b
@[simp] theorem State.dropCopy_mem (s : State) (p b : Nat) : (s.dropCopy p b).mem = s.mem :=
  CacheBlind.dropCopy (f := (·.mem)) (fun _ _ _ _ _ => rfl) s p b
@[simp] theorem State.dropCopy_marks (s : State) (p b : Nat) : (s.dropCopy p b).marks = s.marks :=
  CacheBlind.dropCopy (f := (·.marks)) (fun _ _ _ _ _ => rfl) s p b
@[simp] theorem State.dropCopy_times (s : State) (p b : Nat) : (s.dropCopy p b).times = s.times :=
  CacheBlind.dropCopy (f := (·.times)) (fun _ _ _ _ _ => rfl) s p b
@[simp] theorem State.dropCopy_pass (s : State) (p b : Nat) : (s.dropCopy p b).pass = s.pass :=
  CacheBlind.dropCopy (f := (·.pass)) (fun _ _ _ _ _ => rfl) s p b
@[simp] theorem State.dropCopy_run (s : State) (p b : Nat) : (s.dropCopy p b).run = s.run :=
  CacheBlind.dropCopy (f := (·.run)) (fun _ _ _ _ _ => rfl) s p b
@[simp] theorem State.dropCopy_brine (s : State) (p b : Nat) : (s.dropCopy p b).brine = s.brine :=
  CacheBlind.dropCopy (f := (·.brine)) (fun _ _ _ _ _ => rfl) s p b
@[simp] theorem State.dropCopy_nets (s : State) (p b : Nat) : (s.dropCopy p b).nets = s.nets :=
  CacheBlind.dropCopy (f := (·.nets)) (fun _ _ _ _ _ => rfl) s p b
@[simp] theorem State.dropCopy_shadows (s : State) (p b : Nat) : (s.dropCopy p b).shadows = s.shadows :=
  CacheBlind.dropCopy (f := (·.shadows)) (fun _ _ _ _ _ => rfl) s p b
@[simp] theorem State.dropCopy_fit (s : State) (p b : Nat) : (s.dropCopy p b).fit = s.fit :=
  CacheBlind.dropCopy (f := (·.fit)) (fun _ _ _ _ _ => rfl) s p b
@[simp] theorem State.dropCopy_sent (s : State) (p b : Nat) : (s.dropCopy p b).sent = s.sent :=
  CacheBlind.dropCopy (f := (·.sent)) (fun _ _ _ _ _ => rfl) s p b
@[simp] theorem State.dropCopy_counters (s : State) (p b : Nat) : (s.dropCopy p b).counters = s.counters :=
  CacheBlind.dropCopy (f := (·.counters)) (fun _ _ _ _ _ => rfl) s p b
@[simp] theorem State.dropCopy_launches (s : State) (p b : Nat) : (s.dropCopy p b).launches = s.launches :=
  CacheBlind.dropCopy (f := (·.launches)) (fun _ _ _ _ _ => rfl) s p b
@[simp] theorem State.dropCopy_barriers (s : State) (p b : Nat) : (s.dropCopy p b).barriers = s.barriers :=
  CacheBlind.dropCopy (f := (·.barriers)) (fun _ _ _ _ _ => rfl) s p b
@[simp] theorem State.dropCopy_ops (s : State) (p b : Nat) : (s.dropCopy p b).ops = s.ops :=
  CacheBlind.dropCopy (f := (·.ops)) (fun _ _ _ _ _ => rfl) s p b
@[simp] theorem State.dropCopy_nextOp (s : State) (p b : Nat) : (s.dropCopy p b).nextOp = s.nextOp :=
  CacheBlind.dropCopy (f := (·.nextOp)) (fun _ _ _ _ _ => rfl) s p b
@[simp] theorem State.dropCopy_colls (s : State) (p b : Nat) : (s.dropCopy p b).colls = s.colls :=
  CacheBlind.dropCopy (f := (·.colls)) (fun _ _ _ _ _ => rfl) s p b
@[simp] theorem State.dropCopy_mtime (s : State) (p b : Nat) : (s.dropCopy p b).mtime = s.mtime :=
  CacheBlind.dropCopy (f := (·.mtime)) (fun _ _ _ _ _ => rfl) s p b
@[simp] theorem State.dropCopy_epoch (s : State) (p b : Nat) : (s.dropCopy p b).epoch = s.epoch :=
  CacheBlind.dropCopy (f := (·.epoch)) (fun _ _ _ _ _ => rfl) s p b
@[simp] theorem State.dropCopy_feature (s : State) (p b : Nat) : (s.dropCopy p b).feature = s.feature :=
  CacheBlind.dropCopy (f := (·.feature)) (fun _ _ _ _ _ => rfl) s p b
@[simp] theorem State.dropCopy_owner (s : State) (p b : Nat) : (s.dropCopy p b).owner = s.owner :=
  CacheBlind.dropCopy (f := (·.owner)) (fun _ _ _ _ _ => rfl) s p b
@[simp] theorem State.dropCopy_claims (s : State) (p b : Nat) : (s.dropCopy p b).claims = s.claims :=
  CacheBlind.dropCopy (f := (·.claims)) (fun _ _ _ _ _ => rfl) s p b
@[simp] theorem State.dropCopy_released (s : State) (p b : Nat) : (s.dropCopy p b).released = s.released :=
  CacheBlind.dropCopy (f := (·.released)) (fun _ _ _ _ _ => rfl) s p b

@[simp] theorem State.dropCopy_agenda (s : State) (p b : Nat) : (s.dropCopy p b).agenda = s.agenda := by
  unfold State.dropCopy State.freeFrame; dsimp only; repeat' split
  all_goals rfl
@[simp] theorem State.dropCopy_free (s : State) (p b : Nat) : (s.dropCopy p b).free = s.free := by
  unfold State.dropCopy State.freeFrame; dsimp only; repeat' split
  all_goals rfl

/-! ## Reading a part after writing one -/

@[simp] theorem State.ctxAt_setCtxAt (s : State) (k : Nat) (c : Ctx) : (s.setCtxAt k c).ctxAt k = c := by
  simp [State.ctxAt, State.setCtxAt]
theorem State.ctxAt_setCtxAt_ne (s : State) {k j : Nat} (c : Ctx) (h : j ≠ k) : (s.setCtxAt k c).ctxAt j = s.ctxAt j := by
  simp [State.ctxAt, State.setCtxAt, Tab.get_put_ne _ _ _ h]
@[simp] theorem State.me_setMe (s : State) (c : Ctx) : (s.setMe c).me = c := by
  simp [State.me, State.setMe, State.myKey, State.ctxAt, State.setCtxAt]
@[simp] theorem State.core_setCore (s : State) (n : Nat) (c : CoreSt) : (s.setCore n c).core n = c := by
  simp [State.core, State.setCore]
theorem State.core_setCore_ne (s : State) {n m : Nat} (c : CoreSt) (h : m ≠ n) : (s.setCore n c).core m = s.core m := by
  simp [State.core, State.setCore, Tab.get_put_ne _ _ _ h]
@[simp] theorem State.die_setDie (s : State) (d : Nat) (x : DieSt) : (s.setDie d x).die d = x := by
  simp [State.die, State.setDie]
theorem State.die_setDie_ne (s : State) {d e : Nat} (x : DieSt) (h : e ≠ d) : (s.setDie d x).die e = s.die e := by
  simp [State.die, State.setDie, Tab.get_put_ne _ _ _ h]
@[simp] theorem State.bridge_setBridge (s : State) (b : Nat) (x : BridgeSt) : (s.setBridge b x).bridge b = x := by
  simp [State.bridge, State.setBridge]
@[simp] theorem State.dieReg_setDieReg (s : State) (d n : Nat) (v : Dword) : (s.setDieReg d n v).dieReg d n = v := by
  simp [State.dieReg, State.setDieReg, DieSt.reg, DieSt.setReg]
theorem State.dieReg_setDieReg_ne (s : State) (d : Nat) {n m : Nat} (v : Dword) (h : m ≠ n) :
    (s.setDieReg d n v).dieReg d m = s.dieReg d m := by
  simp [State.dieReg, State.setDieReg, DieSt.reg, DieSt.setReg, Tab.get_put_ne _ _ _ h]
@[simp] theorem State.bridgeReg_setBridgeReg (s : State) (b n : Nat) (v : Dword) :
    (s.setBridgeReg b n v).bridgeReg b n = v := by
  simp [State.bridgeReg, State.setBridgeReg, BridgeSt.reg]
theorem State.bridgeReg_setBridgeReg_ne (s : State) (b : Nat) {n m : Nat} (v : Dword) (h : m ≠ n) :
    (s.setBridgeReg b n v).bridgeReg b m = s.bridgeReg b m := by
  simp [State.bridgeReg, State.setBridgeReg, BridgeSt.reg, Tab.get_put_ne _ _ _ h]
@[simp] theorem State.setMe_setMe (s : State) (c d : Ctx) : (s.setMe c).setMe d = s.setMe d := by
  simp only [State.setMe, State.setCtxAt, State.myKey]
  congr 1
  induction s.ctxs with
  | nil => simp [Tab.put]
  | cons e r ih =>
    obtain ⟨j, b⟩ := e
    by_cases h1 : ctxKey s.cur.1 s.cur.2 < j
    · simp [Tab.put, h1]
    · by_cases h2 : ctxKey s.cur.1 s.cur.2 = j
      · simp [Tab.put, h2]
      · simp [Tab.put, h1, h2, ih]
@[simp] theorem State.setMe_myKey (s : State) (c : Ctx) : (s.setMe c).myKey = s.myKey := rfl

/-! ## The register files (R11 to R13) -/

@[simp] theorem Ctx.setX_pc (c : Ctx) (r : XReg) (v : Dword) : (c.setX r v).pc = c.pc := by
  unfold Ctx.setX; split <;> rfl
@[simp] theorem Ctx.setX_npc (c : Ctx) (r : XReg) (v : Dword) : (c.setX r v).npc = c.npc := by
  unfold Ctx.setX; split <;> rfl
@[simp] theorem Ctx.setX_ir (c : Ctx) (r : XReg) (v : Dword) : (c.setX r v).ir = c.ir := by
  unfold Ctx.setX; split <;> rfl
@[simp] theorem Ctx.setX_issuedPc (c : Ctx) (r : XReg) (v : Dword) : (c.setX r v).issuedPc = c.issuedPc := by
  unfold Ctx.setX; split <;> rfl
@[simp] theorem Ctx.setX_issuedRep (c : Ctx) (r : XReg) (v : Dword) : (c.setX r v).issuedRep = c.issuedRep := by
  unfold Ctx.setX; split <;> rfl
@[simp] theorem Ctx.setX_v (c : Ctx) (r : XReg) (v : Dword) : (c.setX r v).v = c.v := by
  unfold Ctx.setX; split <;> rfl
@[simp] theorem Ctx.setX_k (c : Ctx) (r : XReg) (v : Dword) : (c.setX r v).k = c.k := by
  unfold Ctx.setX; split <;> rfl
@[simp] theorem Ctx.setX_acc (c : Ctx) (r : XReg) (v : Dword) : (c.setX r v).acc = c.acc := by
  unfold Ctx.setX; split <;> rfl
@[simp] theorem Ctx.setX_handles (c : Ctx) (r : XReg) (v : Dword) : (c.setX r v).handles = c.handles := by
  unfold Ctx.setX; split <;> rfl
@[simp] theorem Ctx.setX_ports (c : Ctx) (r : XReg) (v : Dword) : (c.setX r v).ports = c.ports := by
  unfold Ctx.setX; split <;> rfl
@[simp] theorem Ctx.setX_rep (c : Ctx) (r : XReg) (v : Dword) : (c.setX r v).rep = c.rep := by
  unfold Ctx.setX; split <;> rfl
@[simp] theorem Ctx.setX_fcsr (c : Ctx) (r : XReg) (v : Dword) : (c.setX r v).fcsr = c.fcsr := by
  unfold Ctx.setX; split <;> rfl
@[simp] theorem Ctx.setX_ctxcfg (c : Ctx) (r : XReg) (v : Dword) : (c.setX r v).ctxcfg = c.ctxcfg := by
  unfold Ctx.setX; split <;> rfl
@[simp] theorem Ctx.setX_wofs (c : Ctx) (r : XReg) (v : Dword) : (c.setX r v).wofs = c.wofs := by
  unfold Ctx.setX; split <;> rfl
@[simp] theorem Ctx.setX_pts (c : Ctx) (r : XReg) (v : Dword) : (c.setX r v).pts = c.pts := by
  unfold Ctx.setX; split <;> rfl
@[simp] theorem Ctx.setX_lease (c : Ctx) (r : XReg) (v : Dword) : (c.setX r v).lease = c.lease := by
  unfold Ctx.setX; split <;> rfl
@[simp] theorem Ctx.setX_bartmo (c : Ctx) (r : XReg) (v : Dword) : (c.setX r v).bartmo = c.bartmo := by
  unfold Ctx.setX; split <;> rfl
@[simp] theorem Ctx.setX_unitid (c : Ctx) (r : XReg) (v : Dword) : (c.setX r v).unitid = c.unitid := by
  unfold Ctx.setX; split <;> rfl
@[simp] theorem Ctx.setX_launchid (c : Ctx) (r : XReg) (v : Dword) : (c.setX r v).launchid = c.launchid := by
  unfold Ctx.setX; split <;> rfl
@[simp] theorem Ctx.setX_merrlog (c : Ctx) (r : XReg) (v : Dword) : (c.setX r v).merrlog = c.merrlog := by
  unfold Ctx.setX; split <;> rfl
@[simp] theorem Ctx.setX_merrcnt (c : Ctx) (r : XReg) (v : Dword) : (c.setX r v).merrcnt = c.merrcnt := by
  unfold Ctx.setX; split <;> rfl
@[simp] theorem Ctx.setX_trapcause (c : Ctx) (r : XReg) (v : Dword) : (c.setX r v).trapcause = c.trapcause := by
  unfold Ctx.setX; split <;> rfl
@[simp] theorem Ctx.setX_trappc (c : Ctx) (r : XReg) (v : Dword) : (c.setX r v).trappc = c.trappc := by
  unfold Ctx.setX; split <;> rfl
@[simp] theorem Ctx.setX_trapval (c : Ctx) (r : XReg) (v : Dword) : (c.setX r v).trapval = c.trapval := by
  unfold Ctx.setX; split <;> rfl
@[simp] theorem Ctx.setX_trapvec (c : Ctx) (r : XReg) (v : Dword) : (c.setX r v).trapvec = c.trapvec := by
  unfold Ctx.setX; split <;> rfl
@[simp] theorem Ctx.setX_region (c : Ctx) (r : XReg) (v : Dword) : (c.setX r v).region = c.region := by
  unfold Ctx.setX; split <;> rfl
@[simp] theorem Ctx.setX_pending (c : Ctx) (r : XReg) (v : Dword) : (c.setX r v).pending = c.pending := by
  unfold Ctx.setX; split <;> rfl
@[simp] theorem Ctx.setX_fills (c : Ctx) (r : XReg) (v : Dword) : (c.setX r v).fills = c.fills := by
  unfold Ctx.setX; split <;> rfl
@[simp] theorem Ctx.setX_latch (c : Ctx) (r : XReg) (v : Dword) : (c.setX r v).latch = c.latch := by
  unfold Ctx.setX; split <;> rfl
@[simp] theorem Ctx.setX_record (c : Ctx) (r : XReg) (v : Dword) : (c.setX r v).record = c.record := by
  unfold Ctx.setX; split <;> rfl
@[simp] theorem Ctx.setX_rpts (c : Ctx) (r : XReg) (v : Dword) : (c.setX r v).rpts = c.rpts := by
  unfold Ctx.setX; split <;> rfl
@[simp] theorem Ctx.setX_fetchPts (c : Ctx) (r : XReg) (v : Dword) : (c.setX r v).fetchPts = c.fetchPts := by
  unfold Ctx.setX; split <;> rfl
@[simp] theorem Ctx.setX_answer (c : Ctx) (r : XReg) (v : Dword) : (c.setX r v).answer = c.answer := by
  unfold Ctx.setX; split <;> rfl
@[simp] theorem Ctx.setX_status (c : Ctx) (r : XReg) (v : Dword) : (c.setX r v).status = c.status := by
  unfold Ctx.setX; split <;> rfl

@[simp] theorem Ctx.setV_pc (c : Ctx) (r : VReg) (v : VVal) : (c.setV r v).pc = c.pc := rfl
@[simp] theorem Ctx.setV_npc (c : Ctx) (r : VReg) (v : VVal) : (c.setV r v).npc = c.npc := rfl
@[simp] theorem Ctx.setV_ir (c : Ctx) (r : VReg) (v : VVal) : (c.setV r v).ir = c.ir := rfl
@[simp] theorem Ctx.setV_issuedPc (c : Ctx) (r : VReg) (v : VVal) : (c.setV r v).issuedPc = c.issuedPc := rfl
@[simp] theorem Ctx.setV_issuedRep (c : Ctx) (r : VReg) (v : VVal) : (c.setV r v).issuedRep = c.issuedRep := rfl
@[simp] theorem Ctx.setV_x (c : Ctx) (r : VReg) (v : VVal) : (c.setV r v).x = c.x := rfl
@[simp] theorem Ctx.setV_k (c : Ctx) (r : VReg) (v : VVal) : (c.setV r v).k = c.k := rfl
@[simp] theorem Ctx.setV_acc (c : Ctx) (r : VReg) (v : VVal) : (c.setV r v).acc = c.acc := rfl
@[simp] theorem Ctx.setV_handles (c : Ctx) (r : VReg) (v : VVal) : (c.setV r v).handles = c.handles := rfl
@[simp] theorem Ctx.setV_ports (c : Ctx) (r : VReg) (v : VVal) : (c.setV r v).ports = c.ports := rfl
@[simp] theorem Ctx.setV_rep (c : Ctx) (r : VReg) (v : VVal) : (c.setV r v).rep = c.rep := rfl
@[simp] theorem Ctx.setV_fcsr (c : Ctx) (r : VReg) (v : VVal) : (c.setV r v).fcsr = c.fcsr := rfl
@[simp] theorem Ctx.setV_ctxcfg (c : Ctx) (r : VReg) (v : VVal) : (c.setV r v).ctxcfg = c.ctxcfg := rfl
@[simp] theorem Ctx.setV_wofs (c : Ctx) (r : VReg) (v : VVal) : (c.setV r v).wofs = c.wofs := rfl
@[simp] theorem Ctx.setV_pts (c : Ctx) (r : VReg) (v : VVal) : (c.setV r v).pts = c.pts := rfl
@[simp] theorem Ctx.setV_lease (c : Ctx) (r : VReg) (v : VVal) : (c.setV r v).lease = c.lease := rfl
@[simp] theorem Ctx.setV_bartmo (c : Ctx) (r : VReg) (v : VVal) : (c.setV r v).bartmo = c.bartmo := rfl
@[simp] theorem Ctx.setV_unitid (c : Ctx) (r : VReg) (v : VVal) : (c.setV r v).unitid = c.unitid := rfl
@[simp] theorem Ctx.setV_launchid (c : Ctx) (r : VReg) (v : VVal) : (c.setV r v).launchid = c.launchid := rfl
@[simp] theorem Ctx.setV_merrlog (c : Ctx) (r : VReg) (v : VVal) : (c.setV r v).merrlog = c.merrlog := rfl
@[simp] theorem Ctx.setV_merrcnt (c : Ctx) (r : VReg) (v : VVal) : (c.setV r v).merrcnt = c.merrcnt := rfl
@[simp] theorem Ctx.setV_trapcause (c : Ctx) (r : VReg) (v : VVal) : (c.setV r v).trapcause = c.trapcause := rfl
@[simp] theorem Ctx.setV_trappc (c : Ctx) (r : VReg) (v : VVal) : (c.setV r v).trappc = c.trappc := rfl
@[simp] theorem Ctx.setV_trapval (c : Ctx) (r : VReg) (v : VVal) : (c.setV r v).trapval = c.trapval := rfl
@[simp] theorem Ctx.setV_trapvec (c : Ctx) (r : VReg) (v : VVal) : (c.setV r v).trapvec = c.trapvec := rfl
@[simp] theorem Ctx.setV_region (c : Ctx) (r : VReg) (v : VVal) : (c.setV r v).region = c.region := rfl
@[simp] theorem Ctx.setV_pending (c : Ctx) (r : VReg) (v : VVal) : (c.setV r v).pending = c.pending := rfl
@[simp] theorem Ctx.setV_fills (c : Ctx) (r : VReg) (v : VVal) : (c.setV r v).fills = c.fills := rfl
@[simp] theorem Ctx.setV_latch (c : Ctx) (r : VReg) (v : VVal) : (c.setV r v).latch = c.latch := rfl
@[simp] theorem Ctx.setV_record (c : Ctx) (r : VReg) (v : VVal) : (c.setV r v).record = c.record := rfl
@[simp] theorem Ctx.setV_rpts (c : Ctx) (r : VReg) (v : VVal) : (c.setV r v).rpts = c.rpts := rfl
@[simp] theorem Ctx.setV_fetchPts (c : Ctx) (r : VReg) (v : VVal) : (c.setV r v).fetchPts = c.fetchPts := rfl
@[simp] theorem Ctx.setV_answer (c : Ctx) (r : VReg) (v : VVal) : (c.setV r v).answer = c.answer := rfl
@[simp] theorem Ctx.setV_status (c : Ctx) (r : VReg) (v : VVal) : (c.setV r v).status = c.status := rfl

@[simp] theorem Ctx.setK_pc (c : Ctx) (r : KReg) (v : Half) : (c.setK r v).pc = c.pc := by
  unfold Ctx.setK; split <;> rfl
@[simp] theorem Ctx.setK_npc (c : Ctx) (r : KReg) (v : Half) : (c.setK r v).npc = c.npc := by
  unfold Ctx.setK; split <;> rfl
@[simp] theorem Ctx.setK_ir (c : Ctx) (r : KReg) (v : Half) : (c.setK r v).ir = c.ir := by
  unfold Ctx.setK; split <;> rfl
@[simp] theorem Ctx.setK_issuedPc (c : Ctx) (r : KReg) (v : Half) : (c.setK r v).issuedPc = c.issuedPc := by
  unfold Ctx.setK; split <;> rfl
@[simp] theorem Ctx.setK_issuedRep (c : Ctx) (r : KReg) (v : Half) : (c.setK r v).issuedRep = c.issuedRep := by
  unfold Ctx.setK; split <;> rfl
@[simp] theorem Ctx.setK_x (c : Ctx) (r : KReg) (v : Half) : (c.setK r v).x = c.x := by
  unfold Ctx.setK; split <;> rfl
@[simp] theorem Ctx.setK_v (c : Ctx) (r : KReg) (v : Half) : (c.setK r v).v = c.v := by
  unfold Ctx.setK; split <;> rfl
@[simp] theorem Ctx.setK_acc (c : Ctx) (r : KReg) (v : Half) : (c.setK r v).acc = c.acc := by
  unfold Ctx.setK; split <;> rfl
@[simp] theorem Ctx.setK_handles (c : Ctx) (r : KReg) (v : Half) : (c.setK r v).handles = c.handles := by
  unfold Ctx.setK; split <;> rfl
@[simp] theorem Ctx.setK_ports (c : Ctx) (r : KReg) (v : Half) : (c.setK r v).ports = c.ports := by
  unfold Ctx.setK; split <;> rfl
@[simp] theorem Ctx.setK_rep (c : Ctx) (r : KReg) (v : Half) : (c.setK r v).rep = c.rep := by
  unfold Ctx.setK; split <;> rfl
@[simp] theorem Ctx.setK_fcsr (c : Ctx) (r : KReg) (v : Half) : (c.setK r v).fcsr = c.fcsr := by
  unfold Ctx.setK; split <;> rfl
@[simp] theorem Ctx.setK_ctxcfg (c : Ctx) (r : KReg) (v : Half) : (c.setK r v).ctxcfg = c.ctxcfg := by
  unfold Ctx.setK; split <;> rfl
@[simp] theorem Ctx.setK_wofs (c : Ctx) (r : KReg) (v : Half) : (c.setK r v).wofs = c.wofs := by
  unfold Ctx.setK; split <;> rfl
@[simp] theorem Ctx.setK_pts (c : Ctx) (r : KReg) (v : Half) : (c.setK r v).pts = c.pts := by
  unfold Ctx.setK; split <;> rfl
@[simp] theorem Ctx.setK_lease (c : Ctx) (r : KReg) (v : Half) : (c.setK r v).lease = c.lease := by
  unfold Ctx.setK; split <;> rfl
@[simp] theorem Ctx.setK_bartmo (c : Ctx) (r : KReg) (v : Half) : (c.setK r v).bartmo = c.bartmo := by
  unfold Ctx.setK; split <;> rfl
@[simp] theorem Ctx.setK_unitid (c : Ctx) (r : KReg) (v : Half) : (c.setK r v).unitid = c.unitid := by
  unfold Ctx.setK; split <;> rfl
@[simp] theorem Ctx.setK_launchid (c : Ctx) (r : KReg) (v : Half) : (c.setK r v).launchid = c.launchid := by
  unfold Ctx.setK; split <;> rfl
@[simp] theorem Ctx.setK_merrlog (c : Ctx) (r : KReg) (v : Half) : (c.setK r v).merrlog = c.merrlog := by
  unfold Ctx.setK; split <;> rfl
@[simp] theorem Ctx.setK_merrcnt (c : Ctx) (r : KReg) (v : Half) : (c.setK r v).merrcnt = c.merrcnt := by
  unfold Ctx.setK; split <;> rfl
@[simp] theorem Ctx.setK_trapcause (c : Ctx) (r : KReg) (v : Half) : (c.setK r v).trapcause = c.trapcause := by
  unfold Ctx.setK; split <;> rfl
@[simp] theorem Ctx.setK_trappc (c : Ctx) (r : KReg) (v : Half) : (c.setK r v).trappc = c.trappc := by
  unfold Ctx.setK; split <;> rfl
@[simp] theorem Ctx.setK_trapval (c : Ctx) (r : KReg) (v : Half) : (c.setK r v).trapval = c.trapval := by
  unfold Ctx.setK; split <;> rfl
@[simp] theorem Ctx.setK_trapvec (c : Ctx) (r : KReg) (v : Half) : (c.setK r v).trapvec = c.trapvec := by
  unfold Ctx.setK; split <;> rfl
@[simp] theorem Ctx.setK_region (c : Ctx) (r : KReg) (v : Half) : (c.setK r v).region = c.region := by
  unfold Ctx.setK; split <;> rfl
@[simp] theorem Ctx.setK_pending (c : Ctx) (r : KReg) (v : Half) : (c.setK r v).pending = c.pending := by
  unfold Ctx.setK; split <;> rfl
@[simp] theorem Ctx.setK_fills (c : Ctx) (r : KReg) (v : Half) : (c.setK r v).fills = c.fills := by
  unfold Ctx.setK; split <;> rfl
@[simp] theorem Ctx.setK_latch (c : Ctx) (r : KReg) (v : Half) : (c.setK r v).latch = c.latch := by
  unfold Ctx.setK; split <;> rfl
@[simp] theorem Ctx.setK_record (c : Ctx) (r : KReg) (v : Half) : (c.setK r v).record = c.record := by
  unfold Ctx.setK; split <;> rfl
@[simp] theorem Ctx.setK_rpts (c : Ctx) (r : KReg) (v : Half) : (c.setK r v).rpts = c.rpts := by
  unfold Ctx.setK; split <;> rfl
@[simp] theorem Ctx.setK_fetchPts (c : Ctx) (r : KReg) (v : Half) : (c.setK r v).fetchPts = c.fetchPts := by
  unfold Ctx.setK; split <;> rfl
@[simp] theorem Ctx.setK_answer (c : Ctx) (r : KReg) (v : Half) : (c.setK r v).answer = c.answer := by
  unfold Ctx.setK; split <;> rfl
@[simp] theorem Ctx.setK_status (c : Ctx) (r : KReg) (v : Half) : (c.setK r v).status = c.status := by
  unfold Ctx.setK; split <;> rfl

@[simp] theorem Ctx.setAcc_pc (c : Ctx) (r : AccReg) (v : AccVal) : (c.setAcc r v).pc = c.pc := rfl
@[simp] theorem Ctx.setAcc_npc (c : Ctx) (r : AccReg) (v : AccVal) : (c.setAcc r v).npc = c.npc := rfl
@[simp] theorem Ctx.setAcc_ir (c : Ctx) (r : AccReg) (v : AccVal) : (c.setAcc r v).ir = c.ir := rfl
@[simp] theorem Ctx.setAcc_issuedPc (c : Ctx) (r : AccReg) (v : AccVal) : (c.setAcc r v).issuedPc = c.issuedPc := rfl
@[simp] theorem Ctx.setAcc_issuedRep (c : Ctx) (r : AccReg) (v : AccVal) : (c.setAcc r v).issuedRep = c.issuedRep := rfl
@[simp] theorem Ctx.setAcc_x (c : Ctx) (r : AccReg) (v : AccVal) : (c.setAcc r v).x = c.x := rfl
@[simp] theorem Ctx.setAcc_v (c : Ctx) (r : AccReg) (v : AccVal) : (c.setAcc r v).v = c.v := rfl
@[simp] theorem Ctx.setAcc_k (c : Ctx) (r : AccReg) (v : AccVal) : (c.setAcc r v).k = c.k := rfl
@[simp] theorem Ctx.setAcc_handles (c : Ctx) (r : AccReg) (v : AccVal) : (c.setAcc r v).handles = c.handles := rfl
@[simp] theorem Ctx.setAcc_ports (c : Ctx) (r : AccReg) (v : AccVal) : (c.setAcc r v).ports = c.ports := rfl
@[simp] theorem Ctx.setAcc_rep (c : Ctx) (r : AccReg) (v : AccVal) : (c.setAcc r v).rep = c.rep := rfl
@[simp] theorem Ctx.setAcc_fcsr (c : Ctx) (r : AccReg) (v : AccVal) : (c.setAcc r v).fcsr = c.fcsr := rfl
@[simp] theorem Ctx.setAcc_ctxcfg (c : Ctx) (r : AccReg) (v : AccVal) : (c.setAcc r v).ctxcfg = c.ctxcfg := rfl
@[simp] theorem Ctx.setAcc_wofs (c : Ctx) (r : AccReg) (v : AccVal) : (c.setAcc r v).wofs = c.wofs := rfl
@[simp] theorem Ctx.setAcc_pts (c : Ctx) (r : AccReg) (v : AccVal) : (c.setAcc r v).pts = c.pts := rfl
@[simp] theorem Ctx.setAcc_lease (c : Ctx) (r : AccReg) (v : AccVal) : (c.setAcc r v).lease = c.lease := rfl
@[simp] theorem Ctx.setAcc_bartmo (c : Ctx) (r : AccReg) (v : AccVal) : (c.setAcc r v).bartmo = c.bartmo := rfl
@[simp] theorem Ctx.setAcc_unitid (c : Ctx) (r : AccReg) (v : AccVal) : (c.setAcc r v).unitid = c.unitid := rfl
@[simp] theorem Ctx.setAcc_launchid (c : Ctx) (r : AccReg) (v : AccVal) : (c.setAcc r v).launchid = c.launchid := rfl
@[simp] theorem Ctx.setAcc_merrlog (c : Ctx) (r : AccReg) (v : AccVal) : (c.setAcc r v).merrlog = c.merrlog := rfl
@[simp] theorem Ctx.setAcc_merrcnt (c : Ctx) (r : AccReg) (v : AccVal) : (c.setAcc r v).merrcnt = c.merrcnt := rfl
@[simp] theorem Ctx.setAcc_trapcause (c : Ctx) (r : AccReg) (v : AccVal) : (c.setAcc r v).trapcause = c.trapcause := rfl
@[simp] theorem Ctx.setAcc_trappc (c : Ctx) (r : AccReg) (v : AccVal) : (c.setAcc r v).trappc = c.trappc := rfl
@[simp] theorem Ctx.setAcc_trapval (c : Ctx) (r : AccReg) (v : AccVal) : (c.setAcc r v).trapval = c.trapval := rfl
@[simp] theorem Ctx.setAcc_trapvec (c : Ctx) (r : AccReg) (v : AccVal) : (c.setAcc r v).trapvec = c.trapvec := rfl
@[simp] theorem Ctx.setAcc_region (c : Ctx) (r : AccReg) (v : AccVal) : (c.setAcc r v).region = c.region := rfl
@[simp] theorem Ctx.setAcc_pending (c : Ctx) (r : AccReg) (v : AccVal) : (c.setAcc r v).pending = c.pending := rfl
@[simp] theorem Ctx.setAcc_fills (c : Ctx) (r : AccReg) (v : AccVal) : (c.setAcc r v).fills = c.fills := rfl
@[simp] theorem Ctx.setAcc_latch (c : Ctx) (r : AccReg) (v : AccVal) : (c.setAcc r v).latch = c.latch := rfl
@[simp] theorem Ctx.setAcc_record (c : Ctx) (r : AccReg) (v : AccVal) : (c.setAcc r v).record = c.record := rfl
@[simp] theorem Ctx.setAcc_rpts (c : Ctx) (r : AccReg) (v : AccVal) : (c.setAcc r v).rpts = c.rpts := rfl
@[simp] theorem Ctx.setAcc_fetchPts (c : Ctx) (r : AccReg) (v : AccVal) : (c.setAcc r v).fetchPts = c.fetchPts := rfl
@[simp] theorem Ctx.setAcc_answer (c : Ctx) (r : AccReg) (v : AccVal) : (c.setAcc r v).answer = c.answer := rfl
@[simp] theorem Ctx.setAcc_status (c : Ctx) (r : AccReg) (v : AccVal) : (c.setAcc r v).status = c.status := rfl

@[simp] theorem Ctx.setHandle_pc (c : Ctx) (h : Ring) (v : Handle) : (c.setHandle h v).pc = c.pc := rfl
@[simp] theorem Ctx.setHandle_npc (c : Ctx) (h : Ring) (v : Handle) : (c.setHandle h v).npc = c.npc := rfl
@[simp] theorem Ctx.setHandle_ir (c : Ctx) (h : Ring) (v : Handle) : (c.setHandle h v).ir = c.ir := rfl
@[simp] theorem Ctx.setHandle_issuedPc (c : Ctx) (h : Ring) (v : Handle) : (c.setHandle h v).issuedPc = c.issuedPc := rfl
@[simp] theorem Ctx.setHandle_issuedRep (c : Ctx) (h : Ring) (v : Handle) : (c.setHandle h v).issuedRep = c.issuedRep := rfl
@[simp] theorem Ctx.setHandle_x (c : Ctx) (h : Ring) (v : Handle) : (c.setHandle h v).x = c.x := rfl
@[simp] theorem Ctx.setHandle_v (c : Ctx) (h : Ring) (v : Handle) : (c.setHandle h v).v = c.v := rfl
@[simp] theorem Ctx.setHandle_k (c : Ctx) (h : Ring) (v : Handle) : (c.setHandle h v).k = c.k := rfl
@[simp] theorem Ctx.setHandle_acc (c : Ctx) (h : Ring) (v : Handle) : (c.setHandle h v).acc = c.acc := rfl
@[simp] theorem Ctx.setHandle_ports (c : Ctx) (h : Ring) (v : Handle) : (c.setHandle h v).ports = c.ports := rfl
@[simp] theorem Ctx.setHandle_rep (c : Ctx) (h : Ring) (v : Handle) : (c.setHandle h v).rep = c.rep := rfl
@[simp] theorem Ctx.setHandle_fcsr (c : Ctx) (h : Ring) (v : Handle) : (c.setHandle h v).fcsr = c.fcsr := rfl
@[simp] theorem Ctx.setHandle_ctxcfg (c : Ctx) (h : Ring) (v : Handle) : (c.setHandle h v).ctxcfg = c.ctxcfg := rfl
@[simp] theorem Ctx.setHandle_wofs (c : Ctx) (h : Ring) (v : Handle) : (c.setHandle h v).wofs = c.wofs := rfl
@[simp] theorem Ctx.setHandle_pts (c : Ctx) (h : Ring) (v : Handle) : (c.setHandle h v).pts = c.pts := rfl
@[simp] theorem Ctx.setHandle_lease (c : Ctx) (h : Ring) (v : Handle) : (c.setHandle h v).lease = c.lease := rfl
@[simp] theorem Ctx.setHandle_bartmo (c : Ctx) (h : Ring) (v : Handle) : (c.setHandle h v).bartmo = c.bartmo := rfl
@[simp] theorem Ctx.setHandle_unitid (c : Ctx) (h : Ring) (v : Handle) : (c.setHandle h v).unitid = c.unitid := rfl
@[simp] theorem Ctx.setHandle_launchid (c : Ctx) (h : Ring) (v : Handle) : (c.setHandle h v).launchid = c.launchid := rfl
@[simp] theorem Ctx.setHandle_merrlog (c : Ctx) (h : Ring) (v : Handle) : (c.setHandle h v).merrlog = c.merrlog := rfl
@[simp] theorem Ctx.setHandle_merrcnt (c : Ctx) (h : Ring) (v : Handle) : (c.setHandle h v).merrcnt = c.merrcnt := rfl
@[simp] theorem Ctx.setHandle_trapcause (c : Ctx) (h : Ring) (v : Handle) : (c.setHandle h v).trapcause = c.trapcause := rfl
@[simp] theorem Ctx.setHandle_trappc (c : Ctx) (h : Ring) (v : Handle) : (c.setHandle h v).trappc = c.trappc := rfl
@[simp] theorem Ctx.setHandle_trapval (c : Ctx) (h : Ring) (v : Handle) : (c.setHandle h v).trapval = c.trapval := rfl
@[simp] theorem Ctx.setHandle_trapvec (c : Ctx) (h : Ring) (v : Handle) : (c.setHandle h v).trapvec = c.trapvec := rfl
@[simp] theorem Ctx.setHandle_region (c : Ctx) (h : Ring) (v : Handle) : (c.setHandle h v).region = c.region := rfl
@[simp] theorem Ctx.setHandle_pending (c : Ctx) (h : Ring) (v : Handle) : (c.setHandle h v).pending = c.pending := rfl
@[simp] theorem Ctx.setHandle_fills (c : Ctx) (h : Ring) (v : Handle) : (c.setHandle h v).fills = c.fills := rfl
@[simp] theorem Ctx.setHandle_latch (c : Ctx) (h : Ring) (v : Handle) : (c.setHandle h v).latch = c.latch := rfl
@[simp] theorem Ctx.setHandle_record (c : Ctx) (h : Ring) (v : Handle) : (c.setHandle h v).record = c.record := rfl
@[simp] theorem Ctx.setHandle_rpts (c : Ctx) (h : Ring) (v : Handle) : (c.setHandle h v).rpts = c.rpts := rfl
@[simp] theorem Ctx.setHandle_fetchPts (c : Ctx) (h : Ring) (v : Handle) : (c.setHandle h v).fetchPts = c.fetchPts := rfl
@[simp] theorem Ctx.setHandle_answer (c : Ctx) (h : Ring) (v : Handle) : (c.setHandle h v).answer = c.answer := rfl
@[simp] theorem Ctx.setHandle_status (c : Ctx) (h : Ring) (v : Handle) : (c.setHandle h v).status = c.status := rfl

@[simp] theorem Ctx.setPort_pc (c : Ctx) (p : Port) (v : PortSt) : (c.setPort p v).pc = c.pc := rfl
@[simp] theorem Ctx.setPort_npc (c : Ctx) (p : Port) (v : PortSt) : (c.setPort p v).npc = c.npc := rfl
@[simp] theorem Ctx.setPort_ir (c : Ctx) (p : Port) (v : PortSt) : (c.setPort p v).ir = c.ir := rfl
@[simp] theorem Ctx.setPort_issuedPc (c : Ctx) (p : Port) (v : PortSt) : (c.setPort p v).issuedPc = c.issuedPc := rfl
@[simp] theorem Ctx.setPort_issuedRep (c : Ctx) (p : Port) (v : PortSt) : (c.setPort p v).issuedRep = c.issuedRep := rfl
@[simp] theorem Ctx.setPort_x (c : Ctx) (p : Port) (v : PortSt) : (c.setPort p v).x = c.x := rfl
@[simp] theorem Ctx.setPort_v (c : Ctx) (p : Port) (v : PortSt) : (c.setPort p v).v = c.v := rfl
@[simp] theorem Ctx.setPort_k (c : Ctx) (p : Port) (v : PortSt) : (c.setPort p v).k = c.k := rfl
@[simp] theorem Ctx.setPort_acc (c : Ctx) (p : Port) (v : PortSt) : (c.setPort p v).acc = c.acc := rfl
@[simp] theorem Ctx.setPort_handles (c : Ctx) (p : Port) (v : PortSt) : (c.setPort p v).handles = c.handles := rfl
@[simp] theorem Ctx.setPort_rep (c : Ctx) (p : Port) (v : PortSt) : (c.setPort p v).rep = c.rep := rfl
@[simp] theorem Ctx.setPort_fcsr (c : Ctx) (p : Port) (v : PortSt) : (c.setPort p v).fcsr = c.fcsr := rfl
@[simp] theorem Ctx.setPort_ctxcfg (c : Ctx) (p : Port) (v : PortSt) : (c.setPort p v).ctxcfg = c.ctxcfg := rfl
@[simp] theorem Ctx.setPort_wofs (c : Ctx) (p : Port) (v : PortSt) : (c.setPort p v).wofs = c.wofs := rfl
@[simp] theorem Ctx.setPort_pts (c : Ctx) (p : Port) (v : PortSt) : (c.setPort p v).pts = c.pts := rfl
@[simp] theorem Ctx.setPort_lease (c : Ctx) (p : Port) (v : PortSt) : (c.setPort p v).lease = c.lease := rfl
@[simp] theorem Ctx.setPort_bartmo (c : Ctx) (p : Port) (v : PortSt) : (c.setPort p v).bartmo = c.bartmo := rfl
@[simp] theorem Ctx.setPort_unitid (c : Ctx) (p : Port) (v : PortSt) : (c.setPort p v).unitid = c.unitid := rfl
@[simp] theorem Ctx.setPort_launchid (c : Ctx) (p : Port) (v : PortSt) : (c.setPort p v).launchid = c.launchid := rfl
@[simp] theorem Ctx.setPort_merrlog (c : Ctx) (p : Port) (v : PortSt) : (c.setPort p v).merrlog = c.merrlog := rfl
@[simp] theorem Ctx.setPort_merrcnt (c : Ctx) (p : Port) (v : PortSt) : (c.setPort p v).merrcnt = c.merrcnt := rfl
@[simp] theorem Ctx.setPort_trapcause (c : Ctx) (p : Port) (v : PortSt) : (c.setPort p v).trapcause = c.trapcause := rfl
@[simp] theorem Ctx.setPort_trappc (c : Ctx) (p : Port) (v : PortSt) : (c.setPort p v).trappc = c.trappc := rfl
@[simp] theorem Ctx.setPort_trapval (c : Ctx) (p : Port) (v : PortSt) : (c.setPort p v).trapval = c.trapval := rfl
@[simp] theorem Ctx.setPort_trapvec (c : Ctx) (p : Port) (v : PortSt) : (c.setPort p v).trapvec = c.trapvec := rfl
@[simp] theorem Ctx.setPort_region (c : Ctx) (p : Port) (v : PortSt) : (c.setPort p v).region = c.region := rfl
@[simp] theorem Ctx.setPort_pending (c : Ctx) (p : Port) (v : PortSt) : (c.setPort p v).pending = c.pending := rfl
@[simp] theorem Ctx.setPort_fills (c : Ctx) (p : Port) (v : PortSt) : (c.setPort p v).fills = c.fills := rfl
@[simp] theorem Ctx.setPort_latch (c : Ctx) (p : Port) (v : PortSt) : (c.setPort p v).latch = c.latch := rfl
@[simp] theorem Ctx.setPort_record (c : Ctx) (p : Port) (v : PortSt) : (c.setPort p v).record = c.record := rfl
@[simp] theorem Ctx.setPort_rpts (c : Ctx) (p : Port) (v : PortSt) : (c.setPort p v).rpts = c.rpts := rfl
@[simp] theorem Ctx.setPort_fetchPts (c : Ctx) (p : Port) (v : PortSt) : (c.setPort p v).fetchPts = c.fetchPts := rfl
@[simp] theorem Ctx.setPort_answer (c : Ctx) (p : Port) (v : PortSt) : (c.setPort p v).answer = c.answer := rfl
@[simp] theorem Ctx.setPort_status (c : Ctx) (p : Port) (v : PortSt) : (c.setPort p v).status = c.status := rfl

@[simp] theorem Ctx.repNext_npc (c : Ctx) : c.repNext.npc = c.npc := by
  unfold Ctx.repNext; split_ifs <;> rfl
@[simp] theorem Ctx.repNext_ir (c : Ctx) : c.repNext.ir = c.ir := by
  unfold Ctx.repNext; split_ifs <;> rfl
@[simp] theorem Ctx.repNext_issuedPc (c : Ctx) : c.repNext.issuedPc = c.issuedPc := by
  unfold Ctx.repNext; split_ifs <;> rfl
@[simp] theorem Ctx.repNext_issuedRep (c : Ctx) : c.repNext.issuedRep = c.issuedRep := by
  unfold Ctx.repNext; split_ifs <;> rfl
@[simp] theorem Ctx.repNext_x (c : Ctx) : c.repNext.x = c.x := by
  unfold Ctx.repNext; split_ifs <;> rfl
@[simp] theorem Ctx.repNext_v (c : Ctx) : c.repNext.v = c.v := by
  unfold Ctx.repNext; split_ifs <;> rfl
@[simp] theorem Ctx.repNext_k (c : Ctx) : c.repNext.k = c.k := by
  unfold Ctx.repNext; split_ifs <;> rfl
@[simp] theorem Ctx.repNext_acc (c : Ctx) : c.repNext.acc = c.acc := by
  unfold Ctx.repNext; split_ifs <;> rfl
@[simp] theorem Ctx.repNext_handles (c : Ctx) : c.repNext.handles = c.handles := by
  unfold Ctx.repNext; split_ifs <;> rfl
@[simp] theorem Ctx.repNext_ports (c : Ctx) : c.repNext.ports = c.ports := by
  unfold Ctx.repNext; split_ifs <;> rfl
@[simp] theorem Ctx.repNext_fcsr (c : Ctx) : c.repNext.fcsr = c.fcsr := by
  unfold Ctx.repNext; split_ifs <;> rfl
@[simp] theorem Ctx.repNext_ctxcfg (c : Ctx) : c.repNext.ctxcfg = c.ctxcfg := by
  unfold Ctx.repNext; split_ifs <;> rfl
@[simp] theorem Ctx.repNext_wofs (c : Ctx) : c.repNext.wofs = c.wofs := by
  unfold Ctx.repNext; split_ifs <;> rfl
@[simp] theorem Ctx.repNext_pts (c : Ctx) : c.repNext.pts = c.pts := by
  unfold Ctx.repNext; split_ifs <;> rfl
@[simp] theorem Ctx.repNext_lease (c : Ctx) : c.repNext.lease = c.lease := by
  unfold Ctx.repNext; split_ifs <;> rfl
@[simp] theorem Ctx.repNext_bartmo (c : Ctx) : c.repNext.bartmo = c.bartmo := by
  unfold Ctx.repNext; split_ifs <;> rfl
@[simp] theorem Ctx.repNext_unitid (c : Ctx) : c.repNext.unitid = c.unitid := by
  unfold Ctx.repNext; split_ifs <;> rfl
@[simp] theorem Ctx.repNext_launchid (c : Ctx) : c.repNext.launchid = c.launchid := by
  unfold Ctx.repNext; split_ifs <;> rfl
@[simp] theorem Ctx.repNext_merrlog (c : Ctx) : c.repNext.merrlog = c.merrlog := by
  unfold Ctx.repNext; split_ifs <;> rfl
@[simp] theorem Ctx.repNext_merrcnt (c : Ctx) : c.repNext.merrcnt = c.merrcnt := by
  unfold Ctx.repNext; split_ifs <;> rfl
@[simp] theorem Ctx.repNext_trapcause (c : Ctx) : c.repNext.trapcause = c.trapcause := by
  unfold Ctx.repNext; split_ifs <;> rfl
@[simp] theorem Ctx.repNext_trappc (c : Ctx) : c.repNext.trappc = c.trappc := by
  unfold Ctx.repNext; split_ifs <;> rfl
@[simp] theorem Ctx.repNext_trapval (c : Ctx) : c.repNext.trapval = c.trapval := by
  unfold Ctx.repNext; split_ifs <;> rfl
@[simp] theorem Ctx.repNext_trapvec (c : Ctx) : c.repNext.trapvec = c.trapvec := by
  unfold Ctx.repNext; split_ifs <;> rfl
@[simp] theorem Ctx.repNext_region (c : Ctx) : c.repNext.region = c.region := by
  unfold Ctx.repNext; split_ifs <;> rfl
@[simp] theorem Ctx.repNext_pending (c : Ctx) : c.repNext.pending = c.pending := by
  unfold Ctx.repNext; split_ifs <;> rfl
@[simp] theorem Ctx.repNext_fills (c : Ctx) : c.repNext.fills = c.fills := by
  unfold Ctx.repNext; split_ifs <;> rfl
@[simp] theorem Ctx.repNext_latch (c : Ctx) : c.repNext.latch = c.latch := by
  unfold Ctx.repNext; split_ifs <;> rfl
@[simp] theorem Ctx.repNext_record (c : Ctx) : c.repNext.record = c.record := by
  unfold Ctx.repNext; split_ifs <;> rfl
@[simp] theorem Ctx.repNext_rpts (c : Ctx) : c.repNext.rpts = c.rpts := by
  unfold Ctx.repNext; split_ifs <;> rfl
@[simp] theorem Ctx.repNext_fetchPts (c : Ctx) : c.repNext.fetchPts = c.fetchPts := by
  unfold Ctx.repNext; split_ifs <;> rfl
@[simp] theorem Ctx.repNext_answer (c : Ctx) : c.repNext.answer = c.answer := by
  unfold Ctx.repNext; split_ifs <;> rfl
@[simp] theorem Ctx.repNext_status (c : Ctx) : c.repNext.status = c.status := by
  unfold Ctx.repNext; split_ifs <;> rfl

/-- Outside a repetition clause the context goes on to the next address. -/
theorem Ctx.repNext_idle (c : Ctx) (h : c.rep.st ≠ .reissuing) : c.repNext = { c with pc := c.npc } := by
  simp [Ctx.repNext, h]

theorem rotate_val_ne_zero (w : Dword) {r : XReg} (h : r ≠ 0) : (rotate w r).val ≠ 0 := by
  have hr : r.val ≠ 0 := fun e => h (Fin.ext e)
  unfold rotate
  split_ifs with hb
  · show (32 + (r.val - 32 + 16 - w.toNat % 16) % 16) % 64 ≠ 0
    omega
  · exact hr

/-- Two names reach one register only where they are one name (R13). -/
theorem rotate_inj (w : Dword) {a b : XReg} (h : (rotate w a).val = (rotate w b).val) : a = b := by
  apply Fin.ext
  unfold rotate at h
  split_ifs at h with h1 h2 h2
  · change (32 + (a.val - 32 + 16 - w.toNat % 16) % 16) % 64 = (32 + (b.val - 32 + 16 - w.toNat % 16) % 16) % 64 at h
    omega
  · change (32 + (a.val - 32 + 16 - w.toNat % 16) % 16) % 64 = b.val at h
    omega
  · change a.val = (32 + (b.val - 32 + 16 - w.toNat % 16) % 16) % 64 at h
    omega
  · exact h

@[simp] theorem Ctx.getX_zero (c : Ctx) : c.getX 0 = 0#64 := by simp [Ctx.getX]
@[simp] theorem Ctx.setX_zero (c : Ctx) (v : Dword) : c.setX 0 v = c := by simp [Ctx.setX]
theorem Ctx.getX_setX_self (c : Ctx) {r : XReg} (v : Dword) (h : r ≠ 0) : (c.setX r v).getX r = v := by
  simp [Ctx.getX, Ctx.setX, h]
theorem Ctx.getX_setX_ne (c : Ctx) {r q : XReg} (v : Dword) (h : q ≠ r) : (c.setX r v).getX q = c.getX q := by
  unfold Ctx.setX
  split_ifs with hr
  · rfl
  · unfold Ctx.getX
    split_ifs with hq
    · rfl
    · have : (rotate c.wofs r).val ≠ (rotate c.wofs q).val := fun e => h (rotate_inj _ e).symm
      simp [this]
@[simp] theorem Ctx.getV_setV_self (c : Ctx) (r : VReg) (v : VVal) : (c.setV r v).getV r = v := by simp [Ctx.getV, Ctx.setV]
theorem Ctx.getV_setV_ne (c : Ctx) {r q : VReg} (v : VVal) (h : q ≠ r) : (c.setV r v).getV q = c.getV q := by
  have : r.val ≠ q.val := fun e => h (Fin.ext e).symm
  simp [Ctx.getV, Ctx.setV, this]
@[simp] theorem Ctx.getK_zero (c : Ctx) : c.getK 0 = 0xFFFF#16 := by simp [Ctx.getK]
theorem Ctx.getK_setK_self (c : Ctx) {r : KReg} (v : Half) (h : r ≠ 0) : (c.setK r v).getK r = v := by
  simp [Ctx.getK, Ctx.setK, h]
@[simp] theorem Ctx.getX_setV (c : Ctx) (q : XReg) (r : VReg) (v : VVal) : (c.setV r v).getX q = c.getX q := rfl
@[simp] theorem Ctx.getX_setK (c : Ctx) (q : XReg) (r : KReg) (v : Half) : (c.setK r v).getX q = c.getX q := by
  simp [Ctx.getX]
@[simp] theorem Ctx.getV_setX (c : Ctx) (q : VReg) (r : XReg) (v : Dword) : (c.setX r v).getV q = c.getV q := by
  simp [Ctx.getV]
@[simp] theorem Ctx.getV_setK (c : Ctx) (q : VReg) (r : KReg) (v : Half) : (c.setK r v).getV q = c.getV q := by
  simp [Ctx.getV]
@[simp] theorem Ctx.getK_setX (c : Ctx) (q : KReg) (r : XReg) (v : Dword) : (c.setX r v).getK q = c.getK q := by
  simp [Ctx.getK]
@[simp] theorem Ctx.getK_setV (c : Ctx) (q : KReg) (r : VReg) (v : VVal) : (c.setV r v).getK q = c.getK q := rfl
@[simp] theorem Ctx.getX_repNext (c : Ctx) (q : XReg) : c.repNext.getX q = c.getX q := by simp [Ctx.getX]
@[simp] theorem Ctx.getV_repNext (c : Ctx) (q : VReg) : c.repNext.getV q = c.getV q := by simp [Ctx.getV]
@[simp] theorem Ctx.getK_repNext (c : Ctx) (q : KReg) : c.repNext.getK q = c.getK q := by simp [Ctx.getK]

end Sys2Proof.Machine
end

