-- ==== Sys2Proof/Laws/Mem.lean ====
section
/-!
SUPPORT. Memory: every operation over its bytes keeps the canonical form, and reading after writing.
-/
namespace Sys2Proof.Machine

theorem Memory.wf_setByte {s : State} (h : Memory.wf s.mem = true) (a : Nat) (b : Byte) : Memory.wf (s.setByte a b).mem = true :=
  Tab.wf_set unlisted h a b

theorem Memory.wf_setBytes {s : State} (h : Memory.wf s.mem = true) (a : Nat) (bs : List Byte) :
    Memory.wf (s.setBytes a bs).mem = true := by
  induction bs generalizing s a with
  | nil => exact h
  | cons b bs ih => exact ih (Memory.wf_setByte h a b) (a + 1)

theorem Memory.wf_unmark {s : State} (h : Memory.wf s.mem = true) (a n : Nat) : Memory.wf (s.unmark a n).mem = true := h

theorem Memory.wf_mark {s : State} (h : Memory.wf s.mem = true) (a : Nat) : Memory.wf (s.mark a).mem = true := by
  unfold State.mark; split <;> exact h

theorem Memory.wf_store {s : State} (h : Memory.wf s.mem = true) (a : Nat) (bs : List Byte) :
    Memory.wf (s.store a bs).mem = true := Memory.wf_setBytes (Memory.wf_unmark h a bs.length) a bs

theorem Memory.wf_zeroRange {s : State} (h : Memory.wf s.mem = true) (a n : Nat) : Memory.wf (s.zeroRange a n).mem = true :=
  Tab.wf_filter unlisted h _

theorem Memory.wf_reset : Memory.wf State.reset.mem = true := rfl

/-- A byte just written reads as it was written. -/
theorem State.byte_setByte {s : State} (h : Memory.wf s.mem = true) (a : Nat) (b : Byte) : (s.setByte a b).byte a = b := by
  simp only [Memory.wf, Tab.wf, Bool.and_eq_true] at h
  exact Tab.get_set_self unlisted h.1 a b

/-- Every other byte reads as before. -/
theorem State.byte_setByte_ne (s : State) {a b : Nat} (v : Byte) (h : b ≠ a) : (s.setByte a v).byte b = s.byte b :=
  Tab.get_set_ne unlisted s.mem v h

/-- Bytes outside a store read as before it. -/
theorem State.byte_setBytes_out (s : State) {a b : Nat} (bs : List Byte) (h : b < a ∨ a + bs.length ≤ b) :
    (s.setBytes a bs).byte b = s.byte b := by
  induction bs generalizing s a with
  | nil => rfl
  | cons v bs ih =>
    simp only [List.length_cons] at h
    rw [State.setBytes, ih _ (by omega), State.byte_setByte_ne _ _ (by omega)]

@[simp] theorem State.byte_unmark (s : State) (a n b : Nat) : (s.unmark a n).byte b = s.byte b := rfl

theorem State.byte_store_out (s : State) {a b : Nat} (bs : List Byte) (h : b < a ∨ a + bs.length ≤ b) :
    (s.store a bs).byte b = s.byte b := by
  rw [State.store, State.byte_setBytes_out _ _ h, State.byte_unmark]

/-- The bytes just stored read back. -/
theorem State.bytes_setBytes {s : State} (h : Memory.wf s.mem = true) (a : Nat) (bs : List Byte) :
    (s.setBytes a bs).bytes a bs.length = bs := by
  induction bs generalizing s a with
  | nil => rfl
  | cons v bs ih =>
    simp only [List.length_cons, State.setBytes, State.bytes, List.cons.injEq]
    refine ⟨?_, ih (Memory.wf_setByte h a v) (a + 1)⟩
    rw [State.byte_setBytes_out _ _ (by omega), State.byte_setByte h]

theorem State.bytes_store {s : State} (h : Memory.wf s.mem = true) (a : Nat) (bs : List Byte) :
    (s.store a bs).bytes a bs.length = bs := State.bytes_setBytes (Memory.wf_unmark h a bs.length) a bs

theorem bytesOfNat_length (n v : Nat) : (bytesOfNat n v).length = n := by
  induction n generalizing v with
  | zero => rfl
  | succ n ih => simp [bytesOfNat, ih]

/-- The bytes of a number spell the number (R3). -/
theorem natOfBytes_bytesOfNat (n v : Nat) : natOfBytes (bytesOfNat n v) = v % 2 ^ (8 * n) := by
  induction n generalizing v with
  | zero => simp [bytesOfNat, natOfBytes, Nat.mod_one]
  | succ n ih =>
    simp only [bytesOfNat, natOfBytes, ih, BitVec.toNat_ofNat]
    have : 2 ^ (8 * (n + 1)) = 256 * 2 ^ (8 * n) := by rw [Nat.mul_add, Nat.pow_add]; ring
    rw [this, Nat.mod_mul]

theorem State.num_store {s : State} (h : Memory.wf s.mem = true) (a n v : Nat) :
    (s.store a (bytesOfNat n v)).num a n = v % 2 ^ (8 * n) := by
  have hb := State.bytes_store h a (bytesOfNat n v)
  rw [bytesOfNat_length] at hb
  rw [State.num, hb, natOfBytes_bytesOfNat]

end Sys2Proof.Machine
end

