-- ==== Sys2Proof/Laws/Ops.lean ====
section
/-!
SUPPORT. The shared operations: how a meaning ends, reading and writing registers where no port is bound, and the checks.
-/
namespace Sys2Proof.Machine

/-! ## The monad of meanings -/

@[simp] theorem run_bind {α β : Type} (m : Mach α) (f : α → Mach β) (s : State) :
    EStateM.run (m >>= f) s =
      match EStateM.run m s with
      | .ok a t => EStateM.run (f a) t
      | .error e t => .error e t := by
  simp only [EStateM.run, bind, EStateM.bind]
  cases m s <;> rfl
@[simp] theorem run_pure {α : Type} (a : α) (s : State) : EStateM.run (pure a : Mach α) s = .ok a s := rfl
@[simp] theorem run_get (s : State) : EStateM.run (get : Mach State) s = .ok s s := rfl
@[simp] theorem run_set (s t : State) : EStateM.run (set t : Mach Unit) s = .ok () t := rfl
@[simp] theorem run_modify (f : State → State) (s : State) : EStateM.run (modify f : Mach Unit) s = .ok () (f s) := rfl
@[simp] theorem run_throw {α : Type} (e : Exc) (s : State) : EStateM.run (throw e : Mach α) s = .error e s := rfl
@[simp] theorem run_me (s : State) : EStateM.run me s = .ok s.me s := rfl
@[simp] theorem run_modifyMe (f : Ctx → Ctx) (s : State) : EStateM.run (modifyMe f) s = .ok () (s.setMe (f s.me)) := rfl
@[simp] theorem run_myCore (s : State) : EStateM.run myCore s = .ok s.cur.1 s := rfl
@[simp] theorem run_trap {α : Type} (c : Nat) (v : Dword) (s : State) :
    EStateM.run (trap c v : Mach α) s = .error (.trap c v) s := rfl
theorem run_check_true {ok : Bool} (h : ok = true) (c : Nat) (v : Dword) (s : State) :
    EStateM.run (check ok c v) s = .ok () s := by subst h; rfl
theorem run_check_false {ok : Bool} (h : ok = false) (c : Nat) (v : Dword) (s : State) :
    EStateM.run (check ok c v) s = .error (.trap c v) s := by subst h; rfl
@[simp] theorem run_pins (s : State) : EStateM.run pins s = .ok () (s.pinActive s.myKey) := rfl
@[simp] theorem run_raisePts (t : Nat) (s : State) :
    EStateM.run (raisePts t) s = .ok () (s.setMe { s.me with pts := max s.me.pts t }) := rfl

/-! ## Bound ports -/

theorem Ctx.bound_of_anyPort {c : Ctx} (h : c.anyPort = false) (p : Port) : (c.port p).bound = false := by
  simp only [Ctx.anyPort, List.any_eq_false, Vector.mem_toList_iff] at h
  have := h (c.ports[p.val]) (Vector.getElem_mem ..)
  simpa [Ctx.port] using this

/-- Where no port is bound a source register is read by its name. -/
theorem run_readX {s : State} (h : s.me.anyPort = false) (r : XReg) : EStateM.run (readX r) s = .ok (s.me.getX r) s := by
  unfold readX
  cases portOf r with
  | none => rfl
  | some p => simp [Ctx.bound_of_anyPort h p]

/-- Where no port is bound a destination register is written by its name. -/
theorem run_writeX {s : State} (h : s.me.anyPort = false) (r : XReg) (v : Dword) :
    EStateM.run (writeX r v) s = .ok () (s.setMe (s.me.setX r v)) := by
  unfold writeX
  cases portOf r with
  | none => rfl
  | some p => simp [Ctx.bound_of_anyPort h p]

theorem run_canWriteX {s : State} (h : s.me.anyPort = false) (r : XReg) : EStateM.run (canWriteX r) s = .ok () s := by
  unfold canWriteX
  cases portOf r with
  | none => rfl
  | some p => simp [Ctx.bound_of_anyPort h p]

/-! ## How a meaning ends -/

theorem run_sealUp {s : State} (h : s.me.anyPort = false) : EStateM.run sealUp s = .ok () (s.setMe s.me.repNext) := by
  simp [sealUp, commitPorts, h]

/-- A meaning that ends well, with no port bound, is sealed and the context goes on. -/
theorem finish_ok {m : Mach Unit} {s t : State} (h : EStateM.run m s = .ok () t) (hp : t.me.anyPort = false) :
    finish m s = .next (t.setMe t.me.repNext) := by
  simp [finish, h, run_sealUp hp]

/-- A meaning that traps, and is no packet's, leaves its context to the trap; a sluice core's program goes on past a write that a net
pool refuses (R115). -/
theorem finish_trap {m : Mach Unit} {s t : State} {c : Nat} {v : Dword} (h : EStateM.run m s = .error (.trap c v) t)
    (hr : s.run = none) (hc : (decide (c = 0x07) && isSluice (s.myKey / 16)) = false := by rfl) :
    finish m s = .next ((t.setCtxAt s.myKey s.me).takeTrap s.myKey c s.me.pc v) := by
  simp only [finish, run_bind, h, outcomeOf, hr, hc]
  rfl

@[simp] theorem State.setCtxAt_setCtxAt (s : State) (k : Nat) (a b : Ctx) : (s.setCtxAt k a).setCtxAt k b = s.setCtxAt k b := by
  simp [State.setCtxAt]

/-- A trap sees a context as it stands, whether or not it has been written back. -/
theorem State.takeTrap_back (s : State) (k cause : Nat) (pc v : Dword) :
    (s.setCtxAt k (s.ctxAt k)).takeTrap k cause pc v = s.takeTrap k cause pc v := by
  simp [State.takeTrap]

/-- A meaning that traps before it has changed anything. -/
theorem finish_trap_at {m : Mach Unit} {s : State} {c : Nat} {v : Dword} (h : EStateM.run m s = .error (.trap c v) s)
    (hr : s.run = none) (hc : (decide (c = 0x07) && isSluice (s.myKey / 16)) = false := by rfl) :
    finish m s = .next (s.takeTrap s.myKey c s.me.pc v) := by
  rw [finish_trap h hr hc]
  exact congrArg _ (State.takeTrap_back s s.myKey c s.me.pc v)

/-- A meaning that waits in the pipe leaves the machine as it was. -/
theorem finish_retry {m : Mach Unit} {s t : State} (h : EStateM.run m s = .error .retry t) (hr : s.run = none) :
    finish m s = .next s := by
  simp [finish, h, outcomeOf, hr]

/-- A packet's run that leaves its path keeps how, and nothing of it is taken back (R28). -/
theorem finish_run {m : Mach Unit} {s t : State} {e : Exc} {r : PacketRun} (h : EStateM.run m s = .error e t) (hr : s.run = some r) :
    finish m s = .next { t with run := t.run.map fun r => { r with raised := some e } } := by
  simp [finish, h, outcomeOf, hr]

theorem outcomeOf_next (s0 s : State) (e : Exc) : ∃ t, outcomeOf s0 s e = .next t := by
  unfold outcomeOf
  dsimp only
  repeat' split
  all_goals exact ⟨_, rfl⟩

/-- A meaning always ends in a next state. -/
theorem finish_next (m : Mach Unit) (s : State) : ∃ t, finish m s = .next t := by
  unfold finish
  split
  · exact ⟨_, rfl⟩
  · exact outcomeOf_next _ _ _

theorem finishArith_next (m : Mach Unit) (s : State) : ∃ t, finishArith m s = .next t := finish_next _ _

/-- On an arithmetic core a meaning of such cores is the plain one. -/
theorem finishArith_eq {m : Mach Unit} {s : State} (h : isArith s.cur.1 = true) : finishArith m s = finish m s := by
  simp [finishArith, finish, run_check_true h]

/-- On any other core it traps with cause 0x01 (R201). -/
theorem finishArith_other {m : Mach Unit} {s : State} (h : isArith s.cur.1 = false) (hr : s.run = none) :
    finishArith m s = .next (s.takeTrap s.myKey 0x01 s.me.pc s.me.ir) := by
  refine finish_trap_at ?_ hr
  simp [run_check_false h]

theorem finishJump_next (m : Mach Unit) (s : State) : ∃ t, finishJump m s = .next t := by
  unfold finishJump
  split
  · exact ⟨_, rfl⟩
  · exact outcomeOf_next _ _ _

theorem event_next (m : Mach Unit) (s : State) : ∃ t, event m s = .next t := by
  unfold event
  split <;> exact ⟨_, rfl⟩

/-- A step that only changes the state by a function. -/
@[simp] theorem event_modify (f : State → State) (s : State) : event (modify f) s = .next (f s) := rfl

/-- A meaning that only changes the running context, with no port bound after it. -/
theorem finish_me {m : Mach Unit} {s : State} {c : Ctx} (h : EStateM.run m s = .ok () (s.setMe c)) (hp : c.anyPort = false) :
    finish m s = .next (s.setMe c.repNext) := by
  rw [finish_ok h (by simpa using hp)]
  simp

/-- A meaning that names its own next address, with no port bound. -/
theorem finishJump_ok {m : Mach Unit} {s t : State} (h : EStateM.run m s = .ok () t) (hp : t.me.anyPort = false) :
    finishJump m s = .next (t.setMe { t.me with pc := t.me.npc }) := by
  simp [finishJump, sealJump, h, commitPorts, hp]

/-! ## What comes before the seal (R28)

A whole instruction passes these; a packet ends its checks at `leaveWith`, and makes them no more once it is sealed. -/

@[simp] theorem run_sealedNow (s : State) :
    EStateM.run sealedNow s = .ok (s.run.any fun r => r.stage == .effect) s := rfl
theorem run_leaveWith_whole {s : State} (hr : s.run = none) (spans : List Span) : EStateM.run (leaveWith spans) s = .ok () s := by
  simp [leaveWith, hr]
theorem run_leaveWith_checks {s : State} {r : PacketRun} (hr : s.run = some r) (hs : r.stage = .checks) (spans : List Span) :
    EStateM.run (leaveWith spans) s = .error .checked { s with run := some { r with spans := spans } } := by
  simp [leaveWith, hr, hs]
theorem run_leaveWith_past {s : State} {r : PacketRun} (hr : s.run = some r) (hs : r.stage ≠ .checks) (spans : List Span) :
    EStateM.run (leaveWith spans) s = .ok () s := by
  simp [leaveWith, hr, hs]
theorem run_leave_whole {s : State} (hr : s.run = none) : EStateM.run leave s = .ok () s := run_leaveWith_whole hr []
theorem run_beforeSeal_whole {s : State} (hr : s.run = none) (m : Mach Unit) :
    EStateM.run (beforeSeal m) s = EStateM.run m s := by
  simp [beforeSeal, hr]
theorem run_beforeSeal_sealed {s : State} {r : PacketRun} (hr : s.run = some r) (hs : r.stage = .effect) (m : Mach Unit) :
    EStateM.run (beforeSeal m) s = .ok () s := by
  simp [beforeSeal, hr, hs]

/-! ## Instructions of one destination -/

/-- Reads two registers, writes one: the shape of the register operations. -/
theorem finish_binary {s : State} (h : s.me.anyPort = false) (rd rs1 rs2 : XReg) (f : Dword → Dword → Dword) :
    finish (do let a ← readX rs1; let b ← readX rs2; writeX rd (f a b)) s =
      .next (s.setMe (s.me.setX rd (f (s.me.getX rs1) (s.me.getX rs2))).repNext) := by
  have hp : (s.setMe (s.me.setX rd (f (s.me.getX rs1) (s.me.getX rs2)))).me.anyPort = false := by
    simpa [Ctx.anyPort] using h
  rw [finish_ok (t := s.setMe (s.me.setX rd (f (s.me.getX rs1) (s.me.getX rs2)))) _ hp]
  · simp
  · simp [run_readX h, run_writeX h]

end Sys2Proof.Machine
end

