-- ==== Sys2Proof/Laws/PerInstr.lean ====
section
/-!
SUPPORT. The family `Encoding`: for every instruction, decoding the bytes its encoder writes gives the instruction back, with
every operand at every value its encoding admits, and the encoder covers exactly the instructions the table gives a word.
-/
set_option linter.unusedSimpArgs false
set_option linter.unusedVariables false

namespace Sys2Proof.Laws.Encoding

/-- Decoding an instruction's encoding gives the instruction and leaves nothing over. -/
def Statement (i : Instr) : Prop := i.wf = true → ∀ bs, encode i = some bs → decode bs = .ok (i, [])

/-! ## The codes of the sub-fields -/

@[simp] theorem Size.of_code (x : Size) : Size.ofCode x.code = x := by cases x <;> rfl
@[simp] theorem Size.of_three : Size.ofCode 3 = .d := rfl
theorem Size.code_lt (x : Size) : x.code < 4 := by cases x <;> decide
@[simp] theorem Space.of_zero : Space.ofCode 0 = some .global := rfl
@[simp] theorem ElemSize.of_zero : ElemSize.ofCode 0 = some .w := rfl
@[simp] theorem FType.of_zero : FType.ofCode 0 = some .s := rfl
@[simp] theorem Space.of_code (x : Space) : Space.ofCode x.code = some x := by cases x <;> rfl
theorem Space.code_lt (x : Space) : x.code < 8 := by cases x <;> decide
@[simp] theorem Scope.of_code (x : Scope) : Scope.ofCode x.code = some x := by cases x <;> rfl
theorem Scope.code_lt (x : Scope) : x.code < 8 := by cases x <;> decide
theorem core_code : Scope.core.code = 0 := rfl
theorem OpSize.code_lt (x : OpSize) : x.code < 2 := by cases x <;> decide
@[simp] theorem AmoOp.of_code (x : AmoOp) : AmoOp.ofCode x.code = some x := by cases x <;> rfl
theorem AmoOp.code_lt (x : AmoOp) : x.code < 16 := by cases x <;> decide
@[simp] theorem BrineTag.of_code (x : BrineTag) : BrineTag.ofCode x.code = some x := by cases x <;> rfl
theorem BrineTag.code_lt (x : BrineTag) : x.code < 32 := by cases x <;> decide
@[simp] theorem ElemSize.of_code (x : ElemSize) : ElemSize.ofCode x.code = some x := by cases x <;> rfl
theorem ElemSize.code_lt (x : ElemSize) : x.code < 4 := by cases x <;> decide
@[simp] theorem FType.of_code (x : FType) : FType.ofCode x.code = some x := by cases x <;> rfl
theorem FType.code_lt (x : FType) : x.code < 4 := by cases x <;> decide
@[simp] theorem CvtFmt.of_code (x : CvtFmt) : CvtFmt.ofCode x.code = x := by cases x <;> rfl
theorem CvtFmt.code_lt (x : CvtFmt) : x.code < 8 := by cases x <;> decide
@[simp] theorem MatFmt.of_code (x : MatFmt) : MatFmt.ofCode x.code = x := by cases x <;> rfl
theorem MatFmt.code_lt (x : MatFmt) : x.code < 8 := by cases x <;> decide
@[simp] theorem MstFmt.of_code (x : MstFmt) : MstFmt.ofCode x.code = some x := by cases x <;> rfl
theorem MstFmt.code_lt (x : MstFmt) : x.code < 8 := by cases x <;> decide
@[simp] theorem LocalSide.of_code (x : LocalSide) : LocalSide.ofCode x.code = x := by cases x <;> rfl
theorem LocalSide.code_lt (x : LocalSide) : x.code < 4 := by cases x <;> decide
@[simp] theorem RegMode.of_code (x : RegMode) : RegMode.ofCode x.code = some x := by cases x <;> rfl
theorem RegMode.code_lt (x : RegMode) : x.code < 4 := by cases x <;> decide
@[simp] theorem BarKind.of_code (x : BarKind) : BarKind.ofCode x.code = x := by cases x <;> rfl
theorem BarKind.code_lt (x : BarKind) : x.code < 4 := by cases x <;> decide
@[simp] theorem Level.of_code (x : Level) : Level.ofCode x.code = x := by cases x <;> rfl
theorem Level.code_lt (x : Level) : x.code < 4 := by cases x <;> decide

/-! ## Reading fields of a word -/

theorem natOfBytes_bytes4 {w : Nat} (h : w < 2 ^ 32) : natOfBytes (bytesOfNat 4 w) = w := by
  simp only [bytesOfNat, natOfBytes, BitVec.toNat_ofNat]; omega

@[simp] theorem zero_eq {w lo n : Nat} {k : Decoded} (h : bits w lo n = 0) : zero w lo n k = k := by simp [zero, h]
@[simp] theorem allow_of {c : Bool} {e : DecodeError} {k : Decoded} (h : c = true) : allow c e k = k := by simp [allow, h]
@[simp] theorem listed_some {α : Type} (a : α) (k : α → Decoded) : listed (some a) k = k a := rfl

theorem xAt_of {m lo : Nat} {r : XReg} (h : bits m lo 6 = r.val) : xAt m lo = r := Fin.ext h
theorem vAt_of {m lo : Nat} {r : VReg} (h : bits m lo 5 = r.val) : vAt m lo = r := Fin.ext h
theorem kAt_of {m lo : Nat} {r : KReg} (h : bits m lo 3 = r.val) : kAt m lo = r := Fin.ext h
theorem accAt_of {m lo : Nat} {r : AccReg} (h : bits m lo 2 = r.val) : accAt m lo = r := Fin.ext h
theorem nibAt_of {m lo : Nat} {r : Fin 16} (h : bits m lo 4 = r.val) : nibAt m lo = r := Fin.ext h
theorem immAt_of {m lo n : Nat} {i : BitVec n} (h : bits m lo n = i.toNat) : immAt m lo n = i :=
  BitVec.eq_of_toNat_eq ((BitVec.toNat_ofNat _ _).trans h)
theorem bitAt_bool {w i : Nat} {b : Bool} (h : w / 2 ^ i % 2 = b.toNat) : bitAt w i = b := by
  cases b <;> simp_all [bitAt]
theorem bitAt_true {w i : Nat} (h : w / 2 ^ i % 2 = 1) : bitAt w i = true := by simp [bitAt, h]
theorem bitAt_false {w i : Nat} (h : w / 2 ^ i % 2 = 0) : bitAt w i = false := by simp [bitAt, h]

/-! ## Words as lists of fields -/

/-- The number whose fields, lowest first, have these widths and values. -/
def pack : List (Nat × Nat) → Nat
  | [] => 0
  | (n, v) :: r => v + 2 ^ n * pack r

/-- Every field's value fits its width. -/
def Bounded : List (Nat × Nat) → Prop
  | [] => True
  | (n, v) :: r => v < 2 ^ n ∧ Bounded r

/-- The bit at which a field begins. -/
def offset : List (Nat × Nat) → Nat → Nat
  | [], _ => 0
  | _, 0 => 0
  | (n, _) :: r, i + 1 => n + offset r i

/-- The width of some fields from one on, together. -/
def widths : List (Nat × Nat) → Nat → Nat → Nat
  | [], _, _ => 0
  | _, _, 0 => 0
  | (n, _) :: r, 0, k + 1 => n + widths r 0 k
  | _ :: r, i + 1, k + 1 => widths r i (k + 1)

/-- Their value. -/
def values : List (Nat × Nat) → Nat → Nat → Nat
  | [], _, _ => 0
  | _, _, 0 => 0
  | (n, v) :: r, 0, k + 1 => v + 2 ^ n * values r 0 k
  | _ :: r, i + 1, k + 1 => values r i (k + 1)

def width : List (Nat × Nat) → Nat → Nat
  | [], _ => 0
  | (n, _) :: _, 0 => n
  | _ :: r, i + 1 => width r i

def value : List (Nat × Nat) → Nat → Nat
  | [], _ => 0
  | (_, v) :: _, 0 => v
  | _ :: r, i + 1 => value r i

theorem bits_skip {n v x lo w : Nat} (h : v < 2 ^ n) : bits (v + 2 ^ n * x) (n + lo) w = bits x lo w := by
  unfold bits
  rw [Nat.pow_add, ← Nat.div_div_eq_div_mul, Nat.add_mul_div_left _ _ (Nat.two_pow_pos n), Nat.div_eq_of_lt h, Nat.zero_add]

/-- Reading some fields together gives their values, side by side. -/
theorem readSpan {fs : List (Nat × Nat)} (h : Bounded fs) (i k : Nat) :
    bits (pack fs) (offset fs i) (widths fs i k) = values fs i k := by
  induction fs generalizing i k with
  | nil => simp [pack, bits, values]
  | cons f r ih =>
    obtain ⟨n, v⟩ := f
    obtain ⟨hv, hr⟩ := h
    cases k with
    | zero => simp [widths, values, bits, Nat.mod_one]
    | succ k =>
      cases i with
      | zero =>
        have := ih hr 0 k
        have h0 : offset r 0 = 0 := by cases r <;> rfl
        rw [h0] at this
        simp only [bits, Nat.pow_zero, Nat.div_one] at this
        simp only [pack, offset, widths, values, bits, Nat.pow_zero, Nat.div_one]
        rw [Nat.pow_add, Nat.mod_mul, Nat.add_mul_mod_self_left, Nat.mod_eq_of_lt hv, Nat.add_mul_div_left _ _ (Nat.two_pow_pos n),
          Nat.div_eq_of_lt hv, Nat.zero_add, this]
      | succ i => exact (bits_skip hv).trans (ih hr i (k + 1))

/-- Reading a field gives its value. -/
theorem read {fs : List (Nat × Nat)} (h : Bounded fs) (i : Nat) : bits (pack fs) (offset fs i) (width fs i) = value fs i := by
  have := readSpan h i 1
  have hw : widths fs i 1 = width fs i := by
    clear this
    induction fs generalizing i with
    | nil => rfl
    | cons f r ih =>
      cases i with
      | zero => cases r <;> rfl
      | succ i => exact ih h.2 i
  have hv : values fs i 1 = value fs i := by
    clear this hw
    induction fs generalizing i with
    | nil => rfl
    | cons f r ih =>
      cases i with
      | zero => cases r <;> simp [values, value]
      | succ i => exact ih h.2 i
  rw [hw, hv] at this
  exact this

theorem pack_lt {fs : List (Nat × Nat)} (h : Bounded fs) : pack fs < 2 ^ offset fs fs.length := by
  induction fs with
  | nil => decide
  | cons f r ih =>
    obtain ⟨n, v⟩ := f
    have := ih h.2
    simp only [pack, List.length_cons, offset, Nat.pow_add]
    calc v + 2 ^ n * pack r < 2 ^ n + 2 ^ n * pack r := by have := h.1; omega
      _ = 2 ^ n * (pack r + 1) := by ring
      _ ≤ _ := Nat.mul_le_mul_left _ this

/-- An instruction of 32 bits. -/
theorem of_word {i : Instr} {w : Nat} (he : encodeWord i = some w) (hb : encode i = (encodeWord i).map (bytesOfNat 4))
    (hw : w < 2 ^ 32) (ho : w % 2 = 1) (hd : i.wf = true → decodeWord w = .ok i) : Statement i := by
  intro hwf bs h
  rw [hb, he] at h
  obtain rfl : bytesOfNat 4 w = bs := by simpa using h
  have hl : isLong (BitVec.ofNat 8 w).toNat = true := by simp [isLong, bitAt]; omega
  have := natOfBytes_bytes4 hw
  simp only [bytesOfNat] at this ⊢
  simp only [decode, hl, if_true, this, hd hwf]
  rfl

/-- An instruction of 32 bits, its word given by its fields. -/
theorem of_pack {i : Instr} {w : Nat} {fs : List (Nat × Nat)} (hw : w = pack ((1, 1) :: fs)) (hb : Bounded ((1, 1) :: fs))
    (he : encodeWord i = some w) (henc : encode i = (encodeWord i).map (bytesOfNat 4)) (hl : offset fs fs.length = 31)
    (hd : i.wf = true → decodeWord (pack ((1, 1) :: fs)) = .ok i) : Statement i := by
  refine of_word (hw ▸ he) henc ?_ ?_ hd
  · have := pack_lt hb
    rwa [show offset ((1, 1) :: fs) ((1, 1) :: fs).length = 32 by simp [offset, hl]] at this
  · simp only [pack]; omega

end Sys2Proof.Laws.Encoding

namespace Sys2Proof.Laws
open Encoding

/-! ## The instructions -/

theorem Encoding.compactLane (op : Fin 16) (vd vs2 : VReg) : Statement (.compactLane op vd vs2) := by
  intro hwf bs h
  have b0 := op.isLt; have b1 := vd.isLt; have b2 := vs2.isLt
  obtain ⟨m, hm⟩ : ∃ m, m = op.val * 2 ^ 2 + vd.val * 2 ^ 6 + vs2.val * 2 ^ 11 := ⟨_, rfl⟩
  obtain rfl : bytesOfNat 2 m = bs := by simpa [encode, hm] using h
  have hl : isLong (BitVec.ofNat 8 m).toNat = false := by simp [isLong, bitAt]; omega
  have hn : natOfBytes [BitVec.ofNat 8 m, BitVec.ofNat 8 (m / 256)] = m := by
    simp only [natOfBytes, BitVec.toNat_ofNat]; omega
  have h0 : m ≠ 0 := by
    simp only [Instr.wf, Bool.not_eq_true', Bool.and_eq_false_iff, beq_eq_false_iff_ne, ne_eq, Fin.ext_iff] at hwf
    simp only [Fin.val_zero] at hwf
    omega
  have h1 : bits m 0 2 = 0 := by unfold bits; omega
  have h2 : nibAt m 2 = op := Fin.ext (by simp only [nibAt, Fin.val_ofNat]; omega)
  have h3 : vAt m 6 = vd := Fin.ext (by simp only [vAt, Fin.val_ofNat]; omega)
  have h4 : vAt m 11 = vs2 := Fin.ext (by simp only [vAt, Fin.val_ofNat]; omega)
  simp only [bytesOfNat, decode, hl, hn, decodeHalf, if_neg h0, h1, if_true, h2, h3, h4]
  rfl

theorem Encoding.dictionaryReference (index : Fin 1024) (ov : KReg) : Statement (.dictionaryReference index ov) := by
  intro _ bs h
  have b0 := index.isLt; have b1 := ov.isLt
  obtain ⟨m, hm⟩ : ∃ m, m = 2 + index.val * 2 ^ 2 + ov.val * 2 ^ 12 := ⟨_, rfl⟩
  obtain rfl : bytesOfNat 2 m = bs := by simpa [encode, hm] using h
  have hl : isLong (BitVec.ofNat 8 m).toNat = false := by simp [isLong, bitAt]; omega
  have hn : natOfBytes [BitVec.ofNat 8 m, BitVec.ofNat 8 (m / 256)] = m := by
    simp only [natOfBytes, BitVec.toNat_ofNat]; omega
  have h0 : m ≠ 0 := by omega
  have h1 : bits m 0 2 = 2 := by unfold bits; omega
  have h2 : (Fin.ofNat 1024 (m / 2 ^ 2)) = index := Fin.ext (by simp only [Fin.val_ofNat]; omega)
  have h3 : kAt m 12 = ov := Fin.ext (by simp only [kAt, Fin.val_ofNat]; omega)
  have h4 : bits m 15 1 = 0 := by unfold bits; omega
  simp only [bytesOfNat, decode, hl, hn, decodeHalf, if_neg h0, h1, h2, h3, h4]
  rfl

theorem Encoding.add (rd a b : XReg) : Statement (.add rd a b) := by
  have hw : wordR 0x02 0x00 rd a b =
      pack [(1, 1), (6, 2), (6, rd.val), (6, a.val), (6, b.val), (7, 0)] := by simp only [wordR, wordV, wordA, wordE, wordM, word, core_code, Bool.toNat_true, Bool.toNat_false, pack]; omega
  have hb : Bounded [(1, 1), (6, 2), (6, rd.val), (6, a.val), (6, b.val), (7, 0)] :=
    ⟨by decide, by decide, rd.isLt, a.isLt, b.isLt, by decide, trivial⟩
  have key : ∀ m, bits m 1 6 = 2 →
      xAt m 7 = rd →
      xAt m 13 = a →
      xAt m 19 = b →
      bits m 25 7 = 0 →
      decodeWord m = .ok (.add rd a b) := by
    intro m f0 f1 f2 f3 f4
    simp [decodeWord, f0, f1, f2, f3, f4, decodeOp, orderAt, scopeAt, kField, ringCount]
  exact of_pack hw hb rfl rfl rfl fun _ => key _ (read hb 1) (xAt_of (read hb 2)) (xAt_of (read hb 3)) (xAt_of (read hb 4)) (read hb 5)

theorem Encoding.sub (rd a b : XReg) : Statement (.sub rd a b) := by
  have hw : wordR 0x02 0x01 rd a b =
      pack [(1, 1), (6, 2), (6, rd.val), (6, a.val), (6, b.val), (7, 1)] := by simp only [wordR, wordV, wordA, wordE, wordM, word, core_code, Bool.toNat_true, Bool.toNat_false, pack]; omega
  have hb : Bounded [(1, 1), (6, 2), (6, rd.val), (6, a.val), (6, b.val), (7, 1)] :=
    ⟨by decide, by decide, rd.isLt, a.isLt, b.isLt, by decide, trivial⟩
  have key : ∀ m, bits m 1 6 = 2 →
      xAt m 7 = rd →
      xAt m 13 = a →
      xAt m 19 = b →
      bits m 25 7 = 1 →
      decodeWord m = .ok (.sub rd a b) := by
    intro m f0 f1 f2 f3 f4
    simp [decodeWord, f0, f1, f2, f3, f4, decodeOp, orderAt, scopeAt, kField, ringCount]
  exact of_pack hw hb rfl rfl rfl fun _ => key _ (read hb 1) (xAt_of (read hb 2)) (xAt_of (read hb 3)) (xAt_of (read hb 4)) (read hb 5)

theorem Encoding.and (rd a b : XReg) : Statement (.and rd a b) := by
  have hw : wordR 0x02 0x02 rd a b =
      pack [(1, 1), (6, 2), (6, rd.val), (6, a.val), (6, b.val), (7, 2)] := by simp only [wordR, wordV, wordA, wordE, wordM, word, core_code, Bool.toNat_true, Bool.toNat_false, pack]; omega
  have hb : Bounded [(1, 1), (6, 2), (6, rd.val), (6, a.val), (6, b.val), (7, 2)] :=
    ⟨by decide, by decide, rd.isLt, a.isLt, b.isLt, by decide, trivial⟩
  have key : ∀ m, bits m 1 6 = 2 →
      xAt m 7 = rd →
      xAt m 13 = a →
      xAt m 19 = b →
      bits m 25 7 = 2 →
      decodeWord m = .ok (.and rd a b) := by
    intro m f0 f1 f2 f3 f4
    simp [decodeWord, f0, f1, f2, f3, f4, decodeOp, orderAt, scopeAt, kField, ringCount]
  exact of_pack hw hb rfl rfl rfl fun _ => key _ (read hb 1) (xAt_of (read hb 2)) (xAt_of (read hb 3)) (xAt_of (read hb 4)) (read hb 5)

theorem Encoding.or (rd a b : XReg) : Statement (.or rd a b) := by
  have hw : wordR 0x02 0x03 rd a b =
      pack [(1, 1), (6, 2), (6, rd.val), (6, a.val), (6, b.val), (7, 3)] := by simp only [wordR, wordV, wordA, wordE, wordM, word, core_code, Bool.toNat_true, Bool.toNat_false, pack]; omega
  have hb : Bounded [(1, 1), (6, 2), (6, rd.val), (6, a.val), (6, b.val), (7, 3)] :=
    ⟨by decide, by decide, rd.isLt, a.isLt, b.isLt, by decide, trivial⟩
  have key : ∀ m, bits m 1 6 = 2 →
      xAt m 7 = rd →
      xAt m 13 = a →
      xAt m 19 = b →
      bits m 25 7 = 3 →
      decodeWord m = .ok (.or rd a b) := by
    intro m f0 f1 f2 f3 f4
    simp [decodeWord, f0, f1, f2, f3, f4, decodeOp, orderAt, scopeAt, kField, ringCount]
  exact of_pack hw hb rfl rfl rfl fun _ => key _ (read hb 1) (xAt_of (read hb 2)) (xAt_of (read hb 3)) (xAt_of (read hb 4)) (read hb 5)

theorem Encoding.xor (rd a b : XReg) : Statement (.xor rd a b) := by
  have hw : wordR 0x02 0x04 rd a b =
      pack [(1, 1), (6, 2), (6, rd.val), (6, a.val), (6, b.val), (7, 4)] := by simp only [wordR, wordV, wordA, wordE, wordM, word, core_code, Bool.toNat_true, Bool.toNat_false, pack]; omega
  have hb : Bounded [(1, 1), (6, 2), (6, rd.val), (6, a.val), (6, b.val), (7, 4)] :=
    ⟨by decide, by decide, rd.isLt, a.isLt, b.isLt, by decide, trivial⟩
  have key : ∀ m, bits m 1 6 = 2 →
      xAt m 7 = rd →
      xAt m 13 = a →
      xAt m 19 = b →
      bits m 25 7 = 4 →
      decodeWord m = .ok (.xor rd a b) := by
    intro m f0 f1 f2 f3 f4
    simp [decodeWord, f0, f1, f2, f3, f4, decodeOp, orderAt, scopeAt, kField, ringCount]
  exact of_pack hw hb rfl rfl rfl fun _ => key _ (read hb 1) (xAt_of (read hb 2)) (xAt_of (read hb 3)) (xAt_of (read hb 4)) (read hb 5)

theorem Encoding.andn (rd a b : XReg) : Statement (.andn rd a b) := by
  have hw : wordR 0x02 0x05 rd a b =
      pack [(1, 1), (6, 2), (6, rd.val), (6, a.val), (6, b.val), (7, 5)] := by simp only [wordR, wordV, wordA, wordE, wordM, word, core_code, Bool.toNat_true, Bool.toNat_false, pack]; omega
  have hb : Bounded [(1, 1), (6, 2), (6, rd.val), (6, a.val), (6, b.val), (7, 5)] :=
    ⟨by decide, by decide, rd.isLt, a.isLt, b.isLt, by decide, trivial⟩
  have key : ∀ m, bits m 1 6 = 2 →
      xAt m 7 = rd →
      xAt m 13 = a →
      xAt m 19 = b →
      bits m 25 7 = 5 →
      decodeWord m = .ok (.andn rd a b) := by
    intro m f0 f1 f2 f3 f4
    simp [decodeWord, f0, f1, f2, f3, f4, decodeOp, orderAt, scopeAt, kField, ringCount]
  exact of_pack hw hb rfl rfl rfl fun _ => key _ (read hb 1) (xAt_of (read hb 2)) (xAt_of (read hb 3)) (xAt_of (read hb 4)) (read hb 5)

theorem Encoding.sll (rd a b : XReg) : Statement (.sll rd a b) := by
  have hw : wordR 0x02 0x06 rd a b =
      pack [(1, 1), (6, 2), (6, rd.val), (6, a.val), (6, b.val), (7, 6)] := by simp only [wordR, wordV, wordA, wordE, wordM, word, core_code, Bool.toNat_true, Bool.toNat_false, pack]; omega
  have hb : Bounded [(1, 1), (6, 2), (6, rd.val), (6, a.val), (6, b.val), (7, 6)] :=
    ⟨by decide, by decide, rd.isLt, a.isLt, b.isLt, by decide, trivial⟩
  have key : ∀ m, bits m 1 6 = 2 →
      xAt m 7 = rd →
      xAt m 13 = a →
      xAt m 19 = b →
      bits m 25 7 = 6 →
      decodeWord m = .ok (.sll rd a b) := by
    intro m f0 f1 f2 f3 f4
    simp [decodeWord, f0, f1, f2, f3, f4, decodeOp, orderAt, scopeAt, kField, ringCount]
  exact of_pack hw hb rfl rfl rfl fun _ => key _ (read hb 1) (xAt_of (read hb 2)) (xAt_of (read hb 3)) (xAt_of (read hb 4)) (read hb 5)

theorem Encoding.srl (rd a b : XReg) : Statement (.srl rd a b) := by
  have hw : wordR 0x02 0x07 rd a b =
      pack [(1, 1), (6, 2), (6, rd.val), (6, a.val), (6, b.val), (7, 7)] := by simp only [wordR, wordV, wordA, wordE, wordM, word, core_code, Bool.toNat_true, Bool.toNat_false, pack]; omega
  have hb : Bounded [(1, 1), (6, 2), (6, rd.val), (6, a.val), (6, b.val), (7, 7)] :=
    ⟨by decide, by decide, rd.isLt, a.isLt, b.isLt, by decide, trivial⟩
  have key : ∀ m, bits m 1 6 = 2 →
      xAt m 7 = rd →
      xAt m 13 = a →
      xAt m 19 = b →
      bits m 25 7 = 7 →
      decodeWord m = .ok (.srl rd a b) := by
    intro m f0 f1 f2 f3 f4
    simp [decodeWord, f0, f1, f2, f3, f4, decodeOp, orderAt, scopeAt, kField, ringCount]
  exact of_pack hw hb rfl rfl rfl fun _ => key _ (read hb 1) (xAt_of (read hb 2)) (xAt_of (read hb 3)) (xAt_of (read hb 4)) (read hb 5)

theorem Encoding.sra (rd a b : XReg) : Statement (.sra rd a b) := by
  have hw : wordR 0x02 0x08 rd a b =
      pack [(1, 1), (6, 2), (6, rd.val), (6, a.val), (6, b.val), (7, 8)] := by simp only [wordR, wordV, wordA, wordE, wordM, word, core_code, Bool.toNat_true, Bool.toNat_false, pack]; omega
  have hb : Bounded [(1, 1), (6, 2), (6, rd.val), (6, a.val), (6, b.val), (7, 8)] :=
    ⟨by decide, by decide, rd.isLt, a.isLt, b.isLt, by decide, trivial⟩
  have key : ∀ m, bits m 1 6 = 2 →
      xAt m 7 = rd →
      xAt m 13 = a →
      xAt m 19 = b →
      bits m 25 7 = 8 →
      decodeWord m = .ok (.sra rd a b) := by
    intro m f0 f1 f2 f3 f4
    simp [decodeWord, f0, f1, f2, f3, f4, decodeOp, orderAt, scopeAt, kField, ringCount]
  exact of_pack hw hb rfl rfl rfl fun _ => key _ (read hb 1) (xAt_of (read hb 2)) (xAt_of (read hb 3)) (xAt_of (read hb 4)) (read hb 5)

theorem Encoding.slt (rd a b : XReg) : Statement (.slt rd a b) := by
  have hw : wordR 0x02 0x09 rd a b =
      pack [(1, 1), (6, 2), (6, rd.val), (6, a.val), (6, b.val), (7, 9)] := by simp only [wordR, wordV, wordA, wordE, wordM, word, core_code, Bool.toNat_true, Bool.toNat_false, pack]; omega
  have hb : Bounded [(1, 1), (6, 2), (6, rd.val), (6, a.val), (6, b.val), (7, 9)] :=
    ⟨by decide, by decide, rd.isLt, a.isLt, b.isLt, by decide, trivial⟩
  have key : ∀ m, bits m 1 6 = 2 →
      xAt m 7 = rd →
      xAt m 13 = a →
      xAt m 19 = b →
      bits m 25 7 = 9 →
      decodeWord m = .ok (.slt rd a b) := by
    intro m f0 f1 f2 f3 f4
    simp [decodeWord, f0, f1, f2, f3, f4, decodeOp, orderAt, scopeAt, kField, ringCount]
  exact of_pack hw hb rfl rfl rfl fun _ => key _ (read hb 1) (xAt_of (read hb 2)) (xAt_of (read hb 3)) (xAt_of (read hb 4)) (read hb 5)

theorem Encoding.sltu (rd a b : XReg) : Statement (.sltu rd a b) := by
  have hw : wordR 0x02 0x0A rd a b =
      pack [(1, 1), (6, 2), (6, rd.val), (6, a.val), (6, b.val), (7, 10)] := by simp only [wordR, wordV, wordA, wordE, wordM, word, core_code, Bool.toNat_true, Bool.toNat_false, pack]; omega
  have hb : Bounded [(1, 1), (6, 2), (6, rd.val), (6, a.val), (6, b.val), (7, 10)] :=
    ⟨by decide, by decide, rd.isLt, a.isLt, b.isLt, by decide, trivial⟩
  have key : ∀ m, bits m 1 6 = 2 →
      xAt m 7 = rd →
      xAt m 13 = a →
      xAt m 19 = b →
      bits m 25 7 = 10 →
      decodeWord m = .ok (.sltu rd a b) := by
    intro m f0 f1 f2 f3 f4
    simp [decodeWord, f0, f1, f2, f3, f4, decodeOp, orderAt, scopeAt, kField, ringCount]
  exact of_pack hw hb rfl rfl rfl fun _ => key _ (read hb 1) (xAt_of (read hb 2)) (xAt_of (read hb 3)) (xAt_of (read hb 4)) (read hb 5)

theorem Encoding.min (rd a b : XReg) : Statement (.min rd a b) := by
  have hw : wordR 0x02 0x0B rd a b =
      pack [(1, 1), (6, 2), (6, rd.val), (6, a.val), (6, b.val), (7, 11)] := by simp only [wordR, wordV, wordA, wordE, wordM, word, core_code, Bool.toNat_true, Bool.toNat_false, pack]; omega
  have hb : Bounded [(1, 1), (6, 2), (6, rd.val), (6, a.val), (6, b.val), (7, 11)] :=
    ⟨by decide, by decide, rd.isLt, a.isLt, b.isLt, by decide, trivial⟩
  have key : ∀ m, bits m 1 6 = 2 →
      xAt m 7 = rd →
      xAt m 13 = a →
      xAt m 19 = b →
      bits m 25 7 = 11 →
      decodeWord m = .ok (.min rd a b) := by
    intro m f0 f1 f2 f3 f4
    simp [decodeWord, f0, f1, f2, f3, f4, decodeOp, orderAt, scopeAt, kField, ringCount]
  exact of_pack hw hb rfl rfl rfl fun _ => key _ (read hb 1) (xAt_of (read hb 2)) (xAt_of (read hb 3)) (xAt_of (read hb 4)) (read hb 5)

theorem Encoding.max (rd a b : XReg) : Statement (.max rd a b) := by
  have hw : wordR 0x02 0x0C rd a b =
      pack [(1, 1), (6, 2), (6, rd.val), (6, a.val), (6, b.val), (7, 12)] := by simp only [wordR, wordV, wordA, wordE, wordM, word, core_code, Bool.toNat_true, Bool.toNat_false, pack]; omega
  have hb : Bounded [(1, 1), (6, 2), (6, rd.val), (6, a.val), (6, b.val), (7, 12)] :=
    ⟨by decide, by decide, rd.isLt, a.isLt, b.isLt, by decide, trivial⟩
  have key : ∀ m, bits m 1 6 = 2 →
      xAt m 7 = rd →
      xAt m 13 = a →
      xAt m 19 = b →
      bits m 25 7 = 12 →
      decodeWord m = .ok (.max rd a b) := by
    intro m f0 f1 f2 f3 f4
    simp [decodeWord, f0, f1, f2, f3, f4, decodeOp, orderAt, scopeAt, kField, ringCount]
  exact of_pack hw hb rfl rfl rfl fun _ => key _ (read hb 1) (xAt_of (read hb 2)) (xAt_of (read hb 3)) (xAt_of (read hb 4)) (read hb 5)

theorem Encoding.minu (rd a b : XReg) : Statement (.minu rd a b) := by
  have hw : wordR 0x02 0x0D rd a b =
      pack [(1, 1), (6, 2), (6, rd.val), (6, a.val), (6, b.val), (7, 13)] := by simp only [wordR, wordV, wordA, wordE, wordM, word, core_code, Bool.toNat_true, Bool.toNat_false, pack]; omega
  have hb : Bounded [(1, 1), (6, 2), (6, rd.val), (6, a.val), (6, b.val), (7, 13)] :=
    ⟨by decide, by decide, rd.isLt, a.isLt, b.isLt, by decide, trivial⟩
  have key : ∀ m, bits m 1 6 = 2 →
      xAt m 7 = rd →
      xAt m 13 = a →
      xAt m 19 = b →
      bits m 25 7 = 13 →
      decodeWord m = .ok (.minu rd a b) := by
    intro m f0 f1 f2 f3 f4
    simp [decodeWord, f0, f1, f2, f3, f4, decodeOp, orderAt, scopeAt, kField, ringCount]
  exact of_pack hw hb rfl rfl rfl fun _ => key _ (read hb 1) (xAt_of (read hb 2)) (xAt_of (read hb 3)) (xAt_of (read hb 4)) (read hb 5)

theorem Encoding.maxu (rd a b : XReg) : Statement (.maxu rd a b) := by
  have hw : wordR 0x02 0x0E rd a b =
      pack [(1, 1), (6, 2), (6, rd.val), (6, a.val), (6, b.val), (7, 14)] := by simp only [wordR, wordV, wordA, wordE, wordM, word, core_code, Bool.toNat_true, Bool.toNat_false, pack]; omega
  have hb : Bounded [(1, 1), (6, 2), (6, rd.val), (6, a.val), (6, b.val), (7, 14)] :=
    ⟨by decide, by decide, rd.isLt, a.isLt, b.isLt, by decide, trivial⟩
  have key : ∀ m, bits m 1 6 = 2 →
      xAt m 7 = rd →
      xAt m 13 = a →
      xAt m 19 = b →
      bits m 25 7 = 14 →
      decodeWord m = .ok (.maxu rd a b) := by
    intro m f0 f1 f2 f3 f4
    simp [decodeWord, f0, f1, f2, f3, f4, decodeOp, orderAt, scopeAt, kField, ringCount]
  exact of_pack hw hb rfl rfl rfl fun _ => key _ (read hb 1) (xAt_of (read hb 2)) (xAt_of (read hb 3)) (xAt_of (read hb 4)) (read hb 5)

theorem Encoding.sel (rd a b : XReg) : Statement (.sel rd a b) := by
  have hw : wordR 0x02 0x0F rd a b =
      pack [(1, 1), (6, 2), (6, rd.val), (6, a.val), (6, b.val), (7, 15)] := by simp only [wordR, wordV, wordA, wordE, wordM, word, core_code, Bool.toNat_true, Bool.toNat_false, pack]; omega
  have hb : Bounded [(1, 1), (6, 2), (6, rd.val), (6, a.val), (6, b.val), (7, 15)] :=
    ⟨by decide, by decide, rd.isLt, a.isLt, b.isLt, by decide, trivial⟩
  have key : ∀ m, bits m 1 6 = 2 →
      xAt m 7 = rd →
      xAt m 13 = a →
      xAt m 19 = b →
      bits m 25 7 = 15 →
      decodeWord m = .ok (.sel rd a b) := by
    intro m f0 f1 f2 f3 f4
    simp [decodeWord, f0, f1, f2, f3, f4, decodeOp, orderAt, scopeAt, kField, ringCount]
  exact of_pack hw hb rfl rfl rfl fun _ => key _ (read hb 1) (xAt_of (read hb 2)) (xAt_of (read hb 3)) (xAt_of (read hb 4)) (read hb 5)

theorem Encoding.clz (rd a : XReg) : Statement (.clz rd a) := by
  have hw : wordR 0x02 0x10 rd a 0 =
      pack [(1, 1), (6, 2), (6, rd.val), (6, a.val), (6, 0), (7, 16)] := by simp only [wordR, wordV, wordA, wordE, wordM, word, core_code, Bool.toNat_true, Bool.toNat_false, pack]; omega
  have hb : Bounded [(1, 1), (6, 2), (6, rd.val), (6, a.val), (6, 0), (7, 16)] :=
    ⟨by decide, by decide, rd.isLt, a.isLt, by decide, by decide, trivial⟩
  have key : ∀ m, bits m 1 6 = 2 →
      xAt m 7 = rd →
      xAt m 13 = a →
      xAt m 19 = 0 →
      bits m 25 7 = 16 →
      bits m 19 6 = 0 →
      decodeWord m = .ok (.clz rd a) := by
    intro m f0 f1 f2 f3 f4 f5
    simp [decodeWord, f0, f1, f2, f3, f4, f5, decodeOp, orderAt, scopeAt, kField, ringCount]
  exact of_pack hw hb rfl rfl rfl fun _ => key _ (read hb 1) (xAt_of (read hb 2)) (xAt_of (read hb 3)) (xAt_of (read hb 4)) (read hb 5) (read hb 4)

theorem Encoding.ctz (rd a : XReg) : Statement (.ctz rd a) := by
  have hw : wordR 0x02 0x11 rd a 0 =
      pack [(1, 1), (6, 2), (6, rd.val), (6, a.val), (6, 0), (7, 17)] := by simp only [wordR, wordV, wordA, wordE, wordM, word, core_code, Bool.toNat_true, Bool.toNat_false, pack]; omega
  have hb : Bounded [(1, 1), (6, 2), (6, rd.val), (6, a.val), (6, 0), (7, 17)] :=
    ⟨by decide, by decide, rd.isLt, a.isLt, by decide, by decide, trivial⟩
  have key : ∀ m, bits m 1 6 = 2 →
      xAt m 7 = rd →
      xAt m 13 = a →
      xAt m 19 = 0 →
      bits m 25 7 = 17 →
      bits m 19 6 = 0 →
      decodeWord m = .ok (.ctz rd a) := by
    intro m f0 f1 f2 f3 f4 f5
    simp [decodeWord, f0, f1, f2, f3, f4, f5, decodeOp, orderAt, scopeAt, kField, ringCount]
  exact of_pack hw hb rfl rfl rfl fun _ => key _ (read hb 1) (xAt_of (read hb 2)) (xAt_of (read hb 3)) (xAt_of (read hb 4)) (read hb 5) (read hb 4)

theorem Encoding.popc (rd a : XReg) : Statement (.popc rd a) := by
  have hw : wordR 0x02 0x12 rd a 0 =
      pack [(1, 1), (6, 2), (6, rd.val), (6, a.val), (6, 0), (7, 18)] := by simp only [wordR, wordV, wordA, wordE, wordM, word, core_code, Bool.toNat_true, Bool.toNat_false, pack]; omega
  have hb : Bounded [(1, 1), (6, 2), (6, rd.val), (6, a.val), (6, 0), (7, 18)] :=
    ⟨by decide, by decide, rd.isLt, a.isLt, by decide, by decide, trivial⟩
  have key : ∀ m, bits m 1 6 = 2 →
      xAt m 7 = rd →
      xAt m 13 = a →
      xAt m 19 = 0 →
      bits m 25 7 = 18 →
      bits m 19 6 = 0 →
      decodeWord m = .ok (.popc rd a) := by
    intro m f0 f1 f2 f3 f4 f5
    simp [decodeWord, f0, f1, f2, f3, f4, f5, decodeOp, orderAt, scopeAt, kField, ringCount]
  exact of_pack hw hb rfl rfl rfl fun _ => key _ (read hb 1) (xAt_of (read hb 2)) (xAt_of (read hb 3)) (xAt_of (read hb 4)) (read hb 5) (read hb 4)

theorem Encoding.addi (rd a : XReg) (i : BitVec 12) : Statement (.addi rd a i) := by
  have hw : word 0x01 [(7, rd), (13, a), (20, i.toNat)] =
      pack [(1, 1), (6, 1), (6, rd.val), (6, a.val), (1, 0), (12, i.toNat)] := by simp only [wordR, wordV, wordA, wordE, wordM, word, core_code, Bool.toNat_true, Bool.toNat_false, pack]; omega
  have hb : Bounded [(1, 1), (6, 1), (6, rd.val), (6, a.val), (1, 0), (12, i.toNat)] :=
    ⟨by decide, by decide, rd.isLt, a.isLt, by decide, i.isLt, trivial⟩
  have key : ∀ m, bits m 1 6 = 1 →
      xAt m 7 = rd →
      xAt m 13 = a →
      bits m 19 1 = 0 →
      immAt m 20 12 = i →
      decodeWord m = .ok (.addi rd a i) := by
    intro m f0 f1 f2 f3 f4
    simp [decodeWord, f0, f1, f2, f3, f4, decodeOpi, orderAt, scopeAt, kField, ringCount]
  exact of_pack hw hb rfl rfl rfl fun _ => key _ (read hb 1) (xAt_of (read hb 2)) (xAt_of (read hb 3)) (read hb 4) (immAt_of (read hb 5))

theorem Encoding.andi (rd a : XReg) (i : BitVec 9) : Statement (.andi rd a i) := by
  have hw : word 0x01 [(7, rd), (13, a), (19, 1), (20, 0), (23, i.toNat)] =
      pack [(1, 1), (6, 1), (6, rd.val), (6, a.val), (1, 1), (3, 0), (9, i.toNat)] := by simp only [wordR, wordV, wordA, wordE, wordM, word, core_code, Bool.toNat_true, Bool.toNat_false, pack]; omega
  have hb : Bounded [(1, 1), (6, 1), (6, rd.val), (6, a.val), (1, 1), (3, 0), (9, i.toNat)] :=
    ⟨by decide, by decide, rd.isLt, a.isLt, by decide, by decide, i.isLt, trivial⟩
  have key : ∀ m, bits m 1 6 = 1 →
      xAt m 7 = rd →
      xAt m 13 = a →
      bits m 19 1 = 1 →
      bits m 20 3 = 0 →
      immAt m 23 9 = i →
      decodeWord m = .ok (.andi rd a i) := by
    intro m f0 f1 f2 f3 f4 f5
    simp [decodeWord, f0, f1, f2, f3, f4, f5, decodeOpi, orderAt, scopeAt, kField, ringCount]
  exact of_pack hw hb rfl rfl rfl fun _ => key _ (read hb 1) (xAt_of (read hb 2)) (xAt_of (read hb 3)) (read hb 4) (read hb 5) (immAt_of (read hb 6))

theorem Encoding.ori (rd a : XReg) (i : BitVec 9) : Statement (.ori rd a i) := by
  have hw : word 0x01 [(7, rd), (13, a), (19, 1), (20, 1), (23, i.toNat)] =
      pack [(1, 1), (6, 1), (6, rd.val), (6, a.val), (1, 1), (3, 1), (9, i.toNat)] := by simp only [wordR, wordV, wordA, wordE, wordM, word, core_code, Bool.toNat_true, Bool.toNat_false, pack]; omega
  have hb : Bounded [(1, 1), (6, 1), (6, rd.val), (6, a.val), (1, 1), (3, 1), (9, i.toNat)] :=
    ⟨by decide, by decide, rd.isLt, a.isLt, by decide, by decide, i.isLt, trivial⟩
  have key : ∀ m, bits m 1 6 = 1 →
      xAt m 7 = rd →
      xAt m 13 = a →
      bits m 19 1 = 1 →
      bits m 20 3 = 1 →
      immAt m 23 9 = i →
      decodeWord m = .ok (.ori rd a i) := by
    intro m f0 f1 f2 f3 f4 f5
    simp [decodeWord, f0, f1, f2, f3, f4, f5, decodeOpi, orderAt, scopeAt, kField, ringCount]
  exact of_pack hw hb rfl rfl rfl fun _ => key _ (read hb 1) (xAt_of (read hb 2)) (xAt_of (read hb 3)) (read hb 4) (read hb 5) (immAt_of (read hb 6))

theorem Encoding.xori (rd a : XReg) (i : BitVec 9) : Statement (.xori rd a i) := by
  have hw : word 0x01 [(7, rd), (13, a), (19, 1), (20, 2), (23, i.toNat)] =
      pack [(1, 1), (6, 1), (6, rd.val), (6, a.val), (1, 1), (3, 2), (9, i.toNat)] := by simp only [wordR, wordV, wordA, wordE, wordM, word, core_code, Bool.toNat_true, Bool.toNat_false, pack]; omega
  have hb : Bounded [(1, 1), (6, 1), (6, rd.val), (6, a.val), (1, 1), (3, 2), (9, i.toNat)] :=
    ⟨by decide, by decide, rd.isLt, a.isLt, by decide, by decide, i.isLt, trivial⟩
  have key : ∀ m, bits m 1 6 = 1 →
      xAt m 7 = rd →
      xAt m 13 = a →
      bits m 19 1 = 1 →
      bits m 20 3 = 2 →
      immAt m 23 9 = i →
      decodeWord m = .ok (.xori rd a i) := by
    intro m f0 f1 f2 f3 f4 f5
    simp [decodeWord, f0, f1, f2, f3, f4, f5, decodeOpi, orderAt, scopeAt, kField, ringCount]
  exact of_pack hw hb rfl rfl rfl fun _ => key _ (read hb 1) (xAt_of (read hb 2)) (xAt_of (read hb 3)) (read hb 4) (read hb 5) (immAt_of (read hb 6))

theorem Encoding.slti (rd a : XReg) (i : BitVec 9) : Statement (.slti rd a i) := by
  have hw : word 0x01 [(7, rd), (13, a), (19, 1), (20, 3), (23, i.toNat)] =
      pack [(1, 1), (6, 1), (6, rd.val), (6, a.val), (1, 1), (3, 3), (9, i.toNat)] := by simp only [wordR, wordV, wordA, wordE, wordM, word, core_code, Bool.toNat_true, Bool.toNat_false, pack]; omega
  have hb : Bounded [(1, 1), (6, 1), (6, rd.val), (6, a.val), (1, 1), (3, 3), (9, i.toNat)] :=
    ⟨by decide, by decide, rd.isLt, a.isLt, by decide, by decide, i.isLt, trivial⟩
  have key : ∀ m, bits m 1 6 = 1 →
      xAt m 7 = rd →
      xAt m 13 = a →
      bits m 19 1 = 1 →
      bits m 20 3 = 3 →
      immAt m 23 9 = i →
      decodeWord m = .ok (.slti rd a i) := by
    intro m f0 f1 f2 f3 f4 f5
    simp [decodeWord, f0, f1, f2, f3, f4, f5, decodeOpi, orderAt, scopeAt, kField, ringCount]
  exact of_pack hw hb rfl rfl rfl fun _ => key _ (read hb 1) (xAt_of (read hb 2)) (xAt_of (read hb 3)) (read hb 4) (read hb 5) (immAt_of (read hb 6))

theorem Encoding.sltiu (rd a : XReg) (i : BitVec 9) : Statement (.sltiu rd a i) := by
  have hw : word 0x01 [(7, rd), (13, a), (19, 1), (20, 4), (23, i.toNat)] =
      pack [(1, 1), (6, 1), (6, rd.val), (6, a.val), (1, 1), (3, 4), (9, i.toNat)] := by simp only [wordR, wordV, wordA, wordE, wordM, word, core_code, Bool.toNat_true, Bool.toNat_false, pack]; omega
  have hb : Bounded [(1, 1), (6, 1), (6, rd.val), (6, a.val), (1, 1), (3, 4), (9, i.toNat)] :=
    ⟨by decide, by decide, rd.isLt, a.isLt, by decide, by decide, i.isLt, trivial⟩
  have key : ∀ m, bits m 1 6 = 1 →
      xAt m 7 = rd →
      xAt m 13 = a →
      bits m 19 1 = 1 →
      bits m 20 3 = 4 →
      immAt m 23 9 = i →
      decodeWord m = .ok (.sltiu rd a i) := by
    intro m f0 f1 f2 f3 f4 f5
    simp [decodeWord, f0, f1, f2, f3, f4, f5, decodeOpi, orderAt, scopeAt, kField, ringCount]
  exact of_pack hw hb rfl rfl rfl fun _ => key _ (read hb 1) (xAt_of (read hb 2)) (xAt_of (read hb 3)) (read hb 4) (read hb 5) (immAt_of (read hb 6))

theorem Encoding.slli (rd a : XReg) (n : Fin 64) : Statement (.slli rd a n) := by
  have hw : word 0x01 [(7, rd), (13, a), (19, 1), (20, 5), (23, n.val)] =
      pack [(1, 1), (6, 1), (6, rd.val), (6, a.val), (1, 1), (3, 5), (6, n.val), (3, 0)] := by simp only [wordR, wordV, wordA, wordE, wordM, word, core_code, Bool.toNat_true, Bool.toNat_false, pack]; omega
  have hb : Bounded [(1, 1), (6, 1), (6, rd.val), (6, a.val), (1, 1), (3, 5), (6, n.val), (3, 0)] :=
    ⟨by decide, by decide, rd.isLt, a.isLt, by decide, by decide, n.isLt, by decide, trivial⟩
  have key : ∀ m, bits m 1 6 = 1 →
      xAt m 7 = rd →
      xAt m 13 = a →
      bits m 19 1 = 1 →
      bits m 20 3 = 5 →
      bits m 29 3 = 0 →
      xAt m 23 = n →
      decodeWord m = .ok (.slli rd a n) := by
    intro m f0 f1 f2 f3 f4 f5 f6
    simp [decodeWord, f0, f1, f2, f3, f4, f5, f6, decodeOpi, orderAt, scopeAt, kField, ringCount]
  exact of_pack hw hb rfl rfl rfl fun _ => key _ (read hb 1) (xAt_of (read hb 2)) (xAt_of (read hb 3)) (read hb 4) (read hb 5) (read hb 7) (xAt_of (read hb 6))

theorem Encoding.srli (rd a : XReg) (n : Fin 64) : Statement (.srli rd a n) := by
  have hw : word 0x01 [(7, rd), (13, a), (19, 1), (20, 6), (23, n.val)] =
      pack [(1, 1), (6, 1), (6, rd.val), (6, a.val), (1, 1), (3, 6), (6, n.val), (3, 0)] := by simp only [wordR, wordV, wordA, wordE, wordM, word, core_code, Bool.toNat_true, Bool.toNat_false, pack]; omega
  have hb : Bounded [(1, 1), (6, 1), (6, rd.val), (6, a.val), (1, 1), (3, 6), (6, n.val), (3, 0)] :=
    ⟨by decide, by decide, rd.isLt, a.isLt, by decide, by decide, n.isLt, by decide, trivial⟩
  have key : ∀ m, bits m 1 6 = 1 →
      xAt m 7 = rd →
      xAt m 13 = a →
      bits m 19 1 = 1 →
      bits m 20 3 = 6 →
      bits m 29 3 = 0 →
      xAt m 23 = n →
      decodeWord m = .ok (.srli rd a n) := by
    intro m f0 f1 f2 f3 f4 f5 f6
    simp [decodeWord, f0, f1, f2, f3, f4, f5, f6, decodeOpi, orderAt, scopeAt, kField, ringCount]
  exact of_pack hw hb rfl rfl rfl fun _ => key _ (read hb 1) (xAt_of (read hb 2)) (xAt_of (read hb 3)) (read hb 4) (read hb 5) (read hb 7) (xAt_of (read hb 6))

theorem Encoding.srai (rd a : XReg) (n : Fin 64) : Statement (.srai rd a n) := by
  have hw : word 0x01 [(7, rd), (13, a), (19, 1), (20, 7), (23, n.val)] =
      pack [(1, 1), (6, 1), (6, rd.val), (6, a.val), (1, 1), (3, 7), (6, n.val), (3, 0)] := by simp only [wordR, wordV, wordA, wordE, wordM, word, core_code, Bool.toNat_true, Bool.toNat_false, pack]; omega
  have hb : Bounded [(1, 1), (6, 1), (6, rd.val), (6, a.val), (1, 1), (3, 7), (6, n.val), (3, 0)] :=
    ⟨by decide, by decide, rd.isLt, a.isLt, by decide, by decide, n.isLt, by decide, trivial⟩
  have key : ∀ m, bits m 1 6 = 1 →
      xAt m 7 = rd →
      xAt m 13 = a →
      bits m 19 1 = 1 →
      bits m 20 3 = 7 →
      bits m 29 3 = 0 →
      xAt m 23 = n →
      decodeWord m = .ok (.srai rd a n) := by
    intro m f0 f1 f2 f3 f4 f5 f6
    simp [decodeWord, f0, f1, f2, f3, f4, f5, f6, decodeOpi, orderAt, scopeAt, kField, ringCount]
  exact of_pack hw hb rfl rfl rfl fun _ => key _ (read hb 1) (xAt_of (read hb 2)) (xAt_of (read hb 3)) (read hb 4) (read hb 5) (read hb 7) (xAt_of (read hb 6))

theorem Encoding.lui (rd : XReg) (i : BitVec 19) : Statement (.lui rd i) := by
  have hw : word 0x04 [(7, rd), (13, i.toNat)] =
      pack [(1, 1), (6, 4), (6, rd.val), (19, i.toNat)] := by simp only [wordR, wordV, wordA, wordE, wordM, word, core_code, Bool.toNat_true, Bool.toNat_false, pack]; omega
  have hb : Bounded [(1, 1), (6, 4), (6, rd.val), (19, i.toNat)] :=
    ⟨by decide, by decide, rd.isLt, i.isLt, trivial⟩
  have key : ∀ m, bits m 1 6 = 4 →
      xAt m 7 = rd →
      immAt m 13 19 = i →
      decodeWord m = .ok (.lui rd i) := by
    intro m f0 f1 f2
    simp [decodeWord, f0, f1, f2, orderAt, scopeAt, kField, ringCount]
  exact of_pack hw hb rfl rfl rfl fun _ => key _ (read hb 1) (xAt_of (read hb 2)) (immAt_of (read hb 3))

theorem Encoding.addpc (rd : XReg) (i : BitVec 19) : Statement (.addpc rd i) := by
  have hw : word 0x05 [(7, rd), (13, i.toNat)] =
      pack [(1, 1), (6, 5), (6, rd.val), (19, i.toNat)] := by simp only [wordR, wordV, wordA, wordE, wordM, word, core_code, Bool.toNat_true, Bool.toNat_false, pack]; omega
  have hb : Bounded [(1, 1), (6, 5), (6, rd.val), (19, i.toNat)] :=
    ⟨by decide, by decide, rd.isLt, i.isLt, trivial⟩
  have key : ∀ m, bits m 1 6 = 5 →
      xAt m 7 = rd →
      immAt m 13 19 = i →
      decodeWord m = .ok (.addpc rd i) := by
    intro m f0 f1 f2
    simp [decodeWord, f0, f1, f2, orderAt, scopeAt, kField, ringCount]
  exact of_pack hw hb rfl rfl rfl fun _ => key _ (read hb 1) (xAt_of (read hb 2)) (immAt_of (read hb 3))

theorem Encoding.mul (rd a b : XReg) (w' : Bool) : Statement (.mul rd a b w') := by
  have hw : wordR 0x03 (0 + 8 * w'.toNat) rd a b =
      pack [(1, 1), (6, 3), (6, rd.val), (6, a.val), (6, b.val), (3, 0), (1, w'.toNat), (3, 0)] := by simp only [wordR, wordV, wordA, wordE, wordM, word, core_code, Bool.toNat_true, Bool.toNat_false, pack]; omega
  have hb : Bounded [(1, 1), (6, 3), (6, rd.val), (6, a.val), (6, b.val), (3, 0), (1, w'.toNat), (3, 0)] :=
    ⟨by decide, by decide, rd.isLt, a.isLt, b.isLt, by decide, Bool.toNat_lt w', by decide, trivial⟩
  have key : ∀ m, bits m 1 6 = 3 →
      xAt m 7 = rd →
      xAt m 13 = a →
      xAt m 19 = b →
      bitAt m 28 = w' →
      bits m 29 3 = 0 →
      bits m 25 3 = 0 →
      decodeWord m = .ok (.mul rd a b w') := by
    intro m f0 f1 f2 f3 f4 f5 f6
    simp [decodeWord, f0, f1, f2, f3, f4, f5, f6, decodeMuldiv, orderAt, scopeAt, kField, ringCount]
  exact of_pack hw hb rfl rfl rfl fun _ => key _ (read hb 1) (xAt_of (read hb 2)) (xAt_of (read hb 3)) (xAt_of (read hb 4)) (bitAt_bool (read hb 6)) (read hb 7) (read hb 5)

theorem Encoding.mulh (rd a b : XReg) : Statement (.mulh rd a b) := by
  have hw : wordR 0x03 1 rd a b =
      pack [(1, 1), (6, 3), (6, rd.val), (6, a.val), (6, b.val), (3, 1), (1, 0), (3, 0)] := by simp only [wordR, wordV, wordA, wordE, wordM, word, core_code, Bool.toNat_true, Bool.toNat_false, pack]; omega
  have hb : Bounded [(1, 1), (6, 3), (6, rd.val), (6, a.val), (6, b.val), (3, 1), (1, 0), (3, 0)] :=
    ⟨by decide, by decide, rd.isLt, a.isLt, b.isLt, by decide, by decide, by decide, trivial⟩
  have key : ∀ m, bits m 1 6 = 3 →
      xAt m 7 = rd →
      xAt m 13 = a →
      xAt m 19 = b →
      bitAt m 28 = false →
      bits m 29 3 = 0 →
      bits m 25 3 = 1 →
      decodeWord m = .ok (.mulh rd a b) := by
    intro m f0 f1 f2 f3 f4 f5 f6
    simp [decodeWord, f0, f1, f2, f3, f4, f5, f6, decodeMuldiv, orderAt, scopeAt, kField, ringCount]
  exact of_pack hw hb rfl rfl rfl fun _ => key _ (read hb 1) (xAt_of (read hb 2)) (xAt_of (read hb 3)) (xAt_of (read hb 4)) (bitAt_false (read hb 6)) (read hb 7) (read hb 5)

theorem Encoding.mulhu (rd a b : XReg) : Statement (.mulhu rd a b) := by
  have hw : wordR 0x03 2 rd a b =
      pack [(1, 1), (6, 3), (6, rd.val), (6, a.val), (6, b.val), (3, 2), (1, 0), (3, 0)] := by simp only [wordR, wordV, wordA, wordE, wordM, word, core_code, Bool.toNat_true, Bool.toNat_false, pack]; omega
  have hb : Bounded [(1, 1), (6, 3), (6, rd.val), (6, a.val), (6, b.val), (3, 2), (1, 0), (3, 0)] :=
    ⟨by decide, by decide, rd.isLt, a.isLt, b.isLt, by decide, by decide, by decide, trivial⟩
  have key : ∀ m, bits m 1 6 = 3 →
      xAt m 7 = rd →
      xAt m 13 = a →
      xAt m 19 = b →
      bitAt m 28 = false →
      bits m 29 3 = 0 →
      bits m 25 3 = 2 →
      decodeWord m = .ok (.mulhu rd a b) := by
    intro m f0 f1 f2 f3 f4 f5 f6
    simp [decodeWord, f0, f1, f2, f3, f4, f5, f6, decodeMuldiv, orderAt, scopeAt, kField, ringCount]
  exact of_pack hw hb rfl rfl rfl fun _ => key _ (read hb 1) (xAt_of (read hb 2)) (xAt_of (read hb 3)) (xAt_of (read hb 4)) (bitAt_false (read hb 6)) (read hb 7) (read hb 5)

theorem Encoding.div (rd a b : XReg) (w' : Bool) : Statement (.div rd a b w') := by
  have hw : wordR 0x03 (3 + 8 * w'.toNat) rd a b =
      pack [(1, 1), (6, 3), (6, rd.val), (6, a.val), (6, b.val), (3, 3), (1, w'.toNat), (3, 0)] := by simp only [wordR, wordV, wordA, wordE, wordM, word, core_code, Bool.toNat_true, Bool.toNat_false, pack]; omega
  have hb : Bounded [(1, 1), (6, 3), (6, rd.val), (6, a.val), (6, b.val), (3, 3), (1, w'.toNat), (3, 0)] :=
    ⟨by decide, by decide, rd.isLt, a.isLt, b.isLt, by decide, Bool.toNat_lt w', by decide, trivial⟩
  have key : ∀ m, bits m 1 6 = 3 →
      xAt m 7 = rd →
      xAt m 13 = a →
      xAt m 19 = b →
      bitAt m 28 = w' →
      bits m 29 3 = 0 →
      bits m 25 3 = 3 →
      decodeWord m = .ok (.div rd a b w') := by
    intro m f0 f1 f2 f3 f4 f5 f6
    simp [decodeWord, f0, f1, f2, f3, f4, f5, f6, decodeMuldiv, orderAt, scopeAt, kField, ringCount]
  exact of_pack hw hb rfl rfl rfl fun _ => key _ (read hb 1) (xAt_of (read hb 2)) (xAt_of (read hb 3)) (xAt_of (read hb 4)) (bitAt_bool (read hb 6)) (read hb 7) (read hb 5)

theorem Encoding.divu (rd a b : XReg) (w' : Bool) : Statement (.divu rd a b w') := by
  have hw : wordR 0x03 (4 + 8 * w'.toNat) rd a b =
      pack [(1, 1), (6, 3), (6, rd.val), (6, a.val), (6, b.val), (3, 4), (1, w'.toNat), (3, 0)] := by simp only [wordR, wordV, wordA, wordE, wordM, word, core_code, Bool.toNat_true, Bool.toNat_false, pack]; omega
  have hb : Bounded [(1, 1), (6, 3), (6, rd.val), (6, a.val), (6, b.val), (3, 4), (1, w'.toNat), (3, 0)] :=
    ⟨by decide, by decide, rd.isLt, a.isLt, b.isLt, by decide, Bool.toNat_lt w', by decide, trivial⟩
  have key : ∀ m, bits m 1 6 = 3 →
      xAt m 7 = rd →
      xAt m 13 = a →
      xAt m 19 = b →
      bitAt m 28 = w' →
      bits m 29 3 = 0 →
      bits m 25 3 = 4 →
      decodeWord m = .ok (.divu rd a b w') := by
    intro m f0 f1 f2 f3 f4 f5 f6
    simp [decodeWord, f0, f1, f2, f3, f4, f5, f6, decodeMuldiv, orderAt, scopeAt, kField, ringCount]
  exact of_pack hw hb rfl rfl rfl fun _ => key _ (read hb 1) (xAt_of (read hb 2)) (xAt_of (read hb 3)) (xAt_of (read hb 4)) (bitAt_bool (read hb 6)) (read hb 7) (read hb 5)

theorem Encoding.rem (rd a b : XReg) (w' : Bool) : Statement (.rem rd a b w') := by
  have hw : wordR 0x03 (5 + 8 * w'.toNat) rd a b =
      pack [(1, 1), (6, 3), (6, rd.val), (6, a.val), (6, b.val), (3, 5), (1, w'.toNat), (3, 0)] := by simp only [wordR, wordV, wordA, wordE, wordM, word, core_code, Bool.toNat_true, Bool.toNat_false, pack]; omega
  have hb : Bounded [(1, 1), (6, 3), (6, rd.val), (6, a.val), (6, b.val), (3, 5), (1, w'.toNat), (3, 0)] :=
    ⟨by decide, by decide, rd.isLt, a.isLt, b.isLt, by decide, Bool.toNat_lt w', by decide, trivial⟩
  have key : ∀ m, bits m 1 6 = 3 →
      xAt m 7 = rd →
      xAt m 13 = a →
      xAt m 19 = b →
      bitAt m 28 = w' →
      bits m 29 3 = 0 →
      bits m 25 3 = 5 →
      decodeWord m = .ok (.rem rd a b w') := by
    intro m f0 f1 f2 f3 f4 f5 f6
    simp [decodeWord, f0, f1, f2, f3, f4, f5, f6, decodeMuldiv, orderAt, scopeAt, kField, ringCount]
  exact of_pack hw hb rfl rfl rfl fun _ => key _ (read hb 1) (xAt_of (read hb 2)) (xAt_of (read hb 3)) (xAt_of (read hb 4)) (bitAt_bool (read hb 6)) (read hb 7) (read hb 5)

theorem Encoding.remu (rd a b : XReg) (w' : Bool) : Statement (.remu rd a b w') := by
  have hw : wordR 0x03 (6 + 8 * w'.toNat) rd a b =
      pack [(1, 1), (6, 3), (6, rd.val), (6, a.val), (6, b.val), (3, 6), (1, w'.toNat), (3, 0)] := by simp only [wordR, wordV, wordA, wordE, wordM, word, core_code, Bool.toNat_true, Bool.toNat_false, pack]; omega
  have hb : Bounded [(1, 1), (6, 3), (6, rd.val), (6, a.val), (6, b.val), (3, 6), (1, w'.toNat), (3, 0)] :=
    ⟨by decide, by decide, rd.isLt, a.isLt, b.isLt, by decide, Bool.toNat_lt w', by decide, trivial⟩
  have key : ∀ m, bits m 1 6 = 3 →
      xAt m 7 = rd →
      xAt m 13 = a →
      xAt m 19 = b →
      bitAt m 28 = w' →
      bits m 29 3 = 0 →
      bits m 25 3 = 6 →
      decodeWord m = .ok (.remu rd a b w') := by
    intro m f0 f1 f2 f3 f4 f5 f6
    simp [decodeWord, f0, f1, f2, f3, f4, f5, f6, decodeMuldiv, orderAt, scopeAt, kField, ringCount]
  exact of_pack hw hb rfl rfl rfl fun _ => key _ (read hb 1) (xAt_of (read hb 2)) (xAt_of (read hb 3)) (xAt_of (read hb 4)) (bitAt_bool (read hb 6)) (read hb 7) (read hb 5)

theorem Encoding.beq (a b : XReg) (o : BitVec 10) : Statement (.beq a b o) := by
  have hw : word 0x06 [(7, a), (13, b), (19, 0), (22, o.toNat)] =
      pack [(1, 1), (6, 6), (6, a.val), (6, b.val), (3, 0), (10, o.toNat)] := by simp only [wordR, wordV, wordA, wordE, wordM, word, core_code, Bool.toNat_true, Bool.toNat_false, pack]; omega
  have hb : Bounded [(1, 1), (6, 6), (6, a.val), (6, b.val), (3, 0), (10, o.toNat)] :=
    ⟨by decide, by decide, a.isLt, b.isLt, by decide, o.isLt, trivial⟩
  have key : ∀ m, bits m 1 6 = 6 →
      xAt m 7 = a →
      xAt m 13 = b →
      immAt m 22 10 = o →
      bits m 19 3 = 0 →
      decodeWord m = .ok (.beq a b o) := by
    intro m f0 f1 f2 f3 f4
    simp [decodeWord, f0, f1, f2, f3, f4, decodeBranch, orderAt, scopeAt, kField, ringCount]
  exact of_pack hw hb rfl rfl rfl fun _ => key _ (read hb 1) (xAt_of (read hb 2)) (xAt_of (read hb 3)) (immAt_of (read hb 5)) (read hb 4)

theorem Encoding.bne (a b : XReg) (o : BitVec 10) : Statement (.bne a b o) := by
  have hw : word 0x06 [(7, a), (13, b), (19, 1), (22, o.toNat)] =
      pack [(1, 1), (6, 6), (6, a.val), (6, b.val), (3, 1), (10, o.toNat)] := by simp only [wordR, wordV, wordA, wordE, wordM, word, core_code, Bool.toNat_true, Bool.toNat_false, pack]; omega
  have hb : Bounded [(1, 1), (6, 6), (6, a.val), (6, b.val), (3, 1), (10, o.toNat)] :=
    ⟨by decide, by decide, a.isLt, b.isLt, by decide, o.isLt, trivial⟩
  have key : ∀ m, bits m 1 6 = 6 →
      xAt m 7 = a →
      xAt m 13 = b →
      immAt m 22 10 = o →
      bits m 19 3 = 1 →
      decodeWord m = .ok (.bne a b o) := by
    intro m f0 f1 f2 f3 f4
    simp [decodeWord, f0, f1, f2, f3, f4, decodeBranch, orderAt, scopeAt, kField, ringCount]
  exact of_pack hw hb rfl rfl rfl fun _ => key _ (read hb 1) (xAt_of (read hb 2)) (xAt_of (read hb 3)) (immAt_of (read hb 5)) (read hb 4)

theorem Encoding.blt (a b : XReg) (o : BitVec 10) : Statement (.blt a b o) := by
  have hw : word 0x06 [(7, a), (13, b), (19, 4), (22, o.toNat)] =
      pack [(1, 1), (6, 6), (6, a.val), (6, b.val), (3, 4), (10, o.toNat)] := by simp only [wordR, wordV, wordA, wordE, wordM, word, core_code, Bool.toNat_true, Bool.toNat_false, pack]; omega
  have hb : Bounded [(1, 1), (6, 6), (6, a.val), (6, b.val), (3, 4), (10, o.toNat)] :=
    ⟨by decide, by decide, a.isLt, b.isLt, by decide, o.isLt, trivial⟩
  have key : ∀ m, bits m 1 6 = 6 →
      xAt m 7 = a →
      xAt m 13 = b →
      immAt m 22 10 = o →
      bits m 19 3 = 4 →
      decodeWord m = .ok (.blt a b o) := by
    intro m f0 f1 f2 f3 f4
    simp [decodeWord, f0, f1, f2, f3, f4, decodeBranch, orderAt, scopeAt, kField, ringCount]
  exact of_pack hw hb rfl rfl rfl fun _ => key _ (read hb 1) (xAt_of (read hb 2)) (xAt_of (read hb 3)) (immAt_of (read hb 5)) (read hb 4)

theorem Encoding.bge (a b : XReg) (o : BitVec 10) : Statement (.bge a b o) := by
  have hw : word 0x06 [(7, a), (13, b), (19, 5), (22, o.toNat)] =
      pack [(1, 1), (6, 6), (6, a.val), (6, b.val), (3, 5), (10, o.toNat)] := by simp only [wordR, wordV, wordA, wordE, wordM, word, core_code, Bool.toNat_true, Bool.toNat_false, pack]; omega
  have hb : Bounded [(1, 1), (6, 6), (6, a.val), (6, b.val), (3, 5), (10, o.toNat)] :=
    ⟨by decide, by decide, a.isLt, b.isLt, by decide, o.isLt, trivial⟩
  have key : ∀ m, bits m 1 6 = 6 →
      xAt m 7 = a →
      xAt m 13 = b →
      immAt m 22 10 = o →
      bits m 19 3 = 5 →
      decodeWord m = .ok (.bge a b o) := by
    intro m f0 f1 f2 f3 f4
    simp [decodeWord, f0, f1, f2, f3, f4, decodeBranch, orderAt, scopeAt, kField, ringCount]
  exact of_pack hw hb rfl rfl rfl fun _ => key _ (read hb 1) (xAt_of (read hb 2)) (xAt_of (read hb 3)) (immAt_of (read hb 5)) (read hb 4)

theorem Encoding.bltu (a b : XReg) (o : BitVec 10) : Statement (.bltu a b o) := by
  have hw : word 0x06 [(7, a), (13, b), (19, 6), (22, o.toNat)] =
      pack [(1, 1), (6, 6), (6, a.val), (6, b.val), (3, 6), (10, o.toNat)] := by simp only [wordR, wordV, wordA, wordE, wordM, word, core_code, Bool.toNat_true, Bool.toNat_false, pack]; omega
  have hb : Bounded [(1, 1), (6, 6), (6, a.val), (6, b.val), (3, 6), (10, o.toNat)] :=
    ⟨by decide, by decide, a.isLt, b.isLt, by decide, o.isLt, trivial⟩
  have key : ∀ m, bits m 1 6 = 6 →
      xAt m 7 = a →
      xAt m 13 = b →
      immAt m 22 10 = o →
      bits m 19 3 = 6 →
      decodeWord m = .ok (.bltu a b o) := by
    intro m f0 f1 f2 f3 f4
    simp [decodeWord, f0, f1, f2, f3, f4, decodeBranch, orderAt, scopeAt, kField, ringCount]
  exact of_pack hw hb rfl rfl rfl fun _ => key _ (read hb 1) (xAt_of (read hb 2)) (xAt_of (read hb 3)) (immAt_of (read hb 5)) (read hb 4)

theorem Encoding.bgeu (a b : XReg) (o : BitVec 10) : Statement (.bgeu a b o) := by
  have hw : word 0x06 [(7, a), (13, b), (19, 7), (22, o.toNat)] =
      pack [(1, 1), (6, 6), (6, a.val), (6, b.val), (3, 7), (10, o.toNat)] := by simp only [wordR, wordV, wordA, wordE, wordM, word, core_code, Bool.toNat_true, Bool.toNat_false, pack]; omega
  have hb : Bounded [(1, 1), (6, 6), (6, a.val), (6, b.val), (3, 7), (10, o.toNat)] :=
    ⟨by decide, by decide, a.isLt, b.isLt, by decide, o.isLt, trivial⟩
  have key : ∀ m, bits m 1 6 = 6 →
      xAt m 7 = a →
      xAt m 13 = b →
      immAt m 22 10 = o →
      bits m 19 3 = 7 →
      decodeWord m = .ok (.bgeu a b o) := by
    intro m f0 f1 f2 f3 f4
    simp [decodeWord, f0, f1, f2, f3, f4, decodeBranch, orderAt, scopeAt, kField, ringCount]
  exact of_pack hw hb rfl rfl rfl fun _ => key _ (read hb 1) (xAt_of (read hb 2)) (xAt_of (read hb 3)) (immAt_of (read hb 5)) (read hb 4)

theorem Encoding.jal (rd : XReg) (i : BitVec 19) : Statement (.jal rd i) := by
  have hw : word 0x07 [(7, rd), (13, i.toNat)] =
      pack [(1, 1), (6, 7), (6, rd.val), (19, i.toNat)] := by simp only [wordR, wordV, wordA, wordE, wordM, word, core_code, Bool.toNat_true, Bool.toNat_false, pack]; omega
  have hb : Bounded [(1, 1), (6, 7), (6, rd.val), (19, i.toNat)] :=
    ⟨by decide, by decide, rd.isLt, i.isLt, trivial⟩
  have key : ∀ m, bits m 1 6 = 7 →
      xAt m 7 = rd →
      immAt m 13 19 = i →
      decodeWord m = .ok (.jal rd i) := by
    intro m f0 f1 f2
    simp [decodeWord, f0, f1, f2, orderAt, scopeAt, kField, ringCount]
  exact of_pack hw hb rfl rfl rfl fun _ => key _ (read hb 1) (xAt_of (read hb 2)) (immAt_of (read hb 3))

theorem Encoding.jalr (rd a : XReg) (i : BitVec 13) : Statement (.jalr rd a i) := by
  have hw : word 0x08 [(7, rd), (13, a), (19, i.toNat)] =
      pack [(1, 1), (6, 8), (6, rd.val), (6, a.val), (13, i.toNat)] := by simp only [wordR, wordV, wordA, wordE, wordM, word, core_code, Bool.toNat_true, Bool.toNat_false, pack]; omega
  have hb : Bounded [(1, 1), (6, 8), (6, rd.val), (6, a.val), (13, i.toNat)] :=
    ⟨by decide, by decide, rd.isLt, a.isLt, i.isLt, trivial⟩
  have key : ∀ m, bits m 1 6 = 8 →
      xAt m 7 = rd →
      xAt m 13 = a →
      immAt m 19 13 = i →
      decodeWord m = .ok (.jalr rd a i) := by
    intro m f0 f1 f2 f3
    simp [decodeWord, f0, f1, f2, f3, orderAt, scopeAt, kField, ringCount]
  exact of_pack hw hb rfl rfl rfl fun _ => key _ (read hb 1) (xAt_of (read hb 2)) (xAt_of (read hb 3)) (immAt_of (read hb 4))

theorem Encoding.loop (rc : XReg) (o : BitVec 13) : Statement (.loop rc o) := by
  have hw : word 0x09 [(7, rc), (13, 0), (19, o.toNat)] =
      pack [(1, 1), (6, 9), (6, rc.val), (6, 0), (13, o.toNat)] := by simp only [wordR, wordV, wordA, wordE, wordM, word, core_code, Bool.toNat_true, Bool.toNat_false, pack]; omega
  have hb : Bounded [(1, 1), (6, 9), (6, rc.val), (6, 0), (13, o.toNat)] :=
    ⟨by decide, by decide, rc.isLt, by decide, o.isLt, trivial⟩
  have key : Instr.wf (.loop rc o) = true → ∀ m, bits m 1 6 = 9 →
      xAt m 7 = rc →
      bits m 13 6 = 0 →
      immAt m 19 13 = o →
      decodeWord m = .ok (.loop rc o) := by
    intro hwf m f0 f1 f2 f3
    simp only [Instr.wf] at hwf
    clear hb hw
    simp_all [decodeWord, decodeLoop, orderAt, scopeAt, kField, ringCount]
  exact of_pack hw hb rfl rfl rfl fun h => key h _ (read hb 1) (xAt_of (read hb 2)) (read hb 3) (immAt_of (read hb 4))

theorem Encoding.loopr (rc : XReg) (o : BitVec 13) : Statement (.loopr rc o) := by
  have hw : word 0x09 [(7, rc), (13, 1), (19, o.toNat)] =
      pack [(1, 1), (6, 9), (6, rc.val), (6, 1), (13, o.toNat)] := by simp only [wordR, wordV, wordA, wordE, wordM, word, core_code, Bool.toNat_true, Bool.toNat_false, pack]; omega
  have hb : Bounded [(1, 1), (6, 9), (6, rc.val), (6, 1), (13, o.toNat)] :=
    ⟨by decide, by decide, rc.isLt, by decide, o.isLt, trivial⟩
  have key : Instr.wf (.loopr rc o) = true → ∀ m, bits m 1 6 = 9 →
      xAt m 7 = rc →
      bits m 13 6 = 1 →
      immAt m 19 13 = o →
      decodeWord m = .ok (.loopr rc o) := by
    intro hwf m f0 f1 f2 f3
    simp only [Instr.wf] at hwf
    clear hb hw
    simp_all [decodeWord, decodeLoop, orderAt, scopeAt, kField, ringCount]
  exact of_pack hw hb rfl rfl rfl fun h => key h _ (read hb 1) (xAt_of (read hb 2)) (read hb 3) (immAt_of (read hb 4))

theorem Encoding.rep (rc : XReg) (n : BitVec 6) : Statement (.rep rc n) := by
  have hw : word 0x09 [(7, rc), (13, 2), (19, n.toNat)] =
      pack [(1, 1), (6, 9), (6, rc.val), (6, 2), (6, n.toNat), (7, 0)] := by simp only [wordR, wordV, wordA, wordE, wordM, word, core_code, Bool.toNat_true, Bool.toNat_false, pack]; omega
  have hb : Bounded [(1, 1), (6, 9), (6, rc.val), (6, 2), (6, n.toNat), (7, 0)] :=
    ⟨by decide, by decide, rc.isLt, by decide, n.isLt, by decide, trivial⟩
  have key : Instr.wf (.rep rc n) = true → ∀ m, bits m 1 6 = 9 →
      xAt m 7 = rc →
      bits m 13 6 = 2 →
      bits m 25 7 = 0 →
      immAt m 19 6 = n →
      decodeWord m = .ok (.rep rc n) := by
    intro hwf m f0 f1 f2 f3 f4
    simp only [Instr.wf] at hwf
    clear hb hw
    simp_all [decodeWord, decodeLoop, orderAt, scopeAt, kField, ringCount]
  exact of_pack hw hb rfl rfl rfl fun h => key h _ (read hb 1) (xAt_of (read hb 2)) (read hb 3) (read hb 5) (immAt_of (read hb 4))

theorem Encoding.ld (rd b : XReg) (sz : Size) (z : Bool) (spc : Space) (o : BitVec 6) : Statement (.ld rd b sz z spc o) := by
  have hw : word 0x0A [(7, rd), (13, b), (19, sz.code), (21, z.toNat), (22, spc.code), (26, o.toNat)] =
      pack [(1, 1), (6, 10), (6, rd.val), (6, b.val), (2, sz.code), (1, z.toNat), (3, spc.code), (1, 0), (6, o.toNat)] := by simp only [wordR, wordV, wordA, wordE, wordM, word, core_code, Bool.toNat_true, Bool.toNat_false, pack]; omega
  have hb : Bounded [(1, 1), (6, 10), (6, rd.val), (6, b.val), (2, sz.code), (1, z.toNat), (3, spc.code), (1, 0), (6, o.toNat)] :=
    ⟨by decide, by decide, rd.isLt, b.isLt, Size.code_lt sz, Bool.toNat_lt z, Space.code_lt spc, by decide, o.isLt, trivial⟩
  have key : Instr.wf (.ld rd b sz z spc o) = true → ∀ m, bits m 1 6 = 10 →
      xAt m 7 = rd →
      xAt m 13 = b →
      bits m 19 2 = sz.code →
      bitAt m 21 = z →
      bits m 22 3 = spc.code →
      bits m 25 1 = 0 →
      immAt m 26 6 = o →
      decodeWord m = .ok (.ld rd b sz z spc o) := by
    intro hwf m f0 f1 f2 f3 f4 f5 f6 f7
    simp only [Instr.wf] at hwf
    clear hb hw
    cases sz <;> cases z <;> simp_all [decodeWord, decodeLoad, orderAt, scopeAt, kField, ringCount]
  exact of_pack hw hb rfl rfl rfl fun h => key h _ (read hb 1) (xAt_of (read hb 2)) (xAt_of (read hb 3)) (read hb 4) (bitAt_bool (read hb 5)) (read hb 6) (read hb 7) (immAt_of (read hb 8))

theorem Encoding.ldSt (rd b : XReg) (sz : Size) (z : Bool) (spc : Space) (sc : Scope) : Statement (.ldSt rd b sz z spc sc) := by
  have hw : word 0x0A [(7, rd), (13, b), (19, sz.code), (21, z.toNat), (22, spc.code), (25, 1), (26, sc.code)] =
      pack [(1, 1), (6, 10), (6, rd.val), (6, b.val), (2, sz.code), (1, z.toNat), (3, spc.code), (1, 1), (3, sc.code), (3, 0)] := by simp only [wordR, wordV, wordA, wordE, wordM, word, core_code, Bool.toNat_true, Bool.toNat_false, pack]; omega
  have hb : Bounded [(1, 1), (6, 10), (6, rd.val), (6, b.val), (2, sz.code), (1, z.toNat), (3, spc.code), (1, 1), (3, sc.code), (3, 0)] :=
    ⟨by decide, by decide, rd.isLt, b.isLt, Size.code_lt sz, Bool.toNat_lt z, Space.code_lt spc, by decide, Scope.code_lt sc, by decide, trivial⟩
  have key : Instr.wf (.ldSt rd b sz z spc sc) = true → ∀ m, bits m 1 6 = 10 →
      xAt m 7 = rd →
      xAt m 13 = b →
      bits m 19 2 = sz.code →
      bitAt m 21 = z →
      bits m 22 3 = spc.code →
      bits m 25 1 = 1 →
      bits m 29 3 = 0 →
      bits m 26 3 = sc.code →
      decodeWord m = .ok (.ldSt rd b sz z spc sc) := by
    intro hwf m f0 f1 f2 f3 f4 f5 f6 f7 f8
    simp only [Instr.wf] at hwf
    clear hb hw
    cases sz <;> cases z <;> simp_all [decodeWord, decodeLoad, orderAt, scopeAt, kField, ringCount]
  exact of_pack hw hb rfl rfl rfl fun h => key h _ (read hb 1) (xAt_of (read hb 2)) (xAt_of (read hb 3)) (read hb 4) (bitAt_bool (read hb 5)) (read hb 6) (read hb 7) (read hb 9) (read hb 8)

theorem Encoding.st (rv b : XReg) (sz : Size) (spc : Space) (o : BitVec 6) : Statement (.st rv b sz spc o) := by
  have hw : word 0x0B [(7, rv), (13, b), (19, sz.code), (22, spc.code), (26, o.toNat)] =
      pack [(1, 1), (6, 11), (6, rv.val), (6, b.val), (2, sz.code), (1, 0), (3, spc.code), (1, 0), (6, o.toNat)] := by simp only [wordR, wordV, wordA, wordE, wordM, word, core_code, Bool.toNat_true, Bool.toNat_false, pack]; omega
  have hb : Bounded [(1, 1), (6, 11), (6, rv.val), (6, b.val), (2, sz.code), (1, 0), (3, spc.code), (1, 0), (6, o.toNat)] :=
    ⟨by decide, by decide, rv.isLt, b.isLt, Size.code_lt sz, by decide, Space.code_lt spc, by decide, o.isLt, trivial⟩
  have key : ∀ m, bits m 1 6 = 11 →
      xAt m 7 = rv →
      xAt m 13 = b →
      bits m 19 2 = sz.code →
      bits m 21 1 = 0 →
      bits m 22 3 = spc.code →
      bits m 25 1 = 0 →
      immAt m 26 6 = o →
      decodeWord m = .ok (.st rv b sz spc o) := by
    intro m f0 f1 f2 f3 f4 f5 f6 f7
    simp [decodeWord, f0, f1, f2, f3, f4, f5, f6, f7, decodeStore, orderAt, scopeAt, kField, ringCount]
  exact of_pack hw hb rfl rfl rfl fun _ => key _ (read hb 1) (xAt_of (read hb 2)) (xAt_of (read hb 3)) (read hb 4) (read hb 5) (read hb 6) (read hb 7) (immAt_of (read hb 8))

theorem Encoding.stSt (rv b : XReg) (sz : Size) (spc : Space) (sc : Scope) : Statement (.stSt rv b sz spc sc) := by
  have hw : word 0x0B [(7, rv), (13, b), (19, sz.code), (22, spc.code), (25, 1), (26, sc.code)] =
      pack [(1, 1), (6, 11), (6, rv.val), (6, b.val), (2, sz.code), (1, 0), (3, spc.code), (1, 1), (3, sc.code), (3, 0)] := by simp only [wordR, wordV, wordA, wordE, wordM, word, core_code, Bool.toNat_true, Bool.toNat_false, pack]; omega
  have hb : Bounded [(1, 1), (6, 11), (6, rv.val), (6, b.val), (2, sz.code), (1, 0), (3, spc.code), (1, 1), (3, sc.code), (3, 0)] :=
    ⟨by decide, by decide, rv.isLt, b.isLt, Size.code_lt sz, by decide, Space.code_lt spc, by decide, Scope.code_lt sc, by decide, trivial⟩
  have key : ∀ m, bits m 1 6 = 11 →
      xAt m 7 = rv →
      xAt m 13 = b →
      bits m 19 2 = sz.code →
      bits m 21 1 = 0 →
      bits m 22 3 = spc.code →
      bits m 25 1 = 1 →
      bits m 29 3 = 0 →
      bits m 26 3 = sc.code →
      decodeWord m = .ok (.stSt rv b sz spc sc) := by
    intro m f0 f1 f2 f3 f4 f5 f6 f7 f8
    simp [decodeWord, f0, f1, f2, f3, f4, f5, f6, f7, f8, decodeStore, orderAt, scopeAt, kField, ringCount]
  exact of_pack hw hb rfl rfl rfl fun _ => key _ (read hb 1) (xAt_of (read hb 2)) (xAt_of (read hb 3)) (read hb 4) (read hb 5) (read hb 6) (read hb 7) (read hb 9) (read hb 8)

theorem Encoding.pref (b : XReg) (spc : Space) (o : BitVec 6) : Statement (.pref b spc o) := by
  have hw : word 0x0A [(13, b), (19, 3), (21, 1), (22, spc.code), (26, o.toNat)] =
      pack [(1, 1), (6, 10), (6, 0), (6, b.val), (2, 3), (1, 1), (3, spc.code), (1, 0), (6, o.toNat)] := by simp only [wordR, wordV, wordA, wordE, wordM, word, core_code, Bool.toNat_true, Bool.toNat_false, pack]; omega
  have hb : Bounded [(1, 1), (6, 10), (6, 0), (6, b.val), (2, 3), (1, 1), (3, spc.code), (1, 0), (6, o.toNat)] :=
    ⟨by decide, by decide, by decide, b.isLt, by decide, by decide, Space.code_lt spc, by decide, o.isLt, trivial⟩
  have key : ∀ m, bits m 1 6 = 10 →
      xAt m 7 = 0 →
      xAt m 13 = b →
      bits m 19 2 = 3 →
      bitAt m 21 = true →
      bits m 22 3 = spc.code →
      bits m 25 1 = 0 →
      bits m 7 6 = 0 →
      immAt m 26 6 = o →
      decodeWord m = .ok (.pref b spc o) := by
    intro m f0 f1 f2 f3 f4 f5 f6 f7 f8
    simp [decodeWord, f0, f1, f2, f3, f4, f5, f6, f7, f8, decodeLoad, orderAt, scopeAt, kField, ringCount]
  exact of_pack hw hb rfl rfl rfl fun _ => key _ (read hb 1) (xAt_of (read hb 2)) (xAt_of (read hb 3)) (read hb 4) (bitAt_true (read hb 5)) (read hb 6) (read hb 7) (read hb 2) (immAt_of (read hb 8))

theorem Encoding.amo (op : AmoOp) (sz : OpSize) (rd a : XReg) (sc : Scope) (acq rel : Bool) : Statement (.amo op sz rd a sc acq rel) := by
  have hw : wordA 0x0C 0 rd a (op.code + 16 * sz.code) sc acq rel =
      pack [(1, 1), (6, 12), (6, rd.val), (6, a.val), (4, op.code), (1, sz.code), (1, 0), (3, sc.code), (1, acq.toNat), (1, rel.toNat), (2, 0)] := by simp only [wordR, wordV, wordA, wordE, wordM, word, core_code, Bool.toNat_true, Bool.toNat_false, pack]; omega
  have hb : Bounded [(1, 1), (6, 12), (6, rd.val), (6, a.val), (4, op.code), (1, sz.code), (1, 0), (3, sc.code), (1, acq.toNat), (1, rel.toNat), (2, 0)] :=
    ⟨by decide, by decide, rd.isLt, a.isLt, AmoOp.code_lt op, OpSize.code_lt sz, by decide, Scope.code_lt sc, Bool.toNat_lt acq, Bool.toNat_lt rel, by decide, trivial⟩
  have key : Instr.wf (.amo op sz rd a sc acq rel) = true → ∀ m, bits m 1 6 = 12 →
      xAt m 7 = rd →
      xAt m 13 = a →
      bitAt m 28 = acq →
      bitAt m 29 = rel →
      bits m 25 3 = sc.code →
      bits m 30 2 = 0 →
      bits m 24 1 = 0 →
      bits m 19 4 = op.code →
      bits m 23 1 = sz.code →
      decodeWord m = .ok (.amo op sz rd a sc acq rel) := by
    intro hwf m f0 f1 f2 f3 f4 f5 f6 f7 f8 f9
    simp only [Instr.wf] at hwf
    clear hb hw
    cases sz <;> simp_all [decodeWord, decodeAmo, orderAt, scopeAt, kField, ringCount, OpSize.code]
  exact of_pack hw hb rfl rfl rfl fun h => key h _ (read hb 1) (xAt_of (read hb 2)) (xAt_of (read hb 3)) (bitAt_bool (read hb 8)) (bitAt_bool (read hb 9)) (read hb 7) (read hb 10) (read hb 6) (read hb 4) (read hb 5)

theorem Encoding.casW (rd a b : XReg) (sc : Scope) (acq rel : Bool) : Statement (.casW rd a b sc acq rel) := by
  have hw : wordA 0x0C 1 rd a b sc acq rel =
      pack [(1, 1), (6, 12), (6, rd.val), (6, a.val), (6, b.val), (3, sc.code), (1, acq.toNat), (1, rel.toNat), (2, 1)] := by simp only [wordR, wordV, wordA, wordE, wordM, word, core_code, Bool.toNat_true, Bool.toNat_false, pack]; omega
  have hb : Bounded [(1, 1), (6, 12), (6, rd.val), (6, a.val), (6, b.val), (3, sc.code), (1, acq.toNat), (1, rel.toNat), (2, 1)] :=
    ⟨by decide, by decide, rd.isLt, a.isLt, b.isLt, Scope.code_lt sc, Bool.toNat_lt acq, Bool.toNat_lt rel, by decide, trivial⟩
  have key : ∀ m, bits m 1 6 = 12 →
      xAt m 7 = rd →
      xAt m 13 = a →
      bitAt m 28 = acq →
      bitAt m 29 = rel →
      bits m 25 3 = sc.code →
      bits m 30 2 = 1 →
      xAt m 19 = b →
      decodeWord m = .ok (.casW rd a b sc acq rel) := by
    intro m f0 f1 f2 f3 f4 f5 f6 f7
    simp [decodeWord, f0, f1, f2, f3, f4, f5, f6, f7, decodeAmo, orderAt, scopeAt, kField, ringCount]
  exact of_pack hw hb rfl rfl rfl fun _ => key _ (read hb 1) (xAt_of (read hb 2)) (xAt_of (read hb 3)) (bitAt_bool (read hb 6)) (bitAt_bool (read hb 7)) (read hb 5) (read hb 8) (xAt_of (read hb 4))

theorem Encoding.casD (rd a b : XReg) (sc : Scope) (acq rel : Bool) : Statement (.casD rd a b sc acq rel) := by
  have hw : wordA 0x0C 2 rd a b sc acq rel =
      pack [(1, 1), (6, 12), (6, rd.val), (6, a.val), (6, b.val), (3, sc.code), (1, acq.toNat), (1, rel.toNat), (2, 2)] := by simp only [wordR, wordV, wordA, wordE, wordM, word, core_code, Bool.toNat_true, Bool.toNat_false, pack]; omega
  have hb : Bounded [(1, 1), (6, 12), (6, rd.val), (6, a.val), (6, b.val), (3, sc.code), (1, acq.toNat), (1, rel.toNat), (2, 2)] :=
    ⟨by decide, by decide, rd.isLt, a.isLt, b.isLt, Scope.code_lt sc, Bool.toNat_lt acq, Bool.toNat_lt rel, by decide, trivial⟩
  have key : ∀ m, bits m 1 6 = 12 →
      xAt m 7 = rd →
      xAt m 13 = a →
      bitAt m 28 = acq →
      bitAt m 29 = rel →
      bits m 25 3 = sc.code →
      bits m 30 2 = 2 →
      xAt m 19 = b →
      decodeWord m = .ok (.casD rd a b sc acq rel) := by
    intro m f0 f1 f2 f3 f4 f5 f6 f7
    simp [decodeWord, f0, f1, f2, f3, f4, f5, f6, f7, decodeAmo, orderAt, scopeAt, kField, ringCount]
  exact of_pack hw hb rfl rfl rfl fun _ => key _ (read hb 1) (xAt_of (read hb 2)) (xAt_of (read hb 3)) (bitAt_bool (read hb 6)) (bitAt_bool (read hb 7)) (read hb 5) (read hb 8) (xAt_of (read hb 4))

theorem Encoding.red (op : AmoOp) (sz : OpSize) (a b : XReg) (sc : Scope) (rel : Bool) : Statement (.red op sz a b sc rel) := by
  have hw : wordA 0x0D 0 (op.code + 16 * sz.code) a b sc false rel =
      pack [(1, 1), (6, 13), (4, op.code), (1, sz.code), (1, 0), (6, a.val), (6, b.val), (3, sc.code), (1, 0), (1, rel.toNat), (2, 0)] := by simp only [wordR, wordV, wordA, wordE, wordM, word, core_code, Bool.toNat_true, Bool.toNat_false, pack]; omega
  have hb : Bounded [(1, 1), (6, 13), (4, op.code), (1, sz.code), (1, 0), (6, a.val), (6, b.val), (3, sc.code), (1, 0), (1, rel.toNat), (2, 0)] :=
    ⟨by decide, by decide, AmoOp.code_lt op, OpSize.code_lt sz, by decide, a.isLt, b.isLt, Scope.code_lt sc, by decide, Bool.toNat_lt rel, by decide, trivial⟩
  have key : Instr.wf (.red op sz a b sc rel) = true → ∀ m, bits m 1 6 = 13 →
      xAt m 13 = a →
      xAt m 19 = b →
      bitAt m 29 = rel →
      bits m 25 3 = sc.code →
      bits m 28 1 = 0 →
      bits m 12 1 = 0 →
      bits m 30 2 = 0 →
      bits m 7 4 = op.code →
      bits m 11 1 = sz.code →
      decodeWord m = .ok (.red op sz a b sc rel) := by
    intro hwf m f0 f1 f2 f3 f4 f5 f6 f7 f8 f9
    simp only [Instr.wf] at hwf
    clear hb hw
    cases sz <;> simp_all [decodeWord, decodeRed, orderAt, scopeAt, kField, ringCount, OpSize.code]
  exact of_pack hw hb rfl rfl rfl fun h => key h _ (read hb 1) (xAt_of (read hb 5)) (xAt_of (read hb 6)) (bitAt_bool (read hb 9)) (read hb 7) (read hb 8) (read hb 4) (read hb 10) (read hb 2) (read hb 3)

theorem Encoding.bupd (tag : BrineTag) (a b : XReg) (sc : Scope) (rel : Bool) : Statement (.bupd tag a b sc rel) := by
  have hw : wordA 0x0D 1 tag.code a b sc false rel =
      pack [(1, 1), (6, 13), (5, tag.code), (1, 0), (6, a.val), (6, b.val), (3, sc.code), (1, 0), (1, rel.toNat), (2, 1)] := by simp only [wordR, wordV, wordA, wordE, wordM, word, core_code, Bool.toNat_true, Bool.toNat_false, pack]; omega
  have hb : Bounded [(1, 1), (6, 13), (5, tag.code), (1, 0), (6, a.val), (6, b.val), (3, sc.code), (1, 0), (1, rel.toNat), (2, 1)] :=
    ⟨by decide, by decide, BrineTag.code_lt tag, by decide, a.isLt, b.isLt, Scope.code_lt sc, by decide, Bool.toNat_lt rel, by decide, trivial⟩
  have key : ∀ m, bits m 1 6 = 13 →
      xAt m 13 = a →
      xAt m 19 = b →
      bitAt m 29 = rel →
      bits m 25 3 = sc.code →
      bits m 28 1 = 0 →
      bits m 12 1 = 0 →
      bits m 30 2 = 1 →
      bits m 7 5 = tag.code →
      decodeWord m = .ok (.bupd tag a b sc rel) := by
    intro m f0 f1 f2 f3 f4 f5 f6 f7 f8
    simp [decodeWord, f0, f1, f2, f3, f4, f5, f6, f7, f8, decodeRed, orderAt, scopeAt, kField, ringCount]
  exact of_pack hw hb rfl rfl rfl fun _ => key _ (read hb 1) (xAt_of (read hb 4)) (xAt_of (read hb 5)) (bitAt_bool (read hb 8)) (read hb 6) (read hb 7) (read hb 3) (read hb 9) (read hb 2)

theorem Encoding.fenceAcq (sc : Scope) : Statement (.fenceAcq sc) := by
  have hw : wordA 0x0E 0 0 0 0 sc true false =
      pack [(1, 1), (6, 14), (18, 0), (3, sc.code), (2, 1), (2, 0)] := by simp only [wordR, wordV, wordA, wordE, wordM, word, core_code, Bool.toNat_true, Bool.toNat_false, pack]; omega
  have hb : Bounded [(1, 1), (6, 14), (18, 0), (3, sc.code), (2, 1), (2, 0)] :=
    ⟨by decide, by decide, by decide, Scope.code_lt sc, by decide, by decide, trivial⟩
  have key : ∀ m, bits m 1 6 = 14 →
      bits m 7 18 = 0 →
      bits m 30 2 = 0 →
      bits m 25 3 = sc.code →
      bits m 28 2 = 1 →
      decodeWord m = .ok (.fenceAcq sc) := by
    intro m f0 f1 f2 f3 f4
    simp [decodeWord, f0, f1, f2, f3, f4, decodeFence, orderAt, scopeAt, kField, ringCount]
  exact of_pack hw hb rfl rfl rfl fun _ => key _ (read hb 1) (read hb 2) (read hb 5) (read hb 3) (read hb 4)

theorem Encoding.fenceRel (sc : Scope) : Statement (.fenceRel sc) := by
  have hw : wordA 0x0E 0 0 0 0 sc false true =
      pack [(1, 1), (6, 14), (18, 0), (3, sc.code), (2, 2), (2, 0)] := by simp only [wordR, wordV, wordA, wordE, wordM, word, core_code, Bool.toNat_true, Bool.toNat_false, pack]; omega
  have hb : Bounded [(1, 1), (6, 14), (18, 0), (3, sc.code), (2, 2), (2, 0)] :=
    ⟨by decide, by decide, by decide, Scope.code_lt sc, by decide, by decide, trivial⟩
  have key : ∀ m, bits m 1 6 = 14 →
      bits m 7 18 = 0 →
      bits m 30 2 = 0 →
      bits m 25 3 = sc.code →
      bits m 28 2 = 2 →
      decodeWord m = .ok (.fenceRel sc) := by
    intro m f0 f1 f2 f3 f4
    simp [decodeWord, f0, f1, f2, f3, f4, decodeFence, orderAt, scopeAt, kField, ringCount]
  exact of_pack hw hb rfl rfl rfl fun _ => key _ (read hb 1) (read hb 2) (read hb 5) (read hb 3) (read hb 4)

theorem Encoding.fenceFull (sc : Scope) : Statement (.fenceFull sc) := by
  have hw : wordA 0x0E 0 0 0 0 sc true true =
      pack [(1, 1), (6, 14), (18, 0), (3, sc.code), (2, 3), (2, 0)] := by simp only [wordR, wordV, wordA, wordE, wordM, word, core_code, Bool.toNat_true, Bool.toNat_false, pack]; omega
  have hb : Bounded [(1, 1), (6, 14), (18, 0), (3, sc.code), (2, 3), (2, 0)] :=
    ⟨by decide, by decide, by decide, Scope.code_lt sc, by decide, by decide, trivial⟩
  have key : ∀ m, bits m 1 6 = 14 →
      bits m 7 18 = 0 →
      bits m 30 2 = 0 →
      bits m 25 3 = sc.code →
      bits m 28 2 = 3 →
      decodeWord m = .ok (.fenceFull sc) := by
    intro m f0 f1 f2 f3 f4
    simp [decodeWord, f0, f1, f2, f3, f4, decodeFence, orderAt, scopeAt, kField, ringCount]
  exact of_pack hw hb rfl rfl rfl fun _ => key _ (read hb 1) (read hb 2) (read hb 5) (read hb 3) (read hb 4)

theorem Encoding.fenceSp : Statement (.fenceSp) := by
  have hw : wordA 0x0E 1 0 0 0 .core false false =
      pack [(1, 1), (6, 14), (18, 0), (3, 0), (2, 0), (2, 1)] := by simp only [wordR, wordV, wordA, wordE, wordM, word, core_code, Bool.toNat_true, Bool.toNat_false, pack]; omega
  have hb : Bounded [(1, 1), (6, 14), (18, 0), (3, 0), (2, 0), (2, 1)] :=
    ⟨by decide, by decide, by decide, by decide, by decide, by decide, trivial⟩
  have key : ∀ m, bits m 1 6 = 14 →
      bits m 7 18 = 0 →
      bits m 30 2 = 1 →
      bits m 25 3 = 0 →
      bits m 28 2 = 0 →
      bits m 25 5 = 0 →
      decodeWord m = .ok (.fenceSp) := by
    intro m f0 f1 f2 f3 f4 f5
    simp [decodeWord, f0, f1, f2, f3, f4, f5, decodeFence, orderAt, scopeAt, kField, ringCount]
  exact of_pack hw hb rfl rfl rfl fun _ => key _ (read hb 1) (read hb 2) (read hb 5) (read hb 3) (read hb 4) (readSpan hb 3 2)

theorem Encoding.ifence : Statement (.ifence) := by
  have hw : wordA 0x0E 2 0 0 0 .core false false =
      pack [(1, 1), (6, 14), (18, 0), (3, 0), (2, 0), (2, 2)] := by simp only [wordR, wordV, wordA, wordE, wordM, word, core_code, Bool.toNat_true, Bool.toNat_false, pack]; omega
  have hb : Bounded [(1, 1), (6, 14), (18, 0), (3, 0), (2, 0), (2, 2)] :=
    ⟨by decide, by decide, by decide, by decide, by decide, by decide, trivial⟩
  have key : ∀ m, bits m 1 6 = 14 →
      bits m 7 18 = 0 →
      bits m 30 2 = 2 →
      bits m 25 3 = 0 →
      bits m 28 2 = 0 →
      bits m 25 5 = 0 →
      decodeWord m = .ok (.ifence) := by
    intro m f0 f1 f2 f3 f4 f5
    simp [decodeWord, f0, f1, f2, f3, f4, f5, decodeFence, orderAt, scopeAt, kField, ringCount]
  exact of_pack hw hb rfl rfl rfl fun _ => key _ (read hb 1) (read hb 2) (read hb 5) (read hb 3) (read hb 4) (readSpan hb 3 2)

theorem Encoding.csrrw (rd a : XReg) (n : BitVec 11) : Statement (.csrrw rd a n) := by
  have hw : word 0x0F [(7, rd), (13, a), (19, n.toNat), (30, 0)] =
      pack [(1, 1), (6, 15), (6, rd.val), (6, a.val), (11, n.toNat), (2, 0)] := by simp only [wordR, wordV, wordA, wordE, wordM, word, core_code, Bool.toNat_true, Bool.toNat_false, pack]; omega
  have hb : Bounded [(1, 1), (6, 15), (6, rd.val), (6, a.val), (11, n.toNat), (2, 0)] :=
    ⟨by decide, by decide, rd.isLt, a.isLt, n.isLt, by decide, trivial⟩
  have key : ∀ m, bits m 1 6 = 15 →
      xAt m 7 = rd →
      xAt m 13 = a →
      bits m 30 2 = 0 →
      immAt m 19 11 = n →
      decodeWord m = .ok (.csrrw rd a n) := by
    intro m f0 f1 f2 f3 f4
    simp [decodeWord, f0, f1, f2, f3, f4, decodeSys, orderAt, scopeAt, kField, ringCount]
  exact of_pack hw hb rfl rfl rfl fun _ => key _ (read hb 1) (xAt_of (read hb 2)) (xAt_of (read hb 3)) (read hb 5) (immAt_of (read hb 4))

theorem Encoding.csrrs (rd a : XReg) (n : BitVec 11) : Statement (.csrrs rd a n) := by
  have hw : word 0x0F [(7, rd), (13, a), (19, n.toNat), (30, 1)] =
      pack [(1, 1), (6, 15), (6, rd.val), (6, a.val), (11, n.toNat), (2, 1)] := by simp only [wordR, wordV, wordA, wordE, wordM, word, core_code, Bool.toNat_true, Bool.toNat_false, pack]; omega
  have hb : Bounded [(1, 1), (6, 15), (6, rd.val), (6, a.val), (11, n.toNat), (2, 1)] :=
    ⟨by decide, by decide, rd.isLt, a.isLt, n.isLt, by decide, trivial⟩
  have key : ∀ m, bits m 1 6 = 15 →
      xAt m 7 = rd →
      xAt m 13 = a →
      bits m 30 2 = 1 →
      immAt m 19 11 = n →
      decodeWord m = .ok (.csrrs rd a n) := by
    intro m f0 f1 f2 f3 f4
    simp [decodeWord, f0, f1, f2, f3, f4, decodeSys, orderAt, scopeAt, kField, ringCount]
  exact of_pack hw hb rfl rfl rfl fun _ => key _ (read hb 1) (xAt_of (read hb 2)) (xAt_of (read hb 3)) (read hb 5) (immAt_of (read hb 4))

theorem Encoding.csrrc (rd a : XReg) (n : BitVec 11) : Statement (.csrrc rd a n) := by
  have hw : word 0x0F [(7, rd), (13, a), (19, n.toNat), (30, 2)] =
      pack [(1, 1), (6, 15), (6, rd.val), (6, a.val), (11, n.toNat), (2, 2)] := by simp only [wordR, wordV, wordA, wordE, wordM, word, core_code, Bool.toNat_true, Bool.toNat_false, pack]; omega
  have hb : Bounded [(1, 1), (6, 15), (6, rd.val), (6, a.val), (11, n.toNat), (2, 2)] :=
    ⟨by decide, by decide, rd.isLt, a.isLt, n.isLt, by decide, trivial⟩
  have key : ∀ m, bits m 1 6 = 15 →
      xAt m 7 = rd →
      xAt m 13 = a →
      bits m 30 2 = 2 →
      immAt m 19 11 = n →
      decodeWord m = .ok (.csrrc rd a n) := by
    intro m f0 f1 f2 f3 f4
    simp [decodeWord, f0, f1, f2, f3, f4, decodeSys, orderAt, scopeAt, kField, ringCount]
  exact of_pack hw hb rfl rfl rfl fun _ => key _ (read hb 1) (xAt_of (read hb 2)) (xAt_of (read hb 3)) (read hb 5) (immAt_of (read hb 4))

theorem Encoding.trap (a : XReg) : Statement (.trap a) := by
  have hw : word 0x0F [(13, a), (19, 0), (30, 3)] =
      pack [(1, 1), (6, 15), (6, 0), (6, a.val), (11, 0), (2, 3)] := by simp only [wordR, wordV, wordA, wordE, wordM, word, core_code, Bool.toNat_true, Bool.toNat_false, pack]; omega
  have hb : Bounded [(1, 1), (6, 15), (6, 0), (6, a.val), (11, 0), (2, 3)] :=
    ⟨by decide, by decide, by decide, a.isLt, by decide, by decide, trivial⟩
  have key : ∀ m, bits m 1 6 = 15 →
      xAt m 7 = 0 →
      xAt m 13 = a →
      bits m 30 2 = 3 →
      bits m 19 11 = 0 →
      bits m 7 6 = 0 →
      decodeWord m = .ok (.trap a) := by
    intro m f0 f1 f2 f3 f4 f5
    simp [decodeWord, f0, f1, f2, f3, f4, f5, decodeSys, orderAt, scopeAt, kField, ringCount]
  exact of_pack hw hb rfl rfl rfl fun _ => key _ (read hb 1) (xAt_of (read hb 2)) (xAt_of (read hb 3)) (read hb 5) (read hb 4) (read hb 2)

theorem Encoding.eret : Statement (.eret) := by
  have hw : word 0x0F [(19, 1), (30, 3)] =
      pack [(1, 1), (6, 15), (6, 0), (6, 0), (11, 1), (2, 3)] := by simp only [wordR, wordV, wordA, wordE, wordM, word, core_code, Bool.toNat_true, Bool.toNat_false, pack]; omega
  have hb : Bounded [(1, 1), (6, 15), (6, 0), (6, 0), (11, 1), (2, 3)] :=
    ⟨by decide, by decide, by decide, by decide, by decide, by decide, trivial⟩
  have key : ∀ m, bits m 1 6 = 15 →
      xAt m 7 = 0 →
      xAt m 13 = 0 →
      bits m 30 2 = 3 →
      bits m 19 11 = 1 →
      bits m 7 6 = 0 →
      bits m 7 12 = 0 →
      decodeWord m = .ok (.eret) := by
    intro m f0 f1 f2 f3 f4 f5 f6
    simp [decodeWord, f0, f1, f2, f3, f4, f5, f6, decodeSys, orderAt, scopeAt, kField, ringCount]
  exact of_pack hw hb rfl rfl rfl fun _ => key _ (read hb 1) (xAt_of (read hb 2)) (xAt_of (read hb 3)) (read hb 5) (read hb 4) (read hb 2) (readSpan hb 2 2)

theorem Encoding.wfe : Statement (.wfe) := by
  have hw : word 0x0F [(19, 2), (30, 3)] =
      pack [(1, 1), (6, 15), (6, 0), (6, 0), (11, 2), (2, 3)] := by simp only [wordR, wordV, wordA, wordE, wordM, word, core_code, Bool.toNat_true, Bool.toNat_false, pack]; omega
  have hb : Bounded [(1, 1), (6, 15), (6, 0), (6, 0), (11, 2), (2, 3)] :=
    ⟨by decide, by decide, by decide, by decide, by decide, by decide, trivial⟩
  have key : ∀ m, bits m 1 6 = 15 →
      xAt m 7 = 0 →
      xAt m 13 = 0 →
      bits m 30 2 = 3 →
      bits m 19 11 = 2 →
      bits m 7 6 = 0 →
      bits m 7 12 = 0 →
      decodeWord m = .ok (.wfe) := by
    intro m f0 f1 f2 f3 f4 f5 f6
    simp [decodeWord, f0, f1, f2, f3, f4, f5, f6, decodeSys, orderAt, scopeAt, kField, ringCount]
  exact of_pack hw hb rfl rfl rfl fun _ => key _ (read hb 1) (xAt_of (read hb 2)) (xAt_of (read hb 3)) (read hb 5) (read hb 4) (read hb 2) (readSpan hb 2 2)

theorem Encoding.dictLoad (a : XReg) : Statement (.dictLoad a) := by
  have hw : word 0x0F [(13, a), (19, 3), (30, 3)] =
      pack [(1, 1), (6, 15), (6, 0), (6, a.val), (11, 3), (2, 3)] := by simp only [wordR, wordV, wordA, wordE, wordM, word, core_code, Bool.toNat_true, Bool.toNat_false, pack]; omega
  have hb : Bounded [(1, 1), (6, 15), (6, 0), (6, a.val), (11, 3), (2, 3)] :=
    ⟨by decide, by decide, by decide, a.isLt, by decide, by decide, trivial⟩
  have key : ∀ m, bits m 1 6 = 15 →
      xAt m 7 = 0 →
      xAt m 13 = a →
      bits m 30 2 = 3 →
      bits m 19 11 = 3 →
      bits m 7 6 = 0 →
      decodeWord m = .ok (.dictLoad a) := by
    intro m f0 f1 f2 f3 f4 f5
    simp [decodeWord, f0, f1, f2, f3, f4, f5, decodeSys, orderAt, scopeAt, kField, ringCount]
  exact of_pack hw hb rfl rfl rfl fun _ => key _ (read hb 1) (xAt_of (read hb 2)) (xAt_of (read hb 3)) (read hb 5) (read hb 4) (read hb 2)

theorem Encoding.xlinv (a b : XReg) : Statement (.xlinv a b) := by
  have hw : wordR 0x22 0 0 a b =
      pack [(1, 1), (6, 34), (6, 0), (6, a.val), (6, b.val), (7, 0)] := by simp only [wordR, wordV, wordA, wordE, wordM, word, core_code, Bool.toNat_true, Bool.toNat_false, pack]; omega
  have hb : Bounded [(1, 1), (6, 34), (6, 0), (6, a.val), (6, b.val), (7, 0)] :=
    ⟨by decide, by decide, by decide, a.isLt, b.isLt, by decide, trivial⟩
  have key : ∀ m, bits m 1 6 = 34 →
      bits m 25 7 = 0 →
      bits m 7 6 = 0 →
      xAt m 13 = a →
      xAt m 19 = b →
      xAt m 7 = 0 →
      decodeWord m = .ok (.xlinv a b) := by
    intro m f0 f1 f2 f3 f4 f5
    simp [decodeWord, f0, f1, f2, f3, f4, f5, decodePriv, orderAt, scopeAt, kField, ringCount]
  exact of_pack hw hb rfl rfl rfl fun _ => key _ (read hb 1) (read hb 5) (read hb 2) (xAt_of (read hb 3)) (xAt_of (read hb 4)) (xAt_of (read hb 2))

theorem Encoding.bist (rd a : XReg) : Statement (.bist rd a) := by
  have hw : wordR 0x22 1 rd a 0 =
      pack [(1, 1), (6, 34), (6, rd.val), (6, a.val), (6, 0), (7, 1)] := by simp only [wordR, wordV, wordA, wordE, wordM, word, core_code, Bool.toNat_true, Bool.toNat_false, pack]; omega
  have hb : Bounded [(1, 1), (6, 34), (6, rd.val), (6, a.val), (6, 0), (7, 1)] :=
    ⟨by decide, by decide, rd.isLt, a.isLt, by decide, by decide, trivial⟩
  have key : ∀ m, bits m 1 6 = 34 →
      bits m 25 7 = 1 →
      xAt m 13 = a →
      xAt m 19 = 0 →
      bits m 19 6 = 0 →
      xAt m 7 = rd →
      decodeWord m = .ok (.bist rd a) := by
    intro m f0 f1 f2 f3 f4 f5
    simp [decodeWord, f0, f1, f2, f3, f4, f5, decodePriv, orderAt, scopeAt, kField, ringCount]
  exact of_pack hw hb rfl rfl rfl fun _ => key _ (read hb 1) (read hb 5) (xAt_of (read hb 3)) (xAt_of (read hb 4)) (read hb 4) (xAt_of (read hb 2))

theorem Encoding.vadd (sz : ElemSize) (vd a b : VReg) (k : KReg) : Statement (.vadd sz vd a b k) := by
  have hw : wordV 0x10 (0 + 32 * sz.code) vd a b k =
      pack [(1, 1), (6, 16), (5, vd.val), (5, a.val), (5, b.val), (3, k.val), (5, 0), (2, sz.code)] := by simp only [wordR, wordV, wordA, wordE, wordM, word, core_code, Bool.toNat_true, Bool.toNat_false, pack]; omega
  have hb : Bounded [(1, 1), (6, 16), (5, vd.val), (5, a.val), (5, b.val), (3, k.val), (5, 0), (2, sz.code)] :=
    ⟨by decide, by decide, vd.isLt, a.isLt, b.isLt, k.isLt, by decide, ElemSize.code_lt sz, trivial⟩
  have key : ∀ m, bits m 1 6 = 16 →
      vAt m 7 = vd →
      vAt m 12 = a →
      vAt m 17 = b →
      kAt m 22 = k →
      bits m 30 2 = sz.code →
      bits m 25 5 = 0 →
      decodeWord m = .ok (.vadd sz vd a b k) := by
    intro m f0 f1 f2 f3 f4 f5 f6
    simp [decodeWord, f0, f1, f2, f3, f4, f5, f6, decodeVop, orderAt, scopeAt, kField, ringCount]
  exact of_pack hw hb rfl rfl rfl fun _ => key _ (read hb 1) (vAt_of (read hb 2)) (vAt_of (read hb 3)) (vAt_of (read hb 4)) (kAt_of (read hb 5)) (read hb 7) (read hb 6)

theorem Encoding.vsub (sz : ElemSize) (vd a b : VReg) (k : KReg) : Statement (.vsub sz vd a b k) := by
  have hw : wordV 0x10 (1 + 32 * sz.code) vd a b k =
      pack [(1, 1), (6, 16), (5, vd.val), (5, a.val), (5, b.val), (3, k.val), (5, 1), (2, sz.code)] := by simp only [wordR, wordV, wordA, wordE, wordM, word, core_code, Bool.toNat_true, Bool.toNat_false, pack]; omega
  have hb : Bounded [(1, 1), (6, 16), (5, vd.val), (5, a.val), (5, b.val), (3, k.val), (5, 1), (2, sz.code)] :=
    ⟨by decide, by decide, vd.isLt, a.isLt, b.isLt, k.isLt, by decide, ElemSize.code_lt sz, trivial⟩
  have key : ∀ m, bits m 1 6 = 16 →
      vAt m 7 = vd →
      vAt m 12 = a →
      vAt m 17 = b →
      kAt m 22 = k →
      bits m 30 2 = sz.code →
      bits m 25 5 = 1 →
      decodeWord m = .ok (.vsub sz vd a b k) := by
    intro m f0 f1 f2 f3 f4 f5 f6
    simp [decodeWord, f0, f1, f2, f3, f4, f5, f6, decodeVop, orderAt, scopeAt, kField, ringCount]
  exact of_pack hw hb rfl rfl rfl fun _ => key _ (read hb 1) (vAt_of (read hb 2)) (vAt_of (read hb 3)) (vAt_of (read hb 4)) (kAt_of (read hb 5)) (read hb 7) (read hb 6)

theorem Encoding.vmul (sz : ElemSize) (vd a b : VReg) (k : KReg) : Statement (.vmul sz vd a b k) := by
  have hw : wordV 0x10 (2 + 32 * sz.code) vd a b k =
      pack [(1, 1), (6, 16), (5, vd.val), (5, a.val), (5, b.val), (3, k.val), (5, 2), (2, sz.code)] := by simp only [wordR, wordV, wordA, wordE, wordM, word, core_code, Bool.toNat_true, Bool.toNat_false, pack]; omega
  have hb : Bounded [(1, 1), (6, 16), (5, vd.val), (5, a.val), (5, b.val), (3, k.val), (5, 2), (2, sz.code)] :=
    ⟨by decide, by decide, vd.isLt, a.isLt, b.isLt, k.isLt, by decide, ElemSize.code_lt sz, trivial⟩
  have key : ∀ m, bits m 1 6 = 16 →
      vAt m 7 = vd →
      vAt m 12 = a →
      vAt m 17 = b →
      kAt m 22 = k →
      bits m 30 2 = sz.code →
      bits m 25 5 = 2 →
      decodeWord m = .ok (.vmul sz vd a b k) := by
    intro m f0 f1 f2 f3 f4 f5 f6
    simp [decodeWord, f0, f1, f2, f3, f4, f5, f6, decodeVop, orderAt, scopeAt, kField, ringCount]
  exact of_pack hw hb rfl rfl rfl fun _ => key _ (read hb 1) (vAt_of (read hb 2)) (vAt_of (read hb 3)) (vAt_of (read hb 4)) (kAt_of (read hb 5)) (read hb 7) (read hb 6)

theorem Encoding.vmulh (sz : ElemSize) (vd a b : VReg) (k : KReg) : Statement (.vmulh sz vd a b k) := by
  have hw : wordV 0x10 (3 + 32 * sz.code) vd a b k =
      pack [(1, 1), (6, 16), (5, vd.val), (5, a.val), (5, b.val), (3, k.val), (5, 3), (2, sz.code)] := by simp only [wordR, wordV, wordA, wordE, wordM, word, core_code, Bool.toNat_true, Bool.toNat_false, pack]; omega
  have hb : Bounded [(1, 1), (6, 16), (5, vd.val), (5, a.val), (5, b.val), (3, k.val), (5, 3), (2, sz.code)] :=
    ⟨by decide, by decide, vd.isLt, a.isLt, b.isLt, k.isLt, by decide, ElemSize.code_lt sz, trivial⟩
  have key : ∀ m, bits m 1 6 = 16 →
      vAt m 7 = vd →
      vAt m 12 = a →
      vAt m 17 = b →
      kAt m 22 = k →
      bits m 30 2 = sz.code →
      bits m 25 5 = 3 →
      decodeWord m = .ok (.vmulh sz vd a b k) := by
    intro m f0 f1 f2 f3 f4 f5 f6
    simp [decodeWord, f0, f1, f2, f3, f4, f5, f6, decodeVop, orderAt, scopeAt, kField, ringCount]
  exact of_pack hw hb rfl rfl rfl fun _ => key _ (read hb 1) (vAt_of (read hb 2)) (vAt_of (read hb 3)) (vAt_of (read hb 4)) (kAt_of (read hb 5)) (read hb 7) (read hb 6)

theorem Encoding.vand (vd a b : VReg) (k : KReg) : Statement (.vand vd a b k) := by
  have hw : wordV 0x10 4 vd a b k =
      pack [(1, 1), (6, 16), (5, vd.val), (5, a.val), (5, b.val), (3, k.val), (5, 4), (2, 0)] := by simp only [wordR, wordV, wordA, wordE, wordM, word, core_code, Bool.toNat_true, Bool.toNat_false, pack]; omega
  have hb : Bounded [(1, 1), (6, 16), (5, vd.val), (5, a.val), (5, b.val), (3, k.val), (5, 4), (2, 0)] :=
    ⟨by decide, by decide, vd.isLt, a.isLt, b.isLt, k.isLt, by decide, by decide, trivial⟩
  have key : ∀ m, bits m 1 6 = 16 →
      vAt m 7 = vd →
      vAt m 12 = a →
      vAt m 17 = b →
      kAt m 22 = k →
      bits m 30 2 = 0 →
      bits m 25 5 = 4 →
      decodeWord m = .ok (.vand vd a b k) := by
    intro m f0 f1 f2 f3 f4 f5 f6
    simp [decodeWord, f0, f1, f2, f3, f4, f5, f6, decodeVop, orderAt, scopeAt, kField, ringCount]
  exact of_pack hw hb rfl rfl rfl fun _ => key _ (read hb 1) (vAt_of (read hb 2)) (vAt_of (read hb 3)) (vAt_of (read hb 4)) (kAt_of (read hb 5)) (read hb 7) (read hb 6)

theorem Encoding.vor (vd a b : VReg) (k : KReg) : Statement (.vor vd a b k) := by
  have hw : wordV 0x10 5 vd a b k =
      pack [(1, 1), (6, 16), (5, vd.val), (5, a.val), (5, b.val), (3, k.val), (5, 5), (2, 0)] := by simp only [wordR, wordV, wordA, wordE, wordM, word, core_code, Bool.toNat_true, Bool.toNat_false, pack]; omega
  have hb : Bounded [(1, 1), (6, 16), (5, vd.val), (5, a.val), (5, b.val), (3, k.val), (5, 5), (2, 0)] :=
    ⟨by decide, by decide, vd.isLt, a.isLt, b.isLt, k.isLt, by decide, by decide, trivial⟩
  have key : ∀ m, bits m 1 6 = 16 →
      vAt m 7 = vd →
      vAt m 12 = a →
      vAt m 17 = b →
      kAt m 22 = k →
      bits m 30 2 = 0 →
      bits m 25 5 = 5 →
      decodeWord m = .ok (.vor vd a b k) := by
    intro m f0 f1 f2 f3 f4 f5 f6
    simp [decodeWord, f0, f1, f2, f3, f4, f5, f6, decodeVop, orderAt, scopeAt, kField, ringCount]
  exact of_pack hw hb rfl rfl rfl fun _ => key _ (read hb 1) (vAt_of (read hb 2)) (vAt_of (read hb 3)) (vAt_of (read hb 4)) (kAt_of (read hb 5)) (read hb 7) (read hb 6)

theorem Encoding.vxor (vd a b : VReg) (k : KReg) : Statement (.vxor vd a b k) := by
  have hw : wordV 0x10 6 vd a b k =
      pack [(1, 1), (6, 16), (5, vd.val), (5, a.val), (5, b.val), (3, k.val), (5, 6), (2, 0)] := by simp only [wordR, wordV, wordA, wordE, wordM, word, core_code, Bool.toNat_true, Bool.toNat_false, pack]; omega
  have hb : Bounded [(1, 1), (6, 16), (5, vd.val), (5, a.val), (5, b.val), (3, k.val), (5, 6), (2, 0)] :=
    ⟨by decide, by decide, vd.isLt, a.isLt, b.isLt, k.isLt, by decide, by decide, trivial⟩
  have key : ∀ m, bits m 1 6 = 16 →
      vAt m 7 = vd →
      vAt m 12 = a →
      vAt m 17 = b →
      kAt m 22 = k →
      bits m 30 2 = 0 →
      bits m 25 5 = 6 →
      decodeWord m = .ok (.vxor vd a b k) := by
    intro m f0 f1 f2 f3 f4 f5 f6
    simp [decodeWord, f0, f1, f2, f3, f4, f5, f6, decodeVop, orderAt, scopeAt, kField, ringCount]
  exact of_pack hw hb rfl rfl rfl fun _ => key _ (read hb 1) (vAt_of (read hb 2)) (vAt_of (read hb 3)) (vAt_of (read hb 4)) (kAt_of (read hb 5)) (read hb 7) (read hb 6)

theorem Encoding.vshl (sz : ElemSize) (vd a b : VReg) (k : KReg) : Statement (.vshl sz vd a b k) := by
  have hw : wordV 0x10 (7 + 32 * sz.code) vd a b k =
      pack [(1, 1), (6, 16), (5, vd.val), (5, a.val), (5, b.val), (3, k.val), (5, 7), (2, sz.code)] := by simp only [wordR, wordV, wordA, wordE, wordM, word, core_code, Bool.toNat_true, Bool.toNat_false, pack]; omega
  have hb : Bounded [(1, 1), (6, 16), (5, vd.val), (5, a.val), (5, b.val), (3, k.val), (5, 7), (2, sz.code)] :=
    ⟨by decide, by decide, vd.isLt, a.isLt, b.isLt, k.isLt, by decide, ElemSize.code_lt sz, trivial⟩
  have key : ∀ m, bits m 1 6 = 16 →
      vAt m 7 = vd →
      vAt m 12 = a →
      vAt m 17 = b →
      kAt m 22 = k →
      bits m 30 2 = sz.code →
      bits m 25 5 = 7 →
      decodeWord m = .ok (.vshl sz vd a b k) := by
    intro m f0 f1 f2 f3 f4 f5 f6
    simp [decodeWord, f0, f1, f2, f3, f4, f5, f6, decodeVop, orderAt, scopeAt, kField, ringCount]
  exact of_pack hw hb rfl rfl rfl fun _ => key _ (read hb 1) (vAt_of (read hb 2)) (vAt_of (read hb 3)) (vAt_of (read hb 4)) (kAt_of (read hb 5)) (read hb 7) (read hb 6)

theorem Encoding.vshr (sz : ElemSize) (vd a b : VReg) (k : KReg) : Statement (.vshr sz vd a b k) := by
  have hw : wordV 0x10 (8 + 32 * sz.code) vd a b k =
      pack [(1, 1), (6, 16), (5, vd.val), (5, a.val), (5, b.val), (3, k.val), (5, 8), (2, sz.code)] := by simp only [wordR, wordV, wordA, wordE, wordM, word, core_code, Bool.toNat_true, Bool.toNat_false, pack]; omega
  have hb : Bounded [(1, 1), (6, 16), (5, vd.val), (5, a.val), (5, b.val), (3, k.val), (5, 8), (2, sz.code)] :=
    ⟨by decide, by decide, vd.isLt, a.isLt, b.isLt, k.isLt, by decide, ElemSize.code_lt sz, trivial⟩
  have key : ∀ m, bits m 1 6 = 16 →
      vAt m 7 = vd →
      vAt m 12 = a →
      vAt m 17 = b →
      kAt m 22 = k →
      bits m 30 2 = sz.code →
      bits m 25 5 = 8 →
      decodeWord m = .ok (.vshr sz vd a b k) := by
    intro m f0 f1 f2 f3 f4 f5 f6
    simp [decodeWord, f0, f1, f2, f3, f4, f5, f6, decodeVop, orderAt, scopeAt, kField, ringCount]
  exact of_pack hw hb rfl rfl rfl fun _ => key _ (read hb 1) (vAt_of (read hb 2)) (vAt_of (read hb 3)) (vAt_of (read hb 4)) (kAt_of (read hb 5)) (read hb 7) (read hb 6)

theorem Encoding.vshra (sz : ElemSize) (vd a b : VReg) (k : KReg) : Statement (.vshra sz vd a b k) := by
  have hw : wordV 0x10 (9 + 32 * sz.code) vd a b k =
      pack [(1, 1), (6, 16), (5, vd.val), (5, a.val), (5, b.val), (3, k.val), (5, 9), (2, sz.code)] := by simp only [wordR, wordV, wordA, wordE, wordM, word, core_code, Bool.toNat_true, Bool.toNat_false, pack]; omega
  have hb : Bounded [(1, 1), (6, 16), (5, vd.val), (5, a.val), (5, b.val), (3, k.val), (5, 9), (2, sz.code)] :=
    ⟨by decide, by decide, vd.isLt, a.isLt, b.isLt, k.isLt, by decide, ElemSize.code_lt sz, trivial⟩
  have key : ∀ m, bits m 1 6 = 16 →
      vAt m 7 = vd →
      vAt m 12 = a →
      vAt m 17 = b →
      kAt m 22 = k →
      bits m 30 2 = sz.code →
      bits m 25 5 = 9 →
      decodeWord m = .ok (.vshra sz vd a b k) := by
    intro m f0 f1 f2 f3 f4 f5 f6
    simp [decodeWord, f0, f1, f2, f3, f4, f5, f6, decodeVop, orderAt, scopeAt, kField, ringCount]
  exact of_pack hw hb rfl rfl rfl fun _ => key _ (read hb 1) (vAt_of (read hb 2)) (vAt_of (read hb 3)) (vAt_of (read hb 4)) (kAt_of (read hb 5)) (read hb 7) (read hb 6)

theorem Encoding.vmin (sz : ElemSize) (vd a b : VReg) (k : KReg) : Statement (.vmin sz vd a b k) := by
  have hw : wordV 0x10 (10 + 32 * sz.code) vd a b k =
      pack [(1, 1), (6, 16), (5, vd.val), (5, a.val), (5, b.val), (3, k.val), (5, 10), (2, sz.code)] := by simp only [wordR, wordV, wordA, wordE, wordM, word, core_code, Bool.toNat_true, Bool.toNat_false, pack]; omega
  have hb : Bounded [(1, 1), (6, 16), (5, vd.val), (5, a.val), (5, b.val), (3, k.val), (5, 10), (2, sz.code)] :=
    ⟨by decide, by decide, vd.isLt, a.isLt, b.isLt, k.isLt, by decide, ElemSize.code_lt sz, trivial⟩
  have key : ∀ m, bits m 1 6 = 16 →
      vAt m 7 = vd →
      vAt m 12 = a →
      vAt m 17 = b →
      kAt m 22 = k →
      bits m 30 2 = sz.code →
      bits m 25 5 = 10 →
      decodeWord m = .ok (.vmin sz vd a b k) := by
    intro m f0 f1 f2 f3 f4 f5 f6
    simp [decodeWord, f0, f1, f2, f3, f4, f5, f6, decodeVop, orderAt, scopeAt, kField, ringCount]
  exact of_pack hw hb rfl rfl rfl fun _ => key _ (read hb 1) (vAt_of (read hb 2)) (vAt_of (read hb 3)) (vAt_of (read hb 4)) (kAt_of (read hb 5)) (read hb 7) (read hb 6)

theorem Encoding.vmax (sz : ElemSize) (vd a b : VReg) (k : KReg) : Statement (.vmax sz vd a b k) := by
  have hw : wordV 0x10 (11 + 32 * sz.code) vd a b k =
      pack [(1, 1), (6, 16), (5, vd.val), (5, a.val), (5, b.val), (3, k.val), (5, 11), (2, sz.code)] := by simp only [wordR, wordV, wordA, wordE, wordM, word, core_code, Bool.toNat_true, Bool.toNat_false, pack]; omega
  have hb : Bounded [(1, 1), (6, 16), (5, vd.val), (5, a.val), (5, b.val), (3, k.val), (5, 11), (2, sz.code)] :=
    ⟨by decide, by decide, vd.isLt, a.isLt, b.isLt, k.isLt, by decide, ElemSize.code_lt sz, trivial⟩
  have key : ∀ m, bits m 1 6 = 16 →
      vAt m 7 = vd →
      vAt m 12 = a →
      vAt m 17 = b →
      kAt m 22 = k →
      bits m 30 2 = sz.code →
      bits m 25 5 = 11 →
      decodeWord m = .ok (.vmax sz vd a b k) := by
    intro m f0 f1 f2 f3 f4 f5 f6
    simp [decodeWord, f0, f1, f2, f3, f4, f5, f6, decodeVop, orderAt, scopeAt, kField, ringCount]
  exact of_pack hw hb rfl rfl rfl fun _ => key _ (read hb 1) (vAt_of (read hb 2)) (vAt_of (read hb 3)) (vAt_of (read hb 4)) (kAt_of (read hb 5)) (read hb 7) (read hb 6)

theorem Encoding.vminu (sz : ElemSize) (vd a b : VReg) (k : KReg) : Statement (.vminu sz vd a b k) := by
  have hw : wordV 0x10 (12 + 32 * sz.code) vd a b k =
      pack [(1, 1), (6, 16), (5, vd.val), (5, a.val), (5, b.val), (3, k.val), (5, 12), (2, sz.code)] := by simp only [wordR, wordV, wordA, wordE, wordM, word, core_code, Bool.toNat_true, Bool.toNat_false, pack]; omega
  have hb : Bounded [(1, 1), (6, 16), (5, vd.val), (5, a.val), (5, b.val), (3, k.val), (5, 12), (2, sz.code)] :=
    ⟨by decide, by decide, vd.isLt, a.isLt, b.isLt, k.isLt, by decide, ElemSize.code_lt sz, trivial⟩
  have key : ∀ m, bits m 1 6 = 16 →
      vAt m 7 = vd →
      vAt m 12 = a →
      vAt m 17 = b →
      kAt m 22 = k →
      bits m 30 2 = sz.code →
      bits m 25 5 = 12 →
      decodeWord m = .ok (.vminu sz vd a b k) := by
    intro m f0 f1 f2 f3 f4 f5 f6
    simp [decodeWord, f0, f1, f2, f3, f4, f5, f6, decodeVop, orderAt, scopeAt, kField, ringCount]
  exact of_pack hw hb rfl rfl rfl fun _ => key _ (read hb 1) (vAt_of (read hb 2)) (vAt_of (read hb 3)) (vAt_of (read hb 4)) (kAt_of (read hb 5)) (read hb 7) (read hb 6)

theorem Encoding.vmaxu (sz : ElemSize) (vd a b : VReg) (k : KReg) : Statement (.vmaxu sz vd a b k) := by
  have hw : wordV 0x10 (13 + 32 * sz.code) vd a b k =
      pack [(1, 1), (6, 16), (5, vd.val), (5, a.val), (5, b.val), (3, k.val), (5, 13), (2, sz.code)] := by simp only [wordR, wordV, wordA, wordE, wordM, word, core_code, Bool.toNat_true, Bool.toNat_false, pack]; omega
  have hb : Bounded [(1, 1), (6, 16), (5, vd.val), (5, a.val), (5, b.val), (3, k.val), (5, 13), (2, sz.code)] :=
    ⟨by decide, by decide, vd.isLt, a.isLt, b.isLt, k.isLt, by decide, ElemSize.code_lt sz, trivial⟩
  have key : ∀ m, bits m 1 6 = 16 →
      vAt m 7 = vd →
      vAt m 12 = a →
      vAt m 17 = b →
      kAt m 22 = k →
      bits m 30 2 = sz.code →
      bits m 25 5 = 13 →
      decodeWord m = .ok (.vmaxu sz vd a b k) := by
    intro m f0 f1 f2 f3 f4 f5 f6
    simp [decodeWord, f0, f1, f2, f3, f4, f5, f6, decodeVop, orderAt, scopeAt, kField, ringCount]
  exact of_pack hw hb rfl rfl rfl fun _ => key _ (read hb 1) (vAt_of (read hb 2)) (vAt_of (read hb 3)) (vAt_of (read hb 4)) (kAt_of (read hb 5)) (read hb 7) (read hb 6)

theorem Encoding.vmov (vd b : VReg) (k : KReg) : Statement (.vmov vd b k) := by
  have hw : wordV 0x10 14 vd 0 b k =
      pack [(1, 1), (6, 16), (5, vd.val), (5, 0), (5, b.val), (3, k.val), (5, 14), (2, 0)] := by simp only [wordR, wordV, wordA, wordE, wordM, word, core_code, Bool.toNat_true, Bool.toNat_false, pack]; omega
  have hb : Bounded [(1, 1), (6, 16), (5, vd.val), (5, 0), (5, b.val), (3, k.val), (5, 14), (2, 0)] :=
    ⟨by decide, by decide, vd.isLt, by decide, b.isLt, k.isLt, by decide, by decide, trivial⟩
  have key : ∀ m, bits m 1 6 = 16 →
      vAt m 7 = vd →
      vAt m 12 = 0 →
      vAt m 17 = b →
      kAt m 22 = k →
      bits m 30 2 = 0 →
      bits m 25 5 = 14 →
      bits m 12 5 = 0 →
      decodeWord m = .ok (.vmov vd b k) := by
    intro m f0 f1 f2 f3 f4 f5 f6 f7
    simp [decodeWord, f0, f1, f2, f3, f4, f5, f6, f7, decodeVop, orderAt, scopeAt, kField, ringCount]
  exact of_pack hw hb rfl rfl rfl fun _ => key _ (read hb 1) (vAt_of (read hb 2)) (vAt_of (read hb 3)) (vAt_of (read hb 4)) (kAt_of (read hb 5)) (read hb 7) (read hb 6) (read hb 3)

theorem Encoding.vsel (vd a b : VReg) (k : KReg) : Statement (.vsel vd a b k) := by
  have hw : wordV 0x10 15 vd a b k =
      pack [(1, 1), (6, 16), (5, vd.val), (5, a.val), (5, b.val), (3, k.val), (5, 15), (2, 0)] := by simp only [wordR, wordV, wordA, wordE, wordM, word, core_code, Bool.toNat_true, Bool.toNat_false, pack]; omega
  have hb : Bounded [(1, 1), (6, 16), (5, vd.val), (5, a.val), (5, b.val), (3, k.val), (5, 15), (2, 0)] :=
    ⟨by decide, by decide, vd.isLt, a.isLt, b.isLt, k.isLt, by decide, by decide, trivial⟩
  have key : ∀ m, bits m 1 6 = 16 →
      vAt m 7 = vd →
      vAt m 12 = a →
      vAt m 17 = b →
      kAt m 22 = k →
      bits m 30 2 = 0 →
      bits m 25 5 = 15 →
      decodeWord m = .ok (.vsel vd a b k) := by
    intro m f0 f1 f2 f3 f4 f5 f6
    simp [decodeWord, f0, f1, f2, f3, f4, f5, f6, decodeVop, orderAt, scopeAt, kField, ringCount]
  exact of_pack hw hb rfl rfl rfl fun _ => key _ (read hb 1) (vAt_of (read hb 2)) (vAt_of (read hb 3)) (vAt_of (read hb 4)) (kAt_of (read hb 5)) (read hb 7) (read hb 6)

theorem Encoding.vcmpEq (sz : ElemSize) (kd : KReg) (a b : VReg) (k : KReg) : Statement (.vcmpEq sz kd a b k) := by
  have hw : wordV 0x10 (16 + 32 * sz.code) kd a b k =
      pack [(1, 1), (6, 16), (3, kd.val), (2, 0), (5, a.val), (5, b.val), (3, k.val), (5, 16), (2, sz.code)] := by simp only [wordR, wordV, wordA, wordE, wordM, word, core_code, Bool.toNat_true, Bool.toNat_false, pack]; omega
  have hb : Bounded [(1, 1), (6, 16), (3, kd.val), (2, 0), (5, a.val), (5, b.val), (3, k.val), (5, 16), (2, sz.code)] :=
    ⟨by decide, by decide, kd.isLt, by decide, a.isLt, b.isLt, k.isLt, by decide, ElemSize.code_lt sz, trivial⟩
  have key : ∀ m, bits m 1 6 = 16 →
      vAt m 12 = a →
      vAt m 17 = b →
      kAt m 22 = k →
      kAt m 7 = kd →
      bits m 30 2 = sz.code →
      bits m 25 5 = 16 →
      bits m 10 2 = 0 →
      decodeWord m = .ok (.vcmpEq sz kd a b k) := by
    intro m f0 f1 f2 f3 f4 f5 f6 f7
    simp [decodeWord, f0, f1, f2, f3, f4, f5, f6, f7, decodeVop, orderAt, scopeAt, kField, ringCount]
  exact of_pack hw hb rfl rfl rfl fun _ => key _ (read hb 1) (vAt_of (read hb 4)) (vAt_of (read hb 5)) (kAt_of (read hb 6)) (kAt_of (read hb 2)) (read hb 8) (read hb 7) (read hb 3)

theorem Encoding.vcmpNe (sz : ElemSize) (kd : KReg) (a b : VReg) (k : KReg) : Statement (.vcmpNe sz kd a b k) := by
  have hw : wordV 0x10 (17 + 32 * sz.code) kd a b k =
      pack [(1, 1), (6, 16), (3, kd.val), (2, 0), (5, a.val), (5, b.val), (3, k.val), (5, 17), (2, sz.code)] := by simp only [wordR, wordV, wordA, wordE, wordM, word, core_code, Bool.toNat_true, Bool.toNat_false, pack]; omega
  have hb : Bounded [(1, 1), (6, 16), (3, kd.val), (2, 0), (5, a.val), (5, b.val), (3, k.val), (5, 17), (2, sz.code)] :=
    ⟨by decide, by decide, kd.isLt, by decide, a.isLt, b.isLt, k.isLt, by decide, ElemSize.code_lt sz, trivial⟩
  have key : ∀ m, bits m 1 6 = 16 →
      vAt m 12 = a →
      vAt m 17 = b →
      kAt m 22 = k →
      kAt m 7 = kd →
      bits m 30 2 = sz.code →
      bits m 25 5 = 17 →
      bits m 10 2 = 0 →
      decodeWord m = .ok (.vcmpNe sz kd a b k) := by
    intro m f0 f1 f2 f3 f4 f5 f6 f7
    simp [decodeWord, f0, f1, f2, f3, f4, f5, f6, f7, decodeVop, orderAt, scopeAt, kField, ringCount]
  exact of_pack hw hb rfl rfl rfl fun _ => key _ (read hb 1) (vAt_of (read hb 4)) (vAt_of (read hb 5)) (kAt_of (read hb 6)) (kAt_of (read hb 2)) (read hb 8) (read hb 7) (read hb 3)

theorem Encoding.vcmpLt (sz : ElemSize) (kd : KReg) (a b : VReg) (k : KReg) : Statement (.vcmpLt sz kd a b k) := by
  have hw : wordV 0x10 (18 + 32 * sz.code) kd a b k =
      pack [(1, 1), (6, 16), (3, kd.val), (2, 0), (5, a.val), (5, b.val), (3, k.val), (5, 18), (2, sz.code)] := by simp only [wordR, wordV, wordA, wordE, wordM, word, core_code, Bool.toNat_true, Bool.toNat_false, pack]; omega
  have hb : Bounded [(1, 1), (6, 16), (3, kd.val), (2, 0), (5, a.val), (5, b.val), (3, k.val), (5, 18), (2, sz.code)] :=
    ⟨by decide, by decide, kd.isLt, by decide, a.isLt, b.isLt, k.isLt, by decide, ElemSize.code_lt sz, trivial⟩
  have key : ∀ m, bits m 1 6 = 16 →
      vAt m 12 = a →
      vAt m 17 = b →
      kAt m 22 = k →
      kAt m 7 = kd →
      bits m 30 2 = sz.code →
      bits m 25 5 = 18 →
      bits m 10 2 = 0 →
      decodeWord m = .ok (.vcmpLt sz kd a b k) := by
    intro m f0 f1 f2 f3 f4 f5 f6 f7
    simp [decodeWord, f0, f1, f2, f3, f4, f5, f6, f7, decodeVop, orderAt, scopeAt, kField, ringCount]
  exact of_pack hw hb rfl rfl rfl fun _ => key _ (read hb 1) (vAt_of (read hb 4)) (vAt_of (read hb 5)) (kAt_of (read hb 6)) (kAt_of (read hb 2)) (read hb 8) (read hb 7) (read hb 3)

theorem Encoding.vcmpGe (sz : ElemSize) (kd : KReg) (a b : VReg) (k : KReg) : Statement (.vcmpGe sz kd a b k) := by
  have hw : wordV 0x10 (19 + 32 * sz.code) kd a b k =
      pack [(1, 1), (6, 16), (3, kd.val), (2, 0), (5, a.val), (5, b.val), (3, k.val), (5, 19), (2, sz.code)] := by simp only [wordR, wordV, wordA, wordE, wordM, word, core_code, Bool.toNat_true, Bool.toNat_false, pack]; omega
  have hb : Bounded [(1, 1), (6, 16), (3, kd.val), (2, 0), (5, a.val), (5, b.val), (3, k.val), (5, 19), (2, sz.code)] :=
    ⟨by decide, by decide, kd.isLt, by decide, a.isLt, b.isLt, k.isLt, by decide, ElemSize.code_lt sz, trivial⟩
  have key : ∀ m, bits m 1 6 = 16 →
      vAt m 12 = a →
      vAt m 17 = b →
      kAt m 22 = k →
      kAt m 7 = kd →
      bits m 30 2 = sz.code →
      bits m 25 5 = 19 →
      bits m 10 2 = 0 →
      decodeWord m = .ok (.vcmpGe sz kd a b k) := by
    intro m f0 f1 f2 f3 f4 f5 f6 f7
    simp [decodeWord, f0, f1, f2, f3, f4, f5, f6, f7, decodeVop, orderAt, scopeAt, kField, ringCount]
  exact of_pack hw hb rfl rfl rfl fun _ => key _ (read hb 1) (vAt_of (read hb 4)) (vAt_of (read hb 5)) (kAt_of (read hb 6)) (kAt_of (read hb 2)) (read hb 8) (read hb 7) (read hb 3)

theorem Encoding.vcmpLtu (sz : ElemSize) (kd : KReg) (a b : VReg) (k : KReg) : Statement (.vcmpLtu sz kd a b k) := by
  have hw : wordV 0x10 (20 + 32 * sz.code) kd a b k =
      pack [(1, 1), (6, 16), (3, kd.val), (2, 0), (5, a.val), (5, b.val), (3, k.val), (5, 20), (2, sz.code)] := by simp only [wordR, wordV, wordA, wordE, wordM, word, core_code, Bool.toNat_true, Bool.toNat_false, pack]; omega
  have hb : Bounded [(1, 1), (6, 16), (3, kd.val), (2, 0), (5, a.val), (5, b.val), (3, k.val), (5, 20), (2, sz.code)] :=
    ⟨by decide, by decide, kd.isLt, by decide, a.isLt, b.isLt, k.isLt, by decide, ElemSize.code_lt sz, trivial⟩
  have key : ∀ m, bits m 1 6 = 16 →
      vAt m 12 = a →
      vAt m 17 = b →
      kAt m 22 = k →
      kAt m 7 = kd →
      bits m 30 2 = sz.code →
      bits m 25 5 = 20 →
      bits m 10 2 = 0 →
      decodeWord m = .ok (.vcmpLtu sz kd a b k) := by
    intro m f0 f1 f2 f3 f4 f5 f6 f7
    simp [decodeWord, f0, f1, f2, f3, f4, f5, f6, f7, decodeVop, orderAt, scopeAt, kField, ringCount]
  exact of_pack hw hb rfl rfl rfl fun _ => key _ (read hb 1) (vAt_of (read hb 4)) (vAt_of (read hb 5)) (kAt_of (read hb 6)) (kAt_of (read hb 2)) (read hb 8) (read hb 7) (read hb 3)

theorem Encoding.vcmpGeu (sz : ElemSize) (kd : KReg) (a b : VReg) (k : KReg) : Statement (.vcmpGeu sz kd a b k) := by
  have hw : wordV 0x10 (21 + 32 * sz.code) kd a b k =
      pack [(1, 1), (6, 16), (3, kd.val), (2, 0), (5, a.val), (5, b.val), (3, k.val), (5, 21), (2, sz.code)] := by simp only [wordR, wordV, wordA, wordE, wordM, word, core_code, Bool.toNat_true, Bool.toNat_false, pack]; omega
  have hb : Bounded [(1, 1), (6, 16), (3, kd.val), (2, 0), (5, a.val), (5, b.val), (3, k.val), (5, 21), (2, sz.code)] :=
    ⟨by decide, by decide, kd.isLt, by decide, a.isLt, b.isLt, k.isLt, by decide, ElemSize.code_lt sz, trivial⟩
  have key : ∀ m, bits m 1 6 = 16 →
      vAt m 12 = a →
      vAt m 17 = b →
      kAt m 22 = k →
      kAt m 7 = kd →
      bits m 30 2 = sz.code →
      bits m 25 5 = 21 →
      bits m 10 2 = 0 →
      decodeWord m = .ok (.vcmpGeu sz kd a b k) := by
    intro m f0 f1 f2 f3 f4 f5 f6 f7
    simp [decodeWord, f0, f1, f2, f3, f4, f5, f6, f7, decodeVop, orderAt, scopeAt, kField, ringCount]
  exact of_pack hw hb rfl rfl rfl fun _ => key _ (read hb 1) (vAt_of (read hb 4)) (vAt_of (read hb 5)) (kAt_of (read hb 6)) (kAt_of (read hb 2)) (read hb 8) (read hb 7) (read hb 3)

theorem Encoding.vfadd (ty : FType) (vd a b : VReg) (k : KReg) : Statement (.vfadd ty vd a b k) := by
  have hw : wordV 0x11 (0 + 32 * ty.code) vd a b k =
      pack [(1, 1), (6, 17), (5, vd.val), (5, a.val), (5, b.val), (3, k.val), (5, 0), (2, ty.code)] := by simp only [wordR, wordV, wordA, wordE, wordM, word, core_code, Bool.toNat_true, Bool.toNat_false, pack]; omega
  have hb : Bounded [(1, 1), (6, 17), (5, vd.val), (5, a.val), (5, b.val), (3, k.val), (5, 0), (2, ty.code)] :=
    ⟨by decide, by decide, vd.isLt, a.isLt, b.isLt, k.isLt, by decide, FType.code_lt ty, trivial⟩
  have key : ∀ m, bits m 1 6 = 17 →
      vAt m 7 = vd →
      vAt m 12 = a →
      vAt m 17 = b →
      kAt m 22 = k →
      bits m 30 2 = ty.code →
      bits m 25 5 = 0 →
      decodeWord m = .ok (.vfadd ty vd a b k) := by
    intro m f0 f1 f2 f3 f4 f5 f6
    simp [decodeWord, f0, f1, f2, f3, f4, f5, f6, decodeVfop, orderAt, scopeAt, kField, ringCount]
  exact of_pack hw hb rfl rfl rfl fun _ => key _ (read hb 1) (vAt_of (read hb 2)) (vAt_of (read hb 3)) (vAt_of (read hb 4)) (kAt_of (read hb 5)) (read hb 7) (read hb 6)

theorem Encoding.vfsub (ty : FType) (vd a b : VReg) (k : KReg) : Statement (.vfsub ty vd a b k) := by
  have hw : wordV 0x11 (1 + 32 * ty.code) vd a b k =
      pack [(1, 1), (6, 17), (5, vd.val), (5, a.val), (5, b.val), (3, k.val), (5, 1), (2, ty.code)] := by simp only [wordR, wordV, wordA, wordE, wordM, word, core_code, Bool.toNat_true, Bool.toNat_false, pack]; omega
  have hb : Bounded [(1, 1), (6, 17), (5, vd.val), (5, a.val), (5, b.val), (3, k.val), (5, 1), (2, ty.code)] :=
    ⟨by decide, by decide, vd.isLt, a.isLt, b.isLt, k.isLt, by decide, FType.code_lt ty, trivial⟩
  have key : ∀ m, bits m 1 6 = 17 →
      vAt m 7 = vd →
      vAt m 12 = a →
      vAt m 17 = b →
      kAt m 22 = k →
      bits m 30 2 = ty.code →
      bits m 25 5 = 1 →
      decodeWord m = .ok (.vfsub ty vd a b k) := by
    intro m f0 f1 f2 f3 f4 f5 f6
    simp [decodeWord, f0, f1, f2, f3, f4, f5, f6, decodeVfop, orderAt, scopeAt, kField, ringCount]
  exact of_pack hw hb rfl rfl rfl fun _ => key _ (read hb 1) (vAt_of (read hb 2)) (vAt_of (read hb 3)) (vAt_of (read hb 4)) (kAt_of (read hb 5)) (read hb 7) (read hb 6)

theorem Encoding.vfmul (ty : FType) (vd a b : VReg) (k : KReg) : Statement (.vfmul ty vd a b k) := by
  have hw : wordV 0x11 (2 + 32 * ty.code) vd a b k =
      pack [(1, 1), (6, 17), (5, vd.val), (5, a.val), (5, b.val), (3, k.val), (5, 2), (2, ty.code)] := by simp only [wordR, wordV, wordA, wordE, wordM, word, core_code, Bool.toNat_true, Bool.toNat_false, pack]; omega
  have hb : Bounded [(1, 1), (6, 17), (5, vd.val), (5, a.val), (5, b.val), (3, k.val), (5, 2), (2, ty.code)] :=
    ⟨by decide, by decide, vd.isLt, a.isLt, b.isLt, k.isLt, by decide, FType.code_lt ty, trivial⟩
  have key : ∀ m, bits m 1 6 = 17 →
      vAt m 7 = vd →
      vAt m 12 = a →
      vAt m 17 = b →
      kAt m 22 = k →
      bits m 30 2 = ty.code →
      bits m 25 5 = 2 →
      decodeWord m = .ok (.vfmul ty vd a b k) := by
    intro m f0 f1 f2 f3 f4 f5 f6
    simp [decodeWord, f0, f1, f2, f3, f4, f5, f6, decodeVfop, orderAt, scopeAt, kField, ringCount]
  exact of_pack hw hb rfl rfl rfl fun _ => key _ (read hb 1) (vAt_of (read hb 2)) (vAt_of (read hb 3)) (vAt_of (read hb 4)) (kAt_of (read hb 5)) (read hb 7) (read hb 6)

theorem Encoding.vfdiv (ty : FType) (vd a b : VReg) (k : KReg) : Statement (.vfdiv ty vd a b k) := by
  have hw : wordV 0x11 (3 + 32 * ty.code) vd a b k =
      pack [(1, 1), (6, 17), (5, vd.val), (5, a.val), (5, b.val), (3, k.val), (5, 3), (2, ty.code)] := by simp only [wordR, wordV, wordA, wordE, wordM, word, core_code, Bool.toNat_true, Bool.toNat_false, pack]; omega
  have hb : Bounded [(1, 1), (6, 17), (5, vd.val), (5, a.val), (5, b.val), (3, k.val), (5, 3), (2, ty.code)] :=
    ⟨by decide, by decide, vd.isLt, a.isLt, b.isLt, k.isLt, by decide, FType.code_lt ty, trivial⟩
  have key : ∀ m, bits m 1 6 = 17 →
      vAt m 7 = vd →
      vAt m 12 = a →
      vAt m 17 = b →
      kAt m 22 = k →
      bits m 30 2 = ty.code →
      bits m 25 5 = 3 →
      decodeWord m = .ok (.vfdiv ty vd a b k) := by
    intro m f0 f1 f2 f3 f4 f5 f6
    simp [decodeWord, f0, f1, f2, f3, f4, f5, f6, decodeVfop, orderAt, scopeAt, kField, ringCount]
  exact of_pack hw hb rfl rfl rfl fun _ => key _ (read hb 1) (vAt_of (read hb 2)) (vAt_of (read hb 3)) (vAt_of (read hb 4)) (kAt_of (read hb 5)) (read hb 7) (read hb 6)

theorem Encoding.vfsqrt (ty : FType) (vd a : VReg) (k : KReg) : Statement (.vfsqrt ty vd a k) := by
  have hw : wordV 0x11 (4 + 32 * ty.code) vd a 0 k =
      pack [(1, 1), (6, 17), (5, vd.val), (5, a.val), (5, 0), (3, k.val), (5, 4), (2, ty.code)] := by simp only [wordR, wordV, wordA, wordE, wordM, word, core_code, Bool.toNat_true, Bool.toNat_false, pack]; omega
  have hb : Bounded [(1, 1), (6, 17), (5, vd.val), (5, a.val), (5, 0), (3, k.val), (5, 4), (2, ty.code)] :=
    ⟨by decide, by decide, vd.isLt, a.isLt, by decide, k.isLt, by decide, FType.code_lt ty, trivial⟩
  have key : ∀ m, bits m 1 6 = 17 →
      vAt m 7 = vd →
      vAt m 12 = a →
      vAt m 17 = 0 →
      kAt m 22 = k →
      bits m 30 2 = ty.code →
      bits m 25 5 = 4 →
      bits m 17 5 = 0 →
      decodeWord m = .ok (.vfsqrt ty vd a k) := by
    intro m f0 f1 f2 f3 f4 f5 f6 f7
    simp [decodeWord, f0, f1, f2, f3, f4, f5, f6, f7, decodeVfop, orderAt, scopeAt, kField, ringCount]
  exact of_pack hw hb rfl rfl rfl fun _ => key _ (read hb 1) (vAt_of (read hb 2)) (vAt_of (read hb 3)) (vAt_of (read hb 4)) (kAt_of (read hb 5)) (read hb 7) (read hb 6) (read hb 4)

theorem Encoding.vfmin (ty : FType) (vd a b : VReg) (k : KReg) : Statement (.vfmin ty vd a b k) := by
  have hw : wordV 0x11 (5 + 32 * ty.code) vd a b k =
      pack [(1, 1), (6, 17), (5, vd.val), (5, a.val), (5, b.val), (3, k.val), (5, 5), (2, ty.code)] := by simp only [wordR, wordV, wordA, wordE, wordM, word, core_code, Bool.toNat_true, Bool.toNat_false, pack]; omega
  have hb : Bounded [(1, 1), (6, 17), (5, vd.val), (5, a.val), (5, b.val), (3, k.val), (5, 5), (2, ty.code)] :=
    ⟨by decide, by decide, vd.isLt, a.isLt, b.isLt, k.isLt, by decide, FType.code_lt ty, trivial⟩
  have key : ∀ m, bits m 1 6 = 17 →
      vAt m 7 = vd →
      vAt m 12 = a →
      vAt m 17 = b →
      kAt m 22 = k →
      bits m 30 2 = ty.code →
      bits m 25 5 = 5 →
      decodeWord m = .ok (.vfmin ty vd a b k) := by
    intro m f0 f1 f2 f3 f4 f5 f6
    simp [decodeWord, f0, f1, f2, f3, f4, f5, f6, decodeVfop, orderAt, scopeAt, kField, ringCount]
  exact of_pack hw hb rfl rfl rfl fun _ => key _ (read hb 1) (vAt_of (read hb 2)) (vAt_of (read hb 3)) (vAt_of (read hb 4)) (kAt_of (read hb 5)) (read hb 7) (read hb 6)

theorem Encoding.vfmax (ty : FType) (vd a b : VReg) (k : KReg) : Statement (.vfmax ty vd a b k) := by
  have hw : wordV 0x11 (6 + 32 * ty.code) vd a b k =
      pack [(1, 1), (6, 17), (5, vd.val), (5, a.val), (5, b.val), (3, k.val), (5, 6), (2, ty.code)] := by simp only [wordR, wordV, wordA, wordE, wordM, word, core_code, Bool.toNat_true, Bool.toNat_false, pack]; omega
  have hb : Bounded [(1, 1), (6, 17), (5, vd.val), (5, a.val), (5, b.val), (3, k.val), (5, 6), (2, ty.code)] :=
    ⟨by decide, by decide, vd.isLt, a.isLt, b.isLt, k.isLt, by decide, FType.code_lt ty, trivial⟩
  have key : ∀ m, bits m 1 6 = 17 →
      vAt m 7 = vd →
      vAt m 12 = a →
      vAt m 17 = b →
      kAt m 22 = k →
      bits m 30 2 = ty.code →
      bits m 25 5 = 6 →
      decodeWord m = .ok (.vfmax ty vd a b k) := by
    intro m f0 f1 f2 f3 f4 f5 f6
    simp [decodeWord, f0, f1, f2, f3, f4, f5, f6, decodeVfop, orderAt, scopeAt, kField, ringCount]
  exact of_pack hw hb rfl rfl rfl fun _ => key _ (read hb 1) (vAt_of (read hb 2)) (vAt_of (read hb 3)) (vAt_of (read hb 4)) (kAt_of (read hb 5)) (read hb 7) (read hb 6)

theorem Encoding.vfabs (ty : FType) (vd a : VReg) (k : KReg) : Statement (.vfabs ty vd a k) := by
  have hw : wordV 0x11 (7 + 32 * ty.code) vd a 0 k =
      pack [(1, 1), (6, 17), (5, vd.val), (5, a.val), (5, 0), (3, k.val), (5, 7), (2, ty.code)] := by simp only [wordR, wordV, wordA, wordE, wordM, word, core_code, Bool.toNat_true, Bool.toNat_false, pack]; omega
  have hb : Bounded [(1, 1), (6, 17), (5, vd.val), (5, a.val), (5, 0), (3, k.val), (5, 7), (2, ty.code)] :=
    ⟨by decide, by decide, vd.isLt, a.isLt, by decide, k.isLt, by decide, FType.code_lt ty, trivial⟩
  have key : ∀ m, bits m 1 6 = 17 →
      vAt m 7 = vd →
      vAt m 12 = a →
      vAt m 17 = 0 →
      kAt m 22 = k →
      bits m 30 2 = ty.code →
      bits m 25 5 = 7 →
      bits m 17 5 = 0 →
      decodeWord m = .ok (.vfabs ty vd a k) := by
    intro m f0 f1 f2 f3 f4 f5 f6 f7
    simp [decodeWord, f0, f1, f2, f3, f4, f5, f6, f7, decodeVfop, orderAt, scopeAt, kField, ringCount]
  exact of_pack hw hb rfl rfl rfl fun _ => key _ (read hb 1) (vAt_of (read hb 2)) (vAt_of (read hb 3)) (vAt_of (read hb 4)) (kAt_of (read hb 5)) (read hb 7) (read hb 6) (read hb 4)

theorem Encoding.vfneg (ty : FType) (vd a : VReg) (k : KReg) : Statement (.vfneg ty vd a k) := by
  have hw : wordV 0x11 (8 + 32 * ty.code) vd a 0 k =
      pack [(1, 1), (6, 17), (5, vd.val), (5, a.val), (5, 0), (3, k.val), (5, 8), (2, ty.code)] := by simp only [wordR, wordV, wordA, wordE, wordM, word, core_code, Bool.toNat_true, Bool.toNat_false, pack]; omega
  have hb : Bounded [(1, 1), (6, 17), (5, vd.val), (5, a.val), (5, 0), (3, k.val), (5, 8), (2, ty.code)] :=
    ⟨by decide, by decide, vd.isLt, a.isLt, by decide, k.isLt, by decide, FType.code_lt ty, trivial⟩
  have key : ∀ m, bits m 1 6 = 17 →
      vAt m 7 = vd →
      vAt m 12 = a →
      vAt m 17 = 0 →
      kAt m 22 = k →
      bits m 30 2 = ty.code →
      bits m 25 5 = 8 →
      bits m 17 5 = 0 →
      decodeWord m = .ok (.vfneg ty vd a k) := by
    intro m f0 f1 f2 f3 f4 f5 f6 f7
    simp [decodeWord, f0, f1, f2, f3, f4, f5, f6, f7, decodeVfop, orderAt, scopeAt, kField, ringCount]
  exact of_pack hw hb rfl rfl rfl fun _ => key _ (read hb 1) (vAt_of (read hb 2)) (vAt_of (read hb 3)) (vAt_of (read hb 4)) (kAt_of (read hb 5)) (read hb 7) (read hb 6) (read hb 4)

theorem Encoding.vfcmpEq (kd : KReg) (a b : VReg) (k : KReg) : Statement (.vfcmpEq kd a b k) := by
  have hw : wordV 0x11 9 kd a b k =
      pack [(1, 1), (6, 17), (3, kd.val), (2, 0), (5, a.val), (5, b.val), (3, k.val), (5, 9), (2, 0)] := by simp only [wordR, wordV, wordA, wordE, wordM, word, core_code, Bool.toNat_true, Bool.toNat_false, pack]; omega
  have hb : Bounded [(1, 1), (6, 17), (3, kd.val), (2, 0), (5, a.val), (5, b.val), (3, k.val), (5, 9), (2, 0)] :=
    ⟨by decide, by decide, kd.isLt, by decide, a.isLt, b.isLt, k.isLt, by decide, by decide, trivial⟩
  have key : ∀ m, bits m 1 6 = 17 →
      vAt m 12 = a →
      vAt m 17 = b →
      kAt m 22 = k →
      kAt m 7 = kd →
      bits m 30 2 = 0 →
      bits m 25 5 = 9 →
      bits m 10 2 = 0 →
      decodeWord m = .ok (.vfcmpEq kd a b k) := by
    intro m f0 f1 f2 f3 f4 f5 f6 f7
    simp [decodeWord, f0, f1, f2, f3, f4, f5, f6, f7, decodeVfop, orderAt, scopeAt, kField, ringCount]
  exact of_pack hw hb rfl rfl rfl fun _ => key _ (read hb 1) (vAt_of (read hb 4)) (vAt_of (read hb 5)) (kAt_of (read hb 6)) (kAt_of (read hb 2)) (read hb 8) (read hb 7) (read hb 3)

theorem Encoding.vfcmpLt (kd : KReg) (a b : VReg) (k : KReg) : Statement (.vfcmpLt kd a b k) := by
  have hw : wordV 0x11 10 kd a b k =
      pack [(1, 1), (6, 17), (3, kd.val), (2, 0), (5, a.val), (5, b.val), (3, k.val), (5, 10), (2, 0)] := by simp only [wordR, wordV, wordA, wordE, wordM, word, core_code, Bool.toNat_true, Bool.toNat_false, pack]; omega
  have hb : Bounded [(1, 1), (6, 17), (3, kd.val), (2, 0), (5, a.val), (5, b.val), (3, k.val), (5, 10), (2, 0)] :=
    ⟨by decide, by decide, kd.isLt, by decide, a.isLt, b.isLt, k.isLt, by decide, by decide, trivial⟩
  have key : ∀ m, bits m 1 6 = 17 →
      vAt m 12 = a →
      vAt m 17 = b →
      kAt m 22 = k →
      kAt m 7 = kd →
      bits m 30 2 = 0 →
      bits m 25 5 = 10 →
      bits m 10 2 = 0 →
      decodeWord m = .ok (.vfcmpLt kd a b k) := by
    intro m f0 f1 f2 f3 f4 f5 f6 f7
    simp [decodeWord, f0, f1, f2, f3, f4, f5, f6, f7, decodeVfop, orderAt, scopeAt, kField, ringCount]
  exact of_pack hw hb rfl rfl rfl fun _ => key _ (read hb 1) (vAt_of (read hb 4)) (vAt_of (read hb 5)) (kAt_of (read hb 6)) (kAt_of (read hb 2)) (read hb 8) (read hb 7) (read hb 3)

theorem Encoding.vfcmpLe (kd : KReg) (a b : VReg) (k : KReg) : Statement (.vfcmpLe kd a b k) := by
  have hw : wordV 0x11 11 kd a b k =
      pack [(1, 1), (6, 17), (3, kd.val), (2, 0), (5, a.val), (5, b.val), (3, k.val), (5, 11), (2, 0)] := by simp only [wordR, wordV, wordA, wordE, wordM, word, core_code, Bool.toNat_true, Bool.toNat_false, pack]; omega
  have hb : Bounded [(1, 1), (6, 17), (3, kd.val), (2, 0), (5, a.val), (5, b.val), (3, k.val), (5, 11), (2, 0)] :=
    ⟨by decide, by decide, kd.isLt, by decide, a.isLt, b.isLt, k.isLt, by decide, by decide, trivial⟩
  have key : ∀ m, bits m 1 6 = 17 →
      vAt m 12 = a →
      vAt m 17 = b →
      kAt m 22 = k →
      kAt m 7 = kd →
      bits m 30 2 = 0 →
      bits m 25 5 = 11 →
      bits m 10 2 = 0 →
      decodeWord m = .ok (.vfcmpLe kd a b k) := by
    intro m f0 f1 f2 f3 f4 f5 f6 f7
    simp [decodeWord, f0, f1, f2, f3, f4, f5, f6, f7, decodeVfop, orderAt, scopeAt, kField, ringCount]
  exact of_pack hw hb rfl rfl rfl fun _ => key _ (read hb 1) (vAt_of (read hb 4)) (vAt_of (read hb 5)) (kAt_of (read hb 6)) (kAt_of (read hb 2)) (read hb 8) (read hb 7) (read hb 3)

theorem Encoding.vfcmpUn (kd : KReg) (a b : VReg) (k : KReg) : Statement (.vfcmpUn kd a b k) := by
  have hw : wordV 0x11 12 kd a b k =
      pack [(1, 1), (6, 17), (3, kd.val), (2, 0), (5, a.val), (5, b.val), (3, k.val), (5, 12), (2, 0)] := by simp only [wordR, wordV, wordA, wordE, wordM, word, core_code, Bool.toNat_true, Bool.toNat_false, pack]; omega
  have hb : Bounded [(1, 1), (6, 17), (3, kd.val), (2, 0), (5, a.val), (5, b.val), (3, k.val), (5, 12), (2, 0)] :=
    ⟨by decide, by decide, kd.isLt, by decide, a.isLt, b.isLt, k.isLt, by decide, by decide, trivial⟩
  have key : ∀ m, bits m 1 6 = 17 →
      vAt m 12 = a →
      vAt m 17 = b →
      kAt m 22 = k →
      kAt m 7 = kd →
      bits m 30 2 = 0 →
      bits m 25 5 = 12 →
      bits m 10 2 = 0 →
      decodeWord m = .ok (.vfcmpUn kd a b k) := by
    intro m f0 f1 f2 f3 f4 f5 f6 f7
    simp [decodeWord, f0, f1, f2, f3, f4, f5, f6, f7, decodeVfop, orderAt, scopeAt, kField, ringCount]
  exact of_pack hw hb rfl rfl rfl fun _ => key _ (read hb 1) (vAt_of (read hb 4)) (vAt_of (read hb 5)) (kAt_of (read hb 6)) (kAt_of (read hb 2)) (read hb 8) (read hb 7) (read hb 3)

theorem Encoding.vfma (vd a b c : VReg) (k : KReg) : Statement (.vfma vd a b c k) := by
  have hw : word 0x12 [(7, vd), (12, a), (17, b), (22, c), (27, k), (30, 0)] =
      pack [(1, 1), (6, 18), (5, vd.val), (5, a.val), (5, b.val), (5, c.val), (3, k.val), (2, 0)] := by simp only [wordR, wordV, wordA, wordE, wordM, word, core_code, Bool.toNat_true, Bool.toNat_false, pack]; omega
  have hb : Bounded [(1, 1), (6, 18), (5, vd.val), (5, a.val), (5, b.val), (5, c.val), (3, k.val), (2, 0)] :=
    ⟨by decide, by decide, vd.isLt, a.isLt, b.isLt, c.isLt, k.isLt, by decide, trivial⟩
  have key : ∀ m, bits m 1 6 = 18 →
      vAt m 7 = vd →
      vAt m 12 = a →
      vAt m 17 = b →
      vAt m 22 = c →
      kAt m 27 = k →
      bits m 30 2 = 0 →
      decodeWord m = .ok (.vfma vd a b c k) := by
    intro m f0 f1 f2 f3 f4 f5 f6
    simp [decodeWord, f0, f1, f2, f3, f4, f5, f6, decodeVfma, orderAt, scopeAt, kField, ringCount]
  exact of_pack hw hb rfl rfl rfl fun _ => key _ (read hb 1) (vAt_of (read hb 2)) (vAt_of (read hb 3)) (vAt_of (read hb 4)) (vAt_of (read hb 5)) (kAt_of (read hb 6)) (read hb 7)

theorem Encoding.vfms (vd a b c : VReg) (k : KReg) : Statement (.vfms vd a b c k) := by
  have hw : word 0x12 [(7, vd), (12, a), (17, b), (22, c), (27, k), (30, 1)] =
      pack [(1, 1), (6, 18), (5, vd.val), (5, a.val), (5, b.val), (5, c.val), (3, k.val), (2, 1)] := by simp only [wordR, wordV, wordA, wordE, wordM, word, core_code, Bool.toNat_true, Bool.toNat_false, pack]; omega
  have hb : Bounded [(1, 1), (6, 18), (5, vd.val), (5, a.val), (5, b.val), (5, c.val), (3, k.val), (2, 1)] :=
    ⟨by decide, by decide, vd.isLt, a.isLt, b.isLt, c.isLt, k.isLt, by decide, trivial⟩
  have key : ∀ m, bits m 1 6 = 18 →
      vAt m 7 = vd →
      vAt m 12 = a →
      vAt m 17 = b →
      vAt m 22 = c →
      kAt m 27 = k →
      bits m 30 2 = 1 →
      decodeWord m = .ok (.vfms vd a b c k) := by
    intro m f0 f1 f2 f3 f4 f5 f6
    simp [decodeWord, f0, f1, f2, f3, f4, f5, f6, decodeVfma, orderAt, scopeAt, kField, ringCount]
  exact of_pack hw hb rfl rfl rfl fun _ => key _ (read hb 1) (vAt_of (read hb 2)) (vAt_of (read hb 3)) (vAt_of (read hb 4)) (vAt_of (read hb 5)) (kAt_of (read hb 6)) (read hb 7)

theorem Encoding.vfnma (vd a b c : VReg) (k : KReg) : Statement (.vfnma vd a b c k) := by
  have hw : word 0x12 [(7, vd), (12, a), (17, b), (22, c), (27, k), (30, 2)] =
      pack [(1, 1), (6, 18), (5, vd.val), (5, a.val), (5, b.val), (5, c.val), (3, k.val), (2, 2)] := by simp only [wordR, wordV, wordA, wordE, wordM, word, core_code, Bool.toNat_true, Bool.toNat_false, pack]; omega
  have hb : Bounded [(1, 1), (6, 18), (5, vd.val), (5, a.val), (5, b.val), (5, c.val), (3, k.val), (2, 2)] :=
    ⟨by decide, by decide, vd.isLt, a.isLt, b.isLt, c.isLt, k.isLt, by decide, trivial⟩
  have key : ∀ m, bits m 1 6 = 18 →
      vAt m 7 = vd →
      vAt m 12 = a →
      vAt m 17 = b →
      vAt m 22 = c →
      kAt m 27 = k →
      bits m 30 2 = 2 →
      decodeWord m = .ok (.vfnma vd a b c k) := by
    intro m f0 f1 f2 f3 f4 f5 f6
    simp [decodeWord, f0, f1, f2, f3, f4, f5, f6, decodeVfma, orderAt, scopeAt, kField, ringCount]
  exact of_pack hw hb rfl rfl rfl fun _ => key _ (read hb 1) (vAt_of (read hb 2)) (vAt_of (read hb 3)) (vAt_of (read hb 4)) (vAt_of (read hb 5)) (kAt_of (read hb 6)) (read hb 7)

theorem Encoding.vmovx (vd : VReg) (xs : XReg) : Statement (.vmovx vd xs) := by
  have hw : word 0x14 [(7, vd), (12, xs.val % 32), (22, xs.val / 32), (25, 0)] =
      pack [(1, 1), (6, 20), (5, vd.val), (5, xs.val % 32), (4, 0), (1, 0), (1, xs.val / 32), (2, 0), (5, 0), (2, 0)] := by simp only [wordR, wordV, wordA, wordE, wordM, word, core_code, Bool.toNat_true, Bool.toNat_false, pack]; omega
  have hb : Bounded [(1, 1), (6, 20), (5, vd.val), (5, xs.val % 32), (4, 0), (1, 0), (1, xs.val / 32), (2, 0), (5, 0), (2, 0)] :=
    ⟨by decide, by decide, vd.isLt, by omega, by decide, by decide, by omega, by decide, by decide, by decide, trivial⟩
  have key : ∀ m, bits m 1 6 = 20 →
      vAt m 7 = vd →
      vAt m 17 = 0 →
      bits m 30 2 = 0 →
      bits m 25 5 = 0 →
      bits m 23 2 = 0 →
      bits m 17 5 = 0 →
      bits m 22 1 = (xs.val / 32) →
      bits m 12 5 = (xs.val % 32) →
      bits m 21 1 = 0 →
      nibAt m 17 = 0 →
      decodeWord m = .ok (.vmovx vd xs) := by
    intro m f0 f1 f2 f3 f4 f5 f6 f7 f8 f9 f10
    simp [decodeWord, f0, f1, f2, f3, f4, f5, f6, f7, f8, f9, f10, decodeVperm, orderAt, scopeAt, kField, ringCount]
    exact Fin.ext (by rw [Fin.val_natCast]; omega)
  exact of_pack hw hb rfl rfl rfl fun _ => key _ (read hb 1) (vAt_of (read hb 2)) (vAt_of (readSpan hb 4 2)) (read hb 9) (read hb 8) (read hb 7) (readSpan hb 4 2) (read hb 6) (read hb 3) (read hb 5) (nibAt_of (read hb 4))

theorem Encoding.vext (xd : XReg) (a : VReg) (n : Fin 16) : Statement (.vext xd a n) := by
  have hw : word 0x14 [(7, xd.val % 32), (12, a), (17, n.val), (22, xd.val / 32), (25, 1)] =
      pack [(1, 1), (6, 20), (5, xd.val % 32), (5, a.val), (4, n.val), (1, 0), (1, xd.val / 32), (2, 0), (5, 1), (2, 0)] := by simp only [wordR, wordV, wordA, wordE, wordM, word, core_code, Bool.toNat_true, Bool.toNat_false, pack]; omega
  have hb : Bounded [(1, 1), (6, 20), (5, xd.val % 32), (5, a.val), (4, n.val), (1, 0), (1, xd.val / 32), (2, 0), (5, 1), (2, 0)] :=
    ⟨by decide, by decide, by omega, a.isLt, n.isLt, by decide, by omega, by decide, by decide, by decide, trivial⟩
  have key : ∀ m, bits m 1 6 = 20 →
      vAt m 12 = a →
      bits m 30 2 = 0 →
      bits m 25 5 = 1 →
      bits m 23 2 = 0 →
      bits m 22 1 = (xd.val / 32) →
      bits m 21 1 = 0 →
      bits m 7 5 = (xd.val % 32) →
      nibAt m 17 = n →
      decodeWord m = .ok (.vext xd a n) := by
    intro m f0 f1 f2 f3 f4 f5 f6 f7 f8
    simp [decodeWord, f0, f1, f2, f3, f4, f5, f6, f7, f8, decodeVperm, orderAt, scopeAt, kField, ringCount]
    exact Fin.ext (by rw [Fin.val_natCast]; omega)
  exact of_pack hw hb rfl rfl rfl fun _ => key _ (read hb 1) (vAt_of (read hb 3)) (read hb 9) (read hb 8) (read hb 7) (read hb 6) (read hb 5) (read hb 2) (nibAt_of (read hb 4))

theorem Encoding.vshuf (vd a b : VReg) (k : KReg) : Statement (.vshuf vd a b k) := by
  have hw : wordV 0x14 2 vd a b k =
      pack [(1, 1), (6, 20), (5, vd.val), (5, a.val), (5, b.val), (3, k.val), (5, 2), (2, 0)] := by simp only [wordR, wordV, wordA, wordE, wordM, word, core_code, Bool.toNat_true, Bool.toNat_false, pack]; omega
  have hb : Bounded [(1, 1), (6, 20), (5, vd.val), (5, a.val), (5, b.val), (3, k.val), (5, 2), (2, 0)] :=
    ⟨by decide, by decide, vd.isLt, a.isLt, b.isLt, k.isLt, by decide, by decide, trivial⟩
  have key : ∀ m, bits m 1 6 = 20 →
      vAt m 7 = vd →
      vAt m 12 = a →
      vAt m 17 = b →
      kAt m 22 = k →
      bits m 30 2 = 0 →
      bits m 25 5 = 2 →
      decodeWord m = .ok (.vshuf vd a b k) := by
    intro m f0 f1 f2 f3 f4 f5 f6
    simp [decodeWord, f0, f1, f2, f3, f4, f5, f6, decodeVperm, orderAt, scopeAt, kField, ringCount]
  exact of_pack hw hb rfl rfl rfl fun _ => key _ (read hb 1) (vAt_of (read hb 2)) (vAt_of (read hb 3)) (vAt_of (read hb 4)) (kAt_of (read hb 5)) (read hb 7) (read hb 6)

theorem Encoding.vslideUp (vd a : VReg) (n : Fin 16) (k : KReg) : Statement (.vslideUp vd a n k) := by
  have hw : wordV 0x14 3 vd a n k =
      pack [(1, 1), (6, 20), (5, vd.val), (5, a.val), (4, n.val), (1, 0), (3, k.val), (5, 3), (2, 0)] := by simp only [wordR, wordV, wordA, wordE, wordM, word, core_code, Bool.toNat_true, Bool.toNat_false, pack]; omega
  have hb : Bounded [(1, 1), (6, 20), (5, vd.val), (5, a.val), (4, n.val), (1, 0), (3, k.val), (5, 3), (2, 0)] :=
    ⟨by decide, by decide, vd.isLt, a.isLt, n.isLt, by decide, k.isLt, by decide, by decide, trivial⟩
  have key : ∀ m, bits m 1 6 = 20 →
      vAt m 7 = vd →
      vAt m 12 = a →
      kAt m 22 = k →
      bits m 30 2 = 0 →
      bits m 25 5 = 3 →
      bits m 21 1 = 0 →
      nibAt m 17 = n →
      decodeWord m = .ok (.vslideUp vd a n k) := by
    intro m f0 f1 f2 f3 f4 f5 f6 f7
    simp [decodeWord, f0, f1, f2, f3, f4, f5, f6, f7, decodeVperm, orderAt, scopeAt, kField, ringCount]
  exact of_pack hw hb rfl rfl rfl fun _ => key _ (read hb 1) (vAt_of (read hb 2)) (vAt_of (read hb 3)) (kAt_of (read hb 6)) (read hb 8) (read hb 7) (read hb 5) (nibAt_of (read hb 4))

theorem Encoding.vslideDn (vd a : VReg) (n : Fin 16) (k : KReg) : Statement (.vslideDn vd a n k) := by
  have hw : wordV 0x14 4 vd a n k =
      pack [(1, 1), (6, 20), (5, vd.val), (5, a.val), (4, n.val), (1, 0), (3, k.val), (5, 4), (2, 0)] := by simp only [wordR, wordV, wordA, wordE, wordM, word, core_code, Bool.toNat_true, Bool.toNat_false, pack]; omega
  have hb : Bounded [(1, 1), (6, 20), (5, vd.val), (5, a.val), (4, n.val), (1, 0), (3, k.val), (5, 4), (2, 0)] :=
    ⟨by decide, by decide, vd.isLt, a.isLt, n.isLt, by decide, k.isLt, by decide, by decide, trivial⟩
  have key : ∀ m, bits m 1 6 = 20 →
      vAt m 7 = vd →
      vAt m 12 = a →
      kAt m 22 = k →
      bits m 30 2 = 0 →
      bits m 25 5 = 4 →
      bits m 21 1 = 0 →
      nibAt m 17 = n →
      decodeWord m = .ok (.vslideDn vd a n k) := by
    intro m f0 f1 f2 f3 f4 f5 f6 f7
    simp [decodeWord, f0, f1, f2, f3, f4, f5, f6, f7, decodeVperm, orderAt, scopeAt, kField, ringCount]
  exact of_pack hw hb rfl rfl rfl fun _ => key _ (read hb 1) (vAt_of (read hb 2)) (vAt_of (read hb 3)) (kAt_of (read hb 6)) (read hb 8) (read hb 7) (read hb 5) (nibAt_of (read hb 4))

theorem Encoding.vredAdd (vd a : VReg) (k : KReg) : Statement (.vredAdd vd a k) := by
  have hw : wordV 0x14 5 vd a 0 k =
      pack [(1, 1), (6, 20), (5, vd.val), (5, a.val), (4, 0), (1, 0), (3, k.val), (5, 5), (2, 0)] := by simp only [wordR, wordV, wordA, wordE, wordM, word, core_code, Bool.toNat_true, Bool.toNat_false, pack]; omega
  have hb : Bounded [(1, 1), (6, 20), (5, vd.val), (5, a.val), (4, 0), (1, 0), (3, k.val), (5, 5), (2, 0)] :=
    ⟨by decide, by decide, vd.isLt, a.isLt, by decide, by decide, k.isLt, by decide, by decide, trivial⟩
  have key : ∀ m, bits m 1 6 = 20 →
      vAt m 7 = vd →
      vAt m 12 = a →
      vAt m 17 = 0 →
      kAt m 22 = k →
      bits m 30 2 = 0 →
      bits m 25 5 = 5 →
      bits m 17 5 = 0 →
      bits m 21 1 = 0 →
      nibAt m 17 = 0 →
      decodeWord m = .ok (.vredAdd vd a k) := by
    intro m f0 f1 f2 f3 f4 f5 f6 f7 f8 f9
    simp [decodeWord, f0, f1, f2, f3, f4, f5, f6, f7, f8, f9, decodeVperm, orderAt, scopeAt, kField, ringCount]
  exact of_pack hw hb rfl rfl rfl fun _ => key _ (read hb 1) (vAt_of (read hb 2)) (vAt_of (read hb 3)) (vAt_of (readSpan hb 4 2)) (kAt_of (read hb 6)) (read hb 8) (read hb 7) (readSpan hb 4 2) (read hb 5) (nibAt_of (read hb 4))

theorem Encoding.vredMin (vd a : VReg) (k : KReg) : Statement (.vredMin vd a k) := by
  have hw : wordV 0x14 6 vd a 0 k =
      pack [(1, 1), (6, 20), (5, vd.val), (5, a.val), (4, 0), (1, 0), (3, k.val), (5, 6), (2, 0)] := by simp only [wordR, wordV, wordA, wordE, wordM, word, core_code, Bool.toNat_true, Bool.toNat_false, pack]; omega
  have hb : Bounded [(1, 1), (6, 20), (5, vd.val), (5, a.val), (4, 0), (1, 0), (3, k.val), (5, 6), (2, 0)] :=
    ⟨by decide, by decide, vd.isLt, a.isLt, by decide, by decide, k.isLt, by decide, by decide, trivial⟩
  have key : ∀ m, bits m 1 6 = 20 →
      vAt m 7 = vd →
      vAt m 12 = a →
      vAt m 17 = 0 →
      kAt m 22 = k →
      bits m 30 2 = 0 →
      bits m 25 5 = 6 →
      bits m 17 5 = 0 →
      bits m 21 1 = 0 →
      nibAt m 17 = 0 →
      decodeWord m = .ok (.vredMin vd a k) := by
    intro m f0 f1 f2 f3 f4 f5 f6 f7 f8 f9
    simp [decodeWord, f0, f1, f2, f3, f4, f5, f6, f7, f8, f9, decodeVperm, orderAt, scopeAt, kField, ringCount]
  exact of_pack hw hb rfl rfl rfl fun _ => key _ (read hb 1) (vAt_of (read hb 2)) (vAt_of (read hb 3)) (vAt_of (readSpan hb 4 2)) (kAt_of (read hb 6)) (read hb 8) (read hb 7) (readSpan hb 4 2) (read hb 5) (nibAt_of (read hb 4))

theorem Encoding.vredMax (vd a : VReg) (k : KReg) : Statement (.vredMax vd a k) := by
  have hw : wordV 0x14 7 vd a 0 k =
      pack [(1, 1), (6, 20), (5, vd.val), (5, a.val), (4, 0), (1, 0), (3, k.val), (5, 7), (2, 0)] := by simp only [wordR, wordV, wordA, wordE, wordM, word, core_code, Bool.toNat_true, Bool.toNat_false, pack]; omega
  have hb : Bounded [(1, 1), (6, 20), (5, vd.val), (5, a.val), (4, 0), (1, 0), (3, k.val), (5, 7), (2, 0)] :=
    ⟨by decide, by decide, vd.isLt, a.isLt, by decide, by decide, k.isLt, by decide, by decide, trivial⟩
  have key : ∀ m, bits m 1 6 = 20 →
      vAt m 7 = vd →
      vAt m 12 = a →
      vAt m 17 = 0 →
      kAt m 22 = k →
      bits m 30 2 = 0 →
      bits m 25 5 = 7 →
      bits m 17 5 = 0 →
      bits m 21 1 = 0 →
      nibAt m 17 = 0 →
      decodeWord m = .ok (.vredMax vd a k) := by
    intro m f0 f1 f2 f3 f4 f5 f6 f7 f8 f9
    simp [decodeWord, f0, f1, f2, f3, f4, f5, f6, f7, f8, f9, decodeVperm, orderAt, scopeAt, kField, ringCount]
  exact of_pack hw hb rfl rfl rfl fun _ => key _ (read hb 1) (vAt_of (read hb 2)) (vAt_of (read hb 3)) (vAt_of (readSpan hb 4 2)) (kAt_of (read hb 6)) (read hb 8) (read hb 7) (readSpan hb 4 2) (read hb 5) (nibAt_of (read hb 4))

theorem Encoding.vredMinu (vd a : VReg) (k : KReg) : Statement (.vredMinu vd a k) := by
  have hw : wordV 0x14 8 vd a 0 k =
      pack [(1, 1), (6, 20), (5, vd.val), (5, a.val), (4, 0), (1, 0), (3, k.val), (5, 8), (2, 0)] := by simp only [wordR, wordV, wordA, wordE, wordM, word, core_code, Bool.toNat_true, Bool.toNat_false, pack]; omega
  have hb : Bounded [(1, 1), (6, 20), (5, vd.val), (5, a.val), (4, 0), (1, 0), (3, k.val), (5, 8), (2, 0)] :=
    ⟨by decide, by decide, vd.isLt, a.isLt, by decide, by decide, k.isLt, by decide, by decide, trivial⟩
  have key : ∀ m, bits m 1 6 = 20 →
      vAt m 7 = vd →
      vAt m 12 = a →
      vAt m 17 = 0 →
      kAt m 22 = k →
      bits m 30 2 = 0 →
      bits m 25 5 = 8 →
      bits m 17 5 = 0 →
      bits m 21 1 = 0 →
      nibAt m 17 = 0 →
      decodeWord m = .ok (.vredMinu vd a k) := by
    intro m f0 f1 f2 f3 f4 f5 f6 f7 f8 f9
    simp [decodeWord, f0, f1, f2, f3, f4, f5, f6, f7, f8, f9, decodeVperm, orderAt, scopeAt, kField, ringCount]
  exact of_pack hw hb rfl rfl rfl fun _ => key _ (read hb 1) (vAt_of (read hb 2)) (vAt_of (read hb 3)) (vAt_of (readSpan hb 4 2)) (kAt_of (read hb 6)) (read hb 8) (read hb 7) (readSpan hb 4 2) (read hb 5) (nibAt_of (read hb 4))

theorem Encoding.vredMaxu (vd a : VReg) (k : KReg) : Statement (.vredMaxu vd a k) := by
  have hw : wordV 0x14 9 vd a 0 k =
      pack [(1, 1), (6, 20), (5, vd.val), (5, a.val), (4, 0), (1, 0), (3, k.val), (5, 9), (2, 0)] := by simp only [wordR, wordV, wordA, wordE, wordM, word, core_code, Bool.toNat_true, Bool.toNat_false, pack]; omega
  have hb : Bounded [(1, 1), (6, 20), (5, vd.val), (5, a.val), (4, 0), (1, 0), (3, k.val), (5, 9), (2, 0)] :=
    ⟨by decide, by decide, vd.isLt, a.isLt, by decide, by decide, k.isLt, by decide, by decide, trivial⟩
  have key : ∀ m, bits m 1 6 = 20 →
      vAt m 7 = vd →
      vAt m 12 = a →
      vAt m 17 = 0 →
      kAt m 22 = k →
      bits m 30 2 = 0 →
      bits m 25 5 = 9 →
      bits m 17 5 = 0 →
      bits m 21 1 = 0 →
      nibAt m 17 = 0 →
      decodeWord m = .ok (.vredMaxu vd a k) := by
    intro m f0 f1 f2 f3 f4 f5 f6 f7 f8 f9
    simp [decodeWord, f0, f1, f2, f3, f4, f5, f6, f7, f8, f9, decodeVperm, orderAt, scopeAt, kField, ringCount]
  exact of_pack hw hb rfl rfl rfl fun _ => key _ (read hb 1) (vAt_of (read hb 2)) (vAt_of (read hb 3)) (vAt_of (readSpan hb 4 2)) (kAt_of (read hb 6)) (read hb 8) (read hb 7) (readSpan hb 4 2) (read hb 5) (nibAt_of (read hb 4))

theorem Encoding.vredAnd (vd a : VReg) (k : KReg) : Statement (.vredAnd vd a k) := by
  have hw : wordV 0x14 10 vd a 0 k =
      pack [(1, 1), (6, 20), (5, vd.val), (5, a.val), (4, 0), (1, 0), (3, k.val), (5, 10), (2, 0)] := by simp only [wordR, wordV, wordA, wordE, wordM, word, core_code, Bool.toNat_true, Bool.toNat_false, pack]; omega
  have hb : Bounded [(1, 1), (6, 20), (5, vd.val), (5, a.val), (4, 0), (1, 0), (3, k.val), (5, 10), (2, 0)] :=
    ⟨by decide, by decide, vd.isLt, a.isLt, by decide, by decide, k.isLt, by decide, by decide, trivial⟩
  have key : ∀ m, bits m 1 6 = 20 →
      vAt m 7 = vd →
      vAt m 12 = a →
      vAt m 17 = 0 →
      kAt m 22 = k →
      bits m 30 2 = 0 →
      bits m 25 5 = 10 →
      bits m 17 5 = 0 →
      bits m 21 1 = 0 →
      nibAt m 17 = 0 →
      decodeWord m = .ok (.vredAnd vd a k) := by
    intro m f0 f1 f2 f3 f4 f5 f6 f7 f8 f9
    simp [decodeWord, f0, f1, f2, f3, f4, f5, f6, f7, f8, f9, decodeVperm, orderAt, scopeAt, kField, ringCount]
  exact of_pack hw hb rfl rfl rfl fun _ => key _ (read hb 1) (vAt_of (read hb 2)) (vAt_of (read hb 3)) (vAt_of (readSpan hb 4 2)) (kAt_of (read hb 6)) (read hb 8) (read hb 7) (readSpan hb 4 2) (read hb 5) (nibAt_of (read hb 4))

theorem Encoding.vredOr (vd a : VReg) (k : KReg) : Statement (.vredOr vd a k) := by
  have hw : wordV 0x14 11 vd a 0 k =
      pack [(1, 1), (6, 20), (5, vd.val), (5, a.val), (4, 0), (1, 0), (3, k.val), (5, 11), (2, 0)] := by simp only [wordR, wordV, wordA, wordE, wordM, word, core_code, Bool.toNat_true, Bool.toNat_false, pack]; omega
  have hb : Bounded [(1, 1), (6, 20), (5, vd.val), (5, a.val), (4, 0), (1, 0), (3, k.val), (5, 11), (2, 0)] :=
    ⟨by decide, by decide, vd.isLt, a.isLt, by decide, by decide, k.isLt, by decide, by decide, trivial⟩
  have key : ∀ m, bits m 1 6 = 20 →
      vAt m 7 = vd →
      vAt m 12 = a →
      vAt m 17 = 0 →
      kAt m 22 = k →
      bits m 30 2 = 0 →
      bits m 25 5 = 11 →
      bits m 17 5 = 0 →
      bits m 21 1 = 0 →
      nibAt m 17 = 0 →
      decodeWord m = .ok (.vredOr vd a k) := by
    intro m f0 f1 f2 f3 f4 f5 f6 f7 f8 f9
    simp [decodeWord, f0, f1, f2, f3, f4, f5, f6, f7, f8, f9, decodeVperm, orderAt, scopeAt, kField, ringCount]
  exact of_pack hw hb rfl rfl rfl fun _ => key _ (read hb 1) (vAt_of (read hb 2)) (vAt_of (read hb 3)) (vAt_of (readSpan hb 4 2)) (kAt_of (read hb 6)) (read hb 8) (read hb 7) (readSpan hb 4 2) (read hb 5) (nibAt_of (read hb 4))

theorem Encoding.vredXor (vd a : VReg) (k : KReg) : Statement (.vredXor vd a k) := by
  have hw : wordV 0x14 12 vd a 0 k =
      pack [(1, 1), (6, 20), (5, vd.val), (5, a.val), (4, 0), (1, 0), (3, k.val), (5, 12), (2, 0)] := by simp only [wordR, wordV, wordA, wordE, wordM, word, core_code, Bool.toNat_true, Bool.toNat_false, pack]; omega
  have hb : Bounded [(1, 1), (6, 20), (5, vd.val), (5, a.val), (4, 0), (1, 0), (3, k.val), (5, 12), (2, 0)] :=
    ⟨by decide, by decide, vd.isLt, a.isLt, by decide, by decide, k.isLt, by decide, by decide, trivial⟩
  have key : ∀ m, bits m 1 6 = 20 →
      vAt m 7 = vd →
      vAt m 12 = a →
      vAt m 17 = 0 →
      kAt m 22 = k →
      bits m 30 2 = 0 →
      bits m 25 5 = 12 →
      bits m 17 5 = 0 →
      bits m 21 1 = 0 →
      nibAt m 17 = 0 →
      decodeWord m = .ok (.vredXor vd a k) := by
    intro m f0 f1 f2 f3 f4 f5 f6 f7 f8 f9
    simp [decodeWord, f0, f1, f2, f3, f4, f5, f6, f7, f8, f9, decodeVperm, orderAt, scopeAt, kField, ringCount]
  exact of_pack hw hb rfl rfl rfl fun _ => key _ (read hb 1) (vAt_of (read hb 2)) (vAt_of (read hb 3)) (vAt_of (readSpan hb 4 2)) (kAt_of (read hb 6)) (read hb 8) (read hb 7) (readSpan hb 4 2) (read hb 5) (nibAt_of (read hb 4))

theorem Encoding.vfredAdd (vd a : VReg) (k : KReg) : Statement (.vfredAdd vd a k) := by
  have hw : wordV 0x14 13 vd a 0 k =
      pack [(1, 1), (6, 20), (5, vd.val), (5, a.val), (4, 0), (1, 0), (3, k.val), (5, 13), (2, 0)] := by simp only [wordR, wordV, wordA, wordE, wordM, word, core_code, Bool.toNat_true, Bool.toNat_false, pack]; omega
  have hb : Bounded [(1, 1), (6, 20), (5, vd.val), (5, a.val), (4, 0), (1, 0), (3, k.val), (5, 13), (2, 0)] :=
    ⟨by decide, by decide, vd.isLt, a.isLt, by decide, by decide, k.isLt, by decide, by decide, trivial⟩
  have key : ∀ m, bits m 1 6 = 20 →
      vAt m 7 = vd →
      vAt m 12 = a →
      vAt m 17 = 0 →
      kAt m 22 = k →
      bits m 30 2 = 0 →
      bits m 25 5 = 13 →
      bits m 17 5 = 0 →
      bits m 21 1 = 0 →
      nibAt m 17 = 0 →
      decodeWord m = .ok (.vfredAdd vd a k) := by
    intro m f0 f1 f2 f3 f4 f5 f6 f7 f8 f9
    simp [decodeWord, f0, f1, f2, f3, f4, f5, f6, f7, f8, f9, decodeVperm, orderAt, scopeAt, kField, ringCount]
  exact of_pack hw hb rfl rfl rfl fun _ => key _ (read hb 1) (vAt_of (read hb 2)) (vAt_of (read hb 3)) (vAt_of (readSpan hb 4 2)) (kAt_of (read hb 6)) (read hb 8) (read hb 7) (readSpan hb 4 2) (read hb 5) (nibAt_of (read hb 4))

theorem Encoding.vfredMin (vd a : VReg) (k : KReg) : Statement (.vfredMin vd a k) := by
  have hw : wordV 0x14 14 vd a 0 k =
      pack [(1, 1), (6, 20), (5, vd.val), (5, a.val), (4, 0), (1, 0), (3, k.val), (5, 14), (2, 0)] := by simp only [wordR, wordV, wordA, wordE, wordM, word, core_code, Bool.toNat_true, Bool.toNat_false, pack]; omega
  have hb : Bounded [(1, 1), (6, 20), (5, vd.val), (5, a.val), (4, 0), (1, 0), (3, k.val), (5, 14), (2, 0)] :=
    ⟨by decide, by decide, vd.isLt, a.isLt, by decide, by decide, k.isLt, by decide, by decide, trivial⟩
  have key : ∀ m, bits m 1 6 = 20 →
      vAt m 7 = vd →
      vAt m 12 = a →
      vAt m 17 = 0 →
      kAt m 22 = k →
      bits m 30 2 = 0 →
      bits m 25 5 = 14 →
      bits m 17 5 = 0 →
      bits m 21 1 = 0 →
      nibAt m 17 = 0 →
      decodeWord m = .ok (.vfredMin vd a k) := by
    intro m f0 f1 f2 f3 f4 f5 f6 f7 f8 f9
    simp [decodeWord, f0, f1, f2, f3, f4, f5, f6, f7, f8, f9, decodeVperm, orderAt, scopeAt, kField, ringCount]
  exact of_pack hw hb rfl rfl rfl fun _ => key _ (read hb 1) (vAt_of (read hb 2)) (vAt_of (read hb 3)) (vAt_of (readSpan hb 4 2)) (kAt_of (read hb 6)) (read hb 8) (read hb 7) (readSpan hb 4 2) (read hb 5) (nibAt_of (read hb 4))

theorem Encoding.vfredMax (vd a : VReg) (k : KReg) : Statement (.vfredMax vd a k) := by
  have hw : wordV 0x14 15 vd a 0 k =
      pack [(1, 1), (6, 20), (5, vd.val), (5, a.val), (4, 0), (1, 0), (3, k.val), (5, 15), (2, 0)] := by simp only [wordR, wordV, wordA, wordE, wordM, word, core_code, Bool.toNat_true, Bool.toNat_false, pack]; omega
  have hb : Bounded [(1, 1), (6, 20), (5, vd.val), (5, a.val), (4, 0), (1, 0), (3, k.val), (5, 15), (2, 0)] :=
    ⟨by decide, by decide, vd.isLt, a.isLt, by decide, by decide, k.isLt, by decide, by decide, trivial⟩
  have key : ∀ m, bits m 1 6 = 20 →
      vAt m 7 = vd →
      vAt m 12 = a →
      vAt m 17 = 0 →
      kAt m 22 = k →
      bits m 30 2 = 0 →
      bits m 25 5 = 15 →
      bits m 17 5 = 0 →
      bits m 21 1 = 0 →
      nibAt m 17 = 0 →
      decodeWord m = .ok (.vfredMax vd a k) := by
    intro m f0 f1 f2 f3 f4 f5 f6 f7 f8 f9
    simp [decodeWord, f0, f1, f2, f3, f4, f5, f6, f7, f8, f9, decodeVperm, orderAt, scopeAt, kField, ringCount]
  exact of_pack hw hb rfl rfl rfl fun _ => key _ (read hb 1) (vAt_of (read hb 2)) (vAt_of (read hb 3)) (vAt_of (readSpan hb 4 2)) (kAt_of (read hb 6)) (read hb 8) (read hb 7) (readSpan hb 4 2) (read hb 5) (nibAt_of (read hb 4))

theorem Encoding.vld (vd : VReg) (b : XReg) (spc : Space) (o : BitVec 7) : Statement (.vld vd b spc o) := by
  have hw : word 0x13 [(7, vd), (13, b), (19, 0), (22, spc.code), (25, o.toNat)] =
      pack [(1, 1), (6, 19), (5, vd.val), (1, 0), (6, b.val), (3, 0), (3, spc.code), (7, o.toNat)] := by simp only [wordR, wordV, wordA, wordE, wordM, word, core_code, Bool.toNat_true, Bool.toNat_false, pack]; omega
  have hb : Bounded [(1, 1), (6, 19), (5, vd.val), (1, 0), (6, b.val), (3, 0), (3, spc.code), (7, o.toNat)] :=
    ⟨by decide, by decide, vd.isLt, by decide, b.isLt, by decide, Space.code_lt spc, o.isLt, trivial⟩
  have key : ∀ m, bits m 1 6 = 19 →
      vAt m 7 = vd →
      xAt m 13 = b →
      immAt m 25 7 = o →
      bits m 12 1 = 0 →
      bits m 22 3 = spc.code →
      bits m 19 3 = 0 →
      decodeWord m = .ok (.vld vd b spc o) := by
    intro m f0 f1 f2 f3 f4 f5 f6
    simp [decodeWord, f0, f1, f2, f3, f4, f5, f6, decodeVmem, orderAt, scopeAt, kField, ringCount]
  exact of_pack hw hb rfl rfl rfl fun _ => key _ (read hb 1) (vAt_of (read hb 2)) (xAt_of (read hb 4)) (immAt_of (read hb 7)) (read hb 3) (read hb 6) (read hb 5)

theorem Encoding.vst (vd : VReg) (b : XReg) (spc : Space) (o : BitVec 7) : Statement (.vst vd b spc o) := by
  have hw : word 0x13 [(7, vd), (13, b), (19, 1), (22, spc.code), (25, o.toNat)] =
      pack [(1, 1), (6, 19), (5, vd.val), (1, 0), (6, b.val), (3, 1), (3, spc.code), (7, o.toNat)] := by simp only [wordR, wordV, wordA, wordE, wordM, word, core_code, Bool.toNat_true, Bool.toNat_false, pack]; omega
  have hb : Bounded [(1, 1), (6, 19), (5, vd.val), (1, 0), (6, b.val), (3, 1), (3, spc.code), (7, o.toNat)] :=
    ⟨by decide, by decide, vd.isLt, by decide, b.isLt, by decide, Space.code_lt spc, o.isLt, trivial⟩
  have key : ∀ m, bits m 1 6 = 19 →
      vAt m 7 = vd →
      xAt m 13 = b →
      immAt m 25 7 = o →
      bits m 12 1 = 0 →
      bits m 22 3 = spc.code →
      bits m 19 3 = 1 →
      decodeWord m = .ok (.vst vd b spc o) := by
    intro m f0 f1 f2 f3 f4 f5 f6
    simp [decodeWord, f0, f1, f2, f3, f4, f5, f6, decodeVmem, orderAt, scopeAt, kField, ringCount]
  exact of_pack hw hb rfl rfl rfl fun _ => key _ (read hb 1) (vAt_of (read hb 2)) (xAt_of (read hb 4)) (immAt_of (read hb 7)) (read hb 3) (read hb 6) (read hb 5)

theorem Encoding.vldt (vd : VReg) (b : XReg) (o : BitVec 7) : Statement (.vldt vd b o) := by
  have hw : word 0x13 [(7, vd), (13, b), (19, 2), (25, o.toNat)] =
      pack [(1, 1), (6, 19), (5, vd.val), (1, 0), (6, b.val), (3, 2), (3, 0), (7, o.toNat)] := by simp only [wordR, wordV, wordA, wordE, wordM, word, core_code, Bool.toNat_true, Bool.toNat_false, pack]; omega
  have hb : Bounded [(1, 1), (6, 19), (5, vd.val), (1, 0), (6, b.val), (3, 2), (3, 0), (7, o.toNat)] :=
    ⟨by decide, by decide, vd.isLt, by decide, b.isLt, by decide, by decide, o.isLt, trivial⟩
  have key : ∀ m, bits m 1 6 = 19 →
      vAt m 7 = vd →
      xAt m 13 = b →
      immAt m 25 7 = o →
      bits m 12 1 = 0 →
      bits m 22 3 = 0 →
      bits m 19 3 = 2 →
      decodeWord m = .ok (.vldt vd b o) := by
    intro m f0 f1 f2 f3 f4 f5 f6
    simp [decodeWord, f0, f1, f2, f3, f4, f5, f6, decodeVmem, orderAt, scopeAt, kField, ringCount]
  exact of_pack hw hb rfl rfl rfl fun _ => key _ (read hb 1) (vAt_of (read hb 2)) (xAt_of (read hb 4)) (immAt_of (read hb 7)) (read hb 3) (read hb 6) (read hb 5)

theorem Encoding.vstt (vd : VReg) (b : XReg) (o : BitVec 7) : Statement (.vstt vd b o) := by
  have hw : word 0x13 [(7, vd), (13, b), (19, 3), (25, o.toNat)] =
      pack [(1, 1), (6, 19), (5, vd.val), (1, 0), (6, b.val), (3, 3), (3, 0), (7, o.toNat)] := by simp only [wordR, wordV, wordA, wordE, wordM, word, core_code, Bool.toNat_true, Bool.toNat_false, pack]; omega
  have hb : Bounded [(1, 1), (6, 19), (5, vd.val), (1, 0), (6, b.val), (3, 3), (3, 0), (7, o.toNat)] :=
    ⟨by decide, by decide, vd.isLt, by decide, b.isLt, by decide, by decide, o.isLt, trivial⟩
  have key : ∀ m, bits m 1 6 = 19 →
      vAt m 7 = vd →
      xAt m 13 = b →
      immAt m 25 7 = o →
      bits m 12 1 = 0 →
      bits m 22 3 = 0 →
      bits m 19 3 = 3 →
      decodeWord m = .ok (.vstt vd b o) := by
    intro m f0 f1 f2 f3 f4 f5 f6
    simp [decodeWord, f0, f1, f2, f3, f4, f5, f6, decodeVmem, orderAt, scopeAt, kField, ringCount]
  exact of_pack hw hb rfl rfl rfl fun _ => key _ (read hb 1) (vAt_of (read hb 2)) (xAt_of (read hb 4)) (immAt_of (read hb 7)) (read hb 3) (read hb 6) (read hb 5)

theorem Encoding.vldl (vd : VReg) (b : XReg) (o : BitVec 7) : Statement (.vldl vd b o) := by
  have hw : word 0x13 [(7, vd), (13, b), (19, 4), (25, o.toNat)] =
      pack [(1, 1), (6, 19), (5, vd.val), (1, 0), (6, b.val), (3, 4), (3, 0), (7, o.toNat)] := by simp only [wordR, wordV, wordA, wordE, wordM, word, core_code, Bool.toNat_true, Bool.toNat_false, pack]; omega
  have hb : Bounded [(1, 1), (6, 19), (5, vd.val), (1, 0), (6, b.val), (3, 4), (3, 0), (7, o.toNat)] :=
    ⟨by decide, by decide, vd.isLt, by decide, b.isLt, by decide, by decide, o.isLt, trivial⟩
  have key : ∀ m, bits m 1 6 = 19 →
      vAt m 7 = vd →
      xAt m 13 = b →
      immAt m 25 7 = o →
      bits m 12 1 = 0 →
      bits m 22 3 = 0 →
      bits m 19 3 = 4 →
      decodeWord m = .ok (.vldl vd b o) := by
    intro m f0 f1 f2 f3 f4 f5 f6
    simp [decodeWord, f0, f1, f2, f3, f4, f5, f6, decodeVmem, orderAt, scopeAt, kField, ringCount]
  exact of_pack hw hb rfl rfl rfl fun _ => key _ (read hb 1) (vAt_of (read hb 2)) (xAt_of (read hb 4)) (immAt_of (read hb 7)) (read hb 3) (read hb 6) (read hb 5)

theorem Encoding.vstl (vd : VReg) (b : XReg) (o : BitVec 7) : Statement (.vstl vd b o) := by
  have hw : word 0x13 [(7, vd), (13, b), (19, 5), (25, o.toNat)] =
      pack [(1, 1), (6, 19), (5, vd.val), (1, 0), (6, b.val), (3, 5), (3, 0), (7, o.toNat)] := by simp only [wordR, wordV, wordA, wordE, wordM, word, core_code, Bool.toNat_true, Bool.toNat_false, pack]; omega
  have hb : Bounded [(1, 1), (6, 19), (5, vd.val), (1, 0), (6, b.val), (3, 5), (3, 0), (7, o.toNat)] :=
    ⟨by decide, by decide, vd.isLt, by decide, b.isLt, by decide, by decide, o.isLt, trivial⟩
  have key : ∀ m, bits m 1 6 = 19 →
      vAt m 7 = vd →
      xAt m 13 = b →
      immAt m 25 7 = o →
      bits m 12 1 = 0 →
      bits m 22 3 = 0 →
      bits m 19 3 = 5 →
      decodeWord m = .ok (.vstl vd b o) := by
    intro m f0 f1 f2 f3 f4 f5 f6
    simp [decodeWord, f0, f1, f2, f3, f4, f5, f6, decodeVmem, orderAt, scopeAt, kField, ringCount]
  exact of_pack hw hb rfl rfl rfl fun _ => key _ (read hb 1) (vAt_of (read hb 2)) (xAt_of (read hb 4)) (immAt_of (read hb 7)) (read hb 3) (read hb 6) (read hb 5)

theorem Encoding.vgath (vd : VReg) (b : XReg) (vi : VReg) (spc : Space) : Statement (.vgath vd b vi spc) := by
  have hw : word 0x13 [(7, vd), (13, b), (19, 6), (22, spc.code), (25, vi)] =
      pack [(1, 1), (6, 19), (5, vd.val), (1, 0), (6, b.val), (3, 6), (3, spc.code), (5, vi.val), (2, 0)] := by simp only [wordR, wordV, wordA, wordE, wordM, word, core_code, Bool.toNat_true, Bool.toNat_false, pack]; omega
  have hb : Bounded [(1, 1), (6, 19), (5, vd.val), (1, 0), (6, b.val), (3, 6), (3, spc.code), (5, vi.val), (2, 0)] :=
    ⟨by decide, by decide, vd.isLt, by decide, b.isLt, by decide, Space.code_lt spc, vi.isLt, by decide, trivial⟩
  have key : ∀ m, bits m 1 6 = 19 →
      vAt m 7 = vd →
      xAt m 13 = b →
      bits m 12 1 = 0 →
      bits m 22 3 = spc.code →
      bits m 19 3 = 6 →
      bits m 30 2 = 0 →
      vAt m 25 = vi →
      decodeWord m = .ok (.vgath vd b vi spc) := by
    intro m f0 f1 f2 f3 f4 f5 f6 f7
    simp [decodeWord, f0, f1, f2, f3, f4, f5, f6, f7, decodeVmem, orderAt, scopeAt, kField, ringCount]
  exact of_pack hw hb rfl rfl rfl fun _ => key _ (read hb 1) (vAt_of (read hb 2)) (xAt_of (read hb 4)) (read hb 3) (read hb 6) (read hb 5) (read hb 8) (vAt_of (read hb 7))

theorem Encoding.vscat (vd : VReg) (b : XReg) (vi : VReg) (spc : Space) : Statement (.vscat vd b vi spc) := by
  have hw : word 0x13 [(7, vd), (13, b), (19, 7), (22, spc.code), (25, vi)] =
      pack [(1, 1), (6, 19), (5, vd.val), (1, 0), (6, b.val), (3, 7), (3, spc.code), (5, vi.val), (2, 0)] := by simp only [wordR, wordV, wordA, wordE, wordM, word, core_code, Bool.toNat_true, Bool.toNat_false, pack]; omega
  have hb : Bounded [(1, 1), (6, 19), (5, vd.val), (1, 0), (6, b.val), (3, 7), (3, spc.code), (5, vi.val), (2, 0)] :=
    ⟨by decide, by decide, vd.isLt, by decide, b.isLt, by decide, Space.code_lt spc, vi.isLt, by decide, trivial⟩
  have key : ∀ m, bits m 1 6 = 19 →
      vAt m 7 = vd →
      xAt m 13 = b →
      bits m 12 1 = 0 →
      bits m 22 3 = spc.code →
      bits m 19 3 = 7 →
      bits m 30 2 = 0 →
      vAt m 25 = vi →
      decodeWord m = .ok (.vscat vd b vi spc) := by
    intro m f0 f1 f2 f3 f4 f5 f6 f7
    simp [decodeWord, f0, f1, f2, f3, f4, f5, f6, f7, decodeVmem, orderAt, scopeAt, kField, ringCount]
  exact of_pack hw hb rfl rfl rfl fun _ => key _ (read hb 1) (vAt_of (read hb 2)) (xAt_of (read hb 4)) (read hb 3) (read hb 6) (read hb 5) (read hb 8) (vAt_of (read hb 7))

theorem Encoding.kand (kd a b : KReg) : Statement (.kand kd a b) := by
  have hw : wordR 0x15 0 kd a b =
      pack [(1, 1), (6, 21), (3, kd.val), (3, 0), (3, a.val), (3, 0), (3, b.val), (3, 0), (7, 0)] := by simp only [wordR, wordV, wordA, wordE, wordM, word, core_code, Bool.toNat_true, Bool.toNat_false, pack]; omega
  have hb : Bounded [(1, 1), (6, 21), (3, kd.val), (3, 0), (3, a.val), (3, 0), (3, b.val), (3, 0), (7, 0)] :=
    ⟨by decide, by decide, kd.isLt, by decide, a.isLt, by decide, b.isLt, by decide, by decide, trivial⟩
  have key : ∀ m, bits m 1 6 = 21 →
      bits m 25 7 = 0 →
      kAt m 7 = kd →
      bits m 7 6 = kd →
      kAt m 13 = a →
      bits m 13 6 = a →
      kAt m 19 = b →
      bits m 19 6 = b →
      decodeWord m = .ok (.kand kd a b) := by
    intro m f0 f1 f2 f3 f4 f5 f6 f7
    simp [decodeWord, f0, f1, f2, f3, f4, f5, f6, f7, decodeKop, orderAt, scopeAt, kField, ringCount]
  exact of_pack hw hb rfl rfl rfl fun _ => key _ (read hb 1) (read hb 8) (kAt_of (read hb 2)) (readSpan hb 2 2) (kAt_of (read hb 4)) (readSpan hb 4 2) (kAt_of (read hb 6)) (readSpan hb 6 2)

theorem Encoding.kor (kd a b : KReg) : Statement (.kor kd a b) := by
  have hw : wordR 0x15 1 kd a b =
      pack [(1, 1), (6, 21), (3, kd.val), (3, 0), (3, a.val), (3, 0), (3, b.val), (3, 0), (7, 1)] := by simp only [wordR, wordV, wordA, wordE, wordM, word, core_code, Bool.toNat_true, Bool.toNat_false, pack]; omega
  have hb : Bounded [(1, 1), (6, 21), (3, kd.val), (3, 0), (3, a.val), (3, 0), (3, b.val), (3, 0), (7, 1)] :=
    ⟨by decide, by decide, kd.isLt, by decide, a.isLt, by decide, b.isLt, by decide, by decide, trivial⟩
  have key : ∀ m, bits m 1 6 = 21 →
      bits m 25 7 = 1 →
      kAt m 7 = kd →
      bits m 7 6 = kd →
      kAt m 13 = a →
      bits m 13 6 = a →
      kAt m 19 = b →
      bits m 19 6 = b →
      decodeWord m = .ok (.kor kd a b) := by
    intro m f0 f1 f2 f3 f4 f5 f6 f7
    simp [decodeWord, f0, f1, f2, f3, f4, f5, f6, f7, decodeKop, orderAt, scopeAt, kField, ringCount]
  exact of_pack hw hb rfl rfl rfl fun _ => key _ (read hb 1) (read hb 8) (kAt_of (read hb 2)) (readSpan hb 2 2) (kAt_of (read hb 4)) (readSpan hb 4 2) (kAt_of (read hb 6)) (readSpan hb 6 2)

theorem Encoding.kxor (kd a b : KReg) : Statement (.kxor kd a b) := by
  have hw : wordR 0x15 2 kd a b =
      pack [(1, 1), (6, 21), (3, kd.val), (3, 0), (3, a.val), (3, 0), (3, b.val), (3, 0), (7, 2)] := by simp only [wordR, wordV, wordA, wordE, wordM, word, core_code, Bool.toNat_true, Bool.toNat_false, pack]; omega
  have hb : Bounded [(1, 1), (6, 21), (3, kd.val), (3, 0), (3, a.val), (3, 0), (3, b.val), (3, 0), (7, 2)] :=
    ⟨by decide, by decide, kd.isLt, by decide, a.isLt, by decide, b.isLt, by decide, by decide, trivial⟩
  have key : ∀ m, bits m 1 6 = 21 →
      bits m 25 7 = 2 →
      kAt m 7 = kd →
      bits m 7 6 = kd →
      kAt m 13 = a →
      bits m 13 6 = a →
      kAt m 19 = b →
      bits m 19 6 = b →
      decodeWord m = .ok (.kxor kd a b) := by
    intro m f0 f1 f2 f3 f4 f5 f6 f7
    simp [decodeWord, f0, f1, f2, f3, f4, f5, f6, f7, decodeKop, orderAt, scopeAt, kField, ringCount]
  exact of_pack hw hb rfl rfl rfl fun _ => key _ (read hb 1) (read hb 8) (kAt_of (read hb 2)) (readSpan hb 2 2) (kAt_of (read hb 4)) (readSpan hb 4 2) (kAt_of (read hb 6)) (readSpan hb 6 2)

theorem Encoding.knot (kd a : KReg) : Statement (.knot kd a) := by
  have hw : wordR 0x15 3 kd a 0 =
      pack [(1, 1), (6, 21), (3, kd.val), (3, 0), (3, a.val), (3, 0), (3, 0), (3, 0), (7, 3)] := by simp only [wordR, wordV, wordA, wordE, wordM, word, core_code, Bool.toNat_true, Bool.toNat_false, pack]; omega
  have hb : Bounded [(1, 1), (6, 21), (3, kd.val), (3, 0), (3, a.val), (3, 0), (3, 0), (3, 0), (7, 3)] :=
    ⟨by decide, by decide, kd.isLt, by decide, a.isLt, by decide, by decide, by decide, by decide, trivial⟩
  have key : ∀ m, bits m 1 6 = 21 →
      bits m 25 7 = 3 →
      kAt m 7 = kd →
      bits m 7 6 = kd →
      kAt m 13 = a →
      bits m 13 6 = a →
      kAt m 19 = 0 →
      bits m 19 6 = 0 →
      decodeWord m = .ok (.knot kd a) := by
    intro m f0 f1 f2 f3 f4 f5 f6 f7
    simp [decodeWord, f0, f1, f2, f3, f4, f5, f6, f7, decodeKop, orderAt, scopeAt, kField, ringCount]
  exact of_pack hw hb rfl rfl rfl fun _ => key _ (read hb 1) (read hb 8) (kAt_of (read hb 2)) (readSpan hb 2 2) (kAt_of (read hb 4)) (readSpan hb 4 2) (kAt_of (read hb 6)) (readSpan hb 6 2)

theorem Encoding.kmovKK (kd a : KReg) : Statement (.kmovKK kd a) := by
  have hw : wordR 0x15 4 kd a 0 =
      pack [(1, 1), (6, 21), (3, kd.val), (3, 0), (3, a.val), (3, 0), (3, 0), (3, 0), (7, 4)] := by simp only [wordR, wordV, wordA, wordE, wordM, word, core_code, Bool.toNat_true, Bool.toNat_false, pack]; omega
  have hb : Bounded [(1, 1), (6, 21), (3, kd.val), (3, 0), (3, a.val), (3, 0), (3, 0), (3, 0), (7, 4)] :=
    ⟨by decide, by decide, kd.isLt, by decide, a.isLt, by decide, by decide, by decide, by decide, trivial⟩
  have key : ∀ m, bits m 1 6 = 21 →
      bits m 25 7 = 4 →
      kAt m 7 = kd →
      bits m 7 6 = kd →
      kAt m 13 = a →
      bits m 13 6 = a →
      kAt m 19 = 0 →
      bits m 19 6 = 0 →
      decodeWord m = .ok (.kmovKK kd a) := by
    intro m f0 f1 f2 f3 f4 f5 f6 f7
    simp [decodeWord, f0, f1, f2, f3, f4, f5, f6, f7, decodeKop, orderAt, scopeAt, kField, ringCount]
  exact of_pack hw hb rfl rfl rfl fun _ => key _ (read hb 1) (read hb 8) (kAt_of (read hb 2)) (readSpan hb 2 2) (kAt_of (read hb 4)) (readSpan hb 4 2) (kAt_of (read hb 6)) (readSpan hb 6 2)

theorem Encoding.kmovKX (kd : KReg) (a : XReg) : Statement (.kmovKX kd a) := by
  have hw : wordR 0x15 5 kd a 0 =
      pack [(1, 1), (6, 21), (3, kd.val), (3, 0), (6, a.val), (3, 0), (3, 0), (7, 5)] := by simp only [wordR, wordV, wordA, wordE, wordM, word, core_code, Bool.toNat_true, Bool.toNat_false, pack]; omega
  have hb : Bounded [(1, 1), (6, 21), (3, kd.val), (3, 0), (6, a.val), (3, 0), (3, 0), (7, 5)] :=
    ⟨by decide, by decide, kd.isLt, by decide, a.isLt, by decide, by decide, by decide, trivial⟩
  have key : ∀ m, bits m 1 6 = 21 →
      bits m 25 7 = 5 →
      kAt m 7 = kd →
      bits m 7 6 = kd →
      kAt m 19 = 0 →
      bits m 19 6 = 0 →
      xAt m 13 = a →
      decodeWord m = .ok (.kmovKX kd a) := by
    intro m f0 f1 f2 f3 f4 f5 f6
    simp [decodeWord, f0, f1, f2, f3, f4, f5, f6, decodeKop, orderAt, scopeAt, kField, ringCount]
  exact of_pack hw hb rfl rfl rfl fun _ => key _ (read hb 1) (read hb 7) (kAt_of (read hb 2)) (readSpan hb 2 2) (kAt_of (read hb 5)) (readSpan hb 5 2) (xAt_of (read hb 4))

theorem Encoding.kmovXK (xd : XReg) (a : KReg) : Statement (.kmovXK xd a) := by
  have hw : wordR 0x15 6 xd a 0 =
      pack [(1, 1), (6, 21), (6, xd.val), (3, a.val), (3, 0), (3, 0), (3, 0), (7, 6)] := by simp only [wordR, wordV, wordA, wordE, wordM, word, core_code, Bool.toNat_true, Bool.toNat_false, pack]; omega
  have hb : Bounded [(1, 1), (6, 21), (6, xd.val), (3, a.val), (3, 0), (3, 0), (3, 0), (7, 6)] :=
    ⟨by decide, by decide, xd.isLt, a.isLt, by decide, by decide, by decide, by decide, trivial⟩
  have key : ∀ m, bits m 1 6 = 21 →
      bits m 25 7 = 6 →
      kAt m 13 = a →
      bits m 13 6 = a →
      kAt m 19 = 0 →
      bits m 19 6 = 0 →
      xAt m 7 = xd →
      decodeWord m = .ok (.kmovXK xd a) := by
    intro m f0 f1 f2 f3 f4 f5 f6
    simp [decodeWord, f0, f1, f2, f3, f4, f5, f6, decodeKop, orderAt, scopeAt, kField, ringCount]
  exact of_pack hw hb rfl rfl rfl fun _ => key _ (read hb 1) (read hb 7) (kAt_of (read hb 3)) (readSpan hb 3 2) (kAt_of (read hb 5)) (readSpan hb 5 2) (xAt_of (read hb 2))

theorem Encoding.kpopc (xd : XReg) (a : KReg) : Statement (.kpopc xd a) := by
  have hw : wordR 0x15 7 xd a 0 =
      pack [(1, 1), (6, 21), (6, xd.val), (3, a.val), (3, 0), (3, 0), (3, 0), (7, 7)] := by simp only [wordR, wordV, wordA, wordE, wordM, word, core_code, Bool.toNat_true, Bool.toNat_false, pack]; omega
  have hb : Bounded [(1, 1), (6, 21), (6, xd.val), (3, a.val), (3, 0), (3, 0), (3, 0), (7, 7)] :=
    ⟨by decide, by decide, xd.isLt, a.isLt, by decide, by decide, by decide, by decide, trivial⟩
  have key : ∀ m, bits m 1 6 = 21 →
      bits m 25 7 = 7 →
      kAt m 13 = a →
      bits m 13 6 = a →
      kAt m 19 = 0 →
      bits m 19 6 = 0 →
      xAt m 7 = xd →
      decodeWord m = .ok (.kpopc xd a) := by
    intro m f0 f1 f2 f3 f4 f5 f6
    simp [decodeWord, f0, f1, f2, f3, f4, f5, f6, decodeKop, orderAt, scopeAt, kField, ringCount]
  exact of_pack hw hb rfl rfl rfl fun _ => key _ (read hb 1) (read hb 7) (kAt_of (read hb 3)) (readSpan hb 3 2) (kAt_of (read hb 5)) (readSpan hb 5 2) (xAt_of (read hb 2))

theorem Encoding.vcvt (src dst : CvtFmt) (vd a : VReg) (k : KReg) : Statement (.vcvt src dst vd a k) := by
  have hw : wordV 0x16 (src.code + 8 * dst.code) vd a 0 k =
      pack [(1, 1), (6, 22), (5, vd.val), (5, a.val), (5, 0), (3, k.val), (3, src.code), (3, dst.code), (1, 0)] := by simp only [wordR, wordV, wordA, wordE, wordM, word, core_code, Bool.toNat_true, Bool.toNat_false, pack]; omega
  have hb : Bounded [(1, 1), (6, 22), (5, vd.val), (5, a.val), (5, 0), (3, k.val), (3, src.code), (3, dst.code), (1, 0)] :=
    ⟨by decide, by decide, vd.isLt, a.isLt, by decide, k.isLt, CvtFmt.code_lt src, CvtFmt.code_lt dst, by decide, trivial⟩
  have key : Instr.wf (.vcvt src dst vd a k) = true → ∀ m, bits m 1 6 = 22 →
      bits m 25 3 = src.code →
      bits m 28 3 = dst.code →
      vAt m 7 = vd →
      vAt m 12 = a →
      kAt m 22 = k →
      bits m 17 5 = 0 →
      bits m 31 1 = 0 →
      decodeWord m = .ok (.vcvt src dst vd a k) := by
    intro hwf m f0 f1 f2 f3 f4 f5 f6 f7
    simp only [Instr.wf] at hwf
    clear hb hw
    simp_all [decodeWord, decodeCvt, orderAt, scopeAt, kField, ringCount]
  exact of_pack hw hb rfl rfl rfl fun h => key h _ (read hb 1) (read hb 6) (read hb 7) (vAt_of (read hb 2)) (vAt_of (read hb 3)) (kAt_of (read hb 5)) (read hb 4) (read hb 8)

theorem Encoding.vclass (src : CvtFmt) (vd a : VReg) (k : KReg) : Statement (.vclass src vd a k) := by
  have hw : wordV 0x16 (src.code + 64) vd a 0 k =
      pack [(1, 1), (6, 22), (5, vd.val), (5, a.val), (5, 0), (3, k.val), (3, src.code), (3, 0), (1, 1)] := by simp only [wordR, wordV, wordA, wordE, wordM, word, core_code, Bool.toNat_true, Bool.toNat_false, pack]; omega
  have hb : Bounded [(1, 1), (6, 22), (5, vd.val), (5, a.val), (5, 0), (3, k.val), (3, src.code), (3, 0), (1, 1)] :=
    ⟨by decide, by decide, vd.isLt, a.isLt, by decide, k.isLt, CvtFmt.code_lt src, by decide, by decide, trivial⟩
  have key : Instr.wf (.vclass src vd a k) = true → ∀ m, bits m 1 6 = 22 →
      bits m 25 3 = src.code →
      bits m 28 3 = 0 →
      vAt m 7 = vd →
      vAt m 12 = a →
      kAt m 22 = k →
      bits m 17 5 = 0 →
      bits m 31 1 = 1 →
      decodeWord m = .ok (.vclass src vd a k) := by
    intro hwf m f0 f1 f2 f3 f4 f5 f6 f7
    simp only [Instr.wf] at hwf
    clear hb hw
    simp_all [decodeWord, decodeCvt, orderAt, scopeAt, kField, ringCount]
  exact of_pack hw hb rfl rfl rfl fun h => key h _ (read hb 1) (read hb 6) (read hb 7) (vAt_of (read hb 2)) (vAt_of (read hb 3)) (kAt_of (read hb 5)) (read hb 4) (read hb 8)

theorem Encoding.mma (fmt : MatFmt) (adv wb : Bool) (acc : AccReg) (ra rb : Ring) (m' : XReg) : Statement (.mma fmt adv wb acc ra rb m') := by
  have hw : wordM 0 fmt.code adv wb acc ra rb m' =
      pack [(1, 1), (6, 23), (2, acc.val), (4, ra.val), (4, rb.val), (6, m'.val), (3, 0), (3, fmt.code), (1, adv.toNat), (1, wb.toNat), (1, 0)] := by simp only [wordR, wordV, wordA, wordE, wordM, word, core_code, Bool.toNat_true, Bool.toNat_false, pack]; omega
  have hb : Bounded [(1, 1), (6, 23), (2, acc.val), (4, ra.val), (4, rb.val), (6, m'.val), (3, 0), (3, fmt.code), (1, adv.toNat), (1, wb.toNat), (1, 0)] :=
    ⟨by decide, by decide, acc.isLt, ra.isLt, rb.isLt, m'.isLt, by decide, MatFmt.code_lt fmt, Bool.toNat_lt adv, Bool.toNat_lt wb, by decide, trivial⟩
  have key : ∀ m, bits m 1 6 = 23 →
      accAt m 7 = acc →
      nibAt m 9 = ra →
      nibAt m 13 = rb →
      xAt m 17 = m' →
      bits m 26 3 = fmt.code →
      bitAt m 29 = adv →
      bitAt m 30 = wb →
      bits m 31 1 = 0 →
      bits m 23 3 = 0 →
      bits m 30 1 = wb.toNat →
      decodeWord m = .ok (.mma fmt adv wb acc ra rb m') := by
    intro m f0 f1 f2 f3 f4 f5 f6 f7 f8 f9 f10
    simp [decodeWord, f0, f1, f2, f3, f4, f5, f6, f7, f8, f9, f10, decodeMatrix, orderAt, scopeAt, kField, ringCount]
  exact of_pack hw hb rfl rfl rfl fun _ => key _ (read hb 1) (accAt_of (read hb 2)) (nibAt_of (read hb 3)) (nibAt_of (read hb 4)) (xAt_of (read hb 5)) (read hb 7) (bitAt_bool (read hb 8)) (bitAt_bool (read hb 9)) (read hb 10) (read hb 6) (read hb 9)

theorem Encoding.mmaSp (fmt : MatFmt) (adv wb : Bool) (acc : AccReg) (ra rb : Ring) (m' : XReg) : Statement (.mmaSp fmt adv wb acc ra rb m') := by
  have hw : wordM 1 fmt.code adv wb acc ra rb m' =
      pack [(1, 1), (6, 23), (2, acc.val), (4, ra.val), (4, rb.val), (6, m'.val), (3, 1), (3, fmt.code), (1, adv.toNat), (1, wb.toNat), (1, 0)] := by simp only [wordR, wordV, wordA, wordE, wordM, word, core_code, Bool.toNat_true, Bool.toNat_false, pack]; omega
  have hb : Bounded [(1, 1), (6, 23), (2, acc.val), (4, ra.val), (4, rb.val), (6, m'.val), (3, 1), (3, fmt.code), (1, adv.toNat), (1, wb.toNat), (1, 0)] :=
    ⟨by decide, by decide, acc.isLt, ra.isLt, rb.isLt, m'.isLt, by decide, MatFmt.code_lt fmt, Bool.toNat_lt adv, Bool.toNat_lt wb, by decide, trivial⟩
  have key : Instr.wf (.mmaSp fmt adv wb acc ra rb m') = true → ∀ m, bits m 1 6 = 23 →
      accAt m 7 = acc →
      nibAt m 9 = ra →
      nibAt m 13 = rb →
      xAt m 17 = m' →
      bits m 26 3 = fmt.code →
      bitAt m 29 = adv →
      bitAt m 30 = wb →
      bits m 31 1 = 0 →
      bits m 23 3 = 1 →
      bits m 30 1 = wb.toNat →
      decodeWord m = .ok (.mmaSp fmt adv wb acc ra rb m') := by
    intro hwf m f0 f1 f2 f3 f4 f5 f6 f7 f8 f9 f10
    simp only [Instr.wf] at hwf
    clear hb hw
    simp_all [decodeWord, decodeMatrix, orderAt, scopeAt, kField, ringCount]
  exact of_pack hw hb rfl rfl rfl fun h => key h _ (read hb 1) (accAt_of (read hb 2)) (nibAt_of (read hb 3)) (nibAt_of (read hb 4)) (xAt_of (read hb 5)) (read hb 7) (bitAt_bool (read hb 8)) (bitAt_bool (read hb 9)) (read hb 10) (read hb 6) (read hb 9)

theorem Encoding.mwb (fmt : MatFmt) (adv : Bool) (ra slot : Ring) : Statement (.mwb fmt adv ra slot) := by
  have hw : wordM 2 fmt.code adv false 0 ra slot 0 =
      pack [(1, 1), (6, 23), (2, 0), (4, ra.val), (4, slot.val), (6, 0), (3, 2), (3, fmt.code), (1, adv.toNat), (1, 0), (1, 0)] := by simp only [wordR, wordV, wordA, wordE, wordM, word, core_code, Bool.toNat_true, Bool.toNat_false, pack]; omega
  have hb : Bounded [(1, 1), (6, 23), (2, 0), (4, ra.val), (4, slot.val), (6, 0), (3, 2), (3, fmt.code), (1, adv.toNat), (1, 0), (1, 0)] :=
    ⟨by decide, by decide, by decide, ra.isLt, slot.isLt, by decide, by decide, MatFmt.code_lt fmt, Bool.toNat_lt adv, by decide, by decide, trivial⟩
  have key : ∀ m, bits m 1 6 = 23 →
      accAt m 7 = 0 →
      nibAt m 9 = ra →
      nibAt m 13 = slot →
      xAt m 17 = 0 →
      bits m 26 3 = fmt.code →
      bitAt m 29 = adv →
      bitAt m 30 = false →
      bits m 31 1 = 0 →
      bits m 23 3 = 2 →
      bits m 7 2 = 0 →
      bits m 17 6 = 0 →
      bits m 30 1 = 0 →
      decodeWord m = .ok (.mwb fmt adv ra slot) := by
    intro m f0 f1 f2 f3 f4 f5 f6 f7 f8 f9 f10 f11 f12
    simp [decodeWord, f0, f1, f2, f3, f4, f5, f6, f7, f8, f9, f10, f11, f12, decodeMatrix, orderAt, scopeAt, kField, ringCount]
  exact of_pack hw hb rfl rfl rfl fun _ => key _ (read hb 1) (accAt_of (read hb 2)) (nibAt_of (read hb 3)) (nibAt_of (read hb 4)) (xAt_of (read hb 5)) (read hb 7) (bitAt_bool (read hb 8)) (bitAt_false (read hb 9)) (read hb 10) (read hb 6) (read hb 2) (read hb 5) (read hb 9)

theorem Encoding.mzero (acc : AccReg) : Statement (.mzero acc) := by
  have hw : wordM 3 0 false false acc 0 0 0 =
      pack [(1, 1), (6, 23), (2, acc.val), (2, 0), (2, 0), (4, 0), (6, 0), (3, 3), (3, 0), (1, 0), (1, 0), (1, 0)] := by simp only [wordR, wordV, wordA, wordE, wordM, word, core_code, Bool.toNat_true, Bool.toNat_false, pack]; omega
  have hb : Bounded [(1, 1), (6, 23), (2, acc.val), (2, 0), (2, 0), (4, 0), (6, 0), (3, 3), (3, 0), (1, 0), (1, 0), (1, 0)] :=
    ⟨by decide, by decide, acc.isLt, by decide, by decide, by decide, by decide, by decide, by decide, by decide, by decide, by decide, trivial⟩
  have key : ∀ m, bits m 1 6 = 23 →
      accAt m 7 = acc →
      nibAt m 9 = 0 →
      nibAt m 13 = 0 →
      xAt m 17 = 0 →
      bits m 26 3 = 0 →
      bitAt m 29 = false →
      bitAt m 30 = false →
      bits m 31 1 = 0 →
      bits m 23 3 = 3 →
      bits m 17 6 = 0 →
      bits m 30 1 = 0 →
      bits m 9 14 = 0 →
      bits m 26 5 = 0 →
      bits m 13 4 = 0 →
      bits m 13 10 = 0 →
      bits m 11 12 = 0 →
      accAt m 9 = 0 →
      decodeWord m = .ok (.mzero acc) := by
    intro m f0 f1 f2 f3 f4 f5 f6 f7 f8 f9 f10 f11 f12 f13 f14 f15 f16 f17
    simp [decodeWord, f0, f1, f2, f3, f4, f5, f6, f7, f8, f9, f10, f11, f12, f13, f14, f15, f16, f17, decodeMatrix, orderAt, scopeAt, kField, ringCount]
  exact of_pack hw hb rfl rfl rfl fun _ => key _ (read hb 1) (accAt_of (read hb 2)) (nibAt_of (readSpan hb 3 2)) (nibAt_of (read hb 5)) (xAt_of (read hb 6)) (read hb 8) (bitAt_false (read hb 9)) (bitAt_false (read hb 10)) (read hb 11) (read hb 7) (read hb 6) (read hb 10) (readSpan hb 3 4) (readSpan hb 8 3) (read hb 5) (readSpan hb 5 2) (readSpan hb 4 3) (accAt_of (read hb 3))

theorem Encoding.mst (fmt : MstFmt) (adv : Bool) (acc : AccReg) (ra : Ring) (m' : XReg) : Statement (.mst fmt adv acc ra m') := by
  have hw : wordM 4 fmt.code adv false acc ra 0 m' =
      pack [(1, 1), (6, 23), (2, acc.val), (4, ra.val), (4, 0), (6, m'.val), (3, 4), (3, fmt.code), (1, adv.toNat), (1, 0), (1, 0)] := by simp only [wordR, wordV, wordA, wordE, wordM, word, core_code, Bool.toNat_true, Bool.toNat_false, pack]; omega
  have hb : Bounded [(1, 1), (6, 23), (2, acc.val), (4, ra.val), (4, 0), (6, m'.val), (3, 4), (3, fmt.code), (1, adv.toNat), (1, 0), (1, 0)] :=
    ⟨by decide, by decide, acc.isLt, ra.isLt, by decide, m'.isLt, by decide, MstFmt.code_lt fmt, Bool.toNat_lt adv, by decide, by decide, trivial⟩
  have key : ∀ m, bits m 1 6 = 23 →
      accAt m 7 = acc →
      nibAt m 9 = ra →
      nibAt m 13 = 0 →
      xAt m 17 = m' →
      bits m 26 3 = fmt.code →
      bitAt m 29 = adv →
      bitAt m 30 = false →
      bits m 31 1 = 0 →
      bits m 23 3 = 4 →
      bits m 30 1 = 0 →
      bits m 13 4 = 0 →
      decodeWord m = .ok (.mst fmt adv acc ra m') := by
    intro m f0 f1 f2 f3 f4 f5 f6 f7 f8 f9 f10 f11
    simp [decodeWord, f0, f1, f2, f3, f4, f5, f6, f7, f8, f9, f10, f11, decodeMatrix, orderAt, scopeAt, kField, ringCount]
  exact of_pack hw hb rfl rfl rfl fun _ => key _ (read hb 1) (accAt_of (read hb 2)) (nibAt_of (read hb 3)) (nibAt_of (read hb 4)) (xAt_of (read hb 5)) (read hb 7) (bitAt_bool (read hb 8)) (bitAt_false (read hb 9)) (read hb 10) (read hb 6) (read hb 9) (read hb 4)

theorem Encoding.mlda (adv : Bool) (acc : AccReg) (ra : Ring) : Statement (.mlda adv acc ra) := by
  have hw : wordM 5 0 adv false acc ra 0 0 =
      pack [(1, 1), (6, 23), (2, acc.val), (4, ra.val), (4, 0), (6, 0), (3, 5), (3, 0), (1, adv.toNat), (1, 0), (1, 0)] := by simp only [wordR, wordV, wordA, wordE, wordM, word, core_code, Bool.toNat_true, Bool.toNat_false, pack]; omega
  have hb : Bounded [(1, 1), (6, 23), (2, acc.val), (4, ra.val), (4, 0), (6, 0), (3, 5), (3, 0), (1, adv.toNat), (1, 0), (1, 0)] :=
    ⟨by decide, by decide, acc.isLt, ra.isLt, by decide, by decide, by decide, by decide, Bool.toNat_lt adv, by decide, by decide, trivial⟩
  have key : ∀ m, bits m 1 6 = 23 →
      accAt m 7 = acc →
      nibAt m 9 = ra →
      nibAt m 13 = 0 →
      xAt m 17 = 0 →
      bits m 26 3 = 0 →
      bitAt m 29 = adv →
      bitAt m 30 = false →
      bits m 31 1 = 0 →
      bits m 23 3 = 5 →
      bits m 17 6 = 0 →
      bits m 30 1 = 0 →
      bits m 13 4 = 0 →
      bits m 13 10 = 0 →
      decodeWord m = .ok (.mlda adv acc ra) := by
    intro m f0 f1 f2 f3 f4 f5 f6 f7 f8 f9 f10 f11 f12 f13
    simp [decodeWord, f0, f1, f2, f3, f4, f5, f6, f7, f8, f9, f10, f11, f12, f13, decodeMatrix, orderAt, scopeAt, kField, ringCount]
  exact of_pack hw hb rfl rfl rfl fun _ => key _ (read hb 1) (accAt_of (read hb 2)) (nibAt_of (read hb 3)) (nibAt_of (read hb 4)) (xAt_of (read hb 5)) (read hb 7) (bitAt_bool (read hb 8)) (bitAt_false (read hb 9)) (read hb 10) (read hb 6) (read hb 5) (read hb 9) (read hb 4) (readSpan hb 4 2)

theorem Encoding.mmov (dst src : AccReg) : Statement (.mmov dst src) := by
  have hw : wordM 6 0 false false dst src 0 0 =
      pack [(1, 1), (6, 23), (2, dst.val), (2, src.val), (2, 0), (4, 0), (6, 0), (3, 6), (3, 0), (1, 0), (1, 0), (1, 0)] := by simp only [wordR, wordV, wordA, wordE, wordM, word, core_code, Bool.toNat_true, Bool.toNat_false, pack]; omega
  have hb : Bounded [(1, 1), (6, 23), (2, dst.val), (2, src.val), (2, 0), (4, 0), (6, 0), (3, 6), (3, 0), (1, 0), (1, 0), (1, 0)] :=
    ⟨by decide, by decide, dst.isLt, src.isLt, by decide, by decide, by decide, by decide, by decide, by decide, by decide, by decide, trivial⟩
  have key : ∀ m, bits m 1 6 = 23 →
      accAt m 7 = dst →
      nibAt m 13 = 0 →
      xAt m 17 = 0 →
      bits m 26 3 = 0 →
      bitAt m 29 = false →
      bitAt m 30 = false →
      bits m 31 1 = 0 →
      bits m 23 3 = 6 →
      bits m 17 6 = 0 →
      bits m 30 1 = 0 →
      bits m 26 5 = 0 →
      bits m 13 4 = 0 →
      bits m 13 10 = 0 →
      bits m 11 12 = 0 →
      accAt m 9 = src →
      decodeWord m = .ok (.mmov dst src) := by
    intro m f0 f1 f2 f3 f4 f5 f6 f7 f8 f9 f10 f11 f12 f13 f14 f15
    simp [decodeWord, f0, f1, f2, f3, f4, f5, f6, f7, f8, f9, f10, f11, f12, f13, f14, f15, decodeMatrix, orderAt, scopeAt, kField, ringCount]
  exact of_pack hw hb rfl rfl rfl fun _ => key _ (read hb 1) (accAt_of (read hb 2)) (nibAt_of (read hb 5)) (xAt_of (read hb 6)) (read hb 8) (bitAt_false (read hb 9)) (bitAt_false (read hb 10)) (read hb 11) (read hb 7) (read hb 6) (read hb 10) (readSpan hb 8 3) (read hb 5) (readSpan hb 5 2) (readSpan hb 4 3) (accAt_of (read hb 3))

theorem Encoding.rinit (h : Ring) (a : XReg) : Statement (.rinit h a) := by
  have hw : word 0x18 [(13, a), (19, 0), (22, h)] =
      pack [(1, 1), (6, 24), (6, 0), (6, a.val), (3, 0), (4, h.val), (2, 0), (1, 0), (1, 0), (2, 0)] := by simp only [wordR, wordV, wordA, wordE, wordM, word, core_code, Bool.toNat_true, Bool.toNat_false, pack]; omega
  have hb : Bounded [(1, 1), (6, 24), (6, 0), (6, a.val), (3, 0), (4, h.val), (2, 0), (1, 0), (1, 0), (2, 0)] :=
    ⟨by decide, by decide, by decide, a.isLt, by decide, h.isLt, by decide, by decide, by decide, by decide, trivial⟩
  have key : ∀ m, bits m 1 6 = 24 →
      bits m 19 3 = 0 →
      bits m 7 6 = 0 →
      bits m 26 6 = 0 →
      nibAt m 22 = h →
      xAt m 13 = a →
      bits m 30 2 = 0 →
      bits m 28 1 = 0 →
      bits m 26 2 = 0 →
      bitAt m 29 = false →
      bits m 29 1 = 0 →
      decodeWord m = .ok (.rinit h a) := by
    intro m f0 f1 f2 f3 f4 f5 f6 f7 f8 f9 f10
    simp [decodeWord, f0, f1, f2, f3, f4, f5, f6, f7, f8, f9, f10, decodeRing, orderAt, scopeAt, kField, ringCount]
  exact of_pack hw hb rfl rfl rfl fun _ => key _ (read hb 1) (read hb 4) (read hb 2) (readSpan hb 6 4) (nibAt_of (read hb 5)) (xAt_of (read hb 3)) (read hb 9) (read hb 7) (read hb 6) (bitAt_false (read hb 8)) (read hb 8)

theorem Encoding.cbwait (h : Ring) (a : XReg) (n : BitVec 6) : Statement (.cbwait h a n) := by
  have hw : word 0x18 [(13, a), (19, 1), (22, h), (26, n.toNat)] =
      pack [(1, 1), (6, 24), (6, 0), (6, a.val), (3, 1), (4, h.val), (6, n.toNat)] := by simp only [wordR, wordV, wordA, wordE, wordM, word, core_code, Bool.toNat_true, Bool.toNat_false, pack]; omega
  have hb : Bounded [(1, 1), (6, 24), (6, 0), (6, a.val), (3, 1), (4, h.val), (6, n.toNat)] :=
    ⟨by decide, by decide, by decide, a.isLt, by decide, h.isLt, n.isLt, trivial⟩
  have key : Instr.wf (.cbwait h a n) = true → ∀ m, bits m 1 6 = 24 →
      bits m 19 3 = 1 →
      bits m 7 6 = 0 →
      nibAt m 22 = h →
      xAt m 13 = a →
      immAt m 26 6 = n →
      decodeWord m = .ok (.cbwait h a n) := by
    intro hwf m f0 f1 f2 f3 f4 f5
    simp only [Instr.wf] at hwf
    clear hb hw
    simp_all [decodeWord, decodeRing, orderAt, scopeAt, kField, ringCount]
  exact of_pack hw hb rfl rfl rfl fun h => key h _ (read hb 1) (read hb 4) (read hb 2) (nibAt_of (read hb 5)) (xAt_of (read hb 3)) (immAt_of (read hb 6))

theorem Encoding.cbroom (h : Ring) (a : XReg) (n : BitVec 6) : Statement (.cbroom h a n) := by
  have hw : word 0x18 [(13, a), (19, 2), (22, h), (26, n.toNat)] =
      pack [(1, 1), (6, 24), (6, 0), (6, a.val), (3, 2), (4, h.val), (6, n.toNat)] := by simp only [wordR, wordV, wordA, wordE, wordM, word, core_code, Bool.toNat_true, Bool.toNat_false, pack]; omega
  have hb : Bounded [(1, 1), (6, 24), (6, 0), (6, a.val), (3, 2), (4, h.val), (6, n.toNat)] :=
    ⟨by decide, by decide, by decide, a.isLt, by decide, h.isLt, n.isLt, trivial⟩
  have key : Instr.wf (.cbroom h a n) = true → ∀ m, bits m 1 6 = 24 →
      bits m 19 3 = 2 →
      bits m 7 6 = 0 →
      nibAt m 22 = h →
      xAt m 13 = a →
      immAt m 26 6 = n →
      decodeWord m = .ok (.cbroom h a n) := by
    intro hwf m f0 f1 f2 f3 f4 f5
    simp only [Instr.wf] at hwf
    clear hb hw
    simp_all [decodeWord, decodeRing, orderAt, scopeAt, kField, ringCount]
  exact of_pack hw hb rfl rfl rfl fun h => key h _ (read hb 1) (read hb 4) (read hb 2) (nibAt_of (read hb 5)) (xAt_of (read hb 3)) (immAt_of (read hb 6))

theorem Encoding.cbadv (h : Ring) (a : XReg) (n : BitVec 6) : Statement (.cbadv h a n) := by
  have hw : word 0x18 [(13, a), (19, 3), (22, h), (26, n.toNat)] =
      pack [(1, 1), (6, 24), (6, 0), (6, a.val), (3, 3), (4, h.val), (6, n.toNat)] := by simp only [wordR, wordV, wordA, wordE, wordM, word, core_code, Bool.toNat_true, Bool.toNat_false, pack]; omega
  have hb : Bounded [(1, 1), (6, 24), (6, 0), (6, a.val), (3, 3), (4, h.val), (6, n.toNat)] :=
    ⟨by decide, by decide, by decide, a.isLt, by decide, h.isLt, n.isLt, trivial⟩
  have key : Instr.wf (.cbadv h a n) = true → ∀ m, bits m 1 6 = 24 →
      bits m 19 3 = 3 →
      bits m 7 6 = 0 →
      nibAt m 22 = h →
      xAt m 13 = a →
      immAt m 26 6 = n →
      decodeWord m = .ok (.cbadv h a n) := by
    intro hwf m f0 f1 f2 f3 f4 f5
    simp only [Instr.wf] at hwf
    clear hb hw
    simp_all [decodeWord, decodeRing, orderAt, scopeAt, kField, ringCount]
  exact of_pack hw hb rfl rfl rfl fun h => key h _ (read hb 1) (read hb 4) (read hb 2) (nibAt_of (read hb 5)) (xAt_of (read hb 3)) (immAt_of (read hb 6))

theorem Encoding.cbpub (h : Ring) (a : XReg) (n : BitVec 6) : Statement (.cbpub h a n) := by
  have hw : word 0x18 [(13, a), (19, 4), (22, h), (26, n.toNat)] =
      pack [(1, 1), (6, 24), (6, 0), (6, a.val), (3, 4), (4, h.val), (6, n.toNat)] := by simp only [wordR, wordV, wordA, wordE, wordM, word, core_code, Bool.toNat_true, Bool.toNat_false, pack]; omega
  have hb : Bounded [(1, 1), (6, 24), (6, 0), (6, a.val), (3, 4), (4, h.val), (6, n.toNat)] :=
    ⟨by decide, by decide, by decide, a.isLt, by decide, h.isLt, n.isLt, trivial⟩
  have key : Instr.wf (.cbpub h a n) = true → ∀ m, bits m 1 6 = 24 →
      bits m 19 3 = 4 →
      bits m 7 6 = 0 →
      nibAt m 22 = h →
      xAt m 13 = a →
      immAt m 26 6 = n →
      decodeWord m = .ok (.cbpub h a n) := by
    intro hwf m f0 f1 f2 f3 f4 f5
    simp only [Instr.wf] at hwf
    clear hb hw
    simp_all [decodeWord, decodeRing, orderAt, scopeAt, kField, ringCount]
  exact of_pack hw hb rfl rfl rfl fun h => key h _ (read hb 1) (read hb 4) (read hb 2) (nibAt_of (read hb 5)) (xAt_of (read hb 3)) (immAt_of (read hb 6))

theorem Encoding.bindRd (p : Port) (h : Ring) (e : Size) (z : Bool) : Statement (.bindRd p h e z) := by
  have hw : word 0x18 [(7, 60 + p.val), (19, 5), (22, h), (26, e.code), (29, z.toNat)] =
      pack [(1, 1), (6, 24), (2, p.val), (4, 15), (6, 0), (3, 5), (4, h.val), (2, e.code), (1, 0), (1, z.toNat), (2, 0)] := by simp only [wordR, wordV, wordA, wordE, wordM, word, core_code, Bool.toNat_true, Bool.toNat_false, pack]; omega
  have hb : Bounded [(1, 1), (6, 24), (2, p.val), (4, 15), (6, 0), (3, 5), (4, h.val), (2, e.code), (1, 0), (1, z.toNat), (2, 0)] :=
    ⟨by decide, by decide, p.isLt, by decide, by decide, by decide, h.isLt, Size.code_lt e, by decide, Bool.toNat_lt z, by decide, trivial⟩
  have key : ∀ m, bits m 1 6 = 24 →
      bits m 19 3 = 5 →
      bits m 7 6 = p.val + 60 →
      nibAt m 22 = h →
      xAt m 13 = 0 →
      bits m 30 2 = 0 →
      bits m 13 6 = 0 →
      bits m 28 1 = 0 →
      bits m 26 2 = e.code →
      bitAt m 29 = z →
      bits m 29 1 = z.toNat →
      (Fin.ofNat 4 (m / 2 ^ 7) : Port) = p →
      decodeWord m = .ok (.bindRd p h e z) := by
    intro m f0 f1 f2 f3 f4 f5 f6 f7 f8 f9 f10 f11
    simp [decodeWord, f0, f1, f2, f3, f4, f5, f6, f7, f8, f9, f10, f11, decodeRing, orderAt, scopeAt, kField, ringCount]
    exact f11
  exact of_pack hw hb rfl rfl rfl fun _ => key _ (read hb 1) (read hb 5) (readSpan hb 2 2) (nibAt_of (read hb 6)) (xAt_of (read hb 4)) (read hb 10) (read hb 4) (read hb 8) (read hb 7) (bitAt_bool (read hb 9)) (read hb 9) (Fin.ext (read hb 2))

theorem Encoding.bindWr (p : Port) (h : Ring) (e : Size) : Statement (.bindWr p h e) := by
  have hw : word 0x18 [(7, 60 + p.val), (19, 5), (22, h), (26, e.code), (28, 1)] =
      pack [(1, 1), (6, 24), (2, p.val), (4, 15), (6, 0), (3, 5), (4, h.val), (2, e.code), (1, 1), (1, 0), (2, 0)] := by simp only [wordR, wordV, wordA, wordE, wordM, word, core_code, Bool.toNat_true, Bool.toNat_false, pack]; omega
  have hb : Bounded [(1, 1), (6, 24), (2, p.val), (4, 15), (6, 0), (3, 5), (4, h.val), (2, e.code), (1, 1), (1, 0), (2, 0)] :=
    ⟨by decide, by decide, p.isLt, by decide, by decide, by decide, h.isLt, Size.code_lt e, by decide, by decide, by decide, trivial⟩
  have key : ∀ m, bits m 1 6 = 24 →
      bits m 19 3 = 5 →
      bits m 7 6 = p.val + 60 →
      nibAt m 22 = h →
      xAt m 13 = 0 →
      bits m 30 2 = 0 →
      bits m 13 6 = 0 →
      bits m 28 1 = 1 →
      bits m 26 2 = e.code →
      bitAt m 29 = false →
      bits m 29 1 = 0 →
      (Fin.ofNat 4 (m / 2 ^ 7) : Port) = p →
      decodeWord m = .ok (.bindWr p h e) := by
    intro m f0 f1 f2 f3 f4 f5 f6 f7 f8 f9 f10 f11
    simp [decodeWord, f0, f1, f2, f3, f4, f5, f6, f7, f8, f9, f10, f11, decodeRing, orderAt, scopeAt, kField, ringCount]
    exact f11
  exact of_pack hw hb rfl rfl rfl fun _ => key _ (read hb 1) (read hb 5) (readSpan hb 2 2) (nibAt_of (read hb 6)) (xAt_of (read hb 4)) (read hb 10) (read hb 4) (read hb 8) (read hb 7) (bitAt_false (read hb 9)) (read hb 9) (Fin.ext (read hb 2))

theorem Encoding.unbind (p : Port) : Statement (.unbind p) := by
  have hw : word 0x18 [(7, 60 + p.val), (19, 6)] =
      pack [(1, 1), (6, 24), (2, p.val), (4, 15), (6, 0), (3, 6), (4, 0), (2, 0), (1, 0), (1, 0), (2, 0)] := by simp only [wordR, wordV, wordA, wordE, wordM, word, core_code, Bool.toNat_true, Bool.toNat_false, pack]; omega
  have hb : Bounded [(1, 1), (6, 24), (2, p.val), (4, 15), (6, 0), (3, 6), (4, 0), (2, 0), (1, 0), (1, 0), (2, 0)] :=
    ⟨by decide, by decide, p.isLt, by decide, by decide, by decide, by decide, by decide, by decide, by decide, by decide, trivial⟩
  have key : ∀ m, bits m 1 6 = 24 →
      bits m 19 3 = 6 →
      bits m 7 6 = p.val + 60 →
      bits m 26 6 = 0 →
      nibAt m 22 = 0 →
      xAt m 13 = 0 →
      bits m 30 2 = 0 →
      bits m 13 6 = 0 →
      bits m 28 1 = 0 →
      bits m 26 2 = 0 →
      bitAt m 29 = false →
      bits m 29 1 = 0 →
      bits m 22 10 = 0 →
      (Fin.ofNat 4 (m / 2 ^ 7) : Port) = p →
      decodeWord m = .ok (.unbind p) := by
    intro m f0 f1 f2 f3 f4 f5 f6 f7 f8 f9 f10 f11 f12 f13
    simp [decodeWord, f0, f1, f2, f3, f4, f5, f6, f7, f8, f9, f10, f11, f12, f13, decodeRing, orderAt, scopeAt, kField, ringCount]
    exact f13
  exact of_pack hw hb rfl rfl rfl fun _ => key _ (read hb 1) (read hb 5) (readSpan hb 2 2) (readSpan hb 7 4) (nibAt_of (read hb 6)) (xAt_of (read hb 4)) (read hb 10) (read hb 4) (read hb 8) (read hb 7) (bitAt_false (read hb 9)) (read hb 9) (readSpan hb 6 5) (Fin.ext (read hb 2))

theorem Encoding.copy (d s c p : EngReg) (o : MemOrder) (l : LocalSide) : Statement (.copy d s c p o l) := by
  have hw : wordE 0x19 l.code d s c p o =
      pack [(1, 1), (6, 25), (4, d.val), (4, s.val), (4, c.val), (4, p.val), (3, o.scope.code), (1, o.acq.toNat), (1, o.rel.toNat), (2, l.code), (2, 0)] := by simp only [wordR, wordV, wordA, wordE, wordM, word, core_code, Bool.toNat_true, Bool.toNat_false, pack]; omega
  have hb : Bounded [(1, 1), (6, 25), (4, d.val), (4, s.val), (4, c.val), (4, p.val), (3, o.scope.code), (1, o.acq.toNat), (1, o.rel.toNat), (2, l.code), (2, 0)] :=
    ⟨by decide, by decide, d.isLt, s.isLt, c.isLt, p.isLt, Scope.code_lt o.scope, Bool.toNat_lt o.acq, Bool.toNat_lt o.rel, LocalSide.code_lt l, by decide, trivial⟩
  have key : Instr.wf (.copy d s c p o l) = true → ∀ m, bits m 1 6 = 25 →
      nibAt m 7 = d →
      nibAt m 11 = s →
      nibAt m 15 = c →
      nibAt m 19 = p →
      bits m 28 2 = l.code →
      bits m 23 3 = o.scope.code →
      bitAt m 26 = o.acq →
      bitAt m 27 = o.rel →
      bits m 30 2 = 0 →
      decodeWord m = .ok (.copy d s c p o l) := by
    intro hwf m f0 f1 f2 f3 f4 f5 f6 f7 f8 f9
    simp only [Instr.wf] at hwf
    clear hb hw
    simp_all [decodeWord, decodeCopy, orderAt, scopeAt, kField, ringCount]
  exact of_pack hw hb rfl rfl rfl fun h => key h _ (read hb 1) (nibAt_of (read hb 2)) (nibAt_of (read hb 3)) (nibAt_of (read hb 4)) (nibAt_of (read hb 5)) (read hb 9) (read hb 6) (bitAt_bool (read hb 7)) (bitAt_bool (read hb 8)) (read hb 10)

theorem Encoding.copyIn (d s c p : EngReg) (o : MemOrder) (l : LocalSide) : Statement (.copyIn d s c p o l) := by
  have hw : wordE 0x19 (l.code + 4) d s c p o =
      pack [(1, 1), (6, 25), (4, d.val), (4, s.val), (4, c.val), (4, p.val), (3, o.scope.code), (1, o.acq.toNat), (1, o.rel.toNat), (2, l.code), (2, 1)] := by simp only [wordR, wordV, wordA, wordE, wordM, word, core_code, Bool.toNat_true, Bool.toNat_false, pack]; omega
  have hb : Bounded [(1, 1), (6, 25), (4, d.val), (4, s.val), (4, c.val), (4, p.val), (3, o.scope.code), (1, o.acq.toNat), (1, o.rel.toNat), (2, l.code), (2, 1)] :=
    ⟨by decide, by decide, d.isLt, s.isLt, c.isLt, p.isLt, Scope.code_lt o.scope, Bool.toNat_lt o.acq, Bool.toNat_lt o.rel, LocalSide.code_lt l, by decide, trivial⟩
  have key : Instr.wf (.copyIn d s c p o l) = true → ∀ m, bits m 1 6 = 25 →
      nibAt m 7 = d →
      nibAt m 11 = s →
      nibAt m 15 = c →
      nibAt m 19 = p →
      bits m 28 2 = l.code →
      bits m 23 3 = o.scope.code →
      bitAt m 26 = o.acq →
      bitAt m 27 = o.rel →
      bits m 30 2 = 1 →
      decodeWord m = .ok (.copyIn d s c p o l) := by
    intro hwf m f0 f1 f2 f3 f4 f5 f6 f7 f8 f9
    simp only [Instr.wf] at hwf
    clear hb hw
    simp_all [decodeWord, decodeCopy, orderAt, scopeAt, kField, ringCount]
  exact of_pack hw hb rfl rfl rfl fun h => key h _ (read hb 1) (nibAt_of (read hb 2)) (nibAt_of (read hb 3)) (nibAt_of (read hb 4)) (nibAt_of (read hb 5)) (read hb 9) (read hb 6) (bitAt_bool (read hb 7)) (bitAt_bool (read hb 8)) (read hb 10)

theorem Encoding.copy2 (d s c p : EngReg) (o : MemOrder) (l : LocalSide) : Statement (.copy2 d s c p o l) := by
  have hw : wordE 0x19 (l.code + 8) d s c p o =
      pack [(1, 1), (6, 25), (4, d.val), (4, s.val), (4, c.val), (4, p.val), (3, o.scope.code), (1, o.acq.toNat), (1, o.rel.toNat), (2, l.code), (2, 2)] := by simp only [wordR, wordV, wordA, wordE, wordM, word, core_code, Bool.toNat_true, Bool.toNat_false, pack]; omega
  have hb : Bounded [(1, 1), (6, 25), (4, d.val), (4, s.val), (4, c.val), (4, p.val), (3, o.scope.code), (1, o.acq.toNat), (1, o.rel.toNat), (2, l.code), (2, 2)] :=
    ⟨by decide, by decide, d.isLt, s.isLt, c.isLt, p.isLt, Scope.code_lt o.scope, Bool.toNat_lt o.acq, Bool.toNat_lt o.rel, LocalSide.code_lt l, by decide, trivial⟩
  have key : Instr.wf (.copy2 d s c p o l) = true → ∀ m, bits m 1 6 = 25 →
      nibAt m 7 = d →
      nibAt m 11 = s →
      nibAt m 15 = c →
      nibAt m 19 = p →
      bits m 28 2 = l.code →
      bits m 23 3 = o.scope.code →
      bitAt m 26 = o.acq →
      bitAt m 27 = o.rel →
      bits m 30 2 = 2 →
      decodeWord m = .ok (.copy2 d s c p o l) := by
    intro hwf m f0 f1 f2 f3 f4 f5 f6 f7 f8 f9
    simp only [Instr.wf] at hwf
    clear hb hw
    simp_all [decodeWord, decodeCopy, orderAt, scopeAt, kField, ringCount]
  exact of_pack hw hb rfl rfl rfl fun h => key h _ (read hb 1) (nibAt_of (read hb 2)) (nibAt_of (read hb 3)) (nibAt_of (read hb 4)) (nibAt_of (read hb 5)) (read hb 9) (read hb 6) (bitAt_bool (read hb 7)) (bitAt_bool (read hb 8)) (read hb 10)

theorem Encoding.gath (d s c p : EngReg) (o : MemOrder) (l : LocalSide) : Statement (.gath d s c p o l) := by
  have hw : wordE 0x19 (l.code + 12) d s c p o =
      pack [(1, 1), (6, 25), (4, d.val), (4, s.val), (4, c.val), (4, p.val), (3, o.scope.code), (1, o.acq.toNat), (1, o.rel.toNat), (2, l.code), (2, 3)] := by simp only [wordR, wordV, wordA, wordE, wordM, word, core_code, Bool.toNat_true, Bool.toNat_false, pack]; omega
  have hb : Bounded [(1, 1), (6, 25), (4, d.val), (4, s.val), (4, c.val), (4, p.val), (3, o.scope.code), (1, o.acq.toNat), (1, o.rel.toNat), (2, l.code), (2, 3)] :=
    ⟨by decide, by decide, d.isLt, s.isLt, c.isLt, p.isLt, Scope.code_lt o.scope, Bool.toNat_lt o.acq, Bool.toNat_lt o.rel, LocalSide.code_lt l, by decide, trivial⟩
  have key : Instr.wf (.gath d s c p o l) = true → ∀ m, bits m 1 6 = 25 →
      nibAt m 7 = d →
      nibAt m 11 = s →
      nibAt m 15 = c →
      nibAt m 19 = p →
      bits m 28 2 = l.code →
      bits m 23 3 = o.scope.code →
      bitAt m 26 = o.acq →
      bitAt m 27 = o.rel →
      bits m 30 2 = 3 →
      decodeWord m = .ok (.gath d s c p o l) := by
    intro hwf m f0 f1 f2 f3 f4 f5 f6 f7 f8 f9
    simp only [Instr.wf] at hwf
    clear hb hw
    simp_all [decodeWord, decodeCopy, orderAt, scopeAt, kField, ringCount]
  exact of_pack hw hb rfl rfl rfl fun h => key h _ (read hb 1) (nibAt_of (read hb 2)) (nibAt_of (read hb 3)) (nibAt_of (read hb 4)) (nibAt_of (read hb 5)) (read hb 9) (read hb 6) (bitAt_bool (read hb 7)) (bitAt_bool (read hb 8)) (read hb 10)

theorem Encoding.collAllred (d s c p : EngReg) (o : MemOrder) : Statement (.collAllred d s c p o) := by
  have hw : wordE 0x1A 0 d s c p o =
      pack [(1, 1), (6, 26), (4, d.val), (4, s.val), (4, c.val), (4, p.val), (3, o.scope.code), (1, o.acq.toNat), (1, o.rel.toNat), (4, 0)] := by simp only [wordR, wordV, wordA, wordE, wordM, word, core_code, Bool.toNat_true, Bool.toNat_false, pack]; omega
  have hb : Bounded [(1, 1), (6, 26), (4, d.val), (4, s.val), (4, c.val), (4, p.val), (3, o.scope.code), (1, o.acq.toNat), (1, o.rel.toNat), (4, 0)] :=
    ⟨by decide, by decide, d.isLt, s.isLt, c.isLt, p.isLt, Scope.code_lt o.scope, Bool.toNat_lt o.acq, Bool.toNat_lt o.rel, by decide, trivial⟩
  have key : Instr.wf (.collAllred d s c p o) = true → ∀ m, bits m 1 6 = 26 →
      nibAt m 7 = d →
      nibAt m 11 = s →
      nibAt m 15 = c →
      nibAt m 19 = p →
      bits m 23 3 = o.scope.code →
      bitAt m 26 = o.acq →
      bitAt m 27 = o.rel →
      bits m 28 4 = 0 →
      decodeWord m = .ok (.collAllred d s c p o) := by
    intro hwf m f0 f1 f2 f3 f4 f5 f6 f7 f8
    simp only [Instr.wf] at hwf
    clear hb hw
    simp_all [decodeWord, decodeColl, orderAt, scopeAt, kField, ringCount]
  exact of_pack hw hb rfl rfl rfl fun h => key h _ (read hb 1) (nibAt_of (read hb 2)) (nibAt_of (read hb 3)) (nibAt_of (read hb 4)) (nibAt_of (read hb 5)) (read hb 6) (bitAt_bool (read hb 7)) (bitAt_bool (read hb 8)) (read hb 9)

theorem Encoding.collRed (d s c p : EngReg) (o : MemOrder) : Statement (.collRed d s c p o) := by
  have hw : wordE 0x1A 1 d s c p o =
      pack [(1, 1), (6, 26), (4, d.val), (4, s.val), (4, c.val), (4, p.val), (3, o.scope.code), (1, o.acq.toNat), (1, o.rel.toNat), (4, 1)] := by simp only [wordR, wordV, wordA, wordE, wordM, word, core_code, Bool.toNat_true, Bool.toNat_false, pack]; omega
  have hb : Bounded [(1, 1), (6, 26), (4, d.val), (4, s.val), (4, c.val), (4, p.val), (3, o.scope.code), (1, o.acq.toNat), (1, o.rel.toNat), (4, 1)] :=
    ⟨by decide, by decide, d.isLt, s.isLt, c.isLt, p.isLt, Scope.code_lt o.scope, Bool.toNat_lt o.acq, Bool.toNat_lt o.rel, by decide, trivial⟩
  have key : Instr.wf (.collRed d s c p o) = true → ∀ m, bits m 1 6 = 26 →
      nibAt m 7 = d →
      nibAt m 11 = s →
      nibAt m 15 = c →
      nibAt m 19 = p →
      bits m 23 3 = o.scope.code →
      bitAt m 26 = o.acq →
      bitAt m 27 = o.rel →
      bits m 28 4 = 1 →
      decodeWord m = .ok (.collRed d s c p o) := by
    intro hwf m f0 f1 f2 f3 f4 f5 f6 f7 f8
    simp only [Instr.wf] at hwf
    clear hb hw
    simp_all [decodeWord, decodeColl, orderAt, scopeAt, kField, ringCount]
  exact of_pack hw hb rfl rfl rfl fun h => key h _ (read hb 1) (nibAt_of (read hb 2)) (nibAt_of (read hb 3)) (nibAt_of (read hb 4)) (nibAt_of (read hb 5)) (read hb 6) (bitAt_bool (read hb 7)) (bitAt_bool (read hb 8)) (read hb 9)

theorem Encoding.collBcast (d s c p : EngReg) (o : MemOrder) : Statement (.collBcast d s c p o) := by
  have hw : wordE 0x1A 2 d s c p o =
      pack [(1, 1), (6, 26), (4, d.val), (4, s.val), (4, c.val), (4, p.val), (3, o.scope.code), (1, o.acq.toNat), (1, o.rel.toNat), (4, 2)] := by simp only [wordR, wordV, wordA, wordE, wordM, word, core_code, Bool.toNat_true, Bool.toNat_false, pack]; omega
  have hb : Bounded [(1, 1), (6, 26), (4, d.val), (4, s.val), (4, c.val), (4, p.val), (3, o.scope.code), (1, o.acq.toNat), (1, o.rel.toNat), (4, 2)] :=
    ⟨by decide, by decide, d.isLt, s.isLt, c.isLt, p.isLt, Scope.code_lt o.scope, Bool.toNat_lt o.acq, Bool.toNat_lt o.rel, by decide, trivial⟩
  have key : Instr.wf (.collBcast d s c p o) = true → ∀ m, bits m 1 6 = 26 →
      nibAt m 7 = d →
      nibAt m 11 = s →
      nibAt m 15 = c →
      nibAt m 19 = p →
      bits m 23 3 = o.scope.code →
      bitAt m 26 = o.acq →
      bitAt m 27 = o.rel →
      bits m 28 4 = 2 →
      decodeWord m = .ok (.collBcast d s c p o) := by
    intro hwf m f0 f1 f2 f3 f4 f5 f6 f7 f8
    simp only [Instr.wf] at hwf
    clear hb hw
    simp_all [decodeWord, decodeColl, orderAt, scopeAt, kField, ringCount]
  exact of_pack hw hb rfl rfl rfl fun h => key h _ (read hb 1) (nibAt_of (read hb 2)) (nibAt_of (read hb 3)) (nibAt_of (read hb 4)) (nibAt_of (read hb 5)) (read hb 6) (bitAt_bool (read hb 7)) (bitAt_bool (read hb 8)) (read hb 9)

theorem Encoding.collAllgath (d s c p : EngReg) (o : MemOrder) : Statement (.collAllgath d s c p o) := by
  have hw : wordE 0x1A 3 d s c p o =
      pack [(1, 1), (6, 26), (4, d.val), (4, s.val), (4, c.val), (4, p.val), (3, o.scope.code), (1, o.acq.toNat), (1, o.rel.toNat), (4, 3)] := by simp only [wordR, wordV, wordA, wordE, wordM, word, core_code, Bool.toNat_true, Bool.toNat_false, pack]; omega
  have hb : Bounded [(1, 1), (6, 26), (4, d.val), (4, s.val), (4, c.val), (4, p.val), (3, o.scope.code), (1, o.acq.toNat), (1, o.rel.toNat), (4, 3)] :=
    ⟨by decide, by decide, d.isLt, s.isLt, c.isLt, p.isLt, Scope.code_lt o.scope, Bool.toNat_lt o.acq, Bool.toNat_lt o.rel, by decide, trivial⟩
  have key : Instr.wf (.collAllgath d s c p o) = true → ∀ m, bits m 1 6 = 26 →
      nibAt m 7 = d →
      nibAt m 11 = s →
      nibAt m 15 = c →
      nibAt m 19 = p →
      bits m 23 3 = o.scope.code →
      bitAt m 26 = o.acq →
      bitAt m 27 = o.rel →
      bits m 28 4 = 3 →
      decodeWord m = .ok (.collAllgath d s c p o) := by
    intro hwf m f0 f1 f2 f3 f4 f5 f6 f7 f8
    simp only [Instr.wf] at hwf
    clear hb hw
    simp_all [decodeWord, decodeColl, orderAt, scopeAt, kField, ringCount]
  exact of_pack hw hb rfl rfl rfl fun h => key h _ (read hb 1) (nibAt_of (read hb 2)) (nibAt_of (read hb 3)) (nibAt_of (read hb 4)) (nibAt_of (read hb 5)) (read hb 6) (bitAt_bool (read hb 7)) (bitAt_bool (read hb 8)) (read hb 9)

theorem Encoding.collRedscat (d s c p : EngReg) (o : MemOrder) : Statement (.collRedscat d s c p o) := by
  have hw : wordE 0x1A 4 d s c p o =
      pack [(1, 1), (6, 26), (4, d.val), (4, s.val), (4, c.val), (4, p.val), (3, o.scope.code), (1, o.acq.toNat), (1, o.rel.toNat), (4, 4)] := by simp only [wordR, wordV, wordA, wordE, wordM, word, core_code, Bool.toNat_true, Bool.toNat_false, pack]; omega
  have hb : Bounded [(1, 1), (6, 26), (4, d.val), (4, s.val), (4, c.val), (4, p.val), (3, o.scope.code), (1, o.acq.toNat), (1, o.rel.toNat), (4, 4)] :=
    ⟨by decide, by decide, d.isLt, s.isLt, c.isLt, p.isLt, Scope.code_lt o.scope, Bool.toNat_lt o.acq, Bool.toNat_lt o.rel, by decide, trivial⟩
  have key : Instr.wf (.collRedscat d s c p o) = true → ∀ m, bits m 1 6 = 26 →
      nibAt m 7 = d →
      nibAt m 11 = s →
      nibAt m 15 = c →
      nibAt m 19 = p →
      bits m 23 3 = o.scope.code →
      bitAt m 26 = o.acq →
      bitAt m 27 = o.rel →
      bits m 28 4 = 4 →
      decodeWord m = .ok (.collRedscat d s c p o) := by
    intro hwf m f0 f1 f2 f3 f4 f5 f6 f7 f8
    simp only [Instr.wf] at hwf
    clear hb hw
    simp_all [decodeWord, decodeColl, orderAt, scopeAt, kField, ringCount]
  exact of_pack hw hb rfl rfl rfl fun h => key h _ (read hb 1) (nibAt_of (read hb 2)) (nibAt_of (read hb 3)) (nibAt_of (read hb 4)) (nibAt_of (read hb 5)) (read hb 6) (bitAt_bool (read hb 7)) (bitAt_bool (read hb 8)) (read hb 9)

theorem Encoding.depo (a b : XReg) (sc : Scope) (rel : Bool) : Statement (.depo a b sc rel) := by
  have hw : wordA 0x1E 0 0 a b sc false rel =
      pack [(1, 1), (6, 30), (6, 0), (6, a.val), (6, b.val), (3, sc.code), (1, 0), (1, rel.toNat), (2, 0)] := by simp only [wordR, wordV, wordA, wordE, wordM, word, core_code, Bool.toNat_true, Bool.toNat_false, pack]; omega
  have hb : Bounded [(1, 1), (6, 30), (6, 0), (6, a.val), (6, b.val), (3, sc.code), (1, 0), (1, rel.toNat), (2, 0)] :=
    ⟨by decide, by decide, by decide, a.isLt, b.isLt, Scope.code_lt sc, by decide, Bool.toNat_lt rel, by decide, trivial⟩
  have key : Instr.wf (.depo a b sc rel) = true → ∀ m, bits m 1 6 = 30 →
      xAt m 7 = 0 →
      xAt m 13 = a →
      xAt m 19 = b →
      bits m 30 2 = 0 →
      bits m 7 6 = 0 →
      bits m 28 1 = 0 →
      bits m 25 3 = sc.code →
      bitAt m 29 = rel →
      bitAt m 28 = false →
      decodeWord m = .ok (.depo a b sc rel) := by
    intro hwf m f0 f1 f2 f3 f4 f5 f6 f7 f8 f9
    simp only [Instr.wf] at hwf
    clear hb hw
    simp_all [decodeWord, decodeMsg, orderAt, scopeAt, kField, ringCount]
  exact of_pack hw hb rfl rfl rfl fun h => key h _ (read hb 1) (xAt_of (read hb 2)) (xAt_of (read hb 3)) (xAt_of (read hb 4)) (read hb 8) (read hb 2) (read hb 6) (read hb 5) (bitAt_bool (read hb 7)) (bitAt_false (read hb 6))

theorem Encoding.slcall (rd a b : XReg) (o : MemOrder) : Statement (.slcall rd a b o) := by
  have hw : wordA 0x1E 1 rd a b o.scope o.acq o.rel =
      pack [(1, 1), (6, 30), (6, rd.val), (6, a.val), (6, b.val), (3, o.scope.code), (1, o.acq.toNat), (1, o.rel.toNat), (2, 1)] := by simp only [wordR, wordV, wordA, wordE, wordM, word, core_code, Bool.toNat_true, Bool.toNat_false, pack]; omega
  have hb : Bounded [(1, 1), (6, 30), (6, rd.val), (6, a.val), (6, b.val), (3, o.scope.code), (1, o.acq.toNat), (1, o.rel.toNat), (2, 1)] :=
    ⟨by decide, by decide, rd.isLt, a.isLt, b.isLt, Scope.code_lt o.scope, Bool.toNat_lt o.acq, Bool.toNat_lt o.rel, by decide, trivial⟩
  have key : Instr.wf (.slcall rd a b o) = true → ∀ m, bits m 1 6 = 30 →
      xAt m 7 = rd →
      xAt m 13 = a →
      xAt m 19 = b →
      bits m 30 2 = 1 →
      bits m 28 1 = o.acq.toNat →
      bits m 25 3 = o.scope.code →
      bitAt m 29 = o.rel →
      bitAt m 28 = o.acq →
      decodeWord m = .ok (.slcall rd a b o) := by
    intro hwf m f0 f1 f2 f3 f4 f5 f6 f7 f8
    simp only [Instr.wf] at hwf
    clear hb hw
    simp_all [decodeWord, decodeMsg, orderAt, scopeAt, kField, ringCount]
  exact of_pack hw hb rfl rfl rfl fun h => key h _ (read hb 1) (xAt_of (read hb 2)) (xAt_of (read hb 3)) (xAt_of (read hb 4)) (read hb 8) (read hb 6) (read hb 5) (bitAt_bool (read hb 7)) (bitAt_bool (read hb 6))

theorem Encoding.slpush (rd a b : XReg) (o : MemOrder) : Statement (.slpush rd a b o) := by
  have hw : wordA 0x1E 2 rd a b o.scope o.acq o.rel =
      pack [(1, 1), (6, 30), (6, rd.val), (6, a.val), (6, b.val), (3, o.scope.code), (1, o.acq.toNat), (1, o.rel.toNat), (2, 2)] := by simp only [wordR, wordV, wordA, wordE, wordM, word, core_code, Bool.toNat_true, Bool.toNat_false, pack]; omega
  have hb : Bounded [(1, 1), (6, 30), (6, rd.val), (6, a.val), (6, b.val), (3, o.scope.code), (1, o.acq.toNat), (1, o.rel.toNat), (2, 2)] :=
    ⟨by decide, by decide, rd.isLt, a.isLt, b.isLt, Scope.code_lt o.scope, Bool.toNat_lt o.acq, Bool.toNat_lt o.rel, by decide, trivial⟩
  have key : Instr.wf (.slpush rd a b o) = true → ∀ m, bits m 1 6 = 30 →
      xAt m 7 = rd →
      xAt m 13 = a →
      xAt m 19 = b →
      bits m 30 2 = 2 →
      bits m 28 1 = o.acq.toNat →
      bits m 25 3 = o.scope.code →
      bitAt m 29 = o.rel →
      bitAt m 28 = o.acq →
      decodeWord m = .ok (.slpush rd a b o) := by
    intro hwf m f0 f1 f2 f3 f4 f5 f6 f7 f8
    simp only [Instr.wf] at hwf
    clear hb hw
    simp_all [decodeWord, decodeMsg, orderAt, scopeAt, kField, ringCount]
  exact of_pack hw hb rfl rfl rfl fun h => key h _ (read hb 1) (xAt_of (read hb 2)) (xAt_of (read hb 3)) (xAt_of (read hb 4)) (read hb 8) (read hb 6) (read hb 5) (bitAt_bool (read hb 7)) (bitAt_bool (read hb 6))

theorem Encoding.phInit (rd a b : XReg) : Statement (.phInit rd a b) := by
  have hw : wordR 0x1B 0 rd a b =
      pack [(1, 1), (6, 27), (6, rd.val), (6, a.val), (6, b.val), (4, 0), (2, 0), (1, 0)] := by simp only [wordR, wordV, wordA, wordE, wordM, word, core_code, Bool.toNat_true, Bool.toNat_false, pack]; omega
  have hb : Bounded [(1, 1), (6, 27), (6, rd.val), (6, a.val), (6, b.val), (4, 0), (2, 0), (1, 0)] :=
    ⟨by decide, by decide, rd.isLt, a.isLt, b.isLt, by decide, by decide, by decide, trivial⟩
  have key : ∀ m, bits m 1 6 = 27 →
      xAt m 7 = rd →
      xAt m 13 = a →
      xAt m 19 = b →
      bits m 25 4 = 0 →
      bits m 29 3 = 0 →
      bits m 31 1 = 0 →
      bits m 29 2 = 0 →
      bitAt m 31 = false →
      decodeWord m = .ok (.phInit rd a b) := by
    intro m f0 f1 f2 f3 f4 f5 f6 f7 f8
    simp [decodeWord, f0, f1, f2, f3, f4, f5, f6, f7, f8, decodePhaser, orderAt, scopeAt, kField, ringCount]
  exact of_pack hw hb rfl rfl rfl fun _ => key _ (read hb 1) (xAt_of (read hb 2)) (xAt_of (read hb 3)) (xAt_of (read hb 4)) (read hb 5) (readSpan hb 6 2) (read hb 7) (read hb 6) (bitAt_false (read hb 7))

theorem Encoding.phReg (rd a : XReg) (m' : RegMode) : Statement (.phReg rd a m') := by
  have hw : wordR 0x1B (1 + 16 * m'.code) rd a 0 =
      pack [(1, 1), (6, 27), (6, rd.val), (6, a.val), (6, 0), (4, 1), (2, m'.code), (1, 0)] := by simp only [wordR, wordV, wordA, wordE, wordM, word, core_code, Bool.toNat_true, Bool.toNat_false, pack]; omega
  have hb : Bounded [(1, 1), (6, 27), (6, rd.val), (6, a.val), (6, 0), (4, 1), (2, m'.code), (1, 0)] :=
    ⟨by decide, by decide, rd.isLt, a.isLt, by decide, by decide, RegMode.code_lt m', by decide, trivial⟩
  have key : ∀ m, bits m 1 6 = 27 →
      xAt m 7 = rd →
      xAt m 13 = a →
      xAt m 19 = 0 →
      bits m 25 4 = 1 →
      bits m 29 3 = m'.code →
      bits m 19 6 = 0 →
      bits m 31 1 = 0 →
      bits m 29 2 = m'.code →
      bitAt m 31 = false →
      decodeWord m = .ok (.phReg rd a m') := by
    intro m f0 f1 f2 f3 f4 f5 f6 f7 f8 f9
    simp [decodeWord, f0, f1, f2, f3, f4, f5, f6, f7, f8, f9, decodePhaser, orderAt, scopeAt, kField, ringCount]
  exact of_pack hw hb rfl rfl rfl fun _ => key _ (read hb 1) (xAt_of (read hb 2)) (xAt_of (read hb 3)) (xAt_of (read hb 4)) (read hb 5) (readSpan hb 6 2) (read hb 4) (read hb 7) (read hb 6) (bitAt_false (read hb 7))

theorem Encoding.phDrop (rd a : XReg) (m' : RegMode) : Statement (.phDrop rd a m') := by
  have hw : wordR 0x1B (2 + 16 * m'.code) rd a 0 =
      pack [(1, 1), (6, 27), (6, rd.val), (6, a.val), (6, 0), (4, 2), (2, m'.code), (1, 0)] := by simp only [wordR, wordV, wordA, wordE, wordM, word, core_code, Bool.toNat_true, Bool.toNat_false, pack]; omega
  have hb : Bounded [(1, 1), (6, 27), (6, rd.val), (6, a.val), (6, 0), (4, 2), (2, m'.code), (1, 0)] :=
    ⟨by decide, by decide, rd.isLt, a.isLt, by decide, by decide, RegMode.code_lt m', by decide, trivial⟩
  have key : ∀ m, bits m 1 6 = 27 →
      xAt m 7 = rd →
      xAt m 13 = a →
      xAt m 19 = 0 →
      bits m 25 4 = 2 →
      bits m 29 3 = m'.code →
      bits m 19 6 = 0 →
      bits m 31 1 = 0 →
      bits m 29 2 = m'.code →
      bitAt m 31 = false →
      decodeWord m = .ok (.phDrop rd a m') := by
    intro m f0 f1 f2 f3 f4 f5 f6 f7 f8 f9
    simp [decodeWord, f0, f1, f2, f3, f4, f5, f6, f7, f8, f9, decodePhaser, orderAt, scopeAt, kField, ringCount]
  exact of_pack hw hb rfl rfl rfl fun _ => key _ (read hb 1) (xAt_of (read hb 2)) (xAt_of (read hb 3)) (xAt_of (read hb 4)) (read hb 5) (readSpan hb 6 2) (read hb 4) (read hb 7) (read hb 6) (bitAt_false (read hb 7))

theorem Encoding.phArr (rd a : XReg) : Statement (.phArr rd a) := by
  have hw : wordR 0x1B 3 rd a 0 =
      pack [(1, 1), (6, 27), (6, rd.val), (6, a.val), (6, 0), (4, 3), (2, 0), (1, 0)] := by simp only [wordR, wordV, wordA, wordE, wordM, word, core_code, Bool.toNat_true, Bool.toNat_false, pack]; omega
  have hb : Bounded [(1, 1), (6, 27), (6, rd.val), (6, a.val), (6, 0), (4, 3), (2, 0), (1, 0)] :=
    ⟨by decide, by decide, rd.isLt, a.isLt, by decide, by decide, by decide, by decide, trivial⟩
  have key : ∀ m, bits m 1 6 = 27 →
      xAt m 7 = rd →
      xAt m 13 = a →
      xAt m 19 = 0 →
      bits m 25 4 = 3 →
      bits m 29 3 = 0 →
      bits m 19 6 = 0 →
      bits m 31 1 = 0 →
      bits m 29 2 = 0 →
      bitAt m 31 = false →
      decodeWord m = .ok (.phArr rd a) := by
    intro m f0 f1 f2 f3 f4 f5 f6 f7 f8 f9
    simp [decodeWord, f0, f1, f2, f3, f4, f5, f6, f7, f8, f9, decodePhaser, orderAt, scopeAt, kField, ringCount]
  exact of_pack hw hb rfl rfl rfl fun _ => key _ (read hb 1) (xAt_of (read hb 2)) (xAt_of (read hb 3)) (xAt_of (read hb 4)) (read hb 5) (readSpan hb 6 2) (read hb 4) (read hb 7) (read hb 6) (bitAt_false (read hb 7))

theorem Encoding.phWait (rd a b : XReg) (st : Bool) : Statement (.phWait rd a b st) := by
  have hw : wordR 0x1B (4 + 64 * st.toNat) rd a b =
      pack [(1, 1), (6, 27), (6, rd.val), (6, a.val), (6, b.val), (4, 4), (2, 0), (1, st.toNat)] := by simp only [wordR, wordV, wordA, wordE, wordM, word, core_code, Bool.toNat_true, Bool.toNat_false, pack]; omega
  have hb : Bounded [(1, 1), (6, 27), (6, rd.val), (6, a.val), (6, b.val), (4, 4), (2, 0), (1, st.toNat)] :=
    ⟨by decide, by decide, rd.isLt, a.isLt, b.isLt, by decide, by decide, Bool.toNat_lt st, trivial⟩
  have key : ∀ m, bits m 1 6 = 27 →
      xAt m 7 = rd →
      xAt m 13 = a →
      xAt m 19 = b →
      bits m 25 4 = 4 →
      bits m 31 1 = st.toNat →
      bits m 29 2 = 0 →
      bitAt m 31 = st →
      decodeWord m = .ok (.phWait rd a b st) := by
    intro m f0 f1 f2 f3 f4 f5 f6 f7
    simp [decodeWord, f0, f1, f2, f3, f4, f5, f6, f7, decodePhaser, orderAt, scopeAt, kField, ringCount]
  exact of_pack hw hb rfl rfl rfl fun _ => key _ (read hb 1) (xAt_of (read hb 2)) (xAt_of (read hb 3)) (xAt_of (read hb 4)) (read hb 5) (read hb 7) (read hb 6) (bitAt_bool (read hb 7))

theorem Encoding.phTest (rd a b : XReg) : Statement (.phTest rd a b) := by
  have hw : wordR 0x1B 5 rd a b =
      pack [(1, 1), (6, 27), (6, rd.val), (6, a.val), (6, b.val), (4, 5), (2, 0), (1, 0)] := by simp only [wordR, wordV, wordA, wordE, wordM, word, core_code, Bool.toNat_true, Bool.toNat_false, pack]; omega
  have hb : Bounded [(1, 1), (6, 27), (6, rd.val), (6, a.val), (6, b.val), (4, 5), (2, 0), (1, 0)] :=
    ⟨by decide, by decide, rd.isLt, a.isLt, b.isLt, by decide, by decide, by decide, trivial⟩
  have key : ∀ m, bits m 1 6 = 27 →
      xAt m 7 = rd →
      xAt m 13 = a →
      xAt m 19 = b →
      bits m 25 4 = 5 →
      bits m 29 3 = 0 →
      bits m 31 1 = 0 →
      bits m 29 2 = 0 →
      bitAt m 31 = false →
      decodeWord m = .ok (.phTest rd a b) := by
    intro m f0 f1 f2 f3 f4 f5 f6 f7 f8
    simp [decodeWord, f0, f1, f2, f3, f4, f5, f6, f7, f8, decodePhaser, orderAt, scopeAt, kField, ringCount]
  exact of_pack hw hb rfl rfl rfl fun _ => key _ (read hb 1) (xAt_of (read hb 2)) (xAt_of (read hb 3)) (xAt_of (read hb 4)) (read hb 5) (readSpan hb 6 2) (read hb 7) (read hb 6) (bitAt_false (read hb 7))

theorem Encoding.phExp (a b : XReg) : Statement (.phExp a b) := by
  have hw : wordR 0x1B 6 0 a b =
      pack [(1, 1), (6, 27), (6, 0), (6, a.val), (6, b.val), (4, 6), (2, 0), (1, 0)] := by simp only [wordR, wordV, wordA, wordE, wordM, word, core_code, Bool.toNat_true, Bool.toNat_false, pack]; omega
  have hb : Bounded [(1, 1), (6, 27), (6, 0), (6, a.val), (6, b.val), (4, 6), (2, 0), (1, 0)] :=
    ⟨by decide, by decide, by decide, a.isLt, b.isLt, by decide, by decide, by decide, trivial⟩
  have key : ∀ m, bits m 1 6 = 27 →
      xAt m 7 = 0 →
      xAt m 13 = a →
      xAt m 19 = b →
      bits m 25 4 = 6 →
      bits m 29 3 = 0 →
      bits m 31 1 = 0 →
      bits m 29 2 = 0 →
      bitAt m 31 = false →
      bits m 7 6 = 0 →
      decodeWord m = .ok (.phExp a b) := by
    intro m f0 f1 f2 f3 f4 f5 f6 f7 f8 f9
    simp [decodeWord, f0, f1, f2, f3, f4, f5, f6, f7, f8, f9, decodePhaser, orderAt, scopeAt, kField, ringCount]
  exact of_pack hw hb rfl rfl rfl fun _ => key _ (read hb 1) (xAt_of (read hb 2)) (xAt_of (read hb 3)) (xAt_of (read hb 4)) (read hb 5) (readSpan hb 6 2) (read hb 7) (read hb 6) (bitAt_false (read hb 7)) (read hb 2)

theorem Encoding.phStat (rd a : XReg) : Statement (.phStat rd a) := by
  have hw : wordR 0x1B 7 rd a 0 =
      pack [(1, 1), (6, 27), (6, rd.val), (6, a.val), (6, 0), (4, 7), (2, 0), (1, 0)] := by simp only [wordR, wordV, wordA, wordE, wordM, word, core_code, Bool.toNat_true, Bool.toNat_false, pack]; omega
  have hb : Bounded [(1, 1), (6, 27), (6, rd.val), (6, a.val), (6, 0), (4, 7), (2, 0), (1, 0)] :=
    ⟨by decide, by decide, rd.isLt, a.isLt, by decide, by decide, by decide, by decide, trivial⟩
  have key : ∀ m, bits m 1 6 = 27 →
      xAt m 7 = rd →
      xAt m 13 = a →
      xAt m 19 = 0 →
      bits m 25 4 = 7 →
      bits m 29 3 = 0 →
      bits m 19 6 = 0 →
      bits m 31 1 = 0 →
      bits m 29 2 = 0 →
      bitAt m 31 = false →
      decodeWord m = .ok (.phStat rd a) := by
    intro m f0 f1 f2 f3 f4 f5 f6 f7 f8 f9
    simp [decodeWord, f0, f1, f2, f3, f4, f5, f6, f7, f8, f9, decodePhaser, orderAt, scopeAt, kField, ringCount]
  exact of_pack hw hb rfl rfl rfl fun _ => key _ (read hb 1) (xAt_of (read hb 2)) (xAt_of (read hb 3)) (xAt_of (read hb 4)) (read hb 5) (readSpan hb 6 2) (read hb 4) (read hb 7) (read hb 6) (bitAt_false (read hb 7))

theorem Encoding.bar (kind : BarKind) (rd : XReg) : Statement (.bar kind rd) := by
  have hw : word 0x1C [(7, rd), (19, kind.code)] =
      pack [(1, 1), (6, 28), (6, rd.val), (6, 0), (2, kind.code), (11, 0)] := by simp only [wordR, wordV, wordA, wordE, wordM, word, core_code, Bool.toNat_true, Bool.toNat_false, pack]; omega
  have hb : Bounded [(1, 1), (6, 28), (6, rd.val), (6, 0), (2, kind.code), (11, 0)] :=
    ⟨by decide, by decide, rd.isLt, by decide, BarKind.code_lt kind, by decide, trivial⟩
  have key : ∀ m, bits m 1 6 = 28 →
      bits m 13 6 = 0 →
      bits m 21 11 = 0 →
      bits m 19 2 = kind.code →
      xAt m 7 = rd →
      decodeWord m = .ok (.bar kind rd) := by
    intro m f0 f1 f2 f3 f4
    simp [decodeWord, f0, f1, f2, f3, f4, decodeBar, orderAt, scopeAt, kField, ringCount]
  exact of_pack hw hb rfl rfl rfl fun _ => key _ (read hb 1) (read hb 3) (read hb 5) (read hb 4) (xAt_of (read hb 2))

theorem Encoding.spawn (rd a : XReg) : Statement (.spawn rd a) := by
  have hw : wordR 0x1D 0 rd a 0 =
      pack [(1, 1), (6, 29), (6, rd.val), (6, a.val), (6, 0), (4, 0), (2, 0), (1, 0)] := by simp only [wordR, wordV, wordA, wordE, wordM, word, core_code, Bool.toNat_true, Bool.toNat_false, pack]; omega
  have hb : Bounded [(1, 1), (6, 29), (6, rd.val), (6, a.val), (6, 0), (4, 0), (2, 0), (1, 0)] :=
    ⟨by decide, by decide, rd.isLt, a.isLt, by decide, by decide, by decide, by decide, trivial⟩
  have key : ∀ m, bits m 1 6 = 29 →
      xAt m 7 = rd →
      xAt m 13 = a →
      xAt m 19 = 0 →
      bits m 25 4 = 0 →
      bits m 19 6 = 0 →
      bits m 29 3 = 0 →
      bits m 29 2 = 0 →
      bitAt m 31 = false →
      bits m 31 1 = 0 →
      decodeWord m = .ok (.spawn rd a) := by
    intro m f0 f1 f2 f3 f4 f5 f6 f7 f8 f9
    simp [decodeWord, f0, f1, f2, f3, f4, f5, f6, f7, f8, f9, decodeUnit, orderAt, scopeAt, kField, ringCount]
  exact of_pack hw hb rfl rfl rfl fun _ => key _ (read hb 1) (xAt_of (read hb 2)) (xAt_of (read hb 3)) (xAt_of (read hb 4)) (read hb 5) (read hb 4) (readSpan hb 6 2) (read hb 6) (bitAt_false (read hb 7)) (read hb 7)

theorem Encoding.start (rd a b : XReg) : Statement (.start rd a b) := by
  have hw : wordR 0x1D 1 rd a b =
      pack [(1, 1), (6, 29), (6, rd.val), (6, a.val), (6, b.val), (4, 1), (2, 0), (1, 0)] := by simp only [wordR, wordV, wordA, wordE, wordM, word, core_code, Bool.toNat_true, Bool.toNat_false, pack]; omega
  have hb : Bounded [(1, 1), (6, 29), (6, rd.val), (6, a.val), (6, b.val), (4, 1), (2, 0), (1, 0)] :=
    ⟨by decide, by decide, rd.isLt, a.isLt, b.isLt, by decide, by decide, by decide, trivial⟩
  have key : ∀ m, bits m 1 6 = 29 →
      xAt m 7 = rd →
      xAt m 13 = a →
      xAt m 19 = b →
      bits m 25 4 = 1 →
      bits m 29 3 = 0 →
      bits m 29 2 = 0 →
      bitAt m 31 = false →
      bits m 31 1 = 0 →
      decodeWord m = .ok (.start rd a b) := by
    intro m f0 f1 f2 f3 f4 f5 f6 f7 f8
    simp [decodeWord, f0, f1, f2, f3, f4, f5, f6, f7, f8, decodeUnit, orderAt, scopeAt, kField, ringCount]
  exact of_pack hw hb rfl rfl rfl fun _ => key _ (read hb 1) (xAt_of (read hb 2)) (xAt_of (read hb 3)) (xAt_of (read hb 4)) (read hb 5) (readSpan hb 6 2) (read hb 6) (bitAt_false (read hb 7)) (read hb 7)

theorem Encoding.susp (a : XReg) : Statement (.susp a) := by
  have hw : wordR 0x1D 2 0 a 0 =
      pack [(1, 1), (6, 29), (6, 0), (6, a.val), (6, 0), (4, 2), (2, 0), (1, 0)] := by simp only [wordR, wordV, wordA, wordE, wordM, word, core_code, Bool.toNat_true, Bool.toNat_false, pack]; omega
  have hb : Bounded [(1, 1), (6, 29), (6, 0), (6, a.val), (6, 0), (4, 2), (2, 0), (1, 0)] :=
    ⟨by decide, by decide, by decide, a.isLt, by decide, by decide, by decide, by decide, trivial⟩
  have key : ∀ m, bits m 1 6 = 29 →
      xAt m 7 = 0 →
      xAt m 13 = a →
      xAt m 19 = 0 →
      bits m 25 4 = 2 →
      bits m 19 6 = 0 →
      bits m 29 3 = 0 →
      bits m 7 6 = 0 →
      bits m 29 2 = 0 →
      bitAt m 31 = false →
      bits m 31 1 = 0 →
      decodeWord m = .ok (.susp a) := by
    intro m f0 f1 f2 f3 f4 f5 f6 f7 f8 f9 f10
    simp [decodeWord, f0, f1, f2, f3, f4, f5, f6, f7, f8, f9, f10, decodeUnit, orderAt, scopeAt, kField, ringCount]
  exact of_pack hw hb rfl rfl rfl fun _ => key _ (read hb 1) (xAt_of (read hb 2)) (xAt_of (read hb 3)) (xAt_of (read hb 4)) (read hb 5) (read hb 4) (readSpan hb 6 2) (read hb 2) (read hb 6) (bitAt_false (read hb 7)) (read hb 7)

theorem Encoding.done (a : XReg) : Statement (.done a) := by
  have hw : wordR 0x1D 3 0 a 0 =
      pack [(1, 1), (6, 29), (6, 0), (6, a.val), (6, 0), (4, 3), (2, 0), (1, 0)] := by simp only [wordR, wordV, wordA, wordE, wordM, word, core_code, Bool.toNat_true, Bool.toNat_false, pack]; omega
  have hb : Bounded [(1, 1), (6, 29), (6, 0), (6, a.val), (6, 0), (4, 3), (2, 0), (1, 0)] :=
    ⟨by decide, by decide, by decide, a.isLt, by decide, by decide, by decide, by decide, trivial⟩
  have key : ∀ m, bits m 1 6 = 29 →
      xAt m 7 = 0 →
      xAt m 13 = a →
      xAt m 19 = 0 →
      bits m 25 4 = 3 →
      bits m 19 6 = 0 →
      bits m 29 3 = 0 →
      bits m 7 6 = 0 →
      bits m 29 2 = 0 →
      bitAt m 31 = false →
      bits m 31 1 = 0 →
      decodeWord m = .ok (.done a) := by
    intro m f0 f1 f2 f3 f4 f5 f6 f7 f8 f9 f10
    simp [decodeWord, f0, f1, f2, f3, f4, f5, f6, f7, f8, f9, f10, decodeUnit, orderAt, scopeAt, kField, ringCount]
  exact of_pack hw hb rfl rfl rfl fun _ => key _ (read hb 1) (xAt_of (read hb 2)) (xAt_of (read hb 3)) (xAt_of (read hb 4)) (read hb 5) (read hb 4) (readSpan hb 6 2) (read hb 2) (read hb 6) (bitAt_false (read hb 7)) (read hb 7)

theorem Encoding.joindec (a : XReg) : Statement (.joindec a) := by
  have hw : wordR 0x1D 4 0 a 0 =
      pack [(1, 1), (6, 29), (6, 0), (6, a.val), (6, 0), (4, 4), (2, 0), (1, 0)] := by simp only [wordR, wordV, wordA, wordE, wordM, word, core_code, Bool.toNat_true, Bool.toNat_false, pack]; omega
  have hb : Bounded [(1, 1), (6, 29), (6, 0), (6, a.val), (6, 0), (4, 4), (2, 0), (1, 0)] :=
    ⟨by decide, by decide, by decide, a.isLt, by decide, by decide, by decide, by decide, trivial⟩
  have key : ∀ m, bits m 1 6 = 29 →
      xAt m 7 = 0 →
      xAt m 13 = a →
      xAt m 19 = 0 →
      bits m 25 4 = 4 →
      bits m 19 6 = 0 →
      bits m 29 3 = 0 →
      bits m 7 6 = 0 →
      bits m 29 2 = 0 →
      bitAt m 31 = false →
      bits m 31 1 = 0 →
      decodeWord m = .ok (.joindec a) := by
    intro m f0 f1 f2 f3 f4 f5 f6 f7 f8 f9 f10
    simp [decodeWord, f0, f1, f2, f3, f4, f5, f6, f7, f8, f9, f10, decodeUnit, orderAt, scopeAt, kField, ringCount]
  exact of_pack hw hb rfl rfl rfl fun _ => key _ (read hb 1) (xAt_of (read hb 2)) (xAt_of (read hb 3)) (xAt_of (read hb 4)) (read hb 5) (read hb 4) (readSpan hb 6 2) (read hb 2) (read hb 6) (bitAt_false (read hb 7)) (read hb 7)

theorem Encoding.yield : Statement (.yield) := by
  have hw : wordR 0x1D 5 0 0 0 =
      pack [(1, 1), (6, 29), (6, 0), (6, 0), (6, 0), (4, 5), (2, 0), (1, 0)] := by simp only [wordR, wordV, wordA, wordE, wordM, word, core_code, Bool.toNat_true, Bool.toNat_false, pack]; omega
  have hb : Bounded [(1, 1), (6, 29), (6, 0), (6, 0), (6, 0), (4, 5), (2, 0), (1, 0)] :=
    ⟨by decide, by decide, by decide, by decide, by decide, by decide, by decide, by decide, trivial⟩
  have key : ∀ m, bits m 1 6 = 29 →
      xAt m 7 = 0 →
      xAt m 13 = 0 →
      xAt m 19 = 0 →
      bits m 25 4 = 5 →
      bits m 19 6 = 0 →
      bits m 29 3 = 0 →
      bits m 7 6 = 0 →
      bits m 7 18 = 0 →
      bits m 29 2 = 0 →
      bitAt m 31 = false →
      bits m 31 1 = 0 →
      decodeWord m = .ok (.yield) := by
    intro m f0 f1 f2 f3 f4 f5 f6 f7 f8 f9 f10 f11
    simp [decodeWord, f0, f1, f2, f3, f4, f5, f6, f7, f8, f9, f10, f11, decodeUnit, orderAt, scopeAt, kField, ringCount]
  exact of_pack hw hb rfl rfl rfl fun _ => key _ (read hb 1) (xAt_of (read hb 2)) (xAt_of (read hb 3)) (xAt_of (read hb 4)) (read hb 5) (read hb 4) (readSpan hb 6 2) (read hb 2) (readSpan hb 2 3) (read hb 6) (bitAt_false (read hb 7)) (read hb 7)

theorem Encoding.cancel (a : XReg) (l : Level) (hard : Bool) : Statement (.cancel a l hard) := by
  have hw : wordR 0x1D (6 + 16 * l.code + 64 * hard.toNat) 0 a 0 =
      pack [(1, 1), (6, 29), (6, 0), (6, a.val), (6, 0), (4, 6), (2, l.code), (1, hard.toNat)] := by simp only [wordR, wordV, wordA, wordE, wordM, word, core_code, Bool.toNat_true, Bool.toNat_false, pack]; omega
  have hb : Bounded [(1, 1), (6, 29), (6, 0), (6, a.val), (6, 0), (4, 6), (2, l.code), (1, hard.toNat)] :=
    ⟨by decide, by decide, by decide, a.isLt, by decide, by decide, Level.code_lt l, Bool.toNat_lt hard, trivial⟩
  have key : ∀ m, bits m 1 6 = 29 →
      xAt m 7 = 0 →
      xAt m 13 = a →
      xAt m 19 = 0 →
      bits m 25 4 = 6 →
      bits m 19 6 = 0 →
      bits m 7 6 = 0 →
      bits m 29 2 = l.code →
      bitAt m 31 = hard →
      bits m 31 1 = hard.toNat →
      decodeWord m = .ok (.cancel a l hard) := by
    intro m f0 f1 f2 f3 f4 f5 f6 f7 f8 f9
    simp [decodeWord, f0, f1, f2, f3, f4, f5, f6, f7, f8, f9, decodeUnit, orderAt, scopeAt, kField, ringCount]
  exact of_pack hw hb rfl rfl rfl fun _ => key _ (read hb 1) (xAt_of (read hb 2)) (xAt_of (read hb 3)) (xAt_of (read hb 4)) (read hb 5) (read hb 4) (read hb 2) (read hb 6) (bitAt_bool (read hb 7)) (read hb 7)

theorem Encoding.ctrrd (rd a : XReg) (l : Level) : Statement (.ctrrd rd a l) := by
  have hw : wordR 0x1D (7 + 16 * l.code) rd a 0 =
      pack [(1, 1), (6, 29), (6, rd.val), (6, a.val), (6, 0), (4, 7), (2, l.code), (1, 0)] := by simp only [wordR, wordV, wordA, wordE, wordM, word, core_code, Bool.toNat_true, Bool.toNat_false, pack]; omega
  have hb : Bounded [(1, 1), (6, 29), (6, rd.val), (6, a.val), (6, 0), (4, 7), (2, l.code), (1, 0)] :=
    ⟨by decide, by decide, rd.isLt, a.isLt, by decide, by decide, Level.code_lt l, by decide, trivial⟩
  have key : ∀ m, bits m 1 6 = 29 →
      xAt m 7 = rd →
      xAt m 13 = a →
      xAt m 19 = 0 →
      bits m 25 4 = 7 →
      bits m 19 6 = 0 →
      bits m 29 3 = l.code →
      bits m 29 2 = l.code →
      bitAt m 31 = false →
      bits m 31 1 = 0 →
      decodeWord m = .ok (.ctrrd rd a l) := by
    intro m f0 f1 f2 f3 f4 f5 f6 f7 f8 f9
    simp [decodeWord, f0, f1, f2, f3, f4, f5, f6, f7, f8, f9, decodeUnit, orderAt, scopeAt, kField, ringCount]
  exact of_pack hw hb rfl rfl rfl fun _ => key _ (read hb 1) (xAt_of (read hb 2)) (xAt_of (read hb 3)) (xAt_of (read hb 4)) (read hb 5) (read hb 4) (readSpan hb 6 2) (read hb 6) (bitAt_false (read hb 7)) (read hb 7)

theorem Encoding.netOpen (rd a b : XReg) : Statement (.netOpen rd a b) := by
  have hw : wordR 0x1F 0 rd a b =
      pack [(1, 1), (6, 31), (6, rd.val), (6, a.val), (6, b.val), (7, 0)] := by simp only [wordR, wordV, wordA, wordE, wordM, word, core_code, Bool.toNat_true, Bool.toNat_false, pack]; omega
  have hb : Bounded [(1, 1), (6, 31), (6, rd.val), (6, a.val), (6, b.val), (7, 0)] :=
    ⟨by decide, by decide, rd.isLt, a.isLt, b.isLt, by decide, trivial⟩
  have key : ∀ m, bits m 1 6 = 31 →
      xAt m 7 = rd →
      xAt m 13 = a →
      bits m 25 7 = 0 →
      xAt m 19 = b →
      decodeWord m = .ok (.netOpen rd a b) := by
    intro m f0 f1 f2 f3 f4
    simp [decodeWord, f0, f1, f2, f3, f4, decodeNet, orderAt, scopeAt, kField, ringCount]
  exact of_pack hw hb rfl rfl rfl fun _ => key _ (read hb 1) (xAt_of (read hb 2)) (xAt_of (read hb 3)) (read hb 5) (xAt_of (read hb 4))

theorem Encoding.netKeep (rd a : XReg) : Statement (.netKeep rd a) := by
  have hw : wordR 0x1F 1 rd a 0 =
      pack [(1, 1), (6, 31), (6, rd.val), (6, a.val), (6, 0), (7, 1)] := by simp only [wordR, wordV, wordA, wordE, wordM, word, core_code, Bool.toNat_true, Bool.toNat_false, pack]; omega
  have hb : Bounded [(1, 1), (6, 31), (6, rd.val), (6, a.val), (6, 0), (7, 1)] :=
    ⟨by decide, by decide, rd.isLt, a.isLt, by decide, by decide, trivial⟩
  have key : ∀ m, bits m 1 6 = 31 →
      xAt m 7 = rd →
      xAt m 13 = a →
      bits m 25 7 = 1 →
      xAt m 19 = 0 →
      bits m 19 6 = 0 →
      decodeWord m = .ok (.netKeep rd a) := by
    intro m f0 f1 f2 f3 f4 f5
    simp [decodeWord, f0, f1, f2, f3, f4, f5, decodeNet, orderAt, scopeAt, kField, ringCount]
  exact of_pack hw hb rfl rfl rfl fun _ => key _ (read hb 1) (xAt_of (read hb 2)) (xAt_of (read hb 3)) (read hb 5) (xAt_of (read hb 4)) (read hb 4)

theorem Encoding.netDrop (rd a b : XReg) : Statement (.netDrop rd a b) := by
  have hw : wordR 0x1F 2 rd a b =
      pack [(1, 1), (6, 31), (6, rd.val), (6, a.val), (6, b.val), (7, 2)] := by simp only [wordR, wordV, wordA, wordE, wordM, word, core_code, Bool.toNat_true, Bool.toNat_false, pack]; omega
  have hb : Bounded [(1, 1), (6, 31), (6, rd.val), (6, a.val), (6, b.val), (7, 2)] :=
    ⟨by decide, by decide, rd.isLt, a.isLt, b.isLt, by decide, trivial⟩
  have key : ∀ m, bits m 1 6 = 31 →
      xAt m 7 = rd →
      xAt m 13 = a →
      bits m 25 7 = 2 →
      xAt m 19 = b →
      decodeWord m = .ok (.netDrop rd a b) := by
    intro m f0 f1 f2 f3 f4
    simp [decodeWord, f0, f1, f2, f3, f4, decodeNet, orderAt, scopeAt, kField, ringCount]
  exact of_pack hw hb rfl rfl rfl fun _ => key _ (read hb 1) (xAt_of (read hb 2)) (xAt_of (read hb 3)) (read hb 5) (xAt_of (read hb 4))

theorem Encoding.netStat (rd a : XReg) : Statement (.netStat rd a) := by
  have hw : wordR 0x1F 3 rd a 0 =
      pack [(1, 1), (6, 31), (6, rd.val), (6, a.val), (6, 0), (7, 3)] := by simp only [wordR, wordV, wordA, wordE, wordM, word, core_code, Bool.toNat_true, Bool.toNat_false, pack]; omega
  have hb : Bounded [(1, 1), (6, 31), (6, rd.val), (6, a.val), (6, 0), (7, 3)] :=
    ⟨by decide, by decide, rd.isLt, a.isLt, by decide, by decide, trivial⟩
  have key : ∀ m, bits m 1 6 = 31 →
      xAt m 7 = rd →
      xAt m 13 = a →
      bits m 25 7 = 3 →
      xAt m 19 = 0 →
      bits m 19 6 = 0 →
      decodeWord m = .ok (.netStat rd a) := by
    intro m f0 f1 f2 f3 f4 f5
    simp [decodeWord, f0, f1, f2, f3, f4, f5, decodeNet, orderAt, scopeAt, kField, ringCount]
  exact of_pack hw hb rfl rfl rfl fun _ => key _ (read hb 1) (xAt_of (read hb 2)) (xAt_of (read hb 3)) (read hb 5) (xAt_of (read hb 4)) (read hb 4)

theorem Encoding.bharv (a : XReg) : Statement (.bharv a) := by
  have hw : wordR 0x21 0 0 a 0 =
      pack [(1, 1), (6, 33), (6, 0), (6, a.val), (6, 0), (7, 0)] := by simp only [wordR, wordV, wordA, wordE, wordM, word, core_code, Bool.toNat_true, Bool.toNat_false, pack]; omega
  have hb : Bounded [(1, 1), (6, 33), (6, 0), (6, a.val), (6, 0), (7, 0)] :=
    ⟨by decide, by decide, by decide, a.isLt, by decide, by decide, trivial⟩
  have key : ∀ m, bits m 1 6 = 33 →
      bits m 25 7 = 0 →
      bits m 7 6 = 0 →
      bits m 19 6 = 0 →
      xAt m 13 = a →
      xAt m 7 = 0 →
      decodeWord m = .ok (.bharv a) := by
    intro m f0 f1 f2 f3 f4 f5
    simp [decodeWord, f0, f1, f2, f3, f4, f5, decodeBrine, orderAt, scopeAt, kField, ringCount]
  exact of_pack hw hb rfl rfl rfl fun _ => key _ (read hb 1) (read hb 5) (read hb 2) (read hb 4) (xAt_of (read hb 3)) (xAt_of (read hb 2))

theorem Encoding.bquery (rd a : XReg) : Statement (.bquery rd a) := by
  have hw : wordR 0x21 1 rd a 0 =
      pack [(1, 1), (6, 33), (6, rd.val), (6, a.val), (6, 0), (7, 1)] := by simp only [wordR, wordV, wordA, wordE, wordM, word, core_code, Bool.toNat_true, Bool.toNat_false, pack]; omega
  have hb : Bounded [(1, 1), (6, 33), (6, rd.val), (6, a.val), (6, 0), (7, 1)] :=
    ⟨by decide, by decide, rd.isLt, a.isLt, by decide, by decide, trivial⟩
  have key : ∀ m, bits m 1 6 = 33 →
      bits m 25 7 = 1 →
      bits m 19 6 = 0 →
      xAt m 13 = a →
      xAt m 7 = rd →
      decodeWord m = .ok (.bquery rd a) := by
    intro m f0 f1 f2 f3 f4
    simp [decodeWord, f0, f1, f2, f3, f4, decodeBrine, orderAt, scopeAt, kField, ringCount]
  exact of_pack hw hb rfl rfl rfl fun _ => key _ (read hb 1) (read hb 5) (read hb 4) (xAt_of (read hb 3)) (xAt_of (read hb 2))

theorem Encoding.axrBegin (id : Fin 64) (stop : BitVec 12) : Statement (.axrBegin id stop) := by
  have hw : word 0x20 [(7, stop.toNat), (19, 0), (22, id)] =
      pack [(1, 1), (6, 32), (12, stop.toNat), (3, 0), (6, id.val), (4, 0)] := by simp only [wordR, wordV, wordA, wordE, wordM, word, core_code, Bool.toNat_true, Bool.toNat_false, pack]; omega
  have hb : Bounded [(1, 1), (6, 32), (12, stop.toNat), (3, 0), (6, id.val), (4, 0)] :=
    ⟨by decide, by decide, stop.isLt, by decide, id.isLt, by decide, trivial⟩
  have key : Instr.wf (.axrBegin id stop) = true → ∀ m, bits m 1 6 = 32 →
      xAt m 22 = id →
      bits m 28 4 = 0 →
      bits m 19 3 = 0 →
      bits m 7 12 = stop.toNat →
      immAt m 7 12 = stop →
      decodeWord m = .ok (.axrBegin id stop) := by
    intro hwf m f0 f1 f2 f3 f4 f5
    simp only [Instr.wf] at hwf
    clear hb hw
    simp_all [decodeWord, decodeAxr, orderAt, scopeAt, kField, ringCount]
  exact of_pack hw hb rfl rfl rfl fun h => key h _ (read hb 1) (xAt_of (read hb 4)) (read hb 5) (read hb 3) (read hb 2) (immAt_of (read hb 2))

theorem Encoding.axrEnd (id : Fin 64) : Statement (.axrEnd id) := by
  have hw : word 0x20 [(19, 1), (22, id)] =
      pack [(1, 1), (6, 32), (6, 0), (6, 0), (3, 1), (6, id.val), (4, 0)] := by simp only [wordR, wordV, wordA, wordE, wordM, word, core_code, Bool.toNat_true, Bool.toNat_false, pack]; omega
  have hb : Bounded [(1, 1), (6, 32), (6, 0), (6, 0), (3, 1), (6, id.val), (4, 0)] :=
    ⟨by decide, by decide, by decide, by decide, by decide, id.isLt, by decide, trivial⟩
  have key : ∀ m, bits m 1 6 = 32 →
      xAt m 22 = id →
      bits m 28 4 = 0 →
      bits m 19 3 = 1 →
      bits m 7 12 = 0 →
      xAt m 7 = 0 →
      xAt m 13 = 0 →
      bits m 13 6 = 0 →
      decodeWord m = .ok (.axrEnd id) := by
    intro m f0 f1 f2 f3 f4 f5 f6 f7
    simp [decodeWord, f0, f1, f2, f3, f4, f5, f6, f7, decodeAxr, orderAt, scopeAt, kField, ringCount]
  exact of_pack hw hb rfl rfl rfl fun _ => key _ (read hb 1) (xAt_of (read hb 5)) (read hb 6) (read hb 4) (readSpan hb 2 2) (xAt_of (read hb 2)) (xAt_of (read hb 3)) (read hb 3)

theorem Encoding.axrCfg (rd : XReg) (id : Fin 64) (a : XReg) : Statement (.axrCfg rd id a) := by
  have hw : word 0x20 [(7, rd), (13, a), (19, 2), (22, id)] =
      pack [(1, 1), (6, 32), (6, rd.val), (6, a.val), (3, 2), (6, id.val), (4, 0)] := by simp only [wordR, wordV, wordA, wordE, wordM, word, core_code, Bool.toNat_true, Bool.toNat_false, pack]; omega
  have hb : Bounded [(1, 1), (6, 32), (6, rd.val), (6, a.val), (3, 2), (6, id.val), (4, 0)] :=
    ⟨by decide, by decide, rd.isLt, a.isLt, by decide, id.isLt, by decide, trivial⟩
  have key : ∀ m, bits m 1 6 = 32 →
      xAt m 22 = id →
      bits m 28 4 = 0 →
      bits m 19 3 = 2 →
      xAt m 7 = rd →
      xAt m 13 = a →
      decodeWord m = .ok (.axrCfg rd id a) := by
    intro m f0 f1 f2 f3 f4 f5
    simp [decodeWord, f0, f1, f2, f3, f4, f5, decodeAxr, orderAt, scopeAt, kField, ringCount]
  exact of_pack hw hb rfl rfl rfl fun _ => key _ (read hb 1) (xAt_of (read hb 5)) (read hb 6) (read hb 4) (xAt_of (read hb 2)) (xAt_of (read hb 3))

theorem Encoding.axrInval (id : Fin 64) : Statement (.axrInval id) := by
  have hw : word 0x20 [(19, 3), (22, id)] =
      pack [(1, 1), (6, 32), (6, 0), (6, 0), (3, 3), (6, id.val), (4, 0)] := by simp only [wordR, wordV, wordA, wordE, wordM, word, core_code, Bool.toNat_true, Bool.toNat_false, pack]; omega
  have hb : Bounded [(1, 1), (6, 32), (6, 0), (6, 0), (3, 3), (6, id.val), (4, 0)] :=
    ⟨by decide, by decide, by decide, by decide, by decide, id.isLt, by decide, trivial⟩
  have key : ∀ m, bits m 1 6 = 32 →
      xAt m 22 = id →
      bits m 28 4 = 0 →
      bits m 19 3 = 3 →
      bits m 7 12 = 0 →
      xAt m 7 = 0 →
      xAt m 13 = 0 →
      bits m 13 6 = 0 →
      decodeWord m = .ok (.axrInval id) := by
    intro m f0 f1 f2 f3 f4 f5 f6 f7
    simp [decodeWord, f0, f1, f2, f3, f4, f5, f6, f7, decodeAxr, orderAt, scopeAt, kField, ringCount]
  exact of_pack hw hb rfl rfl rfl fun _ => key _ (read hb 1) (xAt_of (read hb 5)) (read hb 6) (read hb 4) (readSpan hb 2 2) (xAt_of (read hb 2)) (xAt_of (read hb 3)) (read hb 3)

theorem Encoding.axrStat (rd : XReg) (id : Fin 64) : Statement (.axrStat rd id) := by
  have hw : word 0x20 [(7, rd), (19, 4), (22, id)] =
      pack [(1, 1), (6, 32), (6, rd.val), (6, 0), (3, 4), (6, id.val), (4, 0)] := by simp only [wordR, wordV, wordA, wordE, wordM, word, core_code, Bool.toNat_true, Bool.toNat_false, pack]; omega
  have hb : Bounded [(1, 1), (6, 32), (6, rd.val), (6, 0), (3, 4), (6, id.val), (4, 0)] :=
    ⟨by decide, by decide, rd.isLt, by decide, by decide, id.isLt, by decide, trivial⟩
  have key : ∀ m, bits m 1 6 = 32 →
      xAt m 22 = id →
      bits m 28 4 = 0 →
      bits m 19 3 = 4 →
      xAt m 7 = rd →
      xAt m 13 = 0 →
      bits m 13 6 = 0 →
      decodeWord m = .ok (.axrStat rd id) := by
    intro m f0 f1 f2 f3 f4 f5 f6
    simp [decodeWord, f0, f1, f2, f3, f4, f5, f6, decodeAxr, orderAt, scopeAt, kField, ringCount]
  exact of_pack hw hb rfl rfl rfl fun _ => key _ (read hb 1) (xAt_of (read hb 5)) (read hb 6) (read hb 4) (xAt_of (read hb 2)) (xAt_of (read hb 3)) (read hb 3)

theorem Encoding.footInsertion : Statement (.footInsertion) := fun _ _ h => by cases h

theorem Encoding.garner : Statement (.garner) := fun _ _ h => by cases h

theorem Encoding.sidingCompletion : Statement (.sidingCompletion) := fun _ _ h => by cases h

theorem Encoding.rejoin : Statement (.rejoin) := fun _ _ h => by cases h

theorem Encoding.perchEntry : Statement (.perchEntry) := fun _ _ h => by cases h

theorem Encoding.seal : Statement (.seal) := fun _ _ h => by cases h

theorem Encoding.panWrite : Statement (.panWrite) := fun _ _ h => by cases h

theorem Encoding.depositArrival : Statement (.depositArrival) := fun _ _ h => by cases h

theorem Encoding.answerArrival : Statement (.answerArrival) := fun _ _ h => by cases h

theorem Encoding.loadDataReturn : Statement (.loadDataReturn) := fun _ _ h => by cases h

theorem Encoding.weakStoreAccept : Statement (.weakStoreAccept) := fun _ _ h => by cases h

theorem Encoding.release : Statement (.release) := fun _ _ h => by cases h

theorem Encoding.cacheEviction : Statement (.cacheEviction) := fun _ _ h => by cases h

theorem Encoding.homeRequest : Statement (.homeRequest) := fun _ _ h => by cases h

theorem Encoding.dramRequestAging : Statement (.dramRequestAging) := fun _ _ h => by cases h

theorem Encoding.boothMessage : Statement (.boothMessage) := fun _ _ h => by cases h

theorem Encoding.writeCheck : Statement (.writeCheck) := fun _ _ h => by cases h

theorem Encoding.shadowProbe : Statement (.shadowProbe) := fun _ _ h => by cases h

theorem Encoding.niTranslation : Statement (.niTranslation) := fun _ _ h => by cases h

theorem Encoding.migRewalk : Statement (.migRewalk) := fun _ _ h => by cases h

theorem Encoding.portStagingTransfer : Statement (.portStagingTransfer) := fun _ _ h => by cases h

theorem Encoding.ringWatcherSatisfied : Statement (.ringWatcherSatisfied) := fun _ _ h => by cases h

theorem Encoding.cbwaitSuspendTimeout : Statement (.cbwaitSuspendTimeout) := fun _ _ h => by cases h

theorem Encoding.ringCopyPublish : Statement (.ringCopyPublish) := fun _ _ h => by cases h

theorem Encoding.brineGrantRequest : Statement (.brineGrantRequest) := fun _ _ h => by cases h

theorem Encoding.bupdApply : Statement (.bupdApply) := fun _ _ h => by cases h

theorem Encoding.holderRecall : Statement (.holderRecall) := fun _ _ h => by cases h

theorem Encoding.harvestMerge : Statement (.harvestMerge) := fun _ _ h => by cases h

theorem Encoding.brineDiscardComplete : Statement (.brineDiscardComplete) := fun _ _ h => by cases h

theorem Encoding.netDropHomeArrival : Statement (.netDropHomeArrival) := fun _ _ h => by cases h

theorem Encoding.netDropComplete : Statement (.netDropComplete) := fun _ _ h => by cases h

theorem Encoding.netOpenRecord : Statement (.netOpenRecord) := fun _ _ h => by cases h

theorem Encoding.fillPacket : Statement (.fillPacket) := fun _ _ h => by cases h

theorem Encoding.sampleArrival : Statement (.sampleArrival) := fun _ _ h => by cases h

theorem Encoding.batchValidationEnd : Statement (.batchValidationEnd) := fun _ _ h => by cases h

theorem Encoding.trainingStepEnd : Statement (.trainingStepEnd) := fun _ _ h => by cases h

theorem Encoding.launchTickStart : Statement (.launchTickStart) := fun _ _ h => by cases h

theorem Encoding.launchComplete : Statement (.launchComplete) := fun _ _ h => by cases h

theorem Encoding.treeReport : Statement (.treeReport) := fun _ _ h => by cases h

theorem Encoding.enqueue : Statement (.enqueue) := fun _ _ h => by cases h

theorem Encoding.autoPop : Statement (.autoPop) := fun _ _ h => by cases h

theorem Encoding.steal : Statement (.steal) := fun _ _ h => by cases h

theorem Encoding.phaserReservation : Statement (.phaserReservation) := fun _ _ h => by cases h

theorem Encoding.phaserWithdrawal : Statement (.phaserWithdrawal) := fun _ _ h => by cases h

theorem Encoding.phaserArrival : Statement (.phaserArrival) := fun _ _ h => by cases h

theorem Encoding.engineCompletion : Statement (.engineCompletion) := fun _ _ h => by cases h

theorem Encoding.barrierArrival : Statement (.barrierArrival) := fun _ _ h => by cases h

theorem Encoding.barrierTimeout : Statement (.barrierTimeout) := fun _ _ h => by cases h

theorem Encoding.superstepStop : Statement (.superstepStop) := fun _ _ h => by cases h

theorem Encoding.collArrival : Statement (.collArrival) := fun _ _ h => by cases h

theorem Encoding.collTimeout : Statement (.collTimeout) := fun _ _ h => by cases h

theorem Encoding.sluiceCallStart : Statement (.sluiceCallStart) := fun _ _ h => by cases h

theorem Encoding.wfeWake : Statement (.wfeWake) := fun _ _ h => by cases h

theorem Encoding.launchqSubmit : Statement (.launchqSubmit) := fun _ _ h => by cases h

theorem Encoding.launchqPreempt : Statement (.launchqPreempt) := fun _ _ h => by cases h

theorem Encoding.launchqResume : Statement (.launchqResume) := fun _ _ h => by cases h

theorem Encoding.launchqRebase : Statement (.launchqRebase) := fun _ _ h => by cases h

theorem Encoding.launchqUnknown : Statement (.launchqUnknown) := fun _ _ h => by cases h

theorem Encoding.preemptArrival : Statement (.preemptArrival) := fun _ _ h => by cases h

theorem Encoding.quiesce : Statement (.quiesce) := fun _ _ h => by cases h

theorem Encoding.fltresWrite : Statement (.fltresWrite) := fun _ _ h => by cases h

theorem Encoding.migctlGo : Statement (.migctlGo) := fun _ _ h => by cases h

theorem Encoding.migrationComplete : Statement (.migrationComplete) := fun _ _ h => by cases h

theorem Encoding.lendbanksWrite : Statement (.lendbanksWrite) := fun _ _ h => by cases h

theorem Encoding.netpslotsWrite : Statement (.netpslotsWrite) := fun _ _ h => by cases h

theorem Encoding.netpbaseWrite : Statement (.netpbaseWrite) := fun _ _ h => by cases h

theorem Encoding.mgmtownClaim : Statement (.mgmtownClaim) := fun _ _ h => by cases h

theorem Encoding.mgmtownOwner : Statement (.mgmtownOwner) := fun _ _ h => by cases h

theorem Encoding.hostLinkDown : Statement (.hostLinkDown) := fun _ _ h => by cases h

theorem Encoding.dierel : Statement (.dierel) := fun _ _ h => by cases h

theorem Encoding.coldReset : Statement (.coldReset) := fun _ _ h => by cases h

theorem Encoding.measurementExtend : Statement (.measurementExtend) := fun _ _ h => by cases h

theorem Encoding.attestationReport : Statement (.attestationReport) := fun _ _ h => by cases h

theorem Encoding.linkEnWrite : Statement (.linkEnWrite) := fun _ _ h => by cases h

theorem Encoding.linkStateChange : Statement (.linkStateChange) := fun _ _ h => by cases h

theorem Encoding.flitReceive : Statement (.flitReceive) := fun _ _ h => by cases h

theorem Encoding.flitNak : Statement (.flitNak) := fun _ _ h => by cases h

theorem Encoding.laneRetrain : Statement (.laneRetrain) := fun _ _ h => by cases h

theorem Encoding.cxlLinkChange : Statement (.cxlLinkChange) := fun _ _ h => by cases h

theorem Encoding.vmargWrite : Statement (.vmargWrite) := fun _ _ h => by cases h

theorem Encoding.railSettled : Statement (.railSettled) := fun _ _ h => by cases h

theorem Encoding.dramRefreshModeChange : Statement (.dramRefreshModeChange) := fun _ _ h => by cases h

theorem Encoding.clusterHotChange : Statement (.clusterHotChange) := fun _ _ h => by cases h

theorem Encoding.throttleChange : Statement (.throttleChange) := fun _ _ h => by cases h

theorem Encoding.registerWrite : Statement (.registerWrite) := fun _ _ h => by cases h

theorem Encoding.upHalf : Statement (.upHalf) := fun _ _ h => by cases h

theorem Encoding.downHalf : Statement (.downHalf) := fun _ _ h => by cases h

theorem Encoding.lazyReleaseReclaim : Statement (.lazyReleaseReclaim) := fun _ _ h => by cases h

theorem Encoding.lentBankReclaimDone : Statement (.lentBankReclaimDone) := fun _ _ h => by cases h

theorem Encoding.dramRefresh : Statement (.dramRefresh) := fun _ _ h => by cases h

theorem Encoding.wfeSpuriousCompletion : Statement (.wfeSpuriousCompletion) := fun _ _ h => by cases h
end Sys2Proof.Laws
end

