-- ==== Sys2Proof/Safety.lean ====
section
/-!
DEFINITION. What counts as a safe state and a safe run: memory in its canonical form, and steps that neither fault nor
refuse.
-/
namespace Sys2Proof

/-- The invariant every step keeps: memory stands in the one canonical form. -/
def SafeState (s : Machine.State) : Prop := Machine.Memory.wf s.mem = true

/-- A step that goes on. -/
def Continues (s : Machine.State) : Prop := ∃ t, Machine.step s = .next t

end Sys2Proof
end

