-- ==== Sys2Proof/Certificates/Slice0/Obligations.lean ====
section
/-!
DEFINITION. The statements for the provers, from the numbered rules of the manual.
A result statement is an equation: it gives the whole next state, so that what it does not name is unchanged.
-/

namespace Sys2Proof.Claims
open Sys2Proof Sys2Proof.Machine

/-! ## What the statements share -/

/-- No port of the running context is bound: every register is read and written by its name (R14). -/
def NoPort (s : State) : Prop := s.me.anyPort = false

/-- The next state in which the running context is `c`, sealed and gone on to its next instruction (R220, R239), and nothing else
of the machine differs from `s`. -/
def sealedAs (s : State) (c : Ctx) : Out := .next (s.setMe c.repNext)

/-- The instruction is taken whole in a step, and is no packet of the pipe: its checks and its effect are one (R28). What a packet
does of it before its seal, and at it, `PipeEnds` says. -/
def Whole (s : State) : Prop := s.run = none

/-- A sealed packet's effect is being performed; its checks have been made (R28). -/
def Performing (s : State) : Prop := ∃ r, s.run = some r ∧ r.stage = .effect

/-- The next state in which the running context has taken a trap (R351) and nothing else has happened; a packet of the pipe has only
noted the trap, which its seal takes (R28, R29). -/
def trapped (s : State) (cause : Nat) (value : Dword) : Out :=
  match s.run with
  | none => .next (s.takeTrap s.myKey cause s.me.pc value)
  | some r => .next { s with run := some { r with raised := some (.trap cause value) } }

/-- R6's `sign_extend` of the low 32 or all 64 bits, as R229 has it: `w` for the `.w` forms. -/
def sx (w : Bool) (a : Dword) : Int := if w then (a.setWidth 32).toInt else a.toInt
/-- R6's `zero_extend` of the low 32 or all 64 bits. -/
def zx (w : Bool) (a : Dword) : Int := if w then (a.setWidth 32).toNat else a.toNat
/-- `sign_extend(v[n-1:0])` of R229. -/
def fit (w : Bool) (v : Int) : Dword := if w then (BitVec.ofInt 32 v).signExtend 64 else BitVec.ofInt 64 v

/-! ## Major OP (R223, R224) -/

/-- The register an OP instruction writes, and its value by R223 and R224. -/
def opWrites : Instr → Ctx → Option (XReg × Dword)
  | .add rd rs1 rs2, c => some (rd, BitVec.ofNat 64 ((c.getX rs1).toNat + (c.getX rs2).toNat))
  | .sub rd rs1 rs2, c => some (rd, BitVec.ofInt 64 ((c.getX rs1).toInt - (c.getX rs2).toInt))
  | .and rd rs1 rs2, c => some (rd, c.getX rs1 &&& c.getX rs2)
  | .or rd rs1 rs2, c => some (rd, c.getX rs1 ||| c.getX rs2)
  | .xor rd rs1 rs2, c => some (rd, c.getX rs1 ^^^ c.getX rs2)
  | .andn rd rs1 rs2, c => some (rd, c.getX rs1 &&& ~~~(c.getX rs2))
  | .sll rd rs1 rs2, c => some (rd, BitVec.ofNat 64 ((c.getX rs1).toNat * 2 ^ ((c.getX rs2).toNat % 64)))
  | .srl rd rs1 rs2, c => some (rd, BitVec.ofNat 64 ((c.getX rs1).toNat / 2 ^ ((c.getX rs2).toNat % 64)))
  | .sra rd rs1 rs2, c => some (rd, BitVec.ofInt 64 ((c.getX rs1).toInt / 2 ^ ((c.getX rs2).toNat % 64)))
  | .slt rd rs1 rs2, c => some (rd, if (c.getX rs1).toInt < (c.getX rs2).toInt then 1#64 else 0#64)
  | .sltu rd rs1 rs2, c => some (rd, if (c.getX rs1).toNat < (c.getX rs2).toNat then 1#64 else 0#64)
  | .min rd rs1 rs2, c => some (rd, BitVec.ofInt 64 (min (c.getX rs1).toInt (c.getX rs2).toInt))
  | .max rd rs1 rs2, c => some (rd, BitVec.ofInt 64 (max (c.getX rs1).toInt (c.getX rs2).toInt))
  | .minu rd rs1 rs2, c => some (rd, BitVec.ofNat 64 (min (c.getX rs1).toNat (c.getX rs2).toNat))
  | .maxu rd rs1 rs2, c => some (rd, BitVec.ofNat 64 (max (c.getX rs1).toNat (c.getX rs2).toNat))
  | .sel rd rs1 rs2, c => some (rd, if c.getX rd ≠ 0#64 then c.getX rs1 else c.getX rs2)
  | .clz rd rs1, c =>
    some (rd, BitVec.ofNat 64 ((List.range 64).takeWhile fun i => !(c.getX rs1).getLsbD (63 - i)).length)
  | .ctz rd rs1, c =>
    some (rd, BitVec.ofNat 64 ((List.range 64).takeWhile fun i => !(c.getX rs1).getLsbD i).length)
  | .popc rd rs1, c => some (rd, BitVec.ofNat 64 ((List.range 64).countP fun i => (c.getX rs1).getLsbD i))
  | _, _ => none

/-! ## Majors OPI, LUI and ADDPC (R226, R227) -/

/-- The register an OPI, LUI or ADDPC writes, and its value. -/
def immWrites : Instr → Ctx → Option (XReg × Dword)
  | .addi rd rs1 imm, c => some (rd, BitVec.ofInt 64 ((c.getX rs1).toInt + imm.toInt))
  | .andi rd rs1 imm, c => some (rd, c.getX rs1 &&& BitVec.ofInt 64 imm.toInt)
  | .ori rd rs1 imm, c => some (rd, c.getX rs1 ||| BitVec.ofInt 64 imm.toInt)
  | .xori rd rs1 imm, c => some (rd, c.getX rs1 ^^^ BitVec.ofInt 64 imm.toInt)
  | .slti rd rs1 imm, c => some (rd, if (c.getX rs1).toInt < imm.toInt then 1#64 else 0#64)
  | .sltiu rd rs1 imm, c => some (rd, if (c.getX rs1).toNat < (BitVec.ofInt 64 imm.toInt).toNat then 1#64 else 0#64)
  | .slli rd rs1 n, c => some (rd, BitVec.ofNat 64 ((c.getX rs1).toNat * 2 ^ n.val))
  | .srli rd rs1 n, c => some (rd, BitVec.ofNat 64 ((c.getX rs1).toNat / 2 ^ n.val))
  | .srai rd rs1 n, c => some (rd, BitVec.ofInt 64 ((c.getX rs1).toInt / 2 ^ n.val))
  | .lui rd imm, _ => some (rd, BitVec.ofInt 64 (imm.toInt * 2 ^ 12))
  | .addpc rd imm, c => some (rd, c.pc + BitVec.ofInt 64 (imm.toInt * 2 ^ 12))
  | _, _ => none

/-! ## Major MULDIV (R229, R230) -/

/-- The register a multiply writes, and its value; or a divide by a divisor that is not zero, or with CTXCFG.DZQ set. -/
def mulWrites : Instr → Ctx → Option (XReg × Dword)
  | .mul rd rs1 rs2 w, c => some (rd, fit w (sx w (c.getX rs1) * sx w (c.getX rs2)))
  | .mulh rd rs1 rs2, c => some (rd, fit false (sx false (c.getX rs1) * sx false (c.getX rs2) / 2 ^ 64))
  | .mulhu rd rs1 rs2, c => some (rd, fit false (zx false (c.getX rs1) * zx false (c.getX rs2) / 2 ^ 64))
  | .div rd rs1 rs2 w, c =>
    if sx w (c.getX rs2) ≠ 0 then some (rd, fit w (Int.tdiv (sx w (c.getX rs1)) (sx w (c.getX rs2))))
    else if c.ctxcfg.getLsbD 0 then some (rd, -1#64) else none
  | .divu rd rs1 rs2 w, c =>
    if zx w (c.getX rs2) ≠ 0 then some (rd, fit w (zx w (c.getX rs1) / zx w (c.getX rs2)))
    else if c.ctxcfg.getLsbD 0 then some (rd, -1#64) else none
  | .rem rd rs1 rs2 w, c =>
    if sx w (c.getX rs2) ≠ 0 then
      some (rd, fit w (sx w (c.getX rs1) - sx w (c.getX rs2) * Int.tdiv (sx w (c.getX rs1)) (sx w (c.getX rs2))))
    else if c.ctxcfg.getLsbD 0 then some (rd, fit w (sx w (c.getX rs1))) else none
  | .remu rd rs1 rs2 w, c =>
    if zx w (c.getX rs2) ≠ 0 then
      some (rd, fit w (zx w (c.getX rs1) - zx w (c.getX rs2) * (zx w (c.getX rs1) / zx w (c.getX rs2))))
    else if c.ctxcfg.getLsbD 0 then some (rd, fit w (zx w (c.getX rs1))) else none
  | _, _ => none

/-- The dividend of a divide, and whether its divisor is zero. -/
def divides : Instr → Ctx → Option (Dword × Bool)
  | .div _ rs1 rs2 w, c | .rem _ rs1 rs2 w, c => some (c.getX rs1, sx w (c.getX rs2) == 0)
  | .divu _ rs1 rs2 w, c | .remu _ rs1 rs2 w, c => some (c.getX rs1, zx w (c.getX rs2) == 0)
  | _, _ => none

end Sys2Proof.Claims

open Sys2Proof Sys2Proof.Machine Sys2Proof.Claims

/-- R223, R224, R226, R227, R229, R230: with no port bound, an instruction of OP, OPI, LUI, ADDPC or MULDIV writes its table's value to
its destination (nothing where that is x0), and changes nothing else. With DZQ clear a zero divisor traps with cause 0x02 and
the dividend, and no register is written. -/
def Obligations.RegisterResults : Prop :=
  (∀ (i : Instr) (s : State) (rd : XReg) (v : Dword), NoPort s → opWrites i s.me = some (rd, v) →
     exec i s = sealedAs s (s.me.setX rd v)) ∧
  (∀ (i : Instr) (s : State) (rd : XReg) (v : Dword), NoPort s → immWrites i s.me = some (rd, v) →
     exec i s = sealedAs s (s.me.setX rd v)) ∧
  (∀ (i : Instr) (s : State) (rd : XReg) (v : Dword), NoPort s → mulWrites i s.me = some (rd, v) →
     exec i s = sealedAs s (s.me.setX rd v)) ∧
  (∀ (i : Instr) (s : State) (a : Dword), NoPort s → divides i s.me = some (a, true) → s.me.ctxcfg.getLsbD 0 = false →
     exec i s = trapped s 0x02 a)

/-! ## Control (R231 to R241) -/
namespace Sys2Proof.Claims
open Sys2Proof Sys2Proof.Machine

/-- `PC + 2 * sign_extend(off)`. -/
def away (c : Ctx) (off : Int) : Dword := c.pc + BitVec.ofInt 64 (2 * off)

/-- A branch's context (R232): the next instruction is the target where the branch is taken, else the one in sequence. -/
def goes (c : Ctx) (taken : Prop) [Decidable taken] (off : Int) : Ctx := if taken then { c with npc := away c off } else c

/-- What a branch or jump leaves its context as, before its seal. -/
def jumps : Instr → Ctx → Option Ctx
  | .beq rs1 rs2 off, c => some (goes c (c.getX rs1 = c.getX rs2) off.toInt)
  | .bne rs1 rs2 off, c => some (goes c (c.getX rs1 ≠ c.getX rs2) off.toInt)
  | .blt rs1 rs2 off, c => some (goes c ((c.getX rs1).toInt < (c.getX rs2).toInt) off.toInt)
  | .bge rs1 rs2 off, c => some (goes c ((c.getX rs2).toInt ≤ (c.getX rs1).toInt) off.toInt)
  | .bltu rs1 rs2 off, c => some (goes c ((c.getX rs1).toNat < (c.getX rs2).toNat) off.toInt)
  | .bgeu rs1 rs2 off, c => some (goes c ((c.getX rs2).toNat ≤ (c.getX rs1).toNat) off.toInt)
  | .jal rd imm, c => some { c.setX rd (c.pc + 4#64) with npc := away c imm.toInt }
  | .jalr rd rs1 imm, c =>
    some { c.setX rd (c.pc + 4#64) with npc := (c.getX rs1 + BitVec.ofInt 64 imm.toInt) &&& ~~~1#64 }
  | _, _ => none

/-- What LOOP does to its context (R235). -/
def loops (rc : XReg) (off : BitVec 13) (c : Ctx) : Ctx :=
  goes (c.setX rc (c.getX rc - 1#64)) (c.getX rc - 1#64 ≠ 0#64) off.toInt

/-- The context that goes on at an address named by a REP or an ERET. -/
def at_ (c : Ctx) (a : Dword) : Ctx := { c with npc := a, pc := a }

/-- Instructions that only arithmetic cores execute (R201). -/
def arithOnly : Instr → Bool
  | .bupd .. | .dictLoad .. | .compactLane .. | .dictionaryReference .. => true
  | .vadd .. | .vsub .. | .vmul .. | .vmulh .. | .vand .. | .vor .. | .vxor .. | .vshl .. | .vshr .. | .vshra .. | .vmin ..
  | .vmax .. | .vminu .. | .vmaxu .. | .vmov .. | .vsel .. | .vcmpEq .. | .vcmpNe .. | .vcmpLt .. | .vcmpGe ..
  | .vcmpLtu .. | .vcmpGeu .. => true
  | .vfadd .. | .vfsub .. | .vfmul .. | .vfdiv .. | .vfsqrt .. | .vfmin .. | .vfmax .. | .vfabs .. | .vfneg .. | .vfcmpEq ..
  | .vfcmpLt .. | .vfcmpLe .. | .vfcmpUn .. | .vfma .. | .vfms .. | .vfnma .. => true
  | .vmovx .. | .vext .. | .vshuf .. | .vslideUp .. | .vslideDn .. | .vredAdd .. | .vredMin .. | .vredMax .. | .vredMinu ..
  | .vredMaxu .. | .vredAnd .. | .vredOr .. | .vredXor .. | .vfredAdd .. | .vfredMin .. | .vfredMax .. => true
  | .vld .. | .vst .. | .vldt .. | .vstt .. | .vldl .. | .vstl .. | .vgath .. | .vscat .. => true
  | .kand .. | .kor .. | .kxor .. | .knot .. | .kmovKK .. | .kmovKX .. | .kmovXK .. | .kpopc .. | .vcvt .. | .vclass .. => true
  | .mma .. | .mmaSp .. | .mwb .. | .mzero .. | .mst .. | .mlda .. | .mmov .. => true
  | .copy .. | .copyIn .. | .copy2 .. | .gath .. | .collAllred .. | .collRed .. | .collBcast .. | .collAllgath ..
  | .collRedscat .. | .phInit .. | .phReg .. | .phDrop .. | .phArr .. | .phWait .. | .phTest .. | .phExp .. | .phStat ..
  | .bar .. | .spawn .. | .start .. | .susp .. | .done .. | .joindec .. | .yield | .cancel .. | .ctrrd .. | .netOpen ..
  | .netKeep .. | .netDrop .. | .netStat .. | .bharv .. | .bquery .. | .axrBegin .. | .axrEnd .. | .axrCfg ..
  | .axrInval .. | .axrStat .. | .fenceSp => true
  | .rinit .. | .cbwait .. | .cbroom .. | .cbadv .. | .cbpub .. | .bindRd .. | .bindWr .. | .unbind .. => true
  | _ => false

end Sys2Proof.Claims

/-- R232, R233: a branch writes no register and goes to its target where its condition holds; JAL and JALR write PC + 4, JALR's
target read before. R235, R236: LOOP decrements its counter and branches while it is not zero; LOOPR does the same, reaches its
counter under the WOFS before its own change, and turns the window by one; as a CSR write it pins an active region (R134).
Nothing else changes. Some of what it says is the model's reading or
choice: assumption log, entry 22. -/
def Obligations.BranchesJumpsAndLoops : Prop :=
  (∀ (i : Instr) (s : State) (c : Ctx), NoPort s → jumps i s.me = some c → exec i s = sealedAs s c) ∧
  (∀ (s : State) (rc : XReg) (off : BitVec 13), NoPort s →
     exec (.loop rc off) s = sealedAs s (loops rc off s.me) ∧
     (Whole s → exec (.loopr rc off) s =
       sealedAs (s.pinActive s.myKey)
         { loops rc off s.me with wofs := BitVec.ofNat 64 ((s.me.wofs.toNat + 1) % 16) }))

/-- R238, R239: REP whose clause is fetched and passes the check reads its counter, leaves it unchanged, and goes to the clause's
first instruction with the buffer at the first of `count` iterations, or after the clause where the count is 0; a clause that
holds a refused instruction traps with cause 0x01 at REP, its value that instruction as R200 lays it out. R239, R240: after a
clause instruction is sealed the buffer moves to the next one, from the last to the first while iterations remain, and after the
last of all it is empty and the context goes on at E. Some of what it says is the model's reading or
choice: assumption log, entry 22. -/
def Obligations.Repetition : Prop :=
  (∀ (s s1 : State) (rc : XReg) (n : BitVec 6) (first : ClauseItem) (rest : List ClauseItem) (after : Dword),
     NoPort s1 →
     EStateM.run (captureClause n.toNat s.me.npc) (s.setMe { s.me with rep := RepBuf.empty }) = .ok (first :: rest, after) s1 →
     (((first :: rest).all fun i => !s1.clauseRefuses i.raw i.long) = true →
       exec (.rep rc n) s =
         if s1.me.getX rc = 0#64 then .next (s1.setMe (at_ s1.me after))
         else
           .next (s1.setMe (at_
             { s1.me with
               rep := { st := .reissuing, pc := s.me.pc, items := first :: rest, after := after,
                        iter := (s1.me.getX rc).toNat, stag := 0 } } first.pc))) ∧
     (s1.clauseRefuses first.raw first.long = true → Whole s →
       exec (.rep rc n) s =
         .next ((s1.setCtxAt s.myKey { s.me with rep := RepBuf.empty }).takeTrap s.myKey 0x01 s.me.pc (s1.layOut first.raw first.long)))) ∧
  (∀ (c : Ctx) (i : ClauseItem), c.rep.st = .reissuing →
     (c.rep.items[c.rep.stag + 1]? = some i → c.repNext = { c with rep := { c.rep with stag := c.rep.stag + 1 }, pc := i.pc }) ∧
     (c.rep.items.length = c.rep.stag + 1 → c.rep.items[0]? = some i → 1 < c.rep.iter →
       c.repNext = { c with rep := { c.rep with stag := 0, iter := c.rep.iter - 1 }, pc := i.pc }) ∧
     (c.rep.items.length = c.rep.stag + 1 → c.rep.iter = 1 → c.repNext = { c with rep := RepBuf.empty, pc := c.rep.after }))

/-! ## Traps, ERET and the system instructions (R330 to R333, R350 to R352) -/

/-- R351: outside a handler, with TRAPVEC not zero, a trap sets CODE and INH, TRAPPC and TRAPVAL, and fetch restarts at TRAPVEC;
nothing else is saved or changed but what R135 (the active region) and R240 (a clause is held) say. R352: in a handler, or with
TRAPVEC zero, the trap is fatal: the three registers are written, every other register of the context is kept, the context halts,
the die reports it, its launch is cancelled with `.hard`, and the unit that it ran has ended. Some of what it says is the model's reading or
choice: assumption log, entry 23. -/
def Obligations.TakingATrap : Prop :=
  (∀ (s : State) (k cause : Nat) (pc value : Dword), isSluice (k / 16) = false → (s.ctxAt k).inHandler = false →
     (s.ctxAt k).trapvec ≠ 0#64 → cause < 256 →
     s.takeTrap k cause pc value =
       s.setCtxAt k
         { s.ctxAt k with
           trapcause := BitVec.ofNat 64 cause ||| 0x100#64, trappc := pc, trapval := value,
           pc := (s.ctxAt k).trapvec, npc := (s.ctxAt k).trapvec, status := .running, region := none, pending := none,
           rep := if (s.ctxAt k).rep.st = .reissuing then { (s.ctxAt k).rep with st := .held } else (s.ctxAt k).rep }) ∧
  (∀ (s : State) (k cause : Nat) (pc value : Dword), isArith (k / 16) = true →
     ((s.ctxAt k).inHandler = true ∨ (s.ctxAt k).trapvec = 0#64) → cause < 256 →
     ∃ c : Ctx, s.takeTrap k cause pc value =
         (let t := ((s.setCtxAt k c).dieEvent (dieOf (k / 16)) 1).cancel .launch (s.ctxAt k).launchid.toNat true
          if (s.ctxAt k).record.isSome then t.endItem (s.ctxAt k).launchid.toNat else t) ∧
       c.status = .fatal ∧ c.trapcause = BitVec.ofNat 64 cause ||| 0x100#64 ∧ c.trappc = pc ∧ c.trapval = value ∧
       c.x = (s.ctxAt k).x ∧ c.v = (s.ctxAt k).v ∧ c.k = (s.ctxAt k).k ∧ c.acc = (s.ctxAt k).acc ∧
       c.handles = (s.ctxAt k).handles ∧ c.fcsr = (s.ctxAt k).fcsr ∧ c.ctxcfg = (s.ctxAt k).ctxcfg ∧
       c.wofs = (s.ctxAt k).wofs ∧ c.pts = (s.ctxAt k).pts ∧ c.trapvec = (s.ctxAt k).trapvec ∧ c.pc = (s.ctxAt k).pc)

/-- R332: TRAP traps with cause 0x0C and x[rs1]. In a handler ERET goes on at TRAPPC with bit 0 cleared and clears INH, writing
no other register; a control context's ERET also ends a stop of its core (R402). Outside one it traps with cause 0x01, but on a
sluice core. -/
def Obligations.TrapAndEret : Prop :=
  ∀ (s : State) (rs1 : XReg), NoPort s →
    exec (.trap rs1) s = trapped s 0x0C (s.me.getX rs1) ∧
    (s.me.inHandler = true → Whole s → s.cur.2 ≠ 0 →
      exec .eret s = .next (s.setMe (at_ s.me.eret (s.me.trappc &&& ~~~1#64)))) ∧
    (s.me.inHandler = true → Whole s → s.cur.2 = 0 →
      exec .eret s =
        let t := (s.setMe (at_ s.me.eret (s.me.trappc &&& ~~~1#64))).setCore s.cur.1 { s.core s.cur.1 with stopped := false }
        .next (if (s.core s.cur.1).stopped then t.offerHome s.cur.1 else t)) ∧
    s.me.eret.inHandler = false ∧ s.me.eret.trapcause = s.me.trapcause &&& 0xFF#64 ∧ s.me.eret.x = s.me.x ∧
    s.me.eret.v = s.me.v ∧ s.me.eret.k = s.me.k ∧ s.me.eret.acc = s.me.acc ∧ s.me.eret.fcsr = s.me.fcsr ∧
    s.me.eret.trappc = s.me.trappc ∧ s.me.eret.trapval = s.me.trapval ∧ s.me.eret.trapvec = s.me.trapvec ∧
    (s.me.inHandler = false → isSluice s.cur.1 = false → exec .eret s = trapped s 0x01 s.me.ir)

/-- R331: a CSR instruction writes rd with the register's old value; CSRRW, and CSRRS and CSRRC of a register other than x0, then
write the new value, and the write pins an active region (R134); CSRRS and CSRRC of x0 write nothing but rd. R4, R5, R350, R46,
R83: what a write of a unit-level register leaves, the reserved and read-only fields kept. Some of what it says is the model's reading or
choice: assumption log, entries 5 and 35. -/
def Obligations.ControlRegisters : Prop :=
  (∀ (s : State) (rd rs1 : XReg) (csr : BitVec 11) (old : Dword), NoPort s →
     (csr.toNat < 0x100 ∨ isRingmaster s.cur.1 = true) → s.csr csr.toNat = some old →
     let w := s.setMe (s.me.setX rd old)
     let wrote (v : Dword) : Out :=
       sealedAs ((w.setCsr csr.toNat v).pinActive s.myKey) ((w.setCsr csr.toNat v).pinActive s.myKey).me
     (Whole s → exec (.csrrw rd rs1 csr) s = wrote (s.me.getX rs1) ∧
       (rs1 ≠ 0 → exec (.csrrs rd rs1 csr) s = wrote (old ||| s.me.getX rs1)) ∧
       (rs1 ≠ 0 → exec (.csrrc rd rs1 csr) s = wrote (old &&& ~~~(s.me.getX rs1))) ∧
       exec (.csrrs rd 0 csr) s = sealedAs s (s.me.setX rd old) ∧
       exec (.csrrc rd 0 csr) s = sealedAs s (s.me.setX rd old))) ∧
  (∀ (s : State) (v : Dword),
     s.setCsr 0x000 v = s.setMe { s.me with fcsr := v &&& 0x1F7F1F#64 } ∧
     s.setCsr 0x001 v = s.setMe { s.me with ctxcfg := v &&& 3#64 } ∧
     s.setCsr 0x002 v = s.setMe { s.me with wofs := v &&& 0xF#64 } ∧
     s.setCsr 0x003 v = s ∧
     s.setCsr 0x005 v = s.setMe { s.me with bartmo := v &&& 0xFFFFFFFF#64 } ∧
     s.setCsr 0x010 v = s ∧ s.setCsr 0x011 v = s ∧ s.setCsr 0x012 v = s ∧ s.setCsr 0x013 v = s ∧ s.setCsr 0x030 v = s ∧
     s.setCsr 0x040 v = s.setMe { s.me with trapcause := (s.me.trapcause &&& ~~~0xFF#64) ||| (v &&& 0xFF#64) } ∧
     s.setCsr 0x041 v = s.setMe { s.me with trappc := v } ∧
     s.setCsr 0x042 v = s.setMe { s.me with trapval := v } ∧
     s.setCsr 0x043 v = s.setMe { s.me with trapvec := v &&& ~~~1#64 })

/-- R331, R337, R198: at unit level a CSR number from 0x100 upward, XLINV and BIST trap with cause 0x06 and the instruction; any
other number that names no CSR traps with cause 0x01. R201: an instruction that only arithmetic cores execute traps with cause
0x01 on any other core. Some of what it says is the model's reading or
choice: assumption log, entry 34. -/
def Obligations.PrivilegeTraps : Prop :=
  (∀ (s : State) (rd rs1 rs2 : XReg) (csr : BitVec 11), isRingmaster s.cur.1 = false →
     (0x100 ≤ csr.toNat →
       exec (.csrrw rd rs1 csr) s = trapped s 0x06 s.me.ir ∧ exec (.csrrs rd rs1 csr) s = trapped s 0x06 s.me.ir ∧
       exec (.csrrc rd rs1 csr) s = trapped s 0x06 s.me.ir) ∧
     (csr.toNat < 0x100 → s.csr csr.toNat = none →
       exec (.csrrw rd rs1 csr) s = trapped s 0x01 s.me.ir ∧ exec (.csrrs rd rs1 csr) s = trapped s 0x01 s.me.ir ∧
       exec (.csrrc rd rs1 csr) s = trapped s 0x01 s.me.ir) ∧
     exec (.xlinv rs1 rs2) s = trapped s 0x06 s.me.ir ∧
     exec (.bist rd rs1) s = trapped s 0x06 s.me.ir) ∧
  (∀ (i : Instr) (s : State), arithOnly i = true → isArith s.cur.1 = false → exec i s = trapped s 0x01 s.me.ir)

/-- R333: a WFE whose latch is set ends its wait at once and clears it; else the context waits for an event. An event ends the
wait of a context that waits for one and clears its latch, and sets the latch of any other; a WFE may also complete at any other
time. Each changes nothing but the context's latch and wait. Some of what it says is the model's reading or
choice: assumption log, entry 4. -/
def Obligations.WaitForEvent : Prop :=
  ∀ (s : State), NoPort s → Whole s →
    (s.me.latch = true → exec .wfe s = sealedAs s { s.me with latch := false }) ∧
    (s.me.latch = false → exec .wfe s = sealedAs s { s.me with status := .waiting .event none }) ∧
    (∀ (k : Nat) (rd : Option XReg), ctxKey s.subject.place s.subject.index = k →
      ((s.ctxAt k).status = .waiting .event rd →
        exec .wfeWake s = .next (s.setCtxAt k { s.ctxAt k with status := .running, latch := false }) ∧
        exec .wfeSpuriousCompletion s = .next (s.setCtxAt k { s.ctxAt k with status := .running, latch := false })) ∧
      ((s.ctxAt k).status = .running → exec .wfeWake s = .next (s.setCtxAt k { s.ctxAt k with latch := true })))

/-! ## Scalar memory (R243 to R252, R310 to R318) -/
namespace Sys2Proof.Claims
open Sys2Proof Sys2Proof.Machine

/-- Whether a core may name a space (R201). -/
def spaceAllowed (core : Nat) : Space → Bool
  | .global => true
  | .lw => !isRingmaster core
  | _ => isArith core

/-- A local space without copies: the bytes are at the home itself (R9, R10). -/
def isLocal (space : Space) : Bool := space == .sp || space == .cw || space == .ds

/-- The value a load of `n` bytes writes (R244): the little-endian number, zero- or sign-extended. -/
def loaded (z : Bool) (n : Nat) (bs : List Byte) : Dword :=
  if z then BitVec.ofNat 64 (natOfBytes bs) else BitVec.ofInt 64 (if natOfBytes bs < 2 ^ (8 * n - 1) then (natOfBytes bs : Int) else (natOfBytes bs : Int) - 2 ^ (8 * n))

/-- The new value of an AMO or RED of `w` bits (R311), by the old value and the operand, both below 2^w. -/
def amoValue (w : Nat) : AmoOp → Nat → Nat → Option Nat
  | .swap, _, v => some v
  | .add, a, v => some ((a + v) % 2 ^ w)
  | .and, a, v => some (a &&& v)
  | .or, a, v => some (a ||| v)
  | .xor, a, v => some (a ^^^ v)
  | .min, a, v => some (if signedOfNat w v < signedOfNat w a then v else a)
  | .max, a, v => some (if signedOfNat w a < signedOfNat w v then v else a)
  | .minu, a, v => some (min a v)
  | .maxu, a, v => some (max a v)
  | .fadd, _, _ => none

end Sys2Proof.Claims

/-- R243 to R246: a weak LD of an aligned address within its extent, whose bytes come back good, writes the extended value and
nothing else; in a local space the bytes are those at the address and no other state changes. R80: LD `.st` of a local space does
the same; of global memory or `.lw` it writes the value the point of coherence of its scope gives, and PTS is raised to what it
gives. Some of what it says is the model's reading or
choice: assumption log, entries 6 and 17. -/
def Obligations.ScalarLoads : Prop :=
  (∀ (s s1 : State) (rd base : XReg) (size : Size) (z : Bool) (space : Space) (off : BitVec 6) (bs : List Byte),
     let ea := s.me.getX base + BitVec.ofNat 64 (off.toNat * size.bytes)
     NoPort s → Whole s → NoPort s1 → spaceAllowed s.cur.1 space = true → ea.toNat % size.bytes = 0 →
     extentCause s s.cur.1 space ea.toNat size.bytes false = none →
     EStateM.run (fetchBytes space ea ea size.bytes) s = .ok (bs, false) s1 → bs.length = size.bytes →
     exec (.ld rd base size z space off) s = sealedAs s1 (s1.me.setX rd (loaded z size.bytes bs)) ∧
     (isLocal space = true → s1 = s ∧ bs = s.localBytes s.cur.1 space ea.toNat size.bytes)) ∧
  (∀ (s : State) (rd base : XReg) (size : Size) (z : Bool) (space : Space) (scope : Scope),
     let ea := s.me.getX base
     NoPort s → Whole s → spaceAllowed s.cur.1 space = true → ea.toNat % size.bytes = 0 →
     extentCause s s.cur.1 space ea.toNat size.bytes false = none →
     (isLocal space = true → s.localBad s.cur.1 space ea.toNat size.bytes = 0 →
       exec (.ldSt rd base size z space scope) s =
         sealedAs s (s.me.setX rd (loaded z size.bytes (s.localBytes s.cur.1 space ea.toNat size.bytes)))) ∧
     (isLocal space = false → ∀ (t : Site) (bs : List Byte) (pts : Nat) (s1 : State), NoPort s1 → Whole s1 → bs.length = size.bytes →
       EStateM.run (sitesOf space ea ea size.bytes) s = .ok [(t, size.bytes)] s →
       EStateM.run (strongLoad (s.coreAgent s.myKey) t scope size.bytes s.me.pts) s = .ok (bs, 0, pts) s1 →
       exec (.ldSt rd base size z space scope) s =
         sealedAs s1 ({ s1.me with pts := max s1.me.pts pts }.setX rd (loaded z size.bytes bs))))

/-- R247 to R250: a weak ST of an aligned address within its extent, granted, stores the low bytes of x[rs2] and changes no
register; an active region is pinned (R134); in a local space exactly the bytes at the address change. R79: ST `.st` does its
release first; of global memory, the store is performed at the point of coherence of its scope, and PTS is raised to what it
gives. Some of what it says is the model's reading or
choice: assumption log, entries 6 and 11. -/
def Obligations.ScalarStores : Prop :=
  (∀ (s s1 : State) (rv base : XReg) (size : Size) (space : Space) (off : BitVec 6),
     let ea := s.me.getX base + BitVec.ofNat 64 (off.toNat * size.bytes)
     let bs := bytesOfNat size.bytes (s.me.getX rv).toNat
     NoPort s → NoPort s1 → spaceAllowed s.cur.1 space = true → ea.toNat % size.bytes = 0 →
     EStateM.run (storeBytes space ea bs) s = .ok () s1 →
     exec (.st rv base size space off) s = sealedAs (s1.pinActive s1.myKey) s1.me ∧
     (isLocal space = true → s1 = s.localStore s.cur.1 space ea.toNat bs)) ∧
  (∀ (s s1 s2 s3 : State) (rv base : XReg) (size : Size) (space : Space) (scope : Scope),
     let ea := s.me.getX base
     let bs := bytesOfNat size.bytes (s.me.getX rv).toNat
     NoPort s → spaceAllowed s.cur.1 space = true → ea.toNat % size.bytes = 0 →
     extentCause s s.cur.1 space ea.toNat size.bytes true = none →
     EStateM.run (grantBytes space ea ea size.bytes) s = .ok () s1 →
     EStateM.run (probeBytes space ea ea size.bytes) s1 = .ok () s2 → Whole s2 →
     EStateM.run (releaseMine scope) s2 = .ok () s3 → NoPort s3 →
     (isLocal space = true →
       exec (.stSt rv base size space scope) s =
         sealedAs ((s3.localStore s3.cur.1 space ea.toNat bs).pinActive s3.myKey) s3.me) ∧
     (isLocal space = false → ∀ (t : Site) (pts : Nat) (s4 : State), NoPort s4 →
       EStateM.run (sitesOf space ea ea size.bytes) s3 = .ok [(t, size.bytes)] s3 →
       EStateM.run (strongStore (s3.coreAgent s3.myKey) t scope bs s3.me.pts) s3 = .ok pts s4 →
       exec (.stSt rv base size space scope) s =
         sealedAs (s4.pinActive s4.myKey) { s4.me with pts := max s4.me.pts pts }))

/-- R248, R3: after a store to a local space, every byte but those stored reads as before, wherever it lies; stored to the core's
own scratchpad, the little-endian value reads back. -/
def Obligations.LocalStoreFrame : Prop :=
  ∀ (s : State) (core : Nat) (space : Space) (off : Nat) (bs : List Byte),
    (∀ a, (∀ i < bs.length, a ≠ localAddr core space (off + i)) → (s.localStore core space off bs).byte a = s.byte a) ∧
    (s.localStore core space off bs).ctxs = s.ctxs ∧ (s.localStore core space off bs).cores = s.cores ∧
    (s.localStore core space off bs).dies = s.dies ∧ (s.localStore core space off bs).copies = s.copies ∧
    (∀ n v : Nat, Memory.wf s.mem = true →
      natOfBytes ((s.localStore core .sp off (bytesOfNat n v)).localBytes core .sp off n) = v % 2 ^ (8 * n))

/-- R251: PREF writes no register; in a local space, or for an address that routes nowhere, it has no effect at all.
R84: a weak load that its first level holds with a lease that covers PTS takes the bytes of that copy, raises PTS to the copy's
wts and changes nothing but the order in which an L2 slice would replace its frames (R67). Some of what it says is the model's reading or
choice: assumption log, entries 6 and 17. -/
def Obligations.WeakReadsAndPrefetch : Prop :=
  (∀ (s : State) (base : XReg) (space : Space) (off : BitVec 6), NoPort s → Whole s → spaceAllowed s.cur.1 space = true →
     let ea := s.me.getX base + BitVec.ofNat 64 (off.toNat * 8)
     (isLocal space = true → exec (.pref base space off) s = sealedAs s s.me) ∧
     (globalSite s ea ea = none → exec (.pref base .global off) s = sealedAs s s.me) ∧
     ((extentCause s s.cur.1 .lw ea.toNat 1 false).isSome = true → space = .lw →
       exec (.pref base .lw off) s = sealedAs s s.me) ∧
     (∀ s1, extentCause s s.cur.1 .lw ea.toNat 1 false = none → space = .lw → NoPort s1 →
       EStateM.run (prefetch (s.coreAgent s.myKey) (lwSite (dieOf s.cur.1) ea ea) s.me.pts) s = .ok () s1 →
       exec (.pref base .lw off) s = sealedAs s1 s1.me) ∧
     (∀ t s1, globalSite s ea ea = some t → NoPort s1 →
       EStateM.run (prefetch (s.coreAgent s.myKey) t s.me.pts) s = .ok () s1 →
       exec (.pref base .global off) s = sealedAs s1 s1.me)) ∧
  (∀ (s : State) (a : Agent) (t : Site) (n pts p base : Nat) (up : List Nat) (c : Copy), a.levels t = p :: up →
     s.findCopy p t.key = some (base, c) → pts ≤ c.rts →
     EStateM.run (weakLoad a t .read n pts) s =
       .ok (((c.data.drop (t.key - base)).take n), bits c.bad (t.key - base) n, max pts c.wts)
         (s.touch (frameOf p base).1 (frameOf p base).2)) ∧
  (∀ (s : State) (p base : Nat), p < guestPlace 0 → s.touch (frameOf p base).1 (frameOf p base).2 = s)

/-- R311: the operations of AMO and RED on the old value and the operand, modulo the size. R311 to R313: AMO and CAS that pass their
checks release (`.rel`), act at their scope's point of coherence, raise PTS and write x[rd] with the old value, sign-extended; an
active region is pinned. RED has no answer. Some of what it says is the model's reading or
choice: assumption log, entries 6 and 18. -/
def Obligations.Atomics : Prop :=
  (∀ (op : AmoOp) (w a v r : Nat), (w = 32 ∨ w = 64) → a < 2 ^ w → v < 2 ^ w → amoValue w op a v = some r → op.apply w a v = r) ∧
  (∀ (s s1 s2 s3 : State) (rd rs1 rs2 : XReg) (size : OpSize) (op : AmoOp) (scope : Scope) (acq rel : Bool) (t : Site)
     (old pts : Nat),
     let n := size.bytes
     let m := 2 ^ (8 * n)
     NoPort s → NoPort s1 → Whole s1 → NoPort s3 →
     (if rel then EStateM.run (releaseMine scope) s1 = .ok () s2 else s2 = s1) →
     let answers (f : Nat → Option Nat) : Prop :=
       EStateM.run (atomicChecks (s.me.getX rs1) .readWrite n) s = .ok t s1 ∧
       EStateM.run (atomic (s2.coreAgent s2.myKey) t scope n s2.me.pts true f) s2 = .ok (old, pts, false) s3
     let answered : Out :=
       sealedAs (s3.pinActive s3.myKey)
         ({ s3.me with pts := max s3.me.pts pts }.setX rd (BitVec.ofInt 64 (signedOfNat (8 * n) old)))
     (answers (fun a => some (op.apply (8 * n) a ((s.me.getX rd).toNat % m))) →
       exec (.amo op size rd rs1 scope acq rel) s = answered) ∧
     (answers (fun a => if a = (s.me.getX rd).toNat % m then some ((s.me.getX rs2).toNat % m) else none) →
       (size = .w → exec (.casW rd rs1 rs2 scope acq rel) s = answered) ∧
       (size = .d → exec (.casD rd rs1 rs2 scope acq rel) s = answered)) ∧
     (EStateM.run (atomicChecks (s.me.getX rs1) .write n) s = .ok t s1 →
       EStateM.run (atomic (s2.coreAgent s2.myKey) t scope n s2.me.pts false fun a =>
         some (op.apply (8 * n) a ((s.me.getX rs2).toNat % m))) s2 = .ok (old, pts, false) s3 →
       exec (.red op size rs1 rs2 scope rel) s = sealedAs (s3.pinActive s3.myKey) s3.me))

/-- R314 to R316, R82: FENCE `.acq` and `.sp` write no register and change no memory; `.rel` and `.full` do the release of their
scope, which at `.core` and `.clu` changes nothing (R79); IFENCE drops the lines of the core's L1 instruction cache, and its
context's fetch then reads with the PTS it has now. Each pins an active region. Some of what it says is the model's reading or
choice: assumption log, entries 6 and 22. -/
def Obligations.FencesComplete : Prop :=
  ∀ (s s1 : State) (scope : Scope), NoPort s → Whole s →
    exec (.fenceAcq scope) s = sealedAs (s.pinActive s.myKey) s.me ∧
    (NoPort s1 → EStateM.run (releaseMine scope) s = .ok () s1 →
      exec (.fenceRel scope) s = sealedAs (s1.pinActive s1.myKey) s1.me ∧
      exec (.fenceFull scope) s = sealedAs (s1.pinActive s1.myKey) s1.me) ∧
    ((scope = .core ∨ scope = .clu) → EStateM.run (releaseMine scope) s = .ok () s) ∧
    (isArith s.cur.1 = true → exec .fenceSp s = sealedAs (s.pinActive s.myKey) s.me) ∧
    exec .ifence s = sealedAs ((s.dropPlaces fun p => p == l1iPlace s.cur.1).pinActive s.myKey)
      { s.me with fetchPts := s.me.pts } ∧
    (s.dropPlaces fun p => p == l1iPlace s.cur.1).copies = s.copies.filter fun e => e.1 / 2 ^ 64 != l1iPlace s.cur.1

/-- R101, R103, R317: BUPD, whole or as a sealed packet's effect, at a holder that has the grain in its tag merges the operand into its partial and writes no register; nor does
it write memory; the issuer's own clean copies of the grain leave first; the partial has a frame of its holder. R318: BHARV of a grain that is not in Brine state, or of a page that is not Brine memory, and BQUERY, change no
memory; BQUERY writes 0 for a grain that is not in Brine state, one that is being harvested among them, else the tag, a valid bit and the
count of holders. Some of what it says is the model's reading or
choice: assumption log, entries 6 and 12. -/
def Obligations.BrineInstructions : Prop :=
  ∀ (s s1 : State) (rd rs1 rs2 : XReg) (tag : BrineTag) (scope : Scope) (t : Site) (h : Home),
    NoPort s → NoPort s1 → isArith s.cur.1 = true → s.feature.getLsbD 2 = true →
    globalSite s (s.me.getX rs1) (s.me.getX rs1) = some t →
    (∀ (base : Nat) (e : BrineEntry) (p : Partial) (s0 : State), (Whole s ∨ Performing s) → (s.me.getX rs1).toNat % tag.bytes = 0 →
      (s.heldUnder t.key (holderIndex s.cur.1 t.loc) tag).isSome = true →
      ((∀ q ∈ (s.coreAgent s.myKey).levels t, s.findCopy q t.key = none) ∧ s0 = s ∨
        EStateM.run (yieldCopies (s.coreAgent s.myKey) t) s = .ok () s0) →
      NoPort s0 → s0.brineOf t.key = some (base, e) → e.tag = tag →
      s0.brine.find base = some e → e.holders.find (holderIndex s.cur.1 t.loc) = some p →
      let off := t.key - base
      let v := tag.apply (numAt p.data off tag.bytes) ((s.me.getX rs2).toNat % 2 ^ (8 * tag.bytes))
      let p' : Partial := { p with data := overwrite p.data off (bytesOfNat tag.bytes v), maxPts := max p.maxPts s0.me.pts }
      exec (.bupd tag rs1 rs2 scope false) s =
        sealedAs (({ s0 with
          brine := s0.brine.put base
            { e with
              holders := e.holders.put (holderIndex s.cur.1 t.loc) p', maxPts := max e.maxPts s0.me.pts } }.bringFor
          (holderPlace t.loc.home (holderIndex s.cur.1 t.loc)) base 0).pinActive s0.myKey)
          s0.me) ∧
    (EStateM.run (homeOf (s.coreAgent s.myKey) t .write) s = .ok h s1 →
      (s1.brine.find h.key = none ∨ pteBr h.pte = false) → s1.dropHolds t.key 1 true = false →
      exec (.bharv rs1) s = sealedAs (s1.pinActive s1.myKey) s1.me) ∧
    (EStateM.run (homeOf (s.coreAgent s.myKey) t .either) s = .ok h s1 →
      (s1.brine.find h.key = none →
        exec (.bquery rd rs1) s = sealedAs (s1.pinActive s1.myKey) (s1.me.setX rd 0#64)) ∧
      (∀ e, s1.brine.find h.key = some e →
        exec (.bquery rd rs1) s =
          sealedAs (s1.pinActive s1.myKey) (s1.me.setX rd
            (if e.state = .brine then BitVec.ofNat 64 (e.tag.code + 32 + 64 * e.holders.length) else 0#64))))

/-! ## Vectors (R253 to R278) -/
namespace Sys2Proof.Claims
open Sys2Proof Sys2Proof.Machine

/-- Lane `i` of a register. -/
def lane (c : Ctx) (r : VReg) (i : Fin 16) : Word := (c.getV r)[i.val]

/-- Whether a k register, by its name, enables a lane. -/
def on (c : Ctx) (k : KReg) (i : Fin 16) : Bool := (c.getK k).getLsbD i.val

/-- The context whose register `vd` takes `f` in the lanes that `k` enables, the others kept (R253). -/
def putLanes (c : Ctx) (vd : VReg) (k : KReg) (f : Fin 16 → Word) : Ctx :=
  c.setV vd (Vector.ofFn fun i => if on c k i then f i else lane c vd i)

/-- Element `e` of `w` bits of a lane. -/
def elem (w : Nat) (a : Word) (e : Nat) : Nat := a.toNat / 2 ^ (w * e) % 2 ^ w

/-- The lane whose elements of `w` bits are `f` of the elements of two lanes. -/
def eachElement (w : Nat) (f : Nat → Nat → Nat) (a b : Word) : Word :=
  BitVec.ofNat 32 (((List.range (32 / w)).map fun e => f (elem w a e) (elem w b e) % 2 ^ w * 2 ^ (w * e)).sum)

/-- An integer's low `w` bits. -/
def low (w : Nat) (v : Int) : Nat := (v % 2 ^ w).toNat

/-- A VOP that R256 lists: its element size, operands, and the element it gives. -/
def vopOf : Instr → Option (ElemSize × VReg × VReg × VReg × KReg × (Nat → Nat → Nat → Nat))
  | .vadd sz vd v1 v2 k => some (sz, vd, v1, v2, k, fun w a b => (a + b) % 2 ^ w)
  | .vsub sz vd v1 v2 k => some (sz, vd, v1, v2, k, fun w a b => low w ((a : Int) - b))
  | .vmul sz vd v1 v2 k => some (sz, vd, v1, v2, k, fun w a b => low w (signedOfNat w a * signedOfNat w b))
  | .vmulh sz vd v1 v2 k => some (sz, vd, v1, v2, k, fun w a b => low w (signedOfNat w a * signedOfNat w b / 2 ^ w))
  | .vand vd v1 v2 k => some (.w, vd, v1, v2, k, fun _ a b => a &&& b)
  | .vor vd v1 v2 k => some (.w, vd, v1, v2, k, fun _ a b => a ||| b)
  | .vxor vd v1 v2 k => some (.w, vd, v1, v2, k, fun _ a b => a ^^^ b)
  | .vshl sz vd v1 v2 k => some (sz, vd, v1, v2, k, fun w a b => a * 2 ^ (b % w) % 2 ^ w)
  | .vshr sz vd v1 v2 k => some (sz, vd, v1, v2, k, fun w a b => a / 2 ^ (b % w))
  | .vshra sz vd v1 v2 k => some (sz, vd, v1, v2, k, fun w a b => low w (signedOfNat w a / 2 ^ (b % w)))
  | .vmin sz vd v1 v2 k => some (sz, vd, v1, v2, k, fun w a b => low w (min (signedOfNat w a) (signedOfNat w b)))
  | .vmax sz vd v1 v2 k => some (sz, vd, v1, v2, k, fun w a b => low w (max (signedOfNat w a) (signedOfNat w b)))
  | .vminu sz vd v1 v2 k => some (sz, vd, v1, v2, k, fun _ a b => min a b)
  | .vmaxu sz vd v1 v2 k => some (sz, vd, v1, v2, k, fun _ a b => max a b)
  | _ => none

/-- A VCMP (R257): its element size, operands and condition. -/
def vcmpOf : Instr → Option (ElemSize × KReg × VReg × VReg × KReg × (Nat → Nat → Nat → Bool))
  | .vcmpEq sz kd v1 v2 k => some (sz, kd, v1, v2, k, fun _ a b => a == b)
  | .vcmpNe sz kd v1 v2 k => some (sz, kd, v1, v2, k, fun _ a b => a != b)
  | .vcmpLt sz kd v1 v2 k => some (sz, kd, v1, v2, k, fun w a b => decide (signedOfNat w a < signedOfNat w b))
  | .vcmpGe sz kd v1 v2 k => some (sz, kd, v1, v2, k, fun w a b => decide (signedOfNat w a ≥ signedOfNat w b))
  | .vcmpLtu sz kd v1 v2 k => some (sz, kd, v1, v2, k, fun _ a b => decide (a < b))
  | .vcmpGeu sz kd v1 v2 k => some (sz, kd, v1, v2, k, fun _ a b => decide (a ≥ b))
  | _ => none

/-- The context a move, permute or integer reduction leaves (R258, R264 to R266), with no port bound. -/
def permutes : Instr → Ctx → Option Ctx
  | .vmov vd v2 k, c => some (putLanes c vd k fun i => lane c v2 i)
  | .vsel vd v1 v2 k, c => some (putLanes c vd 0 fun i => if on c k i then lane c v1 i else lane c v2 i)
  | .vmovx vd xs, c => some (putLanes c vd 0 fun _ => (c.getX xs).setWidth 32)
  | .vext xd v1 n, c => some (c.setX xd (BitVec.ofInt 64 (lane c v1 n).toInt))
  | .vshuf vd v1 v2 k, c => some (putLanes c vd k fun i => lane c v1 ⟨(lane c v2 i).toNat % 16, by omega⟩)
  | .vslideUp vd v1 n k, c =>
    some (putLanes c vd k fun i => if n.val ≤ i.val then lane c v1 ⟨i.val - n.val, by omega⟩ else 0#32)
  | .vslideDn vd v1 n k, c =>
    some (putLanes c vd k fun i => if h : i.val + n.val < 16 then lane c v1 ⟨i.val + n.val, h⟩ else 0#32)
  | .vredAdd vd v1 k, c => some (lane0 c vd (((live c v1 k).map BitVec.toNat).sum % 2 ^ 32))
  | .vredMin vd v1 k, c => some (lane0 c vd (low 32 (((live c v1 k).map BitVec.toInt).foldl min (2 ^ 31 - 1))))
  | .vredMax vd v1 k, c => some (lane0 c vd (low 32 (((live c v1 k).map BitVec.toInt).foldl max (-2 ^ 31))))
  | .vredMinu vd v1 k, c => some (lane0 c vd (((live c v1 k).map BitVec.toNat).foldl min (2 ^ 32 - 1)))
  | .vredMaxu vd v1 k, c => some (lane0 c vd (((live c v1 k).map BitVec.toNat).foldl max 0))
  | .vredAnd vd v1 k, c => some (lane0 c vd ((live c v1 k).foldl (· &&& ·) 0xFFFFFFFF#32).toNat)
  | .vredOr vd v1 k, c => some (lane0 c vd ((live c v1 k).foldl (· ||| ·) 0#32).toNat)
  | .vredXor vd v1 k, c => some (lane0 c vd ((live c v1 k).foldl (· ^^^ ·) 0#32).toNat)
  | _, _ => none
where
  /-- The lanes a reduction takes. -/
  live (c : Ctx) (v : VReg) (k : KReg) : List Word := ((List.finRange 16).filter fun i => on c k i).map fun i => lane c v i
  /-- A value in lane 0, the other lanes 0. -/
  lane0 (c : Ctx) (vd : VReg) (v : Nat) : Ctx :=
    c.setV vd (Vector.ofFn fun i : Fin 16 => if i.val = 0 then BitVec.ofNat 32 v else 0#32)

/-- The context a KOP leaves (R274), with no port bound. -/
def kops : Instr → Ctx → Option Ctx
  | .kand kd k1 k2, c => some (c.setK kd (c.getK k1 &&& c.getK k2))
  | .kor kd k1 k2, c => some (c.setK kd (c.getK k1 ||| c.getK k2))
  | .kxor kd k1 k2, c => some (c.setK kd (c.getK k1 ^^^ c.getK k2))
  | .knot kd k1, c => some (c.setK kd (~~~(c.getK k1)))
  | .kmovKK kd k1, c => some (c.setK kd (c.getK k1))
  | .kmovKX kd xs, c => some (c.setK kd (BitVec.ofNat 16 (c.getX xs).toNat))
  | .kmovXK xd k1, c => some (c.setX xd (BitVec.ofNat 64 (c.getK k1).toNat))
  | .kpopc xd k1, c => some (c.setX xd (BitVec.ofNat 64 ((List.range 16).countP fun i => (c.getK k1).getLsbD i)))
  | _, _ => none

/-- Two FP16 operations, or one FP32 operation, on a lane (R259): the lane and its flags. -/
def fpHalves (ty : FType) (f : FFmt → Nat → Nat → Nat × FFlags) (a b : Word) : Nat × FFlags :=
  match ty with
  | .s => f .fp32 a.toNat b.toNat
  | .hf =>
    ((f .fp16 (elem 16 a 0) (elem 16 b 0)).1 + 2 ^ 16 * (f .fp16 (elem 16 a 1) (elem 16 b 1)).1,
      (f .fp16 (elem 16 a 0) (elem 16 b 0)).2 ||| (f .fp16 (elem 16 a 1) (elem 16 b 1)).2)

/-- A VFOP or VFMA (R260, R261, R263): whether it rounds under FCSR.RM, its destination and mask, and each lane's value and flags. -/
def fpOf : Instr → Ctx → Option (Bool × VReg × KReg × (FpMode → Fin 16 → Nat × FFlags))
  | .vfadd ty vd v1 v2 k, c => some (true, vd, k, fun m i => fpHalves ty (fun f a b => m.write f (sumExact m.rm [m.read f a, m.read f b])) (lane c v1 i) (lane c v2 i))
  | .vfsub ty vd v1 v2 k, c => some (true, vd, k, fun m i => fpHalves ty (fun f a b => m.write f (sumExact m.rm [m.read f a, (m.read f b).negate])) (lane c v1 i) (lane c v2 i))
  | .vfmul ty vd v1 v2 k, c => some (true, vd, k, fun m i => fpHalves ty (fun f a b => m.write f (mulExact (m.read f a) (m.read f b))) (lane c v1 i) (lane c v2 i))
  | .vfdiv ty vd v1 v2 k, c => some (true, vd, k, fun m i => fpHalves ty (fpDiv m) (lane c v1 i) (lane c v2 i))
  | .vfsqrt ty vd v1 k, c => some (true, vd, k, fun m i => fpHalves ty (fun f a _ => fpSqrt m f a) (lane c v1 i) (lane c v1 i))
  | .vfmin ty vd v1 v2 k, c => some (false, vd, k, fun m i => fpHalves ty (fpMinMax false m) (lane c v1 i) (lane c v2 i))
  | .vfmax ty vd v1 v2 k, c => some (false, vd, k, fun m i => fpHalves ty (fpMinMax true m) (lane c v1 i) (lane c v2 i))
  | .vfabs ty vd v1 k, c => some (false, vd, k, fun _ i => fpHalves ty (fun f a _ => (a % f.signBit, 0#7)) (lane c v1 i) (lane c v1 i))
  | .vfneg ty vd v1 k, c => some (false, vd, k, fun _ i => fpHalves ty (fun f a _ => (a ^^^ f.signBit, 0#7)) (lane c v1 i) (lane c v1 i))
  | .vfma vd v1 v2 v3 k, c => some (true, vd, k, fun m i => fpFma false false m .fp32 (lane c v1 i).toNat (lane c v2 i).toNat (lane c v3 i).toNat)
  | .vfms vd v1 v2 v3 k, c => some (true, vd, k, fun m i => fpFma false true m .fp32 (lane c v1 i).toNat (lane c v2 i).toNat (lane c v3 i).toNat)
  | .vfnma vd v1 v2 v3 k, c => some (true, vd, k, fun m i => fpFma true false m .fp32 (lane c v1 i).toNat (lane c v2 i).toNat (lane c v3 i).toNat)
  | _, _ => none

/-- A VFCMP (R262). -/
def vfcmpOf : Instr → Option (FCond × KReg × VReg × VReg × KReg)
  | .vfcmpEq kd v1 v2 k => some (.eq, kd, v1, v2, k)
  | .vfcmpLt kd v1 v2 k => some (.lt, kd, v1, v2, k)
  | .vfcmpLe kd v1 v2 k => some (.le, kd, v1, v2, k)
  | .vfcmpUn kd v1 v2 k => some (.un, kd, v1, v2, k)
  | _ => none

/-- A VFRED (R267): whether it rounds, its step and identity. -/
def vfredOf : Instr → Option (Bool × (FpMode → Nat → Nat → Nat × FFlags) × Nat × VReg × VReg × KReg)
  | .vfredAdd vd v1 k => some (true, fun m => fpAdd m .fp32, 0x80000000, vd, v1, k)
  | .vfredMin vd v1 k => some (false, fun m => fpMinMax false m .fp32, 0x7F800000, vd, v1, k)
  | .vfredMax vd v1 k => some (false, fun m => fpMinMax true m .fp32, 0xFF800000, vd, v1, k)
  | _ => none

/-- One level of the tree of R267, the flags of its steps gathered. -/
def level (op : Nat → Nat → Nat × FFlags) : List (Nat × FFlags) → List (Nat × FFlags)
  | a :: b :: r => ((op a.1 b.1).1, (op a.1 b.1).2 ||| a.2 ||| b.2) :: level op r
  | l => l

/-- FCSR.FZ and FZN with a rounding mode (R48). -/
def modeWith (c : Ctx) (rm : Rm) : FpMode := { rm := rm, fz := c.fcsr.getLsbD 3, fzn := c.fcsr.getLsbD 4 }

/-- The mode an instruction works under: FCSR.RM where it rounds, none while that holds 5 to 7 (R45). -/
def modeOf (rounds : Bool) (c : Ctx) : Option FpMode :=
  if rounds then (Rm.ofCode (c.fcsr.toNat % 8)).map (modeWith c) else some (modeWith c .rne)

/-- The OR of the flags of the lanes that a k register enables. -/
def flagsOn (c : Ctx) (k : KReg) (r : Fin 16 → FFlags) : FFlags :=
  (List.finRange 16).foldl (fun acc i => if on c k i then acc ||| r i else acc) 0#7

/-- What R49 does with the flags an instruction raises: an enabled one traps with cause 0x08 and the flags raised; else they are
set in FCSR beside those that stand there. -/
def withFlags (s : State) (flags : FFlags) (after : Ctx → Ctx) : Out :=
  if flags.toNat % 32 &&& bits s.me.fcsr.toNat 16 5 = 0 then
    sealedAs s (after { s.me with fcsr := s.me.fcsr ||| BitVec.ofNat 64 (flags.toNat * 2 ^ 8) })
  else trapped s 0x08 (BitVec.ofNat 64 (flags.toNat % 32))

/-- Which vector instructions round under FCSR.RM (R45, R260, R263, R267, R276). -/
def rounds : Instr → Bool
  | .vfadd .. | .vfsub .. | .vfmul .. | .vfdiv .. | .vfsqrt .. | .vfma .. | .vfms .. | .vfnma .. | .vfredAdd .. => true
  | .vcvt .. => true
  | _ => false

/-- Whether a conversion needs the DP8 unit (R393). -/
def usesDp8 : Instr → Bool
  | .vcvt src dst .. => src == .dp8 || dst == .dp8
  | _ => false

end Sys2Proof.Claims

/-- R256, R253: a VOP writes each element of each enabled lane; a disabled lane keeps its old value, and nothing else changes. -/
def Obligations.VopWritesElements : Prop :=
  ∀ (i : Instr) (s : State) (sz : ElemSize) (vd v1 v2 : VReg) (k : KReg) (f : Nat → Nat → Nat → Nat),
    NoPort s → isArith s.cur.1 = true → vopOf i = some (sz, vd, v1, v2, k, f) →
    exec i s = sealedAs s (putLanes s.me vd k fun j =>
      eachElement (elemWidth sz) (f (elemWidth sz)) (lane s.me v1 j) (lane s.me v2 j))

/-- R258, R264 to R266: moves, permutes and integer reductions. R274: the predicate operations write one k or x register, k0 and
x0 discarding it. -/
def Obligations.PermutesAndPredicates : Prop :=
  (∀ (i : Instr) (s : State) (c : Ctx), NoPort s → isArith s.cur.1 = true → permutes i s.me = some c → exec i s = sealedAs s c) ∧
  (∀ (i : Instr) (s : State) (c : Ctx), NoPort s → isArith s.cur.1 = true → kops i s.me = some c → exec i s = sealedAs s c)

/-- R49, R253, R260, R261, R263: a floating lane operation writes its enabled lanes and raises the flags of those lanes alone; an
enabled flag traps instead, with cause 0x08 and the flags. -/
def Obligations.FloatLanes : Prop :=
  ∀ (i : Instr) (s : State) (r : Bool) (vd : VReg) (k : KReg) (f : FpMode → Fin 16 → Nat × FFlags) (m : FpMode),
    NoPort s → isArith s.cur.1 = true → fpOf i s.me = some (r, vd, k, f) → modeOf r s.me = some m →
    exec i s = withFlags s (flagsOn s.me k fun j => (f m j).2) fun c => putLanes c vd k fun j => BitVec.ofNat 32 (f m j).1

/-- R257: a VCMP sets a bit of its k register where the lane is enabled and the condition holds in every element of the lane,
clears every other bit, and changes nothing else; written to k0 the result is discarded (R12). R262: VFCMP writes every bit of its
k register, set where the lane is enabled and the comparison holds. -/
def Obligations.Compares : Prop :=
  (∀ (i : Instr) (s : State) (sz : ElemSize) (kd : KReg) (v1 v2 : VReg) (k : KReg) (cond : Nat → Nat → Nat → Bool),
     NoPort s → isArith s.cur.1 = true → vcmpOf i = some (sz, kd, v1, v2, k, cond) →
     ∃ m : Half, exec i s = sealedAs s (s.me.setK kd m) ∧
       ∀ j : Fin 16, m.getLsbD j.val = true ↔
         on s.me k j = true ∧ ∀ e < 32 / elemWidth sz,
           cond (elemWidth sz) (elem (elemWidth sz) (lane s.me v1 j) e) (elem (elemWidth sz) (lane s.me v2 j) e) = true) ∧
  (∀ (i : Instr) (s : State) (cond : FCond) (kd : KReg) (v1 v2 : VReg) (k : KReg),
     NoPort s → isArith s.cur.1 = true → vfcmpOf i = some (cond, kd, v1, v2, k) →
     let r := fun j : Fin 16 => fpCompare cond (modeWith s.me .rne) .fp32 (lane s.me v1 j).toNat (lane s.me v2 j).toNat
     ∃ m : Half, exec i s = withFlags s (flagsOn s.me k fun j => (r j).2) (fun c => c.setK kd m) ∧
       ∀ j : Fin 16, m.getLsbD j.val = (on s.me k j && (r j).1))

/-- R267: VFRED combines its lanes along the fixed tree, a disabled lane giving the identity; its flags are those of all steps. -/
def Obligations.FloatReductions : Prop :=
  ∀ (i : Instr) (s : State) (r : Bool) (op : FpMode → Nat → Nat → Nat × FFlags) (identity : Nat) (vd v1 : VReg) (k : KReg)
    (m : FpMode) (v : Nat) (flags : FFlags),
    NoPort s → isArith s.cur.1 = true → vfredOf i = some (r, op, identity, vd, v1, k) → modeOf r s.me = some m →
    level (op m) (level (op m) (level (op m) (level (op m)
      ((List.finRange 16).map fun j => (if on s.me k j then (lane s.me v1 j).toNat else identity, 0#7))))) = [(v, flags)] →
    exec i s = withFlags s flags fun c => permutes.lane0 c vd v

/-- R276, R277: VCVT of every pair that R50 lists writes the converted elements of the enabled lanes, the others kept; R278: VCLASS
writes each element's class in its own place. R45, R198: a VFOP, VFMA, VFRED or VCVT that rounds under FCSR.RM traps with cause
0x01 while RM holds 5 to 7. -/
def Obligations.ConversionsAndRounding : Prop :=
  (∀ (s : State) (src dst : CvtFmt) (vd v1 : VReg) (k : KReg) (m : FpMode), NoPort s → isArith s.cur.1 = true →
     ((Instr.vcvt src dst vd v1 k).wf = true → s.feature.getLsbD 3 = true → modeOf true s.me = some m →
       let scale := (lane s.me v1 4).toNat % 256
       let r := fun j : Fin 16 =>
         if dst = .dp8 then ((toDp8 m (s.me.getV v1)).2.getD j.val (0, 0#7))
         else convertElement m src dst scale (elementAt (s.me.getV v1) (cvtWidth src) j.val)
       ∃ v : VVal, exec (.vcvt src dst vd v1 k) s = withFlags s (flagsOn s.me k fun j => (r j).2) (fun c => c.setV vd v) ∧
         ∀ j : Fin 16, elementAt v (cvtWidth dst) j.val =
           if on s.me k j then (r j).1 % 2 ^ cvtWidth dst else elementAt (s.me.getV vd) (cvtWidth dst) j.val) ∧
     (∀ f, cvtFFmt src = some f → ∃ v : VVal, exec (.vclass src vd v1 k) s = sealedAs s (s.me.setV vd v) ∧
       ∀ j : Fin 16,
         (on s.me k j = false → v[j.val] = lane s.me vd j) ∧
         (on s.me k j = true → ∀ e < 32 / f.width, elem f.width v[j.val] e = classOf f (elem f.width (lane s.me v1 j) e)))) ∧
  (∀ (i : Instr) (s : State), rounds i = true → isArith s.cur.1 = true → (usesDp8 i = true → s.feature.getLsbD 3 = true) →
     5 ≤ s.me.fcsr.toNat % 8 →
     exec i s = trapped s 0x01 s.me.ir)

/-- R45, R46: with no flushing, a value a format holds is delivered as it is, under every rounding mode and with no flag. -/
def Obligations.ExactValuesRoundToThemselves : Prop :=
  ∀ (f : FFmt) (rm : Rm) (w : Nat), w < 2 ^ f.width → f.isNaN w = false →
    f.round rm false (f.value false w) = (w, 0#7)

/-! ## Vector memory (R268 to R273) -/
namespace Sys2Proof.Claims
open Sys2Proof Sys2Proof.Machine

/-- Word `i` of a list of bytes. -/
def word (bs : List Byte) (i : Nat) : Word := BitVec.ofNat 32 (natOfBytes ((bs.drop (4 * i)).take 4))

/-- The address of a gather's or scatter's lane (R272). -/
def laneEa (s : State) (base : XReg) (vi : VReg) (i : Fin 16) : Dword :=
  s.me.getX base + BitVec.ofInt 64 (lane s.me vi i).toInt

/-- What follows a trap where the instruction had filled copies, or made its release, before it: its context as it stood. A packet has
only noted the trap. -/
def trappedAfter (s t : State) (cause : Nat) (v : Dword) : Out :=
  match s.run with
  | none => .next ((t.setCtxAt s.myKey s.me).takeTrap s.myKey cause s.me.pc v)
  | some _ => .next { t with run := t.run.map fun r => { r with raised := some (.trap cause v) } }

/-- FCSR with flags raised (R49). -/
def raised (c : Ctx) (flags : FFlags) : Ctx := { c with fcsr := c.fcsr ||| BitVec.ofNat 64 (flags.toNat * 2 ^ 8) }

/-- Whether none of the flags has its enable bit set. -/
def quiet (c : Ctx) (flags : FFlags) : Prop := flags.toNat % 32 &&& bits c.fcsr.toNat 16 5 = 0

/-- How a typed access rounds and flushes. -/
def typedMode (c : Ctx) : FpMode := modeWith c ((Rm.ofCode (c.fcsr.toNat % 8)).getD .rne)

/-- The lanes a typed load decodes from a block's or element run's bytes (R44), with their flags: `e` is the block's scale byte
where the access names a sub-block. -/
def typedLane (m : FpMode) (p : Typed) (e : Nat) (bs : List Byte) (i : Nat) : Nat × FFlags :=
  if p.fmt = .dp8s then (decodeSparse m bs).getD i (0, 0#7)
  else if p.sub then decodeElement m p.fmt true e (natOfBytes ((bs.drop i).take 1))
  else if p.scaled then decodeElement m p.fmt true (natOfBytes (bs.take 1)) (natOfBytes ((bs.drop (1 + i)).take 1))
  else decodeElement m p.fmt false 127 (natOfBytes ((bs.drop (p.fmt.bytes * i)).take p.fmt.bytes))

end Sys2Proof.Claims

/-- R268, R269, R271, R272: VLD, VLDL and VGATH that pass their checks write every lane with its little-endian word, and no other
register; a lane slice is read from that lane's own memory, and a gathered lane at its own address, once the
homes have answered for every lane that asks one (R273). Some of what it says is the model's reading or
choice: assumption log, entry 6. -/
def Obligations.VectorLoadsWriteLanes : Prop :=
  ∀ (s s1 : State) (vd vi : VReg) (base : XReg) (space : Space) (off : BitVec 7) (bs : List Byte),
    NoPort s → NoPort s1 → isArith s.cur.1 = true →
    (let ea := s.me.getX base + BitVec.ofNat 64 (off.toNat * 64);
      ea.toNat % 4 = 0 → extentCause s s.cur.1 space ea.toNat 64 false = none →
      EStateM.run (fetchBytes space ea ea 64) s = .ok (bs, false) s1 → bs.length = 64 →
      exec (.vld vd base space off) s = sealedAs s1 (putLanes s1.me vd 0 fun i => word bs i.val)) ∧
    (let o := s.me.getX base + BitVec.ofNat 64 (off.toNat * 4);
      let at_ := fun i : Fin 16 => laneBase s.cur.1 i.val + o.toNat
      Whole s → o.toNat % 4 = 0 → o.toNat ≤ 0xFFC → (∀ (i : Fin 16), ∀ j < 4, s.marked (at_ i + j) = false) →
      exec (.vldl vd base off) s = sealedAs s (putLanes s.me vd 0 fun i => BitVec.ofNat 32 (s.num (at_ i) 4))) ∧
    ((∀ i, (laneEa s base vi i).toNat % 4 = 0) →
      (∀ i, extentCause s s.cur.1 space (laneEa s base vi i).toNat 4 false = none) →
      (isLocal space = true → Whole s → (∀ i, s.localBad s.cur.1 space (laneEa s base vi i).toNat 4 = 0) →
        exec (.vgath vd base vi space) s =
          sealedAs s (putLanes s.me vd 0 fun i => word (s.localBytes s.cur.1 space (laneEa s base vi i).toNat 4) 0)) ∧
      (∀ (s0 : State) (parts : List (Dword × List Byte × Bool)),
        EStateM.run (do
          noteLoads (some space) ((List.finRange 16).map (laneEa s base vi)) 4
          laneAnswers space ((List.finRange 16).map (laneEa s base vi)) false) s = .ok () s0 →
        EStateM.run (((List.finRange 16).map (laneEa s base vi)).mapM fun ea => do
          let (bs, bad) ← fetchBytes space ea ea 4
          return (ea, bs, bad)) s0 = .ok parts s1 →
        (∀ p ∈ parts, p.2.1.length = 4 ∧ p.2.2 = false) →
        exec (.vgath vd base vi space) s =
          sealedAs s1 (putLanes s1.me vd 0 fun i => word ((parts.getD i.val (0#64, [], false)).2.1) 0)))

/-- R268, R269, R271, R272: VST, VSTL and VSCAT that pass their checks store every lane's word and write no register; a scatter's
lanes are stored in ascending order. Some of what it says is the model's reading or
choice: assumption log, entry 6. -/
def Obligations.VectorStoresStoreLanes : Prop :=
  ∀ (s s1 : State) (vd vi : VReg) (base : XReg) (space : Space) (off : BitVec 7),
    let bytesOf := fun i : Fin 16 => bytesOfNat 4 (lane s.me vd i).toNat
    NoPort s → NoPort s1 → isArith s.cur.1 = true →
    (let ea := s.me.getX base + BitVec.ofNat 64 (off.toNat * 64);
      let bs := (List.finRange 16).flatMap bytesOf
      ea.toNat % 4 = 0 → EStateM.run (storeBytes space ea bs) s = .ok () s1 →
      exec (.vst vd base space off) s = sealedAs (s1.pinActive s1.myKey) s1.me ∧
      (isLocal space = true → s1 = s.localStore s.cur.1 space ea.toNat bs)) ∧
    (let o := s.me.getX base + BitVec.ofNat 64 (off.toNat * 4);
      Whole s → o.toNat % 4 = 0 → o.toNat ≤ 0xFFC →
      ∃ t : State, exec (.vstl vd base off) s = sealedAs (t.pinActive s.myKey) s.me ∧
        (∀ i : Fin 16, Memory.wf s.mem = true → t.bytes (laneBase s.cur.1 i.val + o.toNat) 4 = bytesOf i) ∧
        (∀ a, (∀ i : Fin 16, ∀ j < 4, a ≠ laneBase s.cur.1 i.val + o.toNat + j) → t.byte a = s.byte a) ∧
        t.ctxs = s.ctxs ∧ t.cores = s.cores ∧ t.dies = s.dies ∧ t.copies = s.copies ∧ t.fit = s.fit) ∧
    ((∀ i, (laneEa s base vi i).toNat % 4 = 0) → Whole s →
      (∀ i, extentCause s s.cur.1 space (laneEa s base vi i).toNat 4 true = none) → isLocal space = true →
      exec (.vscat vd base vi space) s =
        (let t := (List.finRange 16).foldl (fun t i => t.localStore s.cur.1 space (laneEa s base vi i).toNat (bytesOf i)) s;
         sealedAs (t.pinActive s.myKey) t.me))

/-- R246, R250, R353: an address that is not a multiple of the size traps with cause 0x03 and the address; one outside its
space's extent, or with no grant in `.lw`, with the cause the space gives; a space the core may not name with cause 0x01 (R201).
R313: a misaligned AMO, CAS or RED traps with cause 0x03 and the address, and performs nothing. Nothing else happens.
R273: the checks of the vector accesses. A misaligned address traps with cause 0x03, a lane slice past the lane's memory with
cause 0x06, an address outside its space's extent with the space's cause; nothing else happens. -/
def Obligations.BadAccessesTrap : Prop :=
  ((∀ (s : State) (r base : XReg) (size : Size) (z : Bool) (space : Space) (off : BitVec 6) (scope : Scope) (i : Instr)
      (ea : Dword) (write : Bool), NoPort s → Whole s →
      (i = .ld r base size z space off ∧ ea = s.me.getX base + BitVec.ofNat 64 (off.toNat * size.bytes) ∧ write = false ∨
        i = .ldSt r base size z space scope ∧ ea = s.me.getX base ∧ write = false ∨
        i = .st r base size space off ∧ ea = s.me.getX base + BitVec.ofNat 64 (off.toNat * size.bytes) ∧ write = true ∨
        i = .stSt r base size space scope ∧ ea = s.me.getX base ∧ write = true) →
      (spaceAllowed s.cur.1 space = false → exec i s = trapped s 0x01 s.me.ir) ∧
      (spaceAllowed s.cur.1 space = true → ea.toNat % size.bytes ≠ 0 → exec i s = trapped s 0x03 ea) ∧
      (∀ cause, spaceAllowed s.cur.1 space = true → ea.toNat % size.bytes = 0 →
        extentCause s s.cur.1 space ea.toNat size.bytes write = some cause → exec i s = trapped s cause ea)) ∧
   (∀ (s : State) (rd rs1 rs2 : XReg) (size : OpSize) (op : AmoOp) (scope : Scope) (acq rel : Bool), NoPort s →
      (s.me.getX rs1).toNat % size.bytes ≠ 0 →
      exec (.amo op size rd rs1 scope acq rel) s = trapped s 0x03 (s.me.getX rs1) ∧
      exec (.red op size rs1 rs2 scope rel) s = trapped s 0x03 (s.me.getX rs1) ∧
      (size = .w → exec (.casW rd rs1 rs2 scope acq rel) s = trapped s 0x03 (s.me.getX rs1)) ∧
      (size = .d → exec (.casD rd rs1 rs2 scope acq rel) s = trapped s 0x03 (s.me.getX rs1)))) ∧
  (∀ (s : State) (vd vi : VReg) (base : XReg) (space : Space) (off : BitVec 7), NoPort s → Whole s → isArith s.cur.1 = true →
     (let ea := s.me.getX base + BitVec.ofNat 64 (off.toNat * 64);
       (ea.toNat % 4 ≠ 0 →
         exec (.vld vd base space off) s = trapped s 0x03 ea ∧ exec (.vst vd base space off) s = trapped s 0x03 ea) ∧
       (∀ cause, ea.toNat % 4 = 0 → extentCause s s.cur.1 space ea.toNat 64 false = some cause →
         exec (.vld vd base space off) s = trapped s cause ea) ∧
       (∀ cause, ea.toNat % 4 = 0 → extentCause s s.cur.1 space ea.toNat 64 true = some cause →
         exec (.vst vd base space off) s = trapped s cause ea)) ∧
     (let o := s.me.getX base + BitVec.ofNat 64 (off.toNat * 4);
       (o.toNat % 4 ≠ 0 → exec (.vldl vd base off) s = trapped s 0x03 o ∧ exec (.vstl vd base off) s = trapped s 0x03 o) ∧
       (o.toNat % 4 = 0 → 0xFFC < o.toNat →
         exec (.vldl vd base off) s = trapped s 0x06 o ∧ exec (.vstl vd base off) s = trapped s 0x06 o)) ∧
     (∀ i : Fin 16, (laneEa s base vi i).toNat % 4 ≠ 0 → (∀ j < i, (laneEa s base vi j).toNat % 4 = 0) →
       exec (.vgath vd base vi space) s = trapped s 0x03 (laneEa s base vi i) ∧
       exec (.vscat vd base vi space) s = trapped s 0x03 (laneEa s base vi i)))

/-- R270, R44: VLDT whose place and bytes are at hand writes its sixteen lanes with the decoded elements and raises their flags,
an enabled one trapping with cause 0x08; VSTT of an FP32 or INT32 page stores the lanes as they are. Some of what it says is the model's reading or
choice: assumption log, entries 20 and 21. -/
def Obligations.TypedAccesses : Prop :=
  ∀ (s s1 s1' s2 s3 : State) (vd : VReg) (base : XReg) (off : BitVec 7) (p : Typed) (bs es : List Byte),
    let ea := s.me.getX base + BitVec.ofNat 64 off.toNat
    NoPort s → NoPort s3 → isArith s.cur.1 = true →
    (EStateM.run (typedPlace ea .read) s = .ok p s1 →
      (if p.sub then EStateM.run (oneCopyOf [(p.first, p.count), (p.block, 1)] ea) s1 = .ok () s1' else s1' = s1) →
      EStateM.run (fetchBytes .global p.first ea p.count) s1' = .ok (bs, false) s2 →
      (if p.sub then EStateM.run (fetchBytes .global p.block ea 1) s2 = .ok (es, false) s3 else s3 = s2) →
      let r := fun i : Fin 16 => typedLane (typedMode s1.me) p (natOfBytes es) bs i.val
      let flags := (List.finRange 16).foldl (fun f i => f ||| (r i).2) 0#7;
      (quiet s3.me flags →
        exec (.vldt vd base off) s = sealedAs s3 (putLanes (raised s3.me flags) vd 0 fun i => BitVec.ofNat 32 (r i).1)) ∧
      (¬quiet s3.me flags →
        exec (.vldt vd base off) s = trappedAfter s s3 0x08 (BitVec.ofNat 64 (flags.toNat % 32)))) ∧
    (∀ (s4 : State), EStateM.run (typedPlace ea .write) s = .ok p s1 → (p.fmt = .fp32 ∨ p.fmt = .int32) →
      p.scaled = false → p.sub = false →
      EStateM.run (grantBytes .global p.first ea p.count) s1 = .ok () s2 →
      EStateM.run (probeBytes .global p.first ea p.count) s2 = .ok () s3 → Whole s3 →
      EStateM.run (performStore .global p.first ((List.finRange 16).flatMap fun i => bytesOfNat 4 (lane s.me vd i).toNat))
        ({ s3 with free := s3.free + 1 }.setMe s3.me) = .ok () s4 → NoPort s4 →
      exec (.vstt vd base off) s = sealedAs (s4.pinActive s4.myKey) s4.me)

/-- R172, R334: DICT.LOAD of an image whose header is good puts its words into the dictionary from the index it names, and
nothing else changes but what the loads bring; a misaligned address traps with cause 0x03, a bad header with cause 0x06.
R170: a compact lane instruction is exactly the full instruction its op names, unmasked, with vd its first source. R171, R173,
R239: a dictionary reference executes the instruction its word decodes to, under the reference's own mask where that is not k0; a
reference to an instruction of OP, OPI, LUI, ADDPC or MULDIV, or to a VOP, completes with its result. It
traps with cause 0x01 where the word is none of four bytes or decodes to nothing, to an instruction a dictionary may not hold, or, in a
reissued clause, to one a clause may not hold, or has no k field to replace. Some of what it says is the model's reading or
choice: assumption log, entry 36. -/
def Obligations.ShortForms : Prop :=
  (∀ (s s1 s2 : State) (rs1 : XReg) (hd ws : List Byte), NoPort s → NoPort s2 → Whole s2 → isArith s.cur.1 = true →
     let a := s.me.getX rs1
     let first := natOfBytes hd % 2 ^ 10
     let count := natOfBytes hd / 2 ^ 10 % 2 ^ 11
     let good := count ≠ 0 ∧ first + count ≤ 1024 ∧ natOfBytes hd / 2 ^ 21 % 2 ^ 43 = 0;
     (a.toNat % 8 ≠ 0 → exec (.dictLoad rs1) s = trapped s 0x03 a) ∧
     (a.toNat % 8 = 0 → EStateM.run (imageBytes a 8) s = .ok hd s1 →
       (¬good → exec (.dictLoad rs1) s = trappedAfter s s1 0x06 a) ∧
       (good → EStateM.run (imageBytes (a + 8) (4 * count)) s1 = .ok ws s2 → ws.length = 4 * count →
         ∃ t : State, exec (.dictLoad rs1) s = sealedAs t t.me ∧
           t = s2.setCore s2.cur.1 { s2.core s2.cur.1 with dict := (t.core s2.cur.1).dict } ∧
           ∀ i < 1024, t.dictWord i = if first ≤ i ∧ i < first + count then word ws (i - first) else s2.dictWord i))) ∧
  ((∀ (vd v2 : VReg) (s : State),
      (exec (.compactLane 0 vd v2) s = exec (.vadd .w vd vd v2 0) s) ∧ (exec (.compactLane 1 vd v2) s = exec (.vsub .w vd vd v2 0) s) ∧
      (exec (.compactLane 2 vd v2) s = exec (.vand vd vd v2 0) s) ∧ (exec (.compactLane 3 vd v2) s = exec (.vor vd vd v2 0) s) ∧
      (exec (.compactLane 4 vd v2) s = exec (.vxor vd vd v2 0) s) ∧ (exec (.compactLane 5 vd v2) s = exec (.vmin .w vd vd v2 0) s) ∧
      (exec (.compactLane 6 vd v2) s = exec (.vmax .w vd vd v2 0) s) ∧ (exec (.compactLane 7 vd v2) s = exec (.vmov vd v2 0) s) ∧
      (exec (.compactLane 8 vd v2) s = exec (.vfadd .s vd vd v2 0) s) ∧ (exec (.compactLane 9 vd v2) s = exec (.vfsub .s vd vd v2 0) s) ∧
      (exec (.compactLane 10 vd v2) s = exec (.vfmul .s vd vd v2 0) s) ∧ (exec (.compactLane 11 vd v2) s = exec (.vfmin .s vd vd v2 0) s) ∧
      (exec (.compactLane 12 vd v2) s = exec (.vfmax .s vd vd v2 0) s) ∧ (exec (.compactLane 13 vd v2) s = exec (.vfadd .hf vd vd v2 0) s) ∧
      (exec (.compactLane 14 vd v2) s = exec (.vfmul .hf vd vd v2 0) s) ∧ (exec (.compactLane 15 vd v2) s = exec (.vshl .w vd vd v2 0) s) ∧
      (∀ op : Fin 16, NoPort s → isArith s.cur.1 = true → s.me.fcsr = 0#64 → ∃ t, exec (.compactLane op vd v2) s = .next t ∧
        (∀ a, t.byte a = s.byte a) ∧ ∀ r : VReg, r ≠ vd → t.me.getV r = s.me.getV r)
 ) ∧
   (∀ (s : State) (index : Fin 1024) (k : KReg) (i : Instr), isArith s.cur.1 = true →
      ((s.dictWord index.val).toNat % 2 = 0 ∨ decoded (s.dictWord index.val).toNat true = none →
        exec (.dictionaryReference index k) s = trapped s 0x01 s.me.ir) ∧
      ((s.dictWord index.val).toNat % 2 = 1 → decoded (s.dictWord index.val).toNat true = some i →
        (refusedInDictionary i = true → exec (.dictionaryReference index k) s = trapped s 0x01 s.me.ir) ∧
        (s.me.rep.st = .reissuing → refusedInClause i = true →
          exec (.dictionaryReference index k) s = trapped s 0x01 s.me.ir) ∧
        (refusedInDictionary i = false → s.me.rep.st ≠ .reissuing →
          (k = 0 → exec (.dictionaryReference index k) s = exec i s) ∧
          (k ≠ 0 → withMask i k = none → exec (.dictionaryReference index k) s = trapped s 0x01 s.me.ir) ∧
          (∀ j, k ≠ 0 → withMask i k = some j → exec (.dictionaryReference index k) s = exec j s)) ∧
        (s.me.rep.st ≠ .reissuing → NoPort s →
          (∀ rd v, opWrites i s.me = some (rd, v) ∨ immWrites i s.me = some (rd, v) ∨ mulWrites i s.me = some (rd, v) →
            exec (.dictionaryReference index 0) s = sealedAs s (s.me.setX rd v)) ∧
          (∀ sz vd v1 v2 k0 f, vopOf i = some (sz, vd, v1, v2, k0, f) →
            exec (.dictionaryReference index k) s =
              sealedAs s (putLanes s.me vd (if k = 0 then k0 else k) fun j =>
                eachElement (elemWidth sz) (f (elemWidth sz)) (lane s.me v1 j) (lane s.me v2 j)))))))

/-! ## The matrix siding (R279 to R290) -/
namespace Sys2Proof.Claims
open Sys2Proof Sys2Proof.Machine

/-- Whether a ring is ready for a packet that reads `need` bytes of its consumer slot (R285). -/
def ringReady (s : State) (r : Ring) (need : Nat) : Prop :=
  let h := s.me.handle r
  h.ready = true ∧ need ≤ h.slot ∧ s.fill s.cur.1 h.off ≠ 0 ∧ s.fill s.cur.1 h.off ≤ h.n

/-- The flattened address of a ring's consumer slot (R61, R62). -/
def slotOf (s : State) (r : Ring) : Nat :=
  let h := s.me.handle r
  spBase s.cur.1 + h.base + s.ccnt s.cur.1 h.off % h.n * h.slot

/-- CCNT of some rings moved on by one. -/
def consumed (s : State) (rs : List Ring) : State := rs.foldl (fun t r => t.advanceCcnt s.cur.1 (s.me.handle r).off 1) s

/-- Element (i, j) of an accumulator. -/
def accAt (v : AccVal) (i j : Fin 16) : Word := v[i.val][j.val]

/-- The elements along k of row or column `r` of the tile of `n` bytes at an address. -/
def tileLine (s : State) (f : MatFmt) (sparse : Bool) (at_ r : Nat) : List Elem :=
  (List.range (tileDepth f)).map (tileElem f sparse (s.me.fcsr.getLsbD 4) (s.tileAt at_ (tileBytes f sparse)) r)

/-- The products that enter an element's sum at depths `k0` to `k0 + n - 1` (R51, R54). -/
def sumTerms (f : MatFmt) (m k0 n : Nat) (a b : List Elem) : List FVal :=
  (List.range n).filterMap fun i =>
    if depthOn f m (k0 + i) then elemProduct (a.getD (k0 + i) .replaced) (b.getD (k0 + i) .replaced) else none

/-- What an MMA on tiles at `ta` and `tb` leaves: the elements under the mask take R51 to R53's sum, the others stay. -/
def mmaResult (s : State) (f : MatFmt) (sparse : Bool) (acc : AccReg) (m ta tb : Nat) (v : AccVal) (flags : FFlags) : Prop :=
  let r := fun i j : Fin 16 =>
    mmaElement f (s.me.fcsr.getLsbD 3) m (accAt (s.me.getAcc acc) i j) (tileLine s f false ta i.val) (tileLine s f sparse tb j.val)
  let at_ := fun i j : Fin 16 => rowOn m i.val && colOn m j.val;
  (∀ i j, accAt v i j = if at_ i j then BitVec.ofNat 32 (r i j).1 else accAt (s.me.getAcc acc) i j) ∧
  flags = (List.finRange 16).foldl (fun g i => (List.finRange 16).foldl (fun g j => if at_ i j then g ||| (r i j).2 else g) g) 0#7

end Sys2Proof.Claims

/-- R51 to R55: an element of MMA is one rounding, to nearest even, of the accumulator and all products at the enabled depths; of
DP8, one rounding a block, in increasing order; of INT8, the exact sum modulo 2^32, which raises no flag. -/
def Obligations.MatrixElementSums : Prop :=
  ∀ (f : MatFmt) (fz : Bool) (m : Nat) (acc : Word) (a b : List Elem), a.length = tileDepth f → b.length = tileDepth f →
    (f.isDp8 = false → f ≠ .int8 →
      mmaElement f fz m acc a b =
        FFmt.fp32.round .rne fz (sumExact .rne (FFmt.fp32.value fz acc.toNat :: sumTerms f m 0 (tileDepth f) a b))) ∧
    (f = .int8 → ∀ x y : List Int, a = x.map (fun v => Elem.val (FVal.ofInt v)) → b = y.map (fun v => Elem.val (FVal.ofInt v)) →
      mmaElement f fz m acc a b =
        (low 32 (acc.toInt +
          ((List.range 32).map fun k => if depthOn f m k then x.getD k 0 * y.getD k 0 else 0).sum), 0#7)) ∧
    (f.isDp8 = true →
      (mmaElement f fz m acc a b).1 =
        (List.range (64 / tileGroup f)).foldl (fun z blk =>
          (FFmt.fp32.round .rne fz (sumExact .rne
            (FFmt.fp32.value fz z :: sumTerms f m (tileGroup f * blk) (tileGroup f) a b))).1) acc.toNat)

/-- R283 to R286: MMA and MMA.SP whose rings are ready, with the weight buffer's slot in the format named where it is read, write
the accumulator under the mask, log their events (R290), raise their flags, and with `.adv` move CCNT of the rings on by one. Some of what it says is the model's reading or
choice: assumption log, entry 21. -/
def Obligations.MatrixMultiply : Prop :=
  ∀ (s : State) (f : MatFmt) (sparse adv wb : Bool) (acc : AccReg) (ra rb : Ring) (mask : XReg),
    let m := (s.me.getX mask).toNat
    let na := tileBytes f false
    let nb := tileBytes f sparse
    let i := if sparse then Instr.mmaSp f adv wb acc ra rb mask else Instr.mma f adv wb acc ra rb mask
    let tb := if wb then wbBase s.cur.1 rb.val else if ra = rb then slotOf s ra + na else slotOf s rb
    let line := fun sp at_ => (List.range 16).map fun r => tileLine s f sp at_ r
    let events := metEvents f m (line false (slotOf s ra)) (line sparse tb)
    NoPort s → Whole s → isArith s.cur.1 = true → (f.isDp8 = true → s.feature.getLsbD 3 = true) →
    (sparse = true → s.feature.getLsbD 4 = true) →
    (if wb then ringReady s ra na ∧ (s.core s.cur.1).wfmt.find rb.val = some f
      else if ra = rb then ringReady s ra (na + nb) else ringReady s ra na ∧ ringReady s rb nb) →
    ∃ (v : AccVal) (sum : FFlags),
      let flags := sum ||| flagIf (events.any fun e => !e.sp) FFlags.ec ||| flagIf (events.any fun e => e.sp) FFlags.sp
      mmaResult s f sparse acc m (slotOf s ra) tb v sum ∧
      (¬quiet s.me flags → exec i s = trapped s 0x08 (BitVec.ofNat 64 (flags.toNat % 32))) ∧
      (quiet s.me flags →
        exec i s =
          sealedAs (consumed s (if !adv then [] else if wb || ra == rb then [ra] else [ra, rb]))
            (((raised s.me flags).setAcc acc v).logEvents acc events))

/-- R287 to R289: MWB copies a tile into the weight buffer and records its format; MZERO and MMOV write one accumulator; MLDA
loads one from a slot of 1,024 bytes, row by row; MST stores the elements under the mask into the producer slot, and with `.adv`
publishes it. Some of what it says is the model's reading or
choice: assumption log, entry 21. -/
def Obligations.MatrixMoves : Prop :=
  ∀ (s : State) (f : MatFmt) (adv : Bool) (acc src : AccReg) (r slot : Ring) (mask : XReg),
    NoPort s → Whole s → isArith s.cur.1 = true →
    exec (.mzero acc) s = sealedAs s (s.me.setAcc acc AccVal.zero) ∧
    exec (.mmov acc src) s = sealedAs s (s.me.setAcc acc (s.me.getAcc src)) ∧
    ((f.isDp8 = true → s.feature.getLsbD 3 = true) → ringReady s r (tileBytes f false) →
      (∀ a < tileBytes f false, s.marked (slotOf s r + a) = false) →
      exec (.mwb f adv r slot) s =
        (let t := s.store (wbBase s.cur.1 slot.val) (s.bytes (slotOf s r) (tileBytes f false));
         let t := t.setCore s.cur.1 { t.core s.cur.1 with wfmt := (t.core s.cur.1).wfmt.put slot.val f }
         sealedAs (consumed t (if adv then [r] else [])) s.me)) ∧
    (ringReady s r 1024 → (∀ a < 1024, s.marked (slotOf s r + a) = false) →
      ∃ v : AccVal, exec (.mlda adv acc r) s = sealedAs (consumed s (if adv then [r] else [])) (s.me.setAcc acc v) ∧
        ∀ i j : Fin 16, accAt v i j = BitVec.ofNat 32 (s.num (slotOf s r + 64 * i.val + 4 * j.val) 4)) ∧
    (let h := s.me.handle r;
      let at_ := spBase s.cur.1 + h.base + s.pcnt s.cur.1 h.off % h.n * h.slot
      let m := (s.me.getX mask).toNat
      h.ready = true → 1024 ≤ h.slot → s.reserving s.cur.1 r h = false → s.roomOf s.cur.1 h ≠ 0 →
      ∃ t : State,
        exec (.mst .held false acc r mask) s = sealedAs (t.pinActive s.myKey) s.me ∧
        exec (.mst .held true acc r mask) s =
          sealedAs ((t.advancePcnt s.cur.1 h.off 1).pinActive s.myKey)
            ((s.me.setHandle r { h with pres := h.pres + 1#16 })) ∧
        (Memory.wf s.mem = true → ∀ i j : Fin 16, t.num (at_ + 64 * i.val + 4 * j.val) 4 =
          if rowOn m i.val && colOn m j.val then (accAt (s.me.getAcc acc) i j).toNat
          else s.num (at_ + 64 * i.val + 4 * j.val) 4) ∧
        (∀ a, a < at_ ∨ at_ + 1024 ≤ a → t.byte a = s.byte a))

/-! ## Rings and ports (R61 to R65, R291 to R294) -/

/-- R292, R293: RINIT of a good header initialises its handle. With n slots there CBWAIT and CBROOM complete, and without them they
wait; CBADV moves CCNT on, CBPUB moves PCNT and PRES on. Each pins an active region. Some of what it says is the model's reading or
choice: assumption log, entry 25. -/
def Obligations.RingInstructions : Prop :=
  ∀ (s : State) (r : Ring) (rs1 : XReg) (imm : BitVec 6), NoPort s → isArith s.cur.1 = true →
    let h := s.me.handle r
    let core := s.cur.1
    let n := if rs1 = 0 then imm.toNat else (s.me.getX rs1).toNat;
    (∀ shape : RingShape, Whole s → (s.me.getX rs1).toNat % 16 = 0 → (s.me.getX rs1).toNat + 16 ≤ 2 ^ 18 →
      s.localBad core .sp (s.me.getX rs1).toNat 16 = 0 → s.ringShape core (s.me.getX rs1).toNat = some shape →
      exec (.rinit r rs1) s =
        sealedAs (s.pinActive s.myKey)
          (s.me.setHandle r
            { ready := true, off := (s.me.getX rs1).toNat, base := shape.base, slot := shape.slot, n := shape.n,
              pres := BitVec.ofNat 16 (s.pcnt core (s.me.getX rs1).toNat) })) ∧
    (h.ready = false → exec (.cbwait r rs1 imm) s = trapped s 0x0B (BitVec.ofNat 64 r.val) ∧
      exec (.cbroom r rs1 imm) s = trapped s 0x0B (BitVec.ofNat 64 r.val) ∧
      exec (.cbadv r rs1 imm) s = trapped s 0x0B (BitVec.ofNat 64 r.val) ∧
      exec (.cbpub r rs1 imm) s = trapped s 0x0B (BitVec.ofNat 64 r.val)) ∧
    (h.ready = true → n = 0 →
      exec (.cbwait r rs1 imm) s = sealedAs (s.pinActive s.myKey) s.me ∧
      exec (.cbroom r rs1 imm) s = sealedAs (s.pinActive s.myKey) s.me ∧
      exec (.cbadv r rs1 imm) s = sealedAs (s.pinActive s.myKey) s.me ∧
      exec (.cbpub r rs1 imm) s = sealedAs (s.pinActive s.myKey) s.me) ∧
    (h.ready = true → n ≠ 0 → n ≤ h.n →
      (s.fill core h.off ≤ h.n →
        (n ≤ s.fill core h.off → Whole s →
          exec (.cbwait r rs1 imm) s = sealedAs (s.pinActive s.myKey) s.me ∧
          exec (.cbadv r rs1 imm) s =
            sealedAs ((s.advanceCcnt core h.off n).pinActive s.myKey) s.me) ∧
        (s.fill core h.off < n →
          (Whole s → exec (.cbwait r rs1 imm) s = .next s) ∧
          exec (.cbadv r rs1 imm) s = trapped s 0x0B (BitVec.ofNat 64 r.val))) ∧
      (n ≤ s.roomOf core h → exec (.cbroom r rs1 imm) s = sealedAs (s.pinActive s.myKey) s.me ∧
        (s.reserving core r h = false → Whole s →
          exec (.cbpub r rs1 imm) s =
            sealedAs ((s.advancePcnt core h.off n).pinActive s.myKey)
              (s.me.setHandle r { h with pres := h.pres + BitVec.ofNat 16 n }))) ∧
      (s.roomOf core h < n → Whole s → exec (.cbroom r rs1 imm) s = .next s)) ∧
    (h.ready = true → h.n < n →
      exec (.cbwait r rs1 imm) s = trapped s 0x0B (BitVec.ofNat 64 r.val) ∧
      exec (.cbroom r rs1 imm) s = trapped s 0x0B (BitVec.ofNat 64 r.val) ∧
      exec (.cbadv r rs1 imm) s = trapped s 0x0B (BitVec.ofNat 64 r.val) ∧
      exec (.cbpub r rs1 imm) s = trapped s 0x0B (BitVec.ofNat 64 r.val))

/-- R64, R65, R294: BIND of a ready ring binds the port, empty, at the slot's start; UNBIND of an unbound port has no effect, of a
port with nothing staged it unbinds it, and a write port's staged bytes are first drained into the producer slot.
R14, R22, R64: a source register that is a bound read port gives its next element, extended, and moves past it, waiting while
its ring has none; a destination that is a bound write port takes the low bytes, waiting while no room is staged; a port bound
the other way traps with cause 0x0B. A register that is no bound port is read and written by its name. Some of what it says is the model's reading or
choice: assumption log, entry 22. -/
def Obligations.Ports : Prop :=
  (∀ (s : State) (p : Port) (r : Ring) (size : Size) (z : Bool), isArith s.cur.1 = true →
     let h := s.me.handle r
     let q := s.me.port p;
     (NoPort s → Whole s → h.ready = true → 0 < h.slot →
       exec (.bindRd p r size z) s =
         sealedAs (s.pinActive s.myKey)
           (s.me.setPort p { bound := true, dir := .read, ring := r, esize := size.bytes, z := z, pos := 0, staged := [] }) ∧
       (s.reserving s.cur.1 r h = false →
         exec (.bindWr p r size) s =
           sealedAs (s.pinActive s.myKey)
             (s.me.setPort p
               { bound := true, dir := .write, ring := r, esize := size.bytes, z := false, pos := 0, staged := [] })) ∧
       (s.reserving s.cur.1 r h = true → exec (.bindWr p r size) s = trapped s 0x0B (BitVec.ofNat 64 r.val))) ∧
     (h.ready = false →
       exec (.bindRd p r size z) s = trapped s 0x0B (BitVec.ofNat 64 r.val) ∧
       exec (.bindWr p r size) s = trapped s 0x0B (BitVec.ofNat 64 r.val)) ∧
     (NoPort s → exec (.unbind p) s = sealedAs (s.pinActive s.myKey) s.me) ∧
     (q.bound = true → Whole s → (∀ o, o ≠ p → (s.me.port o).bound = false) → (q.dir = .read ∨ q.staged = []) →
       exec (.unbind p) s = sealedAs (s.pinActive s.myKey) (s.me.setPort p PortSt.unbound)) ∧
     (q.bound = true → Whole s → (∀ o, o ≠ p → (s.me.port o).bound = false) → q.dir = .write → q.staged ≠ [] →
       let g := s.me.handle q.ring
       q.pos ≠ g.slot → s.fill s.cur.1 g.off < g.n →
       exec (.unbind p) s =
         sealedAs
           ((s.store (spBase s.cur.1 + g.base + s.pcnt s.cur.1 g.off % g.n * g.slot + (q.pos - q.staged.length))
             q.staged).pinActive s.myKey)
           (s.me.setPort p PortSt.unbound))) ∧
  (∀ (s : State) (p : Port) (r : XReg) (v : Dword), r.val = 60 + p.val →
     let q := s.me.port p
     let h := s.me.handle q.ring;
     (q.bound = false → EStateM.run (readX r) s = .ok (s.me.getX r) s ∧
       EStateM.run (writeX r v) s = .ok () (s.setMe (s.me.setX r v))) ∧
     (q.bound = true → q.dir = .read →
       (q.esize ≤ q.staged.length →
         EStateM.run (readX r) s =
           .ok (loaded q.z q.esize (q.staged.take q.esize))
             (s.setMe (s.me.setPort p { q with staged := q.staged.drop q.esize, pos := q.pos + q.esize }))) ∧
       (q.staged = [] → 0 < q.esize → s.fill s.cur.1 h.off ≤ h.n → s.fill s.cur.1 h.off ≤ q.pos / h.slot →
         EStateM.run (readX r) s = .error .retry s) ∧
       EStateM.run (writeX r v) s = .error (.trap 0x0B (BitVec.ofNat 64 q.ring.val)) s) ∧
     (q.bound = true → q.dir = .write →
       (q.staged.length + q.esize ≤ 32 →
         EStateM.run (writeX r v) s =
           .ok () (s.setMe (s.me.setPort p
             { q with staged := q.staged ++ bytesOfNat q.esize v.toNat, pos := q.pos + q.esize }))) ∧
       (32 < q.staged.length + q.esize → EStateM.run (writeX r v) s = .error .retry s) ∧
       EStateM.run (readX r) s = .error (.trap 0x0B (BitVec.ofNat 64 q.ring.val)) s))

/-- R335, R336: XLINV at a steward drops an NI's translations of one page, one home or every home, and the grants the cluster
caches hold for it, and has what waits at those homes looked up again at once; a KIND past 2 traps with cause 0x06. BIST of a busy die writes bit 33 and
changes nothing else. Some of what it says is the model's reading or
choice: assumption log, entries 5, 29 and 34. -/
def Obligations.StewardInstructions : Prop :=
  ∀ (s : State) (rd rs1 rs2 : XReg) (l : Loc), NoPort s → Whole s → isRingmaster s.cur.1 = true →
    let a := s.me.getX rs1
    let kind := s.me.getX rs2
    let d := a.toNat / 2 ^ 16 % 64;
    (3 ≤ kind.toNat → exec (.xlinv rs1 rs2) s = trapped s 0x06 kind) ∧
    (kind.toNat < 3 → route s a = none → exec (.xlinv rs1 rs2) s = trapped s 0x06 a) ∧
    (route s a = some l →
      let drop := fun t : State =>
        if kind = 0#64 then (t.invalidatePage l).rewalk l.place
        else if kind = 1#64 then (t.invalidateHome l).rewalk l.place
        else allHomes.foldl (fun t l => (t.invalidateHome l).rewalk l.place) t
      kind.toNat < 3 → exec (.xlinv rs1 rs2) s = sealedAs (drop s) s.me) ∧
    (a.toNat / 2 ^ 11 % 2 ^ 5 = 0 → a.toNat / 2 ^ 22 = 0 →
      (s.dieBusy d = true → exec (.bist rd rs1) s = sealedAs s (s.me.setX rd 0x200000000#64)) ∧
      (s.dieBusy d = false →
        ∃ v : Dword, exec (.bist rd rs1) s =
            sealedAs ({ s with free := s.free + 1 }.testedZero d (a.toNat % 2 ^ 11)) (s.me.setX rd v) ∧
          v.getLsbD 32 = true ∧ v.getLsbD 33 = false ∧ ∀ b < 11, v.getLsbD b = true → a.getLsbD b = true)) ∧
    (¬(a.toNat / 2 ^ 11 % 2 ^ 5 = 0 ∧ a.toNat / 2 ^ 22 = 0) → exec (.bist rd rs1) s = trapped s 0x06 a)

/-! ## Phasers (R156 to R160, R322, R323) -/
namespace Sys2Proof.Claims
open Sys2Proof Sys2Proof.Machine

/-- The state and the context that an instruction which pins an active region (R134) leaves. -/
def pinned (s : State) (c : Ctx) : Out := sealedAs (s.pinActive s.myKey) c

/-- A phaser after one more arrival (R158). -/
def arrivedAt (q : Phaser) (pts : Nat) : Phaser :=
  { q with arrived := (q.arrived + 1) % 2 ^ 16, count := q.count + 1, touched := true, pts := max q.pts pts }

/-- Whether a phase flips (R159): touched, all its signals there, nothing pending. -/
def flips (q : Phaser) : Prop := q.touched = true ∧ q.sigs ≤ q.arrived ∧ q.pend = 0

/-- A phaser after its flip, its waiters aside (R95, R157, R159). -/
def afterFlip (q : Phaser) : Phaser :=
  let sigs := ((q.sigs : Int) + q.held).toNat
  let left := if sigs = 0 then 0 else q.arrived - q.sigs
  { q with
    phase := q.phase + 1#32, sigs := sigs, arrived := left, count := 0, touched := decide (0 < left), held := 0,
    heldWaits := [], pts := 0, accum := 0#64, latched := q.accum ||| BitVec.ofNat 64 (1 + min q.count 0xFFFF * 2 ^ 16),
    flipPts := q.pts :: q.flipPts }

/-- The PTS that a wait of a core for a phase that has passed takes (R95): the largest of the phases that have flipped since; none
where the core lies outside the phaser's domain. -/
def acquiredOf (q : Phaser) (r : PhRef) (core : Nat) (p : Word) : Nat :=
  if inDomain r.core core q.scope then (q.flipPts.take (q.phase - p).toNat).foldl max 0 else 0

/-- Whether a phase number has been passed (R160): PHASE - p, modulo 2^32, lies from 1 to 2^31. -/
def passed (q : Phaser) (p : Word) : Prop := 1 ≤ (q.phase - p).toNat ∧ (q.phase - p).toNat ≤ 2 ^ 31

/-- A latched word's flags merged into FCSR's (R160). -/
def merged (c : Ctx) (w : Dword) : Ctx :=
  { c with fcsr := c.fcsr ||| BitVec.ofNat 64 (w.toNat / 4 % 2 ^ 7 * 2 ^ 8) }

end Sys2Proof.Claims

/-- R158, R159, R157: a reservation that would pass 2^32 - 1 adds nothing; a withdrawal and an arrival are followed by the flip
test. A phase that does not flip stays as the event left it; one that does has its PHASE raised by one, its held registrations
taken, its word latched, and keeps only the waiters it has not answered. Some of what it says is the model's reading or
choice: assumption log, entry 25. -/
def Obligations.PhaserSlotSteps : Prop :=
  ∀ (s : State) (r : PhRef) (v : Nat), r = { core := s.subject.place, slot := s.subject.index } → v = s.subject.value.toNat →
    let q := s.phaser r
    (q.pend + v < 2 ^ 32 →
      exec .phaserReservation s = .next (s.setPhaser r { q with pend := q.pend + v, touched := true })) ∧
    (2 ^ 32 ≤ q.pend + v → exec .phaserReservation s = .next s) ∧
    exec .phaserWithdrawal s = .next ((s.setPhaser r { q with pend := q.pend - v }).flipTest r) ∧
    exec .phaserArrival s = .next ((s.setPhaser r (arrivedAt q v)).flipTest r) ∧
    (¬flips q → s.flipTest r = s) ∧
    (flips q → ¬flips (afterFlip q) →
      (s.flipTest r).phaser r =
        { afterFlip q with waiters := q.waiters.filter fun w => !phaseMet (q.phase + 1#32) w.phase }) ∧
    (∀ w : Word, phaseMet q.phase w = true ↔ passed q w)

/-- R95, R156 to R160, R322: the phaser instructions with a good handle of this module. PH.TEST and a PH.WAIT of a phase that has passed take its flip's
PTS and answer 1; a PH.WAIT of another waits at the slot. PH.STAT answers the latched word and merges its flags. PH.EXP adds to PEND,
and traps with cause 0x0A past 2^32 - 1. PH.ARR answers the phase it arrived in. PH.REG and PH.DROP answer 0 where they change
SIGS and the entries their core reserves, at once or, in a touched phase, at its flip; 1 where SIGS would leave its range.
R156, R322: PH.INIT makes the slot of the core anew, with its scope and its signals, its registrations and the entries they reserve gone, and writes rd with the handle, which the
core's own check accepts; a SLOT or scope out of range, or another bit set, traps with cause 0x06. Some of what it says is the model's reading or
choice: assumption log, entry 25. -/
def Obligations.PhaserInstructions : Prop :=
  (∀ (s : State) (rd rs1 rs2 : XReg) (r : PhRef), NoPort s → Whole s → isArith s.cur.1 = true →
     s.phaserRef s.cur.1 (s.me.getX rs1) = some r → r.away = false →
     let q := s.phaser r
     let n := (s.me.getX rs2).toNat
     let p := (s.me.getX rs2).setWidth 32
     let acquired := { s.me with pts := max s.me.pts (acquiredOf q r s.cur.1 p) }
     (passed q p →
       exec (.phTest rd rs1 rs2) s = pinned s (acquired.setX rd 1#64) ∧
       exec (.phWait rd rs1 rs2 false) s = pinned s (acquired.setX rd 1#64) ∧
       exec (.phWait rd rs1 rs2 true) s = pinned s ((merged acquired q.latched).setX rd 1#64)) ∧
     (¬passed q p → exec (.phTest rd rs1 rs2) s = pinned s (s.me.setX rd 0#64)) ∧
     (¬passed q p → s.maySuspend (phaserWait r.core r.slot) = false → ∀ st : Bool,
       exec (.phWait rd rs1 rs2 st) s =
         pinned
           (s.setPhaser r
             { q with
               waiters := q.waiters ++
                 [{ core := s.cur.1, ctx := s.cur.2, phase := p, rd := some rd, st := st, record := none }] })
           { s.me with status := .waiting (.phaser r.core r.slot p st) (some rd) }) ∧
     exec (.phStat rd rs1) s = pinned s ((merged s.me q.latched).setX rd q.latched) ∧
     (n = 0 → exec (.phExp rs1 rs2) s = pinned s s.me) ∧
     (0 < n → n < 2 ^ 32 → q.pend + n < 2 ^ 32 →
       exec (.phExp rs1 rs2) s = pinned (s.setPhaser r { q with pend := q.pend + n, touched := true }) s.me) ∧
     (2 ^ 32 ≤ n ∨ 0 < n ∧ 2 ^ 32 ≤ q.pend + n → exec (.phExp rs1 rs2) s = trapped s 0x0A (s.me.getX rs2)) ∧
     (let t := ((s.pinActive s.myKey).setPhaser r (arrivedAt q s.me.pts)).flipTest r;
       NoPort t → t.cur = s.cur → exec (.phArr rd rs1) s = sealedAs t (t.me.setX rd (q.phase.setWidth 64))) ∧
     (∀ mode : RegMode,
       let sum := (q.sigs : Int) + q.held
       let reserve := fun (t : State) (one : Int) =>
         if mode = .sig then t
         else t.setCore s.cur.1
           { t.core s.cur.1 with
             suspReserved := (t.core s.cur.1).suspReserved.put (phaserWait r.core r.slot)
               (((t.core s.cur.1).suspReserved.get 0 (phaserWait r.core r.slot) : Nat) + one : Int).toNat }
       let change := fun (by_ one : Int) =>
         if q.touched then
           s.setPhaser r
             { q with
               held := q.held + by_,
               heldWaits := if mode = .sig then q.heldWaits else q.heldWaits.put s.cur.1 (q.heldWaits.get 0 s.cur.1 + one) }
         else reserve (s.setPhaser r { q with sigs := ((q.sigs : Int) + by_).toNat }) one
       let by_ : Int := if mode = .wait then 0 else 1
       (sum + by_ ≤ 65535 → 0 ≤ sum + by_ → ∀ t, t = (change by_ 1).flipTest r → NoPort t → t.cur = s.cur →
         exec (.phReg rd rs1 mode) s = pinned t (t.me.setX rd 0#64)) ∧
       (0 ≤ sum - by_ → sum - by_ ≤ 65535 → ∀ t, t = (change (-by_) (-1)).flipTest r → NoPort t → t.cur = s.cur →
         exec (.phDrop rd rs1 mode) s = pinned t (t.me.setX rd 0#64)) ∧
       (65535 < sum + by_ ∨ sum + by_ < 0 → exec (.phReg rd rs1 mode) s = pinned s (s.me.setX rd 1#64)) ∧
       (sum - by_ < 0 ∨ 65535 < sum - by_ → exec (.phDrop rd rs1 mode) s = pinned s (s.me.setX rd 1#64)))) ∧
  (∀ (s : State) (rd rs1 rs2 : XReg) (slot scope : Nat), NoPort s → Whole s → isArith s.cur.1 = true → slot < 128 → scope < 8 →
     s.me.getX rs1 = BitVec.ofNat 64 (slot + scope * 2 ^ 29) →
     let r : PhRef := { core := s.cur.1, slot := slot }
     let handle := BitVec.ofNat 64
       (slot + s.cur.1 * 2 ^ 7 + s.modId * 2 ^ 21 + scope * 2 ^ 29 + (if s.modId = 255 then 2 ^ 32 else 0))
     ((95 < slot ∨ 4 < scope) → exec (.phInit rd rs1 rs2) s = trapped s 0x06 (s.me.getX rs1)) ∧
     (slot ≤ 95 → scope ≤ 4 → (s.me.getX rs2).toNat < 2 ^ 16 → (s.phaser r).waiters = [] →
       exec (.phInit rd rs1 rs2) s =
         (let t := s.setPhaser r
             { Phaser.reset with scope := (Scope.ofCode scope).getD .core, sigs := (s.me.getX rs2).toNat };
          pinned
            { t with
              cores := t.cores.map fun e =>
                (e.1, { e.2 with suspReserved := e.2.suspReserved.filter fun x => x.1 != phaserWait r.core r.slot }) }
            (s.me.setX rd handle))) ∧
     (slot ≤ 95 → scope ≤ 4 → s.modId < 256 → s.phaserRef s.cur.1 handle = some r) ∧
     (slot ≤ 95 → scope ≤ 4 → 2 ^ 16 ≤ (s.me.getX rs2).toNat →
       exec (.phInit rd rs1 rs2) s = trapped s 0x06 (s.me.getX rs1)))

/-! ## Units and barriers (R139, R144, R149, R152, R153, R155, R161, R324 to R327) -/

/-- R144, R149, R152, R153, R326: the unit instructions whose checks pass, through the accesses they make: SPAWN answers the UNITID and
enqueues a record whose JOIN is 0; START answers 0, 1 or 2; SUSP and YIELD fold the unit into its record; DONE ends the unit. Some of what it says is the model's reading or
choice: assumption log, entries 14, 25 and 36. -/
def Obligations.UnitInstructions : Prop :=
  ∀ (s s1 s2 s3 s4 : State) (rd rs1 rs2 : XReg), NoPort s → Whole s → isArith s.cur.1 = true →
    let goodRecord := fun a : Dword => a.toNat % 64 = 0 ∧ s.kindZero a = true
    (goodRecord (s.me.getX rs1) → EStateM.run (releaseMine .mod) s = .ok () s1 → NoPort s4 →
      (∀ (unit pts x : Nat) (bs : List Byte),
        EStateM.run (countRecord (s1.coreAgent s1.myKey) (s.me.getX rs1) s1.me.launchid.toNat s1.me.pts) s1 =
          .ok (unit, pts) s2 →
        EStateM.run (noteRelease (s1.coreAgent s1.myKey) (s.me.getX rs1) pts) s2 = .ok () s3 →
        EStateM.run (strongBytes (s1.coreAgent s1.myKey) (s.me.getX rs1 + 16#64) 4 pts) s3 = .ok (bs, x) s4 →
        let u := s4.raiseCounter s1.me.launchid.toNat
        let t := if natOfBytes (bs.take 4) = 0 then u.requeue (s.me.getX rs1) pts else u
        exec (.spawn rd rs1) s = pinned t ({ s4.me with pts := max s4.me.pts pts }.setX rd (BitVec.ofNat 64 unit))) ∧
      (EStateM.run (joinDec (s1.coreAgent s1.myKey) (s.me.getX rs1) s1.me.pts) s1 = .ok () s4 →
        exec (.joindec rs1) s = pinned s4 s4.me)) ∧
    (let h := (s.me.getX rs1).toNat
     let k := ctxKey s.cur.1 h
     let a := s.me.getX rs2
     s.cur.2 = 0 → 1 ≤ h → h ≤ 10 → goodRecord a →
      ((s.ctxAt k).free = false → exec (.start rd rs1 rs2) s = pinned s (s.me.setX rd 1#64)) ∧
      ((s.ctxAt k).free = true → s.autoPops s.cur.1 h = true →
        exec (.start rd rs1 rs2) s = pinned s (s.me.setX rd 2#64)) ∧
      (∀ (bs : List Byte) (x : Nat), (s.ctxAt k).free = true → s.autoPops s.cur.1 h = false →
        EStateM.run (strongBytes (s.coreAgent s.myKey) a 192 s.me.pts) s = .ok (bs, x) s1 →
        natOfBytes ((bs.drop 28).take 4) ≠ 0 →
        EStateM.run (startUnit k a (natOfBytes ((bs.drop 48).take 6))) s1 = .ok () s2 → NoPort s2 →
        exec (.start rd rs1 rs2) s = pinned s2 (s2.me.setX rd 0#64))) ∧
    (s.cur.2 ≠ 0 → NoPort s1 →
      (∀ (record : Dword) (pts : Nat), (s.me.getX rs1).toNat < 2 ^ 32 →
        EStateM.run (foldUnit s.me.npc (some (s.me.getX rs1).toNat) 0#64) s = .ok (some (record, pts)) s1 →
        let u := s1.pinFor s1.myKey s.me
        exec (.susp rs1) s = sealedAs (if s.me.getX rs1 = 0#64 then u.requeue record pts else u) s1.me) ∧
      (∀ (record : Dword) (pts : Nat), EStateM.run (foldUnit s.me.npc none 0#64) s = .ok (some (record, pts)) s1 →
        exec .yield s = sealedAs ((s1.pinFor s1.myKey s.me).requeue record pts) s1.me) ∧
      (EStateM.run (foldUnit s.me.npc none 0#64) s = .ok none s1 →
        exec .yield s = sealedAs (s1.pinFor s1.myKey s.me) s1.me)) ∧
    (EStateM.run (releaseMine .mod) s = .ok () s1 →
      let t := ((s1.pinActive s1.myKey).setMe s1.me.toIdle).endItem s1.me.launchid.toNat
      NoPort t → t.cur = s.cur → exec (.done 0) s =
        (let u := if s.cur.2 = 0 then t.due .treeReport s.cur.1 s1.me.launchid.toNat else t.offerHome s.cur.1;
         sealedAs u u.me)) ∧
    s.me.toIdle.status = .idle ∧ s.me.toIdle.x = s.me.x ∧ s.me.toIdle.v = s.me.v ∧ s.me.toIdle.launchid = s.me.launchid

/-- R139, R155, R326: CTRRD answers the counter's word of an ID the context's job owns; CANCEL cancels the level's ID; an ID of 2^32 or
more, one the job does not own, and CANCEL of a job, trap with cause 0x06. START of a number that is no helper, START from a helper,
and SUSP and YIELD from a control context trap with cause 0x01; a record that is misaligned traps with cause 0x03. Some of what it says is the model's reading or
choice: assumption log, entry 38. -/
def Obligations.CountersAndUnitTraps : Prop :=
  ∀ (s : State) (rd rs1 rs2 : XReg) (l : Level) (hard : Bool), NoPort s → Whole s → isArith s.cur.1 = true →
    let id := s.me.getX rs1
    let h := (s.me.getX rs1).toNat
    (∀ c : Counter, id.toNat < 2 ^ 32 → s.owns l id.toNat = true → s.counter l id.toNat = some c →
      exec (.ctrrd rd rs1 l) s =
        sealedAs (s.pinActive s.myKey)
          (s.me.setX rd (BitVec.ofNat 64
            (c.count % 2 ^ 32 + c.can.toNat * 2 ^ 32 + c.late.toNat * 2 ^ 33 + c.juf.toNat * 2 ^ 34)))) ∧
    (id.toNat < 2 ^ 32 → s.owns l id.toNat = true → l ≠ .job →
      let t := (s.pinActive s.myKey).cancel l id.toNat hard
      NoPort t → t.cur = s.cur → exec (.cancel rs1 l hard) s = sealedAs t t.me) ∧
    ((2 ^ 32 ≤ id.toNat ∨ s.owns l id.toNat = false) →
      exec (.ctrrd rd rs1 l) s = trapped s 0x06 id ∧ exec (.cancel rs1 l hard) s = trapped s 0x06 id) ∧
    exec (.cancel rs1 .job hard) s = trapped s 0x06 id ∧
    ((s.cur.2 ≠ 0 ∨ h = 0 ∨ 10 < h) → exec (.start rd rs1 rs2) s = trapped s 0x01 s.me.ir) ∧
    (s.cur.2 = 0 → exec (.susp rs1) s = trapped s 0x01 s.me.ir ∧ exec .yield s = trapped s 0x01 s.me.ir) ∧
    (id.toNat % 64 ≠ 0 →
      exec (.spawn rd rs1) s = trapped s 0x03 id ∧ exec (.joindec rs1) s = trapped s 0x03 id ∧
      (rs1 ≠ 0 → exec (.done rs1) s = trapped s 0x03 id))

/-- R161, R162, R324: BAR makes a release, of `.sys` for `.ss` and of `.die` for the others, and waits while its arrival leaves; an
arrival at a poisoned instance is answered 2; the last one completes
the instance; a timer that expires poisons the instance, answers its own core 1 and the others 2, but for cores that are saved, whose
answers wait for their resume. R402: a stop with no operation in flight and no store of a member still to be performed completes its instance, clears STOPCTL.EN, and traps every control context of the launch with cause 0x0D. Some of what it says is the model's reading or
choice: assumption log, entries 25 and 38. -/
def Obligations.BarrierSteps : Prop :=
  ∀ (s s1 : State) (kind : BarKind) (rd : XReg), NoPort s →
    (isArith s.cur.1 = true → Whole s →
      EStateM.run (releaseMine (if kind = .ss then .sys else .die)) s = .ok () s1 → NoPort s1 →
      s1.cur = s.cur →
      exec (.bar kind rd) s =
        sealedAs
          ((s1.pinActive s1.myKey).dueAt .barrierArrival
            { Subject.nothing with
              place := s.cur.1, index := s.cur.2, value := BitVec.ofNat 64 kind.code, flag := s1.me.rep.st == .reissuing })
          { s1.me with status := .waiting (.barrier s1.me.launchid.toNat kind 0) (some rd) }) ∧
    (∀ (k l : Nat) (b : BarrierInst) (w : Wait) (r : Option XReg), k = ctxKey s.subject.place s.subject.index →
      BarKind.ofCode s.subject.value.toNat = kind → (s.ctxAt k).status = .waiting (.barrier l kind 0) r →
      s.instanceFor s.subject.place (s.ctxAt k).launchid.toNat kind = (b, s1) → b.poisoned = true →
      w = .barrier b.launch b.kind b.number →
      exec .barrierArrival s =
        .next ((s1.setCtxAt k { s.ctxAt k with status := .waiting w r }).answer k w 2#64 0#64 false)) ∧
    (∀ (k l : Nat) (b : BarrierInst) (r : Option XReg), k = ctxKey s.subject.place s.subject.index →
      s.subject.index < 16 → BarKind.ofCode s.subject.value.toNat = kind →
      (s.ctxAt k).status = .waiting (.barrier l kind 0) r →
      s.instanceFor s.subject.place (s.ctxAt k).launchid.toNat kind = (b, s1) → b.poisoned = false →
      (∀ a ∈ b.arrivals, a.core ≠ s.subject.place) →
      State.maySuspend { s with cur := (s.subject.place, s.subject.index) } otherWait = false →
      let c := s.ctxAt k
      let a : Arrival :=
        { core := s.subject.place, mtime := s.mtime, pts := c.pts, timeout := c.bartmo.toNat % 2 ^ 32,
          waiters := [(s.subject.index, r, none)], expired := false }
      let b' := { b with arrivals := b.arrivals ++ [a] }
      let t := (s1.setCtxAt k { c with status := .waiting (.barrier b.launch b.kind b.number) r }).setBarrier b'
      let all := (s.membersOf c.launchid.toNat kind b.place).all fun m => b'.arrivals.any fun a => a.core == m
      exec .barrierArrival s = .next (if all && !b.stopping then t.barrierFull b' else t)) ∧
    (∀ b : BarrierInst, b.kind ≠ .ss → s.barrierFull b = s.completeBarrier b) ∧
    (s.barriers = [] → exec .barrierTimeout s = .next s) ∧
    (∀ b : BarrierInst, s.barriers = [b] → b.complete = false → b.poisoned = false → b.stopping = false →
      BarKind.ofCode s.subject.index = b.kind → b.launch = s.subject.value.toNat → s.subject.flag = false →
      (∃ a ∈ b.arrivals, a.core = s.subject.place ∧ 0 < a.timeout) →
      exec .barrierTimeout s =
        .next (b.arrivals.foldl
          (fun t a => t.answerArrivalAt b a (if a.core = s.subject.place then 1#64 else 2#64) 0)
          { s with
            barriers := [{ b with
              poisoned := true,
              arrivals := b.arrivals.map fun a =>
                { a with
                  waiters := if s.savedWith a.core b.launch then a.waiters else [],
                  expired := a.core == s.subject.place } }] })) ∧
    (∀ (b : BarrierInst) (l : Launch), s.barriers = [b] → b.launch = s.subject.place → b.stopping = true → b.complete = false →
      s.launches.find s.subject.place = some l → (∀ o ∈ s.ops, o.2.launch ≠ s.subject.place) →
      (∀ c ∈ s.coresOf l, ∀ o ∈ (s.core c).outbound, o.packet.spans = []) →
      (∀ a ∈ b.arrivals, a.waiters = []) →
      let t := (s.completeBarrier b).setDieReg l.die0 0x2A8 ((s.completeBarrier b).dieReg l.die0 0x2A8 &&& 0xFFFFFFFF#64)
      exec .superstepStop s =
        .next ((t.coresOf l).foldl (fun t core =>
          let t := t.setCore core { t.core core with stopped := true }
          if (t.ctxAt (ctxKey core 0)).status = .running then
            t.takeTrap (ctxKey core 0) 0x0D (t.ctxAt (ctxKey core 0)).pc (BitVec.ofNat 64 (l.sstep % 2 ^ 32))
          else t) t))

/-! ## Engines, sluice cores and deposits (R94, R295 to R308, R328) -/
namespace Sys2Proof.Claims
open Sys2Proof Sys2Proof.Machine

/-- A command of the running context, as it enters its engine (R295, R297): `s` is the state the command leaves. -/
def commandOf (s : State) (kind : EngKind) (d x p : Dword) (n : Nat) (desc : List Byte) (side : LocalSide) (ord : MemOrder) :
    EngOp :=
  { kind := kind, core := s.cur.1, ctx := s.cur.2, unit := s.me.unitid, launch := s.me.launchid.toNat,
    job := ((s.launches.find s.me.launchid.toNat).map (·.job)).getD 0, dst := d, src := x, count := n, desc := desc,
    side := side, ord := ord, ph := p, pts := if ord.acq then s.me.pts else 0, lease := s.me.lease.toNat,
    secure := s.secure s.cur.1, ring := none, published := true, word := 0#64, moved := false, joined := false,
    timeout := s.me.bartmo.toNat % 2 ^ 32 }

/-- The operation entered, and its first step due; the instruction is then sealed and pins an active region. -/
def issued (s : State) (o : EngOp) (first : Instr) : Out :=
  pinned ({ s with ops := s.ops.put s.nextOp o, nextOp := s.nextOp + 1 }.due first s.nextOp) s.me

/-- A command's operand, by its field (R192: the field is the register's number less 16). -/
def operand (s : State) (r : EngReg) : Dword := s.me.getX ⟨16 + r.val, by omega⟩

/-- A good local side: none, or an extent of its space (R10, R299). -/
def sideFits (s : State) (side : LocalSide) (off : Dword) (n : Nat) (write : Bool) : Prop :=
  match sideSpace side with
  | none => True
  | some space => extentCause s s.cur.1 space off.toNat n write = none

/-- What `.acq` does before the command leaves (R94): a release at its scope; nothing without it. -/
def acquires (s s1 : State) (ord : MemOrder) : Prop :=
  if ord.acq then EStateM.run (releaseMine ord.scope) s = .ok () s1 else s1 = s

/-- The instructions that take a descriptor: the kind, the descriptor's bytes, the first step, and the operands. -/
def described : Instr → Option (EngKind × Nat × Instr × EngReg × EngReg × EngReg × EngReg × MemOrder × LocalSide)
  | .copy2 d x c p ord side => some (.copy2, 32, .engineCompletion, d, x, c, p, ord, side)
  | .gath d x c p ord side => some (.gath, 16, .engineCompletion, d, x, c, p, ord, side)
  | .collAllred d x c p ord => some (.coll 0, 32, .collArrival, d, x, c, p, ord, .none)
  | .collRed d x c p ord => some (.coll 1, 32, .collArrival, d, x, c, p, ord, .none)
  | .collBcast d x c p ord => some (.coll 2, 32, .collArrival, d, x, c, p, ord, .none)
  | .collAllgath d x c p ord => some (.coll 3, 32, .collArrival, d, x, c, p, ord, .none)
  | .collRedscat d x c p ord => some (.coll 4, 32, .collArrival, d, x, c, p, ord, .none)
  | _ => none

end Sys2Proof.Claims

/-- R295, R299 to R302: a COPY, COPY2, GATH or COLL whose checks pass enters an operation with its operands, writes no register and
moves nothing yet; its core keeps at most 16 outstanding, and the command waits while there are 16. A ring copy reserves the slot
at PRES, and moves PRES on. A count of 2^32 or more, a side out of its extent, a bad descriptor address or handle traps. Some of what it says is the model's reading or
choice: assumption log, entry 37. -/
def Obligations.EngineCommands : Prop :=
  ∀ (s s1 : State) (d x c p : EngReg) (ord : MemOrder) (side : LocalSide) (r : PhRef), NoPort s → Whole s → isArith s.cur.1 = true →
    let n := operand s c
    let handle := operand s p
    (s.phaserRef s.cur.1 handle = some r →
      (n.toNat < 2 ^ 32 → sideFits s side (operand s x) n.toNat false →
        (16 ≤ s.outstanding s.cur.1 → exec (.copy d x c p ord side) s = .next s) ∧
        (s.outstanding s.cur.1 < 16 → acquires s s1 ord → NoPort s1 → s1.cur = s.cur →
          exec (.copy d x c p ord side) s =
            issued s1 (commandOf s1 .copy (operand s d) (operand s x) handle n.toNat [] side ord) .engineCompletion)) ∧
      (n.toNat < 2 ^ 32 → (side ≠ .sp ∨ (operand s d).msb = false) → sideFits s side (operand s d) n.toNat true →
        s.outstanding s.cur.1 < 16 → acquires s s1 ord → NoPort s1 → s1.cur = s.cur →
        exec (.copyIn d x c p ord side) s =
          issued s1 (commandOf s1 .copyIn (operand s d) (operand s x) handle n.toNat [] side ord) .engineCompletion) ∧
      (∀ h : Ring, n.toNat < 2 ^ 32 → operand s d = BitVec.ofNat 64 (2 ^ 63 + h.val) →
        let y := s.me.handle h
        y.ready = true → n.toNat ≤ y.slot → 1 ≤ s.roomOf s.cur.1 y → s.outstanding s.cur.1 < 16 → ord.acq = false →
        let o := { commandOf s .copyIn (operand s d) (operand s x) handle n.toNat [] .sp ord with
          ring := some (y.off, y.pres, y.base + y.pres.toNat % y.n * y.slot), published := false }
        exec (.copyIn d x c p ord .sp) s =
          pinned ({ s with ops := s.ops.put s.nextOp o, nextOp := s.nextOp + 1 }.due .engineCompletion s.nextOp)
            (s.me.setHandle h { y with pres := y.pres + 1#16 })) ∧
      (∀ (i : Instr) (kind : EngKind) (bytes : Nat) (first : Instr),
        described i = some (kind, bytes, first, d, x, c, p, ord, side) →
        n.toNat % 16 = 0 → n.toNat + bytes ≤ 2 ^ 18 → s.localBad s.cur.1 .sp n.toNat bytes = 0 →
        (s.outstanding s.cur.1 < 16 → acquires s s1 ord → NoPort s1 → s1.cur = s.cur →
          exec i s =
            issued s1
              (commandOf s1 kind (operand s d) (operand s x) handle 0 (s.localBytes s.cur.1 .sp n.toNat bytes) side ord)
              first) ∧
        (16 ≤ s.outstanding s.cur.1 → exec i s = .next s))) ∧
    (2 ^ 32 ≤ n.toNat →
      exec (.copy d x c p ord side) s = trapped s 0x06 n ∧ exec (.copyIn d x c p ord side) s = trapped s 0x06 n) ∧
    (∀ (i : Instr) (kind : EngKind) (bytes : Nat) (first : Instr),
      described i = some (kind, bytes, first, d, x, c, p, ord, side) →
      (n.toNat % 16 ≠ 0 → exec i s = trapped s 0x03 n) ∧
      (n.toNat % 16 = 0 → 2 ^ 18 < n.toNat + bytes → exec i s = trapped s 0x06 n) ∧
      (n.toNat % 16 = 0 → n.toNat + bytes ≤ 2 ^ 18 → s.localBad s.cur.1 .sp n.toNat bytes = 0 →
        s.phaserRef s.cur.1 handle = none → exec i s = trapped s 0x06 handle))

/-- R306, R307, R328: DEPO puts its value into the mailbox of the core it names. SLCALL answers 0 where its call is queued, and 1,
queueing nothing, where 32 wait or have a place. SLPUSH, on a sluice core, fills the producer slot of a ring, moves its PCNT on, and answers the
old one. Some of what it says is the model's reading or
choice: assumption log, entries 9, 23 and 36. -/
def Obligations.MessagesAndSluiceCalls : Prop :=
  ∀ (s s1 : State) (rd rs1 rs2 : XReg) (scope : Scope) (rel : Bool) (ord : MemOrder), NoPort s → Whole s →
      NoPort s1 → Whole s1 →
    (let w := (s.me.getX rs1).toNat
     let target := 256 * (w / 2 ^ 14 % 2 ^ 6) + w / 2 ^ 6 % 2 ^ 8
     w % 2 ^ 4 ≤ 10 → w / 2 ^ 29 = 0 → (w / 2 ^ 28 % 2 = 1 → w / 2 ^ 20 % 2 ^ 8 = 0xFF) →
      s.namesHere (w / 2 ^ 20 % 2 ^ 8) (w / 2 ^ 28 % 2 == 1) = true → s.coreDisabled target = false →
      (rel = true → inDomain s.cur.1 target scope = true) →
      (if rel then EStateM.run (releaseMine scope) s = .ok () s1 else s1 = s) →
      let dep : Deposit :=
        { ctx := w % 2 ^ 4, reg := Fin.ofNat 4 (w / 2 ^ 4 % 4), value := s.me.getX rs2,
          pts := if rel then some s1.me.pts else none,
          job := ((s1.launches.find s1.me.launchid.toNat).map (·.job)).getD 0 }
      exec (.depo rs1 rs2 scope rel) s =
        pinned ((s1.setCore target
          { s1.core target with mailbox := (s1.core target).mailbox ++ [dep] }).due .depositArrival target) s1.me) ∧
    (∀ (bs : List Byte) (r : PhRef),
      let blk := s.me.getX rs1
      let t := (s.me.getX rs2).toNat
      let core := sluiceCore (t / 16 % 64) (t % 16)
      let f := fun off => BitVec.ofNat 64 (natOfBytes ((bs.drop off).take 8))
      t < 2 ^ 10 → blk.toNat % 32 = 0 → EStateM.run (loadBytes .global blk 32) s = .ok bs s1 →
      s1.phaserRef s1.cur.1 (f 24) = some r → s1.outstanding s1.cur.1 < 16 →
      (32 ≤ (s1.core core).calls.length + (s1.core core).callsKept → exec (.slcall rd rs1 rs2 ord) s = pinned s1 (s1.me.setX rd 1#64)) ∧
      ((s1.core core).calls.length + (s1.core core).callsKept < 32 → ord.acq = false →
        let call : SluiceCall :=
          { block := blk, entry := f 0, arg0 := f 8, arg1 := f 16, ph := f 24,
            caller := BitVec.ofNat 64 (s1.coreIdWord s1.cur.1), unit := s1.me.unitid, rel := ord.rel, scope := ord.scope,
            pts := 0, secure := s1.secure s1.cur.1, ne := false }
        exec (.slcall rd rs1 rs2 ord) s =
          pinned ((s1.setCore core
            { s1.core core with calls := (s1.core core).calls ++ [call] }).due .sluiceCallStart core)
            (s1.me.setX rd 0#64))) ∧
    (isSluice s.cur.1 = false → exec (.slpush rd rs1 rs2 ord) s = trapped s 0x01 s.me.ir) ∧
    (∀ (shape : RingShape) (parts : List (List Byte × Nat × Nat)),
      let w := (s.me.getX rs2).toNat
      let off := w % 2 ^ 18
      let target := 256 * dieOf s.cur.1 + w / 2 ^ 18
      isSluice s.cur.1 = true → w < 2 ^ 26 → off % 16 = 0 → s.coreDisabled target = false →
      s.ringShape target off = some shape →
      s.fill target off + s.unpublished s.cur.1 (s.me.getX rs2) < shape.n → ord.acq = false → ord.rel = false →
      EStateM.run (do
        for p in ← sitesOf .global (s.me.getX rs1) (s.me.getX rs1) shape.slot do
          let _ ← homeOf (s.coreAgent s.myKey) p.1 .read
        let pts := (← me).pts
        let sites ← sitesOf .global (s.me.getX rs1) (s.me.getX rs1) shape.slot
        sites.mapM fun (p : Site × Nat) => weakLoad (s.coreAgent s.myKey) p.1 .read p.2 pts) s = .ok parts s1 →
      (∀ p ∈ parts, p.2.1 = 0) →
      exec (.slpush rd rs1 rs2 ord) s =
        sealedAs
          ((s1.store (spBase target + (shape.base + s.pcnt target off % shape.n * shape.slot))
            (parts.flatMap Prod.fst)).advancePcnt target off 1)
          ({ s1.me with pts := (parts.map fun (p : List Byte × Nat × Nat) => p.2.2).foldl max s1.me.pts }.setX rd
            (BitVec.ofNat 64 (s.pcnt target off))))

/-- R94, R297, R308: an operation that is done leaves its engine, subtracts its bytes at its phaser, or arrives there, and its word
carries its kind, its unit and what it met. R299: a ring copy publishes in the order of the reservations. R303: a COLL with a bad
descriptor ends with XF; a member whose timer ends poisons its instance, whose members end with TO. R306: a sluice core that is
free starts its oldest call. R36, R328: a deposit takes an entry of the settling pan, behind the packets of its context, where one is free at the end of a cycle;
`PipeEnds` says how the pan writes it. Some of what it says is the model's reading or
choice: assumption log, entries 5, 15 and 37. -/
def Obligations.EngineSteps : Prop :=
  ∀ (s : State) (n : Nat) (o : EngOp), s.subject.place = n →
    (s.ops.find n = none → exec .engineCompletion s = .next s ∧ exec .collArrival s = .next s ∧
      exec .collTimeout s = .next s ∧ exec .ringCopyPublish s = .next s) ∧
    (s.ops.find n = some o →
      (o.moved = true → o.published = true → o.ord.rel = false → s.barriers = [] →
        (∀ e ∈ s.dies, e.2.command = none) → o.kind = .copy ∨ o.kind = .copyIn ∨ o.kind = .slcall →
        let arrival := o.kind == .slcall
        let code := if o.kind = .slcall then 5 else 1
        let word := o.word ||| BitVec.ofNat 64 (code * 2 ^ 12) ||| BitVec.ofNat 64 (o.unit.toNat * 2 ^ 32)
        let t := (State.phComplete { s with ops := s.ops.erase n } (s.refOf o.ph) (if arrival then 0 else o.count) arrival word
          o.pts).settleColls o.job
        t.barriers = [] → (∀ e ∈ t.dies, e.2.command = none) → exec .engineCompletion s = .next t) ∧
      (o.moved = true → o.published = false → exec .engineCompletion s = .next (s.due .ringCopyPublish n)) ∧
      (∀ (o' : EngOp) (s1 s2 : State), o.kind = .copy ∨ o.kind = .copyIn ∨ o.kind = .copy2 ∨ o.kind = .gath →
        o.moved = false → o'.published = true → EStateM.run (performMove o) s = .ok o' s1 →
        EStateM.run (completeOp n { o' with moved := true }) { s1 with ops := s1.ops.put n { o' with moved := true } } =
          .ok () s2 →
        exec .engineCompletion s = .next s2) ∧
      (o.joined = false → collOk o.desc = false → s.colls = [] →
        let inst : CollInst :=
          { job := o.job, group := natOfBytes (o.desc.take 4), number := 0, members := [],
            who := [(o.launch, o.unit.toNat, if o.unit = 0#64 then o.core else 0)], failed := true, poisoned := false,
            complete := false }
        exec .collArrival s =
          .next (State.endMember { s with ops := s.ops.put n { o with joined := true }, colls := [inst] } n 0x402)) ∧
      (o.joined = false → collOk o.desc = true → s.colls = [] →
        let alone := decide (natOfBytes ((o.desc.drop 4).take 2) = 1)
        let inst : CollInst :=
          { job := o.job, group := natOfBytes (o.desc.take 4), number := 0, members := [n],
            who := [(o.launch, o.unit.toNat, if o.unit = 0#64 then o.core else 0)], failed := false, poisoned := false,
            complete := alone }
        let t := { s with ops := s.ops.put n { o with joined := true }, colls := [inst] }
        exec .collArrival s = .next (if alone then t.due .engineCompletion n else t)) ∧
      (∀ c : CollInst, s.colls = [c] → c.members.contains n = true → c.complete = false → 0 < o.timeout →
        exec .collTimeout s =
          .next (c.members.foldl (fun t m => t.endMember m 0x202) { s with colls := [{ c with poisoned := true, members := [] }] })) ∧
      (∀ (off slot : Nat) (count : BitVec 16), o.ring = some (off, count, slot) → o.moved = true → o.published = false →
        s.earlierRing o off count = false →
        (∀ e ∈ s.ops.put n { o with published := true }, e.2.published = true) →
        let t := ({ s with ops := s.ops.put n { o with published := true } }.advancePcnt o.core off 1).due .engineCompletion n
        exec .ringCopyPublish s = .next t)) ∧
    (∀ (call : SluiceCall) (rest : List SluiceCall), (s.core n).running = none → (s.core n).calls = call :: rest →
      ∃ t : State, exec .sluiceCallStart s = .next t ∧ (t.core n).running = some call ∧ (t.core n).calls = rest ∧
        let c := t.ctxAt (ctxKey n 0)
        c.status = .running ∧ c.pc = call.entry ∧ c.getX 4 = call.block ∧ c.getX 5 = call.arg0 ∧ c.getX 6 = call.arg1 ∧
          c.getX 7 = call.caller ∧ (∀ r : XReg, r.val < 4 ∨ 7 < r.val → c.getX r = 0#64) ∧
          c.pts = max (s.ctxAt (ctxKey n 0)).pts call.pts ∧ t.mem = s.mem) ∧
    (∀ (dep : Deposit) (rest : List Deposit), (s.core n).mailbox = dep :: rest → (s.die (dieOf n)).saved = [] →
      let p := s.pipe n
      let e : PanEntry :=
        { ctx := dep.ctx, seq := (p.ctxOf dep.ctx).nextSeq, reg := 56 + dep.reg.val, value := some dep.value.toNat, ready := false,
          external := true, pts := dep.pts, word := none };
      (p.upMade = false → p.pan.length < 16 → p.accepted = false →
        exec .depositArrival s =
          .next (((s.setCore n { s.core n with mailbox := rest }).setPipe n
            { p with pan := p.pan ++ [e], accepted := true }).due .panWrite n)) ∧
      (p.upMade = true ∨ 16 ≤ p.pan.length → exec .depositArrival s = .next s))

/-! ## Work, launches and ring waits (R139 to R152, R163, R164) -/

/-- R139, R140, R142, R164: a launch at its TICK starts on every core its dies leave enabled, its control contexts at ENTRY with x3
its stack, x4 its descriptor and x5 its arguments; its start is due once MTIME reaches TICK. One whose counter is at zero, and the
root of whose completion tree has its word, completes and passes it on. R163: a node reports once its own part and its children are
done; the root's report makes the completion due. Some of what it says is the model's reading or
choice: assumption log, entries 36 and 38. -/
def Obligations.LaunchSteps : Prop :=
  ∀ (s : State) (l : Launch),
    let id := s.subject.place
    (s.launches.find id = none → exec .launchTickStart s = .next s ∧ exec .launchComplete s = .next s) ∧
    (s.launches.find id = some l →
      (l.started = false → 0 < l.tick → l.tick ≤ s.mtime → l.preds = 0 →
        exec .launchTickStart s = .next (s.startLaunch id)) ∧
      (l.started = true ∨ s.mtime < l.tick → exec .launchTickStart s = .next s) ∧
      (∀ c : Counter, s.counter .launch id = some c → s.subject.flag = false →
        0 < c.count ∨ l.started = true ∧ l.treeDone s = false → exec .launchComplete s = .next s) ∧
      (∀ c : Counter, s.counter .launch id = some c → s.subject.flag = false → c.count = 0 → c.complete = false →
        l.started = false ∨ l.treeDone s = true → l.succ = 0#64 →
        exec .launchComplete s =
          .next (((s.fit.filter fun (e : Nat × FitSlot) => e.2.launch == id).foldl (fun (t : State) (e : Nat × FitSlot) => t.due .sampleArrival (e.1 / 16))
            { s with fit := s.fit.filter fun (e : Nat × FitSlot) => e.2.launch != id }).settle 4 .launch id)) ∧
      (∀ core : Nat, l.started = false → s.cancelled id = false → s.coresOf l = [core] → core < 16384 →
        ∃ t : State, s.startLaunch id = t ∧
          let c := t.ctxAt (ctxKey core 0)
          c.status = .running ∧ c.pc = l.entry ∧ c.getX 3 = l.stackTop core 0 ∧ c.getX 4 = l.desc ∧ c.getX 5 = l.args ∧
            c.launchid = BitVec.ofNat 64 id ∧ c.trapvec = 0#64 ∧ c.trapcause = 0#64 ∧ c.lease = 32#64 ∧ c.getX 6 = 0#64 ∧
            (t.launches.find id).map (·.started) = some true ∧ t.mem = s.mem)) ∧
    (∀ l : Launch, s.launches.find s.subject.index = some l →
      let core := s.subject.place
      let c := s.ctxAt (ctxKey core 0)
      (s.coresOf l).filter (fun x => Launch.parent s l 4096 x == some core) = [] → c.status = .idle ∨ c.status = .fatal →
      let word := if c.status = .fatal then 0x10002#64 else 0x10001#64
      let t := { s with launches := s.launches.put s.subject.index { l with reports := l.reports.put core word } }
      exec .treeReport s = .next (match Launch.parent s l 4096 core with
        | some p => t.due .treeReport p s.subject.index
        | none => t.due .launchComplete s.subject.index)) ∧
    (let now := (s.mtime + Config.elapsed s.free) % 2 ^ 64
     s.tick.mtime = now ∧ ∀ x : Due, x ∈ s.tick.agenda ↔ x ∈ s.agenda ∨
       ∃ e ∈ s.launches, e.2.started = false ∧ s.mtime < e.2.tick ∧ e.2.tick ≤ now ∧
         x = ⟨.launchTickStart, { Subject.nothing with place := e.1 }⟩)

/-- R146 to R148, R155: a record reaches the FIFO its bytes name, or ends there where its launch is cancelled; a helper that an entry
waits for starts it, and a helper whose home segment has nothing for it takes an unbound entry of the next segment that has one.
R154, R309: an answer ends the wait and fills the pan entry that its instruction took, or, outside the pipe, is written to its register;
one that a pre-emption has forestalled is held for the context's record (R361).
R64: a port moves a piece of 32 bytes, or what is left of one, between its ring and its staging buffer. R152: a ring watcher whose slots are there
releases its entry and enqueues its record again; a helper's CBWAIT that has stood long enough folds its unit and sets a watcher. Some of what it says is the model's reading or
choice: assumption log, entries 13, 14, 25 and 36. -/
def Obligations.QueueSteps : Prop :=
  (∀ (s : State),
     let j := s.subject
     (∀ (k : Nat) (rd : Option XReg), k = ctxKey j.place j.index → (s.ctxAt k).status = .waiting .answer rd →
       (s.ctxAt k).anyPort = false →
       let a := { s.ctxAt k with status := .running }
       let c := match rd with
         | some r => a.setX r j.value
         | none => a
       ((s.core (k / 16)).preempted = true →
         exec .answerArrival s = .next ((s.setCtxAt k a).holdAnswer k rd j.value (if j.flag then some j.addr else none))) ∧
       ((s.core (k / 16)).preempted = false → ((s.pipe (k / 16)).ctxOf (k % 16)).awaiting = none →
         exec .answerArrival s = .next (s.setCtxAt k (if j.flag then merged c j.addr else c))) ∧
       (∀ seq : Nat, (s.core (k / 16)).preempted = false → ((s.pipe (k / 16)).ctxOf (k % 16)).awaiting = some seq →
         exec .answerArrival s =
           .next ((s.setCtxAt k a).fillAnswer (k / 16) (k % 16) seq j.value (if j.flag then some j.addr else none)))) ∧
     (∀ (core n seq : Nat) (v : Dword) (word : Option Dword),
       let p := s.pipe core
       let mine := fun e : PanEntry => e.ctx == n && e.seq == seq && !e.external;
       p.pan.any mine = true →
       (s.fillAnswer core n seq v word).pipe core =
         { p with
           pan := p.pan.map fun e => if mine e then { e with value := some v.toNat, word := word } else e,
           ctxs := p.ctxs.put n { p.ctxOf n with awaiting := none } }) ∧
     (∀ (home : Nat) (l : Loc) (bs : List Byte) (x : Nat) (s1 : State), route s j.addr = some l → l.place = home →
       EStateM.run (strongBytes (niAgent home true) j.addr 56 j.value.toNat) s = .ok (bs, x) s1 →
       let f := fun off n => natOfBytes ((bs.drop off).take n)
       (s1.cancelled (f 32 4) = true → exec .enqueue s = .next (s1.endItem (f 32 4))) ∧
       (s1.cancelled (f 32 4) = false →
         exec .enqueue s =
           .next (s1.join (f 20 2 / 2 ^ 10 % 2 ^ 6) (f 20 2 / 2 ^ 6 % 2 ^ 4) (f 22 1 % 4)
             { record := j.addr, rpts := max j.value.toNat (f 48 6), stamp := 0, hint := f 20 2 % 64, launch := f 32 4,
               graph := f 36 4, phase := f 40 4, job := f 44 4 }))) ∧
     (let cores := (List.range 16).map fun i => coreAtSlot (16 * j.place + j.index) i
      let choice := cores.findSome? fun c => ((List.range 11).find? fun h => s.wants c h).map fun h => (c, h)
      (j.flag = false → choice = none → exec .autoPop s = .next s) ∧
       ∀ (core h : Nat) (e : QEntry) (s1 s2 : State), j.flag = false → choice = some (core, h) →
         (s.pop j.place j.index core false = (none, s1) → exec .autoPop s = .next s1) ∧
         (s.pop j.place j.index core false = (some e, s1) →
           EStateM.run (startUnit (ctxKey core h) e.record e.rpts) s1 = .ok () s2 →
           exec .autoPop s = .next (s2.offer j.place j.index))) ∧
     (let d := dieOf j.place
      let seg := clusterOf j.place % 16
      let free := s.wants j.place j.index && !s.hot (clusterOf j.place) &&
         ((s.die d).head seg fun e => e.eligible (clusterOf j.place) false false).isNone
      let next := (List.range 15).find? fun i => ((s.die d).head ((seg + 1 + i) % 16) fun e => e.eligible 0 false true).isSome
      ((free = false ∨ next = none) → exec .steal s = .next s) ∧
       ∀ (i : Nat) (e : QEntry) (s1 s2 : State), free = true → next = some i →
         s.pop d ((seg + 1 + i) % 16) j.place true = (some e, s1) →
         EStateM.run (startUnit (ctxKey j.place j.index) e.record e.rpts) s1 = .ok () s2 →
         exec .steal s = .next s2) ∧
     (∀ (d seg core : Nat) (e : QEntry) (rest : List QEntry) (thief : Bool), s.hot (clusterOf core) = false → e.hint < 32 →
       seg < 16 → (s.die d).fifos = [(4 * seg + 3, e :: rest)] → (s.die d).spill = [] →
       ∃ t : State, s.pop d seg core thief = (some e, t) ∧ (t.die d).fifos.get [] (4 * seg + 3) = rest ∧
         (t.die d).pops.get 0 seg = (s.die d).pops.get 0 seg + 1)) ∧
  (∀ (s : State),
     let core := s.subject.place
     let k := ctxKey core s.subject.index
     (∀ (p : Port) (q : PortSt) (h : Handle), s.subject.index < 16 → p = Fin.ofNat 4 s.subject.value.toNat → (s.ctxAt k).port p = q →
       (s.ctxAt k).handle q.ring = h →
       (q.bound = false → exec .portStagingTransfer s = .next s) ∧
       (q.bound = true → q.dir = .read → q.staged = [] → s.fill core h.off ≤ h.n → q.pos / h.slot < s.fill core h.off →
         exec .portStagingTransfer s =
           .next (s.setCtxAt k ((s.ctxAt k).setPort p
             { q with
               staged := s.bytes (spBase core +
                 (h.base + (s.ccnt core h.off + q.pos / h.slot) % h.n * h.slot + q.pos % h.slot)) (32 - q.pos % 32) }))) ∧
       (q.bound = true → q.dir = .write → q.staged.length = 32 → s.fill core h.off < h.n → q.pos ≠ h.slot →
         exec .portStagingTransfer s =
           .next ((s.store (spBase core + (h.base + s.pcnt core h.off % h.n * h.slot + (q.pos - 32))) q.staged).setCtxAt k
             ((s.ctxAt k).setPort p { q with staged := [] })))) ∧
     (let met := fun w : Watcher => w.off == s.subject.index && decide (w.n ≤ s.fill core s.subject.index)
      exec .ringWatcherSatisfied s =
       .next (((s.core core).watchers.filter met).foldl (fun t w => (t.freeEntry core otherWait).requeue w.record w.pts)
         (s.setCore core { s.core core with watchers := (s.core core).watchers.filter fun w => !met w }))) ∧
     (s.subject.index < 16 → (s.pipe core).cbwaits s.subject.index = false →
       s.runs k = false ∨ 8 ≤ (s.core core).watchers.length → exec .cbwaitSuspendTimeout s = .next s) ∧
     (∀ (h : Ring) (imm : BitVec 6) (s1 s2 : State) (record : Dword) (pts : Nat), s.subject.index < 16 →
       (s.pipe core).cbwaits s.subject.index = false → s.runs k = true →
       (s.core core).watchers.length < 8 →
       let here := { s with cur := (core, s.subject.index) }
       EStateM.run fetch here = .ok (.cbwait h 0 imm) s1 → (s1.me.handle h).ready = true →
       s1.fill s1.cur.1 (s1.me.handle h).off < imm.toNat → s1.maySuspend otherWait = true →
       EStateM.run (foldUnit (s.ctxAt k).pc none (BitVec.ofNat 64 (s1.me.handle h).off)) here = .ok (some (record, pts)) s2 →
       let t := { s2 with cur := s.cur }.useEntry core otherWait
       exec .cbwaitSuspendTimeout s =
         .next (t.setCore core
           { t.core core with
             watchers := (t.core core).watchers ++
               [{ off := (s1.me.handle h).off, n := imm.toNat, record := record, pts := pts }] })))

/-! ## LAUNCHQ, pre-emption and the rebase (R355 to R365, R385) -/

/-- R355 to R357, R362, R365, R385: while a command is in progress every other is answered with code 6. A submission whose descriptor is
good is accepted with code 1, a bad one is refused with 3; commands 4 to 63 are refused with 2; a bad image with 5, a rebase that is not
ready with 4. A pre-emption shows BUSY, reaches every core of the job and is quiesced; a resume runs its image's contexts; a
rebase leaves no copy, every time at 0 and the epoch one more, and performs the sealed effects that were held at the time horizon. LQSTAT shows the code, BUSY and the address. Some of what it says is the model's reading or
choice: assumption log, entries 28 and 36. -/
def Obligations.LaunchCommands : Prop :=
  ∀ (s s1 : State),
    let j := s.subject
    let d := j.place
    let v := j.value
    ((s.die d).command ≠ none →
      exec .launchqSubmit s = .next (s.lqstat d 6 true v) ∧ exec .launchqPreempt s = .next (s.lqstat d 6 true v) ∧
      exec .launchqResume s = .next (s.lqstat d 6 true v) ∧ exec .launchqRebase s = .next (s.lqstat d 6 true v) ∧
      exec .launchqUnknown s = .next (s.lqstat d 6 true v)) ∧
    ((s.die d).command = none →
      exec .launchqUnknown s = .next (s.lqstat d 2 false v) ∧
      (∀ (bs : List Byte) (x : Nat), EStateM.run (strongBytes (niAgent d j.flag) (v &&& ~~~0x3F#64) 128 0) s = .ok (bs, x) s1 →
        exec .launchqSubmit s =
          .next (if descriptorOk bs then (s1.accept d (v &&& ~~~0x3F#64) bs).lqstat d 1 false (v &&& ~~~0x3F#64)
            else s1.lqstat d 3 false (v &&& ~~~0x3F#64))) ∧
      ((v.toNat / 2 ^ 6 % 2 ^ 10 ≠ 0 ∨ s.kindZero (v &&& ~~~0xFFFF#64) = false) →
        exec .launchqPreempt s = .next (s.lqstat d 5 false v)) ∧
      (v.toNat / 2 ^ 6 % 2 ^ 10 = 0 → s.kindZero (v &&& ~~~0xFFFF#64) = true →
        (s.dieJob d = none → exec .launchqPreempt s = .next ((s.beginCommand d v).due .quiesce d)) ∧
        (∀ job, s.dieJob d = some job →
          exec .launchqPreempt s =
            .next (((s.jobCores d job).foldl (fun t c => t.due .preemptArrival c) (s.beginCommand d v)).due .quiesce d))) ∧
      ((v.toNat / 2 ^ 7 % 2 ^ 9 ≠ 0 ∨ s.kindZero (v &&& ~~~0xFFFF#64) = false) →
        exec .launchqResume s = .next (s.lqstat d 5 false v)) ∧
      (v.toNat / 2 ^ 7 % 2 ^ 9 = 0 → s.kindZero (v &&& ~~~0xFFFF#64) = true →
        ∃ t : State, EStateM.run (carryOut d (resumeDie d v)) (s.beginCommand d v) = .ok () t ∧
          exec .launchqResume s = .next t) ∧
      (v.toNat / 2 ^ 6 ≠ 0 → exec .launchqRebase s = .next (s.lqstat d 5 false v)) ∧
      (v.toNat / 2 ^ 6 = 0 → (d ≠ 0 ∨ s.rebaseReady = false) → exec .launchqRebase s = .next (s.lqstat d 4 false v)) ∧
      (v.toNat / 2 ^ 6 = 0 → d = 0 → s.rebaseReady = true → s.brine = [] → (∀ e ∈ s.copies, e.2.dirty = 0) →
        (∀ h ∈ s.allHolds, h.horizon = true → ∃ c n q also, h.who = .packet c n q also) →
        ∃ t : State, exec .launchqRebase s = .next t ∧ t.copies = [] ∧ t.frames = [] ∧ t.times = [] ∧
          t.epoch = (s.epoch + 1) % 2 ^ 32 ∧ t.mem = s.mem ∧ (∀ o ∈ t.ops, o.2.pts = 0) ∧
          (∀ e ∈ t.cores, ∀ o ∈ e.2.outbound, o.view.pts = 0) ∧
          (∀ h ∈ s.allHolds, h.horizon = true → Turn.retry h.who [] ∈ t.turns) ∧ (t.die 0).command = none)) ∧
    ((s.die d).command = none → exec .quiesce s = .next s) ∧
    (∀ c : Dword, (s.die d).command = some c → c.toNat % 2 ^ 6 = 1 →
      ((∃ x ∈ s.agenda, x.step ≠ .quiesce) → exec .quiesce s = .next (s.due .quiesce d)) ∧
      ((∀ x ∈ s.agenda, x.step = .quiesce) → s.dieJob d = none →
        (s.unquiet d [] = true → exec .quiesce s = .next s) ∧
        (s.unquiet d [] = false →
          ∃ t : State, EStateM.run (carryOut d (saveDie d c)) s = .ok () t ∧ exec .quiesce s = .next t))) ∧
    (∀ c : Dword, (s.die d).command = some c → c.toNat % 2 ^ 6 = 2 →
      ∃ t : State, EStateM.run (carryOut d (resumeDie d c)) s = .ok () t ∧ exec .quiesce s = .next t) ∧
    (∀ c : Dword, (s.die d).command = some c → c.toNat % 2 ^ 6 = 3 →
      ∃ t : State, EStateM.run (carryOut d (rebase c)) s = .ok () t ∧ exec .quiesce s = .next t) ∧
    (∀ m : Mach Unit, EStateM.run m s = .ok () s1 → EStateM.run (carryOut d m) s = .ok () s1) ∧
    (∃ t : State, exec .preemptArrival s = .next t ∧ (t.core d).preempted = true ∧
      (∀ n < 11, (t.ctxAt (ctxKey d n)).pending = none ∧ (t.ctxAt (ctxKey d n)).fills = [])) ∧
    (∀ (code : Nat) (busy : Bool), d < 64 → code < 16 →
      (s.lqstat d code busy v).dieReg d 0x248 = BitVec.ofNat 64 (code + busy.toNat * 16 + v.toNat / 64 * 64))

/-! ## Safety nets (R110 to R123, R319 to R321, R349) -/

/-- R110, R117 to R121, R320, R321, R348, R392: with the variant's bit clear the four net instructions trap with cause 0x09. NET.OPEN of a
good range releases at `.mod` and waits for the registry; NET.KEEP answers 0, 1 or 2, and a net kept passes its shadows on;
NET.DROP answers 0 or 1, and the net with its open descendants closes and is dropped at every home of their ranges; a net that
another has claimed answers 1; NET.STAT answers R121's word. While a DROP of the context is not complete its OPEN, its KEEP and its
DROP stay in the pipe. Some of what it says is the model's reading or choice: assumption log, entries 26 and 42. -/
def Obligations.NetInstructions : Prop :=
  ∀ (s s1 : State) (rd rs1 rs2 : XReg), NoPort s → Whole s → isArith s.cur.1 = true →
    let a := s.me.getX rs1
    let b := s.me.getX rs2
    let h := a.toNat % 256
    let given := fun v : Dword => s.setMe (s.me.setX rd v)
    let ph := if rs2 = 0 then none else some b
    (s.feature.getLsbD 1 = false →
      exec (.netOpen rd rs1 rs2) s = trapped s 0x09 s.me.ir ∧ exec (.netKeep rd rs1) s = trapped s 0x09 s.me.ir ∧
      exec (.netDrop rd rs1 rs2) s = trapped s 0x09 s.me.ir ∧ exec (.netStat rd rs1) s = trapped s 0x09 s.me.ir) ∧
    (s.feature.getLsbD 1 = true →
      (a.toNat % 4096 ≠ 0 → exec (.netOpen rd rs1 rs2) s = trapped s 0x03 a) ∧
      (a.toNat % 4096 = 0 → b.toNat % 4096 ≠ 0 → exec (.netOpen rd rs1 rs2) s = trapped s 0x03 a) ∧
      (a.toNat % 4096 = 0 → b.toNat % 4096 = 0 → (b.toNat = 0 ∨ 2 ^ 36 < b.toNat) →
        exec (.netOpen rd rs1 rs2) s = trapped s 0x06 a) ∧
      (a.toNat % 4096 = 0 → b.toNat % 4096 = 0 → 0 < b.toNat → b.toNat ≤ 2 ^ 36 →
        (s.kindZero a = false ∨ 2 ^ 54 < a.toNat % 2 ^ 54 + b.toNat) → exec (.netOpen rd rs1 rs2) s = trapped s 0x06 a) ∧
      (a.toNat % 4096 = 0 → b.toNat % 4096 = 0 → 0 < b.toNat → b.toNat ≤ 2 ^ 36 → s.kindZero a = true →
        a.toNat % 2 ^ 54 + b.toNat ≤ 2 ^ 54 →
        (s.awaitsDrop s.myKey = true → exec (.netOpen rd rs1 rs2) s = .next s) ∧
        (s.awaitsDrop s.myKey = false → EStateM.run (releaseMine .mod) s = .ok () s1 → NoPort s1 → s1.cur = s.cur →
          exec (.netOpen rd rs1 rs2) s =
            sealedAs ((s1.pinActive s1.myKey).due .netOpenRecord s.cur.1 s.cur.2)
              { s1.me with status := .waiting (.netOpen a b) (some rd) })) ∧
      (rs2 ≠ 0 → s.phaserRef s.cur.1 b = none → exec (.netDrop rd rs1 rs2) s = trapped s 0x06 b) ∧
      (s.nets.find h = none → exec (.netStat rd rs1) s = pinned s (s.me.setX rd 0#64)) ∧
      ((∀ n, s.nets.find h = some n → n.isOpen = false ∨ n.claimed ≠ none) →
        exec (.netKeep rd rs1) s = pinned s (s.me.setX rd 1#64) ∧
        ((rs2 = 0 ∨ ∃ r, s.phaserRef s.cur.1 b = some r) → exec (.netDrop rd rs1 rs2) s = pinned s (s.me.setX rd 1#64))) ∧
      (∀ n : Net, s.nets.find h = some n →
        (let code := match n.state with
          | .opened => 1
          | .broken => 2
          | .dropping => 3
         exec (.netStat rd rs1) s =
          pinned s (s.me.setX rd (BitVec.ofNat 64
            (code + n.depth * 8 + n.parent * 64 + (s.shadows.filter fun w => w.net == h && !w.lazy).length * 2 ^ 32)))) ∧
        (n.isOpen = true → n.claimed = none →
          (s.childFor h s.myKey = true → exec (.netKeep rd rs1) s = pinned s (s.me.setX rd 2#64)) ∧
          (s.awaitsDrop s.myKey = true →
            (s.childFor h s.myKey = false → exec (.netKeep rd rs1) s = .next s) ∧ exec (.netDrop rd rs1 0) s = .next s) ∧
          (∀ n1, s.awaitsDrop s.myKey = false → EStateM.run (releaseMine .mod) (given 0#64) = .ok () s1 → NoPort s1 →
            s1.nets.find h = some n1 → n1.isOpen = true →
            (s.childFor h s.myKey = false → s1.hasChild h = false →
              exec (.netKeep rd rs1) s = pinned ((s1.keepNet h).netGone) s1.me) ∧
            ((rs2 = 0 ∨ ∃ r, s.phaserRef s.cur.1 b = some r) →
              let kin := (s1.family h).filter fun e => e.2.isOpen
              let homes := homesOfNets kin
              let closed := fun (e : Nat × Net) =>
                let n := { e.2 with state := NetState.dropping, dropOf := h }
                if e.1 = h then { n with homes := homes, phaser := ph, unit := s1.me.unitid, issuer := s1.myKey, pts := s1.me.pts } else n
              let t := kin.foldl (fun (t : State) e => { t with nets := t.nets.put e.1 (closed e) }) s1
              exec (.netDrop rd rs1 rs2) s =
                pinned (homes.foldl (fun t d => t.due .netDropHomeArrival d h) t) s1.me)))))

/-- R111, R112, R116, R119 to R122: the registry answers an open with why not, or enters the net and sends the open to every home of its
range; each home harvests the range's grains and records the net in a step of its own, and the last to do so has the issuer
answered. A drop discards the partials of a home's Brine grains and reports home by home; when the last has reported the oldest
shadow of each line is restored at one time, the handles are free and the phaser is signalled; a time past the horizon waits for the
rebase. Some of what it says is the model's reading or choice: assumption log, entries 26 and 42. -/
def Obligations.NetSteps : Prop :=
  ∀ (s s1 : State),
    let j := s.subject
    (∀ (base len : Dword) (rd : Option XReg), j.flag = false →
      (s.ctxAt (ctxKey j.place j.index)).status = .waiting (.netOpen base len) rd →
      let k := ctxKey j.place j.index
      let key := base.toNat % 2 ^ 54
      let n := len.toNat
      let above := s.netsOver key n
      let parent := youngest above
      let depth := ((parent.map fun p => p.2.depth).getD 0) + 1
      let line := (parent.map fun p => s.lineage netLevels p.1).getD []
      let refuse := fun (t : State) (why : Nat) => t.answer k (.netOpen base len) (BitVec.ofNat 64 (why * 256)) 0#64 false
      ((s.openEntered k = true ∨ ∃ e ∈ s.nets, e.2.isOpen = false ∧ rangesMeet e.2.baseKey e.2.len key n = true) →
        exec .netOpenRecord s = .next s) ∧
      (s.openEntered k = false → (∀ e ∈ s.nets, e.2.isOpen = true ∨ rangesMeet e.2.baseKey e.2.len key n = false) →
        (s.freeHandle = none → exec .netOpenRecord s = .next (refuse s 1)) ∧
        (∀ h, s.freeHandle = some h →
          (4 < depth → exec .netOpenRecord s = .next (refuse s 2)) ∧
          (depth ≤ 4 → (∃ e ∈ above, e.1 ∉ line) → exec .netOpenRecord s = .next (refuse s 3)) ∧
          (depth ≤ 4 → (∀ e ∈ above, e.1 ∈ line) →
            let net : Net :=
              { state := .opened, base := base, len := n, parent := (parent.map Prod.fst).getD 0, depth := depth,
                brokenAt := [], age := s.nets.foldl (fun m e => max m e.2.age) 0 + 1, claimed := none, recorded := [], dropOf := 0,
                homes := [], phaser := none, unit := 0#64, issuer := k, pts := 0 }
            exec .netOpenRecord s =
              .next ((homesOfNets [(h, net)]).foldl (fun t d =>
                t.dueAt .netOpenRecord { place := d, index := h, addr := base, value := BitVec.ofNat 64 k, flag := true })
                { s with nets := s.nets.put h net }))))) ∧
    (∀ n : Net, j.flag = true → s.nets.find j.index = some n → n.issuer = j.value.toNat → n.base = j.addr → j.place ∉ n.recorded →
      let here := (s.brineIn n.baseKey n.len).filter fun e => e.1 / 2 ^ 48 == j.place
      let wait := Wait.netOpen j.addr (BitVec.ofNat 64 n.len)
      (∀ n1 : Net, EStateM.run (harvestAll here) s = .ok true s1 → s1.nets.find j.index = some n1 →
        let net := { n1 with recorded := j.place :: n1.recorded }
        let t := { s1 with nets := s1.nets.put j.index net }
        exec .netOpenRecord s =
          .next (if ∀ d ∈ homesOfNets [(j.index, net)], d ∈ net.recorded then
              t.answer j.value.toNat wait (BitVec.ofNat 64 j.index) 0#64 false
            else t)) ∧
      (EStateM.run (harvestAll here) s = .ok false s1 →
        exec .netOpenRecord s =
          .next ((s1.withdrawNet j.index).answer j.value.toNat wait (BitVec.ofNat 64 (4 * 256)) 0#64 false).netGone)) ∧
    (∀ n : Net, s.nets.find j.index = some n →
      let grains := ((s.dropped j.index).flatMap fun e => s.brineIn e.2.baseKey e.2.len).filter fun g => g.1 / 2 ^ 48 == j.place
      (j.place ∉ n.homes → exec .netDropHomeArrival s = .next s) ∧
      (j.place ∈ n.homes → grains = [] →
        let homes := n.homes.filter (· != j.place)
        let t := { s with nets := s.nets.put j.index { n with homes := homes } }
        exec .netDropHomeArrival s = .next (if homes = [] then t.due .netDropComplete j.index else t)) ∧
      (∀ (key : Nat) (e : BrineEntry), j.place ∈ n.homes → grains = [(key, e)] →
        let subject := { Subject.nothing with place := j.place, index := j.index, addr := BitVec.ofNat 64 key }
        (e.state = .brine →
          exec .netDropHomeArrival s =
            .next ({ s with brine := s.brine.put key { e with state := .discarding } }.dueAt .brineDiscardComplete subject)) ∧
        (e.state = .harvesting → e.holders = [] → exec .netDropHomeArrival s = .next (s.dueAt .harvestMerge subject)) ∧
        ((e.state = .harvesting ∧ e.holders ≠ [] ∨ e.state = .discarding) → exec .netDropHomeArrival s = .next s))) ∧
    (∀ n : Net, s.nets.find j.place = some n →
      let ends := fun (t : State) (time : Nat) (bad : Bool) =>
        let kin := t.dropped j.place
        let u := { t with
          shadows := t.shadows.filter fun (w : Shadow) => w.lazy || !(kin.any fun e => e.1 == w.net)
          nets := t.nets.filter fun (e : Nat × Net) => !(kin.any fun x => x.1 == e.1) }
        State.netGone <| match n.phaser with
          | none => u
          | some ph =>
            u.phComplete (u.refOf ph) 0 true (BitVec.ofNat 64 (6 * 2 ^ 12 + if bad then 0x102 else 0) ||| n.unit <<< 32) (max n.pts time)
      ((n.state ≠ .dropping ∨ n.dropOf ≠ j.place ∨ n.homes ≠ [] ∨ s.dropBelow j.place = true) →
        exec .netDropComplete s = .next s) ∧
      (n.state = .dropping → n.dropOf = j.place → n.homes = [] → s.dropBelow j.place = false →
        (s.shadows = [] → exec .netDropComplete s = .next (ends s 0 false)) ∧
        (∀ (w : Shadow) (sectors : List (Nat × Home)), s.shadows = [w] → w.lazy = false → (∃ e ∈ s.dropped j.place, e.1 = w.net) →
          EStateM.run (lineHomes w.line) s = .ok sectors s1 →
          let r : Restore := { line := w.line, data := (s.shadowData w).1, bad := (s.shadowData w).2, sectors := sectors }
          let time := sectors.foldl (fun t p => max t ((s1.homeTimes p.2).2 + 1)) 0
          let t := siteOfKey w.line
          (time < horizon → exec .netDropComplete s = .next (ends ((s1.unmarkRestored [r]).restoreLine r time) time (decide (0 < r.bad)))) ∧
          (2 ^ 48 ≤ time →
            exec .netDropComplete s =
              .next ({ s1 with cur := s.cur }.addWait (.horizon t.loc.place t.gva none) (.step ⟨.netDropComplete, j⟩)))))) ∧
    (∀ (line off time : Nat) (data : List Byte) (bad : Nat) (h : Home), h.size = 32 →
      let t := s.store (h.base + (line + off - h.key)) ((data.drop off).take 32)
      s.restoreLine { line := line, data := data, bad := bad, sectors := [(off, h)] } time =
        (if bad / 2 ^ off % 2 ^ 32 = 0 then t else t.mark (grainMark h.base)).setHomeTimes h time time) ∧
    exec .lazyReleaseReclaim s = .next { s with shadows := s.shadows.filter fun w => !(w.die == j.place && w.lazy) }

/-- R103 to R107, R317: a home grants a holder a partial of the tag's identity, which has a frame of the holder; an update on its way is
performed, the oldest first; a recall returns the partial, and after the last one the merge is due; a harvest that needs a
shadow the pool cannot give is not begun; a grain being discarded loses its partials and the drop goes on. Some of what it says is the model's reading or
choice: assumption log, entries 6 and 42. -/
def Obligations.BrineSteps : Prop :=
  ∀ (s s1 : State) (tag : BrineTag) (t : Site) (e : BrineEntry),
    let j := s.subject
    let key := j.addr.toNat
    let idx := holderIndex j.place t.loc
    (∀ (h : Home) (adm : Admission) (s2 : State), s.feature.getLsbD 2 = true → BrineTag.ofCode j.index = some tag → globalSite { s with cur := (j.place, 0) } j.addr j.addr = some t →
      let a := s.coreAgent (ctxKey j.place 0)
      EStateM.run (homeOf a t .write) { s with cur := (j.place, 0) } = .ok h s1 → pteBr h.pte = true →
      s1.dropHolds t.key tag.bytes true = false → EStateM.run (contend a h) s1 = .ok adm s2 →
      s2.brine.find h.key = none → s2.directoryRoom h = true →
      exec .brineGrantRequest s =
        .next { { (if h.site.loc.bridge then s2 else s2.countAccess h.site.loc.home adm) with
          brine := s2.brine.put h.key
            { tag := tag, state := .brine, size := h.size, maxPts := 0, returned := [], phys := h.base,
              holders := [(idx, { data := tag.identityData h.size, maxPts := 0, bad := false })] } }.bringFor
            (holderPlace h.site.loc.home idx) h.key (pteClass h.pte) with cur := s.cur }) ∧
    (s.outboundOf j.place j.index = [] → exec .bupdApply s = .next s) ∧
    (∀ o : Outbound, ((s.outboundOf j.place j.index).find? fun x => x.sent && isBupd x.packet.instr) = some o →
      exec .bupdApply s = .next (s.performSeq j.place j.index o.packet.seq [])) ∧
    (s.brine.find key = none →
      exec .holderRecall s = .next s ∧ exec .harvestMerge s = .next s ∧ exec .brineDiscardComplete s = .next s) ∧
    (s.brine.find key = some e →
      let h := brineHome key e
      (∀ p : Partial, e.holders.find j.index = some p →
        let hs := e.holders.erase j.index
        let back := fun u : State =>
          let u := { u with
            brine := u.brine.put key
              { e with state := .harvesting, holders := hs, returned := e.returned.put j.index p } }.leaveHolder key j.index
          match hs with
          | [] => u.dueAt .harvestMerge { Subject.nothing with addr := j.addr }
          | (i, _) :: _ => u.dueAt .holderRecall { Subject.nothing with addr := j.addr, index := i }
        (e.state = .harvesting → exec .holderRecall s = .next (back s)) ∧
        (∀ adm : Admission, e.state = .brine → s.dropHolds key e.size true = false →
          EStateM.run (contend (harvestAgent (siteOfKey key).loc.home) h) s = .ok adm s →
          (EStateM.run (probeLines h 0 e.size) s = .ok true s1 → exec .holderRecall s = .next (back s1)) ∧
          (EStateM.run (probeLines h 0 e.size) s = .ok false s1 →
            exec .holderRecall s = .next (s1.keepFrame (holderPlace (key / 2 ^ 48) j.index) key)))) ∧
      (∀ adm : Admission, e.state = .harvesting → e.holders = [] →
        EStateM.run (contend (harvestAgent (siteOfKey key).loc.home) h) s = .ok adm s →
        EStateM.run (mergeBrine h e) s = .ok () s1 →
        exec .harvestMerge s = .next (if h.site.loc.bridge then s1 else s1.reachLine h adm)) ∧
      (e.state = .harvesting → e.holders ≠ [] → exec .harvestMerge s = .next s) ∧
      (e.state ≠ .discarding → exec .brineDiscardComplete s = .next s) ∧
      (e.state = .discarding →
        exec .brineDiscardComplete s =
          .next ((e.holders.foldl (fun (u : State) p => u.leaveHolder key p.1) { s with brine := s.brine.erase key }).dropsAgain j.place)))

/-! ## The fitting engines (R124 to R137, R329) -/

/-- R128 to R130, R133, R136, R137, R329: without the engines AXR.BEGIN and AXR.END do nothing, AXR.CFG answers 1 and AXR.STAT 7. With
them, BEGIN of a slot in OBSERVE runs its body with a pending sample, of a pinned one without; of a FITTED one it answers with fill
packets and goes on behind the END. END sends the sample to the engine. CFG allocates, INVAL frees, and STAT answers R137's word.
R129 to R133: a fill packet writes its register. A sample that arrives is kept, dropped and counted where the engine's buffer is full, compared, or ignored, by the
slot's state; the fourth fallback pins it. A batch that passes four times in a row takes the slot to FITTED; a step that leaves a
master that is not finite pins it; and the engine takes the next batch. Some of what it says is the model's reading or
choice: assumption log, entry 27. -/
def Obligations.Fitting : Prop :=
  (∀ (s : State) (rd rs1 : XReg) (id : Fin 64) (stop : BitVec 12), NoPort s → Whole s → isArith s.cur.1 = true →
     let cluster := clusterOf s.cur.1
     let launch := s.me.launchid.toNat
     (s.feature.getLsbD 0 = false →
       exec (.axrBegin id stop) s = sealedAs s s.me ∧ exec (.axrEnd id) s = sealedAs s s.me ∧
       exec (.axrCfg rd id rs1) s = sealedAs s (s.me.setX rd 1#64) ∧ exec (.axrInval id) s = sealedAs s s.me ∧
       exec (.axrStat rd id) s = sealedAs s (s.me.setX rd 7#64)) ∧
     (s.feature.getLsbD 0 = true →
       (s.me.region ≠ none → exec (.axrBegin id stop) s = sealedAs s s.me) ∧
       (s.me.region ≠ some id.val → exec (.axrEnd id) s = sealedAs s s.me) ∧
       (s.me.region = some id.val → s.me.pending = none →
         exec (.axrEnd id) s = sealedAs s { s.me with region := none, pending := none }) ∧
       (s.me.region = none → s.fitSlot cluster launch id.val = none → s.launches.find launch = none →
         exec (.axrBegin id stop) s = sealedAs s { s.me with region := some id.val, pending := none }) ∧
       (s.fitSlot cluster launch id.val = none →
         exec (.axrInval id) s = sealedAs s s.me ∧ exec (.axrStat rd id) s = sealedAs s (s.me.setX rd 0#64)) ∧
       (let off := s.me.getX rs1
        let d := s.localBytes s.cur.1 .sp off.toNat 48
        (off.toNat % 16 ≠ 0 → exec (.axrCfg rd id rs1) s = trapped s 0x03 off) ∧
        (off.toNat % 16 = 0 → 0x3FFD0 < off.toNat → exec (.axrCfg rd id rs1) s = trapped s 0x06 off) ∧
        (off.toNat % 16 = 0 → off.toNat ≤ 0x3FFD0 → s.localBad s.cur.1 .sp off.toNat 48 = 0 →
         (fitOk d = false → exec (.axrCfg rd id rs1) s = sealedAs s (s.me.setX rd 3#64)) ∧
         (∀ (code : Nat) (t : State), s.fitAllocate cluster launch id.val d = (code, t) →
           exec (.axrCfg rd id rs1) s = sealedAs t (s.me.setX rd (BitVec.ofNat 64 code))))) ∧
       (∀ (key : Nat) (x : FitSlot), s.fitSlot cluster launch id.val = some (key, x) →
         exec (.axrInval id) s = sealedAs ({ s with fit := s.fit.erase key }.startBatch cluster) s.me ∧
         (let code := match x.state with
           | .observe => 1
           | .fitted => 2
           | .pinned => 3
          exec (.axrStat rd id) s =
           sealedAs s (s.me.setX rd (BitVec.ofNat 64
             (code + x.fallbacks * 2 ^ 4 + x.passes * 2 ^ 7 + x.drops * 2 ^ 10 + x.batches * 2 ^ 16 + x.answers * 2 ^ 32 +
               x.compared * 2 ^ 48)))) ∧
         (s.me.region = none →
           let inputs := s.me.fitValues (fitInputs x.desc) (natOfBytes ((x.desc.drop 36).take 4) % 2 ^ 8)
           let y := surrogate x.desc x.working inputs
           (x.state = .pinned → exec (.axrBegin id stop) s = sealedAs s { s.me with region := some x.id, pending := none }) ∧
           (x.state = .observe →
             exec (.axrBegin id stop) s =
               sealedAs s
                 { s.me with
                   region := some x.id, pending := some { id := x.id, gen := x.gen, inputs := inputs, yhat := none } }) ∧
           (x.state = .fitted → s.me.ctxcfg.getLsbD 1 = true →
             exec (.axrBegin id stop) s = sealedAs s { s.me with region := some x.id, pending := none }) ∧
           (x.state = .fitted → s.me.ctxcfg.getLsbD 1 = false →
             (((x.inv + 1) % 2 ^ fitK x.desc = 0 ∨ ∃ w ∈ y, (value32 w.toNat).isNan = true) →
               exec (.axrBegin id stop) s =
                 sealedAs { s with fit := s.fit.put key { x with inv := x.inv + 1 } }
                   { s.me with
                     region := some x.id, pending := some { id := x.id, gen := x.gen, inputs := inputs, yhat := some y } }) ∧
             ((x.inv + 1) % 2 ^ fitK x.desc ≠ 0 → (∀ w ∈ y, (value32 w.toNat).isNan = false) →
               exec (.axrBegin id stop) s =
                 sealedAs
                   ((fillsOf x.desc y).foldl (fun t _ => t.due .fillPacket s.cur.1 s.cur.2)
                     { s with fit := s.fit.put key { x with inv := x.inv + 1, answers := min 0xFFFF (x.answers + 1) } })
                   { s.me with
                     fills := fillsOf x.desc y, npc := s.me.pc + BitVec.ofNat 64 (2 * stop.toNat + 4) }))) ∧
         (∀ p : Pending, s.me.region = some id.val → s.me.pending = some p →
           let v : Sent :=
             { core := s.cur.1, ctx := s.cur.2, id := id.val, launch := launch, gen := p.gen, inputs := p.inputs,
               outputs := s.me.fitValues (fitOutputs x.desc) (natOfBytes ((x.desc.drop 36).take 4) / 2 ^ 8 % 2 ^ 4),
               yhat := p.yhat }
           exec (.axrEnd id) s =
             sealedAs (if p.gen = x.gen then { s with sent := s.sent ++ [v] }.due .sampleArrival cluster else s)
               { s.me with region := none, pending := none })))) ∧
  (∀ (s : State) (x : FitSlot),
     let j := s.subject
     (let k := ctxKey j.place j.index
      ((s.ctxAt k).fills = [] → exec .fillPacket s = .next s) ∧
       (∀ (r : XReg) (v : Dword) (rest : List (XReg × Dword)), (s.ctxAt k).fills = (r, v) :: rest →
         exec .fillPacket s = .next (s.setCtxAt k ({ s.ctxAt k with fills := rest }.setX r v)))) ∧
     (∀ (v : Sent) (key : Nat), s.sent = [v] → clusterOf v.core = j.place →
       s.fitSlot j.place v.launch v.id = some (key, x) →
       (x.gen ≠ v.gen → exec .sampleArrival s = .next { s with sent := [] }) ∧
       (x.gen = v.gen → ∃ y : FitSlot,
         exec .sampleArrival s = .next ({ s with sent := [], fit := s.fit.put key y }.startBatch j.place) ∧
         (x.state = .pinned → y = x) ∧
         (x.state = .observe → s.samplesHeld j.place < 64 →
           y = { x with samples := x.samples ++ [{ gen := v.gen, inputs := v.inputs, outputs := v.outputs }] }) ∧
         (x.state = .observe → 64 ≤ s.samplesHeld j.place →
           y = { x with drops := min 63 (x.drops + 1) }) ∧
         (∀ yhat, x.state = .fitted → v.yhat = some yhat →
           let z := { x with compared := min 0xFFFF (x.compared + 1) }
           (outputsPass x.desc yhat v.outputs = true → y = z) ∧
           (outputsPass x.desc yhat v.outputs = false → x.fallbacks < 3 →
             y = { z with state := .observe, fallbacks := x.fallbacks + 1, passes := 0, samples := [] }) ∧
           (outputsPass x.desc yhat v.outputs = false → 3 ≤ x.fallbacks → y = { z with state := .pinned, fallbacks := 4 })))) ∧
     (∀ batch : List Sample, s.fit.find j.place = some x → x.batch = some batch → x.gen = j.index →
       (x.validated = false →
         let pass := batch.all fun v => outputsPass x.desc (surrogate x.desc x.working v.inputs) v.outputs
         let y :=
           if x.state ≠ .observe then x
           else if pass = false then { x with passes := 0 }
           else if x.passes = 3 then { x with state := .fitted, passes := 4, inv := 0 }
           else { x with passes := x.passes + 1 }
         exec .batchValidationEnd s =
           .next ({ s with fit := s.fit.put j.place { y with validated := true } }.due .trainingStepEnd j.place x.gen)) ∧
       (x.validated = true →
         let m := trainStep x.desc (x.master.map BitVec.toNat) (x.working.map BitVec.toNat) batch
         let y : FitSlot :=
           { x with
             master := m.map (BitVec.ofNat 32), working := m.map fun w => BitVec.ofNat 16 (workingOf w),
             state := if m.all isFinite32 then x.state else .pinned, batches := min 0xFFFF (x.batches + 1), batch := none,
             validated := false }
         exec .trainingStepEnd s = .next ({ s with fit := s.fit.put j.place y }.startBatch (j.place / 16)))) ∧
     (s.fit.find j.place = none → exec .batchValidationEnd s = .next s ∧ exec .trainingStepEnd s = .next s))

/-! ## Homes and the management plane (R369 to R377, R381 to R400) -/
namespace Sys2Proof.Claims
open Sys2Proof Sys2Proof.Machine

/-- A die register's field [n+lo-1:lo]. -/
def regField (v : Dword) (lo n : Nat) : Nat := v.toNat / 2 ^ lo % 2 ^ n

/-- A register with a bit set or cleared. -/
def bitTo (v : Dword) (b : Nat) (on : Bool) : Dword :=
  if on then v ||| BitVec.ofNat 64 (2 ^ b) else v &&& ~~~(BitVec.ofNat 64 (2 ^ b))

end Sys2Proof.Claims

/-- R87, R116, R369 to R377: a home translates as its table says; a re-walk tries again what is held there, but for what is held at the time
horizon; a resolved fault releases what is parked on the page; a bank lent or taken back; MIGCTL.GO starts a move or sets ERR; a move ends with the page's bytes at the new place and BUSY clear; NETPSLOTS never
falls below the slots in use, its rise lets waiting pushes go on, and NETPBASE stays while a slot is in use. Some of what it says is the model's reading or
choice: assumption log, entries 30, 35 and 39. -/
def Obligations.HomeSteps : Prop :=
  ∀ (s s1 : State) (l : Loc),
    let j := s.subject
    let d := j.place
    (j.flag = false → route s j.addr = none → exec .niTranslation s = .next s) ∧
    (j.flag = false → route s j.addr = some l → l.place ≠ d → exec .niTranslation s = .next s) ∧
    (j.flag = false → route s j.addr = some l → l.place = d →
      exec .niTranslation s =
        .next (niAccess s l (j.value.getLsbD 3)
          (if j.value.getLsbD 2 then .exec else if j.value.getLsbD 1 then .write else .read)).2) ∧
    (∀ pts, j.flag = true →
      EStateM.run (strongPut (niAgent (d % 64) true) (j.addr + 56#64) (bytesOfNat 8 j.value.toNat) 0) s = .ok pts s1 →
      exec .niTranslation s = .next s1) ∧
    (d < 64 → (s.die d).holds = [] → s.ctxs = [] → s.dies = [(d, s.die d)] → (s.die d).command = none → s.nets = [] →
      exec .migRewalk s = .next s) ∧
    (∀ (hold : Hold), d < 64 → (s.die d).holds = [hold] → s.ctxs = [] → s.dies = [(d, s.die d)] → (s.die d).command = none →
      s.nets = [] →
      ((hold.horizon = true ∨ hold.absent = true) → exec .migRewalk s = .next s) ∧
      (hold.horizon = false → hold.absent = false →
        exec .migRewalk s =
          .next { s.setDie d { s.die d with holds := [] } with turns := Turn.retry hold.who [] :: s.turns })) ∧
    (route s j.value = none → exec .fltresWrite s = .next s) ∧
    (route s j.value = some l → leafOf s l = none → exec .fltresWrite s = .next s) ∧
    (∀ (e : TlbEntry) (record : Dword) (rpts : Nat), route s j.value = some l → leafOf s l = some e → e.covers l.off = true →
      ((s.die d).parks = [{ gva := j.value, record := record, rpts := rpts }] → (s.die d).holds = [] →
        exec .fltresWrite s =
          .next (((s.setDie d { s.die d with parks := [] }).requeue record rpts).unwithhold d)) ∧
      (∀ hold : Hold, (s.die d).parks = [] → (s.die d).holds = [hold] → hold.absent = true → hold.gva = j.value →
        exec .fltresWrite s =
          .next (State.unwithhold
            { s.setDie d { s.die d with holds := [] } with turns := Turn.retry hold.who [] :: s.turns } d))) ∧
    (let v := j.value &&& 0xFFFFFFFF#64
     let old := s.dieReg d 0x1D1
     (old &&& ~~~v) &&& 0xFFFFFFFF#64 = 0#64 → exec .lendbanksWrite s = .next (s.setDieReg d 0x1D1 v)) ∧
    (∀ b < 32, j.value = 0#64 → s.dieReg d 0x1D1 = BitVec.ofNat 64 (2 ^ b) → b ∉ (s.die d).reclaiming →
      let disabled := ((s.die d).fuse.get 0#64 13).getLsbD b
      let t := s.setDieReg d 0x1D1 0#64
      (disabled = true → exec .lendbanksWrite s = .next t) ∧
      (disabled = false →
        exec .lendbanksWrite s =
          .next ((t.setDie d
            { t.die d with
              lent := (s.die d).lent.filter fun (e : Nat × TlbEntry) => e.1 != b, reclaiming := (s.die d).reclaiming ++ [b] }).due
            .lentBankReclaimDone d b))) ∧
    (j.index ∈ (s.die d).reclaiming → j.index < 32 → d < 64 →
      ∃ t : State, exec .lentBankReclaimDone s = .next t ∧ j.index ∉ (t.die d).reclaiming ∧
        (∀ a, dsBase d + j.index * 2 ^ 20 ≤ a → a < dsBase d + (j.index + 1) * 2 ^ 20 → t.byte a = 0#8) ∧
        (∀ a, (a < dsBase d + j.index * 2 ^ 20 ∨ dsBase d + (j.index + 1) * 2 ^ 20 ≤ a) → t.byte a = s.byte a)) ∧
    (j.index ∉ (s.die d).reclaiming → exec .lentBankReclaimDone s = .next s) ∧
    (let ctl := s.dieReg d 0x1DB
     (ctl.getLsbD 6 = true → exec .migctlGo s = .next s) ∧
      (ctl.getLsbD 6 = false → s.migPage d = none →
        exec .migctlGo s = .next (s.setDieReg d 0x1DB ((ctl &&& ~~~0x40#64) ||| 0x80#64))) ∧
      (∀ p, ctl.getLsbD 6 = false → s.migPage d = some p →
        exec .migctlGo s = .next (((s.setDieReg d 0x1DB (ctl ||| 0x40#64)).due .migRewalk d).due .migrationComplete d)) ∧
      (ctl.getLsbD 6 = false → exec .migrationComplete s = .next s) ∧
      (∀ key src size, ctl.getLsbD 6 = true → s.migPage d = some (key, src, size) →
        (∃ e ∈ s.nets, e.2.state = .dropping ∧ rangesMeet e.2.baseKey e.2.len key size = true) →
        exec .migrationComplete s = .next s) ∧
      (∀ key src size, ctl.getLsbD 6 = true → s.migPage d = some (key, src, size) → s.nets = [] → s.brine = [] →
        EStateM.run (contendPage d key src size) s = .ok () s →
        let t := (s.movePage (dramBase d + src) (dramBase d + (s.dieReg d 0x1DA).toNat) size).dropLines d src size
        exec .migrationComplete s = .next (t.setDieReg d 0x1DB (t.dieReg d 0x1DB &&& ~~~0x40#64)))) ∧
    (∀ src dst n : Nat, Memory.wf s.mem = true → (s.movePage src dst n).bytes dst n = s.bytes src n) ∧
    (let old := (s.dieReg d 0x1A1).toNat
     let new := max (j.value.toNat % 2 ^ 28) (s.slotsUsed d)
     let mine := s.shadows.filter fun w => w.die == d
     let t := mine.foldl State.writeIndex (s.setDieReg d 0x1A1 (BitVec.ofNat 64 new))
     (∀ w ∈ mine, w.slot < new) →
      (new ≤ old → exec .netpslotsWrite s = .next t) ∧
      (old < new →
        exec .netpslotsWrite s =
          .next (({ t with nets := t.nets.map fun e => (e.1, e.2.unbreak d) } : State).due .migRewalk d))) ∧
    (s.slotsUsed d = 0 → exec .netpbaseWrite s = .next (s.setDieReg d 0x1A0 (j.value &&& 0x0000FFFFFFFF0000#64))) ∧
    (s.slotsUsed d ≠ 0 → exec .netpbaseWrite s = .next s)

/-- R381 to R383, R386: the owner of the management plane claims it, hands it over and loses it; a write of the plane by another master is
denied and reported; DIEREL releases the dies; a cold reset keeps flash and fuses and boots every bridge, a bridge whose image is
blank halting with code 2; the services extend a measurement and sign a report. Some of what it says is the model's reading or
choice: assumption log, entries 1, 31, 33 and 35. -/
def Obligations.ManagementSteps : Prop :=
  ∀ (s : State),
    let j := s.subject
    let b := j.place % 4
    (j.flag = false → j.index = j.value.toNat → j.index ≠ 0 → s.owner = 0 →
      let all := s.claims ++ [j.index]
      exec .mgmtownClaim s =
        .next { s with claims := [], owner := if 2 ∈ all then 2 else if 1 ∈ all then 1 else if 3 ∈ all then 3 else 0 }) ∧
    (j.flag = false → s.owner ≠ 0 → exec .mgmtownClaim s = .next { s with claims := [] }) ∧
    (j.flag = true → j.index = j.value.toNat → j.index ≠ 0 →
      exec .mgmtownClaim s = .next { s with claims := s.claims ++ [j.index] }) ∧
    ((j.index ≠ j.value.toNat ∨ j.index = 0) → (j.flag = true ∨ s.claims = []) → exec .mgmtownClaim s = .next s) ∧
    (s.owner = j.index → j.index ≠ 0 → exec .mgmtownOwner s = .next { s with owner := j.value.toNat % 4 }) ∧
    ((s.owner ≠ j.index ∨ j.index = 0) → exec .mgmtownOwner s = .next s) ∧
    exec .hostLinkDown s = .next { s with owner := if s.owner = 3 then 0 else s.owner } ∧
    exec .dierel s = .next { s with released := true } ∧
    (∀ n : Nat, j.index = n → isDieReg n = true → inPlane n = true → s.owner ≠ j.addr.toNat →
      (s.owner ≠ 0 ∨ j.addr.toNat ≠ 1) → exec .registerWrite s = .next (s.osEvent (j.place / 16) 0x40000#64)) ∧
    (∀ n : Nat, j.index = n → (0x180 ≤ n ∧ n ≤ 0x187 ∨ n = 0x1D0 ∨ n = 0x1D9 ∨ n = 0x1DA) →
      exec .registerWrite s =
        .next (s.setDieReg j.place n (masked 0x0000FFFFFFFFF000#64 (s.dieReg j.place n) j.value))) ∧
    (j.index = 0x1C0 → j.value.toNat % 2 ^ 6 = 0 →
      exec .registerWrite s =
        .next (s.dueAt .launchqSubmit { place := j.place, index := 0, addr := 0#64, value := j.value, flag := j.flag })) ∧
    (∃ t : State, exec .coldReset s = .next t ∧ (s.mem = [] → s.marks = [] → s.dies = [] → ∀ i < 4, (t.bridge i).halted = true ∧
      t.bridgeReg i 0x201 = 2#64) ∧ t.released = false ∧ t.owner = 0 ∧ t.feature = s.feature ∧
      (∀ a, flashBase 0 ≤ a → a < flashBase 4 → t.byte a = s.byte a)) ∧
    (let x := s.bridge b
     exec .measurementExtend s =
      .next (s.setBridge b
        { x with measurement :=
          Config.shake256 (bytesOfNat 32 x.measurement.toNat ++ s.bytes (sramBase b + j.addr.toNat % 2 ^ 22) 32) }) ∧
      ∃ report : List Byte,
        report.take 32 = s.bytes (sramBase b + j.addr.toNat % 2 ^ 22) 32 ∧
        exec .attestationReport s = .next (s.setBridge b { x with report := report, signature := Config.slhDsaSign report }))

/-- R388, R389, R391, R395, R396, R399, R400: EN going to 1 starts a port's training; a flit in sequence is taken, a bad one is counted,
answered by a NAK that names it, and what follows it discarded until it comes again; a NAK replays from its flit, and the eighth failure in a row retrains; a link
that loses its last lane goes down; LINKDOWN of a CXL link; voltage offsets are clamped; refresh, heat and throttling follow their
sensors. Some of what it says is the model's reading or
choice: assumption log, entry 32. -/
def Obligations.LinkAndHeatSteps : Prop :=
  ∀ (s : State),
    let j := s.subject
    let d := j.place
    let p := j.index % 2
    let x := s.link d p
    (let on := j.value.getLsbD 0
     ((on = false ∨ x.en = true ∨ x.state ≠ .down) → exec .linkEnWrite s = .next (s.setLink d p { x with en := on })) ∧
      (on = true → x.en = false → x.state = .down →
        exec .linkEnWrite s = .next ((s.setLink d p { x with en := true }).linkTo d p .train 0))) ∧
    (j.value.toNat % 4 = 0 → exec .linkStateChange s = .next (s.linkTo d p .down j.addr.toNat)) ∧
    (x.en = true →
      exec .linkStateChange s =
        .next (s.linkTo d p
          (if j.value.toNat % 4 = 0 then .down else if j.value.toNat % 4 = 1 then .train
            else if j.value.toNat % 4 = 2 then .up2 else .up1) j.addr.toNat)) ∧
    (x.en = false → j.value.toNat % 4 ≠ 0 → exec .linkStateChange s = .next s) ∧
    (let seq := j.value.toNat
     let reg := 0x288 + 2 * p + j.addr.toNat % 2
     (j.flag = true → seq = x.rxSeq →
        exec .flitReceive s = .next (s.setLink d p { x with rxSeq := x.rxSeq + 1, discarding := false })) ∧
      (j.flag = true → seq ≠ x.rxSeq → exec .flitReceive s = .next s) ∧
      (j.flag = false → seq ≠ x.rxSeq → regField (s.dieReg d reg) 0 32 < 2 ^ 32 - 1 →
        exec .flitReceive s = .next (s.setDieReg d reg (s.dieReg d reg + 1#64))) ∧
      (j.flag = false → seq = x.rxSeq →
        ∃ t : State, exec .flitReceive s = .next t ∧ t.link d p = { x.send with discarding := true, nak := some seq })) ∧
    (let seq := j.value.toNat
     let again := x.replay.dropWhile (· != seq)
     (x.resend.head? ≠ some seq →
        exec .flitNak s = .next (s.setLink d p { x with replay := again, resend := again, failed := 0 })) ∧
      (x.resend.head? = some seq → x.failed + 1 ≠ 8 →
        exec .flitNak s = .next (s.setLink d p { x with replay := again, resend := again, failed := x.failed + 1 })) ∧
      (x.resend.head? = some seq → x.failed + 1 = 8 →
        exec .flitNak s =
          .next ((s.setLink d p { x with replay := again, resend := again, failed := 0 }).due .laneRetrain d p))) ∧
    (s.lane1Lost d p = true → exec .laneRetrain s = .next (s.linkTo d p .down 0)) ∧
    (s.lane1Lost d p = false →
      exec .laneRetrain s = .next (((s.setLink d p { x with lane1 := true }).linkTo d p .train 0).linkEvent d)) ∧
    (let b := d % 4
     let reg := 0x208 + j.index % 4
     (j.flag = true →
        exec .cxlLinkChange s = .next ((s.setBridgeReg b reg (bitTo (s.bridgeReg b reg) 1 true)).osEvent b 0x20000#64)) ∧
      (j.flag = false → (s.bridge b).queues = [] →
        let t := (s.setBridgeReg b reg (bitTo (s.bridgeReg b reg) 1 false)).osEvent b 0x20000#64
        exec .cxlLinkChange s = .next (t.setBridge b (t.bridge b)))) ∧
    (∃ v : Dword, exec .vmargWrite s = .next ((s.setDieReg d 0x280 v).due .railSettled d) ∧ v.getLsbD 32 = true ∧
      ∀ i < 4, signedOfNat 8 (regField v (8 * i) 8) = max (-10) (min 10 (signedOfNat 8 (regField j.value (8 * i) 8)))) ∧
    exec .railSettled s = .next (s.setDieReg d 0x280 (s.dieReg d 0x280 &&& 0xFFFFFFFF#64)) ∧
    (∃ t : State, exec .dramRefreshModeChange s = .next t ∧ t.mem = s.mem ∧
      regField (t.dieReg d (0x294 + j.index % 16 / 4)) (16 * (j.index % 4)) 16 = j.value.toNat % 2 ^ 16 ∧
      (85 * 16 < j.value.toNat % 2 ^ 16 → (t.die d).refreshDue.find (j.index % 16) = some true) ∧
      (j.value.toNat % 2 ^ 16 < 83 * 16 → (t.die d).refreshDue.find (j.index % 16) = some false)) ∧
    ((s.die d).refreshDue.find (j.index % 16) = none → exec .dramRefresh s = .next s) ∧
    (∀ fast, (s.die d).refreshDue.find (j.index % 16) = some fast →
      let t := s.setDieReg d 0x298 (bitTo (s.dieReg d 0x298) (48 + j.index % 16) fast)
      exec .dramRefresh s =
        .next (t.setDie d { t.die d with refreshDue := (s.die d).refreshDue.erase (j.index % 16) })) ∧
    (let old := s.dieReg (d / 16) 0x298
     let hot := decide (old.toNat % 2 ^ 8 < j.value.toNat)
     let t := s.setDieReg (d / 16) 0x298 (bitTo old (32 + d % 16) hot)
     exec .clusterHotChange s = .next (if hot then t else t.due .autoPop (d / 16) (d % 16))) ∧
    (let lim := regField (s.dieReg (dieOf d) 0x298) 8 8
     let heat := j.value.toNat
     (lim < heat → exec .throttleChange s = .next (s.setCore d { s.core d with throttled := true })) ∧
      (heat + 5 ≤ lim → exec .throttleChange s = .next (s.setCore d { s.core d with throttled := false })) ∧
      (heat ≤ lim → lim < heat + 5 → exec .throttleChange s = .next s))

/-! ## The counterflow pipe (R16 to R36, R340 to R342) -/
namespace Sys2Proof.Claims
open Sys2Proof Sys2Proof.Machine

/-- A packet no source of which still awaits a result. -/
def Fed (q : Packet) : Prop := ∀ r ∈ q.srcs, r.await = none

/-- A packet that names no other address than fetch went on at, and is no surrogate's answer. -/
def OnPath (q : Packet) : Prop :=
  q.executed = false ∨ q.fault ≠ none ∨
    ((isBranch q.instr = false ∨ q.target = q.predicted) ∧ ∀ b, q.begun = some b → b.fills = [])

/-- The pipe at the start of a cycle (R20, R29, R31), its siding and its perch empty. -/
def cycleOf (p : Pipe) (up : Tab Packet) : Pipe :=
  { p with
    up := up, even := !p.even, upMade := true, inserted := false, crowned := false, accepted := false, panned := false,
    pan := p.pan.map fun (e : PanEntry) => { e with ready := e.value.isSome },
    ctxs := p.ctxs.map fun (e : Nat × PipeCtx) => (e.1, { e.2 with known := e.2.line, line := e.2.sealed }) }

/-- The request slots an executed packet keeps: those of an effect that is still to go out, or of one that traps (R70, R340). -/
def slotsKept (q : Packet) : Nat :=
  if manner q.instr = .sent ∨ manner q.instr = .answered ∨ q.fault ≠ none then q.slots else 0

end Sys2Proof.Claims

/-- R17, R20, R21, R25 to R28, R30, R31, R33, R70, R71, R84, R340 to R342: a packet moves up one stage in an up half, and at its home
stage executes in the lane or enters the siding; a result moves down one stage in a down half, enters the pan from S0, and is
met by every packet of its stage that awaits it; halves follow each other. A packet that has gone wrong kills what is younger; a
siding's packet rejoins one stage up; a complete one at S7 takes a perch before the moves of an up half. An entry of S5 starts where its
request slots are free, a PREF at once or is over, and at S6 the oldest that has not started does. What a packet executes is what a step of its instruction does before its seal: its value, its flags and
its next address stand in the packet, a trap is noted, an access that must wait away from the core is tried again. Some of what it says is
the model's reading or choice: assumption log, entry 16. -/
def Obligations.PipeLanes : Prop :=
  (∀ i : Instr, (encode i).isSome = true → performAny i = exec i) ∧
  ∀ (s : State),
    let core := s.subject.place
    let p := s.pipe core
    (∃ t : State, exec .garner s = .next t ∧
      (∀ n q x, p.up.find n = some q → p.down.find n = some x →
        (t.pipe core).up.find n =
          some { q with srcs := q.srcs.map fun (r : Source) =>
            if r.await = some x.seq ∧ r.reg = x.reg ∧ q.ctx = x.ctx then { r with await := none, value := x.value } else r }) ∧
      (∀ n, p.down.find n = none → (t.pipe core).up.find n = p.up.find n)) ∧
    (p.upMade = false → exec .rejoin s = .next s ∧ exec .downHalf s = .next s ∧
      (∀ q, p.up.find 7 = some q → q.complete = true → p.perch.length < 8 →
        exec .perchEntry s = .next (s.setPipe core { p with up := p.up.erase 7, perch := p.perch ++ [q] })) ∧
      ((∀ q, p.up.find 7 = some q → q.complete = false ∨ 8 ≤ p.perch.length) →
        exec .perchEntry s = .next (s.setPipe core p))) ∧
    (p.upMade = true → exec .upHalf s = .next s ∧ exec .perchEntry s = .next s ∧
      (∀ e : SidingEntry, p.siding = [e] → s.subject.index = e.stage → p.up.find (e.stage + 1) = none → e.done = true →
        e.packet.fault = none → e.packet.executed = true → e.packet.resultPkt = none →
        exec .rejoin s = .next (s.setPipe core { p with siding := [], up := p.up.put (e.stage + 1) e.packet })) ∧
      ((p.up.find (s.subject.index + 1)).isSome = true → exec .rejoin s = .next (s.setPipe core p))) ∧
    (∀ e : SidingEntry, p.siding = [e] →
      let q := e.packet
      let served := (s.execute core q).entryDone core q.ctx q.seq
      (s.subject.index = 0 →
        ((e.done = true ∨ e.started = false ∨ q.away = true ∨ isGlobalLoad q.instr = true ∧ q.executed = false) →
          exec .sidingCompletion s = .next s) ∧
        (e.done = false → e.started = true → q.away = false →
          (q.executed = true →
            exec .sidingCompletion s =
              .next (s.setPipe core { p with siding := [{ e with done := true, packet := { q with slots := slotsKept q } }] })) ∧
          (q.executed = false → isGlobalLoad q.instr = false →
            exec .sidingCompletion s = .next (if s.mayExecute core q = true then served else s)))) ∧
      (s.subject.flag = false → s.subject.value = 0#64 →
        ((e.started = false ∨ q.ctx ≠ s.subject.index ∨ isGlobalLoad q.instr = false ∨ q.executed = true ∨ q.away = true) →
          exec .loadDataReturn s = .next s) ∧
        (e.started = true → q.ctx = s.subject.index → isGlobalLoad q.instr = true → q.executed = false → q.away = false →
          exec .loadDataReturn s = .next (if s.mayExecute core q = true then served else s))) ∧
      (e.stage = 5 → e.started = false → e.near = false → e.done = false → ∀ (slots : Nat) (near : Bool), s.demand core q = (slots, near) →
        let put := fun f : SidingEntry => s.setPipe core { p with siding := [f] }
        (s.mayExecute core q = false → s.startOne core q.ctx q.seq = s) ∧
        (s.mayExecute core q = true → s.slotsTaken core + slots ≤ 32 →
          s.startOne core q.ctx q.seq = put { e with started := true, near := near, packet := { q with slots := slots } }) ∧
        (32 < s.slotsTaken core + slots → s.startOne core q.ctx q.seq = s)) ∧
      (e.stage = 6 → q.executed = false →
        s.startMatrix core =
          if s.mayExecute core q = true then (s.setPipe core { p with siding := [{ e with started := true }] }).execute core q else s)) ∧
    (∀ (q : Packet) (slots : Nat) (near : Bool), p.up.find 5 = some q → isPref q.instr = true → q.executed = false → Fed q →
      let q1 := { q with window := some (s.protection (dieOf core)) }
      s.demand core q1 = (slots, near) →
      (s.slotsTaken core + slots ≤ 32 →
        s.atHome core 5 =
          s.setPipe core { p with
            up := p.up.erase 5
            siding := p.siding ++ [{ stage := 5, packet := { q1 with slots := slots }, started := true, near := false, done := false }] }) ∧
      (32 < s.slotsTaken core + slots →
        s.atHome core 5 = s.setPipe core (p.update { q1 with executed := true, complete := true, target := q.npc }))) ∧
    (s.subject.flag = true → exec .loadDataReturn s = .next (s.setPipe core { p with lost := p.lost - 1 })) ∧
    (∀ (q : Packet) (r : Ran),
      let k := ctxKey core q.ctx
      let v := s.packetView core q
      let b := s.ahead core q
      let d := r.ctx
      let t := if readsOwn q.instr then r.state.withOwn s core else r.state
      let put := fun (t : State) (q : Packet) => t.setPipe core ((t.pipe core).update q)
      b.ran core q v (stageOf q.instr) (s.olderBytes core q) = some r →
      (isOrderedLoad q.instr = false ∨ s.passesLoads core q r.run.loads = true) →
      ((r.run.raised = none ∨ r.run.raised = some .checked) → v.anyPort = false → isAxrBegin q.instr = false →
        isRep q.instr = false → holdsUntilExecuted q.instr = false → isBinding q.instr = false →
        let result := if manner q.instr = .answered then none else q.dest.map d.regNat
        s.execute core q =
          put (t.setCtxAt k { t.ctxAt k with pts := max (t.ctxAt k).pts d.pts })
            { q with
              executed := true, away := false, result := result, complete := result.isNone, target := d.npc,
              flags := d.fcsr &&& ~~~v.fcsr, spans := if r.run.raised = some .checked then r.run.spans else [], claim := r.run.claim,
              read := r.run.read, begun := none, port := none, element := [],
              commit := if manner q.instr = .commit ∨ r.run.writes ≠ [] then
                  some { acc := d.acc, merrlog := d.merrlog, merrcnt := d.merrcnt, writes := r.run.writes }
                else none }) ∧
      (r.run.raised = some .retry → s.execute core q = s) ∧
      (∀ w, r.run.raised = some (.hold w) → s.execute core q = (put t { q with away := true }).addWait w (.load core q.ctx q.seq)) ∧
      (∀ cause x, r.run.raised = some (.trap cause x) → isRep q.instr = false →
        s.execute core q =
          put t { q with executed := true, away := false, complete := true, fault := some (.trap cause x) })) ∧
    (p.siding = [] → p.perch = [] →
      (∀ (n : Nat) (q : Packet), p.up = [(n, q)] → p.down = [] →
        let q1 := { q with ready := q.complete }
        let home := homeStage q.instr
        let t := s.setPipe core (cycleOf p [(n + 1, q1)])
        (p.upMade = false →
          (n < 7 → (n ≠ home ∨ q.fault ≠ none ∨ q.executed = true ∧ q.resultPkt = none) → (n + 1 ≠ home ∨ q.executed = true) →
            exec .upHalf s = .next t) ∧
          (n + 1 = home → q.executed = false → q.fault = none → Fed q →
            (∀ (u : State) (q2 : Packet), isInline q.instr = true → isFill q.instr = false → t.mayExecute core q1 = true →
              t.execute core q1 = u → (u.pipe core).up = [(n + 1, q2)] → (u.pipe core).siding = [] → (u.pipe core).down = [] → exec .upHalf s = .next (u.setPipe core (u.pipe core))) ∧
            (isInline q.instr = true → isFill q.instr = false → t.mayExecute core q1 = false → exec .upHalf s = .next t) ∧
            (isInline q.instr = false → home < 5 →
              exec .upHalf s =
                .next (s.setPipe core { cycleOf p [] with
                  siding := [{ stage := n + 1, packet := q1, started := true, near := false, done := false }] }))) ∧
          (n = home → q.executed = false → q.fault = none → q.srcs.any (·.await.isSome) = true →
            exec .upHalf s = .next (s.setPipe core (cycleOf p [(n, q1)])))) ∧
        (p.upMade = true → (s.core core).mailbox = [] →
          (∀ x, n = home → q.resultPkt = some x → Fed q → OnPath q →
            exec .downHalf s =
              .next (s.setPipe core
                { p with up := [(n, { q with injected := true, complete := true })], down := [(n, x)], upMade := false })) ∧
          (q.ctx < 11 → q.resultPkt = none → q.executed = true → q.fault = none → q.begun = none → isBranch q.instr = true →
            q.target ≠ q.predicted →
            exec .downHalf s =
              .next (s.setPipe core
                { p.kill q.ctx (q.seq + 1) (some q.target) with
                  up := [(n, { q with predicted := q.target })], upMade := false })))) ∧
      (∀ (n : Nat) (x : ResultPkt), p.up = [] → p.down = [(n, x)] → p.upMade = true → (s.core core).mailbox = [] →
        (0 < n → n < 8 → exec .downHalf s = .next (s.setPipe core { p with down := [(n - 1, x)], upMade := false })) ∧
        (n = 0 →
          exec .downHalf s =
            .next (s.setPipe core { p with
              down := [], upMade := false,
              pan := p.pan.map fun (e : PanEntry) =>
                if e.ctx = x.ctx && e.seq = x.seq && !e.external then { e with value := some x.value } else e }))))

/-- R19, R22 to R24, R28, R29, R31 to R33, R35, R36, R134, R351, R400: the foot inserts the packet of the ready context next in turn, once
in an up half, with a pan entry for what it writes and the youngest older value of what it reads; the crown retires the oldest
packet of each of up to two contexts, once at a cycle's end, a trapping one with everything younger, and what an effect needs leaves
with it; the pan writes the oldest sealed result that was filled at the start of the cycle. Some of what it says is the model's reading
or choice: assumption log, entry 16. -/
def Obligations.PipeEnds : Prop :=
  ∀ (s : State),
    let j := s.subject
    let core := j.place
    let p := s.pipe core
    let guess := if j.flag then some j.addr else none
    ((p.upMade = false ∨ p.inserted = true ∨ (p.up.find 0).isSome = true ∨ (s.core core).throttled = true ∧ p.even = false) →
      exec .footInsertion s = .next s) ∧
    ((∀ n < 11, s.canRun (ctxKey core n) = false ∨ (p.ctxOf n).held ≠ none ∨ 24 ≤ p.flight n) →
      exec .footInsertion s = .next s) ∧
    (∀ (q : Packet) (t : State), p.upMade = true → p.inserted = false → p.up.find 0 = none →
      ((s.core core).throttled = false ∨ p.even = true) →
      let n := (p.lastIn + 1) % 11
      let x := p.ctxOf n
      s.canRun (ctxKey core n) = true → x.held = none → p.flight n < 24 → x.fetching = false →
      (s.fillNext core n = some q ∧ t = s ∨ s.fillNext core n = none ∧ s.newPacket core n guess = some (q, t)) →
      (q.dest = none ∨ t.panRoom core = true) → (isRep q.instr = false ∨ (t.ctxAt (ctxKey core n)).rep.st ≠ .reissuing) →
      let u := t.enter core q
      exec .footInsertion s = .next (u.setPipe core (u.pipe core).garner)) ∧
    (∀ q : Packet, isFill q.instr = false → isRep q.instr = false → q.clause = none →
      let x := p.ctxOf q.ctx
      let held := if holdsFoot q.instr = true ∨ q.fault ≠ none then some q.seq else x.held
      let entry := fun r : Nat => ({
        ctx := q.ctx, seq := q.seq, reg := r, value := none, ready := false, external := false, pts := none, word := none } : PanEntry)
      s.enter core q =
        s.setPipe core { p.setCtx q.ctx { x with nextSeq := x.nextSeq + 1, held := held, fetch := some q.predicted } with
          up := p.up.put 0 q, pan := p.pan ++ (q.dest.map entry).toList, lastIn := q.ctx, inserted := true }) ∧
    (∀ (n : Nat) (i : Instr) (t : State), (∀ index k, i ≠ .dictionaryReference index k) →
      let k := ctxKey core n
      let c := s.ctxAt k
      let x := p.ctxOf n
      let blank := blankPacket n x.nextSeq (x.fetch.getD c.pc) none
      c.rep.st ≠ .reissuing → c.anyPort = false →
      EStateM.run fetch ({ s with cur := (core, n) }.setCtxAt k { c with pc := blank.pc, rep := c.rep.seenBy blank }) = .ok i t →
      let d := t.ctxAt k
      let u := { t with cur := s.cur }.setCtxAt k c
      s.newPacket core n guess =
        some ({ blank with
          npc := d.npc, ir := d.ir, instr := i, fetched := true, target := d.npc,
          srcs := (sourcesOf i).map fun r => u.readSource core n (physReg c.wofs r),
          dest := (destOf i).bind fun r => if physReg c.wofs r = 0 ∨ physReg c.wofs r = 96 then none else some (physReg c.wofs r),
          predicted := if isBranch i then guess.getD d.npc else d.npc }, u)) ∧
    (∀ (n r : Nat),
      ((∀ e ∈ p.pan, e.ctx = n → e.reg ≠ r) →
        s.readSource core n r = { reg := r, await := none, value := (s.ctxAt (ctxKey core n)).regNat r, claim := false }) ∧
      (∀ (older younger : List PanEntry) (e : PanEntry), p.pan = older ++ e :: younger → e.ctx = n → e.reg = r →
        (∀ f ∈ younger, f.ctx = n → f.reg ≠ r) →
        s.readSource core n r =
          match e.value with
          | some v => { reg := r, await := none, value := v, claim := false }
          | none => { reg := r, await := some e.seq, value := 0, claim := false })) ∧
    ((p.upMade = true ∨ p.crowned = true) → exec .seal s = .next s) ∧
    (p.upMade = false → p.crowned = false →
      let ready := ((List.range 11).map fun i => (p.lastSealed + 1 + i) % 11).filterMap fun n => s.sealable core n
      let over_ := fun t : State => Host.Outcome.next (t.setPipe core { t.pipe core with crowned := true }).watch
      (ready = [] → exec .seal s = over_ s) ∧
      (∀ q, ready = [q] → exec .seal s = over_ (s.sealPacket core q)) ∧
      (∀ q r rest, ready = q :: r :: rest →
        let t := s.sealPacket core q
        exec .seal s = over_ (if (t.sealable core r.ctx).isSome then t.sealPacket core r else t))) ∧
    (∀ q : Packet,
      let k := ctxKey core q.ctx
      let c := s.ctxAt k
      let sealed := (s.setPipe core (p.retire q)).setCtxAt k { c with fcsr := c.fcsr ||| q.flags, npc := q.target, pc := q.target }
      q.fault = none → q.commit = none → q.begun = none → q.clause = none → q.port = none → (∀ r ∈ q.srcs, r.claim = false) →
      c.anyPort = false →
      (manner q.instr = .early → isPinning q.instr = false → s.sealPacket core q = sealed) ∧
      (manner q.instr ≠ .early → manner q.instr ≠ .commit → (isPinning q.instr = false ∨ c.region = none) →
        let x := sealed.core core
        s.sealPacket core q =
          (sealed.setCore core { x with
            outbound := x.outbound ++ [{ packet := q, view := s.packetView core q, sent := false }] }).sendMore core q.ctx)) ∧
    (∀ (q : Packet) (cause : Nat) (v : Dword), q.fault = some (.trap cause v) → (cause ≠ 0x07 ∨ isSluice core = false) →
      let k := ctxKey core q.ctx
      let t := s.killFrom core q.ctx q.seq none
      let u := (t.setPipe core { t.pipe core with lastSealed := q.ctx }).takeTrap k cause q.pc v
      s.sealPacket core q = if (u.ctxAt k).status = .running then u else u.clearPipe k) ∧
    (∀ (n first : Nat) (fetch : Option Dword),
      let t := s.killFrom core n first fetch
      (∀ r ∈ (t.pipe core).packets, r.ctx ≠ n ∨ r.seq < first) ∧
        (∀ e ∈ (t.pipe core).pan, e.ctx = n → e.external = true ∨ e.seq < first) ∧
        ((t.pipe core).ctxOf n).nextSeq = first ∧ ((t.pipe core).ctxOf n).fetch = fetch) ∧
    (let again := fun t : State => ((t.due .downHalf core).due .upHalf core).due .panWrite core
     (p.panned = true → exec .panWrite s = .next (if p.settles = true then again s else s)) ∧
      (p.panned = false → p.pan = [] →
        let t := s.setPipe core { p with panned := true }
        exec .panWrite s = .next (if (s.core core).mailbox = [] then t else t.due .depositArrival core)) ∧
      (∀ (e : PanEntry) (v : Nat), p.panned = false → p.pan = [e] → e.value = some v → e.word = none → (s.core core).mailbox = [] →
        let k := ctxKey core e.ctx
        let x := p.ctxOf e.ctx
        let may := e.ready = true ∧ (if e.external then e.seq ≤ x.known else e.seq < x.known)
        let free := { x with held := if e.external = false ∧ x.held = some e.seq then none else x.held }
        let t := (s.setCtxAt k { (s.ctxAt k).setRegNat e.reg v with pts := max (s.ctxAt k).pts (e.pts.getD 0) }).setPipe core
          ({ p with pan := [] }.setCtx e.ctx free)
        let u := if e.external then t.eventAt k else t
        let stays := s.setPipe core { p with panned := true }
        (may → exec .panWrite s = .next (u.setPipe core { u.pipe core with panned := true })) ∧
        (¬may → exec .panWrite s = .next (if p.packets = [] then again stays else stays))))

/-! ## Effects after the seal, caches, home slices and booth cores (R28, R60, R72, R79, R81, R88, R89, R92, R93, R114, R249) -/

/-- R28, R57, R60, R72, R77, R79, R81, R88, R89, R92, R93, R104, R114, R249, R313, R403: a sealed effect goes once nothing older keeps it; performed, it
is gone and its context has its time, or it waits where its access must. A home slice takes one request for a grain, and of two the one next
from its priority pointer, which then moves on; one for a line it does not have waits for the DRAM, which serves a hit in an open row
first but none before one that has aged; two REDs that merge are one; a booth core performs the head of a queue; a write
check's grant stands in the cluster cache; a clean grain that is evicted is gone, a dirty one is pushed to its home, a partial is
recalled. Some of what it says is the model's reading or choice: assumption log, entries 16, 24 and 42. -/
def Obligations.MemorySteps : Prop :=
  ∀ (s : State),
    let j := s.subject
    let d := s.die j.place
    let slice := j.index
    let reqs := d.reqs.get [] slice
    let queue := d.dram.get [] slice
    (∀ i kind, (i = .weakStoreAccept ∧ kind = isGlobalStore ∨ i = .release ∧ kind = isRelease) →
      ((∀ o ∈ (s.core j.place).outbound, o.packet.ctx ≠ j.index) → exec i s = .next s) ∧
      (∀ o : Outbound, ((s.outboundOf j.place j.index).find? fun x => x.sent && kind x.packet.instr) = some o →
        exec i s = .next (s.performSeq j.place j.index o.packet.seq []))) ∧
    (∀ (o : Outbound) (t : State),
      let n := o.packet.ctx
      (s.outboundOf j.place n).find? (fun x => x.packet.seq == o.packet.seq) = some o →
      (s.performOut j.place o [] = (true, t) → s.performSeq j.place n o.packet.seq [] = t.sendMore j.place n) ∧
      (s.performOut j.place o [] = (false, t) → s.performSeq j.place n o.packet.seq [] = t)) ∧
    (∀ (o : Outbound) (r : Ran), s.ranEffect j.place o = some r → (r.state.die (dieOf j.place)).command = none →
      (∀ b ∈ r.state.barriers, b.stopping = false ∨ b.complete = true) →
      let q := o.packet
      let k := ctxKey j.place q.ctx
      let t := r.state
      let who := Asker.packet j.place q.ctx q.seq []
      ((r.run.raised = none ∨ r.run.raised = some .checked) → manner q.instr = .sent → (t.ctxAt k).status = .running →
        r.ctx.status = .running →
        let u := t.setCtxAt k { t.ctxAt k with pts := max (t.ctxAt k).pts r.ctx.pts }
        let x := u.core j.place
        s.performOut j.place o [] =
          (true, u.setCore j.place { x with
            outbound := x.outbound.filter fun o => !(o.packet.ctx == q.ctx && o.packet.seq == q.seq) })) ∧
      (∀ w, r.run.raised = some (.hold w) →
        s.performOut j.place o [] =
          (false, (t.setCtxAt k { t.ctxAt k with pts := max (t.ctxAt k).pts r.ctx.pts }).addWait w who)) ∧
      (∀ gva v home f w, r.run.raised = some (.notPresent gva v home f w) →
        let rec_ := t.faultRecord home gva 1 f w (if isArith j.place then coreId j.place else 0) (faultDie j.place) q.ctx 0#64
        s.performOut j.place o [] =
          (false, if t.faultQueueFull home then t.addWait (.home home gva) who else rec_.addWait (.absent home gva) who)) ∧
      (r.run.raised = some .retry → s.performOut j.place o [] = (false, s.unsent j.place q.ctx q.seq)) ∧
      (∀ cause v, r.run.raised = some (.trap cause v) → (cause ≠ 0x07 ∨ isSluice j.place = false) →
        let (home, gva) := s.homeOfSpans q
        s.performOut j.place o [] = (false, t.addWait (.home home gva) who)) ∧
      (∀ cause v, r.run.raised = some (.trapAfter cause v) →
        let u := ((t.fillAnswer j.place q.ctx q.seq 0#64 none).outDone j.place q.ctx q.seq).drainPan k
        s.performOut j.place o [] = (true, u.takeTrap k cause (u.ctxAt k).pc v))) ∧
    (∀ o : Outbound,
      let older := (s.outboundOf j.place o.packet.ctx).filter fun r => r.packet.seq < o.packet.seq
      let keys := fun (r : Outbound) => (r.packet.spans.flatMap fun x => x.keys s j.place).map Prod.fst
      (isReleasing o.packet.instr = true → (s.clearToGo j.place o = true ↔ older = [])) ∧
      (isReleasing o.packet.instr = false → isFenceSp o.packet.instr = true →
        (s.clearToGo j.place o = true ↔ ∀ r ∈ older, r.packet.storesNear = false)) ∧
      (isReleasing o.packet.instr = false → isFenceSp o.packet.instr = false →
        (s.clearToGo j.place o = true ↔ ∀ r ∈ older,
          (isStrongWrite r.packet.instr = false ∨ isStrongWrite o.packet.instr = false) ∧
          (isBupd r.packet.instr = false ∨ isBupd o.packet.instr = false) ∧
          (isSlpush r.packet.instr = false ∨ isSlpush o.packet.instr = false) ∧ ∀ a ∈ keys r, a ∉ keys o)) ∧
      (s.clearToGo j.place o = false → s.trySend j.place o = s) ∧
      (∀ i, (isGlobalStore o.packet.instr = true ∧ i = .weakStoreAccept ∨ isRelease o.packet.instr = true ∧ i = .release ∨
          isBupd o.packet.instr = true ∧ i = .bupdApply) →
        s.clearToGo j.place o = true → o.sent = false → (s.core j.place).outbound = [o] →
        s.trySend j.place o =
          (s.setCore j.place { s.core j.place with outbound := [{ o with sent := true }] }).due i j.place o.packet.ctx)) ∧
    (j.flag = false →
      let taken := fun (left : List HomeReq) (pointers : Tab Nat) =>
        s.setDie j.place { d with
          reqs := d.reqs.put slice left, cycles := d.cycles.put slice (d.cycles.get 0 slice + 1), pointers := pointers }
      let goes := fun (t : State) (w : HomeReq) => (.next { t with turns := Turn.retry w.who (w.got ++ [w.adm]) :: t.turns } : Out)
      let here := fun (w : HomeReq) => s.holdsGrain j.place w.adm.off w.adm.size
      (reqs = [] → exec .homeRequest s = .next s) ∧
      (∀ w, reqs = [w] →
        let t := taken [] d.pointers
        (here w = true → exec .homeRequest s = goes t w) ∧
        (here w = false →
          exec .homeRequest s =
            .next ((t.setDie j.place { t.die j.place with dram := d.dram.put slice (queue ++ [{ req := w, aged := false }]) }).dueAt
              .homeRequest { Subject.nothing with place := j.place, index := slice, flag := true }))) ∧
      (∀ a b : HomeReq, reqs = [a, b] → a ≠ b →
        (a.adm.key ≠ b.adm.key ∨ a.cycle ≠ b.cycle ∨ a.lost = true ∨ b.lost = true) → here a = true →
        exec .homeRequest s = goes ((taken [b] d.pointers).due .homeRequest j.place slice) a) ∧
      (∀ a b w l : HomeReq, reqs = [a, b] → a.adm.key = b.adm.key → a.cycle = b.cycle → a.lost = false → b.lost = false → a ≠ b →
        here w = true →
        let rank := fun (r : HomeReq) => (r.port + 8 - d.pointers.get 0 slice % 8) % 8
        (w = a ∧ l = b ∧ rank a ≤ rank b ∨ w = b ∧ l = a ∧ rank b < rank a) →
        let t := (taken [{ l with lost := true }] (d.pointers.put slice ((w.port + 1) % 8))).due .homeRequest j.place slice
        let (core, sstep) := t.winnerOf j.place w.who
        exec .homeRequest s = goes (t.logEntry j.place 0 w.port core sstep (siteOfKey w.adm.key).gva) w)) ∧
    (j.flag = true →
      (queue = [] → exec .homeRequest s = .next s) ∧
      (∀ r w : DramReq, queue[j.value.toNat % queue.length]? = some r → 1 < queue.length →
        d.nextAt slice (queue.filter fun q => Config.dramBank q.req.adm.off == Config.dramBank r.req.adm.off) = some w →
        let t := (s.setDie j.place { d with dram := d.dram.put slice (queue.erase w) }).dueAt .homeRequest
          { Subject.nothing with place := j.place, index := slice, flag := true }
        exec .homeRequest s = .next { t with turns := Turn.retry w.req.who (w.req.got ++ [w.req.adm]) :: t.turns }) ∧
      (∀ w : DramReq, queue = [w] →
        let t := s.setDie j.place { d with dram := d.dram.put slice [] }
        exec .homeRequest s = .next { t with turns := Turn.retry w.req.who (w.req.got ++ [w.req.adm]) :: t.turns })) ∧
    (∀ (a b : List DramReq) (w : DramReq), (∀ r ∈ a, r.aged = false) →
      ((∀ r ∈ a, d.rowOpen slice r.req.adm.off = false) → d.rowOpen slice w.req.adm.off = true → d.nextAt slice (a ++ w :: b) = some w) ∧
      ((∀ r ∈ a ++ w :: b, d.rowOpen slice r.req.adm.off = false) → d.nextAt slice (a ++ w :: b) = (a ++ [w]).head?) ∧
      ((∀ r ∈ a ++ [w], d.rowOpen slice r.req.adm.off = false) → w.aged = true → d.nextAt slice (a ++ w :: b) = (a ++ [w]).head?)) ∧
    ((∀ r ∈ queue, r.aged = true) → exec .dramRequestAging s = .next s) ∧
    (∀ (a b : List DramReq) (r : DramReq), queue = a ++ r :: b → (∀ q ∈ a, q.aged = true) → r.aged = false →
      exec .dramRequestAging s =
        .next (s.setDie j.place { d with dram := d.dram.put slice (a ++ { r with aged := true } :: b) })) ∧
    (∀ (o p : Outbound) (op : AmoOp) (size : OpSize) (scope : Scope) (r1 r2 r3 r4 : XReg) (a b : Nat × Nat × Nat),
      (s.outboundOf a.1 a.2.1).find? (fun x => x.packet.seq == a.2.2) = some o →
      (s.outboundOf b.1 b.2.1).find? (fun x => x.packet.seq == b.2.2) = some p →
      o.packet.instr = .red op size r1 r2 scope false → p.packet.instr = .red op size r3 r4 scope false → op.merges = true →
      o.operand 0 r1 = p.operand 0 r3 →
      let w := 8 * size.bytes
      let v := BitVec.ofNat 64 (op.apply w ((o.operand 1 r2).toNat % 2 ^ w) ((p.operand 1 r4).toNat % 2 ^ w))
      let one : Outbound := { o with
        view := ({ o.view with pts := max o.view.pts p.view.pts }.setX 1 (o.operand 0 r1)).setX 2 v
        packet := { o.packet with instr := .red op size 1 2 scope false, srcs := [] } }
      let t := s.setCore a.1 { s.core a.1 with outbound := (s.core a.1).outbound.map fun r => if r = o then one else r }
      s.mergeReds a b = some t ∧
      (∀ x y : HomeReq, j.place < 64 → reqs = [x, y] → x.who = .packet a.1 a.2.1 a.2.2 [] → y.who = .packet b.1 b.2.1 b.2.2 [] →
        s.merge j.place slice 0 1 =
          t.setDie j.place { d with reqs := d.reqs.put slice [{ x with who := .packet a.1 a.2.1 a.2.2 [(b.1, b.2.1, b.2.2)] }] })) ∧
    (let b := s.bridge j.place
     let n := j.index % 16
     (b.queues.get [] n = [] → exec .boothMessage s = .next s) ∧
      (∀ m rest, b.queues.get [] n = m :: rest →
        let t := s.setBridge j.place { b with queues := b.queues.put n rest }
        let t := if rest = [] then t else t.due .boothMessage j.place n
        ∃ adm : Admission, exec .boothMessage s = .next { t with turns := Turn.retry m.who (m.got ++ [adm]) :: t.turns })) ∧
    (let k := ctxKey j.place j.index
     let me := { s with cur := (k / 16, k % 16) }
     let need : Need := if j.flag then .readWrite else .write
     let a := me.coreAgent k
     (route s j.addr = none → exec .writeCheck s = .next s ∧ exec .shadowProbe s = .next s) ∧
      (∀ (t : Site) (s1 : State), globalSite s j.addr j.addr = some t →
        (EStateM.run (writeGrant a t need) me = .ok () s1 → exec .writeCheck s = .next { s1 with cur := s.cur }) ∧
        (EStateM.run (writeProbe a t 1) me = .ok () s1 → exec .shadowProbe s = .next { s1 with cur := s.cur })) ∧
      (∀ (t : Site) (cl base : Nat) (c : Copy), globalSite s j.addr j.addr = some t → a.cc = some cl →
        me.findCopy (ccPlace cl) t.key = some (base, c) → c.grant = true → s.brine = [] → j.flag = false →
        exec .writeCheck s = .next s) ∧
      (∀ (t : Site) (h : Home) (cl base : Nat) (c : Copy) (s1 s2 : State), Whole s → globalSite s j.addr j.addr = some t →
        a.cc = some cl → me.findCopy (ccPlace cl) t.key = none → EStateM.run (homeOf a t need) me = .ok h s1 →
        s.brine = [] → s1.brine = [] → s1.dropHolds t.key 1 true = false →
        EStateM.run (serve a t .settled 0 none ((a.levels t).drop a.l1.toList.length) true) s1 = .ok (base, c) s2 →
        exec .writeCheck s = .next { s2.putCopy (ccPlace cl) base { c with grant := true } with cur := s.cur }) ∧
      (∀ t : Site, globalSite s j.addr j.addr = some t → s.nets = [] → exec .shadowProbe s = .next s)) ∧
    (let key := j.addr.toNat
     let (cache, id) := frameOf j.place key
     let gone := fun (t : State) => { t with frames := t.frames.put cache ((t.frames.get [] cache).filter fun f => f.id != id) }
     (cacheSets cache = 32 →
        exec .cacheEviction s =
          .next (gone { s with
            copies := s.copies.filter fun e => frameOf (e.1 / 2 ^ 64) (e.1 % 2 ^ 64) != (cache, id) })) ∧
      (cacheSets cache ≠ 32 → 32768 ≤ j.place → j.place < 131072 →
        (s.copies = [] → s.brine = [] → exec .cacheEviction s = .next (gone s)) ∧
        (∀ g i, s.copies = [] → s.partialsIn j.place cache id = [(g, i)] →
          exec .cacheEviction s = .next (s.dueAt .holderRecall { Subject.nothing with addr := BitVec.ofNat 64 g, index := i })) ∧
        (∀ (base : Nat) (c : Copy), s.copies = [(copyKey j.place base, c)] → s.brine = [] → base < 2 ^ 64 →
          frameOf j.place base = (cache, id) →
          (c.dirty = 0 → exec .cacheEviction s = .next (gone (gone { s with copies := [] }))) ∧
          (∀ (w : Nat) (s1 : State) (c1 : Copy), 0 < c.dirty →
            let a := cacheAgent j.place
            EStateM.run (pushCopy a (siteOfKey base) j.place base c (levelsAbove j.place (a.levels (siteOfKey base)))) s =
              .ok w s1 →
            s1.copies.find (copyKey j.place base) = some c1 → c1.dirty = 0 → s1.brine = [] →
            exec .cacheEviction s = .next ((s1.dropCopy j.place base).freeFrame cache id)))))

/-! ## The machine as a whole -/

/-- R19, R22, R88, R106, R169, R198, R221, R239: a step takes what the outside does (a step, a context's turn, a byte or a partial that goes bad, two REDs
that merge, a waiting access that goes on), else the oldest step that is due, else runs one instruction of the context whose turn it is: the one its next place holds, decoded, with the pc of the instruction after it set; a word that
decodes to nothing traps with cause 0x01. Ring watchers and the choice of the next context follow each instruction. Some of what it says is the model's reading or
choice: assumption log, entries 2 and 4. -/
def Obligations.StepRunsDecoded : Prop :=
  ∀ (s : State),
    (∀ (d : Due) (r : List Turn), s.turns = .due d :: r → step s = exec d.step { s with turns := r, subject := d.subject }) ∧
    (∀ (d : Due) (r : List Due), s.turns = [] → s.agenda = d :: r →
      step s = exec d.step { s with agenda := r, subject := d.subject }) ∧
    (∀ (c n : Nat) (r : List Turn), s.turns = .run c n :: r → step s = stepContext { s with turns := r, cur := (c, n) }) ∧
    (∀ (a : Nat) (r : List Turn), s.turns = .damage a :: r → step s = .next (State.mark { s with turns := r } a)) ∧
    (∀ (key holder : Nat) (e : BrineEntry) (p : Partial) (r : List Turn), s.turns = .spoil key holder :: r → s.brine.find key = some e →
      e.holders.find holder = some p →
      step s = .next { s with
        turns := r, brine := s.brine.put key { e with holders := e.holders.put holder { p with bad := true } } }) ∧
    (∀ (home queue first second : Nat) (r : List Turn), s.turns = .merge home queue first second :: r →
      step s = .next (State.merge { s with turns := r } home queue first second)) ∧
    (∀ (who : Asker) (pass : List Admission) (r : List Turn), s.turns = .retry who pass :: r →
      let t := { s with turns := r, pass := pass }
      (∀ core n seq also, who = .packet core n seq also → step s = .next { t.performSeq core n seq also with pass := [] }) ∧
      (∀ core n seq, who = .load core n seq → step s = .next { t.retryLoad core n seq with pass := [] }) ∧
      (∀ core n, who = .fetch core n → step s = .next { t.retryFetch core n with pass := [] }) ∧
      (∀ d, who = .step d → step s = afterPass (exec d.step { t with subject := d.subject })) ∧
      (∀ n, who = .op n → step s = afterPass (exec .engineCompletion { t with subject := { Subject.nothing with place := n } })) ∧
      (∀ core n, who = .ctx core n →
        step s = if (t.wake core n).runs (ctxKey core n) then afterPass (stepContext { t.wake core n with cur := (core, n) })
          else .next { t.wake core n with pass := [] })) ∧
    (∀ t : State, afterPass (.next t) = .next { t with pass := [] }) ∧
    (s.turns = [] → s.agenda = [] → step s = stepContext s) ∧
    (isContext s.cur.1 s.cur.2 = false → stepContext s = .fault .noSuchContext) ∧
    (isContext s.cur.1 s.cur.2 = true → s.runs s.myKey = false → stepContext s = .next s.tick.rotate) ∧
    (∀ (raw : Nat) (long : Bool) (s1 : State), isContext s.cur.1 s.cur.2 = true → s.runs s.myKey = true →
      (s.me.rep.st ≠ .reissuing ∧ EStateM.run (fetchRaw s.me.pc) s.tick = .ok (raw, long) s1 ∨
        s.me.rep.st = .reissuing ∧ s1 = s.tick ∧
          (s.me.rep.items[s.me.rep.stag]?).map (fun e => (e.raw, e.long)) = some (raw, long)) →
      let c := s1.me
      let s2 := s1.setMe { c with
        npc := c.pc + (if long then 4#64 else 2#64), ir := s1.layOut raw long, issuedPc := c.pc, issuedRep := c.rep }
      (∀ i rest, decode (bytesOfNat (if long then 4 else 2) raw) = .ok (i, rest) → stepContext s = afterInstr (exec i s2)) ∧
      (∀ e, Whole s → decode (bytesOfNat (if long then 4 else 2) raw) = .error e →
        stepContext s =
          afterInstr (.next ((s2.setCtxAt s.myKey s.tick.me).takeTrap s.myKey 0x01 s.me.pc (s1.layOut raw long))))) ∧
    (∀ t : State, afterInstr (.next t) = .next t.watch.rotate) ∧
    (∀ f : Fault, afterInstr (.fault f) = .fault f)

/-- R175 to R197: words written out from the tables of fields decode to the instructions they stand for. -/
def Obligations.DecodeWords : Prop :=
  decodeTableWord 32 0x06400483 = some (.addi 9 0 100#12) ∧ decodeTableWord 32 0x0A594485 = some (.andn 9 10 11) ∧
  decodeTableWord 32 0x16512287 = some (.div 5 9 10 true) ∧ decodeTableWord 32 0xFF80058D = some (.beq 11 0 0x3FE#10) ∧
  decodeTableWord 32 0x408411A1 = some (.vadd .h 3 1 2 2) ∧ decodeTableWord 32 0x00AA853F = some (.netOpen 10 20 21) ∧
  decodeTableWord 32 0xC008001F = some .eret ∧ decodeTableWord 32 0x0600003B = some (.done 0)

/-- R169, R175 to R197: decoding the bytes of any instruction that has an encoding, whatever follows them, gives the instruction with
every operand at its value, and leaves what follows. -/
def Obligations.DecodeEncodeRoundTrip : Prop :=
  ∀ (i : Instr) (bs rest : List Byte), i.wf = true → encode i = some bs → decode (bs ++ rest) = .ok (i, rest)

/-- R169, R175 to R198: what decodes is well formed and has one encoding: the bytes it was read from. So no two words, and no word with a
bit set that its instruction does not have, decode to one instruction. -/
def Obligations.DecodedIsCanonical : Prop :=
  ∀ (bs rest : List Byte) (i : Instr), decode bs = .ok (i, rest) →
    i.wf = true ∧ ∃ word, encode i = some word ∧ bs = word ++ rest

/-- R4, R7, R383, R386 to R388 and the Reset columns of the register maps: what a cold reset leaves. Memory lists nothing, and is in its
canonical form; every core is held; COLD_RESET is due; the plane has no owner; LEASE is 32, MTIME 0, FCSR 0; MIGCTL, RMWORLD and
the heat limits hold their reset values and any other register of a die or bridge 0. What an unlisted byte reads as, and the
registers without a Reset entry, are the model's (assumption log, entries 1 and 3). Some of what it says is the model's reading or
choice: assumption log, entries 1, 3 and 4. -/
def Obligations.ResetState : Prop :=
  let s := State.reset
  s.mem = [] ∧ Memory.wf s.mem = true ∧ s.released = false ∧ s.owner = 0 ∧ s.mtime = 0 ∧
  s.agenda = [{ step := .coldReset, subject := Subject.nothing }] ∧
  step s = exec .coldReset { s with agenda := [] } ∧
  (∀ k, (s.ctxAt k).fcsr = 0#64 ∧ (s.ctxAt k).lease = 32#64 ∧ (s.ctxAt k).pts = 0 ∧ (s.ctxAt k).status = .idle) ∧
  (∀ d n, s.dieReg d n = if n = 0x1DB then 12#64 else if n = 0x298 then 0x695F#64 else 0#64) ∧
  (∀ b n, s.bridgeReg b n = if n = 0x205 then BitVec.allOnes 64 else 0#64) ∧
  (∀ b, (s.bridge b).measurement = 0#256)

/-- Memory keeps its canonical form in every step: keys strictly rising, and no entry equal to what an unlisted address reads as. Some of what it says is the model's reading or
choice: assumption log, entry 3. -/
def Obligations.StepKeepsMemoryCanonical : Prop :=
  ∀ s t : State, Memory.wf s.mem = true → step s = .next t → Memory.wf t.mem = true
end

