-- ==== Sys2Proof/Laws/Keep.lean ====
section
/-!
SUPPORT. Keeping the canonical form of memory: the law of a computation, one lemma for each way computations are put together, and
what an outcome built from one keeps.
-/
namespace Sys2Proof.Machine

/-- A computation that leaves memory canonical whether it answers or leaves by an exception. -/
def Keeps {α : Type} (m : Mach α) : Prop :=
  ∀ s, Memory.wf s.mem = true →
    match EStateM.run m s with
    | .ok _ t => Memory.wf t.mem = true
    | .error _ t => Memory.wf t.mem = true

/-- An outcome whose next state, if it has one, has canonical memory. -/
def Out.Keeps (o : Out) : Prop := ∀ t, o = .next t → Memory.wf t.mem = true

theorem Keeps.pure {α : Type} (a : α) : Keeps (Pure.pure a : Mach α) := fun _ h => h
theorem Keeps.get : Keeps (MonadState.get : Mach State) := fun _ h => h
theorem Keeps.throw {α : Type} (e : Exc) : Keeps (MonadExcept.throw e : Mach α) := fun _ h => h
theorem Keeps.trap {α : Type} (c : Nat) (v : Dword) : Keeps (Machine.trap c v : Mach α) := fun _ h => h
theorem Keeps.me : Keeps Machine.me := fun _ h => h
theorem Keeps.myCore : Keeps Machine.myCore := fun _ h => h
theorem Keeps.modifyMe (f : Ctx → Ctx) : Keeps (Machine.modifyMe f) := fun _ h => h

theorem Keeps.modifies {f : State → State} (hf : ∀ s, Memory.wf s.mem = true → Memory.wf (f s).mem = true) :
    Keeps (modify f : Mach Unit) := fun s h => hf s h

theorem Keeps.bind {α β : Type} {m : Mach α} {f : α → Mach β} (hm : Keeps m) (hf : ∀ a, Keeps (f a)) : Keeps (m >>= f) := by
  intro s h
  have h1 := hm s h
  rw [run_bind]
  cases hr : EStateM.run m s with
  | ok a t => rw [hr] at h1; exact hf a t h1
  | error e t => rw [hr] at h1; exact h1

theorem Keeps.check (ok : Bool) (c : Nat) (v : Dword) : Keeps (Machine.check ok c v) := by
  cases ok
  · exact fun _ h => h
  · exact fun _ h => h

theorem Keeps.ite {α : Type} {c : Prop} [Decidable c] {m n : Mach α} (hm : Keeps m) (hn : Keeps n) : Keeps (if c then m else n) := by
  split
  · exact hm
  · exact hn

theorem Keeps.tryCatch {α : Type} {m : Mach α} {f : Exc → Mach α} (hm : Keeps m) (hf : ∀ e, Keeps (f e)) :
    Keeps (MonadExcept.tryCatch m f : Mach α) := by
  intro s h
  have h1 := hm s h
  show match EStateM.tryCatch m f s with
    | .ok _ t => Memory.wf t.mem = true
    | .error _ t => Memory.wf t.mem = true
  unfold EStateM.tryCatch
  change match m s with
    | .ok _ t => Memory.wf t.mem = true
    | .error _ t => Memory.wf t.mem = true at h1
  dsimp only
  cases hr : m s with
  | ok a t => rw [hr] at h1; exact h1
  | error e t => rw [hr] at h1; exact hf e t h1

/-- A loop over a list keeps what its body keeps. -/
theorem Keeps.forIn {α β : Type} {l : List α} {b : β} {f : α → β → Mach (ForInStep β)} (hf : ∀ a b, Keeps (f a b)) :
    Keeps (ForIn.forIn l b f : Mach β) := by
  induction l generalizing b with
  | nil => exact Keeps.pure b
  | cons a r ih =>
    rw [List.forIn_cons]
    refine Keeps.bind (hf a b) fun x => ?_
    cases x with
    | done c => exact Keeps.pure c
    | yield c => exact ih

theorem Keeps.mapM {α β : Type} {l : List α} {f : α → Mach β} (hf : ∀ a, Keeps (f a)) : Keeps (l.mapM f) := by
  induction l with
  | nil => exact Keeps.pure _
  | cons a r ih =>
    rw [List.mapM_cons]
    exact Keeps.bind (hf a) fun b => Keeps.bind ih fun c => Keeps.pure _

/-! ## Outcomes -/

theorem Keeps.event {m : Mach Unit} (hm : Keeps m) {s : State} (h : Memory.wf s.mem = true) : (Machine.event m s).Keeps := by
  intro t ht
  have h1 := hm s h
  unfold Machine.event at ht
  cases hr : EStateM.run m s with
  | ok a u => rw [hr] at h1 ht; cases ht; exact h1
  | error e u => rw [hr] at h1 ht; cases ht; exact h1

/-- A meaning sealed keeps the form where its body, its seal and what its exceptions do keep it. -/
theorem Keeps.finish {m : Mach Unit} (hm : Keeps m) (hseal : Keeps sealUp)
    (hout : ∀ s t e, Memory.wf s.mem = true → Memory.wf t.mem = true → (outcomeOf s t e).Keeps) {s : State}
    (h : Memory.wf s.mem = true) : (Machine.finish m s).Keeps := by
  intro t ht
  have h1 := Keeps.bind hm (fun _ => hseal) s h
  unfold Machine.finish at ht
  cases hr : EStateM.run (do m; sealUp) s with
  | ok a u => rw [hr] at h1 ht; cases ht; exact h1
  | error e u => rw [hr] at h1 ht; exact hout s u e h h1 t ht

end Sys2Proof.Machine
end

