-- ==== Sys2Proof/Laws/Pipe.lean ====
section
/-!
SUPPORT. The pipe's shared operations: what a move of a lane, an insertion, a seal and a pan write can do (R19 to R36).
-/
namespace Sys2Proof.Machine

/-! ## The lanes -/

@[simp] theorem Pipe.garner_down (p : Pipe) : p.garner.down = p.down := rfl
@[simp] theorem Pipe.garner_siding (p : Pipe) : p.garner.siding = p.siding := rfl
@[simp] theorem Pipe.garner_perch (p : Pipe) : p.garner.perch = p.perch := rfl
@[simp] theorem Pipe.garner_pan (p : Pipe) : p.garner.pan = p.pan := rfl
@[simp] theorem Pipe.garner_ctxs (p : Pipe) : p.garner.ctxs = p.ctxs := rfl

/-- A source changes where it meets the result it awaits, and nowhere else (R21, R25). -/
theorem Source.meet_cases (r : Source) (ctx : Nat) (x : ResultPkt) :
    (r.meet ctx x = r) ∨
      (x.ctx = ctx ∧ x.reg = r.reg ∧ r.await = some x.seq ∧ r.meet ctx x = { r with await := none, value := x.value }) := by
  unfold Source.meet
  split
  · rename_i h
    simp only [Bool.and_eq_true, decide_eq_true_eq] at h
    exact .inr ⟨h.1.1, h.1.2, h.2, rfl⟩
  · exact .inl rfl

/-- A stage of the down lane that is full stays as it is (R20). -/
theorem Pipe.descend_full {p : Pipe} {n : Nat} (h : (p.down.find n).isSome = true) : p.descend n = p := by
  simp [Pipe.descend, h]

/-- A move in the down lane leaves the perch, the pan and what the pipe keeps of its contexts (R20, R26). -/
theorem Pipe.descend_frame (p : Pipe) (n : Nat) :
    (p.descend n).perch = p.perch ∧ (p.descend n).pan = p.pan ∧ (p.descend n).ctxs = p.ctxs := by
  unfold Pipe.descend
  dsimp only
  repeat' split
  all_goals exact ⟨rfl, rfl, rfl⟩

/-- A packet does not leave its home stage before it has executed there and injected its result, unless it traps (R26). -/
theorem Pipe.mayClimb_home {p : Pipe} {n : Nat} {q : Packet} (h : p.mayClimb n q = true) (hn : n = homeStage q.instr)
    (hf : q.fault = none) : q.executed = true ∧ q.resultPkt = none := by
  subst hn
  simp [Pipe.mayClimb, hf, Packet.finished] at h
  exact h.2

/-- Two packets of one context that can be in flight together do not have one number (R19). -/
theorem Packet.number_inj {a b : Packet} (h : a.number = b.number) (hab : a.seq ≤ b.seq) (hb : b.seq < a.seq + 64) :
    a.seq = b.seq := by
  simp only [Packet.number] at h
  omega

/-! ## The foot (R22, R24) -/

/-- What it takes for a context to insert, and what it inserts: fewer than 24 in flight, a foot that nothing holds, no fetch
that still waits, and a packet. -/
theorem State.insertNext_cases {s t : State} {core n : Nat} {guess : Option Dword} (h : s.insertNext core n guess = some t) :
    s.canRun (ctxKey core n) = true ∧ ((s.pipe core).ctxOf n).held = none ∧ (s.pipe core).flight n < 24 ∧
      ((s.pipe core).ctxOf n).fetching = false ∧ ∃ (q : Packet) (u : State), t = u.enter core q ∧ (q.dest.isSome = true → u.panRoom core = true) := by
  unfold State.insertNext at h
  dsimp only at h
  split at h
  · exact absurd h (by simp)
  · rename_i hc
    simp only [Bool.or_eq_true, Bool.not_eq_true', decide_eq_true_eq, not_or, Bool.not_eq_false, Option.not_isSome_iff_eq_none,
      Nat.not_le] at hc
    refine ⟨hc.1.1.1, hc.1.1.2, hc.1.2, by simpa using hc.2, ?_⟩
    split at h
    · exact absurd h (by simp)
    · rename_i q u _
      split at h
      · exact absurd h (by simp)
      · rename_i hr
        refine ⟨q, u, (Option.some.inj h).symm, fun hd => ?_⟩
        by_contra hp
        exact hr (by simp [hd, hp])

/-! ## The seal and the pan (R29, R31) -/

@[simp] theorem Pipe.retire_pan (p : Pipe) (q : Packet) : (p.retire q).pan = p.pan := rfl
@[simp] theorem Pipe.retire_down (p : Pipe) (q : Packet) : (p.retire q).down = p.down := rfl
@[simp] theorem Pipe.retire_lastSealed (p : Pipe) (q : Packet) : (p.retire q).lastSealed = q.ctx := rfl

/-- A packet is sealed where its context runs and it is complete at the start of the cycle and the context's
oldest, and where it publishes with no store of its own to scratchpad still out (R29). -/
theorem State.sealable_cases {s : State} {core n : Nat} {q : Packet} (h : s.sealable core n = some q) :
    (s.ctxAt (ctxKey core n)).status = .running ∧ q ∈ (s.pipe core).packets ∧ q.ctx = n ∧
      q.seq = ((s.pipe core).ctxOf n).sealed ∧ q.ready = true ∧
      (q.publishes = true → ∀ o ∈ s.outboundOf core n, o.packet.storesNear = false) := by
  unfold State.sealable at h
  dsimp only at h
  split at h
  · exact absurd h (by simp)
  · rename_i hs
    have hq := List.find?_some h
    simp only [Bool.and_eq_true, beq_iff_eq, Bool.not_eq_true', Bool.and_eq_false_iff, List.any_eq_false, Bool.not_eq_true] at hq
    refine ⟨by simpa using hs, List.mem_of_find?_eq_some h, hq.1.1.1, hq.1.1.2, hq.1.2, fun hp o ho => ?_⟩
    rcases hq.2 with hx | hx
    · exact absurd hp (by simp [hx])
    · exact hx o ho

/-- A pan entry that may be written was filled at the start of the cycle and stands before none older of its context, and what fills it
is known sealed, of a deposit all that went before it (R31). -/
theorem Pipe.mayWrite_cases {p : Pipe} {before : List PanEntry} {e : PanEntry} (h : p.mayWrite before e = true) :
    e.value.isSome = true ∧ e.ready = true ∧ (∀ f ∈ before, f.ctx ≠ e.ctx) ∧
      (if e.external then e.seq ≤ (p.ctxOf e.ctx).known else e.seq < (p.ctxOf e.ctx).known) := by
  simp only [Pipe.mayWrite, Bool.and_eq_true, Bool.not_eq_true', List.any_eq_false, beq_iff_eq, decide_eq_true_eq] at h
  exact ⟨h.1.1.1, h.1.1.2, h.1.2, h.2⟩

end Sys2Proof.Machine
end

