-- ==== Sys2Proof/Tests/Slice0.lean ====
section
/-!
SUPPORT. The model's own tests.
Three kinds: the checks of `WellFormed`, each with a term it refuses; words written out from the manual's tables of fields (R175 to R197)
and what they decode to; and, for the statements in Certificates/Slice0, small states that meet each clause's hypotheses, where one
step is run. A state is built by a helper and one step is taken; nothing here is a claim.
-/
namespace Sys2Proof.Tests
open Sys2Proof Sys2Proof.Machine Sys2Proof.Claims

set_option Elab.async false

/-! ## WellFormed refuses -/

theorem test_wf_loops : Instr.wf (.loop 0 4) = false ∧ Instr.wf (.loopr 0 4) = false ∧ Instr.wf (.loop 7 4) = true := by decide
theorem test_wf_rep : Instr.wf (.rep 0 3) = false ∧ Instr.wf (.rep 7 0) = false ∧ Instr.wf (.rep 7 33) = false ∧
    Instr.wf (.rep 7 32) = true := by decide
theorem test_wf_load_sizes : Instr.wf (.ld 5 6 .d true .sp 0) = false ∧ Instr.wf (.ldSt 5 6 .d true .sp .mod) = false ∧
    Instr.wf (.ld 5 6 .w true .sp 0) = true := by decide
theorem test_wf_atomics : Instr.wf (.amo .fadd .d 5 6 .mod false false) = false ∧ Instr.wf (.red .fadd .d 5 6 .mod false) = false ∧
    Instr.wf (.red .swap .w 5 6 .mod false) = false ∧ Instr.wf (.amo .swap .d 5 6 .mod true true) = true := by decide
theorem test_wf_conversions : Instr.wf (.vcvt .fp32 .fp32 3 4 0) = false ∧ Instr.wf (.vcvt .fp16 .f8a 3 4 0) = false ∧
    Instr.wf (.vclass .int8 3 4 0) = false ∧ Instr.wf (.vcvt .fp16 .bf16 3 4 0) = true := by decide
theorem test_wf_matrix : Instr.wf (.mmaSp .fp16 false false 0 1 2 9) = false ∧ Instr.wf (.mmaSp .dp8g16 false false 0 1 2 9) = true := by
  decide
theorem test_wf_ring_counts : Instr.wf (.cbwait 1 9 3) = false ∧ Instr.wf (.cbroom 1 9 3) = false ∧
    Instr.wf (.cbadv 1 9 3) = false ∧ Instr.wf (.cbpub 1 9 3) = false ∧ Instr.wf (.cbwait 1 0 3) = true ∧
    Instr.wf (.cbwait 1 9 0) = true := by decide
/-- An ordering with a scope but neither `.acq` nor `.rel`. -/
def badOrder : MemOrder := { scope := .mod, acq := false, rel := false }
theorem test_wf_orderings : Instr.wf (.copy 0 1 2 3 badOrder .sp) = false ∧ Instr.wf (.copyIn 0 1 2 3 badOrder .sp) = false ∧
    Instr.wf (.copy2 0 1 2 3 badOrder .sp) = false ∧ Instr.wf (.gath 0 1 2 3 badOrder .sp) = false ∧
    Instr.wf (.collAllred 0 1 2 3 badOrder) = false ∧ Instr.wf (.collRed 0 1 2 3 badOrder) = false ∧
    Instr.wf (.collBcast 0 1 2 3 badOrder) = false ∧ Instr.wf (.collAllgath 0 1 2 3 badOrder) = false ∧
    Instr.wf (.collRedscat 0 1 2 3 badOrder) = false ∧ Instr.wf (.slcall 5 6 7 badOrder) = false ∧
    Instr.wf (.slpush 5 6 7 badOrder) = false ∧ Instr.wf (.depo 5 6 .mod false) = false ∧
    Instr.wf (.copyIn 0 1 2 3 { badOrder with rel := true } .none) = false ∧ Instr.wf (.depo 5 6 .mod true) = true := by decide
theorem test_wf_short_forms : Instr.wf (.axrBegin 3 1) = false ∧ Instr.wf (.axrBegin 3 2) = true ∧
    Instr.wf (.compactLane 0 0 0) = false ∧ Instr.wf (.compactLane 0 0 1) = true := by decide

/-! ## Words from the tables of fields -/

theorem test_decode_op : decodeTableWord 32 0x0028A285 = some (.add 5 5 5) ∧ decodeTableWord 32 0x0A594485 = some (.andn 9 10 11) := by
  decide +kernel
theorem test_decode_opi : decodeTableWord 32 0x06400483 = some (.addi 9 0 100) ∧ decodeTableWord 32 0xFFF0C403 = some (.addi 8 6 0xFFF) ∧
    decodeTableWord 32 0x07890403 = some (.andi 8 8 15) ∧ decodeTableWord 32 0x00C94483 = some (.sltiu 9 10 1) ∧
    decodeTableWord 32 0x0268E383 = some (.srli 7 7 4) ∧ decodeTableWord 32 0x2468A409 = some (.lui 8 0x12345) := by decide +kernel
theorem test_decode_muldiv : decodeTableWord 32 0x06512287 = some (.div 5 9 10 false) ∧
    decodeTableWord 32 0x16512287 = some (.div 5 9 10 true) := by decide +kernel
theorem test_decode_control : decodeTableWord 32 0xFF80058D = some (.beq 11 0 0x3FE) ∧ decodeTableWord 32 0xFE88030D = some (.bne 6 0 0x3FA) ∧
    decodeTableWord 32 0x00002011 = some (.jalr 0 1 0) ∧ decodeTableWord 32 0x0004008F = some (.jal 1 0x20) ∧
    decodeTableWord 32 0xFFD00393 = some (.loop 7 0x1FFA) ∧ decodeTableWord 32 0xFFA02393 = some (.loopr 7 0x1FF4) ∧
    decodeTableWord 32 0x00184393 = some (.rep 7 3) := by decide +kernel
theorem test_decode_system : decodeTableWord 32 0x021A801F = some (.csrrw 0 20 0x043) ∧ decodeTableWord 32 0x0001449F = some (.csrrw 9 10 0) ∧
    decodeTableWord 32 0x4018049F = some (.csrrs 9 0 0x003) ∧ decodeTableWord 32 0xC001201F = some (.trap 9) ∧
    decodeTableWord 32 0xC008001F = some .eret ∧ decodeTableWord 32 0xC010001F = some .wfe ∧
    decodeTableWord 32 0xC019401F = some (.dictLoad 10) ∧ decodeTableWord 32 0x00594045 = some (.xlinv 10 11) ∧
    decodeTableWord 32 0x020144C5 = some (.bist 9 10) := by decide +kernel
theorem test_decode_fences : decodeTableWord 32 0x2600001D = some (.fenceRel .mod) ∧ decodeTableWord 32 0x4000001D = some .fenceSp ∧
    decodeTableWord 32 0x8000001D = some .ifence := by decide +kernel
theorem test_decode_vector : decodeTableWord 32 0x408411A1 = some (.vadd .h 3 1 2 2) ∧
    decodeTableWord 32 0x001021AB = some (.kand 3 1 2) := by decide +kernel
theorem test_decode_units : decodeTableWord 32 0x0600003B = some (.done 0) ∧ decodeTableWord 32 0x00010043 = some (.bharv 8) ∧
    decodeTableWord 32 0x020104C3 = some (.bquery 9 8) ∧ decodeTableWord 32 0x00AA853F = some (.netOpen 10 20 21) ∧
    decodeTableWord 32 0x0401663F = some (.netDrop 12 11 0) := by decide +kernel

/-! ## What the tests of steps share -/

/-- Whether two contexts are the same in all but their lanes and accumulators, which the tests of those compare. -/
def ctxSame (c d : Ctx) : Bool :=
  (c.pc == d.pc) && (c.npc == d.npc) && (c.x.toList == d.x.toList) && (c.k.toList == d.k.toList) && decide (c.rep = d.rep) &&
    (c.fcsr == d.fcsr) && (c.ctxcfg == d.ctxcfg) && (c.wofs == d.wofs) && (c.pts == d.pts) && (c.trapcause == d.trapcause) &&
    (c.trappc == d.trappc) && (c.trapval == d.trapval) && (c.trapvec == d.trapvec) && decide (c.region = d.region) &&
    decide (c.pending = d.pending) && decide (c.fills = d.fills) && (c.latch == d.latch) && (c.record == d.record) &&
    decide (c.status = d.status) && decide (c.handles.toList = d.handles.toList) && decide (c.ports.toList = d.ports.toList)
/-- Whether two tables hold the same contexts under the same keys. -/
def ctxsSame : Tab Ctx → Tab Ctx → Bool
  | [], [] => true
  | a :: r, b :: q => (a.1 == b.1) && ctxSame a.2 b.2 && ctxsSame r q
  | _, _ => false
/-- Whether two states are the same in all but lanes and accumulators. -/
def stSame (s t : State) : Bool :=
  ctxsSame s.ctxs t.ctxs && decide ({ s with ctxs := [] } = { t with ctxs := [] })
/-- Whether two outcomes are the same in all but lanes and accumulators. -/
def same (a b : Out) : Bool :=
  match a, b with
  | .next s, .next t => stSame s t
  | .fault f, .fault g => decide (f = g)
  | _, _ => false
/-- The state of an outcome. -/
def stOf : Out → State
  | .next t => t
  | _ => State.reset
/-- The answer of a run that succeeds. -/
def okv {α : Type} (m : EStateM Exc State α) (s : State) : Option (α × State) :=
  match EStateM.run m s with
  | .ok a t => some (a, t)
  | .error _ _ => none
/-- The state after a run that succeeds. -/
def after {α : Type} (m : EStateM Exc State α) (s : State) : Option State := (okv m s).map Prod.snd
/-- No port is bound, and instructions are taken whole. -/
def np (s : State) : Bool := !s.me.anyPort && s.run.isNone
/-- Every check of a list holds. -/
def all (l : List Bool) : Bool := l.all id
/-- A context that runs at 0x1000, with a handler. -/
def ctx0 : Ctx :=
  { Ctx.reset with pc := 0x1000#64, npc := 0x1004#64, status := .running, trapvec := 0x4000#64, ir := 77#64 }
/-- A machine in which one context stands at a core. -/
def mk (core ctx : Nat) (f : Ctx → Ctx) : State :=
  { State.reset with agenda := [], cur := (core, ctx), ctxs := [(ctxKey core ctx, f ctx0)], released := true, feature := 0xFF#64 }
/-- The vector register with `f` in its lanes. -/
def vv (f : Nat → Nat) : VVal := lanesOf fun i => BitVec.ofNat 32 (f i.val)

/-! ## Scalar instructions -/

/-- x9 holds a, x10 b, x5 c. -/
def abc (a b c : Nat) (dzq : Nat) : State :=
  mk 0x123 3 fun x =>
    { ((x.setX 9 (BitVec.ofNat 64 a)).setX 10 (BitVec.ofNat 64 b)).setX 5 (BitVec.ofNat 64 c) with ctxcfg := BitVec.ofNat 64 dzq }
def writesOf (i : Instr) (c : Ctx) : Option (XReg × Dword) :=
  (opWrites i c).orElse fun _ => (immWrites i c).orElse fun _ => mulWrites i c
/-- A register result: the statement's table has an entry, and the step leaves what the table says. -/
def regTest (s : State) (i : Instr) : Bool :=
  match writesOf i s.me with
  | some (rd, v) => np s && same (exec i s) (sealedAs s (s.me.setX rd v))
  | none => false

theorem test_hyps_RegisterResults_op :
    all ([.add 5 9 10, .sub 5 9 10, .and 5 9 10, .or 5 9 10, .xor 5 9 10, .andn 5 9 10, .sll 5 9 10, .srl 5 9 10, .sra 5 9 10,
      .slt 5 9 10, .sltu 5 9 10, .min 5 9 10, .max 5 9 10, .minu 5 9 10, .maxu 5 9 10, .sel 5 9 10, .clz 5 9, .ctz 5 9,
      .popc 5 9, .add 0 9 10].flatMap fun i =>
        [regTest (abc (2 ^ 64 - 7) 65 1 0) i, regTest (abc 0 (2 ^ 63) 0 0) i]) = true := by decide +kernel
theorem test_hyps_RegisterResults_immediates :
    all ([.addi 5 9 0x9FF, .andi 5 9 0x1F0, .ori 5 9 0x1F1, .xori 5 9 0x0F1, .slti 5 9 0x1FF, .sltiu 5 9 0x1FF, .slli 5 9 7,
      .srli 5 9 33, .srai 5 9 63, .lui 5 0x7FFFF, .lui 5 0x12345, .addpc 5 0x7FFFF].map fun i =>
        regTest (abc (2 ^ 64 - 2) 0 0 0) i) = true := by decide +kernel
theorem test_hyps_RegisterResults_muldiv :
    all ([.mul 5 9 10 true, .mul 5 9 10 false, .mulh 5 9 10, .mulhu 5 9 10, .div 5 9 10 true, .div 5 9 10 false, .divu 5 9 10 true,
      .divu 5 9 10 false, .rem 5 9 10 true, .rem 5 9 10 false, .remu 5 9 10 true, .remu 5 9 10 false].flatMap fun i =>
        [regTest (abc (2 ^ 63) (2 ^ 64 - 1) 0 0) i, regTest (abc (2 ^ 31) (2 ^ 64 - 1) 0 0) i, regTest (abc 99 (2 ^ 64 - 7) 0 0) i,
          regTest (abc 99 0 0 1) i]) = true := by decide +kernel
/-- A zero divisor with DZQ clear; the low 32 bits decide in the `.w` forms. -/
theorem test_hyps_RegisterResults_zero_divisor :
    all ([.div 5 9 10 true, .divu 5 9 10 true, .rem 5 9 10 true, .remu 5 9 10 true].map (fun i =>
        let s := abc 99 (2 ^ 32) 7 0
        decide (divides i s.me = some (99#64, true)) && same (exec i s) (trapped s 0x02 99#64)) ++
      [.div 5 9 10 false, .divu 5 9 10 false, .rem 5 9 10 false, .remu 5 9 10 false].map (fun i =>
        let s := abc 99 0 7 0
        decide (divides i s.me = some (99#64, true)) && same (exec i s) (trapped s 0x02 99#64))) = true := by decide +kernel

theorem test_hyps_BranchesJumpsAndLoops :
    all (([.beq 9 10 0x3FE, .bne 9 10 0x3FE, .blt 9 10 4, .bge 9 10 4, .bltu 9 10 4, .bgeu 9 10 4, .jal 1 0x7FFFF, .jal 0 3,
        .jalr 9 9 0x1FFF].flatMap fun i => [abc 7 7 0 0, abc (2 ^ 64 - 1) 5 0 0].map fun s =>
          match jumps i s.me with
          | some c => np s && same (exec i s) (sealedAs s c)
          | none => false) ++
      [abc 1 0 0 0, abc 0 0 0 0, abc 2 0 0 0].flatMap fun s =>
        [same (exec (.loop 9 0x1FF8) s) (sealedAs s (loops 9 0x1FF8 s.me)),
          same (exec (.loopr 9 0x1FF8) s)
            (sealedAs (s.pinActive s.myKey)
              { loops 9 0x1FF8 s.me with wofs := BitVec.ofNat 64 ((s.me.wofs.toNat + 1) % 16) })]) = true := by decide +kernel

/-- A machine whose reset has placed a first word, and that fetches it. -/
def fetching (core ctx : Nat) (f : Ctx → Ctx) : State :=
  let s := State.reset.withFetchWord 32 0
  let c := { s.ctxAt 0 with status := .running, npc := 0xFF00000000010004#64, ir := 77#64, trapvec := 0x4000#64 }
  { s with cur := (core, ctx), feature := 0xFF#64, ctxs := [(ctxKey core ctx, f c)] }
/-- REP at 0xFF00...010000 with its clause of words behind it, the counter in x7. -/
def atRep (count : Nat) (words : List Nat) : State :=
  let s := fetching 0x123 3 fun c => c.setX 7 (BitVec.ofNat 64 count)
  s.setBytes (dramBase 0 + 0x10000) (0x00184393 :: words |>.flatMap (bytesOfNat 4))
/-- Three ADD x5,x5,x5. -/
def goodClause : List Nat := [0x0028A285, 0x0028A285, 0x0028A285]

theorem test_hyps_Repetition_count :
    all ([0, 1, 5].map fun count =>
      let s := atRep count goodClause
      match okv (captureClause 3 s.me.npc) (s.setMe { s.me with rep := RepBuf.empty }) with
      | some ((first :: rest, e), s1) =>
        np s1 && ((first :: rest).all fun i => !s1.clauseRefuses i.raw i.long) && (rest.length == 2) &&
          same (exec (.rep 7 3) s)
            (if s1.me.getX 7 = 0#64 then .next (s1.setMe (at_ s1.me e))
             else .next (s1.setMe (at_
               { s1.me with
                 rep := { st := .reissuing, pc := s.me.pc, items := first :: rest, after := e, iter := (s1.me.getX 7).toNat,
                          stag := 0 } } first.pc)))
      | _ => false) = true := by decide +kernel
/-- A clause whose first instruction is a REP traps. -/
theorem test_hyps_Repetition_refused :
    (let s := atRep 2 (0x00184393 :: goodClause)
     match okv (captureClause 3 s.me.npc) (s.setMe { s.me with rep := RepBuf.empty }) with
     | some ((first :: _, _), s1) =>
       np s1 && s1.clauseRefuses first.raw first.long &&
         same (exec (.rep 7 3) s)
           (.next ((s1.setCtxAt s.myKey { s.me with rep := RepBuf.empty }).takeTrap s.myKey 0x01 s.me.pc
             (s1.layOut first.raw first.long)))
     | _ => false) = true := by decide +kernel
/-- The buffer at the first and the last of two instructions, with iterations left and without. -/
theorem test_hyps_Repetition_reissue :
    (let i : Nat → ClauseItem := fun n => { raw := 0x0028A285, long := true, pc := BitVec.ofNat 64 (0x2000 + 4 * n) }
     let c : Nat → Nat → Ctx := fun stag iter =>
       { ctx0 with rep := { st := .reissuing, pc := 0x1000#64, items := [i 0, i 1], after := 0x3000#64, iter := iter, stag := stag } }
     all [decide ((c 0 2).repNext = { c 0 2 with rep := { (c 0 2).rep with stag := 1 }, pc := 0x2004#64 }),
       decide ((c 1 2).repNext = { c 1 2 with rep := { (c 1 2).rep with stag := 0, iter := 1 }, pc := 0x2000#64 }),
       decide ((c 1 1).repNext = { c 1 1 with rep := RepBuf.empty, pc := 0x3000#64 })]) = true := by decide +kernel

/-- Traps outside a handler, in one, and with TRAPVEC zero. -/
theorem test_hyps_TakingATrap :
    (let s := abc 1 2 3 0
     let k := s.myKey
     let t := s.takeTrap k 0x0C 0x1000#64 9#64
     let inside := s.setMe { s.me with trapcause := 0x10C#64 }
     let bare := s.setMe { s.me with trapvec := 0#64 }
     let fatal := fun (s : State) =>
       let t := s.takeTrap k 0x0C 0x1000#64 9#64
       ((t.ctxAt k).status == .fatal) && ((t.ctxAt k).trapcause == 0x10C#64) && ((t.ctxAt k).trappc == 0x1000#64) &&
         ((t.ctxAt k).x == (s.ctxAt k).x) && ((t.ctxAt k).pc == (s.ctxAt k).pc)
     all [!(s.ctxAt k).inHandler, (s.ctxAt k).trapvec != 0#64, !isSluice (k / 16), isArith (k / 16),
       decide (t = s.setCtxAt k
         { s.ctxAt k with
           trapcause := 0x10C#64, trappc := 0x1000#64, trapval := 9#64, pc := 0x4000#64, npc := 0x4000#64, status := .running,
           region := none, pending := none }),
       (inside.ctxAt k).inHandler, fatal inside, (bare.ctxAt k).trapvec == 0#64, fatal bare]) = true := by decide +kernel

theorem test_hyps_TrapAndEret :
    (let inside := fun (core n : Nat) => mk core n fun c => { c.setX 9 5#64 with trapcause := 0x10C#64, trappc := 0x2345#64 }
     let back := fun (s : State) => s.setMe (at_ s.me.eret 0x2344#64)
     all [np (inside 0x123 3), np (inside 0x123 0), np (mk 0x123 3 id),
       same (exec (.trap 9) (inside 0x123 3)) (trapped (inside 0x123 3) 0x0C 5#64),
       (inside 0x123 3).me.inHandler, same (exec .eret (inside 0x123 3)) (.next (back (inside 0x123 3))),
       same (exec .eret (inside 0x123 0))
         (.next ((back (inside 0x123 0)).setCore 0x123 { (inside 0x123 0).core 0x123 with stopped := false })),
       !((inside 0x123 0).core 0x123).stopped,
       !(mk 0x123 3 id).me.inHandler, same (exec .eret (mk 0x123 3 id)) (trapped (mk 0x123 3 id) 0x01 77#64)]) = true := by
  decide +kernel

/-- A control register of a unit and, at a steward, one of its own. -/
theorem test_hyps_ControlRegisters_access :
    all ([(0x123, 0x000), (0x123, 0x0FF), (0x123, 0x003), (16384, 0x1C0)].map fun (core, n) =>
      let s := mk core 0 fun c => { c.setX 10 0x1F#64 with fcsr := 3#64 }
      let csr := BitVec.ofNat 11 n
      match s.csr n with
      | none => n == 0x0FF
      | some old =>
        let w := s.setMe (s.me.setX 9 old)
        let wrote := fun (v : Dword) =>
          sealedAs ((w.setCsr n v).pinActive s.myKey) ((w.setCsr n v).pinActive s.myKey).me
        all [np s, decide (n < 0x100) || isRingmaster core,
          same (exec (.csrrw 9 10 csr) s) (wrote 0x1F#64), same (exec (.csrrs 9 10 csr) s) (wrote (old ||| 0x1F#64)),
          same (exec (.csrrc 9 10 csr) s) (wrote (old &&& ~~~0x1F#64)),
          same (exec (.csrrs 9 0 csr) s) (sealedAs s (s.me.setX 9 old)),
          same (exec (.csrrc 9 0 csr) s) (sealedAs s (s.me.setX 9 old))]) = true := by decide +kernel

theorem test_hyps_PrivilegeTraps :
    (let s := mk 0x123 3 id
     all [!isRingmaster 0x123, same (exec (.csrrw 9 10 0x100) s) (trapped s 0x06 77#64),
       same (exec (.csrrs 9 10 0x7FF) s) (trapped s 0x06 77#64), same (exec (.csrrc 9 10 0x100) s) (trapped s 0x06 77#64),
       (s.csr 0x0FF).isNone, same (exec (.csrrw 9 10 0x0FF) s) (trapped s 0x01 77#64),
       same (exec (.csrrs 9 0 0x0FF) s) (trapped s 0x01 77#64), same (exec (.csrrc 9 0 0x0FF) s) (trapped s 0x01 77#64),
       same (exec (.xlinv 9 10) s) (trapped s 0x06 77#64), same (exec (.bist 9 10) s) (trapped s 0x06 77#64)]) = true := by
  decide +kernel
/-- One instruction of each family that only arithmetic cores execute, at a steward and at a sluice core. -/
theorem test_hyps_PrivilegeTraps_arithmetic_only :
    all ([16384, sluiceCore 0 2].flatMap fun core =>
      let s := mk core 0 id
      [.bupd .addW 9 10 .mod false, .dictLoad 9, .compactLane 1 2 3, .dictionaryReference 3 1, .vadd .w 1 2 3 0, .vfadd .s 1 2 3 0,
        .vmovx 1 9, .vld 1 9 .sp 0, .kand 1 2 3, .vcvt .fp16 .fp32 1 2 0, .mzero 1, .copy 0 1 2 3 badOrder .sp, .phStat 9 10,
        .bar .row 9, .yield, .netStat 9 10, .bquery 9 10, .axrStat 9 3, .fenceSp, .rinit 1 9, .unbind 2].map fun i =>
          arithOnly i && !isArith core && same (exec i s) (trapped s 0x01 77#64)) = true := by decide +kernel

theorem test_hyps_WaitForEvent :
    (let s := mk 0x123 3 fun c => { c with latch := true }
     let u := mk 0x123 3 id
     let ev := fun (s : State) => { s with subject := { Subject.nothing with place := 0x123, index := 3 } }
     let w := ev (stOf (exec .wfe u))
     let k := ctxKey 0x123 3
     all [np s, same (exec .wfe s) (sealedAs s { s.me with latch := false }),
       same (exec .wfe u) (sealedAs u { u.me with status := .waiting .event none }),
       (w.ctxAt k).status == .waiting .event none,
       same (exec .wfeWake w) (.next (w.setCtxAt k { w.ctxAt k with status := .running, latch := false })),
       same (exec .wfeSpuriousCompletion w) (.next (w.setCtxAt k { w.ctxAt k with status := .running, latch := false })),
       same (exec .wfeWake (ev u)) (.next ((ev u).setCtxAt k { u.ctxAt k with latch := true }))]) = true := by decide +kernel

/-! ## Scalar memory -/

/-- A core with bytes in its scratchpad and in memory; x9 points at the first, x11 at the second. -/
def mem0 : State :=
  let s := fetching 0x123 3 fun c => ((c.setX 9 0x1000#64).setX 10 0x8877665544332211#64).setX 11 0xFF00000000010200#64
  (s.setBytes (dramBase 0 + 0x10200) (bytesOfNat 64 (2 ^ 512 / 7))).localStore 0x123 .sp 0x1000
    (bytesOfNat 16 0x8182838485868788)

theorem test_hyps_ScalarLoads_local :
    (let s := mem0
     all ([Size.b, .h, .w, .d].map fun size =>
       match okv (fetchBytes .sp 0x1000#64 0x1000#64 size.bytes) s with
       | some ((bs, bad), s1) =>
         all [np s, np s1, spaceAllowed 0x123 .sp, (extentCause s 0x123 .sp 0x1000 size.bytes false).isNone, !bad,
           bs.length == size.bytes, stSame s1 s, !s.localBad 0x123 .sp 0x1000 size.bytes,
           same (exec (.ld 5 9 size false .sp 0) s) (sealedAs s1 (s1.me.setX 5 (loaded false size.bytes bs))),
           same (exec (.ldSt 5 9 size false .sp .mod) s) (sealedAs s (s.me.setX 5 (loaded false size.bytes bs)))]
       | none => false)) = true := by decide +kernel
theorem test_hyps_ScalarLoads_global :
    (let s := mem0
     let ea := 0xFF00000000010200#64
     match okv (fetchBytes .global ea ea 4) s, okv (sitesOf .global ea ea 8) s with
     | some ((bs, bad), s1), some ([(t, 8)], s2) =>
       match okv (strongLoad (s.coreAgent s.myKey) t .mod 8 s.me.pts) s with
       | some ((cs, 0, pts), s3) =>
         all [np s, np s1, np s3, spaceAllowed 0x123 .global, (extentCause s 0x123 .global ea.toNat 4 false).isNone, !bad,
           bs.length == 4, cs.length == 8, stSame s2 s,
           same (exec (.ld 5 11 .w true .global 0) s) (sealedAs s1 (s1.me.setX 5 (loaded true 4 bs))),
           same (exec (.ldSt 5 11 .d false .global .mod) s)
             (sealedAs s3 ({ s3.me with pts := max s3.me.pts pts }.setX 5 (loaded false 8 cs)))]
       | _ => false
     | _, _ => false) = true := by decide +kernel

theorem test_hyps_ScalarStores_local :
    (let s := mem0
     let bs := bytesOfNat 4 0x44332211
     match after (storeBytes .sp 0x1004#64 bs) s, after (grantBytes .sp 0x1000#64 0x1000#64 4) s with
     | some s1, some g =>
       match after (probeBytes .sp 0x1000#64 0x1000#64 4) g with
       | some p =>
         match after (releaseMine .mod) p with
         | some r =>
           all [np s, np s1, np r, (extentCause s 0x123 .sp 0x1000 4 true).isNone, stSame s1 (s.localStore 0x123 .sp 0x1004 bs),
             same (exec (.st 10 9 .w .sp 1) s) (sealedAs (s1.pinActive s1.myKey) s1.me),
             same (exec (.stSt 10 9 .w .sp .mod) s)
               (sealedAs ((r.localStore 0x123 .sp 0x1000 bs).pinActive r.myKey) r.me)]
         | none => false
       | none => false
     | _, _ => false) = true := by decide +kernel
theorem test_hyps_ScalarStores_global :
    (let s := mem0
     let ea := 0xFF00000000010200#64
     let bs := bytesOfNat 8 0x8877665544332211
     match after (storeBytes .global ea bs) s, after (grantBytes .global ea ea 8) s with
     | some s1, some g =>
       match after (do probeBytes .global ea ea 8; releaseMine .mod) g with
       | some s3 =>
         match okv (sitesOf .global ea ea 8) s3 with
         | some ([(t, 8)], _) =>
           match okv (strongStore (s3.coreAgent s3.myKey) t .mod bs s3.me.pts) s3 with
           | some (pts, s4) =>
             all [np s, np s1, np s3, np s4,
               same (exec (.st 10 11 .d .global 0) s) (sealedAs (s1.pinActive s1.myKey) s1.me),
               same (exec (.stSt 10 11 .d .global .mod) s)
                 (sealedAs (s4.pinActive s4.myKey) { s4.me with pts := max s4.me.pts pts })]
           | none => false
         | _ => false
       | none => false
     | _, _ => false) = true := by decide +kernel
/-- A store of eight bytes at the end of a scratchpad: the byte before it and the byte behind it stand. -/
theorem test_hyps_LocalStoreFrame :
    (let t := mem0.localStore 0x123 .sp 0x3FFF8 (bytesOfNat 8 (2 ^ 64 - 2))
     all [Memory.wf mem0.mem, natOfBytes (t.localBytes 0x123 .sp 0x3FFF8 8) == 2 ^ 64 - 2,
       t.byte (localAddr 0x123 .sp 0x3FFF7) == mem0.byte (localAddr 0x123 .sp 0x3FFF7),
       t.byte (localAddr 0x124 .sp 0) == mem0.byte (localAddr 0x124 .sp 0)]) = true := by decide +kernel

theorem test_hyps_WeakReadsAndPrefetch :
    (let s := mem0
     let ea := 0xFF00000000010200#64
     let far := s.setMe (s.me.setX 9 0x0300000000000000#64)
     let lw := (s.setMe (s.me.setX 9 0x100#64)).setDieReg 1 0x1F0 7#64
     let off := s.setMe (s.me.setX 9 (BitVec.ofNat 64 (2 ^ 40)))
     match globalSite s ea ea with
     | none => false
     | some t =>
       match after (prefetch (s.coreAgent s.myKey) t s.me.pts) s,
          after (prefetch (lw.coreAgent lw.myKey) (lwSite 1 0x100#64 0x100#64) lw.me.pts) lw with
       | some s1, some l1 =>
         match (s.coreAgent s.myKey).levels t with
         | p :: _ =>
           match s1.findCopy p t.key with
           | some (base, c) =>
             match okv (weakLoad (s.coreAgent s.myKey) t .read 4 0) s1 with
             | some ((bs, bad, pts), s2) =>
               all [np s, np s1, np l1, same (exec (.pref 9 .sp 0) s) (sealedAs s s.me), (globalSite far 0x0300000000000000#64 0x0300000000000000#64).isNone,
                 same (exec (.pref 9 .global 0) far) (sealedAs far far.me),
                 same (exec (.pref 11 .global 0) s) (sealedAs s1 s1.me),
                 (extentCause lw 0x123 .lw 0x100 1 false).isNone, same (exec (.pref 9 .lw 0) lw) (sealedAs l1 l1.me),
                 (extentCause off 0x123 .lw (2 ^ 40) 1 false).isSome, same (exec (.pref 9 .lw 0) off) (sealedAs off off.me),
                 decide (0 ≤ c.rts), bs == (c.data.drop (t.key - base)).take 4, bad == 0, pts == max 0 c.wts, stSame s2 s1]
             | none => false
           | none => false
         | [] => false
       | _, _ => false) = true := by decide +kernel

theorem test_hyps_Atomics_operations :
    all ([AmoOp.swap, .add, .and, .or, .xor, .min, .max, .minu, .maxu].flatMap fun op =>
      [(32, 2 ^ 31, 5), (32, 2 ^ 32 - 1, 1), (64, 2 ^ 63 - 1, 2 ^ 63)].map fun (w, a, v) =>
        decide (amoValue w op a v = some (op.apply w a v))) = true := by decide +kernel
/-- AMO, CAS and RED of a word in memory, the first two with a release. -/
theorem test_hyps_Atomics_answers :
    (let s := (mem0.setMe (mem0.me.setX 5 7#64))
     let ea := 0xFF00000000010200#64
     let old := s.num (dramBase 0 + 0x10200) 4
     let s := s.setMe (s.me.setX 6 (BitVec.ofNat 64 old))
     match okv (atomicChecks ea .readWrite 4) s, okv (atomicChecks ea .write 4) s with
     | some (t, s1), some (t', w1) =>
       match after (releaseMine .mod) s1 with
       | some s2 =>
         match okv (atomic (s2.coreAgent s2.myKey) t .mod 4 s2.me.pts true fun a => some (AmoOp.add.apply 32 a 7)) s2,
           okv (atomic (s2.coreAgent s2.myKey) t .mod 4 s2.me.pts true fun a => if a = old then some 7 else none) s2,
           okv (atomic (w1.coreAgent w1.myKey) t' .mod 4 w1.me.pts false fun a => some (AmoOp.maxu.apply 32 a 7)) w1 with
         | some ((o, pts, false), s3), some ((o', pts', false), c3), some ((_, _, false), r3) =>
           let answered := fun (s3 : State) (o pts : Nat) (rd : XReg) =>
             sealedAs (s3.pinActive s3.myKey)
               ({ s3.me with pts := max s3.me.pts pts }.setX rd (BitVec.ofInt 64 (signedOfNat 32 o)))
           all [np s, np s1, np s3, np c3, np r3, o == old, o' == old,
             same (exec (.amo .add .w 5 11 .mod false true) s) (answered s3 o pts 5),
             same (exec (.casW 6 11 5 .mod false true) s) (answered c3 o' pts' 6),
             same (exec (.red .maxu .w 11 5 .mod false) s) (sealedAs (r3.pinActive r3.myKey) r3.me)]
         | _, _, _ => false
       | none => false
     | _, _ => false) = true := by decide +kernel

theorem test_hyps_FencesComplete :
    (let s := mem0
     match after (releaseMine .mod) s with
     | some s1 =>
       all [np s, np s1, isArith 0x123, same (exec (.fenceAcq .mod) s) (sealedAs (s.pinActive s.myKey) s.me),
         same (exec (.fenceRel .mod) s) (sealedAs (s1.pinActive s1.myKey) s1.me),
         same (exec (.fenceFull .mod) s) (sealedAs (s1.pinActive s1.myKey) s1.me),
         same (exec .fenceSp s) (sealedAs (s.pinActive s.myKey) s.me),
         (match after (releaseMine .clu) s with
          | some t => stSame t (s.setMe s.me)
          | none => false)]
     | none => false) = true := by decide +kernel

/-- The grain of x11, Brine with one holder, in a page whose entry allows it. -/
def briny : Option (State × Site × Home × BrineEntry × Nat) := do
  let ga := 0xFF00000000010220#64
  let s := ((mem0.setMe ((mem0.me.setX 11 ga).setX 10 0x77#64))).setBytes (dramBase 0 + 0x4080) (bytesOfNat 8 0x1004F)
  let t ← globalSite s ga ga
  let (h, s1) ← okv (homeOf (s.coreAgent s.myKey) t .write) s
  let i := holderIndex 0x123 t.loc
  let e : BrineEntry :=
    { tag := .addD, state := .brine, size := h.size, maxPts := 0, returned := [], phys := h.base,
      holders := [(i, { data := BrineTag.addD.identityData h.size, maxPts := 0, bad := false })] }
  return (s1, t, h, e, i)

theorem test_hyps_BrineInstructions :
    (match briny with
     | none => false
     | some (s, t, h, e, i) =>
       let b := { s with brine := [(h.key, e)] }
       match okv (homeOf (s.coreAgent s.myKey) t .write) s, okv (homeOf (s.coreAgent s.myKey) t .either) s,
          okv (homeOf (b.coreAgent b.myKey) t .either) b with
       | some (h1, s1), some (h2, s2), some (h3, b2) =>
         all [np s, np s1, np s2, np b2, isArith 0x123, s.feature.getLsbD 2, (globalSite s (s.me.getX 11) (s.me.getX 11)) == some t,
           decide (b.brineOf t.key = some (h.key, e)), (e.holders.find i).isSome,
           (b.heldUnder t.key i .addD).isSome, ((b.coreAgent b.myKey).levels t).all fun q => (b.findCopy q t.key).isNone,
           (match after (yieldCopies (b.coreAgent b.myKey) t) b with
            | some s0 => all [np s0, decide (s0.brineOf t.key = some (h.key, e))]
            | none => false),
           decide ((stOf (exec (.bupd .addD 11 10 .mod false) b)).brine ≠ b.brine), (stOf (exec (.bupd .addD 11 10 .mod false) b)).mem == b.mem,
           (s1.brine.find h1.key).isNone, same (exec (.bharv 11) s) (sealedAs (s1.pinActive s1.myKey) s1.me),
           (s2.brine.find h2.key).isNone, same (exec (.bquery 5 11) s) (sealedAs (s2.pinActive s2.myKey) (s2.me.setX 5 0#64)),
           (b2.brine.find h3.key).isSome,
           same (exec (.bquery 5 11) b)
             (sealedAs (b2.pinActive b2.myKey) (b2.me.setX 5 (BitVec.ofNat 64 (e.tag.code + 32 + 64))))]
       | _, _, _ => false) = true := by decide +kernel

theorem test_hyps_BadAccessesTrap_scalar :
    (let s := mem0.setMe ((mem0.me.setX 9 0x1002#64).setX 12 0x40000#64)
     let u := { s with cur := (16384, 0), ctxs := s.ctxs ++ [(ctxKey 16384 0, ctx0)] }
     all [np s, spaceAllowed 0x123 .sp, same (exec (.ld 5 9 .w false .sp 0) s) (trapped s 0x03 0x1002#64),
       same (exec (.ldSt 5 9 .w false .sp .mod) s) (trapped s 0x03 0x1002#64),
       same (exec (.st 5 9 .d .sp 1) s) (trapped s 0x03 0x100A#64), same (exec (.stSt 5 9 .d .sp .mod) s) (trapped s 0x03 0x1002#64),
       (match extentCause s 0x123 .sp 0x40000 4 false with
        | some cause => same (exec (.ld 5 12 .w false .sp 0) s) (trapped s cause 0x40000#64)
        | none => false),
       (match extentCause s 0x123 .sp 0x40000 4 true with
        | some cause => same (exec (.st 5 12 .w .sp 0) s) (trapped s cause 0x40000#64)
        | none => false),
       np u, !spaceAllowed 16384 .sp, same (exec (.ld 5 9 .w false .sp 0) u) (trapped u 0x01 77#64),
       same (exec (.amo .add .w 5 9 .mod false false) s) (trapped s 0x03 0x1002#64),
       same (exec (.red .add .d 9 5 .mod false) s) (trapped s 0x03 0x1002#64),
       same (exec (.casW 5 9 6 .mod false false) s) (trapped s 0x03 0x1002#64),
       same (exec (.casD 5 9 6 .mod false false) s) (trapped s 0x03 0x1002#64)]) = true := by decide +kernel
theorem test_hyps_BadAccessesTrap_vector :
    (let s := mem0.setMe (((mem0.me.setX 9 0x1002#64).setX 12 0x40000#64).setX 13 0x1000#64)
     let s := s.setMe (s.me.setV 6 (vv fun i => if i = 3 then 1 else 4 * i))
     let x := s.setMe (s.me.setX 13 0xFF0#64)
     all [np s, isArith 0x123, same (exec (.vld 3 9 .sp 0) s) (trapped s 0x03 0x1002#64),
       same (exec (.vst 3 9 .sp 0) s) (trapped s 0x03 0x1002#64), (extentCause s 0x123 .sp 0x40000 64 false).isSome,
       same (exec (.vld 3 12 .sp 0) s) (trapped s ((extentCause s 0x123 .sp 0x40000 64 false).getD 0) 0x40000#64),
       same (exec (.vst 3 12 .sp 0) s) (trapped s ((extentCause s 0x123 .sp 0x40000 64 true).getD 0) 0x40000#64),
       same (exec (.vldl 3 9 0) s) (trapped s 0x03 0x1002#64), same (exec (.vstl 3 9 0) s) (trapped s 0x03 0x1002#64),
       same (exec (.vldl 3 13 0) s) (trapped s 0x06 0x1000#64), same (exec (.vstl 3 13 4) x) (trapped x 0x06 0x1000#64),
       same (exec (.vgath 3 13 6 .sp) s) (trapped s 0x03 0x1001#64),
       same (exec (.vscat 3 13 6 .sp) s) (trapped s 0x03 0x1001#64)]) = true := by decide +kernel

/-! ## Vectors -/

/-- Lanes of every kind: zeros, ones, infinities, NaNs, subnormals, pairs of FP16. -/
def laneVal (n : Nat) : Nat :=
  match n % 8 with
  | 0 => 0
  | 1 => 0x3F800001
  | 2 => 0x7F800000
  | 3 => 0xFFC00000
  | 4 => 0x80000001
  | 5 => 0x3C003C01
  | 6 => 0xFF80C234
  | _ => 2654435761 * n % 2 ^ 32
/-- v3 to v6 filled, k1 with every third bit clear, x9 a value. -/
def vec (fcsr : Nat) : State :=
  mk 5 2 fun c =>
    let c := (((c.setV 3 (vv fun i => laneVal (3 * i + 7))).setV 4 (vv fun i => laneVal (5 * i + 1))).setV 5 (vv fun i =>
      laneVal (7 * i + 2))).setV 6 (vv fun i => laneVal (i + 4))
    { ((c.setK 1 0xB6DB#16).setK 4 0x0FF0#16).setX 9 0x8000000180000002#64 with fcsr := BitVec.ofNat 64 fcsr }
/-- A step whose next state has these lanes in a register, and the same in the context otherwise. -/
def laneTest (o want : Out) (vd : VReg) : Bool :=
  same o want && (((stOf o).me.getV vd).toList == ((stOf want).me.getV vd).toList)

theorem test_hyps_VopWritesElements :
    all ([ElemSize.w, .h, .b].flatMap fun z =>
      [.vadd z 3 4 5 1, .vsub z 3 4 5 1, .vmul z 3 4 5 0, .vmulh z 3 4 5 1, .vshl z 3 4 5 1, .vshr z 3 4 5 1, .vshra z 3 4 5 1,
        .vmin z 3 4 5 1, .vmax z 3 4 5 1, .vminu z 3 4 5 1, .vmaxu z 3 4 5 1, .vand 3 4 5 1, .vor 3 4 5 1, .vxor 3 4 5 1].map fun i =>
          let s := vec 0
          match vopOf i with
          | some (sz, vd, v1, v2, k, f) =>
            np s && isArith s.cur.1 && laneTest (exec i s) (sealedAs s (putLanes s.me vd k fun j =>
              eachElement (elemWidth sz) (f (elemWidth sz)) (lane s.me v1 j) (lane s.me v2 j))) 3
          | none => false) = true := by decide +kernel
theorem test_hyps_PermutesAndPredicates :
    (let s := vec 0
     all ([.vmov 3 4 1, .vsel 3 4 5 1, .vmovx 3 9, .vext 5 4 7, .vshuf 3 4 5 1, .vslideUp 3 4 3 1, .vslideUp 3 4 15 0,
        .vslideDn 3 4 3 1, .vslideDn 3 4 0 1, .vredAdd 3 4 1, .vredMin 3 4 1, .vredMax 3 4 1, .vredMinu 3 4 1, .vredMaxu 3 4 1,
        .vredAnd 3 4 1, .vredOr 3 4 1, .vredXor 3 4 1].map (fun i =>
          match permutes i s.me with
          | some c => np s && isArith s.cur.1 && laneTest (exec i s) (sealedAs s c) 3
          | none => false) ++
      [.kand 3 4 1, .kor 3 4 1, .kxor 0 4 1, .knot 3 4, .kmovKK 3 4, .kmovKX 3 9, .kmovXK 5 4, .kpopc 5 4, .kpopc 0 4].map (fun i =>
          match kops i s.me with
          | some c => np s && isArith s.cur.1 && same (exec i s) (sealedAs s c)
          | none => false))) = true := by decide +kernel

/-- Under FCSR 0, with every flag trapped, with FZ and FZN set, and rounding up. -/
theorem test_hyps_FloatLanes :
    all ([.vfadd .s 3 4 5 1, .vfadd .hf 3 4 5 1, .vfsub .s 3 4 5 0, .vfmul .hf 3 4 5 1, .vfdiv .s 3 4 5 1, .vfsqrt .s 3 4 1,
        .vfmin .s 3 4 5 1, .vfmax .hf 3 4 5 1, .vfabs .s 3 4 1, .vfneg .hf 3 4 1, .vfma 3 4 5 6 1, .vfms 3 4 5 6 1,
        .vfnma 3 4 5 6 1].flatMap fun i => [0, 0x1F0000, 0x1B].map fun fc =>
          let s := vec fc
          match fpOf i s.me with
          | some (r, vd, k, f) =>
            match modeOf r s.me with
            | some m =>
              np s && isArith s.cur.1 && laneTest (exec i s)
                (withFlags s (flagsOn s.me k fun j => (f m j).2) fun c => putLanes c vd k fun j => BitVec.ofNat 32 (f m j).1) 3
            | none => false
          | none => false) = true := by decide +kernel

theorem test_hyps_Compares :
    (let s := vec 0
     all (([ElemSize.w, .h, .b].flatMap fun z => [.vcmpEq z 3 4 5 1, .vcmpNe z 3 4 4 2, .vcmpLt z 3 4 5 0, .vcmpGe z 3 4 5 1,
        .vcmpLtu z 3 4 5 1, .vcmpGeu z 3 4 5 1, .vcmpGeu z 0 4 5 1].map fun i =>
          match vcmpOf i with
          | some (sz, kd, v1, v2, k, cond) =>
            let m := (stOf (exec i s)).me.getK kd
            np s && isArith s.cur.1 && same (exec i s) (sealedAs s (s.me.setK kd m)) &&
              (kd == 0 || (List.finRange 16).all fun j => m.getLsbD j.val == (on s.me k j && (List.range (32 / elemWidth sz)).all fun e =>
                cond (elemWidth sz) (elem (elemWidth sz) (lane s.me v1 j) e) (elem (elemWidth sz) (lane s.me v2 j) e)))
          | none => false) ++
      [.vfcmpEq 3 4 5 1, .vfcmpLt 3 4 5 1, .vfcmpLe 3 4 4 1, .vfcmpUn 3 4 5 0].map fun i =>
          match vfcmpOf i with
          | some (cond, kd, v1, v2, k) =>
            let m := (stOf (exec i s)).me.getK kd
            let r := fun j : Fin 16 =>
              fpCompare cond (modeWith s.me .rne) .fp32 (lane s.me v1 j).toNat (lane s.me v2 j).toNat
            np s && same (exec i s) (withFlags s (flagsOn s.me k fun j => (r j).2) (fun c => c.setK kd m)) &&
              (List.finRange 16).all fun j => m.getLsbD j.val == (on s.me k j && (r j).1)
          | none => false)) = true := by decide +kernel

theorem test_hyps_FloatReductions :
    all ([.vfredAdd 3 4 1, .vfredMin 3 4 1, .vfredMax 3 4 0].flatMap fun i => [0, 0x1F0000].map fun fc =>
      let s := vec fc
      match vfredOf i with
      | some (r, op, identity, vd, v1, k) =>
        match modeOf r s.me with
        | some m =>
          match level (op m) (level (op m) (level (op m) (level (op m)
              ((List.finRange 16).map fun j => (if on s.me k j then (lane s.me v1 j).toNat else identity, 0#7))))) with
          | [(v, flags)] => np s && laneTest (exec i s) (withFlags s flags fun c => permutes.lane0 c vd v) 3
          | _ => false
        | none => false
      | none => false) = true := by decide +kernel

/-- Every pair of R50, and every format of VCLASS. -/
theorem test_hyps_ConversionsAndRounding :
    (let s := vec 0
     let formats := [CvtFmt.fp32, .fp16, .bf16, .f8a, .f8b, .int32, .int8, .dp8]
     all (((formats.flatMap fun a => formats.map fun b => (a, b)).filter fun p => cvtPair p.1 p.2).map (fun (src, dst) =>
        match modeOf true s.me with
        | some m =>
          let scale := (lane s.me 4 4).toNat % 256
          let r := fun j : Fin 16 =>
            if dst = .dp8 then ((toDp8 m (s.me.getV 4)).2.getD j.val (0, 0#7))
            else convertElement m src dst scale (elementAt (s.me.getV 4) (cvtWidth src) j.val)
          let v := (stOf (exec (.vcvt src dst 3 4 1) s)).me.getV 3
          np s && s.feature.getLsbD 3 && Instr.wf (.vcvt src dst 3 4 1) &&
            (List.finRange 16).all fun j => elementAt v (cvtWidth dst) j.val ==
              if on s.me 1 j then (r j).1 % 2 ^ cvtWidth dst else elementAt (s.me.getV 3) (cvtWidth dst) j.val
        | none => false) ++
      [CvtFmt.fp32, .fp16, .bf16, .f8a, .f8b].map (fun src =>
        match cvtFFmt src with
        | some f =>
          let v := (stOf (exec (.vclass src 3 4 1) s)).me.getV 3
          (List.finRange 16).all fun j =>
            if on s.me 1 j then (List.range (32 / f.width)).all fun e =>
              elem f.width v[j.val] e == classOf f (elem f.width (lane s.me 4 j) e)
            else v[j.val] == lane s.me 3 j
        | none => false))) = true := by decide +kernel
/-- RM 5 and 7. -/
theorem test_hyps_ConversionsAndRounding_reserved :
    all ([.vfadd .s 3 4 5 1, .vfsub .s 3 4 5 1, .vfmul .s 3 4 5 1, .vfdiv .s 3 4 5 1, .vfsqrt .hf 3 4 1, .vfma 3 4 5 6 1, .vfms 3 4 5 6 1,
        .vfnma 3 4 5 6 1, .vfredAdd 3 4 1, .vcvt .dp8 .fp32 3 4 1].flatMap fun i => [5, 7].map fun fc =>
          let s := vec fc
          rounds i && isArith s.cur.1 && s.feature.getLsbD 3 && decide (5 ≤ s.me.fcsr.toNat % 8) &&
            same (exec i s) (trapped s 0x01 77#64)) = true := by decide +kernel
/-- The largest, the least and a zero value of each format. -/
theorem test_hyps_ExactValuesRoundToThemselves :
    all ([(FFmt.fp32, 0x7F7FFFFF), (.fp32, 0x80000001), (.fp32, 0x80000000), (.fp16, 0x7BFF), (.fp16, 0x0001), (.bf16, 0xFF7F),
        (.f8a, 0x01), (.f8b, 0x7B), (.fp32, 0x7F800000)].flatMap fun (f, w) => [Rm.rne, .rdn, .rmm].map fun rm =>
          decide (w < 2 ^ f.width) && !f.isNaN w && decide (f.round rm false (f.value false w) = (w, 0#7))) = true := by decide +kernel

/-- Bytes in the scratchpad at 0x1000, lanes in v5, lane offsets in v6, two of them the same. -/
def vmem : State :=
  (mk 0x123 3 fun c => ((((c.setX 9 0x1000#64).setX 12 0x100#64).setV 5 (vv fun i => i * 0x10000001 + i)).setV 6 (vv fun i =>
    (15 - i) / 2 * 8))).localStore 0x123 .sp 0x1000 (bytesOfNat 128 (2 ^ 1024 / 7))

theorem test_hyps_VectorLoadsWriteLanes :
    (let s := vmem
     match okv (fetchBytes .sp 0x1000#64 0x1000#64 64) s with
     | some ((bs, bad), s1) =>
       all [np s, np s1, !bad, bs.length == 64, (extentCause s 0x123 .sp 0x1000 64 false).isNone,
         laneTest (exec (.vld 3 9 .sp 0) s) (sealedAs s1 (putLanes s1.me 3 0 fun i => Claims.word bs i.val)) 3,
         (List.finRange 16).all fun i => (List.range 4).all fun j => !s.marked (laneBase 0x123 i.val + 0x100 + j),
         laneTest (exec (.vldl 3 12 0) s)
           (sealedAs s (putLanes s.me 3 0 fun i => BitVec.ofNat 32 (s.num (laneBase 0x123 i.val + 0x100) 4))) 3,
         (List.finRange 16).all fun i => (laneEa s 9 6 i).toNat % 4 == 0 &&
           (extentCause s 0x123 .sp (laneEa s 9 6 i).toNat 4 false).isNone && !s.localBad 0x123 .sp (laneEa s 9 6 i).toNat 4,
         laneTest (exec (.vgath 3 9 6 .sp) s)
           (sealedAs s (putLanes s.me 3 0 fun i => Claims.word (s.localBytes 0x123 .sp (laneEa s 9 6 i).toNat 4) 0)) 3]
     | none => false) = true := by decide +kernel
/-- Memory in grains of 512 bytes. -/
def wide : State := mem0.setBytes (dramBase 0 + 0x4080) (bytesOfNat 8 0x1040F)
/-- A gather from memory. -/
theorem test_hyps_VectorLoadsWriteLanes_global :
    (let s := wide.setMe (wide.me.setV 6 (vv fun i => 4 * i))
     let run : Mach (List (Dword × List Byte × Bool)) := do
       noteLoads (some .global) ((List.finRange 16).map (laneEa s 11 6)) 4
       laneAnswers .global ((List.finRange 16).map (laneEa s 11 6)) false
       ((List.finRange 16).map (laneEa s 11 6)).mapM fun ea => do
         let (bs, bad) ← fetchBytes .global ea ea 4
         return (ea, bs, bad)
     match okv run s with
     | some (parts, s1) =>
       all [np s, np s1, parts.all fun p => p.2.1.length == 4 && !p.2.2,
         laneTest (exec (.vgath 3 11 6 .global) s)
           (sealedAs s1 (putLanes s1.me 3 0 fun i => Claims.word ((parts.getD i.val (0#64, [], false)).2.1) 0)) 3]
     | none => false) = true := by decide +kernel
theorem test_hyps_VectorStoresStoreLanes :
    (let s := vmem
     let bytesOf := fun i : Fin 16 => bytesOfNat 4 (lane s.me 5 i).toNat
     let bs := (List.finRange 16).flatMap bytesOf
     let t := stOf (exec (.vstl 5 12 0) s)
     match after (storeBytes .sp 0x1040#64 bs) s with
     | some s1 =>
       all [np s, np s1, Memory.wf s.mem, same (exec (.vst 5 9 .sp 1) s) (sealedAs (s1.pinActive s1.myKey) s1.me),
         (List.finRange 16).all fun i => t.bytes (laneBase 0x123 i.val + 0x100) 4 == bytesOf i,
         (List.finRange 16).all fun i => (extentCause s 0x123 .sp (laneEa s 9 6 i).toNat 4 true).isNone]
     | none => false) = true := by decide +kernel

/-- A typed load, quiet and with its flags trapped, and a typed store, of a page of FP32. -/
theorem test_hyps_TypedAccesses :
    (let ea := 0xFF00000000010200#64
     let at_ := fun (fcsr : Dword) => wide.setMe { (wide.me.setV 5 (vv fun i => i)) with fcsr := fcsr }
     let load := fun (s : State) =>
       match okv (typedPlace ea .read) s with
       | some (p, s1) =>
         match okv (fetchBytes .global p.first ea p.count) s1 with
         | some ((bs, bad), s3) =>
           let r := fun i : Fin 16 => typedLane (typedMode s1.me) p 0 bs i.val
           let flags := (List.finRange 16).foldl (fun f i => f ||| (r i).2) 0#7
           all [np s, np s3, isArith s.cur.1, !bad, !p.sub, p.fmt == .fp32,
             same (exec (.vldt 3 11 0) s)
               (if flags.toNat % 32 &&& bits s3.me.fcsr.toNat 16 5 = 0 then
                 sealedAs s3 (putLanes (raised s3.me flags) 3 0 fun i => BitVec.ofNat 32 (r i).1)
                else trappedAfter s s3 0x08 (BitVec.ofNat 64 (flags.toNat % 32)))]
         | none => false
       | none => false
     let s := at_ 0#64
     let store :=
       match okv (typedPlace ea .write) s with
       | some (p, s1) =>
         match after (do grantBytes .global p.first ea p.count; probeBytes .global p.first ea p.count) s1 with
         | some s3 =>
           match after (performStore .global p.first ((List.finRange 16).flatMap fun i => bytesOfNat 4 (lane s.me 5 i).toNat))
               { s3 with free := s3.free + 1 } with
           | some s4 => all [np s4, p.fmt == .fp32, !p.scaled, !p.sub,
               same (exec (.vstt 5 11 0) s) (sealedAs (s4.pinActive s4.myKey) s4.me)]
           | none => false
         | none => false
       | none => false
     all [load s, load (at_ 0x1F0008#64), store]) = true := by decide +kernel

/-- DICT.LOAD of a good image, of a misaligned one and of a bad header. -/
theorem test_hyps_ShortForms_load :
    (let put := fun (header : Nat) => mem0.setBytes (dramBase 0 + 0x10200) (bytesOfNat 8 header ++ bytesOfNat 28 (2 ^ 224 / 7))
     let s := put (5 + 7 * 2 ^ 10)
     let bad := put 5
     let a := 0xFF00000000010200#64
     let odd := s.setMe (s.me.setX 11 0xFF00000000010204#64)
     match okv (imageBytes a 8) s, okv (imageBytes a 8) bad with
     | some (hd, s1), some (_, b1) =>
       match okv (imageBytes (a + 8) 28) s1 with
       | some (ws, s2) =>
         let t := stOf (exec (.dictLoad 11) s)
         all [np s, np s2, natOfBytes hd == 5 + 7 * 2 ^ 10, ws.length == 28,
           (List.range 14).all fun i => t.dictWord i == if 5 ≤ i ∧ i < 12 then Claims.word ws (i - 5) else s2.dictWord i,
           same (exec (.dictLoad 11) bad) (trappedAfter bad b1 0x06 a),
           same (exec (.dictLoad 11) odd) (trapped odd 0x03 0xFF00000000010204#64)]
       | none => false
     | _, _ => false) = true := by decide +kernel
/-- Compact forms, and references to: nothing; a RET, which no dictionary may hold; an ADD; a VADD, under k1 and without. -/
theorem test_hyps_ShortForms_references :
    (let s := vec 0
     let d := fun (w : Nat) (st : RepState) =>
       let u := s.setCore 5 { s.core 5 with dict := [(7, BitVec.ofNat 32 w)] }
       u.setMe { u.me with rep := { u.me.rep with st := st } }
     let refer := fun (w : Nat) (k : KReg) => exec (.dictionaryReference 7 k) (d w .idle)
     all [np s, laneTest (exec (.compactLane 8 3 4) s) (exec (.vfadd .s 3 3 4 0) s) 3,
       laneTest (exec (.compactLane 15 3 4) s) (exec (.vshl .w 3 3 4 0) s) 3,
       (match exec (.compactLane 14 3 4) s with
        | .next t => ((t.me.getV 4).toList == (s.me.getV 4).toList) && (t.mem == s.mem)
        | _ => false),
       (decoded 0 true).isNone, same (refer 0 0) (trapped (d 0 .idle) 0x01 77#64),
       (match decoded 0x00002011 true with
        | some i => refusedInDictionary i
        | none => false), same (refer 0x00002011 0) (trapped (d 0x00002011 .idle) 0x01 77#64),
       decide (decoded 0x0028A285 true = some (.add 5 5 5)), decide (withMask (.add 5 5 5) 1 = none),
       same (refer 0x0028A285 0) (exec (.add 5 5 5) (d 0x0028A285 .idle)),
       same (refer 0x0028A285 1) (trapped (d 0x0028A285 .idle) 0x01 77#64),
       same (refer 0x12345678 0) (trapped (d 0x12345678 .idle) 0x01 77#64),
       (match opWrites (.add 5 5 5) (d 0x0028A285 .idle).me with
        | some (rd, v) => same (refer 0x0028A285 0) (sealedAs (d 0x0028A285 .idle) ((d 0x0028A285 .idle).me.setX rd v))
        | none => false),
       (match (decoded 0x408411A1 true).bind vopOf with
        | some (sz, vd, v1, v2, k0, f) =>
          let u := d 0x408411A1 .idle
          all ([(0 : KReg), 1].map fun k =>
            laneTest (refer 0x408411A1 k) (sealedAs u (putLanes u.me vd (if k = 0 then k0 else k) fun j =>
              eachElement (elemWidth sz) (f (elemWidth sz)) (lane u.me v1 j) (lane u.me v2 j))) vd)
        | none => false),
       (match decoded 0x408411A1 true with
        | some i => !refusedInDictionary i && (withMask i 1).isSome
        | none => false),
       laneTest (refer 0x408411A1 1) (exec (.vadd .h 3 1 2 1) (d 0x408411A1 .idle)) 3,
       decide (decoded 0xC008001F true = some .eret), refusedInClause .eret, !refusedInDictionary .eret,
       same (exec (.dictionaryReference 7 0) (d 0xC008001F .reissuing)) (trapped (d 0xC008001F .reissuing) 0x01 77#64)]) = true := by decide +kernel

/-! ## The matrix siding, rings, ports and the steward's instructions -/

/-- A ready handle. -/
def hdl (off base slot n pres : Nat) : Handle :=
  { ready := true, off := off, base := base, slot := slot, n := n, pres := BitVec.ofNat 16 pres }
def acc0 : AccVal := accFrom fun i j => BitVec.ofNat 32 (0x40000000 + i.val * 0x10000 + j.val * 0x1000)
/-- h1 holds one filled slot of four, h2 all but one of two at the wrap of its counters, h3 a ring with no slot filled. -/
def rings : State :=
  let s := mk 0x123 3 fun c => ((((c.setX 9 0x0001000300010003#64).setAcc 1 acc0).setHandle 1 (hdl 0x100 0x10000 4096 4 2)).setHandle 2
    (hdl 0x110 0x20000 4096 2 0xFFFF)).setHandle 3 (hdl 0x120 0x30000 64 2 0)
  let s := s.store (spAddr 0x123 0x100) (bytesOfNat 16 (2 + 2 ^ 16))
  let s := s.store (spAddr 0x123 0x110) (bytesOfNat 16 (0xFFFF + 0xFFFE * 2 ^ 16))
  let s := s.store (spAddr 0x123 0x11000) (bytesOfNat 96 (3 ^ 470))
  let s := s.store (spAddr 0x123 0x20000) (bytesOfNat 96 (3 ^ 450))
  s.setCore 0x123 { s.core 0x123 with wfmt := [(3, .dp8g16)] }

/-- Small exact sums of each kind of format. -/
theorem test_hyps_MatrixElementSums :
    (let line := fun (n a : Nat) => (List.range n).map fun i => Elem.val (FVal.ofInt (((a * i % 5 : Nat) : Int) - 2))
     all ([MatFmt.fp16, .bf16, .f8a, .f8b].map (fun f =>
        let n := tileDepth f
        let a := line n 1
        let b := line n 2
        decide (a.length = n) && !f.isDp8 &&
          decide (mmaElement f false (2 ^ 64 - 1) 0x41000000#32 a b =
            FFmt.fp32.round .rne false (sumExact .rne (FFmt.fp32.value false 0x41000000 :: sumTerms f (2 ^ 64 - 1) 0 n a b)))) ++
      [decide (tileDepth .int8 = 32),
        decide (mmaElement .int8 false (2 ^ 64 - 1) 0xFFFFFFFF#32 (line 32 1) (line 32 1) = (64, 0#7)),
        (let a := line 64 1
         decide (tileDepth .dp8g32 = 64) && MatFmt.isDp8 .dp8g32 &&
          decide ((mmaElement .dp8g32 false (2 ^ 64 - 1) 0x41000000#32 a a).1 =
            (List.range 2).foldl (fun z blk => (FFmt.fp32.round .rne false (sumExact .rne
              (FFmt.fp32.value false z :: sumTerms .dp8g32 (2 ^ 64 - 1) (32 * blk) 32 a a))).1) 0x41000000))])) = true := by decide +kernel

/-- One multiply's hypotheses. -/
def mmaTest (s : State) (f : MatFmt) (sparse wb : Bool) (ra rb : Ring) : Bool :=
  let na := tileBytes f false
  let nb := tileBytes f sparse
  let ready := fun (r : Ring) (need : Nat) =>
    let h := s.me.handle r
    h.ready && decide (need ≤ h.slot) && (s.fill s.cur.1 h.off != 0) && decide (s.fill s.cur.1 h.off ≤ h.n)
  np s && isArith s.cur.1 && s.feature.getLsbD 3 && s.feature.getLsbD 4 &&
    (if wb then ready ra na && decide ((s.core s.cur.1).wfmt.find rb.val = some f)
      else if ra = rb then ready ra (na + nb) else ready ra na && ready rb nb)
theorem test_hyps_MatrixMultiply :
    all [mmaTest rings .fp16 false false 1 2, mmaTest rings .int8 false false 1 1, mmaTest rings .dp8g32 true false 1 2,
      mmaTest rings .dp8g16 false true 1 3] = true := by decide +kernel
theorem test_hyps_MatrixMoves :
    (let s := rings
     let at1 := Claims.slotOf s 1
     let h := s.me.handle 2
     all [np s, isArith 0x123, same (exec (.mzero 1) s) (sealedAs s (s.me.setAcc 1 AccVal.zero)),
       same (exec (.mmov 2 1) s) (sealedAs s (s.me.setAcc 2 (s.me.getAcc 1))), s.feature.getLsbD 3,
       (s.me.handle 1).ready, tileBytes .fp16 false == 512, (s.fill 0x123 0x100 == 1),
       (List.range 1024).all fun a => !s.marked (at1 + a),
       h.ready, h.slot == 4096, !s.reserving 0x123 2 h, s.roomOf 0x123 h != 0]) = true := by
  decide +kernel

theorem test_hyps_RingInstructions :
    (let s := (rings.setMe ((rings.me.setX 10 0x200#64).setX 11 0#64)).store (spAddr 0x123 0x200)
       (bytesOfNat 16 (2 ^ 32 * (0x400 + 0 * 2 ^ 12 + 2 * 2 ^ 20)))
     let h := s.me.handle 1
     let past := s.store (spAddr 0x123 0x100) (bytesOfNat 4 9)
     all [np s, isArith 0x123, !s.localBad 0x123 .sp 0x200 16,
       (match s.ringShape 0x123 0x200 with
        | some shape => same (exec (.rinit 5 10) s) (sealedAs (s.pinActive s.myKey) (s.me.setHandle 5
            { ready := true, off := 0x200, base := shape.base, slot := shape.slot, n := shape.n, pres := 0#16 }))
        | none => false),
       !(s.me.handle 6).ready, same (exec (.cbwait 6 0 1) s) (trapped s 0x0B 6#64), same (exec (.cbpub 6 0 1) s) (trapped s 0x0B 6#64),
       h.ready, same (exec (.cbwait 1 11 0) s) (sealedAs s s.me), same (exec (.cbroom 1 11 0) s) (sealedAs s s.me),
       s.fill 0x123 0x100 == 1, s.roomOf 0x123 h == 3, !s.reserving 0x123 1 h,
       same (exec (.cbwait 1 0 1) s) (sealedAs s s.me), same (exec (.cbadv 1 0 1) s) (sealedAs (s.advanceCcnt 0x123 0x100 1) s.me),
       same (exec (.cbwait 1 0 2) s) (.next s), same (exec (.cbadv 1 0 2) s) (trapped s 0x0B 1#64),
       same (exec (.cbroom 1 0 3) s) (sealedAs s s.me),
       same (exec (.cbpub 1 0 3) s) (sealedAs (s.advancePcnt 0x123 0x100 3) (s.me.setHandle 1 { h with pres := 5#16 })),
       same (exec (.cbroom 1 0 4) s) (.next s), same (exec (.cbroom 1 0 5) s) (trapped s 0x0B 1#64),
       same (exec (.cbwait 1 0 5) s) (trapped s 0x0B 1#64), decide (4 < past.fill 0x123 0x100)]) = true := by decide +kernel

/-- x62 bound to h1 for writing or reading, with bytes staged or none. -/
def ported (dir : PortDir) (staged : List Byte) (pos : Nat) : State :=
  rings.setMe (rings.me.setPort 2 { bound := true, dir := dir, ring := 1, esize := 4, z := false, pos := pos, staged := staged })
theorem test_hyps_Ports_bind :
    (let s := rings
     let w := ported .write [] 0
     let w8 := ported .write (bytesOfNat 8 0x123456789ABCDE) 8
     let g := w8.me.handle 1
     let kept := s.setMe (s.me.setHandle 1 (hdl 0x100 0x10000 4096 4 3))
     all [np s, isArith 0x123, (s.me.handle 1).ready, !s.reserving 0x123 1 (s.me.handle 1),
       same (exec (.bindWr 2 1 .w) s) (sealedAs s w.me), same (exec (.bindRd 2 1 .w false) s) (sealedAs s (ported .read [] 0).me),
       kept.reserving 0x123 1 (kept.me.handle 1), same (exec (.bindWr 2 1 .w) kept) (trapped kept 0x0B 1#64),
       !(s.me.handle 6).ready, same (exec (.bindRd 2 6 .w false) s) (trapped s 0x0B 6#64),
       same (exec (.bindWr 2 6 .w) s) (trapped s 0x0B 6#64), same (exec (.unbind 2) s) (sealedAs s s.me),
       [0, 1, 3].all fun o => !(w.me.port o).bound, same (exec (.unbind 2) w) (sealedAs w (w.me.setPort 2 PortSt.unbound)),
       decide (w8.fill 0x123 g.off < g.n), g.slot != 8,
       same (exec (.unbind 2) w8)
         (sealedAs (w8.store (spBase 0x123 + g.base + w8.pcnt 0x123 g.off % g.n * g.slot) (bytesOfNat 8 0x123456789ABCDE))
           (w8.me.setPort 2 PortSt.unbound))]) = true := by decide +kernel
theorem test_hyps_Ports_operands :
    (let reads := fun (s : State) (want : Option (Dword × Nat)) =>
       match EStateM.run (readX 62) s, want with
       | .ok v t, some (w, pos) => (v == w) && ((t.me.port 2).pos == pos)
       | .error .retry _, none => true
       | _, _ => false
     let writes := fun (s : State) (want : Option Nat) =>
       match EStateM.run (writeX 62 0xAABBCCDD11223344#64) s, want with
       | .ok _ t, some n => (t.me.port 2).staged.length == n
       | .error .retry _, none => true
       | _, _ => false
     let wrongRead := match EStateM.run (readX 62) (ported .write [] 0) with
       | .error (.trap 0x0B v) _ => v == 1#64
       | _ => false
     let wrongWrite := match EStateM.run (writeX 62 0#64) (ported .read [] 0) with
       | .error (.trap 0x0B v) _ => v == 1#64
       | _ => false
     all [reads (ported .read (bytesOfNat 8 0x80000001) 8) (some (0xFFFFFFFF80000001#64, 12)),
       reads (ported .read [] 4096) none, decide ((ported .read [] 4096).fill 0x123 0x100 ≤ 4096 / 4096),
       writes (ported .write (bytesOfNat 28 0) 28) (some 32), writes (ported .write (bytesOfNat 29 0) 29) none,
       wrongRead, wrongWrite, reads rings (some (0#64, 0))]) = true := by decide +kernel

theorem test_hyps_StewardInstructions :
    (let s := fetching 16384 0 fun c => ((((c.setX 9 0xFF00000000010200#64).setX 10 3#64).setX 11 0x30001#64).setX 12 2#64).setX 13 0x800#64
     let busy := s.setCtxAt (ctxKey 0x301 4) ctx0
     let bad := s.setMe (s.me.setX 9 0x0300000000000000#64)
     match route s 0xFF00000000010200#64 with
     | some l =>
       all [np s, isRingmaster 16384, same (exec (.xlinv 9 10) s) (trapped s 0x06 3#64), (route bad 0x0300000000000000#64).isNone,
         same (exec (.xlinv 9 12) bad) (trapped bad 0x06 0x0300000000000000#64),
         same (exec (.xlinv 9 0) s) (sealedAs ((s.invalidatePage l).rewalk l.place) s.me),
         !s.dieBusy 3,
         same (exec (.bist 5 13) s) (trapped s 0x06 0x800#64),
         busy.dieBusy 3, same (exec (.bist 5 11) busy) (sealedAs busy (busy.me.setX 5 0x200000000#64))]
     | none => false) = true := by decide +kernel

/-! ## Phasers, units and barriers -/

/-- A handle of a slot of core 0x123, scope `.die`. -/
def phHandle (s : State) (slot : Nat) : Dword :=
  BitVec.ofNat 64 (slot + 0x123 * 2 ^ 7 + s.modId * 2 ^ 21 + 2 * 2 ^ 29 + (if s.modId = 255 then 2 ^ 32 else 0))
def ph5 : PhRef := { core := 0x123, slot := 5 }
/-- Touched, two signals of which one has come, one registration held, two waiters. -/
def ph0 : Phaser :=
  { Phaser.reset with
    scope := .die, phase := 7#32, sigs := 2, arrived := 1, touched := true, held := 1, pts := 44, flipPts := [20, 9], count := 1,
    accum := 0x102#64, latched := 0x1F03#64,
    waiters := [{ core := 0x123, ctx := 3, phase := 7#32, rd := some 9, st := true, record := none },
      { core := 0x123, ctx := 4, phase := 9#32, rd := some 9, st := true, record := none }] }
/-- Its core: x10 the handle, x11 a number, the first waiter's context waiting. -/
def phased (q : Phaser) (n : Nat) : State :=
  let s := mk 0x123 0 fun c => (c.setX 11 (BitVec.ofNat 64 n)).setX 12 5#64
  let s := (s.setMe (s.me.setX 10 (phHandle s 5))).setPhaser ph5 q
  s.setCtxAt (ctxKey 0x123 3) { Ctx.reset with status := .waiting (.phaser 0x123 5 7#32 true) (some 9) }
/-- A step about a slot, at a state. -/
def about (s : State) (place index : Nat) (value addr : Dword) (flag : Bool) : State :=
  { s with subject := { place := place, index := index, addr := addr, value := value, flag := flag }, agenda := [] }

theorem test_hyps_PhaserSlotSteps :
    (let s := about (phased ph0 7) 0x123 5 3#64 0#64 false
     let f := about (phased { ph0 with arrived := 2 } 7) 0x123 5 3#64 0#64 false
     let big := about (phased { ph0 with pend := 2 ^ 32 - 3 } 7) 0x123 5 3#64 0#64 false
     let flip := fun (q : Phaser) => q.touched && decide (q.sigs ≤ q.arrived) && (q.pend == 0)
     all [decide (s.phaser ph5 = ph0),
       same (exec .phaserReservation s) (.next (s.setPhaser ph5 { ph0 with pend := 3, touched := true })),
       same (exec .phaserReservation big) (.next big),
       same (exec .phaserWithdrawal s) (.next ((s.setPhaser ph5 ph0).flipTest ph5)),
       same (exec .phaserArrival s) (.next ((s.setPhaser ph5 (arrivedAt ph0 3)).flipTest ph5)),
       !flip ph0, stSame (s.flipTest ph5) s, flip { ph0 with arrived := 2 }, !flip (afterFlip { ph0 with arrived := 2 }),
       decide ((f.flipTest ph5).phaser ph5 = { afterFlip { ph0 with arrived := 2 } with
         waiters := ph0.waiters.filter fun w => !phaseMet 8#32 w.phase }),
       !phaseMet 7#32 7#32, phaseMet 7#32 6#32, phaseMet 7#32 (7#32 - 0x80000000#32)]) = true := by decide +kernel
theorem test_hyps_PhaserInstructions :
    (let a := phased ph0 6
     let b := phased ph0 7
     let full := phased { ph0 with pend := 2 ^ 32 - 7 } 7
     let acq := { a.me with pts := max a.me.pts (acquiredOf ph0 ph5 0x123 6#32) }
     let t := ((b.pinActive b.myKey).setPhaser ph5 (arrivedAt ph0 0)).flipTest ph5
     all [np a, isArith 0x123, a.run.isNone, decide (a.phaserRef 0x123 (a.me.getX 10) = some ph5), acquiredOf ph0 ph5 0x123 6#32 == 20,
       acquiredOf ph0 ph5 0x123 5#32 == 20, acquiredOf ph0 ph5 0x223 6#32 == 0,
       same (exec (.phTest 12 10 11) a) (pinned a (acq.setX 12 1#64)),
       same (exec (.phWait 12 10 11 false) a) (pinned a (acq.setX 12 1#64)),
       same (exec (.phWait 12 10 11 true) a) (pinned a ((merged acq 0x1F03#64).setX 12 1#64)),
       same (exec (.phTest 12 10 11) b) (pinned b (b.me.setX 12 0#64)), !b.maySuspend (phaserWait 0x123 5),
       same (exec (.phWait 12 10 11 true) b)
         (pinned (b.setPhaser ph5 { ph0 with waiters := ph0.waiters ++
           [{ core := 0x123, ctx := 0, phase := 7#32, rd := some 12, st := true, record := none }] })
           { b.me with status := .waiting (.phaser 0x123 5 7#32 true) (some 12) }),
       same (exec (.phStat 12 10) b) (pinned b ((merged b.me 0x1F03#64).setX 12 0x1F03#64)),
       same (exec (.phExp 10 0) b) (pinned b b.me),
       same (exec (.phExp 10 11) b) (pinned (b.setPhaser ph5 { ph0 with pend := 7, touched := true }) b.me),
       same (exec (.phExp 10 11) full) (trapped full 0x0A 7#64),
       np t, same (exec (.phArr 12 10) b) (sealedAs t (t.me.setX 12 7#64))]) = true := by decide +kernel
/-- PH.REG and PH.DROP in a touched phase and in one that is not, and at the ends of SIGS' range. -/
theorem test_hyps_PhaserInstructions_registration :
    all ([ph0, { ph0 with touched := false, arrived := 0, held := 0, sigs := 3 }].flatMap fun q => [RegMode.sig, .wait, .sigwait].map fun mode =>
      let s := phased q 7
      let by_ : Int := if mode = .wait then 0 else 1
      let reserve := fun (t : State) (one : Int) =>
        if mode = .sig then t
        else t.setCore 0x123
          { t.core 0x123 with
            suspReserved := (t.core 0x123).suspReserved.put (phaserWait 0x123 5)
              (((t.core 0x123).suspReserved.get 0 (phaserWait 0x123 5) : Nat) + one : Int).toNat }
      let change := fun (by_ one : Int) =>
        if q.touched then
          s.setPhaser ph5
            { q with
              held := q.held + by_,
              heldWaits := if mode = .sig then q.heldWaits else q.heldWaits.put 0x123 (q.heldWaits.get 0 0x123 + one) }
        else reserve (s.setPhaser ph5 { q with sigs := ((q.sigs : Int) + by_).toNat }) one
      let up := (change by_ 1).flipTest ph5
      let down := (change (-by_) (-1)).flipTest ph5
      np up && np down && same (exec (.phReg 12 10 mode) s) (pinned up (up.me.setX 12 0#64)) &&
        same (exec (.phDrop 12 10 mode) s) (pinned down (down.me.setX 12 0#64))) = true ∧
    (let full := phased { ph0 with sigs := 65535, held := 0 } 7
     let none := phased { ph0 with sigs := 0, held := 0 } 7
     all [same (exec (.phReg 12 10 .sig) full) (pinned full (full.me.setX 12 1#64)),
       same (exec (.phDrop 12 10 .sig) none) (pinned none (none.me.setX 12 1#64))]) = true := by decide +kernel
/-- PH.INIT of slots 95 and 96, scopes 4 and 5, and too many signals. -/
theorem test_hyps_PhaserInstructions_init :
    (let at_ := fun (slot scope n : Nat) => let s := phased ph0 n; s.setMe (s.me.setX 13 (BitVec.ofNat 64 (slot + scope * 2 ^ 29)))
     let s := at_ 95 4 65535
     let kept := s.setCore 0x124 { CoreSt.reset with suspReserved := [(phaserWait 0x123 95, 2), (otherWait, 1)] }
     let h := BitVec.ofNat 64 (95 + 0x123 * 2 ^ 7 + s.modId * 2 ^ 21 + 4 * 2 ^ 29 + (if s.modId = 255 then 2 ^ 32 else 0))
     let traps := fun (s : State) (v : Dword) => same (exec (.phInit 12 13 11) s) (trapped s 0x06 v)
     all [np s, (s.phaser { core := 0x123, slot := 95 }).waiters.isEmpty, decide (s.modId < 256),
       same (exec (.phInit 12 13 11) s)
         (pinned (s.setPhaser { core := 0x123, slot := 95 } { Phaser.reset with scope := .sys, sigs := 65535 }) (s.me.setX 12 h)),
       same (exec (.phInit 12 13 11) kept)
         (pinned (kept.setPhaser { core := 0x123, slot := 95 } { Phaser.reset with scope := .sys, sigs := 65535 } |>.setCore 0x124
           { CoreSt.reset with suspReserved := [(otherWait, 1)] }) (kept.me.setX 12 h)),
       decide (s.phaserRef 0x123 h = some { core := 0x123, slot := 95 }),
       traps (at_ 96 4 1) (BitVec.ofNat 64 (96 + 4 * 2 ^ 29)), traps (at_ 95 5 1) (BitVec.ofNat 64 (95 + 5 * 2 ^ 29)),
       traps (at_ 95 4 65536) (BitVec.ofNat 64 (95 + 4 * 2 ^ 29))]) = true := by decide +kernel

/-- A launch of one core, 0x123. -/
def launch0 : Launch :=
  { launchOf 0 (List.replicate 128 0#8) with
    job := 3, graph := 4, phase := 6, started := true, rows := 1, cols := 1, die0 := 1, row0 := 2, col0 := 3, dies := 1,
    entry := 0x4444#64, desc := 0x7000#64, args := 0x99#64, stack := 0x10000#64, stksz := 32 }
/-- A context of that launch, with a record in memory at x9. -/
def unit (ctx : Nat) : State :=
  let s := fetching 0x123 ctx fun c =>
    { ((((c.setX 9 0xFF00000000010200#64).setX 10 2#64).setX 12 5#64).setX 13 9#64).setX 14 0xFF00000000010210#64 with
      launchid := 9#64, record := if ctx = 0 then none else some 0xFF00000000010200#64 }
  let s := { s with launches := [(9, launch0)] }
  let s := (s.setCounter .launch 9 { Counter.fresh 1 3 4 with count := 5, nextUnit := 77, late := true }).setCounter .graph 4
    { Counter.fresh 1 3 6 with count := 1 }
  (s.setBytes (dramBase 0 + 0x4080) (bytesOfNat 8 0x1040F)).setBytes (dramBase 0 + 0x10200) (bytesOfNat 192 (0x5000 + 0x8800 * 2 ^ 64 + 2 ^ 160 * (2 ^ 10 + 2 ^ 6 * 2) + 2 ^ 176 * 3 +
    2 ^ 192 * 0xFFFF + 2 ^ 224 * 8 + 2 ^ 256 * 9 + 2 ^ 288 * 4 + 2 ^ 320 * 6 + 2 ^ 352 * 3))

theorem test_hyps_UnitInstructions_spawn :
    (let s := unit 0
     let a := 0xFF00000000010200#64
     match after (releaseMine .mod) s with
     | some s1 =>
       match okv (countRecord (s1.coreAgent s1.myKey) a 9 s1.me.pts) s1, after (joinDec (s1.coreAgent s1.myKey) a s1.me.pts) s1 with
       | some ((u, pts), s2), some j =>
         match after (noteRelease (s1.coreAgent s1.myKey) a pts) s2 with
         | some s3 =>
           match okv (strongBytes (s1.coreAgent s1.myKey) (a + 16#64) 4 pts) s3 with
           | some ((bs, _), s4) =>
             let r := s4.raiseCounter 9
             let t := if natOfBytes (bs.take 4) = 0 then r.requeue a pts else r
             all [np s, s.run.isNone, s.kindZero a, u == 77, np s4, np j,
               same (exec (.spawn 12 9) s) (pinned t ({ s4.me with pts := max s4.me.pts pts }.setX 12 77#64)),
               same (exec (.joindec 9) s) (pinned j j.me)]
           | none => false
         | none => false
       | _, _ => false
     | none => false) = true := by decide +kernel
/-- START of a context that runs, of one the queue may start, and of one that stands idle. -/
theorem test_hyps_UnitInstructions_start :
    (let s := unit 0
     let busy := s.setCtxAt (ctxKey 0x123 2) { Ctx.reset with status := .running }
     let auto := s.setCore 0x123 { s.core 0x123 with workcfg := 0x7FF#64 }
     let a := 0xFF00000000010200#64
     match okv (strongBytes (s.coreAgent s.myKey) a 192 s.me.pts) s with
     | some ((bs, _), s1) =>
       match after (startUnit (ctxKey 0x123 2) a (natOfBytes ((bs.drop 48).take 6))) s1 with
       | some s2 =>
         all [np s, np s2, same (exec (.start 12 10 9) busy) (pinned busy (busy.me.setX 12 1#64)), !(busy.ctxAt (ctxKey 0x123 2)).free, auto.autoPops 0x123 2,
           same (exec (.start 12 10 9) auto) (pinned auto (auto.me.setX 12 2#64)), !s.autoPops 0x123 2,
           (s.ctxAt (ctxKey 0x123 2)).free, natOfBytes ((bs.drop 28).take 4) == 8,
           same (exec (.start 12 10 9) s) (pinned s2 (s2.me.setX 12 0#64))]
       | none => false
     | none => false) = true := by decide +kernel
theorem test_hyps_UnitInstructions_end :
    (let s := unit 2
     let bare := s.setMe { s.me with record := none }
     all [np s, s.run.isNone, (match okv (foldUnit s.me.npc (some 5) 0#64) s with
        | some (some _, s1) => np s1 && same (exec (.susp 12) s) (sealedAs (s1.pinFor s1.myKey s.me) s1.me)
        | _ => false),
       (match okv (foldUnit s.me.npc none 0#64) s with
        | some (some (r, pts), s1) => np s1 && same (exec .yield s) (sealedAs ((s1.pinFor s1.myKey s.me).requeue r pts) s1.me)
        | _ => false),
       (match okv (foldUnit bare.me.npc none 0#64) bare with
        | some (none, s1) => same (exec .yield bare) (sealedAs (s1.pinFor s1.myKey bare.me) s1.me)
        | _ => false),
       [0, 2].all fun n =>
        let s := unit n
        match after (releaseMine .mod) s with
        | some s1 =>
          let t := ((s1.pinActive s1.myKey).setMe s1.me.toIdle).endItem 9
          let u := if n = 0 then t.due .treeReport 0x123 9 else t.offerHome 0x123
          np t && same (exec (.done 0) s) (sealedAs u u.me)
        | none => false]) = true := by decide +kernel

theorem test_hyps_CountersAndUnitTraps :
    (let s := unit 0
     let h := unit 2
     let t := (s.pinActive s.myKey).cancel .launch 9 true
     let wide := s.setMe (s.me.setX 13 (BitVec.ofNat 64 (2 ^ 32)))
     let none := s.setMe (s.me.setX 10 0#64)
     let past := s.setMe (s.me.setX 10 11#64)
     all [np s, s.owns .launch 9, (s.counter .launch 9).isSome,
       same (exec (.ctrrd 12 13 .launch) s) (sealedAs s (s.me.setX 12 (BitVec.ofNat 64 (5 + 2 ^ 33)))), np t,
       same (exec (.cancel 13 .launch true) s) (sealedAs t t.me), !s.owns .launch 5,
       same (exec (.ctrrd 12 12 .launch) s) (trapped s 0x06 5#64), same (exec (.cancel 12 .launch false) s) (trapped s 0x06 5#64),
       same (exec (.ctrrd 12 13 .launch) wide) (trapped wide 0x06 (BitVec.ofNat 64 (2 ^ 32))),
       same (exec (.cancel 13 .job true) s) (trapped s 0x06 9#64), same (exec (.start 12 10 9) h) (trapped h 0x01 77#64),
       same (exec (.start 12 10 9) none) (trapped none 0x01 77#64), same (exec (.start 12 10 9) past) (trapped past 0x01 77#64),
       same (exec (.susp 12) s) (trapped s 0x01 77#64), same (exec .yield s) (trapped s 0x01 77#64),
       same (exec (.spawn 12 14) s) (trapped s 0x03 0xFF00000000010210#64),
       same (exec (.joindec 14) s) (trapped s 0x03 0xFF00000000010210#64),
       same (exec (.done 14) s) (trapped s 0x03 0xFF00000000010210#64)]) = true := by decide +kernel

/-- A row instance of two cores at which this core's context 0 waits with a timer. -/
def bar0 : BarrierInst :=
  { launch := 9, kind := .row, place := 3, number := 0,
    arrivals := [{ core := 0x123, mtime := 3, pts := 4, timeout := 5, waiters := [(0, some 12, none)], expired := false },
      { core := 0x124, mtime := 3, pts := 4, timeout := 5, waiters := [(1, some 12, none)], expired := false }],
    poisoned := false, complete := false, stopping := false }
/-- BAR, then its arrival: the last one, one of two, and at a poisoned instance. -/
theorem test_hyps_BarrierSteps_arrival :
    all ([BarKind.row, .ss].map fun kind =>
      let s := unit 0
      match after (releaseMine (if kind = .ss then .sys else .die)) s with
      | some s1 =>
        let w := stOf (exec (.bar kind 12) s)
        let arrive := fun (l : Launch) => about { w with launches := [(9, l)] } 0x123 0 (BitVec.ofNat 64 kind.code) 0#64 false
        let k := ctxKey 0x123 0
        let check := fun (s : State) (whole : Bool) =>
          let (b, s1) := s.instanceFor 0x123 9 kind
          let c := s.ctxAt k
          let a : Arrival :=
            { core := 0x123, mtime := s.mtime, pts := c.pts, timeout := c.bartmo.toNat % 2 ^ 32, waiters := [(0, some 12, none)], expired := false }
          let b' := { b with arrivals := b.arrivals ++ [a] }
          let t := (s1.setCtxAt k { c with status := .waiting (.barrier b.launch b.kind b.number) (some 12) }).setBarrier b'
          !b.poisoned && b.arrivals.all (fun a => a.core != 0x123) && !State.maySuspend { s with cur := (0x123, 0) } otherWait &&
            ((s.membersOf 9 kind b.place).all (fun m => b'.arrivals.any fun a => a.core == m) == whole) &&
            same (exec .barrierArrival s) (.next (if whole && !b.stopping then t.barrierFull b' else t))
        all [np s, np s1, same (exec (.bar kind 12) s)
            (sealedAs ((s1.pinActive s1.myKey).dueAt .barrierArrival
              { Subject.nothing with place := 0x123, index := 0, value := BitVec.ofNat 64 kind.code })
              { s1.me with status := .waiting (.barrier 9 kind 0) (some 12) }),
          (w.ctxAt k).status == .waiting (.barrier 9 kind 0) (some 12), check (arrive launch0) true,
          check (arrive { launch0 with cols := 2 }) false,
          (let s := arrive { launch0 with cols := 2 }
           let (b, _) := s.instanceFor 0x123 9 kind
           let z := { s with barriers := [{ b with poisoned := true }] }
           let (b', z1) := z.instanceFor 0x123 9 kind
           b'.poisoned && same (exec .barrierArrival z)
             (.next ((z1.setCtxAt k { z.ctxAt k with status := .waiting (.barrier b'.launch b'.kind b'.number) (some 12) }).answer k
               (.barrier b'.launch b'.kind b'.number) 2#64 0#64 false)))]
      | none => false) = true := by decide +kernel
theorem test_hyps_BarrierSteps_timeout_and_stop :
    (let u := unit 0
     let s := about { u with barriers := [bar0] } 0x123 BarKind.row.code 9#64 0#64 false
     let s := s.setMe { s.me with status := .waiting (.barrier 9 .row 0) (some 12) }
     let gone := { bar0 with poisoned := true, arrivals := bar0.arrivals.map fun a =>
       { a with waiters := if s.savedWith a.core 9 then a.waiters else [], expired := a.core == 0x123 } }
     let b := { bar0 with stopping := true, kind := .ss, arrivals := bar0.arrivals.map fun a => { a with waiters := [] } }
     let z := about { u with barriers := [b] } 9 0 0#64 0#64 false
     let t := (z.completeBarrier b).setDieReg 1 0x2A8 ((z.completeBarrier b).dieReg 1 0x2A8 &&& 0xFFFFFFFF#64)
     all [same (exec .barrierTimeout (about u 0x123 0 0#64 0#64 false)) (.next (about u 0x123 0 0#64 0#64 false)),
       BarKind.ofCode BarKind.row.code == .row,
       same (exec .barrierTimeout s) (.next (bar0.arrivals.foldl
         (fun t a => t.answerArrivalAt bar0 a (if a.core = 0x123 then 1#64 else 2#64) 0) { s with barriers := [gone] })),
       z.ops.isEmpty, (z.launches.find 9).isSome,
       same (exec .superstepStop z) (.next ((t.coresOf launch0).foldl (fun t core =>
         let t := t.setCore core { t.core core with stopped := true }
         if (t.ctxAt (ctxKey core 0)).status = .running then
           t.takeTrap (ctxKey core 0) 0x0D (t.ctxAt (ctxKey core 0)).pc (BitVec.ofNat 64 (launch0.sstep % 2 ^ 32))
         else t) t))]) = true := by decide +kernel

/-! ## Engines, sluice cores and deposits -/

/-- x16 to x31: places in memory and the scratchpad, a phaser's handle, a ring, a descriptor. -/
def engine : State :=
  let s := unit 3
  let c := (((s.me.setX 16 0xFF00000000010400#64).setX 17 0xFF00000000010200#64).setX 18 64#64).setX 19 (phHandle s 5)
  let c := ((c.setX 20 0x2000#64).setX 21 (BitVec.ofNat 64 (2 ^ 63 + 1))).setHandle 1 (hdl 0x100 0x10000 64 4 2)
  let c := ((c.setX 22 0x3000#64).setX 23 (BitVec.ofNat 64 (3 + 2 * 16 + 5 * 2 ^ 6 + 2 ^ 14 + 0xFF * 2 ^ 20))).setX 24 0x1234#64
  let c := ((c.setX 25 0xFF00000000010300#64).setX 26 0x15#64).setX 27 (BitVec.ofNat 64 (2 ^ 32))
  let c := c.setX 28 (BitVec.ofNat 64 (2 ^ 18 - 16))
  let s := (s.setMe c).setPhaser ph5 { Phaser.reset with scope := .die, sigs := 1, pend := 100, touched := true }
  let s := s.store (spAddr 0x123 0x100) (bytesOfNat 16 (2 + 2 ^ 16 + 2 ^ 32 * (0x400 + 2 * 2 ^ 20)))
  let s := s.setBytes (dramBase 0 + 0x10300) (bytesOfNat 32 (0xAAA0 + 0xBBB * 2 ^ 64 + 0xCCC * 2 ^ 128 + (phHandle s 5).toNat * 2 ^ 192))
  s.store (spAddr 0x123 0x3000) (bytesOfNat 32 (7 + 2 ^ 32 + 2 ^ 64 * 4))
def plain : MemOrder := { scope := .core, acq := false, rel := false }
def acquire : MemOrder := { scope := .mod, acq := true, rel := false }
/-- Sixteen operations of core 0x123. -/
def crowded : State :=
  let o := commandOf engine .copy 0#64 0#64 0#64 0 [] .sp plain
  { engine with ops := (List.range 16).map fun i => (i, o), nextOp := 16 }

theorem test_hyps_EngineCommands_copies :
    (let s := engine
     let h := phHandle s 5
     let y := s.me.handle 1
     let o := { commandOf s .copyIn (s.me.getX 21) (s.me.getX 17) h 64 [] .sp plain with
       ring := some (0x100, 2#16, 0x10000 + 2 % 4 * 64), published := false }
     all [np s, isArith 0x123, decide (s.phaserRef 0x123 h = some ph5), (extentCause s 0x123 .sp 0x2000 64 false).isNone,
       (extentCause s 0x123 .sp 0x2000 64 true).isNone, decide (s.outstanding 0x123 < 16),
       same (exec (.copy 0 4 2 3 plain .sp) s)
         (issued s (commandOf s .copy (s.me.getX 16) (s.me.getX 20) h 64 [] .sp plain) .engineCompletion),
       (match after (releaseMine .mod) s with
        | some s1 => np s1 && same (exec (.copy 0 4 2 3 acquire .sp) s)
            (issued s1 (commandOf s1 .copy (s.me.getX 16) (s.me.getX 20) h 64 [] .sp acquire) .engineCompletion)
        | none => false),
       same (exec (.copyIn 4 1 2 3 plain .sp) s)
         (issued s (commandOf s .copyIn (s.me.getX 20) (s.me.getX 17) h 64 [] .sp plain) .engineCompletion),
       y.ready, decide (64 ≤ y.slot), decide (1 ≤ s.roomOf 0x123 y),
       same (exec (.copyIn 5 1 2 3 plain .sp) s)
         (pinned ({ s with ops := s.ops.put s.nextOp o, nextOp := s.nextOp + 1 }.due .engineCompletion s.nextOp)
           (s.me.setHandle 1 { y with pres := 3#16 })),
       decide (16 ≤ crowded.outstanding 0x123), same (exec (.copy 0 4 2 3 plain .sp) crowded) (.next crowded),
       same (exec (.copy 0 4 11 3 plain .sp) s) (trapped s 0x06 (BitVec.ofNat 64 (2 ^ 32))),
       same (exec (.copyIn 4 1 11 3 plain .sp) s) (trapped s 0x06 (BitVec.ofNat 64 (2 ^ 32)))]) = true := by decide +kernel
theorem test_hyps_EngineCommands_descriptors :
    all ([.copy2 0 1 6 3 plain .sp, .gath 0 1 6 3 plain .sp, .collAllred 0 1 6 3 plain, .collRed 0 1 6 3 plain, .collBcast 0 1 6 3 plain,
        .collAllgath 0 1 6 3 plain, .collRedscat 0 1 6 3 plain].map fun i =>
      let s := engine
      match described i with
      | some (kind, bytes, first, d, x, _, _, ord, side) =>
        all [decide (bytes ≤ 32), !s.localBad 0x123 .sp 0x3000 32, same (exec i s)
            (issued s (commandOf s kind (operand s d) (operand s x) (phHandle s 5) 0 (s.localBytes 0x123 .sp 0x3000 bytes) side ord) first)]
      | none => false) = true ∧
    all ([.copy2 0 1 8 3 plain .sp, .gath 0 1 8 3 plain .sp, .collRed 0 1 8 3 plain].map fun i =>
      same (exec i engine) (trapped engine 0x03 0x1234#64)) = true ∧
    all [same (exec (.copy2 0 1 6 3 plain .sp) crowded) (.next crowded),
      same (exec (.copy2 0 1 12 3 plain .sp) engine) (trapped engine 0x06 (BitVec.ofNat 64 (2 ^ 18 - 16))),
      same (exec (.collRed 0 1 6 2 plain) engine) (trapped engine 0x06 64#64), (engine.phaserRef 0x123 64#64).isNone] = true := by
  decide +kernel

theorem test_hyps_MessagesAndSluiceCalls :
    (let s := engine
     let dep : Deposit := { ctx := 3, reg := 2, value := 0x1234#64, pts := none, job := 3 }
     let blk := 0xFF00000000010300#64
     let core := sluiceCore 1 5
     match okv (loadBytes .global blk 32) s with
     | some (bs, s1) =>
       let f := fun off => BitVec.ofNat 64 (natOfBytes ((bs.drop off).take 8))
       let call : SluiceCall :=
         { block := blk, entry := f 0, arg0 := f 8, arg1 := f 16, ph := f 24, caller := BitVec.ofNat 64 (s1.coreIdWord 0x123),
           unit := s1.me.unitid, rel := false, scope := .core, pts := 0, secure := s1.secure 0x123, ne := false }
       let full := s.setCore core { s.core core with calls := List.replicate 31 { call with caller := 0#64 }, callsKept := 1 }
       all [np s, np s1, s.namesHere 0xFF false, !s.coreDisabled 0x105,
         same (exec (.depo 23 24 .core false) s)
           (pinned ((s.setCore 0x105 { s.core 0x105 with mailbox := (s.core 0x105).mailbox ++ [dep] }).due .depositArrival 0x105) s.me),
         decide (s1.phaserRef 0x123 (f 24) = some ph5), decide (s1.outstanding 0x123 < 16),
         same (exec (.slcall 30 25 26 plain) s)
           (pinned ((s1.setCore core { s1.core core with calls := [call] }).due .sluiceCallStart core) (s1.me.setX 30 0#64)),
         (match after (loadBytes .global blk 32) full with
          | some f1 => np f1 && same (exec (.slcall 30 25 26 plain) full) (pinned f1 (f1.me.setX 30 1#64))
          | none => false), !isSluice 0x123,
         same (exec (.slpush 30 25 26 plain) s) (trapped s 0x01 77#64)]
     | none => false) = true := by decide +kernel
/-- A deposit with its release, within its scope. -/
theorem test_hyps_MessagesAndSluiceCalls_release :
    (let s := engine
     match after (releaseMine .mod) s with
     | some s1 =>
       let dep : Deposit := { ctx := 3, reg := 2, value := 0x1234#64, pts := some s1.me.pts, job := 3 }
       np s1 && inDomain 0x123 0x105 .mod && same (exec (.depo 23 24 .mod true) s)
         (pinned ((s1.setCore 0x105 { s1.core 0x105 with mailbox := (s1.core 0x105).mailbox ++ [dep] }).due .depositArrival 0x105) s1.me)
     | none => false) = true := by decide +kernel
theorem test_hyps_MessagesAndSluiceCalls_push :
    (let core := sluiceCore 1 4
     let s0 := engine.setCtxAt (ctxKey core 0) { engine.me with handles := Ctx.reset.handles }
     let s := { s0 with cur := (core, 0) }
     let s := s.setMe (((s.me.setX 9 (BitVec.ofNat 64 (0x100 + 0x23 * 2 ^ 18))).setX 10 0xFF00000000010200#64))
     match s.ringShape 0x123 0x100 with
     | some shape =>
       match okv (do
           for p in ← sitesOf .global 0xFF00000000010200#64 0xFF00000000010200#64 shape.slot do
             let _ ← homeOf (s.coreAgent s.myKey) p.1 .read
           let sites ← sitesOf .global 0xFF00000000010200#64 0xFF00000000010200#64 shape.slot
           sites.mapM fun (p : Site × Nat) => weakLoad (s.coreAgent s.myKey) p.1 .read p.2 s.me.pts) s with
       | some (parts, s1) =>
         all [np s, np s1, isSluice core, decide (s.fill 0x123 0x100 + s.unpublished core (s.me.getX 9) < shape.n), !s.coreDisabled 0x123, parts.all fun p => p.2.1 == 0,
           same (exec (.slpush 11 10 9 plain) s)
             (sealedAs ((s1.store (spBase 0x123 + (shape.base + s.pcnt 0x123 0x100 % shape.n * shape.slot)) (parts.flatMap Prod.fst)).advancePcnt
                 0x123 0x100 1)
               ({ s1.me with pts := (parts.map fun (p : List Byte × Nat × Nat) => p.2.2).foldl max s1.me.pts }.setX 11
                 (BitVec.ofNat 64 (s.pcnt 0x123 0x100))))]
       | none => false
     | none => false) = true := by decide +kernel

/-- An operation of `engine`, about to take its step. -/
def operated (o : EngOp) : State := about { engine with ops := [(4, o)], nextOp := 5 } 4 0 0#64 0#64 false
def copyOp : EngOp := commandOf engine .copyIn 0x2000#64 0xFF00000000010200#64 (phHandle engine 5) 64 [] .sp plain
theorem test_hyps_EngineSteps_completion :
    (let gone := operated { copyOp with moved := true }
     let ringed := operated { copyOp with moved := true, published := false, ring := some (0x100, 2#16, 0x10080) }
     let s := operated copyOp
     let o := { copyOp with moved := true }
     let word := o.word ||| BitVec.ofNat 64 (1 * 2 ^ 12) ||| BitVec.ofNat 64 (o.unit.toNat * 2 ^ 32)
     let t := (State.phComplete { gone with ops := [] } (gone.refOf o.ph) 64 false word o.pts).settleColls o.job
     let empty := { s with ops := [] }
     all [[Instr.engineCompletion, .collArrival, .collTimeout, .ringCopyPublish].all fun i => same (exec i empty) (.next empty),
       gone.barriers.isEmpty, gone.dies.all fun e => e.2.command.isNone, t.barriers.isEmpty, t.dies.all fun e => e.2.command.isNone,
       same (exec .engineCompletion gone) (.next t), same (exec .engineCompletion ringed) (.next (ringed.due .ringCopyPublish 4)),
       !ringed.earlierRing { copyOp with moved := true, published := false, ring := some (0x100, 2#16, 0x10080) } 0x100 2#16,
       same (exec .ringCopyPublish ringed)
         (.next (({ ringed with ops := [(4, { copyOp with moved := true, published := true, ring := some (0x100, 2#16, 0x10080) })] }.advancePcnt
           0x123 0x100 1).due .engineCompletion 4)),
       (match okv (performMove copyOp) s with
        | some (o', s1) =>
          match after (completeOp 4 { o' with moved := true }) { s1 with ops := s1.ops.put 4 { o' with moved := true } } with
          | some s2 => o'.published && same (exec .engineCompletion s) (.next s2)
          | none => false
        | none => false)]) = true := by decide +kernel
theorem test_hyps_EngineSteps_collectives :
    (let desc := fun (n : Nat) => bytesOfNat 32 (7 + 2 ^ 32 * n + 2 ^ 64 * 4)
     let op := fun (d : List Byte) => commandOf engine (.coll 1) 0xFF00000000010400#64 0xFF00000000010200#64 (phHandle engine 5) 0 d .none plain
     let inst : CollInst :=
       { job := 3, group := 7, number := 0, members := [4], who := [(9, 0, 0x123)], failed := false, poisoned := false, complete := false }
     let bad := operated (op (List.replicate 32 0#8))
     let joined := fun (n : Nat) (c : CollInst) =>
       let s := operated (op (desc n))
       same (exec .collArrival s)
         (.next (let t := { s with ops := s.ops.put 4 { op (desc n) with joined := true }, colls := [c] }
                 if c.complete then t.due .engineCompletion 4 else t))
     let timed := { operated { op (desc 2) with timeout := 4, joined := true } with colls := [inst] }
     all [!collOk (List.replicate 32 0#8), bad.colls.isEmpty,
       same (exec .collArrival bad)
         (.next (State.endMember { bad with ops := bad.ops.put 4 { op (List.replicate 32 0#8) with joined := true },
                                            colls := [{ inst with group := 0, members := [], failed := true }] } 4 0x402)),
       collOk (desc 1), collOk (desc 2), joined 1 { inst with complete := true }, joined 2 inst,
       same (exec .collTimeout timed)
         (.next ([4].foldl (fun t m => t.endMember m 0x202) { timed with colls := [{ inst with poisoned := true, members := [] }] }))]) =
    true := by decide +kernel
theorem test_hyps_EngineSteps_calls_and_deposits :
    (let core := sluiceCore 1 5
     let call : SluiceCall :=
       { block := 0xB10C#64, entry := 0xAAA0#64, arg0 := 1#64, arg1 := 2#64, ph := 0#64, caller := 3#64, unit := 0#64, rel := false,
         scope := .core, pts := 6, secure := false, ne := false }
     let s := about (engine.setCore core { engine.core core with calls := [call, call] }) core 0 0#64 0#64 false
     let t := stOf (exec .sluiceCallStart s)
     let dep : Deposit := { ctx := 4, reg := 2, value := 99#64, pts := some 4444, job := 3 }
     let d := about (engine.setCore 0x123 { engine.core 0x123 with mailbox := [dep] }) 0x123 0 0#64 0#64 false
     let u := d.setCore 0x123 { d.core 0x123 with mailbox := [] }
     let e : PanEntry :=
       { ctx := 4, seq := 0, reg := 58, value := some 99, ready := false, external := true, pts := some 4444, word := none }
     let up := d.setPipe 0x123 { d.pipe 0x123 with upMade := true }
     let full := d.setPipe 0x123 { d.pipe 0x123 with pan := List.replicate 16 e }
     all [(s.core core).running.isNone, decide ((t.core core).running = some call), (t.core core).calls.length == 1,
       (t.ctxAt (ctxKey core 0)).pc == 0xAAA0#64, (t.ctxAt (ctxKey core 0)).getX 7 == 3#64, (t.ctxAt (ctxKey core 0)).getX 3 == 0#64,
       (d.die 1).saved.isEmpty, !(d.pipe 0x123).upMade, !(d.pipe 0x123).accepted,
       same (exec .depositArrival d)
         (.next ((u.setPipe 0x123 { d.pipe 0x123 with pan := [e], accepted := true }).due .panWrite 0x123)),
       same (exec .depositArrival up) (.next up), same (exec .depositArrival full) (.next full)]) =
    true := by decide +kernel

/-! ## Work, launches and ring waits -/

/-- A launch before its TICK, at it and started; its completion by its counter and its tree; the tick that reaches it. -/
theorem test_hyps_LaunchSteps :
    (let l := { launch0 with started := false, tick := 90 }
     let early := about { unit 0 with launches := [(9, l)] } 9 0 0#64 0#64 false
     let s := { early with mtime := 95 }
     let empty := { s with launches := [] }
     let at_ := fun (l : Launch) (n : Nat) =>
       (about { unit 0 with launches := [(9, l)] } 9 0 0#64 0#64 false).setCounter .launch 9 { Counter.fresh 1 3 4 with count := n }
     let done := at_ { launch0 with reports := [(0x123, 0x10001#64)] } 0
     let gone := at_ l 0
     let t := s.startLaunch 9
     let c := t.ctxAt (ctxKey 0x123 0)
     all [same (exec .launchTickStart empty) (.next empty), same (exec .launchComplete empty) (.next empty), l.preds == 0,
       same (exec .launchTickStart s) (.next (s.startLaunch 9)), same (exec .launchTickStart early) (.next early),
       same (exec .launchTickStart done) (.next done), l.succ == 0#64, launch0.succ == 0#64,
       same (exec .launchComplete (at_ launch0 1)) (.next (at_ launch0 1)),
       !launch0.treeDone (at_ launch0 0), same (exec .launchComplete (at_ launch0 0)) (.next (at_ launch0 0)),
       (done.launches.find 9).any fun l => l.treeDone done, same (exec .launchComplete done) (.next (done.settle 4 .launch 9)),
       same (exec .launchComplete gone) (.next (gone.settle 4 .launch 9)), !s.cancelled 9, s.coresOf l == [0x123],
       c.pc == 0x4444#64, c.getX 3 == l.stackTop 0x123 0, c.getX 4 == 0x7000#64, c.getX 5 == 0x99#64, c.launchid == 9#64, c.lease == 32#64,
       (t.launches.find 9).map (·.started) == some true]) = true := by decide +kernel
/-- A report of a fatal context and of one that is idle, at the root. -/
theorem test_hyps_LaunchSteps_report :
    all ([Status.fatal, .idle].map fun st =>
      let s := about (unit 0) 0x123 9 0#64 0#64 false
      let s := s.setMe { s.me with status := st }
      let word := if st = .fatal then 0x10002#64 else 0x10001#64
      let t := { s with launches := [(9, { launch0 with reports := launch0.reports.put 0x123 word })] }
      ((s.coresOf launch0).filter (fun x => Launch.parent s launch0 4096 x == some 0x123)).isEmpty &&
        same (exec .treeReport s) (.next (match Launch.parent s launch0 4096 0x123 with
          | some p => t.due .treeReport p 9
          | none => t.due .launchComplete 9))) = true := by decide +kernel

/-- The record of `unit`, queued. -/
def queued : State := about (unit 0) 0 0 5#64 0xFF00000000010200#64 false
theorem test_hyps_QueueSteps_answer_and_enqueue :
    (let s := (unit 0).setMe { (unit 0).me with status := .waiting .answer (some 12) }
     let s := about s 0x123 0 0x77#64 0x1FF#64 true
     let e : PanEntry :=
       { ctx := 0, seq := 7, reg := 12, value := none, ready := false, external := false, pts := none, word := none }
     let p := { s.pipe 0x123 with pan := [e], ctxs := [(0, { PipeCtx.reset with awaiting := some 7 })] }
     let z := s.setPipe 0x123 p
     let q := queued
     let off := q.setCounter .launch 9 { Counter.fresh 1 3 4 with can := true, count := 3 }
     let read := fun (q : State) =>
       match route q 0xFF00000000010200#64 with
       | some l => okv (strongBytes (niAgent l.place true) 0xFF00000000010200#64 56 5) q
       | none => none
     all [np s, ((s.pipe 0x123).ctxOf 0).awaiting.isNone,
       same (exec .answerArrival s) (.next (s.setMe (merged ({ s.me with status := .running }.setX 12 0x77#64) 0x1FF#64))),
       !(s.core 0x123).preempted,
       (let u := s.setCore 0x123 { s.core 0x123 with preempted := true }
        same (exec .answerArrival u)
          (.next ((u.setMe { u.me with status := .running }).holdAnswer (ctxKey 0x123 0) (some 12) 0x77#64 (some 0x1FF#64)))),
       ((z.pipe 0x123).ctxOf 0).awaiting == some 7,
       same (exec .answerArrival z)
         (.next ((z.setMe { z.me with status := .running }).fillAnswer 0x123 0 7 0x77#64 (some 0x1FF#64))),
       decide ((z.fillAnswer 0x123 0 7 0x77#64 (some 0x1FF#64)).pipe 0x123 =
         { p with pan := [{ e with value := some 0x77, word := some 0x1FF#64 }], ctxs := [(0, PipeCtx.reset)] }),
       (route q 0xFF00000000010200#64).map (·.place) == some 0,
       (match read q with
        | some ((bs, _), s1) =>
          let f := fun off n => natOfBytes ((bs.drop off).take n)
          !s1.cancelled 9 && same (exec .enqueue q) (.next (s1.join (f 20 2 / 2 ^ 10 % 2 ^ 6) (f 20 2 / 2 ^ 6 % 2 ^ 4) (f 22 1 % 4)
            { record := 0xFF00000000010200#64, rpts := max 5 (f 48 6), stamp := 0, hint := f 20 2 % 64, launch := 9, graph := 4,
              phase := 6, job := 3 }))
        | none => false),
       (match read off with
        | some (_, s1) => s1.cancelled 9 && same (exec .enqueue off) (.next (s1.endItem 9))
        | none => false)]) = true := by decide +kernel
/-- A helper of the home cluster that starts the unit, and one of another cluster that takes it. -/
theorem test_hyps_QueueSteps_pop_and_steal :
    (let t := stOf (exec .enqueue queued)
     let wants := fun (core : Nat) => (t.setCore core { t.core core with workcfg := 0x7FF#64 }).setCtxAt (ctxKey core 2) Ctx.reset
     let home := coreAtSlot 18 5
     let q := about (wants home) 1 2 0#64 0#64 false
     let z := about (wants 0x183) 0x183 2 0#64 0#64 false
     let idle := about (unit 0) 1 2 0#64 0#64 false
     let choice := fun (s : State) => ((List.range 16).map fun i => coreAtSlot 18 i).findSome? fun c =>
       ((List.range 11).find? fun h => s.wants c h).map fun h => (c, h)
     all [(choice idle).isNone, same (exec .autoPop idle) (.next idle),
       (match choice q with
        | some (c, h) =>
          match q.pop 1 2 c false with
          | (some e, p1) =>
            match after (startUnit (ctxKey c h) e.record e.rpts) p1 with
            | some p2 => same (exec .autoPop q) (.next (p2.offer 1 2))
            | none => false
          | (none, _) => false
        | none => false),
       (let empty := { q with dies := [] }
        match choice empty with
        | some (c, _) => (empty.pop 1 2 c false).1.isNone && same (exec .autoPop empty) (.next (empty.pop 1 2 c false).2)
        | none => false),
       same (exec .steal idle) (.next idle),
       z.wants 0x183 2 && !z.hot (clusterOf 0x183),
       (let seg := clusterOf 0x183 % 16
        match (List.range 15).find? fun i => ((z.die 1).head ((seg + 1 + i) % 16) fun e => e.eligible 0 false true).isSome with
        | some i =>
          match z.pop 1 ((seg + 1 + i) % 16) 0x183 true with
          | (some e, p1) =>
            match after (startUnit (ctxKey 0x183 2) e.record e.rpts) p1 with
            | some p2 => ((z.die 1).head seg fun e => e.eligible (clusterOf 0x183) false false).isNone && same (exec .steal z) (.next p2)
            | none => false
          | (none, _) => false
        | none => false)]) = true := by decide +kernel
theorem test_hyps_QueueSteps_ports_and_watchers :
    (let s := unit 3
     let s := s.setMe ((s.me.setHandle 1 (hdl 0x100 0x10000 64 4 2)).setPort 2
       { bound := true, dir := .read, ring := 1, esize := 4, z := false, pos := 32, staged := [] })
     let s := s.store (spAddr 0x123 0x100) (bytesOfNat 16 (2 + 2 ^ 16))
     let s := about s 0x123 3 2#64 0#64 false
     let q := s.me.port 2
     let w := { q with dir := .write, staged := bytesOfNat 32 (2 ^ 256 / 9), pos := 32 }
     let s2 := s.setMe (s.me.setPort 2 w)
     let bare := about s 0x123 3 1#64 0#64 false
     let met : Watcher := { off := 0x100, n := 1, record := 0xFF00000000010200#64, pts := 4 }
     let v := about (s.setCore 0x123 { s.core 0x123 with suspUsed := [(otherWait, 2)], watchers := [met, { met with n := 2 }] }) 0x123 0x100 0#64 0#64 false
     all [same (exec .portStagingTransfer bare) (.next bare), decide (32 / 64 < s.fill 0x123 0x100),
       same (exec .portStagingTransfer s)
         (.next (s.setMe (s.me.setPort 2 { q with staged := s.bytes (spBase 0x123 + (0x10000 + s.ccnt 0x123 0x100 % 4 * 64 + 32)) 32 }))),
       decide (s2.fill 0x123 0x100 < 4),
       same (exec .portStagingTransfer s2)
         (.next ((s2.store (spBase 0x123 + (0x10000 + s2.pcnt 0x123 0x100 % 4 * 64)) w.staged).setMe (s2.me.setPort 2 { w with staged := [] }))),
       same (exec .ringWatcherSatisfied v)
         (.next ((v.setCore 0x123 { v.core 0x123 with watchers := [{ met with n := 2 }] }).freeEntry 0x123 otherWait |>.requeue met.record 4))]) =
    true := by decide +kernel
/-- A CBWAIT of h1 that has stood long enough. -/
theorem test_hyps_QueueSteps_watch :
    (match encode (.cbwait 1 0 3) with
     | none => false
     | some bs =>
       let s := (unit 3).setBytes (dramBase 0 + 0x10000) bs
       let s := (s.setMe (s.me.setHandle 1 (hdl 0x100 0x10000 64 4 2))).store (spAddr 0x123 0x100) (bytesOfNat 16 (2 + 2 ^ 16))
       let s := about s 0x123 3 0#64 0#64 false
       let idle := about (s.setMe { s.me with status := .idle }) 0x123 3 0#64 0#64 false
       match okv fetch s with
       | some (i, s1) =>
         match okv (foldUnit s.me.pc none 0x100#64) s with
         | some (some (record, pts), s2) =>
           let t := { s2 with cur := s.cur }.useEntry 0x123 otherWait
           all [decide (i = .cbwait 1 0 3), s.runs (ctxKey 0x123 3), (s1.me.handle 1).ready, decide (s1.fill 0x123 0x100 < 3),
             s1.maySuspend otherWait, !(s.pipe 0x123).cbwaits 3, !idle.runs (ctxKey 0x123 3), same (exec .cbwaitSuspendTimeout idle) (.next idle),
             same (exec .cbwaitSuspendTimeout s)
               (.next (t.setCore 0x123 { t.core 0x123 with watchers := [{ off := 0x100, n := 3, record := record, pts := pts }] })),
             (t.core 0x123).suspUsed == [(otherWait, 1)], record == 0xFF00000000010200#64, decide (pts < 2 ^ 48)]
         | _ => false
       | none => false) = true := by decide +kernel

/-! ## LAUNCHQ, nets and Brine -/

/-- A die with a command in progress. -/
def commanded (s : State) (d : Nat) (c : Dword) : State := s.setDie d { s.die d with command := some c }
theorem test_hyps_LaunchCommands_refused :
    (let s := about (commanded (unit 0) 1 1#64) 1 0 0x345#64 0#64 false
     let u := fun (d : Nat) (v : Dword) => about (unit 0) d 0 v 0#64 false
     let v := 0xFF00000000010241#64
     all [[Instr.launchqSubmit, .launchqPreempt, .launchqResume, .launchqRebase, .launchqUnknown].all fun i =>
         same (exec i s) (.next (s.lqstat 1 6 true 0x345#64)),
       ((u 1 v).die 1).command.isNone, same (exec .launchqUnknown (u 1 v)) (.next ((u 1 v).lqstat 1 2 false v)),
       same (exec .launchqPreempt (u 1 v)) (.next ((u 1 v).lqstat 1 5 false v)),
       same (exec .launchqResume (u 1 0xFF00000000010280#64)) (.next ((u 1 0xFF00000000010280#64).lqstat 1 5 false 0xFF00000000010280#64)),
       same (exec .launchqRebase (u 1 0x43#64)) (.next ((u 1 0x43#64).lqstat 1 5 false 0x43#64)),
       same (exec .launchqRebase (u 1 3#64)) (.next ((u 1 3#64).lqstat 1 4 false 3#64)), !(unit 0).rebaseReady,
       same (exec .launchqRebase (u 0 3#64)) (.next ((u 0 3#64).lqstat 0 4 false 3#64)),
       (u 1 0#64).kindZero 0xFF00000000020000#64, ((u 2 0#64).dieJob 2).isNone, ((u 1 0#64).dieJob 1) == some 3,
       (let v := 0xFF00000000020001#64
        same (exec .launchqPreempt (u 2 v)) (.next (((u 2 v).beginCommand 2 v).due .quiesce 2)) &&
          same (exec .launchqPreempt (u 1 v)) (.next ((((u 1 v).jobCores 1 3).foldl (fun t c => t.due .preemptArrival c)
            ((u 1 v).beginCommand 1 v)).due .quiesce 1))),
       ((u 1 0#64).lqstat 1 5 true (BitVec.allOnes 64)).dieReg 1 0x248 == BitVec.ofNat 64 (5 + 16 + (2 ^ 64 - 1) / 64 * 64)]) = true := by
  decide +kernel
/-- A submission with a bad descriptor and a good one. -/
theorem test_hyps_LaunchCommands_submit :
    all ([(bytesOfNat 128 1, false), (bytesOfNat 128 (0x5000 + 2 ^ 192 * 2 ^ 16 + 2 ^ 640 * 77), true)].map fun (d, good) =>
      let s := about ((unit 0).setBytes (dramBase 0 + 0x10200) d) 1 0 0xFF00000000010200#64 0#64 false
      let v := 0xFF00000000010200#64
      match okv (strongBytes (niAgent 1 false) v 128 0) s with
      | some ((bs, _), s1) =>
        (descriptorOk bs == good) && same (exec .launchqSubmit s)
          (.next (if good then (s1.accept 1 v bs).lqstat 1 1 false v else s1.lqstat 1 3 false v))
      | none => false) = true := by decide +kernel
/-- A resume's command and image are good; a run that carries a command out succeeds. -/
theorem test_hyps_LaunchCommands_resume :
    (let v := 0xFF00000000010002#64
     let s := about (unit 0) 2 0 v 0#64 false
     (v.toNat / 2 ^ 7 % 2 ^ 9 == 0) && s.kindZero (v &&& ~~~0xFFFF#64) && ((s.die 2).command.isNone) && (after (pure ()) s).isSome) = true := by
  decide +kernel
/-- A rebase with an effect held at the horizon; a quiesce of nothing, and of what is still to come. -/
theorem test_hyps_LaunchCommands_rebase_and_quiesce :
    (let s := about { unit 0 with ctxs := [], ops := [] } 0 0 3#64 0#64 false
     let hold : Hold := { gva := 0#64, who := .packet 0x123 3 7 [], horizon := true, absent := false, lease := none }
     let s := s.setDie 2 { s.die 2 with holds := [hold] }
     let t := stOf (exec .launchqRebase s)
     let none := about (unit 0) 2 0 0#64 0#64 false
     let c := 0xFF00000000010001#64
     let q := about (commanded (unit 0) 2 c) 2 0 0#64 0#64 false
     let late := { q with agenda := [{ step := .seal, subject := Subject.nothing }] }
     let loud := about (commanded (unit 0) 1 c) 1 0 0#64 0#64 false
     let loud := { loud with launches := [], ops := [(4, commandOf (unit 0) .copy 0#64 0#64 0#64 0 [] .sp plain)] }
     let p := about ((unit 0).setCtxAt (ctxKey 0x123 5) { Ctx.reset with fills := [(3, 4#64)] }) 0x123 0 0#64 0#64 false
     all [s.rebaseReady, s.brine.isEmpty, s.copies.all fun e => e.2.dirty == 0, s.allHolds == [hold], t.copies.isEmpty, t.frames.isEmpty,
       t.times.isEmpty, t.epoch == 1, t.mem == s.mem, t.turns.contains (Turn.retry hold.who []), (t.die 0).command.isNone,
       same (exec .quiesce none) (.next none), same (exec .quiesce late) (.next (late.due .quiesce 2)), (q.dieJob 2).isNone,
       (loud.dieJob 1).isNone, loud.unquiet 1 [], same (exec .quiesce loud) (.next loud), !q.unquiet 2 [],
       ((stOf (exec .preemptArrival p)).core 0x123).preempted, ((stOf (exec .preemptArrival p)).ctxAt (ctxKey 0x123 5)).fills.isEmpty]) =
    true := by decide +kernel
/-- A quiesce that carries out a rebase; one of a resume is in progress. -/
theorem test_hyps_LaunchCommands_carried_out :
    (let s := fun (c : Dword) => about (commanded { unit 0 with ctxs := [] } 2 c) 2 0 0#64 0#64 false
     all [((s 0xFF00000000010002#64).die 2).command == some 0xFF00000000010002#64,
       (match after (carryOut 2 (rebase 3#64)) (s 3#64) with
        | some t => same (exec .quiesce (s 3#64)) (.next t)
        | none => false)]) = true := by decide +kernel
def net (base depth parent age : Nat) : Net :=
  { state := .opened, base := BitVec.ofNat 64 base, len := 0x2000, parent := parent, depth := depth, brokenAt := [], age := age,
    claimed := none, recorded := [], dropOf := 0, homes := [], phaser := none, unit := 0#64, issuer := 0, pts := 0 }
def shadow : Shadow := { die := 0, line := 0x10200, net := 2, slot := 0, lazy := false }
/-- Net 2 within net 1, a third, and two shadows. -/
def netted : State :=
  let s := unit 3
  { s.setMe ((((s.me.setX 9 0xFF00000000010000#64).setX 10 0x1000#64).setX 13 2#64).setX 16 1#64) with
    nets := [(1, net 0x10000 1 0 1), (2, net 0x10000 2 1 2), (3, { net 0x50000 1 0 3 with state := .broken, brokenAt := [4] })],
    shadows := [shadow, { shadow with net := 1, line := 0x10280, die := 1, lazy := true }] }
/-- A DROP of this context that is not complete. -/
def dropped (s : State) : State :=
  { s with nets := s.nets.put 9 { net 0x900000 1 0 9 with state := .dropping, dropOf := 9, issuer := ctxKey 0x123 3, homes := [0] } }

theorem test_hyps_NetInstructions_open :
    (let s := netted
     let off := { s with feature := 0xFD#64 }
     let at_ := fun (a b : Dword) => s.setMe ((s.me.setX 9 a).setX 10 b)
     let traps := fun (s : State) (cause : Nat) (v : Dword) => same (exec (.netOpen 12 9 10) s) (trapped s cause v)
     let good := 0xFF00000000010000#64
     let long := BitVec.ofNat 64 (2 ^ 36 + 4096)
     all [np s, isArith 0x123, s.run.isNone, !off.feature.getLsbD 1, traps off 0x09 77#64, same (exec (.netKeep 12 13) off) (trapped off 0x09 77#64),
       same (exec (.netDrop 12 13 0) off) (trapped off 0x09 77#64), same (exec (.netStat 12 13) off) (trapped off 0x09 77#64),
       s.feature.getLsbD 1, traps (at_ 0xFF00000000010800#64 0x1000#64) 0x03 0xFF00000000010800#64,
       traps (at_ good 0x800#64) 0x03 good, traps (at_ good 0#64) 0x06 good, traps (at_ good long) 0x06 good, s.kindZero good,
       (dropped s).awaitsDrop (ctxKey 0x123 3), !s.awaitsDrop (ctxKey 0x123 3), same (exec (.netOpen 12 9 10) (dropped s)) (.next (dropped s)),
       (let far := 0x0100000000010000#64
        traps (at_ far 0x1000#64) 0x06 far && !s.kindZero far), (s.phaserRef 0x123 96#64).isNone,
       (let bad := s.setMe (s.me.setX 11 96#64)
        same (exec (.netDrop 12 13 11) bad) (trapped bad 0x06 96#64)),
       (match after (releaseMine .mod) s with
        | some s1 => np s1 && same (exec (.netOpen 12 9 10) s)
            (sealedAs ((s1.pinActive s1.myKey).due .netOpenRecord 0x123 3) { s1.me with status := .waiting (.netOpen good 0x1000#64) (some 12) })
        | none => false)]) = true := by decide +kernel
theorem test_hyps_NetInstructions_handles :
    (let s := netted
     let claimed := { s with nets := s.nets.put 2 { net 0x10000 2 1 2 with claimed := some 5 } }
     let with_ := (s.setMe (s.me.setX 11 (phHandle s 5)))
     let drops := fun (s : State) (rs2 : XReg) (ph : Option Dword) =>
       match after (releaseMine .mod) (s.setMe (s.me.setX 12 0#64)) with
       | some s1 =>
         let kin := (s1.family 2).filter fun e => e.2.isOpen
         let homes := homesOfNets kin
         let n' : Net :=
           { net 0x10000 2 1 2 with
             state := .dropping, dropOf := 2, homes := homes, phaser := ph, unit := s1.me.unitid, issuer := s1.myKey, pts := s1.me.pts }
         let t := { s1 with nets := s1.nets.put 2 n' }
         np s1 && kin.length == 1 && homes == [0] && (s1.nets.find 2).any Net.isOpen &&
           same (exec (.netDrop 12 13 rs2) s) (pinned (homes.foldl (fun t d => t.due .netDropHomeArrival d 2) t) s1.me)
       | none => false
     all [same (exec (.netKeep 12 0) s) (pinned s (s.me.setX 12 1#64)), same (exec (.netDrop 12 0 0) s) (pinned s (s.me.setX 12 1#64)),
       same (exec (.netKeep 12 13) claimed) (pinned claimed (claimed.me.setX 12 1#64)),
       same (exec (.netDrop 12 13 0) claimed) (pinned claimed (claimed.me.setX 12 1#64)),
       same (exec (.netStat 12 0) s) (pinned s (s.me.setX 12 0#64)), decide (s.nets.find 2 = some (net 0x10000 2 1 2)), !s.childFor 2 s.myKey, s.childFor 1 s.myKey,
       same (exec (.netStat 12 13) s) (pinned s (s.me.setX 12 (BitVec.ofNat 64 (1 + 2 * 8 + 64 + 2 ^ 32)))),
       same (exec (.netKeep 12 16) s) (pinned s (s.me.setX 12 2#64)),
       same (exec (.netKeep 12 13) (dropped s)) (.next (dropped s)), same (exec (.netDrop 12 13 0) (dropped s)) (.next (dropped s)),
       (match after (releaseMine .mod) (s.setMe (s.me.setX 12 0#64)) with
        | some s1 => np s1 && !s1.hasChild 2 && same (exec (.netKeep 12 13) s) (pinned ((s1.keepNet 2).netGone) s1.me)
        | none => false),
       drops s 0 none, decide (with_.phaserRef 0x123 (phHandle s 5) = some ph5), drops with_ 11 (some (phHandle s 5))]) = true := by
  decide +kernel

/-- A context that waits for the registry's answer about a range. -/
def opening (s : State) (base : Nat) : State :=
  about (s.setMe { s.me with status := .waiting (.netOpen (BitVec.ofNat 64 base) 0x1000#64) (some 12) }) 0x123 3 0#64 0#64 false
/-- The registry's answers: a handle below net 2, and apart from every net; 1 with no handle free; 2 past depth 4; 3 across a net's edge;
and no answer yet where a net that is not open meets the range. -/
theorem test_hyps_NetSteps_open :
    (let refuse := fun (s : State) (base why : Nat) =>
       s.answer (ctxKey 0x123 3) (.netOpen (BitVec.ofNat 64 base) 0x1000#64) (BitVec.ofNat 64 (why * 256)) 0#64 false
     let opens := fun (s : State) (base parent depth : Nat) =>
       match s.freeHandle with
       | some h =>
         let n : Net :=
           { net base depth parent (s.nets.foldl (fun m e => max m e.2.age) 0 + 1) with len := 0x1000, issuer := ctxKey 0x123 3 }
         homesOfNets [(h, n)] == [0] && same (exec .netOpenRecord s)
           (.next ({ s with nets := s.nets.put h n }.dueAt .netOpenRecord
             { place := 0, index := h, addr := BitVec.ofNat 64 base, value := BitVec.ofNat 64 (ctxKey 0x123 3), flag := true }))
       | none => false
     let deep := { netted with nets := [(1, net 0x10000 1 0 1), (2, net 0x10000 2 1 2), (3, net 0x10000 3 2 3), (4, net 0x10000 4 3 4)] }
     let across := { netted with nets := [(1, net 0x10000 1 0 1), (2, { net 0x11000 1 0 2 with len := 0x1000 })] }
     let full := { netted with nets := (List.range 256).map fun i => (i, net 0x900000 1 0 1) }
     let s := opening { netted with nets := [(3, { net 0x50000 1 0 3 with state := .dropping })] } 0x50000
     let entered := { opening netted 0x60000 with nets := [(1, { net 0x60000 1 0 1 with issuer := ctxKey 0x123 3 })] }
     all [same (exec .netOpenRecord s) (.next s), entered.openEntered (ctxKey 0x123 3), same (exec .netOpenRecord entered) (.next entered),
       !(opening netted 0x10000).openEntered (ctxKey 0x123 3), opens (opening netted 0x10000) 0x10000 2 3, opens (opening netted 0x60000) 0x60000 0 1,
       same (exec .netOpenRecord (opening deep 0x10000)) (.next (refuse (opening deep 0x10000) 0x10000 2)),
       ((opening across 0x11000).netsOver 0x11000 0x1000).length == 2,
       same (exec .netOpenRecord (opening across 0x11000)) (.next (refuse (opening across 0x11000) 0x11000 3)),
       (opening full 0x10000).freeHandle.isNone,
       same (exec .netOpenRecord (opening full 0x10000)) (.next (refuse (opening full 0x10000) 0x10000 1))]) = true := by decide +kernel
/-- A home takes an open: the only one, one of two, and one whose Brine grain it cannot harvest. -/
theorem test_hyps_NetSteps_homes :
    (let k := ctxKey 0x123 3
     let n := fun (len : Nat) => { net 0x10000 1 0 1 with len := len, issuer := k }
     let at_ := fun (s : State) (len : Nat) =>
       { s with
         nets := [(1, n len)],
         subject := { place := 0, index := 1, addr := 0x10000#64, value := BitVec.ofNat 64 k, flag := true } }
     let check := fun (len : Nat) =>
       let s := at_ (opening netted 0x10000) len
       let here := (s.brineIn 0x10000 len).filter fun e => e.1 / 2 ^ 48 == 0
       match okv (harvestAll here) s with
       | some (true, s1) =>
         let net := { n len with recorded := [0] }
         let t := { s1 with nets := s1.nets.put 1 net }
         decide (s1.nets.find 1 = some (n len)) && same (exec .netOpenRecord s)
           (.next (if (homesOfNets [(1, net)]).all net.recorded.contains then
               t.answer k (.netOpen 0x10000#64 (BitVec.ofNat 64 len)) 1#64 0#64 false
             else t))
       | _ => false
     all [check 0x1000, check (2 ^ 48 + 0x1000), (homesOfNets [(1, n 0x1000)]) == [0], (homesOfNets [(1, n (2 ^ 48 + 0x1000))]) == [0, 1],
       (match briny with
        | none => false
        | some (s0, _, h, e, _) =>
          let s := at_ { s0 with brine := [(h.key, { e with state := .brine })] } 0x1000
          let s := { s with nets := [(1, n 0x1000), (7, { net 0x10000 1 0 1 with state := .broken, brokenAt := [0], recorded := [0] })] }
          match okv (harvestAll (s.brineIn 0x10000 0x1000)) s with
          | some (false, s1) => same (exec .netOpenRecord s)
              (.next ((s1.withdrawNet 1).answer k (.netOpen 0x10000#64 0x1000#64) (BitVec.ofNat 64 (4 * 256)) 0#64 false).netGone)
          | _ => false)]) = true := by decide +kernel
/-- A drop at its homes, with a Brine grain there in each of its states. -/
theorem test_hyps_NetSteps_drop_homes :
    (let dropping := fun (homes : List Nat) => { net 0x10000 2 1 2 with state := .dropping, dropOf := 2, homes := homes }
     let at_ := fun (s : State) (homes : List Nat) =>
       about { s with nets := [(1, net 0x10000 1 0 1), (2, dropping homes)], shadows := [] } 0 2 0#64 0#64 false
     let h := at_ netted [0, 5]
     let last := at_ netted [0]
     all [same (exec .netDropHomeArrival (at_ netted [5])) (.next (at_ netted [5])), same (exec .netDropHomeArrival h) (.next (at_ netted [5])),
       same (exec .netDropHomeArrival last) (.next ((at_ netted []).due .netDropComplete 2)),
       (match briny with
        | none => false
        | some (s0, _, g, e, i) =>
          let b := fun (e : BrineEntry) => at_ { s0 with brine := [(g.key, e)] } [0]
          let subject := { Subject.nothing with place := 0, index := 2, addr := BitVec.ofNat 64 g.key }
          let p : Partial := { data := BrineTag.addD.identityData g.size, maxPts := 0, bad := false }
          let out := { e with state := .harvesting }
          let back := { out with holders := [], returned := [(i, p)] }
          let gone := { e with state := .discarding }
          all [g.key / 2 ^ 48 == 0, e.state == .brine,
            same (exec .netDropHomeArrival (b e)) (.next ((b gone).dueAt .brineDiscardComplete subject)),
            same (exec .netDropHomeArrival (b back)) (.next ((b back).dueAt .harvestMerge subject)),
            same (exec .netDropHomeArrival (b out)) (.next (b out)), same (exec .netDropHomeArrival (b gone)) (.next (b gone))])]) =
    true := by decide +kernel
/-- The end of a drop: what has still to report, a drop below, no shadow, a shadow with its phaser, and times at the horizon; a restored
line, with a bad byte and without. -/
theorem test_hyps_NetSteps_drop :
    (let dropping := fun (homes : List Nat) (ph : Option Dword) =>
       { net 0x10000 2 1 2 with state := .dropping, dropOf := 2, homes := homes, phaser := ph }
     let at_ := fun (homes : List Nat) (shadows : List Shadow) (ph : Option Dword) =>
       about { netted with nets := [(1, net 0x10000 1 0 1), (2, dropping homes ph)], shadows := shadows } 2 0 0#64 0#64 false
     let o := about netted 2 0 0#64 0#64 false
     let wait := at_ [0] [] none
     let below := { at_ [] [] none with nets := [(2, dropping [] none), (3, { dropping [0] none with parent := 2, dropOf := 3 })] }
     let lazy := about netted 1 0 0#64 0#64 false
     let ends := fun (n : Net) (t : State) (time : Nat) (bad : Bool) =>
       let kin := t.dropped 2
       let u := { t with
         shadows := t.shadows.filter fun (w : Shadow) => w.lazy || !(kin.any fun e => e.1 == w.net)
         nets := t.nets.filter fun (e : Nat × Net) => !(kin.any fun x => x.1 == e.1) }
       State.netGone <| match n.phaser with
         | none => u
         | some ph =>
           u.phComplete (u.refOf ph) 0 true (BitVec.ofNat 64 (6 * 2 ^ 12 + if bad then 0x102 else 0) ||| n.unit <<< 32) (max n.pts time)
     let whole := fun (ph : Option Dword) (bad : Bool) =>
       let s := at_ [] [shadow] ph
       let s := if bad then s.mark (s.slotAddr 0 0 + 5) else s
       match okv (lineHomes shadow.line) s with
       | some (sectors, s1) =>
         let r : Restore := { line := shadow.line, data := (s.shadowData shadow).1, bad := (s.shadowData shadow).2, sectors := sectors }
         let time := sectors.foldl (fun t p => max t ((s1.homeTimes p.2).2 + 1)) 0
         decide (time < horizon) && decide (0 < r.bad) == bad &&
           same (exec .netDropComplete s) (.next (ends (dropping [] ph) ((s1.unmarkRestored [r]).restoreLine r time) time bad))
       | none => false
     let late := match okv (lineHomes shadow.line) (at_ [] [shadow] none) with
       | some (sectors, s) => sectors.foldl (fun s p => s.setHomeTimes p.2 1 (2 ^ 48 - 1)) s
       | none => State.reset
     all [same (exec .netDropComplete o) (.next o), same (exec .netDropComplete wait) (.next wait), below.dropBelow 2,
       same (exec .netDropComplete below) (.next below), !wait.dropBelow 2,
       same (exec .netDropComplete (at_ [] [] none)) (.next (ends (dropping [] none) (at_ [] [] none) 0 false)),
       whole none false, whole (some (phHandle netted 5)) true, same (exec .lazyReleaseReclaim lazy) (.next { lazy with shadows := [shadow] }),
       (match okv (lineHomes shadow.line) late with
        | some (sectors, s1) =>
          decide (2 ^ 48 ≤ sectors.foldl (fun t p => max t ((s1.homeTimes p.2).2 + 1)) 0) && same (exec .netDropComplete late)
            (.next (s1.addWait (.horizon (siteOfKey shadow.line).loc.place (siteOfKey shadow.line).gva none)
              (.step ⟨.netDropComplete, late.subject⟩)))
        | none => false),
       (match okv (lineHomes shadow.line) ((at_ [] [shadow] none).setBytes (dramBase 0 + 0x4080) (bytesOfNat 8 0x1000F)) with
        | some ((off, h) :: _, s) =>
          [0, 2 ^ off].all fun bad =>
            let data := bytesOfNat 128 (2 ^ 1024 / 7)
            let t := s.store (h.base + (shadow.line + off - h.key)) ((data.drop off).take 32)
            h.size == 32 && stSame (s.restoreLine { line := shadow.line, data := data, bad := bad, sectors := [(off, h)] } 9)
              ((if bad = 0 then t else t.mark (grainMark h.base)).setHomeTimes h 9 9)
        | _ => false)]) = true := by decide +kernel

/-- A packet of context 3. -/
def packet (i : Instr) (seq : Nat) (srcs : List Source) (dest : Option Nat) : Packet :=
  { ctx := 3, seq := seq, pc := 0xFF00000000010000#64, npc := 0xFF00000000010004#64, ir := 0#64, instr := i, fetched := true, srcs := srcs,
    dest := dest, predicted := 0xFF00000000010004#64, target := 0xFF00000000010004#64, result := none, injected := false, flags := 0#64,
    executed := false, complete := false, ready := false, fault := none, away := false, spans := [], claim := none, read := [],
    window := none, commit := none, begun := none, port := none, element := [], clause := none, slots := 0 }

/-- A grant, an update of a holder, a recall, the merge after it and a discard; a harvest that the pool refuses. -/
theorem test_hyps_BrineSteps :
    (match briny with
     | none => false
     | some (s0, t, h, e, i) =>
       let ga := 0xFF00000000010220#64
       let s := about s0 0x123 1 0x77#64 ga false
       let key := BitVec.ofNat 64 h.key
       let held := fun (e : BrineEntry) (index : Nat) => about { s0 with brine := [(h.key, e)] } 0 index 0#64 key false
       let bare := about { s0 with brine := [(h.key, e)] } 0x123 3 0#64 0#64 false
       let o : Outbound := { packet := packet (.bupd .addD 11 10 .mod false) 5 [] none, view := bare.me, sent := true }
       let u := bare.setCore 0x123 { bare.core 0x123 with outbound := [o] }
       let p : Partial := { data := BrineTag.addD.identityData h.size, maxPts := 0, bad := false }
       let back := { e with state := .harvesting, holders := [], returned := [(i, p)] }
       let out := { e with state := .harvesting }
       let a := s.coreAgent (ctxKey 0x123 0)
       let turn := fun (s : State) => okv (contend (harvestAgent (siteOfKey h.key).loc.home) (brineHome h.key e)) s
       let put := fun (u : State) =>
         ({ u with brine := u.brine.put h.key back }.leaveHolder h.key i).dueAt .harvestMerge { Subject.nothing with addr := key }
       let poor := { held e i with nets := [(1, { net 0x10000 1 0 1 with state := .broken, brokenAt := [0], recorded := [0] })] }
       match okv (homeOf a t .write) { s with cur := (0x123, 0) } with
       | some (h', s1) =>
         all [BrineTag.ofCode 1 == some .addD, decide (globalSite { s with cur := (0x123, 0) } ga ga = some t), h'.key == h.key, pteBr h'.pte,
           s1.directoryRoom h', !s1.dropHolds t.key 8 true, (s1.brine.find h.key).isNone,
           s.feature.getLsbD 2,
           (match okv (contend a h') s1 with
            | some (adm, s2) => (s2.brine.find h'.key).isNone && s2.directoryRoom h' && !h'.site.loc.bridge &&
                same (exec .brineGrantRequest s)
                  (.next { { s2.countAccess h'.site.loc.home adm with brine := [(h.key, e)] }.bringFor (holderPlace h'.site.loc.home i) h.key
                    (pteClass h'.pte) with cur := s.cur })
            | none => false),
           same (exec .bupdApply bare) (.next bare), o.sent && isBupd o.packet.instr, (u.outboundOf 0x123 3).length == 1,
           same (exec .bupdApply u) (.next (u.performSeq 0x123 3 5 [])),
           decide ((stOf (exec .bupdApply u)).brine ≠ u.brine),
           same (exec .holderRecall s) (.next s), same (exec .harvestMerge s) (.next s), same (exec .brineDiscardComplete s) (.next s),
           decide (e.holders.find i = some p), same (exec .holderRecall (held out i)) (.next (put (held out i))),
           !(held e i).dropHolds h.key e.size true,
           (match turn (held e i), okv (probeLines (brineHome h.key e) 0 e.size) (held e i) with
            | some (_, t), some (true, s1) => stSame t (held e i) && same (exec .holderRecall (held e i)) (.next (put s1))
            | _, _ => false),
           (match turn poor, okv (probeLines (brineHome h.key e) 0 e.size) poor with
            | some (_, t), some (false, s1) => stSame t poor && !poor.dropHolds h.key e.size true &&
                same (exec .holderRecall poor) (.next (s1.keepFrame (holderPlace (h.key / 2 ^ 48) i) h.key))
            | _, _ => false),
           (match turn (held back 0), after (mergeBrine (brineHome h.key back) back) (held back 0) with
            | some (adm, t), some m => stSame t (held back 0) &&
                same (exec .harvestMerge (held back 0)) (.next (m.reachLine (brineHome h.key back) adm))
            | _, _ => false),
           same (exec .harvestMerge (held out 0)) (.next (held out 0)),
           same (exec .brineDiscardComplete (held e 5)) (.next (held e 5)),
           (let d := held { e with state := .discarding } 5
            same (exec .brineDiscardComplete d)
              (.next ((e.holders.foldl (fun (u : State) p => u.leaveHolder h.key p.1) { d with brine := [] }).dropsAgain 0)))]
       | none => false) = true := by decide +kernel

/-! ## The fitting engines -/

/-- Two inputs (x5 as a number, x6 as FP32), one output in x8, trained with the plainest of its rules. -/
def fitDesc : List Byte :=
  bytesOfNat 8 (2 ^ 5 + 2 ^ 6) ++ bytesOfNat 8 (2 ^ 8) ++ bytesOfNat 4 (3 + 2 * 2 ^ 16) ++ bytesOfNat 4 0 ++ bytesOfNat 4 0x3C23D70A ++
    bytesOfNat 4 0x3F000000 ++ bytesOfNat 4 0x447A0000 ++ bytesOfNat 4 (1 + 2 ^ 8) ++ bytesOfNat 8 0
def fit0 : FitSlot := FitSlot.fresh 9 7 5 fitDesc
def fitKey : Nat := 16 * clusterOf 0x123
def fitted (x : FitSlot) (f : Ctx → Ctx) : State :=
  let s := { unit 3 with fit := [(fitKey, x)] }
  s.setMe (f (((s.me.setX 5 3#64).setX 6 0x40200000#64).setX 8 4#64))

theorem test_hyps_Fitting_absent :
    (let s := { unit 3 with feature := 0xFE#64 }
     all [np s, s.run.isNone, !s.feature.getLsbD 0, same (exec (.axrBegin 7 20) s) (sealedAs s s.me), same (exec (.axrEnd 7) s) (sealedAs s s.me),
       same (exec (.axrCfg 12 7 13) s) (sealedAs s (s.me.setX 12 1#64)), same (exec (.axrInval 7) s) (sealedAs s s.me),
       same (exec (.axrStat 12 7) s) (sealedAs s (s.me.setX 12 7#64))]) = true := by decide +kernel
/-- AXR.CFG of a good descriptor, a bad one, a misaligned one, and at the last place that holds one and past it. -/
theorem test_hyps_Fitting_configuration :
    (let s := (unit 3).store (spAddr 0x123 0x40) fitDesc
     let at_ := fun (off : Dword) => s.setMe (s.me.setX 13 off)
     let r := (at_ 0x40#64).fitAllocate (clusterOf 0x123) 9 7 fitDesc
     all [s.feature.getLsbD 0, (s.fitSlot (clusterOf 0x123) 9 7).isNone, same (exec (.axrInval 7) s) (sealedAs s s.me),
       same (exec (.axrStat 12 7) s) (sealedAs s (s.me.setX 12 0#64)), !s.localBad 0x123 .sp 0x40 48, fitOk fitDesc,
       same (exec (.axrCfg 12 7 13) (at_ 0x40#64)) (sealedAs r.2 ((at_ 0x40#64).me.setX 12 (BitVec.ofNat 64 r.1))),
       !fitOk (s.localBytes 0x123 .sp 0x80 48), same (exec (.axrCfg 12 7 13) (at_ 0x80#64)) (sealedAs (at_ 0x80#64) ((at_ 0x80#64).me.setX 12 3#64)),
       same (exec (.axrCfg 12 7 13) (at_ 0x48#64)) (trapped (at_ 0x48#64) 0x03 0x48#64),
       same (exec (.axrCfg 12 7 13) (at_ 0x3FFD0#64)) (sealedAs (at_ 0x3FFD0#64) ((at_ 0x3FFD0#64).me.setX 12 3#64)),
       same (exec (.axrCfg 12 7 13) (at_ 0x3FFE0#64)) (trapped (at_ 0x3FFE0#64) 0x06 0x3FFE0#64)]) = true := by decide +kernel
/-- BEGIN in each state of its slot. -/
theorem test_hyps_Fitting_begin :
    (let s := fitted fit0 id
     let inputs := s.me.fitValues (fitInputs fitDesc) 1
     let y := surrogate fitDesc fit0.working inputs
     let f := { fit0 with state := .fitted }
     let a := fitted f id
     let l := fitted { f with inv := 3 } id
     let n := fitted { f with working := List.replicate fit0.working.length 0x7FC0#16 } id
     let pin := fitted { fit0 with state := .pinned } id
     let off := fitted f fun c => { c with ctxcfg := 2#64 }
     let inside := fitted fit0 fun c => { c with region := some 7 }
     let bare := { s with fit := [], launches := [] }
     all [(bare.fitSlot (clusterOf 0x123) 9 7).isNone, same (exec (.axrBegin 7 20) bare) (sealedAs bare { bare.me with region := some 7, pending := none }),
       decide (s.fitSlot (clusterOf 0x123) 9 7 = some (fitKey, fit0)), s.me.region.isNone,
       same (exec (.axrBegin 7 20) s)
         (sealedAs s { s.me with region := some 7, pending := some { id := 7, gen := 5, inputs := inputs, yhat := none } }),
       same (exec (.axrBegin 7 20) pin) (sealedAs pin { pin.me with region := some 7, pending := none }),
       same (exec (.axrBegin 7 20) off) (sealedAs off { off.me with region := some 7, pending := none }), fitK fitDesc == 2,
       y.all fun w => !(value32 w.toNat).isNan,
       same (exec (.axrBegin 7 20) a)
         (sealedAs ((fillsOf fitDesc y).foldl (fun t _ => t.due .fillPacket 0x123 3)
             { a with fit := [(fitKey, { f with inv := 1, answers := 1 })] })
           { a.me with fills := fillsOf fitDesc y, npc := a.me.pc + 44#64 }),
       same (exec (.axrBegin 7 20) l)
         (sealedAs { l with fit := [(fitKey, { f with inv := 4 })] }
           { l.me with region := some 7, pending := some { id := 7, gen := 5, inputs := inputs, yhat := some y } }),
       (surrogate fitDesc (List.replicate fit0.working.length 0x7FC0#16) inputs).any fun w => (value32 w.toNat).isNan,
       (stOf (exec (.axrBegin 7 20) n)).me.region == some 7,
       same (exec (.axrBegin 7 20) inside) (sealedAs inside inside.me)]) = true := by decide +kernel
theorem test_hyps_Fitting_end :
    (let p : Pending := { id := 7, gen := 5, inputs := [1#32, 2#32], yhat := some [3#32] }
     let s := fitted fit0 fun c => { c with region := some 7, pending := some p }
     let stale := fitted { fit0 with gen := 6 } fun c => { c with region := some 7, pending := some p }
     let pin := fitted fit0 fun c => { c with region := some 7 }
     let v : Sent :=
       { core := 0x123, ctx := 3, id := 7, launch := 9, gen := 5, inputs := p.inputs,
         outputs := s.me.fitValues (fitOutputs fitDesc) 1, yhat := some [3#32] }
     all [same (exec (.axrEnd 8) s) (sealedAs s s.me),
       same (exec (.axrEnd 7) pin) (sealedAs pin { pin.me with region := none, pending := none }),
       same (exec (.axrEnd 7) s)
         (sealedAs ({ s with sent := [v] }.due .sampleArrival (clusterOf 0x123)) { s.me with region := none, pending := none }),
       same (exec (.axrEnd 7) stale) (sealedAs stale { stale.me with region := none, pending := none }),
       same (exec (.axrInval 7) s) (sealedAs ({ s with fit := [] }.startBatch (clusterOf 0x123)) s.me),
       same (exec (.axrStat 12 7) s) (sealedAs s (s.me.setX 12 1#64))]) = true := by decide +kernel
/-- A fill packet; a sample at a slot that observes, that is full, that is pinned, that another generation holds, and that compares. -/
theorem test_hyps_Fitting_samples :
    (let v : Sent :=
       { core := 0x123, ctx := 3, id := 7, launch := 9, gen := 5, inputs := [1#32, 2#32], outputs := [3#32], yhat := some [0x7F800000#32] }
     let mk := fun (x : FitSlot) (v : Sent) => about { fitted x id with sent := [v] } (clusterOf 0x123) 0 0#64 0#64 false
     let goes := fun (x y : FitSlot) (v : Sent) =>
       same (exec .sampleArrival (mk x v)) (.next ({ mk x v with sent := [], fit := [(fitKey, y)] }.startBatch (clusterOf 0x123)))
     let sample : Sample := { gen := 5, inputs := [1#32, 2#32], outputs := [3#32] }
     let f := { fit0 with state := .fitted }
     let k := ctxKey 0x123 3
     let filled := about ((unit 3).setMe { (unit 3).me with fills := [(8, 6#64), (9, 7#64)] }) 0x123 3 0#64 0#64 false
     let bare := about (unit 3) 0x123 3 0#64 0#64 false
     all [same (exec .fillPacket bare) (.next bare),
       same (exec .fillPacket filled) (.next (filled.setCtxAt k ({ filled.ctxAt k with fills := [(9, 7#64)] }.setX 8 6#64))),
       goes fit0 { fit0 with samples := [sample] } v, goes { fit0 with state := .pinned } { fit0 with state := .pinned } v,
       (let other := { FitSlot.fresh 9 8 6 fitDesc with samples := List.replicate 60 sample }
        let s := fun (n : Nat) =>
          let t := mk { fit0 with samples := List.replicate n sample } v
          { t with fit := t.fit ++ [(fitKey + 1, other)] }
        let after := fun (n : Nat) (y : FitSlot) =>
          same (exec .sampleArrival (s n)) (.next ({ s n with sent := [], fit := [(fitKey, y), (fitKey + 1, other)] }.startBatch (clusterOf 0x123)))
        all [(s 3).samplesHeld (clusterOf 0x123) == 63, after 3 { fit0 with samples := List.replicate 4 sample },
          (s 4).samplesHeld (clusterOf 0x123) == 64, after 4 { fit0 with samples := List.replicate 4 sample, drops := 1 }]),
       goes { fit0 with samples := List.replicate 64 sample } { fit0 with samples := List.replicate 64 sample, drops := 1 } v,
       same (exec .sampleArrival (mk fit0 { v with gen := 6 })) (.next { mk fit0 v with sent := [] }),
       !outputsPass fitDesc [0x7F800000#32] [3#32], outputsPass fitDesc [0x40400000#32] [0x40400000#32],
       goes f { f with state := .observe, fallbacks := 1, compared := 1 } v,
       goes { f with fallbacks := 3 } { f with state := .pinned, fallbacks := 4, compared := 1 } v,
       goes f { f with compared := 1 } { v with outputs := [0x40400000#32], yhat := some [0x40400000#32] }]) = true := by decide +kernel
/-- The check of a batch and the training on it, of one sample. -/
theorem test_hyps_Fitting_batch :
    (let sample : Sample := { gen := 5, inputs := [0x40400000#32, 0x3FC00000#32], outputs := [0x40C00000#32] }
     let at_ := fun (x : FitSlot) => about (fitted x id) fitKey 5 0#64 0#64 false
     let x := { fit0 with batch := some [sample], passes := 3 }
     let pass := outputsPass fitDesc (surrogate fitDesc x.working sample.inputs) sample.outputs
     let y := if pass then { x with state := .fitted, passes := 4, inv := 0 } else { x with passes := 0 }
     let none := { at_ x with fit := [] }
     all [decide ((at_ x).fit.find fitKey = some x), same (exec .batchValidationEnd none) (.next none),
       same (exec .trainingStepEnd none) (.next none),
       same (exec .batchValidationEnd (at_ x))
         (.next ({ at_ x with fit := [(fitKey, { y with validated := true })] }.due .trainingStepEnd fitKey 5)),
       (let t := stOf (exec .trainingStepEnd (at_ { x with validated := true }))
        (t.fit.find fitKey).any fun z => (z.batches == 1) && z.batch.isNone && !z.validated)]) = true := by decide +kernel

/-! ## Homes, the management plane and links -/

/-- A machine whose first word stands in memory, and nothing else. -/
def bare : State := State.reset.withFetchWord 32 0
/-- A step about a place of it, the subject's other fields given. -/
def step0 (s : State) (place index : Nat) (value : Nat) : State := about s place index (BitVec.ofNat 64 value) 0#64 false

theorem test_hyps_HomeSteps_translation :
    (let ga := 0xFF00000000010200#64
     let s := about bare 0 0 0#64 ga false
     let far := about bare 0 0 0#64 0x0300000000000000#64 false
     let other := about bare 1 0 0#64 ga false
     let put := about bare 0 0 0xFF#64 ga true
     match route s ga with
     | some l =>
       all [l.place == 0, (route far 0x0300000000000000#64).isNone, same (exec .niTranslation far) (.next far),
         same (exec .niTranslation other) (.next other), same (exec .niTranslation s) (.next (niAccess s l false .read).2),
         (match after (strongPut (niAgent 0 true) (ga + 56#64) (bytesOfNat 8 0xFF) 0) put with
          | some s1 => same (exec .niTranslation put) (.next s1)
          | none => false)]
     | none => false) = true := by decide +kernel
theorem test_hyps_HomeSteps_faults :
    (let ga := 0xFF00000000010200#64
     let die := fun (d : DieSt) => step0 { bare with ctxs := [], dies := [(0, d)] } 0 0 0
     let d0 := bare.die 0
     let hold : Hold := { gva := 0#64, who := .ctx 3 2, horizon := false, absent := false, lease := none }
     let held := fun (h : Hold) => die { d0 with holds := [h] }
     let woken := fun (h : Hold) (t : Turn) => same (exec .migRewalk (held h)) (.next { die { d0 with holds := [] } with turns := t :: (held h).turns })
     let far := step0 bare 0 0 0x0300000000000000
     let parked := step0 (bare.setDie 0 { d0 with parks := [{ gva := ga, record := 5#64, rpts := 7 }] }) 0 0 0xFF00000000010200
     let nowhere := 0xFF00000000F00000#64
     all [same (exec .migRewalk (die d0)) (.next (die d0)), (held hold).nets.isEmpty, d0.command.isNone,
       woken hold (.retry (.ctx 3 2) []),
       woken { hold with who := .op 4 } (.retry (.op 4) []),
       same (exec .migRewalk (held { hold with horizon := true })) (.next (held { hold with horizon := true })),
       same (exec .migRewalk (held { hold with absent := true })) (.next (held { hold with absent := true })),
       same (exec .fltresWrite far) (.next far),
       (match route bare nowhere with
        | some l => (leafOf bare l).isNone && same (exec .fltresWrite (about bare 0 0 nowhere 0#64 false)) (.next (about bare 0 0 nowhere 0#64 false))
        | none => false),
       (match route parked ga with
        | some l => match leafOf parked l with
          | some e => e.covers l.off &&
            same (exec .fltresWrite parked) (.next (((parked.setDie 0 { parked.die 0 with parks := [] }).requeue 5#64 7).unwithhold 0)) &&
            (let gone := { hold with gva := ga, absent := true }
             let s := step0 (bare.setDie 0 { d0 with holds := [gone] }) 0 0 0xFF00000000010200
             (leafOf s l == some e) && same (exec .fltresWrite s)
               (.next (State.unwithhold { s.setDie 0 { s.die 0 with holds := [] } with turns := [.retry gone.who []] } 0)))
          | none => false
        | none => false)]) = true := by decide +kernel
theorem test_hyps_HomeSteps_banks :
    (let s := step0 bare 1 0 (2 ^ 32 + 3)
     let b := step0 (bare.setDieReg 1 0x1D1 (BitVec.ofNat 64 (2 ^ 31))) 1 0 0
     let r := step0 (bare.setDie 1 { bare.die 1 with reclaiming := [1, 2] }) 1 1 0
     let n := step0 bare 1 1 0
     let dead := b.setDie 1 { b.die 1 with fuse := [(13, BitVec.ofNat 64 (2 ^ 31))] }
     all [((dead.die 1).fuse.get 0#64 13).getLsbD 31, same (exec .lendbanksWrite dead) (.next (dead.setDieReg 1 0x1D1 0#64)),
       s.dieReg 1 0x1D1 == 0#64, same (exec .lendbanksWrite s) (.next (s.setDieReg 1 0x1D1 3#64)),
       b.dieReg 1 0x1D1 == BitVec.ofNat 64 (2 ^ 31),
       same (exec .lendbanksWrite b)
         (.next (((b.setDieReg 1 0x1D1 0#64).setDie 1 { (b.setDieReg 1 0x1D1 0#64).die 1 with lent := [], reclaiming := [31] }).due
           .lentBankReclaimDone 1 31)),
       (r.die 1).reclaiming.contains 1, same (exec .lentBankReclaimDone n) (.next n)]) = true := by decide +kernel
/-- A page marked as moving, its registers set. -/
def moving (ctl dst : Nat) : State :=
  let s := bare.setBytes (dramBase 0 + 0x4080) (bytesOfNat 8 0x1002F)
  (((s.setDieReg 0 0x1D8 0xFF00000000010000#64).setDieReg 0 0x1D9 0x10000#64).setDieReg 0 0x1DB (BitVec.ofNat 64 ctl)).setDieReg 0 0x1DA
    (BitVec.ofNat 64 dst)
theorem test_hyps_HomeSteps_migration :
    (let s := step0 (moving 12 0) 0 0 0
     let busy := step0 (moving 0x4C 0x80000) 0 0 0
     let none := step0 (bare.setDieReg 0 0x1DB 5#64) 0 0 0
     all [same (exec .migctlGo busy) (.next busy), (none.migPage 0).isNone,
       same (exec .migctlGo none) (.next (none.setDieReg 0 0x1DB 0x85#64)), (s.migPage 0).isSome,
       same (exec .migctlGo s)
         (.next (((s.setDieReg 0 0x1DB 0x4C#64).due .migRewalk 0).due .migrationComplete 0)), same (exec .migrationComplete s) (.next s),
       (busy.migPage 0).isSome, (busy.dieReg 0 0x1DB).getLsbD 6, busy.nets.isEmpty, busy.brine.isEmpty, Memory.wf busy.mem,
       (match busy.migPage 0 with
        | some (key, src, size) =>
          let d := { busy with nets := [(2, { net 0x10000 1 0 1 with state := .dropping, dropOf := 2 })] }
          rangesMeet 0x10000 0x2000 key size && same (exec .migrationComplete d) (.next d) &&
            (match after (contendPage 0 key src size) busy with
             | some t => stSame t busy
             | Option.none => false)
        | Option.none => false)]) = true := by
  decide +kernel
theorem test_hyps_HomeSteps_slots :
    (let at_ := fun (n : Nat) (shadows : List Shadow) => step0 { bare.setDieReg 2 0x1A1 5#64 with shadows := shadows } 2 0 n
     let held := [{ shadow with die := 2, slot := 1 }]
     let lower := fun (s : State) (n : Nat) => (s.shadows.filter fun w => w.die == 2).foldl State.writeIndex (s.setDieReg 2 0x1A1 (BitVec.ofNat 64 n))
     let falls := fun (s : State) (n : Nat) => same (exec .netpslotsWrite s) (.next (lower s n))
     let rises := fun (s : State) (n : Nat) =>
       let t := lower s n
       same (exec .netpslotsWrite s) (.next (({ t with nets := t.nets.map fun e => (e.1, e.2.unbreak 2) } : State).due .migRewalk 2))
     all [(at_ 3 []).slotsUsed 2 == 0, falls (at_ 3 []) 3, falls (at_ 3 held) 3, rises (at_ 7 []) 7, rises (at_ 7 held) 7,
       same (exec .netpbaseWrite (at_ 3 [])) (.next ((at_ 3 []).setDieReg 2 0x1A0 0#64)), (at_ 3 held).slotsUsed 2 != 0,
       same (exec .netpbaseWrite (at_ 3 held)) (.next (at_ 3 held))]) = true := by
  decide +kernel

/-- The plane claimed, handed over, lost and denied; registers written; a submission. -/
theorem test_hyps_ManagementSteps :
    (let s := step0 bare 0 2 2
     let own := { step0 bare 0 3 6 with owner := 3 }
     let w := fun (n : Nat) => about bare 17 n (BitVec.allOnes 64) 2#64 false
     let q := about bare 17 0x1C0 0xFFFFFFFFFFFFFFC0#64 2#64 true
     let more := about bare 0 3 3#64 0#64 true
     let both := { step0 bare 0 1 1 with claims := [3, 2] }
     let owned := { step0 bare 0 1 1 with claims := [3], owner := 2 }
     all [same (exec .mgmtownClaim more) (.next { more with claims := [3] }), same (exec .mgmtownClaim both) (.next { both with claims := [], owner := 2 }),
       same (exec .mgmtownClaim owned) (.next { owned with claims := [] }), same (exec .mgmtownClaim s) (.next { s with owner := 2 }), same (exec .mgmtownClaim (step0 bare 0 2 3)) (.next (step0 bare 0 2 3)),
       same (exec .mgmtownOwner own) (.next { own with owner := 2 }), same (exec .mgmtownOwner s) (.next s),
       same (exec .hostLinkDown own) (.next { own with owner := 0 }), same (exec .dierel s) (.next { s with released := true }),
       isDieReg 0x280 && inPlane 0x280 && ((w 0x280).owner != 2), same (exec .registerWrite (w 0x280)) (.next ((w 0x280).osEvent 1 0x40000#64)),
       [0x180, 0x187, 0x1D0, 0x1D9, 0x1DA].all fun n =>
         same (exec .registerWrite (w n)) (.next ((w n).setDieReg 17 n (masked 0x0000FFFFFFFFF000#64 ((w n).dieReg 17 n) (BitVec.allOnes 64)))),
       q.subject.value.toNat % 64 == 0,
       same (exec .registerWrite q)
         (.next (q.dueAt .launchqSubmit { place := 17, index := 0, addr := 0#64, value := q.subject.value, flag := true }))]) = true := by
  decide +kernel
theorem test_hyps_ManagementSteps_cold_reset :
    (let t := stOf (exec .coldReset (step0 { bare with mem := [], dies := [] } 0 0 0))
     all [(List.range 4).all fun i => (t.bridge i).halted && (t.bridgeReg i 0x201 == 2#64), !t.released, t.owner == 0]) = true := by
  decide +kernel

/-- A port in training, with flits to send again. -/
def linked : State :=
  bare.setLink 5 1 { bare.link 5 1 with
    en := true, state := .train, rxSeq := 7, replay := [3, 4, 5, 6], resend := [4, 5, 6], failed := 7 }
theorem test_hyps_LinkAndHeatSteps_ports :
    (let s := step0 bare 5 3 1
     let off := step0 bare 5 3 2
     let x := s.link 5 1
     let l := linked.link 5 1
     let c := fun (n : Nat) => about linked 5 3 (BitVec.ofNat 64 n) 0x1FF#64 false
     let flit := fun (n : Nat) (good : Bool) => about linked 5 3 (BitVec.ofNat 64 n) 1#64 good
     let nak := fun (n : Nat) => step0 linked 5 3 n
     let lost := (step0 linked 5 3 0).setLink 5 1 { l with lane1 := true }
     all [x.state == .down, !x.en, same (exec .linkEnWrite s) (.next ((s.setLink 5 1 { x with en := true }).linkTo 5 1 .train 0)),
       same (exec .linkEnWrite off) (.next (off.setLink 5 1 { x with en := false })),
       same (exec .linkStateChange (c 0)) (.next ((c 0).linkTo 5 1 .down 0x1FF)), same (exec .linkStateChange (c 1)) (.next ((c 1).linkTo 5 1 .train 0x1FF)),
       same (exec .linkStateChange (c 2)) (.next ((c 2).linkTo 5 1 .up2 0x1FF)), same (exec .linkStateChange (c 3)) (.next ((c 3).linkTo 5 1 .up1 0x1FF)),
       same (exec .linkStateChange s) (.next s),
       same (exec .flitReceive (flit 7 true)) (.next ((flit 7 true).setLink 5 1 { l with rxSeq := 8, discarding := false })),
       same (exec .flitReceive (flit 8 true)) (.next (flit 8 true)),
       same (exec .flitReceive (flit 8 false)) (.next ((flit 8 false).setDieReg 5 0x28B 1#64)),
       (stOf (exec .flitReceive (flit 7 false))).link 5 1 == { l.send with discarding := true, nak := some 7 },
       same (exec .flitNak (nak 5)) (.next ((nak 5).setLink 5 1 { l with replay := [5, 6], resend := [5, 6], failed := 0 })),
       same (exec .flitNak (nak 4)) (.next (((nak 4).setLink 5 1 { l with replay := [4, 5, 6], resend := [4, 5, 6], failed := 0 }).due .laneRetrain 5 1)),
       (let n := (nak 4).setLink 5 1 { l with failed := 1 }
        same (exec .flitNak n) (.next (n.setLink 5 1 { l with replay := [4, 5, 6], resend := [4, 5, 6], failed := 2 }))),
       !(nak 4).lane1Lost 5 1, same (exec .laneRetrain (nak 4)) (.next ((((nak 4).setLink 5 1 { l with lane1 := true }).linkTo 5 1 .train 0).linkEvent 5)),
       lost.lane1Lost 5 1, same (exec .laneRetrain lost) (.next (lost.linkTo 5 1 .down 0))]) = true := by decide +kernel
theorem test_hyps_LinkAndHeatSteps_heat :
    (let cxl := fun (f : Bool) => about bare 6 7 0#64 0#64 f
     let down := ((cxl false).setBridgeReg 2 0x20B (bitTo ((cxl false).bridgeReg 2 0x20B) 1 false)).osEvent 2 0x20000#64
     let m := step0 bare 6 0 0xA77F6F509
     let v := (stOf (exec .vmargWrite m)).dieReg 6 0x280
     let rate := fun (n : Nat) => ((stOf (exec .dramRefreshModeChange (step0 bare 6 23 n))).die 6).refreshDue.find 7
     let due := step0 (bare.setDie 6 { bare.die 6 with refreshDue := [(7, true)] }) 6 23 0
     let none := step0 bare 6 23 0
     let hot := step0 bare 99 0 200
     let cool := step0 bare 99 0 0
     let core := fun (n : Nat) => step0 (bare.setCore 0x123 { bare.core 0x123 with throttled := decide (n = 101) }) 0x123 0 n
     let throttles := fun (n : Nat) => ((stOf (exec .throttleChange (core n))).core 0x123).throttled
     all [same (exec .cxlLinkChange (cxl true))
         (.next (((cxl true).setBridgeReg 2 0x20B (bitTo ((cxl true).bridgeReg 2 0x20B) 1 true)).osEvent 2 0x20000#64)),
       ((cxl false).bridge 2).queues.isEmpty, same (exec .cxlLinkChange (cxl false)) (.next (down.setBridge 2 (down.bridge 2))),
       v.getLsbD 32, (List.range 4).all fun i => signedOfNat 8 (regField v (8 * i) 8) ==
         max (-10) (min 10 (signedOfNat 8 (regField m.subject.value (8 * i) 8))),
       rate (85 * 16 + 1) == some true, rate (83 * 16 - 1) == some false,
       same (exec .dramRefresh none) (.next none),
       same (exec .dramRefresh due) (.next (let t := due.setDieReg 6 0x298 (bitTo (due.dieReg 6 0x298) 55 true)
                                            t.setDie 6 { t.die 6 with refreshDue := [] })),
       same (exec .clusterHotChange hot) (.next (hot.setDieReg 6 0x298 (bitTo (hot.dieReg 6 0x298) 35 true))),
       same (exec .clusterHotChange cool) (.next ((cool.setDieReg 6 0x298 (bitTo (cool.dieReg 6 0x298) 35 false)).due .autoPop 6 3)),
       regField ((core 0).dieReg 1 0x298) 8 8 == 105, throttles 106, !throttles 100, throttles 101, !throttles 105]) = true := by decide +kernel

/-! ## The pipe -/

def source (r v : Nat) : Source := { reg := r, await := none, value := v, claim := false }
def ga0 : Nat := 0xFF00000000010200
def addP : Packet := packet (.add 12 9 10) 5 [source 9 7, source 10 8] (some 12)
def waitP : Packet := packet (.add 12 9 10) 6 [{ source 9 0 with await := some 5 }, source 10 8] (some 12)
def mulP : Packet := packet (.mul 12 9 10 false) 5 [source 9 7, source 10 8] (some 12)
def divP (d : Nat) : Packet := packet (.div 12 9 10 false) 5 [source 9 7, source 10 d] (some 12)
def loadP : Packet := packet (.ld 12 9 .d false .global 0) 5 [source 9 ga0] (some 12)
def nearP : Packet := packet (.ld 12 9 .d false .sp 0) 5 [source 9 0x100] (some 12)
def storeP : Packet := packet (.st 10 9 .d .global 0) 5 [source 10 8, source 9 ga0] none
def prefP : Packet := packet (.pref 9 .global 0) 5 [source 9 ga0] none
def branchP : Packet := packet (.beq 9 10 8) 5 [source 9 8, source 10 8] none
def csrP : Packet := packet (.csrrw 12 9 5) 5 [source 9 8] (some 12)
def resultP : ResultPkt := { ctx := 3, seq := 5, reg := 9, value := 77 }
/-- A core with a pipe, a step about it. -/
def piped (f : Pipe → Pipe) (index : Nat) (addr : Dword) (flag : Bool) : State :=
  let s := { bare with cur := (0, 0), feature := 0xFF#64 }
  let c := { s.ctxAt 0 with status := .running, pc := 0xFF00000000010000#64, trapvec := 0x4000#64 }
  let s := s.setCtxAt (ctxKey 0x123 3) ((c.setX 9 (BitVec.ofNat 64 ga0)).setX 10 5#64)
  let p := f { Pipe.empty with ctxs := [(3, { PipeCtx.reset with nextSeq := 8, sealed := 5, known := 4, line := 5 })] }
  about (s.setPipe 0x123 p) 0x123 index 0#64 addr flag
/-- One packet in the lane, before an up half and before a down half. -/
def up (n : Nat) (q : Packet) : State := piped (fun p => { p with up := [(n, q)] }) 3 0#64 false
def upNow (n : Nat) (q : Packet) : State := piped (fun p => { p with up := [(n, q)], upMade := true }) 3 0#64 false
/-- One packet in a siding. -/
def entryOf (stage : Nat) (q : Packet) (started done : Bool) : SidingEntry :=
  { stage := stage, packet := q, started := started, near := false, done := done }
def inSiding (e : SidingEntry) (index : Nat) : State := piped (fun p => { p with siding := [e] }) index 0#64 false
/-- The pipe of these states. -/
def pp (s : State) : Pipe := s.pipe 0x123

theorem test_hyps_PipeLanes_moves :
    (let g := piped (fun p => { p with up := [(3, waitP)], down := [(3, resultP)] }) 3 0#64 false
     let over_ := { addP with executed := true, injected := true }
     let j := piped (fun p => { p with siding := [entryOf 3 over_ true true], upMade := true }) 3 0#64 false
     let blocked := upNow 4 addP
     let top := up 7 { addP with complete := true }
     let full := piped (fun p => { p with up := [(7, { addP with complete := true })], perch := List.replicate 8 mulP }) 3 0#64 false
     let t := stOf (exec .garner g)
     let still := up 3 addP
     all [(pp t).up.find 3 == some { waitP with srcs := [source 9 77, source 10 8] }, (pp g).up.find 4 == none,
       same (exec .rejoin still) (.next still), same (exec .downHalf still) (.next still),
       same (exec .upHalf blocked) (.next blocked), same (exec .perchEntry blocked) (.next blocked), over_.resultPkt.isNone, ((pp j).up.find 4).isNone,
       same (exec .rejoin j) (.next (j.setPipe 0x123 { pp j with siding := [], up := [(4, over_)] })),
       same (exec .rejoin blocked) (.next (blocked.setPipe 0x123 (pp blocked))),
       same (exec .perchEntry top) (.next (top.setPipe 0x123 { pp top with up := [], perch := [{ addP with complete := true }] })),
       same (exec .perchEntry full) (.next (full.setPipe 0x123 (pp full))),
       same (exec .perchEntry (up 7 addP)) (.next ((up 7 addP).setPipe 0x123 (pp (up 7 addP))))]) = true := by decide +kernel
/-- An entry that is done, that has not started, that has executed, that executes and that may not yet. -/
theorem test_hyps_PipeLanes_siding :
    (let put := fun (s : State) (e : SidingEntry) => s.setPipe 0x123 { pp s with siding := [e] }
     let still := fun (i : Instr) (s : State) => same (exec i s) (.next s)
     let served := fun (s : State) (q : Packet) => (s.execute 0x123 q).entryDone 0x123 3 5
     let m := inSiding (entryOf 3 mulP true false) 0
     let w := inSiding (entryOf 5 storeP true false) 0
     let done := { loadP with executed := true, slots := 1 }
     let out := { storeP with executed := true, slots := 1 }
     let late := { nearP with seq := 7 }
     let first := { storeP with seq := 5 }
     let blocked := (inSiding (entryOf 5 late true false) 0).setPipe 0x123
       { pp (inSiding (entryOf 5 late true false) 0) with up := [(4, first)] }
     let r := inSiding (entryOf 5 loadP true false) 3
     let b := fun (s : State) => { s with subject := { s.subject with index := 3 } }
     let far := { loadP with seq := 7 }
     let behind := b ((inSiding (entryOf 5 far true false) 0).setPipe 0x123 { pp (inSiding (entryOf 5 far true false) 0) with up := [(4, first)] })
     all [still .sidingCompletion (inSiding (entryOf 3 mulP true true) 0), still .sidingCompletion (inSiding (entryOf 5 nearP false false) 0),
       still .sidingCompletion (inSiding (entryOf 5 { nearP with away := true } true false) 0),
       still .sidingCompletion (inSiding (entryOf 5 loadP true false) 0), isGlobalLoad loadP.instr, !isGlobalLoad mulP.instr,
       same (exec .sidingCompletion (inSiding (entryOf 5 done true false) 0))
         (.next (put (inSiding (entryOf 5 done true false) 0) (entryOf 5 { done with slots := 0 } true true))),
       slotsKept done == 0, slotsKept out == 1,
       same (exec .sidingCompletion (inSiding (entryOf 5 out true false) 0))
         (.next (put (inSiding (entryOf 5 out true false) 0) (entryOf 5 out true true))),
       m.mayExecute 0x123 mulP, same (exec .sidingCompletion m) (.next (served m mulP)), ((pp (served m mulP)).siding.map (·.done)) == [true],
       w.mayExecute 0x123 storeP, same (exec .sidingCompletion w) (.next (served w storeP)),
       !blocked.mayExecute 0x123 late, still .sidingCompletion blocked, still .loadDataReturn (inSiding (entryOf 5 loadP false false) 3),
       still .loadDataReturn (inSiding (entryOf 5 loadP true false) 2), still .loadDataReturn (inSiding (entryOf 5 nearP true false) 3),
       r.mayExecute 0x123 loadP, same (exec .loadDataReturn r) (.next (served r loadP)), ((pp (served r loadP)).siding.map (·.done)) == [true],
       !behind.mayExecute 0x123 far, still .loadDataReturn behind,
       (let lost := piped (fun p => { p with lost := 2 }) 3 0#64 true
        same (exec .loadDataReturn lost) (.next (lost.setPipe 0x123 { pp lost with lost := 1 })))]) = true := by decide +kernel
/-- An entry of S5 with its slots free, with none free, a PREF with none free, and one whose turn it is not. -/
theorem test_hyps_PipeLanes_start :
    (let put := fun (s : State) (e : SidingEntry) => s.setPipe 0x123 { pp s with siding := [e] }
     let lost := fun (q : Packet) => piped (fun p => { p with siding := [entryOf 5 q false false], lost := 32 }) 3 0#64 false
     let free := fun (q : Packet) => inSiding (entryOf 5 q false false) 3
     let late := { nearP with seq := 7 }
     let blocked := (free late).setPipe 0x123 { pp (free late) with up := [(4, storeP)] }
     let pref := up 4 prefP
     let full := piped (fun p => { p with up := [(5, prefP)], lost := 32 }) 3 0#64 false
     let here := piped (fun p => { p with up := [(5, prefP)] }) 3 0#64 false
     let q1 := { prefP with window := some (here.protection (dieOf 0x123)) }
     let zero := packet (.mzero 1) 5 [] none
     let six := inSiding (entryOf 6 zero false false) 3
     let late6 := { zero with seq := 7 }
     let blocked6 := (inSiding (entryOf 6 late6 false false) 3).setPipe 0x123
       { pp (inSiding (entryOf 6 late6 false false) 3) with up := [(4, storeP)] }
     let starts := fun (q : Packet) (slots : Nat) (near : Bool) =>
       ((free q).demand 0x123 q == (slots, near)) && (free q).mayExecute 0x123 q &&
         stSame ((free q).startOne 0x123 3 5) (put (free q) { entryOf 5 { q with slots := slots } true false with near := near })
     all [starts loadP 1 false, starts nearP 0 true, starts storeP 1 false,
       !blocked.mayExecute 0x123 late, stSame (blocked.startOne 0x123 3 7) blocked,
       (lost loadP).demand 0x123 loadP == (1, false), decide (32 < (lost loadP).slotsTaken 0x123 + 1), isPref prefP.instr,
       stSame ((lost loadP).startOne 0x123 3 5) (lost loadP), (pp pref).siding.isEmpty,
       here.demand 0x123 q1 == (1, false), full.demand 0x123 q1 == (1, false),
       stSame (here.atHome 0x123 5)
         (here.setPipe 0x123 { pp here with up := [], siding := [entryOf 5 { q1 with slots := 1 } true false] }),
       stSame (full.atHome 0x123 5) (full.setPipe 0x123 ((pp full).update { q1 with executed := true, complete := true, target := q1.npc })),
       six.mayExecute 0x123 zero, stSame (six.startMatrix 0x123) ((put six (entryOf 6 zero true false)).execute 0x123 zero),
       !blocked6.mayExecute 0x123 late6, stSame (blocked6.startMatrix 0x123) blocked6]) = true := by
  decide +kernel
/-- A packet that executes: an addition, a load, a store whose checks pass, a matrix packet, one that traps, one that waits in the pipe
and one held away from the core. -/
theorem test_hyps_PipeLanes_execute :
    (let k := ctxKey 0x123 3
     let put := fun (t : State) (q : Packet) => t.setPipe 0x123 ((pp t).update q)
     let run := fun (s : State) (q : Packet) (f : State → State → Ctx → Ran → Bool) =>
       let v := s.packetView 0x123 q
       let b := s.ahead 0x123 q
       match b.ran 0x123 q v (stageOf q.instr) (s.olderBytes 0x123 q) with
       | some r =>
         let t := if readsOwn q.instr then r.state.withOwn s 0x123 else r.state
         (!isOrderedLoad q.instr || s.passesLoads 0x123 q r.run.loads) && f b t v r
       | none => false
     let good := fun (q : Packet) => run (up 3 q) q fun _ t v r =>
       let d := r.ctx
       let result := if manner q.instr = .answered then none else q.dest.map d.regNat
       all [r.run.raised == none || r.run.raised == some .checked, !v.anyPort, !isAxrBegin q.instr, !isRep q.instr,
         !holdsUntilExecuted q.instr, !isBinding q.instr,
         stSame ((up 3 q).execute 0x123 q)
           (put (t.setCtxAt k { t.ctxAt k with pts := max (t.ctxAt k).pts d.pts })
             { q with
               executed := true, away := false, result := result, complete := result.isNone, target := d.npc,
               flags := d.fcsr &&& ~~~v.fcsr, spans := if r.run.raised = some .checked then r.run.spans else [], claim := r.run.claim,
               read := r.run.read, begun := none, port := none, element := [],
               commit := if manner q.instr = .commit ∨ r.run.writes ≠ [] then
                   some { acc := d.acc, merrlog := d.merrlog, merrcnt := d.merrcnt, writes := r.run.writes }
                 else none })]
     let waits := packet (.cbwait 1 0 3) 5 [source 0 0] none
     let ring := (up 3 waits).setCtxAt k (((up 3 waits).ctxAt k).setHandle 1 (hdl 0x100 0x10000 64 4 2))
     let gone := (up 3 loadP).setBytes (dramBase 0 + 0x4080) (bytesOfNat 8 0x1002F)
     all [good addP, good loadP, good storeP, good (packet (.mzero 1) 5 [] none),
       run (up 3 (divP 0)) (divP 0) fun _ t _ r => match r.run.raised with
         | some (.trap cause x) => stSame ((up 3 (divP 0)).execute 0x123 (divP 0))
             (put t { divP 0 with executed := true, away := false, complete := true, fault := some (.trap cause x) })
         | _ => false,
       run ring waits fun _ _ _ r => r.run.raised == some .retry && stSame (ring.execute 0x123 waits) ring,
       run gone loadP fun _ t _ r => match r.run.raised with
         | some (.hold w) => stSame (gone.execute 0x123 loadP) ((put t { loadP with away := true }).addWait w (.load 0x123 3 5))
         | _ => false]) = true := by decide +kernel
/-- One packet at every place of the lane, before, at and past its home stage. -/
theorem test_hyps_PipeLanes_up :
    all ([addP, { waitP with seq := 5 }, mulP, packet (.vfadd .s 3 4 5 0) 5 [source 68 1, source 69 1] (some 67), branchP, csrP,
        { csrP with seq := 6 }, { addP with executed := true }, { addP with fault := some (.trap 1 0#64), executed := true }].flatMap fun q =>
      let home := homeStage q.instr
      (List.range 8).map fun n =>
        let s := up n q
        let p := pp s
        let q1 := { q with ready := q.complete }
        let t := s.setPipe 0x123 (cycleOf p [(n + 1, q1)])
        let fed := q.srcs.all (·.await.isNone)
        let here := !p.upMade && p.siding.isEmpty && p.perch.isEmpty && p.down.isEmpty
        here &&
          if n < 7 && (n != home || q.fault.isSome || q.executed && q.resultPkt.isNone) && (n + 1 != home || q.executed) then
            same (exec .upHalf s) (.next t)
          else if n + 1 == home && !q.executed && q.fault.isNone && fed then
            if isInline q.instr then
              if t.mayExecute 0x123 q1 then
                let u := t.execute 0x123 q1
                ((pp u).up.map Prod.fst == [n + 1]) && (pp u).siding.isEmpty && (pp u).down.isEmpty &&
                  same (exec .upHalf s) (.next (u.setPipe 0x123 (pp u)))
              else same (exec .upHalf s) (.next t)
            else decide (home < 5) && same (exec .upHalf s) (.next (s.setPipe 0x123 { cycleOf p [] with siding := [entryOf (n + 1) q1 true false] }))
          else if n == home && !fed && !q.executed then same (exec .upHalf s) (.next (s.setPipe 0x123 (cycleOf p [(n, q1)])))
          else true) = true := by decide +kernel
theorem test_hyps_PipeLanes_down :
    (let a := { addP with executed := true, result := some 5 }
     let home := homeStage a.instr
     let s := upNow home a
     let b := { branchP with executed := true, target := 0x77#64 }
     let m := upNow 6 b
     let pan : PanEntry := { ctx := 3, seq := 5, reg := 9, value := none, ready := false, external := false, pts := none, word := none }
     let r := fun (n : Nat) => piped (fun p => { p with down := [(n, resultP)], pan := [pan], upMade := true }) 3 0#64 false
     all [(s.core 0x123).mailbox.isEmpty, a.fault.isNone, !isBranch a.instr, a.begun.isNone, (match a.resultPkt with
        | some x => same (exec .downHalf s)
            (.next (s.setPipe 0x123 { pp s with up := [(home, { a with injected := true, complete := true })], down := [(home, x)], upMade := false }))
        | none => false), b.resultPkt.isNone, isBranch b.instr, b.target != b.predicted,
       same (exec .downHalf m)
         (.next (m.setPipe 0x123 { (pp m).kill 3 6 (some 0x77#64) with up := [(6, { b with predicted := 0x77#64 })], upMade := false })),
       same (exec .downHalf (r 7)) (.next ((r 7).setPipe 0x123 { pp (r 7) with down := [(6, resultP)], upMade := false })),
       same (exec .downHalf (r 0))
         (.next ((r 0).setPipe 0x123 { pp (r 0) with down := [], upMade := false, pan := [{ pan with value := some 77 }] }))]) = true := by
  decide +kernel
/-- A core whose context 3 is next, fetching a word: an ADD, a branch and a trap; one with a fill packet to come. -/
theorem test_hyps_PipeEnds_foot :
    all ([(0x0028A285, some 5), (0xFF80058D, none)].map fun (w, dest) =>
      let s := (piped (fun p => { p with lastIn := 2, ctxs := [], upMade := true }) 3 0x1234#64 true).setBytes (dramBase 0 + 0x10000) (bytesOfNat 4 w)
      let p := pp s
      let k := ctxKey 0x123 3
      let c := s.ctxAt k
      let x := p.ctxOf 3
      let blank := blankPacket 3 x.nextSeq (x.fetch.getD c.pc) none
      match okv fetch ({ s with cur := (0x123, 3) }.setCtxAt k { c with pc := blank.pc, rep := c.rep.seenBy blank }),
          s.newPacket 0x123 3 (some 0x1234#64) with
      | some (i, f), some (q, t) =>
        let d := f.ctxAt k
        let u := { f with cur := s.cur }.setCtxAt k c
        let q' := { blank with
          npc := d.npc, ir := d.ir, instr := i, fetched := true, target := d.npc,
          srcs := (sourcesOf i).map fun r => u.readSource 0x123 3 (physReg c.wofs r), dest := dest,
          predicted := if isBranch i then 0x1234#64 else d.npc }
        all [!p.inserted, (p.up.find 0).isNone, s.canRun k, x.held.isNone, decide (p.flight 3 < 24), !c.anyPort, c.rep.st == .idle, q == q',
          stSame t u, (s.fillNext 0x123 3).isNone, !x.fetching, t.panRoom 0x123,
          (let u := t.enter 0x123 q
           same (exec .footInsertion s) (.next (u.setPipe 0x123 (pp u).garner)))]
      | _, _ => false) = true ∧
    (let f := upNow 0 addP
     let s := piped (fun p => { p with lastIn := 2, upMade := true, even := false, ctxs := [] }) 3 0#64 false
     let hot := s.setCore 0x123 { s.core 0x123 with throttled := true }
     let idle := s.setCtxAt (ctxKey 0x123 3) Ctx.reset
     let busy := s.setPipe 0x123 { pp s with inserted := true }
     let down := s.setPipe 0x123 { pp s with upMade := false }
     let fill := s.setPipe 0x123 { pp s with ctxs := [(3, { PipeCtx.reset with fills := [(8, 6#64)] })] }
     all [same (exec .footInsertion f) (.next f), same (exec .footInsertion hot) (.next hot), same (exec .footInsertion busy) (.next busy),
       same (exec .footInsertion down) (.next down), (List.range 11).all fun n => !idle.canRun (ctxKey 0x123 n),
       same (exec .footInsertion idle) (.next idle),
       (match fill.fillNext 0x123 3 with
        | some q =>
          let u := fill.enter 0x123 q
          fill.panRoom 0x123 && q.dest == some 8 && same (exec .footInsertion fill) (.next (u.setPipe 0x123 (pp u).garner))
        | none => false)]) = true := by decide +kernel
/-- What a packet finds on its way in, and what enters with it. -/
theorem test_hyps_PipeEnds_sources :
    (let e := fun (seq r : Nat) (v : Option Nat) =>
       ({ ctx := 3, seq := seq, reg := r, value := v, ready := false, external := false, pts := none, word := none } : PanEntry)
     let s := piped (fun p => { p with pan := [e 1 9 (some 3), e 2 10 none, e 3 9 none, e 4 11 (some 4)] }) 3 0#64 false
     let enters := fun (q : Packet) (held : Option Nat) =>
       let x := (pp s).ctxOf 3
       !isFill q.instr && !isRep q.instr && q.clause.isNone && stSame (s.enter 0x123 q)
         (s.setPipe 0x123 { (pp s).setCtx 3 { x with nextSeq := x.nextSeq + 1, held := held, fetch := some q.predicted } with
           up := (pp s).up.put 0 q, pan := (pp s).pan ++ (q.dest.map fun r => e q.seq r none).toList, lastIn := 3, inserted := true })
     all [s.readSource 0x123 3 9 == { source 9 0 with await := some 3 }, s.readSource 0x123 3 11 == source 11 4,
       s.readSource 0x123 3 12 == source 12 0, enters addP none, holdsFoot csrP.instr, enters csrP (some 5),
       enters { storeP with fault := some .retry } (some 5)]) = true := by decide +kernel
/-- The crown with nothing to seal, out of its time, with one packet and with two. -/
theorem test_hyps_PipeEnds_crown :
    (let sealing := fun (q : Packet) => piped (fun p => { p with up := [(6, { q with ready := true })] }) 3 0#64 false
     let over_ := fun (t : State) => Host.Outcome.next (t.setPipe 0x123 { pp t with crowned := true }).watch
     let rest0 := piped id 3 0#64 false
     let up := rest0.setPipe 0x123 { pp rest0 with upMade := true }
     let crowned := rest0.setPipe 0x123 { pp rest0 with crowned := true }
     let ready := fun (s : State) => ((List.range 11).map fun i => ((pp s).lastSealed + 1 + i) % 11).filterMap fun n => s.sealable 0x123 n
     let a := sealing addP
     let two := (a.setCtxAt (ctxKey 0x123 4) (a.ctxAt (ctxKey 0x123 3))).setPipe 0x123
       { pp a with up := (pp a).up ++ [(7, { addP with ctx := 4, seq := 0, ready := true })] }
     all [same (exec .seal up) (.next up), same (exec .seal crowned) (.next crowned), (ready rest0).isEmpty, same (exec .seal rest0) (over_ rest0),
       (match ready a with
        | [q] => same (exec .seal a) (over_ (a.sealPacket 0x123 q))
        | _ => false),
       (match ready two with
        | [q, r] =>
          let t := two.sealPacket 0x123 q
          (t.sealable 0x123 r.ctx).isSome && same (exec .seal two) (over_ (t.sealPacket 0x123 r))
        | _ => false)]) = true := by decide +kernel
/-- The seal of a packet that has no effect to perform, of a store and of a fence, and of a trap; a kill. -/
theorem test_hyps_PipeEnds_seal :
    (let k := ctxKey 0x123 3
     let sealing := fun (q : Packet) => piped (fun p => { p with
       up := [(6, { q with ready := true })],
       pan := [{ ctx := 3, seq := 6, reg := 9, value := none, ready := false, external := false, pts := none, word := none }] }) 3 0#64 false
     let sealed := fun (q : Packet) =>
       let s := sealing q
       let c := s.ctxAt k
       (s.setPipe 0x123 ((pp s).retire q)).setCtxAt k { c with fcsr := c.fcsr ||| q.flags, npc := q.target, pc := q.target }
     let good := fun (q : Packet) => !(((sealing q).ctxAt k).anyPort) && (((sealing q).ctxAt k).region.isNone) && q.fault.isNone &&
       q.commit.isNone && q.begun.isNone && q.clause.isNone && q.port.isNone && q.srcs.all fun r => !r.claim
     let effect := fun (q : Packet) =>
       let s := sealing q
       let x := (sealed q).core 0x123
       good q && manner q.instr != .early && manner q.instr != .commit &&
         stSame (s.sealPacket 0x123 q) (((sealed q).setCore 0x123 { x with
           outbound := x.outbound ++ [{ packet := q, view := s.packetView 0x123 q, sent := false }] }).sendMore 0x123 3)
     let flagged := { addP with executed := true, flags := 0x100#64, target := 0x4444#64 }
     let trap := { addP with fault := some (.trap 9 5#64) }
     let s := sealing trap
     let t := s.killFrom 0x123 3 5 none
     let u := (t.setPipe 0x123 { pp t with lastSealed := 3 }).takeTrap k 9 trap.pc 5#64
     all [good flagged, manner flagged.instr == .early, !isPinning flagged.instr, stSame ((sealing flagged).sealPacket 0x123 flagged) (sealed flagged),
       effect storeP, effect (packet (.fenceRel .die) 5 [] none), effect csrP,
       stSame (s.sealPacket 0x123 trap) (if (u.ctxAt k).status = .running then u else u.clearPipe k),
       (pp t).packets.isEmpty, (pp t).pan.isEmpty, ((pp t).ctxOf 3).nextSeq == 5]) = true := by decide +kernel
/-- The pan's write of an entry that may be written, of one not yet sealed, of one filled in this cycle and of a deposit. -/
theorem test_hyps_PipeEnds_pan :
    (let k := ctxKey 0x123 3
     let e := fun (seq : Nat) (x ready : Bool) =>
       ({ ctx := 3, seq := seq, reg := 9, value := some 7, ready := ready, external := x, pts := some 55, word := none } : PanEntry)
     let s := fun (e : PanEntry) (busy : Bool) =>
       piped (fun p => { p with pan := [e], up := if busy then [(4, { addP with seq := 6 })] else [] }) 3 0#64 false
     let once := fun (t : State) => t.setPipe 0x123 { pp t with panned := true }
     let wrote := fun (s : State) => (s.setCtxAt k { (s.ctxAt k).setRegNat 9 7 with pts := max (s.ctxAt k).pts 55 }).setPipe 0x123
       ({ pp s with pan := [] }.setCtx 3 ((pp s).ctxOf 3))
     let rest0 := piped id 3 0#64 false
     let due := rest0.setCore 0x123 { rest0.core 0x123 with mailbox := [{ ctx := 4, reg := 2, value := 9#64, pts := none, job := 3 }] }
     let again := fun (t : State) => ((t.due .downHalf 0x123).due .upHalf 0x123).due .panWrite 0x123
     let busy := once (s (e 3 false true) true)
     let settling := once (s (e 3 false true) false)
     let goes := fun (s : State) => same (exec .panWrite s) (.next (once (wrote s)))
     let waits := fun (s : State) => same (exec .panWrite s) (.next (once s))
     all [!(pp busy).settles, same (exec .panWrite busy) (.next busy), (pp settling).settles, same (exec .panWrite settling) (.next (again settling)),
       waits rest0, same (exec .panWrite due) (.next ((once due).due .depositArrival 0x123)),
       goes (s (e 3 false true) true), goes (s (e 3 false true) false), waits (s (e 4 false true) true), waits (s (e 3 false false) true),
       same (exec .panWrite (s (e 5 false true) false)) (.next (again (once (s (e 5 false true) false)))),
       same (exec .panWrite (s (e 3 false false) false)) (.next (again (once (s (e 3 false false) false)))),
       same (exec .panWrite (s (e 4 true true) true)) (.next (once ((wrote (s (e 4 true true) true)).eventAt k))),
       same (exec .panWrite (s (e 4 true true) false)) (.next (once ((wrote (s (e 4 true true) false)).eventAt k))),
       waits (s (e 5 true true) true)]) = true := by decide +kernel

/-! ## Caches and home slices -/

/-- A sealed effect of context 3. -/
def effectOf (q : Packet) (sent : Bool) : Outbound :=
  { packet := q, view := (piped id 3 0#64 false).ctxAt (ctxKey 0x123 3), sent := sent }
def spanned (q : Packet) : Packet := { q with spans := [{ space := some .global, ea := 0xFF00000000010200#64, bytes := (bytesOfNat 8 8).map some }] }
def sending (l : List Outbound) : State :=
  let s := piped id 3 0#64 false
  s.setCore 0x123 { s.core 0x123 with outbound := l }
def relP : Packet := packet (.fenceRel .die) 5 [] none
def redP (seq : Nat) : Packet := packet (.red .add .d 9 10 .mod false) seq [] none

/-- Nothing on its way, an effect that is performed and one that waits; what keeps an effect in its core, and what lets it go. -/
theorem test_hyps_MemorySteps_effects :
    (let rest0 := sending []
     let store := effectOf (spanned storeP) true
     let st := packet (.stSt 10 9 .d .global .mod) 6 [] none
     let goes := fun (l : List Outbound) (o : Outbound) => (sending (l ++ [o])).clearToGo 0x123 o
     let plain := fun (seq : Nat) => effectOf { spanned storeP with seq := seq } false
     let other := effectOf { plain 4 |>.packet with spans := [{ space := some .global, ea := 0xFF00000000010300#64, bytes := [some 1#8] }] } false
     let amo := fun (seq : Nat) => effectOf (packet (.amo .add .d 12 9 .mod true true) seq [] (some 12)) false
     let strong := fun (seq : Nat) => effectOf (packet (.amo .add .d 12 9 .mod true false) seq [] (some 12)) false
     let sends := fun (q : Packet) (i : Instr) =>
       let o := effectOf q false
       stSame ((sending [o]).trySend 0x123 o) ((sending [{ o with sent := true }]).due i 0x123 3)
     all [same (exec .weakStoreAccept rest0) (.next rest0), same (exec .release rest0) (.next rest0),
       same (exec .weakStoreAccept (sending [store])) (.next ((sending [store]).performSeq 0x123 3 5 [])),
       same (exec .release (sending [effectOf relP true])) (.next ((sending [effectOf relP true]).performSeq 0x123 3 5 [])),
       isReleasing relP.instr, goes [] (effectOf relP false), !goes [plain 4] (effectOf relP false),
       !isReleasing storeP.instr, goes [other] (plain 5), !goes [plain 4] (plain 5), !isReleasing (strong 5).packet.instr,
       isStrongWrite st.instr, !goes [strong 4] (strong 5), goes [other] (strong 5), !goes [strong 4] (amo 5),
       stSame ((sending [plain 4, plain 5]).trySend 0x123 (plain 5)) (sending [plain 4, plain 5]),
       sends storeP .weakStoreAccept, sends relP .release, sends (packet (.bupd .addD 11 10 .mod false) 5 [] none) .bupdApply]) = true := by
  decide +kernel
/-- Effects that are performed. -/
theorem test_hyps_MemorySteps_performed :
    (let k := ctxKey 0x123 3
     let good := fun (q : Packet) =>
       let o := effectOf q true
       let s := sending [o]
       match s.ranEffect 0x123 o with
       | some r =>
         let u := r.state.setCtxAt k { r.state.ctxAt k with pts := max (r.state.ctxAt k).pts r.ctx.pts }
         let (done, t) := s.performOut 0x123 o []
         all [(r.state.die 1).command.isNone, r.state.barriers.isEmpty, r.run.raised == none || r.run.raised == some .checked, manner q.instr == .sent,
           (r.state.ctxAt k).status == .running, r.ctx.status == .running, done, (s.outboundOf 0x123 3).length == 1,
           stSame t (u.setCore 0x123 { u.core 0x123 with outbound := [] }), stSame (s.performSeq 0x123 3 5 []) (t.sendMore 0x123 3)]
       | none => false
     all [good (spanned storeP), good relP]) = true := by decide +kernel
/-- An effect whose bytes are uncorrectable, one whose page moves, and one whose page is gone. -/
theorem test_hyps_MemorySteps_unperformed :
    (let k := ctxKey 0x123 3
     let who := Asker.packet 0x123 3 5 []
     let amo := effectOf (packet (.amo .add .d 12 9 .die false false) 5 [] (some 12)) true
     let bad := (sending [amo]).mark (dramBase 0 + 0x10200)
     let st := effectOf (spanned storeP) true
     let moving := (sending [st]).setBytes (dramBase 0 + 0x4080) (bytesOfNat 8 0x1002F)
     let gone := (sending [st]).setBytes (dramBase 0 + 0x4080) (bytesOfNat 8 0)
     all [
       (match bad.ranEffect 0x123 amo with
        | some r => match r.run.raised with
          | some (.trapAfter cause v) =>
            let u := ((r.state.fillAnswer 0x123 3 5 0#64 none).outDone 0x123 3 5).drainPan k
            let (done, t) := bad.performOut 0x123 amo []
            done && stSame t (u.takeTrap k cause (u.ctxAt k).pc v)
          | _ => false
        | none => false),
       (match moving.ranEffect 0x123 st with
        | some r => match r.run.raised with
          | some (.hold w) =>
            let (done, t) := moving.performOut 0x123 st []
            !done && stSame t ((r.state.setCtxAt k { r.state.ctxAt k with pts := max (r.state.ctxAt k).pts r.ctx.pts }).addWait w who) &&
              stSame (moving.performSeq 0x123 3 5 []) t
          | _ => false
        | none => false),
       (match gone.ranEffect 0x123 st with
        | some r => match r.run.raised with
          | some (.notPresent gva _ home f w) =>
            let (done, t) := gone.performOut 0x123 st []
            !done && !r.state.faultQueueFull home &&
              stSame t ((r.state.faultRecord home gva 1 f w (coreId 0x123) (faultDie 0x123) 3 0#64).addWait (.absent home gva) who)
          | _ => false
        | none => false)]) = true := by decide +kernel

/-- Requests at slice 2 of home 0, with requests for its DRAM, the log's port on. -/
def sliced (l : List HomeReq) (q : List DramReq) (flag : Bool) : State :=
  let s := (piped id 3 0#64 false).setDieReg 0 0x2B1 0x2A#64
  let d := s.die 0
  about { s.setDie 0 { d with
    reqs := if l.isEmpty then [] else [(2, l)], dram := if q.isEmpty then [] else [(2, q)], pointers := [(2, 3)] } with
    frames := [(sliceCache 0 2, [{ id := 2, way := 0, size := 512, valid := 0xFFFF, leaving := false }])] } 0 2 1#64 0#64 flag
def request (port key off : Nat) : HomeReq :=
  { port := port, who := .packet 0x123 3 (5 + port) [],
    adm := { key := key, off := off, size := 32, ways := [0], last := false, keep := true, counter := none }
    cycle := 0, lost := false, got := [] }
def waiting (off : Nat) (aged : Bool) : DramReq := { req := request 4 off off, aged := aged }

/-- A slice with one request, for a line it has and for one it has not, with two for different grains and with two for one. -/
theorem test_hyps_MemorySteps_requests :
    (let goes := fun (t : State) (w : HomeReq) => (.next { t with turns := Turn.retry w.who (w.got ++ [w.adm]) :: t.turns } : Out)
     let taken := fun (s : State) (left : List HomeReq) (pointers : Tab Nat) =>
       s.setDie 0 { s.die 0 with reqs := (s.die 0).reqs.put 2 left, cycles := (s.die 0).cycles.put 2 ((s.die 0).cycles.get 0 2 + 1), pointers := pointers }
     let here := request 4 0x400 0x400
     let away := request 4 0x2000400 0x2000400
     let s := fun (l : List HomeReq) => sliced l [] false
     let miss := taken (s [away]) [] [(2, 3)]
     all ([same (exec .homeRequest (s [])) (.next (s [])), (s [here]).holdsGrain 0 0x400 32, !(s [away]).holdsGrain 0 0x2000400 32,
        same (exec .homeRequest (s [here])) (goes (taken (s [here]) [] [(2, 3)]) here),
        same (exec .homeRequest (s [away]))
          (.next ((miss.setDie 0 { miss.die 0 with dram := [(2, [{ req := away, aged := false }])] }).dueAt .homeRequest
            { Subject.nothing with place := 0, index := 2, flag := true })),
        same (exec .homeRequest (s [here, away])) (goes ((taken (s [here, away]) [away] [(2, 3)]).due .homeRequest 0 2) here)] ++
      [(4, 2, 4), (2, 3, 3), (1, 0, 0)].map fun (a, b, first) =>
        let q := fun (p : Nat) => request p 0x400 0x400
        let z := s [q a, q b]
        let t := (taken z [{ q (if first = a then b else a) with lost := true }] [(2, (first + 1) % 8)]).due .homeRequest 0 2
        let (core, sstep) := t.winnerOf 0 (q first).who
        same (exec .homeRequest z) (goes (t.logEntry 0 0 first core sstep (siteOfKey 0x400).gva) (q first)))) = true := by decide +kernel
/-- A DRAM channel: none that waits, and the ageing of one that does. -/
theorem test_hyps_MemorySteps_dram :
    (let s := fun (q : List DramReq) => sliced [] q true
     let a := waiting 0x900 true
     let b := waiting 0x900 false
     all [same (exec .homeRequest (s [])) (.next (s [])),
       same (exec .dramRequestAging (s [])) (.next (s [])), same (exec .dramRequestAging (s [a])) (.next (s [a])),
       same (exec .dramRequestAging (s [a, b, b]))
         (.next ((s [a, b, b]).setDie 0 { (s [a, b, b]).die 0 with dram := [(2, [a, a, b])] }))]) = true := by decide +kernel
/-- One and two requests that a channel serves; which it serves rests on banks and rows that are free values, so that the two share an
address. -/
theorem test_hyps_MemorySteps_served : (∀ w : DramReq, ((sliced [] [w] true).die 0).dram.get [] 2 = [w]) ∧
    (let q := [waiting 9 true, waiting 9 false]
     let s := sliced [] q true
     (s.subject.flag = true ∧ s.subject.place = 0 ∧ s.subject.index = 2) ∧ ((s.die 0).dram.get [] 2) = q ∧
       q[s.subject.value.toNat % q.length]? = some (waiting 9 false) ∧
       (s.die 0).nextAt 2 (q.filter fun p => Config.dramBank p.req.adm.off == Config.dramBank (waiting 9 false).req.adm.off) =
         some (waiting 9 true)) := by
  refine ⟨fun w => rfl, ⟨by decide +kernel, by decide +kernel, by decide +kernel⟩, by decide +kernel, by decide +kernel, ?_⟩
  simp only [waiting, request, List.filter, beq_self_eq_true]
  rfl
theorem test_hyps_MemorySteps_rows : (∀ d : DieSt, d.rows = [] → d.nextAt 2 [waiting 9 true, waiting 9 false] = some (waiting 9 true)) ∧
    (∀ d : DieSt, d.rows = [(2, [9])] → d.rowOpen 2 9 = true ∧ d.nextAt 2 [waiting 9 false, waiting 9 false] = some (waiting 9 false)) := by
  constructor
  · intro d h; cases d; subst h; rfl
  · intro d h
    have hr : d.rowOpen 2 9 = true := by simp [DieSt.rowOpen, h, Tab.get]
    refine ⟨hr, ?_⟩
    have ho : d.rowOpen 2 (waiting 9 false).req.adm.off = true := hr
    have hi : [waiting 9 false, waiting 9 false].findIdx? (fun r => r.aged) = none := rfl
    simp only [DieSt.nextAt, hi, List.find?, ho, Option.orElse]
/-- Two REDs that merge, at a slice. -/
theorem test_hyps_MemorySteps_merge :
    (let o := effectOf (redP 5) true
     let p := effectOf (redP 6) true
     let x := { request 4 0x200 0x200 with who := .packet 0x123 3 5 [] }
     let y := { request 2 0x200 0x200 with who := .packet 0x123 3 6 [] }
     let s := sliced [x, y] [] false
     let s := s.setCore 0x123 { s.core 0x123 with outbound := [o, p] }
     let v := BitVec.ofNat 64 (AmoOp.apply .add 64 5 5)
     let one : Outbound := { o with
       view := (o.view.setX 1 (o.operand 0 9)).setX 2 v, packet := { o.packet with instr := .red .add .d 1 2 .mod false, srcs := [] } }
     let t := s.setCore 0x123 { s.core 0x123 with outbound := [one, p] }
     all [AmoOp.merges .add, o.operand 1 10 == 5#64, p.operand 1 10 == 5#64, o.operand 0 9 == p.operand 0 9,
       (match s.mergeReds (0x123, 3, 5) (0x123, 3, 6) with
        | some u => stSame u t
        | none => false),
       stSame (s.merge 0 2 0 1) (t.setDie 0 { t.die 0 with reqs := [(2, [{ x with who := .packet 0x123 3 5 [(0x123, 3, 6)] }])] })]) = true := by
  decide +kernel
theorem test_hyps_MemorySteps_booth :
    (let rest0 := step0 (piped id 3 0#64 false) 2 5 0
     let m : BoothMsg := { gva := 0#64, who := .packet 0x123 3 5 [], got := [] }
     let b := fun (l : List BoothMsg) => rest0.setBridge 2 { rest0.bridge 2 with queues := Tab.put [(5, [m])] 5 l }
     let adm : Admission := { key := 0, off := 0, size := 0, ways := [], last := false, keep := false, counter := none }
     let goes := fun (t : State) => ({ t with turns := [Turn.retry m.who (m.got ++ [adm])] } : State)
     all [same (exec .boothMessage rest0) (.next rest0), same (exec .boothMessage (b [m])) (.next (goes (b []))),
       same (exec .boothMessage (b [m, m])) (.next (goes ((b [m]).due .boothMessage 2 5)))]) = true := by decide +kernel
/-- A write check, for a write and for a read and a write; it finds the grant it left; a probe with no net. -/
theorem test_hyps_MemorySteps_checks :
    (let far := piped id 3 0x0300000000000000#64 false
     let check := fun (f : Bool) =>
       let s := piped id 3 0xFF00000000010220#64 f
       let me := { s with cur := (0x123, 3) }
       let a := me.coreAgent (ctxKey 0x123 3)
       let need : Need := if f then .readWrite else .write
       match globalSite s s.subject.addr s.subject.addr, a.cc with
       | some t, some cl =>
         match okv (homeOf a t need) me with
         | some (_, s1) =>
           match okv (serve a t .settled 0 none ((a.levels t).drop a.l1.toList.length) true) s1, after (writeProbe a t 1) me,
             after (writeGrant a t need) me with
           | some ((base, c), s2), some p1, some g1 =>
             let w := { s2.putCopy (ccPlace cl) base { c with grant := true } with cur := s.cur }
             all [s.run.isNone, s.brine.isEmpty, s1.brine.isEmpty, !s1.dropHolds t.key 1 true, s.nets.isEmpty,
               (me.findCopy (ccPlace cl) t.key).isNone, (w.findCopy (ccPlace cl) t.key).any fun e => e.2.grant,
               same (exec .writeCheck s) (.next w), same (exec .writeCheck s) (.next { g1 with cur := s.cur }),
               same (exec .shadowProbe s) (.next { p1 with cur := s.cur }), f || same (exec .writeCheck w) (.next w)]
           | _, _, _ => false
         | none => false
       | _, _ => false
     all [(route far 0x0300000000000000#64).isNone, same (exec .writeCheck far) (.next far), same (exec .shadowProbe far) (.next far),
       check false, check true]) = true := by decide +kernel
/-- The eviction of a clean copy, of a dirty one, of a frame that holds none, of one with a partial, and of a line of an L1. -/
theorem test_hyps_MemorySteps_eviction :
    (let s1 := stOf (exec .weakStoreAccept (sending [effectOf (spanned storeP) true]))
     match s1.copies.find? fun e => 0 < e.2.dirty with
     | some (key, c) =>
       let place := key / 2 ^ 64
       let base := key % 2 ^ 64
       let (cache, id) := frameOf place base
       let at_ := fun (t : State) (place : Nat) (copies : Tab Copy) => about { t with copies := copies } place 0 0#64 (BitVec.ofNat 64 base) false
       let gone := fun (t : State) => { t with frames := t.frames.put cache ((t.frames.get [] cache).filter fun f => f.id != id) }
       let dirty := at_ s1 place [(key, c)]
       let clean := at_ s1 place [(key, { c with dirty := 0 })]
       let rest0 := at_ s1 place []
       let e : BrineEntry :=
         { tag := .addD, state := .brine, size := 32, maxPts := 0, returned := [], phys := dramBase 0 + 0x10200,
           holders := [(0, { data := List.replicate 32 0#8, maxPts := 0, bad := false })] }
       let own := 2 ^ 48 + base
       let partial_ := { about s1 place 0 0#64 (BitVec.ofNat 64 own) false with copies := [], brine := [(own, e)] }
       let l1 := at_ s1 (l1Place 0x123) s1.copies
       let a := cacheAgent place
       match okv (pushCopy a (siteOfKey base) place base c (levelsAbove place (a.levels (siteOfKey base)))) dirty with
       | some (_, s3) =>
         all [decide (32768 ≤ place), decide (place < 131072), cacheSets cache != 32, s1.brine.isEmpty, s3.brine.isEmpty, decide (base < 2 ^ 64),
           (s3.copies.find (copyKey place base)).any fun (x : Copy) => x.dirty == 0,
           same (exec .cacheEviction dirty) (.next ((s3.dropCopy place base).freeFrame cache id)),
           same (exec .cacheEviction clean) (.next (gone (gone { clean with copies := [] }))),
           same (exec .cacheEviction rest0) (.next (gone rest0)),
           (match partial_.partialsIn place (frameOf place own).1 (frameOf place own).2 with
            | [(g, i)] => same (exec .cacheEviction partial_)
                (.next (partial_.dueAt .holderRecall { Subject.nothing with addr := BitVec.ofNat 64 g, index := i }))
            | _ => false),
           (let (cache, id) := frameOf (l1Place 0x123) base
            cacheSets cache == 32 && same (exec .cacheEviction l1)
              (.next { l1 with
                copies := l1.copies.filter fun e => frameOf (e.1 / 2 ^ 64) (e.1 % 2 ^ 64) != (cache, id),
                frames := l1.frames.put cache ((l1.frames.get [] cache).filter fun f => f.id != id) }))]
       | _ => false
     | none => false) = true := by decide +kernel

/-! ## Steps, encodings and memory -/

/-- One of each kind of step: the running context's, one that is due, and each kind of turn. -/
theorem test_hyps_StepRunsDecoded :
    (let out := fun (w : Nat) =>
       let s := State.reset.withFetchWord 32 w
       match okv (fetchRaw s.me.pc) s.tick with
       | some ((raw, long), s1) =>
         let s2 := s1.setMe { s1.me with
           npc := s1.me.pc + (if long then 4#64 else 2#64), ir := s1.layOut raw long, issuedPc := s1.me.pc, issuedRep := s1.me.rep }
         isContext s.cur.1 s.cur.2 && s.runs s.myKey && s.run.isNone && (s.me.rep.st != RepState.reissuing) &&
           match decode (bytesOfNat (if long then 4 else 2) raw) with
           | .ok (i, _) => w == 0x0028A285 && ctxSame ((stOf (stepContext s)).ctxAt s.myKey) ((stOf (exec i s2)).ctxAt s.myKey)
           | .error _ => w == 0xFFFFFFFF && ctxSame ((stOf (stepContext s)).ctxAt s.myKey)
               (((s2.setCtxAt s.myKey s.tick.me).takeTrap s.myKey 0x01 s.me.pc (s1.layOut raw long)).ctxAt s.myKey)
       | none => false
     let s := bare
     let due : Due := { step := .dierel, subject := { Subject.nothing with place := 3 } }
     let item : ClauseItem := { pc := s.me.pc, raw := 0x0028A285, long := true }
     let r := s.setMe { s.me with
       rep := { st := .reissuing, pc := s.me.pc, items := [item], after := 0x3000#64, iter := 2, stag := 0 } }
     let idle := s.setMe { s.me with status := .idle }
     let nowhere := { s with cur := (20000, 0) }
     let bad : Partial := { data := List.replicate 32 1#8, maxPts := 0, bad := false }
     let e : BrineEntry :=
       { tag := .addD, state := .brine, size := 32, maxPts := 0, returned := [], phys := dramBase 0, holders := [(0, bad)] }
     let b := { s with brine := [(64, e)] }
     let two := sliced [request 4 0x200 0x200, request 2 0x200 0x200] [] false
     let two := { two with turns := [] }
     let adm : Admission := { key := 0, off := 0, size := 0, ways := [], last := false, keep := false, counter := none }
     let turn := fun (w : Asker) => step { s with turns := [.retry w [adm]] }
     let t := { s with pass := [adm] }
     let passed : Out → Out := fun o => match o with
       | .next u => .next { u with pass := [] }
       | o => o
     all [same (step { s with turns := [.damage 0x40] }) (.next (State.mark s 0x40)),
       same (step { b with turns := [.spoil 64 0] })
         (.next { b with brine := [(64, { e with holders := [(0, { bad with bad := true })] })] }),
       same (step { two with turns := [.merge 0 2 0 1] }) (.next (State.merge two 0 2 0 1)),
       same (turn (.packet 0x123 3 5 [])) (.next { t.performSeq 0x123 3 5 [] with pass := [] }),
       same (turn (.load 0x123 3 5)) (.next { t.retryLoad 0x123 3 5 with pass := [] }),
       same (turn (.fetch 0x123 3)) (.next { t.retryFetch 0x123 3 with pass := [] }),
       same (turn (.step due)) (passed (exec .dierel { t with subject := due.subject })),
       same (turn (.op 7)) (passed (exec .engineCompletion { t with subject := { Subject.nothing with place := 7 } })),
       (t.wake s.cur.1 s.cur.2).runs (ctxKey s.cur.1 s.cur.2),
       ctxSame ((stOf (turn (.ctx s.cur.1 s.cur.2))).ctxAt s.myKey)
         ((stOf (passed (stepContext (t.wake s.cur.1 s.cur.2)))).ctxAt s.myKey),
       !(t.wake 0x200 5).runs (ctxKey 0x200 5),
       same (turn (.ctx 0x200 5)) (.next { t.wake 0x200 5 with pass := [] }),
       out 0x0028A285, out 0xFFFFFFFF, s.turns.isEmpty, s.agenda.isEmpty,
       same (step { s with turns := [.due due] }) (exec .dierel { s with subject := due.subject }),
       same (step { s with agenda := [due] }) (exec .dierel { s with subject := due.subject }),
       !idle.runs idle.myKey, !isContext 20000 0,
       same (stepContext nowhere) (.fault .noSuchContext), r.runs r.myKey,
       (let s1 := r.tick
        let s2 := s1.setMe { s1.me with
          npc := s1.me.pc + 4#64, ir := s1.layOut 0x0028A285 true, issuedPc := s1.me.pc, issuedRep := s1.me.rep }
        ctxSame ((stOf (stepContext r)).ctxAt r.myKey) ((stOf (exec (.add 5 5 5) s2)).ctxAt r.myKey))]) = true := by decide +kernel
/-- Well-formed instructions with operands at the ends of their ranges are encoded, and read back with what follows. -/
theorem test_hyps_DecodeEncodeRoundTrip :
    all ([.add 63 0 63, .addi 63 1 0x800, .lui 0 0x7FFFF, .jalr 1 63 0x1000, .rep 63 32, .amo .fadd .w 1 2 .sys true true, .vcvt .dp8 .fp32 31 0 7,
        .mmaSp .dp8g64 true true 3 15 15 63, .copyIn 15 15 15 15 { scope := .sys, acq := true, rel := true } .ds, .axrBegin 63 0xFFF,
        .compactLane 15 31 31, .dictionaryReference 1023 7].map fun i =>
      i.wf && match encode i with
        | some bs => decide ((match decode (bs ++ [1#8, 2#8]) with
            | .ok r => some r
            | .error _ => none) = some (i, [1#8, 2#8]))
        | none => false) = true := by decide +kernel
theorem test_hyps_DecodedIsCanonical :
    (match decode [0x85#8, 0xA2#8, 0x28#8, 0x00#8, 0xFF#8] with
     | .ok (i, rest) => (i == .add 5 5 5) && (rest == [0xFF#8]) && (encode i == some [0x85#8, 0xA2#8, 0x28#8, 0x00#8])
     | .error _ => false) = true := by decide +kernel
/-- A store, from a memory in its form, leaves one that is; so does the write of what an unlisted byte reads as. -/
theorem test_hyps_StepKeepsMemoryCanonical :
    (let s := bare
     let s := (s.setBytes (dramBase 0 + 0x10000) ((encode (.st 10 0 .d .sp 0)).getD [])).setMe (s.me.setX 10 0x1122334455667788#64)
     match step s with
     | .next t => Memory.wf s.mem && Memory.wf t.mem && (t.num (spBase 0) 8 == 0x1122334455667788) &&
         Memory.wf (t.store (spBase 0) (List.replicate 8 0#8)).mem &&
         ((t.store (spBase 0) (List.replicate 8 0#8)).mem.length == s.mem.length)
     | _ => false) = true := by decide +kernel

end Sys2Proof.Tests
end

section
/-!
SUPPORT. Scalar arithmetic (R222 to R230): what each shape of computation does where no port is bound, that the model's values are
those of the statements' tables, and from both that every instruction of these majors writes its table's value.
-/
namespace Sys2Proof.Proofs.Scalar
open Sys2Proof Sys2Proof.Machine Sys2Proof.Claims

/-! ## The shapes of a scalar computation -/

section Shapes
variable {s : State} {rd rd' rs1 rs2 : XReg} {v a : Dword}

theorem anyPort_setX (hp : NoPort s) (rd : XReg) (v : Dword) : (s.me.setX rd v).anyPort = false := by
  simpa [Ctx.anyPort, NoPort] using hp

/-- A meaning whose only effect is a register write is sealed with that write. -/
theorem finish_setX {m : Mach Unit} (hp : NoPort s) (h : EStateM.run m s = .ok () (s.setMe (s.me.setX rd v))) :
    finish m s = sealedAs s (s.me.setX rd v) :=
  finish_me h (anyPort_setX hp rd v)

/-- A trap before any effect, whole or in a packet; cause 0x07 is left out for the refusals of a net pool (R115). -/
theorem finish_trapped {m : Mach Unit} {cause : Nat} (hc : cause ≠ 0x07) (h : EStateM.run m s = .error (.trap cause a) s) :
    finish m s = trapped s cause a := by
  cases hr : s.run with
  | none => simp only [trapped, hr, finish_trap_at h hr (by simp [hc])]
  | some r => simp only [trapped, hr, finish_run h hr, Option.map_some]

theorem binary_writes {f : Dword → Dword → Dword} {y : Dword} (hp : NoPort s) (h : some (rd', y) = some (rd, v))
    (hy : y = f (s.me.getX rs1) (s.me.getX rs2)) : binary f rd' rs1 rs2 s = sealedAs s (s.me.setX rd v) := by
  cases h
  subst hy
  exact finish_binary hp _ _ _ f

theorem unary_writes {f : Dword → Dword} {y : Dword} (hp : NoPort s) (h : some (rd', y) = some (rd, v))
    (hy : y = f (s.me.getX rs1)) : unary f rd' rs1 s = sealedAs s (s.me.setX rd v) := by
  cases h
  subst hy
  exact finish_setX hp (by simp [run_readX hp, run_writeX hp])

theorem sel_writes (hp : NoPort s)
    (h : some (rd', if s.me.getX rd' ≠ 0#64 then s.me.getX rs1 else s.me.getX rs2) = some (rd, v)) :
    execSel rd' rs1 rs2 s = sealedAs s (s.me.setX rd v) := by
  cases h
  exact finish_setX hp (by simp [run_readX hp, run_writeX hp])

theorem lui_writes {y : Dword} {imm : BitVec 19} (hp : NoPort s) (h : some (rd', y) = some (rd, v))
    (hy : y = imm.signExtend 64 <<< 12) : execLui rd' imm s = sealedAs s (s.me.setX rd v) := by
  cases h
  subst hy
  exact finish_setX hp (run_writeX hp _ _)

theorem addpc_writes {y : Dword} {imm : BitVec 19} (hp : NoPort s) (h : some (rd', s.me.pc + y) = some (rd, v))
    (hy : y = imm.signExtend 64 <<< 12) : execAddpc rd' imm s = sealedAs s (s.me.setX rd v) := by
  cases h
  subst hy
  exact finish_setX hp (by simp [run_writeX hp])

/-! A divide asks CTXCFG.DZQ only for a divisor of zero (R230). -/

theorem bitAt_toNat {n : Nat} (x : BitVec n) (i : Nat) : bitAt x.toNat i = x.getLsbD i := by
  rw [← BitVec.testBit_toNat, Nat.testBit_eq_decide_div_mod_eq]
  rfl

section Divide
variable {f : Int → Int → Int} {zero : Int → Int} {signed w : Bool}

theorem divide_nonzero (hp : NoPort s) (hy : mulOperand w signed (s.me.getX rs2) ≠ 0) :
    divide f zero signed w rd rs1 rs2 s = sealedAs s (s.me.setX rd
      (widen w (f (mulOperand w signed (s.me.getX rs1)) (mulOperand w signed (s.me.getX rs2))))) :=
  finish_setX hp (by simp [run_readX hp, run_writeX hp, hy])

theorem divide_zero_quiet (hp : NoPort s) (hy : mulOperand w signed (s.me.getX rs2) = 0)
    (hq : s.me.ctxcfg.getLsbD 0 = true) :
    divide f zero signed w rd rs1 rs2 s =
      sealedAs s (s.me.setX rd (widen w (zero (mulOperand w signed (s.me.getX rs1))))) :=
  finish_setX hp (by simp [run_readX hp, run_writeX hp, hy, run_check_true ((bitAt_toNat _ _).trans hq)])

theorem divide_zero_traps (hp : NoPort s) (hy : mulOperand w signed (s.me.getX rs2) = 0)
    (hq : s.me.ctxcfg.getLsbD 0 = false) :
    divide f zero signed w rd rs1 rs2 s = trapped s 0x02 (s.me.getX rs1) :=
  finish_trapped (by decide) (by simp [run_readX hp, hy, run_check_false ((bitAt_toNat _ _).trans hq)])

/-- A row of the table for a divide: `y` is its divisor, `q` its result, and `z` what a zero divisor gives. -/
theorem divide_writes {y : Int} {q z : Dword} (hp : NoPort s)
    (h : (if y ≠ 0 then some (rd', q) else if s.me.ctxcfg.getLsbD 0 then some (rd', z) else none) = some (rd, v))
    (hy : y = mulOperand w signed (s.me.getX rs2))
    (hq : q = widen w (f (mulOperand w signed (s.me.getX rs1)) (mulOperand w signed (s.me.getX rs2))))
    (hz : z = widen w (zero (mulOperand w signed (s.me.getX rs1)))) :
    divide f zero signed w rd' rs1 rs2 s = sealedAs s (s.me.setX rd v) := by
  subst hy hq hz
  split at h
  next hne =>
    cases h
    exact divide_nonzero hp hne
  next hzero =>
    split at h
    next hdzq =>
      cases h
      exact divide_zero_quiet hp (not_not.mp hzero) hdzq
    next => cases h

/-- The same of the dividend and the test for a zero divisor. -/
theorem divide_traps {y : Int} (hp : NoPort s) (h : some (s.me.getX rs1, y == 0) = some (a, true))
    (hq : s.me.ctxcfg.getLsbD 0 = false) (hy : y = mulOperand w signed (s.me.getX rs2)) :
    divide f zero signed w rd' rs1 rs2 s = trapped s 0x02 a := by
  simp only [Option.some.injEq, Prod.mk.injEq, beq_iff_eq] at h
  obtain ⟨rfl, h0⟩ := h
  exact divide_zero_traps hp (hy ▸ h0) hq

end Divide
end Shapes

/-! ## Values of the majors OP, OPI, LUI and ADDPC (R223, R226, R227) -/

section Words
variable {n : Nat} (a b : BitVec n)

theorem ofNat_toNat_add : BitVec.ofNat n (a.toNat + b.toNat) = a + b := by
  simp [BitVec.ofNat_add]

theorem ofInt_toInt_sub : BitVec.ofInt n (a.toInt - b.toInt) = a - b := by
  apply BitVec.eq_of_toInt_eq
  rw [BitVec.toInt_ofInt, BitVec.toInt_sub]

theorem ofNat_toNat_mul_two_pow (k : Nat) : BitVec.ofNat n (a.toNat * 2 ^ k) = a <<< k := by
  apply BitVec.eq_of_toNat_eq
  rw [BitVec.toNat_ofNat, BitVec.toNat_shiftLeft, Nat.shiftLeft_eq]

theorem ofNat_toNat_div_two_pow (k : Nat) : BitVec.ofNat n (a.toNat / 2 ^ k) = a >>> k := by
  rw [← Nat.shiftRight_eq_div_pow, ← BitVec.toNat_ushiftRight, BitVec.ofNat_toNat, BitVec.setWidth_eq]

theorem ofInt_toInt_div_two_pow (k : Nat) : BitVec.ofInt n (a.toInt / 2 ^ k) = a.sshiftRight k := by
  rw [BitVec.sshiftRight_eq, Int.shiftRight_eq_div_pow, Nat.cast_pow, Nat.cast_ofNat]

theorem ofInt_min_toInt : BitVec.ofInt n (min a.toInt b.toInt) = if a.slt b then a else b := by
  simp only [BitVec.slt_iff_toInt_lt]
  split
  next h => rw [min_eq_left h.le, BitVec.ofInt_toInt]
  next h => rw [min_eq_right (not_lt.mp h), BitVec.ofInt_toInt]

theorem ofInt_max_toInt : BitVec.ofInt n (max a.toInt b.toInt) = if a.slt b then b else a := by
  simp only [BitVec.slt_iff_toInt_lt]
  split
  next h => rw [max_eq_right h.le, BitVec.ofInt_toInt]
  next h => rw [max_eq_left (not_lt.mp h), BitVec.ofInt_toInt]

theorem ofNat_min_toNat : BitVec.ofNat n (min a.toNat b.toNat) = if a.ult b then a else b := by
  simp only [BitVec.ult_iff_lt, BitVec.lt_def]
  split
  next h => rw [min_eq_left h.le, BitVec.ofNat_toNat, BitVec.setWidth_eq]
  next h => rw [min_eq_right (not_lt.mp h), BitVec.ofNat_toNat, BitVec.setWidth_eq]

theorem ofNat_max_toNat : BitVec.ofNat n (max a.toNat b.toNat) = if a.ult b then b else a := by
  simp only [BitVec.ult_iff_lt, BitVec.lt_def]
  split
  next h => rw [max_eq_right h.le, BitVec.ofNat_toNat, BitVec.setWidth_eq]
  next h => rw [max_eq_left (not_lt.mp h), BitVec.ofNat_toNat, BitVec.setWidth_eq]

theorem boolVal_slt : (if a.toInt < b.toInt then 1#64 else 0#64) = boolVal (a.slt b) := by
  simp only [boolVal, BitVec.slt_iff_toInt_lt]

theorem boolVal_ult : (if a.toNat < b.toNat then 1#64 else 0#64) = boolVal (a.ult b) := by
  simp only [boolVal, BitVec.ult_iff_lt, BitVec.lt_def]

/-- R226's SLTI compares with the immediate's own value, which its extension keeps. -/
theorem boolVal_slt_signExtend {m : Nat} (imm : BitVec m) (h : m ≤ n) :
    (if a.toInt < imm.toInt then 1#64 else 0#64) = boolVal (a.slt (imm.signExtend n)) := by
  rw [← boolVal_slt, BitVec.toInt_signExtend_of_le h]

theorem ofInt_toInt_add_signExtend {m : Nat} (imm : BitVec m) :
    BitVec.ofInt n (a.toInt + imm.toInt) = a + imm.signExtend n := by
  rw [BitVec.ofInt_add, BitVec.ofInt_toInt]
  rfl

theorem ofInt_toInt_mul_two_pow {m : Nat} (imm : BitVec m) (k : Nat) :
    BitVec.ofInt n (imm.toInt * 2 ^ k) = imm.signExtend n <<< k := by
  have hpow : BitVec.ofInt n (2 ^ k) = BitVec.twoPow n k := by
    rw [← Nat.cast_ofNat, ← Nat.cast_pow, BitVec.ofInt_natCast]
    exact BitVec.eq_of_toNat_eq (by rw [BitVec.toNat_ofNat, BitVec.toNat_twoPow])
  rw [BitVec.ofInt_mul, BitVec.shiftLeft_eq_mul_twoPow, hpow]
  rfl

end Words

/-! ## Counts of bits (R223)

The statements count over the list of bit positions, the model by recursion over the bits or by the logarithm. -/

theorem countP_testBit (n w : Nat) : (List.range n).countP (fun i => w.testBit i) = countOnes n w := by
  induction n generalizing w with
  | zero => rfl
  | succ n ih =>
    rw [List.range_succ_eq_map, List.countP_cons, List.countP_map, countOnes, ← ih (w / 2), Nat.add_comm]
    congr 1
    · rcases Nat.mod_two_eq_zero_or_one w with h | h <;> simp [h]
    · exact List.countP_congr fun i _ => by simp [Nat.testBit_succ]

theorem takeWhile_testBit (n w : Nat) :
    ((List.range n).takeWhile fun i => !w.testBit i).length = countTrailing n w := by
  induction n generalizing w with
  | zero => rfl
  | succ n ih =>
    rw [List.range_succ_eq_map, List.takeWhile_cons, countTrailing, ← ih (w / 2), List.takeWhile_map]
    rcases Nat.mod_two_eq_zero_or_one w with h | h <;> simp [h, Nat.testBit_succ, Nat.add_comm, Function.comp_def]

/-- The first `k` numbers pass, and the one after them, where there is one, does not. -/
theorem length_takeWhile_range {p : Nat → Bool} {n k : Nat} (hk : k ≤ n) (hpass : ∀ i < k, p i = true)
    (hstop : k < n → p k = false) : ((List.range n).takeWhile p).length = k := by
  obtain ⟨m, rfl⟩ := Nat.exists_eq_add_of_le hk
  rw [List.range_add, List.takeWhile_append_of_pos (by simpa using hpass), List.length_append, List.length_range]
  cases m with
  | zero => rfl
  | succ m => simp [List.range_succ_eq_map, hstop (by omega)]

theorem takeWhile_leading (a : Dword) :
    ((List.range 64).takeWhile fun i => !a.getLsbD (63 - i)).length = countLeading a := by
  simp only [← BitVec.testBit_toNat, countLeading]
  have hlt : a.toNat < 2 ^ 64 := a.isLt
  split
  next h0 => exact length_takeWhile_range le_rfl (by simp [h0]) (by simp)
  next h0 =>
    have hlog : a.toNat.log2 < 64 := (Nat.log2_lt h0).mpr hlt
    refine length_takeWhile_range (by omega) (fun i hi => ?_) (fun _ => ?_)
    · have : a.toNat < 2 ^ (63 - i) := (Nat.log2_lt h0).mp (by omega)
      simp [Nat.testBit_lt_two_pow this]
    · rw [show 63 - (63 - a.toNat.log2) = a.toNat.log2 by omega, Nat.testBit_log2 h0]
      rfl

/-! ## Values of the major MULDIV (R229, R230) -/

theorem signedOfNat_eq_toInt (n v : Nat) : signedOfNat n v = (BitVec.ofNat n v).toInt := by
  rw [BitVec.toInt_eq_toNat_cond, BitVec.toNat_ofNat, signedOfNat]
  cases n with
  | zero => simp [Nat.mod_one]
  | succ n =>
    have : 2 ^ (n + 1) = 2 * 2 ^ n := Nat.pow_succ'
    simp only [Nat.add_sub_cancel]
    congr 1
    exact propext (by omega)

theorem sx_eq_mulOperand (w : Bool) (a : Dword) : sx w a = mulOperand w true a := by
  cases w <;> simp [mulOperand, mulWidth, sx, signedOfNat_eq_toInt]

theorem zx_eq_mulOperand (w : Bool) (a : Dword) : zx w a = mulOperand w false a := by
  cases w with
  | false => simp [mulOperand, mulWidth, zx, Nat.mod_eq_of_lt a.isLt]
  | true => simp [mulOperand, mulWidth, zx]

theorem ofNat_toNat_emod (n : Nat) (v : Int) : BitVec.ofNat n (v % 2 ^ n).toNat = BitVec.ofInt n v := by
  rw [← BitVec.ofInt_natCast, Int.toNat_of_nonneg (Int.emod_nonneg _ (by positivity))]
  apply BitVec.eq_of_toInt_eq
  rw [BitVec.toInt_ofInt, BitVec.toInt_ofInt, ← Nat.cast_ofNat, ← Nat.cast_pow, Int.emod_bmod]

/-- The low bits of a result, sign-extended: in numbers as the model has it, in words as R229 has it. -/
theorem fit_eq_widen (w : Bool) (v : Int) : fit w v = widen w v := by
  rw [widen, signedOfNat_eq_toInt, ofNat_toNat_emod]
  cases w with
  | false => exact BitVec.ofInt_toInt.symm
  | true => rfl

theorem zx_nonneg (w : Bool) (a : Dword) : 0 ≤ zx w a := by
  cases w <;> exact Int.natCast_nonneg _

/-- In the unsigned forms the truncation of R229 is the plain division. -/
theorem zx_tdiv (w : Bool) (a b : Dword) : Int.tdiv (zx w a) (zx w b) = zx w a / zx w b :=
  Int.tdiv_eq_ediv_of_nonneg (zx_nonneg w a)

theorem fit_product (w : Bool) (a b : Dword) :
    fit w (sx w a * sx w b) = widen w (mulOperand w true a * mulOperand w true b) := by
  rw [fit_eq_widen, sx_eq_mulOperand, sx_eq_mulOperand]

theorem fit_high_product (a b : Dword) :
    fit false (sx false a * sx false b / 2 ^ 64) = widen false (mulOperand false true a * mulOperand false true b / 2 ^ 64) := by
  rw [fit_eq_widen, sx_eq_mulOperand, sx_eq_mulOperand]

theorem fit_high_product_unsigned (a b : Dword) :
    fit false (zx false a * zx false b / 2 ^ 64) =
      widen false (mulOperand false false a * mulOperand false false b / 2 ^ 64) := by
  rw [fit_eq_widen, zx_eq_mulOperand, zx_eq_mulOperand]

theorem fit_quotient (w : Bool) (a b : Dword) :
    fit w (Int.tdiv (sx w a) (sx w b)) = widen w (Int.tdiv (mulOperand w true a) (mulOperand w true b)) := by
  rw [fit_eq_widen, sx_eq_mulOperand, sx_eq_mulOperand]

theorem fit_quotient_unsigned (w : Bool) (a b : Dword) :
    fit w (zx w a / zx w b) = widen w (Int.tdiv (mulOperand w false a) (mulOperand w false b)) := by
  rw [fit_eq_widen, ← zx_tdiv, zx_eq_mulOperand, zx_eq_mulOperand]

theorem fit_remainder (w : Bool) (a b : Dword) :
    fit w (sx w a - sx w b * Int.tdiv (sx w a) (sx w b)) =
      widen w (Int.tmod (mulOperand w true a) (mulOperand w true b)) := by
  rw [fit_eq_widen, ← Int.tmod_def, sx_eq_mulOperand, sx_eq_mulOperand]

theorem fit_remainder_unsigned (w : Bool) (a b : Dword) :
    fit w (zx w a - zx w b * (zx w a / zx w b)) =
      widen w (Int.tmod (mulOperand w false a) (mulOperand w false b)) := by
  rw [fit_eq_widen, ← zx_tdiv, ← Int.tmod_def, zx_eq_mulOperand, zx_eq_mulOperand]

theorem fit_dividend (w : Bool) (a : Dword) : fit w (sx w a) = widen w (mulOperand w true a) := by
  rw [fit_eq_widen, sx_eq_mulOperand]

theorem fit_dividend_unsigned (w : Bool) (a : Dword) : fit w (zx w a) = widen w (mulOperand w false a) := by
  rw [fit_eq_widen, zx_eq_mulOperand]

theorem neg_one_eq_widen (w : Bool) : -1#64 = widen w (-1) := by
  cases w <;> decide

/-! ## The tables

One case for each row: its instruction's shape, and why the row's value is the model's. Every other instruction has no row. -/

section Tables
variable {s : State} {rd : XReg} {v a : Dword}

theorem exec_opWrites (i : Instr) (hp : NoPort s) (h : opWrites i s.me = some (rd, v)) :
    exec i s = sealedAs s (s.me.setX rd v) := by
  cases i with
  | add => exact binary_writes hp h (ofNat_toNat_add ..)
  | sub => exact binary_writes hp h (ofInt_toInt_sub ..)
  | and | or | xor | andn => exact binary_writes hp h rfl
  | sll => exact binary_writes hp h (ofNat_toNat_mul_two_pow ..)
  | srl => exact binary_writes hp h (ofNat_toNat_div_two_pow ..)
  | sra => exact binary_writes hp h (ofInt_toInt_div_two_pow ..)
  | slt => exact binary_writes hp h (boolVal_slt ..)
  | sltu => exact binary_writes hp h (boolVal_ult ..)
  | min => exact binary_writes hp h (ofInt_min_toInt ..)
  | max => exact binary_writes hp h (ofInt_max_toInt ..)
  | minu => exact binary_writes hp h (ofNat_min_toNat ..)
  | maxu => exact binary_writes hp h (ofNat_max_toNat ..)
  | sel => exact sel_writes hp h
  | clz => exact unary_writes hp h (congrArg _ (takeWhile_leading _))
  | ctz => exact unary_writes hp h (congrArg _ (takeWhile_testBit 64 _))
  | popc => exact unary_writes hp h (congrArg _ (countP_testBit 64 _))
  | _ => cases h

theorem exec_immWrites (i : Instr) (hp : NoPort s) (h : immWrites i s.me = some (rd, v)) :
    exec i s = sealedAs s (s.me.setX rd v) := by
  cases i with
  | addi => exact unary_writes hp h (ofInt_toInt_add_signExtend ..)
  | andi | ori | xori => exact unary_writes hp h rfl
  | slti => exact unary_writes hp h (boolVal_slt_signExtend _ _ (by decide))
  | sltiu => exact unary_writes hp h (boolVal_ult ..)
  | slli => exact unary_writes hp h (ofNat_toNat_mul_two_pow ..)
  | srli => exact unary_writes hp h (ofNat_toNat_div_two_pow ..)
  | srai => exact unary_writes hp h (ofInt_toInt_div_two_pow ..)
  | lui => exact lui_writes hp h (ofInt_toInt_mul_two_pow ..)
  | addpc => exact addpc_writes hp h (ofInt_toInt_mul_two_pow ..)
  | _ => cases h

theorem exec_div (rd rs1 rs2 : XReg) (w : Bool) (s : State) :
    exec (.div rd rs1 rs2 w) s = divide Int.tdiv (fun _ => -1) true w rd rs1 rs2 s := rfl

theorem exec_divu (rd rs1 rs2 : XReg) (w : Bool) (s : State) :
    exec (.divu rd rs1 rs2 w) s = divide Int.tdiv (fun _ => -1) false w rd rs1 rs2 s := rfl

theorem exec_rem (rd rs1 rs2 : XReg) (w : Bool) (s : State) :
    exec (.rem rd rs1 rs2 w) s = divide Int.tmod (fun x => x) true w rd rs1 rs2 s := rfl

theorem exec_remu (rd rs1 rs2 : XReg) (w : Bool) (s : State) :
    exec (.remu rd rs1 rs2 w) s = divide Int.tmod (fun x => x) false w rd rs1 rs2 s := rfl

theorem exec_mulWrites (i : Instr) (hp : NoPort s) (h : mulWrites i s.me = some (rd, v)) :
    exec i s = sealedAs s (s.me.setX rd v) := by
  cases i with
  | mul => exact binary_writes hp h (fit_product ..)
  | mulh => exact binary_writes hp h (fit_high_product ..)
  | mulhu => exact binary_writes hp h (fit_high_product_unsigned ..)
  | div =>
    rw [exec_div]
    exact divide_writes hp h (sx_eq_mulOperand ..) (fit_quotient ..) (neg_one_eq_widen _)
  | divu =>
    rw [exec_divu]
    exact divide_writes hp h (zx_eq_mulOperand ..) (fit_quotient_unsigned ..) (neg_one_eq_widen _)
  | rem =>
    rw [exec_rem]
    exact divide_writes hp h (sx_eq_mulOperand ..) (fit_remainder ..) (fit_dividend ..)
  | remu =>
    rw [exec_remu]
    exact divide_writes hp h (zx_eq_mulOperand ..) (fit_remainder_unsigned ..) (fit_dividend_unsigned ..)
  | _ => cases h

theorem exec_divides_zero (i : Instr) (hp : NoPort s) (h : divides i s.me = some (a, true))
    (hq : s.me.ctxcfg.getLsbD 0 = false) : exec i s = trapped s 0x02 a := by
  cases i with
  | div => exact (exec_div ..).trans (divide_traps hp h hq (sx_eq_mulOperand ..))
  | divu => exact (exec_divu ..).trans (divide_traps hp h hq (zx_eq_mulOperand ..))
  | rem => exact (exec_rem ..).trans (divide_traps hp h hq (sx_eq_mulOperand ..))
  | remu => exact (exec_remu ..).trans (divide_traps hp h hq (zx_eq_mulOperand ..))
  | _ => cases h

end Tables

/-- Settles O1: each instruction of the tables has one of a few shapes, and the model's value is the table's. -/
theorem registerResults : Obligations.RegisterResults := by
  unfold Obligations.RegisterResults
  exact ⟨fun i _ _ _ => exec_opWrites i, fun i _ _ _ => exec_immWrites i, fun i _ _ _ => exec_mulWrites i,
    fun i _ _ => exec_divides_zero i⟩

end Sys2Proof.Proofs.Scalar
end

section
/-!
SUPPORT. Integer vector operations and floating reductions (R253, R256, R267): a lane in its elements, the values of VOP's table,
what a lane write and a raising of flags do, the fixed tree; and from them what each of these instructions does.
-/
namespace Sys2Proof.Proofs.Vector
open Sys2Proof Sys2Proof.Machine Sys2Proof.Claims Sys2Proof.Proofs.Scalar

/-! ## A lane in its elements (R253)

The model cuts a lane and puts it together by recursion; the statements index its elements. -/

section Elements
variable {w : Nat} {f g : Nat → Nat → Nat}

theorem elem_lt (w : Nat) (a : Word) (e : Nat) : elem w a e < 2 ^ w := Nat.mod_lt _ (by positivity)

theorem elementsOf_eq_map (w n v : Nat) : elementsOf w n v = (List.range n).map fun e => v / 2 ^ (w * e) % 2 ^ w := by
  induction n generalizing v with
  | zero => rfl
  | succ n ih =>
    have hdiv (e : Nat) : v / 2 ^ w / 2 ^ (w * e) = v / 2 ^ (w * (e + 1)) := by
      rw [Nat.div_div_eq_div_mul, ← pow_add, Nat.mul_succ, Nat.add_comm]
    simp [elementsOf, ih, List.range_succ_eq_map, Function.comp_def, hdiv]

theorem joinElements_map_range (w n : Nat) (v : Nat → Nat) :
    joinElements w ((List.range n).map v) = ((List.range n).map fun e => v e % 2 ^ w * 2 ^ (w * e)).sum := by
  induction n generalizing v with
  | zero => rfl
  | succ n ih =>
    have hpow (e : Nat) : v (e + 1) % 2 ^ w * 2 ^ (w * (e + 1)) = 2 ^ w * (v (e + 1) % 2 ^ w * 2 ^ (w * e)) := by
      rw [Nat.mul_succ, pow_add]
      ring
    simp only [List.range_succ_eq_map, List.map_cons, List.map_map, Function.comp_def, joinElements, ih, List.sum_cons,
      Nat.succ_eq_add_one, hpow, List.sum_map_mul_left, Nat.mul_zero, pow_zero, Nat.mul_one]

theorem laneMap_eq_eachElement (w : Nat) (f : Nat → Nat → Nat) (a b : Word) : laneMap w f a b = eachElement w f a b := by
  simp only [laneMap, elementsOf_eq_map, List.zipWith_map, List.zipWith_self, joinElements_map_range]
  rfl

/-- Only the values on elements count. -/
theorem eachElement_congr (h : ∀ x < 2 ^ w, ∀ y < 2 ^ w, f x y = g x y) (a b : Word) :
    eachElement w f a b = eachElement w g a b := by
  simp only [eachElement, h _ (elem_lt w a _) _ (elem_lt w b _)]

end Elements

/-! ## Values of VOP's table (R256) -/

section Values
variable {w x y : Nat}

theorem wrapInt_eq_low (w : Nat) (v : Int) : wrapInt w v = low w v := by
  simp [wrapInt, low]

theorem low_natCast (w n : Nat) : low w n = n % 2 ^ w := by
  rw [low, ← Nat.cast_ofNat, ← Nat.cast_pow, ← Int.natCast_emod, Int.toNat_natCast]

theorem low_add_two_pow (w : Nat) (v : Int) : low w (v + 2 ^ w) = low w v := by
  rw [low, Int.add_emod_right, low]

/-- The low bits of an element's signed value are the element. -/
theorem low_signedOfNat (hx : x < 2 ^ w) : low w (signedOfNat w x) = x := by
  simp only [signedOfNat, Nat.mod_eq_of_lt hx]
  split
  next => rw [low_natCast, Nat.mod_eq_of_lt hx]
  next => rw [← low_add_two_pow, Nat.cast_pow, Nat.cast_ofNat, Int.sub_add_cancel, low_natCast, Nat.mod_eq_of_lt hx]

theorem sub_eq_low (x : Nat) (hy : y < 2 ^ w) : (x + 2 ^ w - y) % 2 ^ w = low w ((x : Int) - y) := by
  have hcast : ((x + 2 ^ w - y : Nat) : Int) = (x : Int) - y + 2 ^ w := by
    rw [Nat.cast_sub (by omega), Nat.cast_add, Nat.cast_pow, Nat.cast_ofNat]
    ring
  rw [← low_natCast, hcast, low_add_two_pow]

theorem wrapInt_div_two_pow (w k : Nat) (v : Int) : wrapInt w (v / (2 ^ k : Nat)) = low w (v / 2 ^ k) := by
  rw [wrapInt_eq_low, Nat.cast_pow, Nat.cast_ofNat]

theorem signed_smaller_eq_low (hx : x < 2 ^ w) (hy : y < 2 ^ w) :
    (if signedOfNat w x < signedOfNat w y then x else y) = low w (min (signedOfNat w x) (signedOfNat w y)) := by
  split
  next h => rw [min_eq_left h.le, low_signedOfNat hx]
  next h => rw [min_eq_right (not_lt.mp h), low_signedOfNat hy]

theorem signed_larger_eq_low (hx : x < 2 ^ w) (hy : y < 2 ^ w) :
    (if signedOfNat w x < signedOfNat w y then y else x) = low w (max (signedOfNat w x) (signedOfNat w y)) := by
  split
  next h => rw [max_eq_right h.le, low_signedOfNat hy]
  next h => rw [max_eq_left (not_lt.mp h), low_signedOfNat hx]

end Values

/-! ## Writing lanes (R253) -/

theorem lanesOf_eq_ofFn (f : Fin 16 → Word) : lanesOf f = Vector.ofFn f := rfl

theorem run_writeLanes (s : State) (vd : VReg) (k : KReg) (f : Fin 16 → Word) :
    EStateM.run (writeLanes vd (s.me.getK k) f) s = .ok () (s.setMe (putLanes s.me vd k f)) := by
  simp only [writeLanes, run_modifyMe, lanesOf_eq_ofFn]
  rfl

theorem enabled_ones (i : Fin 16) : enabled 0xFFFF#16 i = true := by
  decide +revert

theorem run_writeLane0 (s : State) (vd : VReg) (v : Nat) :
    EStateM.run (writeLane0 vd v) s = .ok () (s.setMe (permutes.lane0 s.me vd v)) := by
  simp only [writeLane0, writeLanes, run_modifyMe, lanesOf_eq_ofFn, enabled_ones, if_true]
  rfl

theorem anyPort_setV {s : State} (hp : NoPort s) (vd : VReg) (v : VVal) : (s.me.setV vd v).anyPort = false := hp

/-! ## Integer lane operations (R256) -/

section Vop
variable {s : State} {sz sz' : ElemSize} {vd vd' v1 v1' v2 v2' : VReg} {k k' : KReg} {f g op : Nat → Nat → Nat → Nat}

/-- A row of VOP's table: the model's operation `op` and the row's `g` agree on elements. -/
theorem vop_writes (hp : NoPort s) (ha : isArith s.cur.1 = true)
    (h : some (sz', vd', v1', v2', k', g) = some (sz, vd, v1, v2, k, f))
    (hop : ∀ w, ∀ x < 2 ^ w, ∀ y < 2 ^ w, op w x y = g w x y) :
    vop sz' op vd' v1' v2' k' s = sealedAs s (putLanes s.me vd k fun j =>
      eachElement (elemWidth sz) (f (elemWidth sz)) (lane s.me v1 j) (lane s.me v2 j)) := by
  cases h
  have hlane (j : Fin 16) : laneMap (elemWidth sz) (op (elemWidth sz)) (s.me.getV v1)[j] (s.me.getV v2)[j] =
      eachElement (elemWidth sz) (f (elemWidth sz)) (lane s.me v1 j) (lane s.me v2 j) :=
    (laneMap_eq_eachElement ..).trans (eachElement_congr (hop _) _ _)
  refine (finishArith_eq ha).trans (finish_me ?_ (anyPort_setV hp _ _))
  simp only [run_bind, run_me, run_writeLanes, hlane]

theorem exec_vopOf (i : Instr) (hp : NoPort s) (ha : isArith s.cur.1 = true) (h : vopOf i = some (sz, vd, v1, v2, k, f)) :
    exec i s = sealedAs s (putLanes s.me vd k fun j =>
      eachElement (elemWidth sz) (f (elemWidth sz)) (lane s.me v1 j) (lane s.me v2 j)) := by
  cases i with
  | vadd => exact show execVadd .. = _ from vop_writes hp ha h fun _ _ _ _ _ => rfl
  | vsub => exact show execVsub .. = _ from vop_writes hp ha h fun _ x _ _ hy => sub_eq_low x hy
  | vmul => exact show execVmul .. = _ from vop_writes hp ha h fun w _ _ _ _ => wrapInt_eq_low w _
  | vmulh => exact show execVmulh .. = _ from vop_writes hp ha h fun w _ _ _ _ => wrapInt_div_two_pow w w _
  | vand => exact show execVand .. = _ from vop_writes hp ha h fun _ _ _ _ _ => rfl
  | vor => exact show execVor .. = _ from vop_writes hp ha h fun _ _ _ _ _ => rfl
  | vxor => exact show execVxor .. = _ from vop_writes hp ha h fun _ _ _ _ _ => rfl
  | vshl => exact show execVshl .. = _ from vop_writes hp ha h fun _ _ _ _ _ => rfl
  | vshr => exact show execVshr .. = _ from vop_writes hp ha h fun _ _ _ _ _ => rfl
  | vshra => exact show execVshra .. = _ from vop_writes hp ha h fun w _ _ _ _ => wrapInt_div_two_pow w _ _
  | vmin => exact show execVmin .. = _ from vop_writes hp ha h fun _ _ hx _ hy => signed_smaller_eq_low hx hy
  | vmax => exact show execVmax .. = _ from vop_writes hp ha h fun _ _ hx _ hy => signed_larger_eq_low hx hy
  | vminu => exact show execVminu .. = _ from vop_writes hp ha h fun _ _ _ _ _ => rfl
  | vmaxu => exact show execVmaxu .. = _ from vop_writes hp ha h fun _ _ _ _ _ => rfl
  | _ => cases h

end Vop

/-! ## Rounding mode and flags (R45, R48, R49) -/

section Flags
variable {s : State} {m : FpMode} {flags : FFlags}

theorem fpMode_eq_modeOf (c : Ctx) : c.fpMode = modeOf true c := by
  simp only [Ctx.fpMode, bitAt_toNat, bits, pow_zero, Nat.div_one]
  rfl

theorem run_roundingMode (h : modeOf true s.me = some m) : EStateM.run roundingMode s = .ok m s := by
  simp [roundingMode, fpMode_eq_modeOf, h]

theorem run_flushMode (h : modeOf false s.me = some m) : EStateM.run flushMode s = .ok m s := by
  cases h
  simp only [flushMode, run_bind, run_me, run_pure, bitAt_toNat]
  rfl

theorem run_raiseFlags_quiet (h : flags.toNat % 32 &&& bits s.me.fcsr.toNat 16 5 = 0) :
    EStateM.run (raiseFlags flags) s = .ok () (s.setMe (raised s.me flags)) := by
  simp only [raiseFlags, run_bind, run_me, run_check_true (beq_iff_eq.mpr h), run_modifyMe]
  rfl

theorem run_raiseFlags_enabled (h : flags.toNat % 32 &&& bits s.me.fcsr.toNat 16 5 ≠ 0) :
    EStateM.run (raiseFlags flags) s = .error (.trap 0x08 (BitVec.ofNat 64 (flags.toNat % 32))) s := by
  simp only [raiseFlags, run_bind, run_me, run_check_false (beq_eq_false_iff_ne.mpr h)]

/-- A meaning that runs as a raising of flags and then a change of the running context that binds no port. -/
theorem finish_raiseFlags {mach rest : Mach Unit} {after : Ctx → Ctx} (hp : NoPort s)
    (hrun : EStateM.run mach s = EStateM.run (do raiseFlags flags; rest) s)
    (hrest : ∀ t : State, EStateM.run rest t = .ok () (t.setMe (after t.me)))
    (hports : ∀ c : Ctx, (after c).ports = c.ports) :
    finish mach s = withFlags s flags after := by
  unfold withFlags
  split
  next h =>
    have hok : EStateM.run mach s = .ok () (s.setMe (after (raised s.me flags))) := by
      simp only [hrun, run_bind, run_raiseFlags_quiet h, hrest, State.me_setMe, State.setMe_setMe]
    have hunbound : (after (raised s.me flags)).anyPort = false := by
      rw [Ctx.anyPort, hports]
      exact hp
    exact finish_me hok hunbound
  next h => exact finish_trapped (by decide) (by simp [hrun, run_raiseFlags_enabled h])

end Flags

/-! ## The fixed tree (R267) -/

/-- The tree's rounds one after another: what is left stands first. -/
theorem treeOf_eq_head {α : Type} (op : α → α → α) (n : Nat) (l : List α) :
    treeOf op n l = ((pairUp op)^[n] l).head? := by
  induction n generalizing l with
  | zero => rcases l with _ | ⟨a, _ | ⟨b, r⟩⟩ <;> rfl
  | succ n ih =>
    rw [Function.iterate_succ_apply, ← ih]
    rcases l with _ | ⟨a, _ | ⟨b, r⟩⟩
    · cases n <;> rfl
    · cases n <;> rfl
    · rfl

/-- A step of the tree, the flags gathered with those of its two inputs. -/
def gather (op : Nat → Nat → Nat × FFlags) (a b : Nat × FFlags) : Nat × FFlags :=
  ((op a.1 b.1).1, (op a.1 b.1).2 ||| a.2 ||| b.2)

theorem pairUp_gather (op : Nat → Nat → Nat × FFlags) : pairUp (gather op) = level op := by
  funext l
  induction l using level.induct with
  | case1 a b r ih => rw [pairUp, level, ih]; rfl
  | case2 l h =>
    rcases l with _ | ⟨a, _ | ⟨b, r⟩⟩
    · rfl
    · rfl
    · exact absurd rfl (h a b r)

/-- The tree's inputs: a disabled lane gives the identity. -/
def treeInputs (c : Ctx) (v1 : VReg) (k : KReg) (identity : Nat) : List (Nat × FFlags) :=
  (List.finRange 16).map fun j => (if on c k j then (lane c v1 j).toNat else identity, 0#7)

/-! ## Floating reductions (R267) -/

section Vfred
variable {s : State} {m : FpMode} {vd v1 : VReg} {k : KReg} {identity v : Nat} {flags : FFlags}

theorem vfred_eq (op : Nat → Nat → Nat × FFlags) (identity : Nat) (vd v1 : VReg) (k : KReg) :
    vfred op identity vd v1 k = (do
      let c ← me
      let r := (treeOf (gather op) 4 (treeInputs c v1 k identity)).getD (identity, 0#7)
      raiseFlags r.2
      writeLane0 vd r.1) := rfl

/-- A reduction raises its tree's flags, then writes the tree's value to lane 0. -/
theorem run_vfred {op : Nat → Nat → Nat × FFlags}
    (ht : (level op)^[4] (treeInputs s.me v1 k identity) = [(v, flags)]) :
    EStateM.run (vfred op identity vd v1 k) s = EStateM.run (do raiseFlags flags; writeLane0 vd v) s := by
  have htree : treeOf (gather op) 4 (treeInputs s.me v1 k identity) = some (v, flags) := by
    rw [treeOf_eq_head, pairUp_gather, ht, List.head?_cons]
  simp only [vfred_eq, run_bind, run_me, htree, Option.getD_some]

/-- A reduction of an arithmetic core, once its mode is known. -/
theorem vfred_withFlags {op : FpMode → Nat → Nat → Nat × FFlags} {mode : Mach FpMode} (hp : NoPort s)
    (ha : isArith s.cur.1 = true) (hmode : EStateM.run mode s = .ok m s)
    (ht : (level (op m))^[4] (treeInputs s.me v1 k identity) = [(v, flags)]) :
    finishArith (do let m ← mode; vfred (op m) identity vd v1 k) s = withFlags s flags fun c => permutes.lane0 c vd v :=
  (finishArith_eq ha).trans <|
    finish_raiseFlags hp (by simp only [run_bind, hmode, run_vfred ht]) (fun t => run_writeLane0 t vd v) fun _ => rfl

theorem exec_vfredOf {i : Instr} {rounding : Bool} {op : FpMode → Nat → Nat → Nat × FFlags} (hp : NoPort s)
    (ha : isArith s.cur.1 = true) (h : vfredOf i = some (rounding, op, identity, vd, v1, k)) (hm : modeOf rounding s.me = some m)
    (ht : (level (op m))^[4] (treeInputs s.me v1 k identity) = [(v, flags)]) :
    exec i s = withFlags s flags fun c => permutes.lane0 c vd v := by
  cases i with
  | vfredAdd =>
    cases h
    exact show execVfredAdd .. = _ from vfred_withFlags hp ha (run_roundingMode hm) ht
  | vfredMin =>
    cases h
    exact show execVfredMin .. = _ from vfred_withFlags hp ha (run_flushMode hm) ht
  | vfredMax =>
    cases h
    exact show execVfredMax .. = _ from vfred_withFlags hp ha (run_flushMode hm) ht
  | _ => cases h

end Vfred

/-- Settles O16: each instruction of VOP's table maps an operation over the elements of two registers, and that
operation gives what the row gives. -/
theorem vopWritesElements : Obligations.VopWritesElements := by
  unfold Obligations.VopWritesElements
  exact fun i _ _ _ _ _ _ _ hp ha h => exec_vopOf i hp ha h

/-- Settles O20: the model's tree over sixteen lanes is the four levels of R267. -/
theorem floatReductions : Obligations.FloatReductions := by
  unfold Obligations.FloatReductions
  exact fun _ _ _ _ _ _ _ _ _ _ _ hp ha h hm ht => exec_vfredOf hp ha h hm ht

end Sys2Proof.Proofs.Vector
end
